-- ==== Sys2Proof/Word.lean ====
section
/-! DEFINITION. The machine's word types (R4, R117): bytes, 16-bit halves, 32-bit registers, 64-bit pairs and addresses. -/
namespace Sys2Proof

/-- A byte, the unit of every memory (R82). -/
abbrev Byte := BitVec 8
/-- A 16-bit half register (R117). -/
abbrev Half := BitVec 16
/-- A 32-bit register (R14). -/
abbrev Word := BitVec 32
/-- A 64-bit value: a register pair, an address or a word of code (R117, R264). -/
abbrev DWord := BitVec 64

end Sys2Proof
end

