-- ==== Sys2Proof/Syntax.lean ====
section
/-! DEFINITION. Instructions and steps as syntax: one constructor of `Instr` per row of spec/opcode_table.json.
The words of code (R264-R289) carry their decoded fields; the steps of the other units (spec/95) carry the object they act on. -/
namespace Sys2Proof

/-- Read-only specials of R31, specifiers 0xE0 to 0xE9. -/
inductive Special where
  | lane | tid | gid | wgx | wgy | wgz | core | die | row | width
deriving DecidableEq, Repr

/-- Inline constants of R279, specifiers 0xF0 to 0xF8. -/
inductive Konst where
  | zero | one | two | four | minusOne | fhalf | fone | ftwo | fminusOne
deriving DecidableEq, Repr

/-- An 8-bit operand specifier (R279). -/
inductive Opnd where
  | v (n : Fin 192)
  | s (n : Fin 32)
  | sp (x : Special)
  | k (c : Konst)
  | z
deriving DecidableEq, Repr

/-- Predicate guard: PG and PN (R274, R282). -/
structure Guard where
  neg : Bool
  p   : Fin 8
deriving DecidableEq, Repr

/-- Element types of the arithmetic layout (R284). -/
inductive Ty where
  | i32 | u32 | i64 | u64 | f32 | f16x2 | bf16x2 | i16x2 | u16x2 | i8x4 | u8x4
deriving DecidableEq, Repr

/-- Rounding modes (R7, R284). -/
inductive Rm where
  | rne | rtz | rdn | rup
deriving DecidableEq, Repr

/-- The C field of an arithmetic word: a specifier, or IMM8 when CI is set (R284, R285). -/
inductive CField where
  | op (o : Opnd)
  | imm (b : Byte)
deriving DecidableEq, Repr

/-- Fields of a Format F word with the arithmetic MOD layout (R274, R284); `sub` is bits 5:0. -/
structure ArithF where
  g   : Guard
  d   : Opnd
  a   : Opnd
  b   : Opnd
  c   : CField
  t   : Ty
  rm  : Rm
  sat : Bool
  na  : Bool
  nb  : Bool
  sub : BitVec 6
deriving DecidableEq, Repr

/-- Access sizes (R286). -/
inductive Sz where
  | b8 | b16 | b32 | b64 | b128
deriving DecidableEq, Repr

/-- Address spaces (R59). -/
inductive Space where
  | global | scratch | cluster | bucket
deriving DecidableEq, Repr

/-- Scopes (R87, R286). -/
inductive Scope where
  | none | grp | wg | cl | die | dev | sys
deriving DecidableEq, Repr

/-- OR field (R286): plain, acquire/release, relaxed. -/
inductive Ord3 where
  | plain | sync | rlx
deriving DecidableEq, Repr

/-- Cache hints (R67). -/
inductive Hint where
  | normal | stream | keep | bypass
deriving DecidableEq, Repr

/-- Fields of a Format F word with the memory MOD layout (R286); `c` and `idx` as the entry gives. -/
structure MemF where
  g   : Guard
  d   : Opnd
  a   : Opnd
  b   : Opnd
  c   : Byte
  sz  : Sz
  sx  : Bool
  sp  : Space
  sc  : Scope
  ord : Ord3
  ch  : Hint
  idx : BitVec 3
deriving DecidableEq, Repr

/-- Fields of STI, whose MOD layout replaces SP and SC by the mask register number (R404). -/
structure StiF where
  g   : Guard
  d   : Opnd
  a   : Opnd
  b   : Opnd
  c   : Byte
  sz  : Sz
  m   : Fin 32
  ord : Ord3
  ch  : Hint
  idx : BitVec 3
deriving DecidableEq, Repr

/-- Fields of a Format F word whose MOD layout is the entry's own (R283). -/
structure OwnF where
  g   : Guard
  d   : Opnd
  a   : Opnd
  b   : Opnd
  c   : Opnd
deriving DecidableEq, Repr

/-- The 16 Format D operations (R277). -/
inductive SlotOp where
  | iadd | isub | and | or | xor | shl | shr | sar | imin | imax | mov | fadd | fmul | fmin | fmax | imul
deriving DecidableEq, Repr

/-- One slot of a Format D word (R276). -/
structure DSlot where
  op : SlotOp
  d  : Opnd
  s  : CField
deriving DecidableEq, Repr

/-- A clause header (R264); reserved bits are zero in every header that decodes. -/
structure Header where
  len  : Fin 16
  pool : Bool
  wait : BitVec 12
  seta : Fin 16
  setb : Fin 16
  yld  : Bool
  pfv  : Bool
  pfo  : BitVec 20
deriving DecidableEq, Repr

/-- A thread: workgroup instance, group in it, index in the group (R14, R31). -/
structure ThreadId where
  wg  : Nat
  gid : Nat
  ix  : Nat
deriving DecidableEq, Repr

/-- A group: workgroup instance and %gid. -/
structure GroupId where
  wg  : Nat
  gid : Nat
deriving DecidableEq, Repr

/-- Which source of a core's copy engine a command comes from (R164); `queue` is a queue copy (R238). -/
inductive CopySrc where
  | cpy
  | chain (desc : DWord) (ctx : Nat)
  | sched (wg : Nat) (entry : Nat)
  | queue (q : Nat)
deriving DecidableEq, Repr

/-- An engine instance that serves listed chains (R164). -/
inductive EngRef where
  | copy (core : Nat)
  | layout (die : Nat)
  | collective (die : Nat)
deriving DecidableEq, Repr

/-- What a page fault holds (R256, R257). -/
inductive FaultSite where
  | access (id : Nat)                       -- a pending access of a thread
  | fetch (t : ThreadId)                    -- instruction fetch of a thread
  | record (t : ThreadId)                   -- a record that an instruction reads at issue
  | copyCmd (core : Nat) (src : CopySrc)    -- the copy engine's command
  | chainRead (e : EngRef) (desc : DWord) (ctx : Nat)  -- an engine reading a chain's descriptor or entry
  | matrix (core : Nat) (wg : Nat)          -- the matrix engine's entry
  | prologue (wg : Nat)                     -- a transform binding
  | engine (e : EngRef) (desc : DWord) (ctx : Nat)     -- the layout or collective command of a chain
  | dicer (die : Nat)
  | binner (die : Nat)
  | raster (die : Nat) (r : Nat)
  | hubCmd (q : Nat)                        -- the read of a queue's next ring entry
  | hubLaunch (q : Nat)                     -- a launch-time read of a queue's next command
  | hubRun (q idx : Nat)                    -- the word of a wait or signal that has started
  | hubDone (disp : Nat)                    -- a dispatch's completion store, or its reads when it starts as a graphics dispatch
  | hubInst (inst : Nat)                    -- a graph instance's accesses
deriving DecidableEq, Repr

/-- Common part of a mailbox request (R300): the function (0 = PF, 1-16 = VF), the completion word, and whether a reserved
byte is nonzero. -/
structure MailReq where
  fn  : Nat
  cw  : DWord
  bad : Bool
deriving DecidableEq, Repr

/-- A firmware image in the module's flash, header and body (R307). -/
structure FirmwareImage where
  bytes : List Byte
deriving DecidableEq, Repr

/-- The consumer of data that could not be corrected (R302, R303). -/
inductive ErrSite where
  | access (id : Nat)                       -- a pending access of a thread
  | unit (site : FaultSite)                 -- what reads for a fetch, a record, an engine, a graphics unit or the hub
  | area (queue : Nat)                      -- a save or restore of a queue's work
deriving DecidableEq, Repr

/-- What reaches the part from outside, or befalls its memories, without a row of the opcode table. -/
inductive Outside where
  | mail (fn : Nat) (request : List Byte)   -- the next 64 bytes of a function's mailbox ring (R300)
  | notifyRead (fn off size : Nat)          -- a read of BAR0 at or above the notify pages (R298)
  | corrected (die unit : Nat) (addr : DWord)  -- an error of a memory that its code corrects (R302)
  | lost (sector : Nat)                     -- a 32-byte sector of a GDDR7 array or an L2 whose data cannot be corrected (R302)
  | hit (site : ErrSite)                    -- an uncorrectable error elsewhere: the network, the SRAM pool, a dirty L1 line (R302)
deriving DecidableEq, Repr

/-- The rows of spec/opcode_table.json. -/
inductive Instr where
  -- control (R289, row 0x00 and 0x01)
  | nop
  | br (g : Guard) (imm : Word)
  | brx (f : OwnF)
  | call (g : Guard) (d : Opnd) (imm : Word)
  | callx (f : OwnF)
  | ret (f : OwnF)
  | exit (f : OwnF)
  | join (f : OwnF)
  | yield (f : OwnF)
  | bkpt (f : OwnF)
  | trap (f : OwnF) (n : Byte)
  | eret (f : OwnF)
  -- integer arithmetic
  | iadd (f : ArithF)
  | iaddx (f : ArithF)
  | isub (f : ArithF)
  | isubx (f : ArithF)
  | imul (f : ArithF)
  | imulhi (f : ArithF)
  | imad (f : ArithF)
  | imadw (f : ArithF)
  | imin (f : ArithF)
  | imax (f : ArithF)
  | iabs (f : ArithF)
  | idot4 (f : ArithF)
  | and (f : ArithF)
  | or (f : ArithF)
  | xor (f : ArithF)
  | shl (f : ArithF)
  | shr (f : ArithF)
  | sar (f : ArithF)
  | rotl (f : ArithF)
  | bfe (f : ArithF)
  | bfi (f : ArithF)
  | popc (f : ArithF)
  | clz (f : ArithF)
  | brev (f : ArithF)
  | lea (f : ArithF)
  | lea64 (f : ArithF)
  | sel (f : ArithF)
  | iset (f : ArithF)
  | mov (f : ArithF)
  | movi (g : Guard) (d : Opnd) (imm : Word)
  | ldl (g : Guard) (d : Opnd) (wide : Bool) (imm : Word)
  | plop (f : OwnF) (lut : Byte) (pd pa pb pc : Fin 8)
  | pmov (f : OwnF)
  | pmovSet (f : OwnF) (mask : BitVec 7)
  -- floating point
  | fadd (f : ArithF)
  | fmul (f : ArithF)
  | ffma (f : ArithF)
  | fmin (f : ArithF)
  | fmax (f : ArithF)
  | fset (f : ArithF)
  | fdiv (f : ArithF)
  | frcp (f : ArithF)
  | frsq (f : ArithF)
  | fsqrt (f : ArithF)
  | fexp2 (f : ArithF)
  | flog2 (f : ArithF)
  | fsinp (f : ArithF)
  | fcosp (f : ArithF)
  | frnd (f : ArithF)
  | ffrac (f : ArithF)
  | fclass (f : ArithF)
  | f2i (f : ArithF)
  | i2f (f : ArithF)
  | fcvt (f : ArithF)
  | fpadd (f : ArithF)
  | fpmul (f : ArithF)
  | fpmad (f : ArithF)
  -- narrow formats
  | qde4 (f : ArithF)
  | qde5 (f : ArithF)
  | qdb (f : ArithF)
  | qdt (f : ArithF)
  | qce4 (f : ArithF)
  | qce5 (f : ArithF)
  | qcb (f : ArithF)
  | qscl (f : ArithF)
  | dqe4 (f : ArithF)
  | dqe5 (f : ArithF)
  | dqb (f : ArithF)
  | dqt (f : ArithF)
  -- lane operations
  | share (f : ArithF)
  | vmask (f : ArithF)
  | elect (f : ArithF)
  | rdlane (f : ArithF)
  | scan (f : ArithF)
  | redux (f : ArithF)
  | matchLanes (f : ArithF)
  -- memory
  | ld (f : MemF)
  | st (f : MemF)
  | sti (f : StiF)
  | ldp (f : MemF)
  | stp (f : MemF)
  | pref (f : MemF)
  | wbr (f : MemF)
  | invr (f : MemF)
  | fenceRel (f : MemF)
  | fenceAcq (f : MemF)
  | tfence (f : MemF)
  | waita (f : MemF)
  | atom (f : MemF)
  | acas (f : MemF)
  | red (f : MemF)
  | pladd (f : MemF)
  | qsend (f : MemF)
  | qrecv (f : MemF)
  | publish (f : MemF)
  -- barriers, engines
  | barGrp (f : OwnF) (n : Fin 16)
  | barWg (f : OwnF) (n : Fin 16)
  | barCl (f : OwnF) (n : Fin 16)
  | stage (f : OwnF)
  | stageRel (f : OwnF) (e : Byte)
  | chapp (f : OwnF)
  | chadv (f : OwnF)
  | mma (f : OwnF)
  | accld (f : OwnF) (tile : Fin 4)
  | accst (f : OwnF) (tile : Fin 4)
  | accz (f : OwnF) (tile : Fin 4)
  | etake (f : OwnF)
  | egive (f : OwnF)
  | cpy (f : OwnF)
  | tex (f : OwnF) (nc : Fin 4)
  | texg (f : OwnF) (nc : Fin 4)
  | rayq (f : OwnF) (any : Bool)
  | gbin (f : OwnF) (pd : Fin 8)
  | gsub (f : OwnF)
  | bkget (f : OwnF)
  | bkdone (f : OwnF)
  | getsr (f : OwnF) (sr : Byte)
  | setsr (f : OwnF) (sr : Byte)
  | formatD (s0 s1 : DSlot)
  | clauseStart (h : Header)
  -- steps of the memory system and of waiting threads
  | loadComplete (acc : Nat)
  | storeComplete (acc : Nat)
  | joinTimeout (t : ThreadId)
  | phaseQueueScan (core : Nat)
  | channelWake (cluster ch : Nat)
  | waitaWake (t : ThreadId)
  | icacheMissFill (core line : Nat)
  | pageFault (site : FaultSite)
  | faultRecordWrite (fn : Nat)
  | injectedLineReceive (core line : Nat)
  | injectedCopyInvalidate (core line : Nat)
  | l2Eviction (die line : Nat)
  | matrixChainRoom (core : Nat)
  -- engines
  | matrixEntryStart (core wg : Nat)
  | matrixEntryComplete (core wg : Nat)
  | chappRoom (t : ThreadId)
  | chadvListRoom (t : ThreadId)
  | cpyQueueRoom (core : Nat)
  | chainEntryTake (e : EngRef) (ix : Nat)
  | engineNop (e : EngRef) (src : CopySrc)
  | copyCommand (core : Nat) (src : CopySrc)
  | copyCommandComplete (core : Nat) (src : CopySrc)
  | commandResume (site : FaultSite)
  | scheduleIterationStart (wg entry : Nat)
  | scheduleIterationComplete (wg entry : Nat)
  | prologueDequantise (wg : Nat)
  | prologueTranspose (wg : Nat)
  | prologueHadamard (wg : Nat)
  | prologuePlaneReduction (wg : Nat)
  | im2col (die : Nat)
  | allReduce (die : Nat)
  | reduceScatter (die : Nat)
  | allGather (die : Nat)
  | broadcast (die : Nat)
  | cordReceive (die : Nat) (cord : List Byte)   -- a cord that arrives from another package, or none: the next in flight here
  -- graphics
  | graphicsDispatchStart (disp : Nat)
  | dicePatch (die : Nat)
  | binGrid (die : Nat)
  | binningComplete (disp : Nat)
  | takeBucket (die r : Nat)
  | rasteriseBucket (die r : Nat)
  -- queues and launches
  | notifyWrite (fn : Nat) (off : Nat) (size : Nat) (value : DWord)
  | queueNop (q : Nat)
  | queueLaunch (q : Nat)
  | queueGraphLaunch (q : Nat)
  | queueWait (q : Nat)
  | queueWaitWake (q : Nat)
  | queueSignal (q : Nat)
  | queueCopy (q : Nat)
  | graphNodeStart (inst node : Nat)
  | graphInstanceComplete (inst : Nat)
  | mapperTimer
  | dispatcherTurn (die : Nat)
  | workgroupEnd (wg : Nat)
  | dispatchComplete (disp : Nat)
  | preemptionRequest (slot : Nat)
  | preemptionDeadline (core slot : Nat)
  -- mailbox
  | queueCreate (r : MailReq) (q : Nat) (desc : DWord)
  | queueDestroy (r : MailReq) (q : Nat)
  | queueReset (r : MailReq) (q : Nat)
  | contextDefine (r : MailReq) (ctx : Nat) (root : DWord)
  | contextDelete (r : MailReq) (ctx : Nat)
  | translationInvalidate (r : MailReq) (ctx : Nat) (flags : Byte) (start len : DWord)
  | faultReplay (r : MailReq) (tag : DWord)
  | faultCancel (r : MailReq) (tag : DWord)
  | handlerRegister (r : MailReq) (ctx : Nat) (entry : DWord)
  | handlerRemove (r : MailReq) (ctx : Nat)
  | regionCreate (r : MailReq) (region ctx : Nat)
  | regionDelete (r : MailReq) (region : Nat)
  | l2Pin (r : MailReq) (die : Nat) (base size : DWord)
  | l2Unpin (r : MailReq) (die : Nat) (base : DWord)
  | engineCommandAbort (r : MailReq) (ctx die : Nat) (desc ix : DWord)
  | dasrReadClear (r : MailReq) (die : Nat) (buf : DWord)
  | setAgeQuantum (r : MailReq) (age quantum : Nat)
  | peerTableWrite (r : MailReq) (pkg : Nat) (addr : DWord)
  | attestationRequest (r : MailReq) (nonce : List Byte) (buf : DWord)
  | errorLogRead (r : MailReq) (buf : DWord)
  | dieCountersRead (r : MailReq) (die : Nat) (buf : DWord)
  | dieCounterSelect (r : MailReq) (die ctr : Nat) (ev : Byte)
  | dieCountersClear (r : MailReq) (die : Nat)
  | faultRingRegister (r : MailReq) (base : DWord) (flsize : Nat)
  | faultRingRemove (r : MailReq)
  -- host link, integrity, thermal
  | hostBar2Access (addr : Nat) (write : List Byte) (readLen : Nat)
  | partReset (img : FirmwareImage)
  | thermalSensorRead (temps : List Nat)
  | powerRead (watts : Nat)
  | gddr7Scrub (die : Nat)
  | gddr7LinkCrcError (die : Nat) (site : ErrSite) (retries : Nat)
  | ucieCrcError (link : Nat) (retries : Nat)
  | pcieLinkFailure
  | vfResourceAssign (vf : Nat) (queues contexts : List Nat) (slots : Nat)
  | mailboxOpcodeUnlisted (r : MailReq) (op : Byte)
deriving DecidableEq, Repr

end Sys2Proof
end

