-- ==== Sys2Proof/Config.lean ====
section
/-! DEFINITION. What an implementation fixes and the free values: constants with no body, so that nothing can be proved of their value.
Each takes `State.tick` or `State.fresh` (plain counters of the state), so two draws are independent (log 1, log 4). -/
namespace Sys2Proof.Config

/-- Which enabled party moves next (R11); taken modulo the number of candidates. -/
opaque pick : Nat → Nat
/-- What reaches the part from outside at a tick: notify writes, mailbox requests, link and sensor events (R297-R310). -/
opaque arrivals : Nat → List Instr
/-- Which sectors a scrub corrects (R302), by draw. -/
opaque scrubbed : Nat → List Nat
/-- What else reaches it or befalls it at a tick (R298, R300, R302). -/
opaque outside : Nat → List Outside
/-- Skid of a group after a halt broadcast, taken modulo 5 (R258). -/
opaque skid : Nat → Nat → Nat
/-- The way a replacement evicts (R64: pseudo-LRU, not defined bit by bit). -/
opaque victim : Nat → Nat
/-- Which cached translation serves an access, or none (R73, R77). -/
opaque tlbPick : Nat → Nat
/-- Which of the 16 entries of a differing 64 KiB page a translation uses (R75). -/
opaque sixteenth : Nat → Nat
/-- Core cycles that passed since the last read of a timing counter (R304, R306). -/
opaque elapsed : Nat → Nat
/-- Nanoseconds of the hub's timer that pass before a step, as far as no 10 us mark is passed (R240). -/
opaque hubTicks : Nat → Nat
/-- Timing-dependent event counts since the last read of a counter, by event code (R304, R305). -/
opaque eventCount : Nat → Nat → Nat
/-- Which entries of the walk cache serve a walk (R73, R77), by draw and entry. -/
opaque walkUse : Nat → Nat → Bool
/-- The row of an L2 slice in which a line is held (R68 names the slice only); taken modulo the 1,024 rows. -/
opaque l2Row : Nat → Nat
/-- How a 16-byte access is performed (R83): modulo 3, as one, or its lower or its upper half first. -/
opaque halves : Nat → Nat
/-- How many ranks send a cord's partial sums the other way round the ring under the native profile (R191), by collective and cord. -/
opaque ringSplit : Nat → Nat → Nat
/-- A byte of contents that the spec leaves open, by draw and place. -/
opaque freeByte : Nat → Nat → Byte
/-- Whether a pending reduction merges with the one before it in its write-queue entry (R112). -/
opaque merges : Nat → Bool
/-- Contents of an accumulator tile after its command failed (R162: unspecified), by draw and byte. -/
opaque failedTile : Nat → Nat → Byte
/-- Result of an operation whose value the spec leaves open, by draw. -/
opaque freeWord : Nat → Word
/-- A free bit: a choice between two allowed behaviours, by draw. -/
opaque freeBit : Nat → Bool
/-- SHA3-512 digest of the boot ROM (R310): a byte by index. -/
opaque bootRomDigest : Nat → Byte
/-- Serial number of the part (R310). -/
opaque serial : DWord
/-- ML-DSA-87 signature of the part's identity key over a digest (R310): a byte by index. -/
opaque signature : List Byte → Nat → Byte
/-- SHA3-512 digest of the firmware key, fused into the hub (R307): a byte by index. -/
opaque fusedKey : Nat → Byte
/-- ML-DSA-87 verification of a signature over a digest with a public key (R307). -/
opaque verifies : List Byte → List Byte → List Byte → Bool
/-- The rollback counter fused into the hub (R307). -/
opaque rollback : Nat

end Sys2Proof.Config
end

