-- ==== Sys2Proof/Machine/State.lean ====
section
/-! DEFINITION. The state of the part (INVENTORY.md, "State"), its value after reset, and the reasons a step can stop.
Plain data throughout. Collections keyed by a name are association lists (`Map`), read and written by Machine/Ops.lean. -/
namespace Sys2Proof.Machine

/-- An association list; a key that is absent has no entry, or the entry's value at reset where that is said. -/
abbrev Map (κ ν : Type) := List (κ × ν)

/-- Bytes by address, in the canonical form of Machine/Ops.lean (`Mem.wf`): addresses rising, no zero byte listed. -/
abbrev Mem := List Host.Cell

-- Threads, groups, workgroups, clusters (R14)

/-- Barrier levels (R32). -/
inductive BarLevel where
  | grp | wg | cl
deriving DecidableEq, Repr

/-- Why a thread is not ready although it has a next word (R16). -/
inductive Wait where
  | none
  | join                                 -- at JOIN; PC at the JOIN (R21)
  | bar (lvl : BarLevel) (n : Nat)       -- arrived at a barrier; PC after the BAR (R34)
  | yielding                             -- at a YIELD (R414), PC at the instruction; or after a BKDONE that gives way (R234), PC at the next header
  | chan (cluster ch : Nat)              -- blocking transfer; PC at the instruction (R49)
  | waita                                -- at WAITA; PC at the instruction (R411)
  | etake                                -- at ETAKE (R158)
  | chain                                -- matrix chain full (R143)
  | cpyq                                 -- CPY queue full (R170)
  | chapp (ctx : Nat) (desc : DWord)     -- chain ring full (R167)
  | chadv (e : EngRef)                   -- engine list full (R168)
  | record                               -- a record or fetch fault holds the thread (R256)
  | fetch                                -- an instruction-fetch miss (R246)
deriving DecidableEq, Repr

/-- The clause a thread is in (R264, R266). `wait` is nonzero until WAIT has been passed. -/
structure Clause where
  hdr  : DWord
  len  : Nat
  seta : Nat
  setb : Nat
  wait : BitVec 12
deriving DecidableEq, Repr

/-- A thread (R14, R259). `clause` none: the PC is in header position (R265). `flags`: f(k) in bits
6k+5:6k, as in R254. -/
structure Thread where
  pc      : DWord
  clause  : Option Clause
  regs    : List Word
  preds   : BitVec 7
  flags   : BitVec 72
  fsr     : BitVec 6
  fcr     : BitVec 3
  sys     : Bool
  trapcause : Word
  epc     : DWord
  trapaddr : DWord
  exited  : Bool
  wait    : Wait
  trapped : Bool      -- took a trap and has not resumed (R258)
  stopped : Bool      -- stopped unexecuted beside a trapping thread (R258)
  watch   : Option (Scope × Space × DWord × DWord)  -- WAITA: scope, space, address, target (R411)
  reserved : Option Nat -- CHAPP: the index reserved before its ring entry faulted (R334)
  resume  : Bool      -- the PC was restored and may be a word address: the clause is found by reading back (R266)
deriving DecidableEq, Repr

/-- Where a group's run stands (R41, R46, R249, R250). -/
inductive GStatus where
  | running      -- holds a slot
  | between      -- ended its phase, waits for the barrier (R41)
  | yielded      -- yielded with REQ set, held until restore (R249)
  | queued       -- in its core's phase queue (R42)
  | victim       -- saved as a victim, waits for its barrier (R250)
  | saved        -- in a context save area (R253)
deriving DecidableEq, Repr

/-- A grid task (R193): position or surface, its grid and its arena record. -/
structure GridTask where
  surface : Bool
  grid    : Nat
  recAddr : DWord
  done    : Bool     -- GBIN or GSUB has run (R202)
deriving DecidableEq, Repr

/-- A group (R14, R23, R25, R181, R258). -/
structure Group where
  width   : Nat
  status  : GStatus
  quarter : Nat
  row     : Nat
  off     : Nat
  base    : Nat
  sregs   : List Word
  preq    : Bool
  stage   : Nat
  rels    : List Nat
  skid    : Nat              -- clauses issued since the halt broadcast (R258)
  quota   : Nat              -- clauses it may still issue
  halted  : Bool
  npc     : DWord            -- resume address of its phase record (R44)
  cause   : Nat              -- CAUSE of its phase record: 0 phase end, 1 YIELD
  waitBar : Option (BarLevel × Nat)  -- the barrier it ended its phase at
  fullSave : Bool            -- saved with its full state, FORM 0 (R250, R251)
  held    : Bool             -- a thread has stopped at a page fault: replayable, not ready until every fault is answered (R256, R257)
deriving DecidableEq, Repr

/-- Halt state of a workgroup (R258, R260). -/
inductive Halt where
  | running
  | skidding (abort : Bool)  -- groups issue their last clauses; then abort, or let the handler finish
  | handler                  -- the first trapping group runs the handler
deriving DecidableEq, Repr

/-- What the first trap leaves for the error record (R263). -/
structure TrapRec where
  cause : Nat
  second : Nat
  epc : DWord
  taddr : DWord
  gid : Nat
deriving DecidableEq, Repr

/-- A copy command being run (R172-R178). -/
structure CopyRun where
  cmd   : List Byte
  addr  : DWord          -- where the command stands: ring entry, .L offset, or ADDR of a queue copy (R178)
  iter  : Nat
  elem  : Nat
  flags : BitVec 4       -- NV OF UF NX
  fault : Bool
  lives : Option (List (Nat × Bool))  -- the live bit of every region when it first started (R79)
  shape : Option (List Byte)  -- the shape record while it runs; none: not started, or to be read again (R179)
  late  : Bool           -- its completion word did not translate at the start: host memory is judged at the store (R53)
  native : Bool          -- a collective that runs under the native profile (R10)
deriving DecidableEq, Repr

/-- What a matrix-chain entry does (R143, R154). -/
inductive MxOp where
  | mma (block : List Byte) (xa xb ya yb : Word) (regb : List (List Word))
  | accld (base pitch : Word) (tile : Nat)
  | accst (base pitch : Word) (tile : Nat)
  | accz (tile : Nat)
deriving DecidableEq, Repr

/-- A matrix-chain entry (R143, R155, R162). -/
structure MxEntry where
  wg     : Nat
  gid    : Nat
  op     : MxOp
  issuers : List ThreadId
  flag   : Option Nat
  seq    : Nat           -- order of appending
  slab   : Nat           -- next slab
  flags  : BitVec 6      -- status bits raised so far (R153)
  started : Bool
  finished : Bool        -- array work done, completion still to be performed
  fault  : Bool
  handle : Option (List Byte)  -- the tensor handle, once the command has read it (R135, R149)
  late   : Bool          -- as CopyRun.late
deriving DecidableEq, Repr

/-- An entry of the CPY queue (R164, R170). -/
structure CpyEntry where
  wg     : Nat
  gid    : Nat
  issuers : List ThreadId
  flag   : Option Nat
  run    : CopyRun
deriving DecidableEq, Repr

/-- One entry of a static copy schedule of a workgroup instance (R180, R182). -/
structure SchedSt where
  cmd    : List Byte      -- the entry as last read (R246); none yet: empty
  next   : Nat            -- next iteration
  run    : Option CopyRun -- the iteration that runs; without a command: its entry's read waits for a fault
  dring  : Option Nat     -- DRING; none until its global completion words have been written to zero
  failed : Bool
deriving DecidableEq, Repr

/-- A workgroup instance (R14, R28, R58, R157, R182, R183). -/
structure Workgroup where
  disp    : Nat
  x       : Nat
  y       : Nat
  z       : Nat
  ngrp    : Nat
  die     : Nat
  core    : Nat
  wslot   : Nat           -- workgroup slot of the core, 0-31: its task tag (R85)
  cluster : Nat
  rank    : Nat
  resident : Bool
  ended   : Bool          -- every thread has exited (R342)
  spadOff : Nat           -- in units of 1 KiB
  spadKib : Nat
  phrOffs : List Nat      -- phase-record offsets by group
  spad    : Mem
  tiles   : List Mem      -- accumulator tiles, 4 bytes per cell
  tileNos : List Nat      -- physical tiles
  baton   : Option Nat
  halt    : Halt
  firstTrap : Option TrapRec
  sched   : List SchedSt
  nextBind : Nat          -- next transform binding; = NBIND when the prologue is complete
  bindFault : Bool
  task    : Option GridTask
  saveOff : Nat           -- its block's offset in the context save area while saved
  mxSaved : List MxEntry  -- its matrix-chain entries while saved (R162)
  cpySaved : List CpyEntry -- its CPY queue entries while saved (R192)
deriving DecidableEq, Repr

/-- A cluster (R29, R47). -/
structure Cluster where
  disp    : Nat
  die     : Nat
  c4      : Nat           -- 4-core cluster on the die
  members : List Nat      -- workgroups by rank
  set     : Option Nat    -- cluster set (R27)
  chans   : List (List Word)
  stirred : List Nat      -- channels whose count has changed since waiting threads were last woken (R49)
deriving DecidableEq, Repr

-- Memory system

/-- Page attributes that decide where a line may be held (R67, R68). -/
structure PageAttr where
  c  : Bool
  s  : Bool
  cp : BitVec 2
  rg : Option Nat        -- publish region of the page (R78)
deriving DecidableEq, Repr

/-- An L1 line (R64, R85). -/
structure L1Line where
  line  : Nat            -- physical address / 128
  valid : BitVec 4
  dirty : BitVec 128
  data  : BitVec 1024
  inj   : Bool
  tag   : Nat
  attr  : PageAttr
  way   : Nat
  rank  : Hint           -- insertion hint that still counts for its replacement (R67)
deriving DecidableEq, Repr

/-- An injected line on its way to a core (R96, R97): `sti` is its pending STI; `stale`: an invalidation follows it. -/
structure InjMsg where
  core  : Nat
  line  : Nat
  data  : BitVec 1024
  sti   : Nat
  attr  : PageAttr
  stale : Bool
deriving DecidableEq, Repr

/-- A line of a remote S page, or of the system range, held in a die's L2 (R68, R86, R105). -/
structure L2Line where
  valid : BitVec 4
  dirty : BitVec 128
  data  : BitVec 1024
  rg    : Option Nat
deriving DecidableEq, Repr

/-- A cached translation (R73-R78). -/
structure TlbEntry where
  ctx    : Nat
  va     : Nat           -- base of the leaf page
  size   : Nat
  pte    : DWord
deriving DecidableEq, Repr

/-- A cached non-leaf entry (R73, R77): its level, the address bits that chose it, and the entry. -/
structure WalkEntry where
  ctx  : Nat
  lvl  : Nat
  key  : Nat
  pte  : Nat
deriving DecidableEq, Repr

/-- Why a translation fails: the R76 cause, and the page that names the fault for R256. -/
structure XFault where
  cause : Nat
  page  : Nat
  size  : Nat
  wr    : Bool           -- the access was to write
deriving DecidableEq, Repr

/-- Read-modify-writes at memory: an operation of R321, or ACAS (R317). -/
inductive AtKind where
  | rmw (op : Byte)
  | cas
deriving DecidableEq, Repr

/-- One lane of an atomic execution: operand x (compare value for ACAS) and y (swap value). -/
structure AtLane where
  t  : ThreadId
  va : DWord
  d  : Opnd
  x  : DWord
  y  : DWord
deriving DecidableEq, Repr

/-- What a pending access does when it is performed (R271). Register operands are captured at issue. The lanes of one atomic
or injecting execution form one access, since they are performed together (R316, R405). -/
inductive AccOp where
  | load (d : Opnd) (sz : Sz) (sx : Bool)
  | store (data : List Byte)
  | stis (lanes : List (ThreadId × DWord × List Byte × Word))
  | ldl (d : Opnd) (wide : Bool)
  | atoms (k : AtKind) (ret : Bool) (sz : Sz) (lanes : List AtLane)
  | ldp (d : Opnd) (handle : List Byte) (block k : Nat) (rnd : Bool) (quad : Option Nat)
  | stp (handle : List Byte) (block : Nat) (planes : List Half) (e : Byte)
  | pladd (handle : List Byte) (ups : List (Nat × List Word))
  | wbr (len : Nat)
  | invr (len : Nat)
  | tex (d : Opnd) (nc : Nat) (grad : Bool) (desc prog : List Byte) (args : List Word) (ftz : Bool)
  | rayq (d : Opnd) (any : Bool) (scene : List Byte) (args : List Word)
deriving DecidableEq, Repr

/-- A pending access (R82-R86, R256, R270). `owners` are the threads whose flag counts it. -/
structure Acc where
  t     : ThreadId
  owners : List ThreadId
  op    : AccOp
  exec  : Nat            -- the execution it belongs to: one number per issue (R256)
  space : Space
  sc    : Scope
  ord   : Ord3
  ch    : Hint
  va    : DWord          -- effective address
  size  : Nat
  flag  : Option Nat     -- completion flag it counts on
  fault : Option Nat     -- page fault that holds it
  passed : Bool          -- a release of its thread at GRP or WG has gone by it (R85)
  leaf  : Option TlbEntry  -- the translation its instruction has made of its page (R73)
deriving DecidableEq, Repr

/-- A page fault not yet answered (R256, R257). -/
structure PFault where
  site  : FaultSite
  va    : DWord
  cause : Nat
  acc   : Nat            -- ACC of the record
  unit  : Nat
  die   : Nat
  core  : Nat
  slot  : Nat
  queue : Nat
  ctx   : Nat
  fn    : Nat
  page  : Nat            -- range of R256 that names the page
  size  : Nat
  noted : Bool           -- the fault holds its lanes (PAGE_FAULT has happened)
  tag   : Option Nat     -- TAG once its record is written
  replayed : Bool        -- answered with replay; the engine command resumes at COMMAND_RESUME
  cancelled : Bool       -- answered with cancel; its threads trap where they stop (R258)
deriving DecidableEq, Repr

-- Cores

/-- A PC-table entry (R15). Its threads are those whose keys match. -/
structure PcEntry where
  quarter : Nat
  pc      : DWord
  row     : Nat
  ctx     : Nat
  age     : Nat
deriving DecidableEq, Repr

/-- A listed chain (R164-R169). -/
structure Chain where
  desc  : DWord
  ctx   : Nat
  queue : Nat            -- queue of the publishing slot
  pubs  : List (Nat × Nat)   -- (count published, publishing workgroup), oldest first
  cur   : Option (Nat × CopyRun)   -- entry taken: index and command
  coll  : List (Nat × Nat)         -- collective: cords handled, with their phase (R190)
  part  : List (Nat × List Nat)    -- collective: sums that wait for a second partial sum, by cord (R191)
  fault : Bool
deriving DecidableEq, Repr

/-- One core (R14, R55-R67, R143, R160, R164, R304, R306). Absent from `State.cores`: as after reset. -/
structure Core where
  conf    : Option (Word × Nat)      -- partition word, injection quota (R56)
  pct     : List PcEntry
  stamps  : List Nat                 -- stamp counter per quarter
  frozen    : List (Option (Nat × PageAttr))  -- per quarter: the line its fetch awaits (R246)
  prefetch  : List (Nat × PageAttr)  -- lines asked for by PFV (R247)
  icache  : Map Nat (BitVec 1024)
  l1      : List L1Line
  cycle   : DWord
  evsel   : List Word                -- 8, bits 8:0 used
  evcnt   : List DWord               -- 8, bits 47:0 used
  chain   : List MxEntry             -- at most 64
  lease   : Option Nat               -- H
  leaseC  : Nat                      -- C
  cpyq    : List CpyEntry            -- at most 16
  chains  : List Chain               -- at most 8
  phaseQ  : List (Nat × Nat × Nat)   -- (workgroup, group, producer's task tag)
  qcopy   : Map Nat CopyRun          -- copy commands of queues run here, by queue (R238)
deriving DecidableEq, Repr

-- Dies

/-- State of a die's bucket memory (R63). -/
inductive BkState where
  | idle
  | graphics (disp : Nat)
  | window (disp : Nat) (bytes : Nat)
deriving DecidableEq, Repr

/-- A rasteriser (R207, R230, R231): the bucket in progress and how far it is, so that a fault or a forced save resumes at an item or a fragment
(R215). The samples so far stand in its raster area. -/
structure Raster where
  bucket : Option Nat
  item   : Nat               -- next item of the pass
  fault  : Bool
  pass   : Nat               -- 0: not begun; 1: opaque pieces; 2: transparent pieces; 3: writing
  items  : List (List Byte)  -- entries of the bucket's slot and ring, in order
  frags  : List (List Byte)  -- first 20 bytes of the fragments of the last transparent item still to append
  frag   : Option Nat        -- record taken for the first of them
  head   : Nat               -- the bucket's last fragment so far
deriving DecidableEq, Repr

def Raster.idle : Raster := ⟨none, 0, false, 0, [], [], none, 0xFFFFFFFF⟩

/-- A piece of a grid: its columns and rows. -/
structure Piece where
  u0 : Nat
  v0 : Nat
  pu : Nat
  pv : Nat
deriving DecidableEq, Repr

/-- A placed piece: where later buckets refer to it. -/
inductive Placed where
  | slot (die slot off : Nat)
  | pool (va : Nat)
deriving DecidableEq, Repr

/-- How far a binner is with a grid (R205, R215). -/
structure BinWork where
  grid   : List Byte         -- the record as read
  todo   : Option Piece      -- what is still to be placed in the anchor bucket
  placed : List Placed
  refs   : Nat               -- references added to the other buckets
  chunk  : Option Nat        -- spill chunk taken and not yet linked
deriving DecidableEq, Repr

/-- A grid that GSUB has handed to a binner (R201, R205). -/
structure BinReq where
  disp    : Nat
  recAddr : DWord
  issuers : List ThreadId   -- threads whose flag counts the GSUB until the record is read
  flag    : Option Nat
  work    : Option BinWork  -- none until the record is read
deriving DecidableEq, Repr

/-- How far a dicer is with a patch (R197, R198, R215). -/
structure DiceWork where
  patch : List Byte          -- the patch record as read
  first : Nat                -- its first arena record, once taken
  stage : Nat                -- 0: discards not counted; 1: no records taken; 2: map not written; 3 + n: n grids emitted
deriving DecidableEq, Repr

/-- A dispatch's patches on a die: the next one to dice (R197). -/
structure DiceReq where
  disp  : Nat
  patch : Nat
  work  : Option DiceWork
deriving DecidableEq, Repr

/-- One compute die. -/
structure Die where
  bkState : BkState
  bk      : Mem
  bkDraw  : Option Nat              -- the draw of the free bytes that it held when last released (R214); see bkMask
  dasr    : BitVec 5
  pins    : List (Nat × Nat)        -- pinned regions: base, size (R70)
  l2      : Map Nat L2Line
  injMask : Map Nat (BitVec 32)     -- R97
  dir     : Map Nat (BitVec 4 × Option Nat)  -- home directory of C lines: presence, owner (R69)
  tlb     : List TlbEntry
  walk    : List WalkEntry          -- the walk cache (R73)
  layout  : List Chain
  coll    : List Chain
  ctrSel  : List Byte               -- 16
  ctrVal  : List DWord              -- 16, bits 47:0
  dicing  : List DiceReq
  diceFault : Bool
  toBin   : List BinReq
  binFault : Bool
  rasters : List Raster             -- 2
deriving DecidableEq, Repr

-- Dispatches, graphs, queues, slots

/-- A launch record (R242). -/
structure Launch where
  entry : DWord
  args  : DWord
  mode  : Nat
  wcode : Nat
  nreg  : Nat
  ngrp  : Nat
  cfirst : Nat
  ccount : Nat
  cx    : Nat
  cy    : Nat
  cz    : Nat
  chen  : Bool
  batonSel : Nat
  dbp   : Bool
  part  : Word
  spb   : Nat
  dimx  : Nat
  dimy  : Nat
  dimz  : Nat
  wgsel : Word
  m0    : DWord
  m1    : DWord
  clsel : Half
  quota : Nat
  nsched : Nat
  lease : Nat
  nbind : Nat
  cwsc  : Nat
  cw    : DWord
  seq   : DWord
  schedA : DWord
  bindA : DWord
  deadline : Nat
  bkwin : Nat
deriving DecidableEq, Repr

/-- A graphics dispatch (R193-R230): the render record as read, the pattern table as read, and progress. -/
structure Gfx where
  rr      : List Byte          -- the 256 bytes of the render record
  pattern : List Byte
  posQ    : List (Nat × Nat × DWord)   -- position tasks to start: die, grid, record
  surfQ   : List (Nat × Nat × DWord)
  slotOf  : Map Nat Nat        -- bucket: its slot on its home die (R204)
  spill   : Map Nat (Nat × Nat × Nat)  -- bucket: first and last chunk of its spill ring, bytes taken in the last (R206)
  taken   : Bool               -- holds the bucket memory
  bks     : List (Mem × Option Nat × List Raster)   -- bucket memory and rasterisers of each die while saved (R231)
  binned  : Bool               -- binning complete, heads and tails valid (R207)
  heads   : List Nat           -- per die (R229)
  tails   : List Nat
  written : Nat                -- buckets written
deriving DecidableEq, Repr

/-- How far a dispatch's completion store has come. -/
inductive DispEnd where
  | running | storing | failed
deriving DecidableEq, Repr

/-- A dispatch (R30, R54). -/
structure Dispatch where
  queue   : Nat
  slot    : Nat
  cmd     : Nat                -- ring index of its command
  lrec    : DWord              -- launch record address
  lr      : Launch
  dies    : BitVec 4           -- DIEM
  node    : Option (Nat × Nat) -- graph instance and node
  ctx     : Nat
  nextCl  : Nat                -- clusters admitted so far
  live    : Nat                -- workgroups admitted and not ended
  gfx     : Option Gfx
  acqScope : Option Nat        -- scope of the completion it is ordered after (R84)
  fin     : DispEnd
  fault   : Bool               -- its completion store waits for a fault
  late    : Bool               -- as CopyRun.late
deriving DecidableEq, Repr

/-- A graph instance (R243-R245). -/
structure GraphInst where
  queue  : Nat
  slot   : Nat
  cmd    : Nat
  ctx    : Nat
  graph  : DWord
  buf    : DWord
  serial : Bool
  gsc    : Nat
  gcw    : DWord
  gseq   : DWord
  dies   : BitVec 4
  nodes  : List (List Nat × Nat × Option (Option Nat))
    -- predecessors; completion scope of the launch record; none: not started, some (some d): running, some none: complete
  failed : Bool
  fault  : Bool
  late   : Bool            -- as CopyRun.late
deriving DecidableEq, Repr

/-- A command of a queue that has started (R236-R238). -/
structure RunCmd where
  idx   : Nat
  bytes : List Byte
  obj   : Option Nat           -- dispatch or graph instance
  core  : Option Nat           -- core of a queue copy
  copy  : Option CopyRun       -- a queue copy while saved (R253, type 4)
  fault : Bool
  late  : Bool                 -- as CopyRun.late
deriving DecidableEq, Repr

/-- A user queue (R235-R239, R253, R263). -/
structure Queue where
  fn    : Nat
  desc  : DWord                -- physical address of its descriptor
  ring  : DWord
  lsize : Nat
  cls   : Nat
  ctx   : Nat
  dlmax : Nat
  csab  : DWord
  csas  : DWord
  errb  : DWord
  head  : DWord
  tail  : DWord
  err   : Bool
  running : List RunCmd
  lastScope : Option Nat       -- the strongest scope of its completions so far: they order its next command (R93)
  slot  : Option Nat
  waitStart : Nat
  savedWgs : List Nat          -- saved workgroups, in the order of their blocks
  savedCopies : List Nat       -- saved queue copies, by ring index
  csaUsed : Nat                -- USED of its area; 0 when it holds no saved work
  csaBlks : Nat
  readFault : Bool
  victim : Option Nat          -- slot whose pre-emption was requested for it (R240)
deriving DecidableEq, Repr

/-- A slot of the mapper (R239-R241, R249). -/
structure Slot where
  queue    : Option Nat
  lastUsed : Nat
  boundAt  : Nat
  served   : List Nat          -- when last served by each die's dispatcher
  preempt  : Bool              -- the mapper has requested pre-emption (R240)
  asked    : Bool              -- the request has reached the cores (R249)
  deadlines : List Nat         -- cores whose deadline counter still runs
deriving DecidableEq, Repr

/-- A translation context (R300 opcodes 4 and 7). -/
structure Context where
  root    : DWord
  handler : DWord              -- 0: none
  fn      : Nat
deriving DecidableEq, Repr

/-- A publish region (R78). -/
structure Region where
  ctx  : Nat
  live : Bool
deriving DecidableEq, Repr

/-- A fault ring (R423). -/
structure FaultRing where
  base   : DWord
  flsize : Nat
  ftail  : Nat
deriving DecidableEq, Repr

/-- An error-log record (R308). -/
structure ErrRec where
  time : Nat
  kind : Nat
  die  : Nat
  unit : Nat
  addr : DWord
  rep  : Nat
deriving DecidableEq, Repr

/-- Resources the PF gave a virtual function (R299). -/
structure VfRes where
  queues : List Nat
  ctxs   : List Nat
  slots  : Nat
deriving DecidableEq, Repr

/-- A cord in flight on the ring (R189). -/
structure Cord where
  toPkg  : Nat
  toDie  : Nat
  header : List Byte
  body   : List Byte
deriving DecidableEq, Repr

/-- Outcome of the boot ROM (R307). -/
structure Boot where
  verified : Bool
  version  : Nat
  digest   : List Byte
deriving DecidableEq, Repr

/-- Who moves: an issue quarter of a core (numbered 32 x die + core), or a step of another unit. -/
inductive Agent where
  | quarter (core q : Nat)
  | event (i : Instr)
  | input
  | outside
deriving DecidableEq, Repr

/-- The issue group being executed: the core, its quarter and the threads in ascending lane order (R17). -/
structure Issue where
  core    : Nat
  quarter : Nat
  threads : List ThreadId
deriving DecidableEq, Repr

/-- The whole part. -/
structure State where
  -- work
  threads   : Map ThreadId Thread
  groups    : Map GroupId Group
  wgs       : Map Nat Workgroup
  clusters  : Map Nat Cluster
  disps     : Map Nat Dispatch
  graphs    : Map Nat GraphInst
  queues    : Map Nat Queue
  slots     : List Slot
  -- units
  cores     : Map Nat Core
  dies      : List Die
  -- memory
  mem       : Mem
  lost      : List Nat        -- 32-byte sectors whose data cannot be corrected (R303)
  accs      : Map Nat Acc
  faults    : Map Nat PFault
  injMsgs   : List InjMsg     -- injected lines in flight
  invMsgs   : List (Nat × Nat)
    -- invalidations in flight: core, line
  kinds     : Map Nat (Bool × Bool)  -- lines reached through a C page, through an S page (R69)
  cords     : List Cord
  -- system software's tables
  contexts  : Map Nat Context
  regions   : Map Nat Region
  rings     : Map Nat FaultRing
  vfs       : Map Nat VfRes
  peers     : List DWord
  pkg       : Nat           -- the part's own package number (R187; log 14)
  age       : Nat
  quantum   : Nat
  -- hub and controller
  hubTime   : Nat
  errlog    : List ErrRec
  msix      : Map Nat Nat
  told      : Map Nat Nat     -- queue errors of which a function's system software has been notified (R263)
  reply     : List Byte       -- what the last read of the host returned (R297, R298)
  profNative : DWord
  profDbp   : DWord
  thermal   : Nat
  powers    : List Nat
  stopped   : Bool
  boot      : Boot
  -- the model's own fields (log 1)
  inputs    : List Instr
  outside   : List Outside
  tick      : Nat
  fresh     : Nat
  issue     : Issue
  turn      : Option Agent
deriving DecidableEq, Repr

/-- A core at reset (log 3 names the values the spec does not give). -/
def Core.reset : Core where
  conf := none
  pct := []
  stamps := [0, 0, 0, 0]
  frozen := [none, none, none, none]
  prefetch := []
  icache := []
  l1 := []
  cycle := 0
  evsel := List.replicate 8 0
  evcnt := List.replicate 8 0
  chain := []
  lease := none
  leaseC := 0
  cpyq := []
  chains := []
  phaseQ := []
  qcopy := []

/-- A die at reset. -/
def Die.reset : Die where
  bkState := .idle
  bk := []
  bkDraw := none
  dasr := 0
  pins := []
  l2 := []
  injMask := []
  dir := []
  tlb := []
  walk := []
  layout := []
  coll := []
  ctrSel := List.replicate 16 0
  ctrVal := List.replicate 16 0
  dicing := []
  diceFault := false
  toBin := []
  binFault := false
  rasters := [.idle, .idle]

/-- A slot at reset (R240: every last_used is 0). -/
def Slot.reset : Slot where
  queue := none
  lastUsed := 0
  boundAt := 0
  served := [0, 0, 0, 0]
  preempt := false
  asked := false
  deadlines := []

/-- The part right after reset and boot (R307, R308): nothing resident, all device memory and SRAM zero, no queue, AGE
2,000 us and QUANTUM 8,000 us (R422). The values of log 3 are the model's. -/
def State.reset : State where
  threads := []
  groups := []
  wgs := []
  clusters := []
  disps := []
  graphs := []
  queues := []
  slots := List.replicate 128 Slot.reset
  cores := []
  dies := List.replicate 4 Die.reset
  mem := []
  lost := []
  accs := []
  faults := []
  injMsgs := []
  invMsgs := []
  kinds := []
  cords := []
  contexts := []
  regions := []
  rings := []
  vfs := []
  peers := List.replicate 8 0
  pkg := 0
  age := 2000
  quantum := 8000
  hubTime := 0
  errlog := []
  msix := []
  told := []
  reply := []
  profNative := 0
  profDbp := 0
  thermal := 0
  powers := []
  stopped := false
  boot := ⟨true, 0, List.replicate 64 0⟩
  inputs := []
  outside := []
  tick := 0
  fresh := 0
  issue := ⟨0, 0, []⟩
  turn := none

/-- Why the machine stops: nothing stops it. Every trap and page fault of the spec is taken as the spec says, and a part that has stopped
until reset (R302, R309) goes on waiting for the reset. So there is no constructor, and nobody raises one (safe). -/
inductive Fault where
deriving DecidableEq, Repr

/-- Why an instruction has no meaning. -/
inductive Refusal where
  /-- Raised by an arm of `exec` whose instruction has no meaning yet, by its mnemonic. Safe: nothing is claimed of it. -/
  | notModelled (mnemonic : String)
deriving DecidableEq, Repr

end Sys2Proof.Machine
end

