-- ==== Sys2Proof/Machine/Ops.lean ====
section
/-! DEFINITION. Named operations over the state: association lists, bytes, memory, threads and their flags, the effect of a
word on a lane, taking a trap (R258-R261) and returning from it (R260, R340). -/
/-- The group of a thread. -/
def Sys2Proof.ThreadId.group (t : Sys2Proof.ThreadId) : Sys2Proof.GroupId := ⟨t.wg, t.gid⟩

namespace Sys2Proof.Machine

-- Association lists

def mget {κ ν : Type} [DecidableEq κ] : Map κ ν → κ → Option ν
  | [], _ => none
  | (k, v) :: m, x => if k = x then some v else mget m x

/-- Replaces the entry of a key, or adds it at the end. -/
def mput {κ ν : Type} [DecidableEq κ] : Map κ ν → κ → ν → Map κ ν
  | [], x, w => [(x, w)]
  | (k, v) :: m, x, w => if k = x then (k, w) :: m else (k, v) :: mput m x w

def mdel {κ ν : Type} [DecidableEq κ] (m : Map κ ν) (x : κ) : Map κ ν := m.filter (fun e => !decide (e.1 = x))

/-- Applies `f` to the value of a key that has one. -/
def mupd {κ ν : Type} [DecidableEq κ] : Map κ ν → κ → (ν → ν) → Map κ ν
  | [], _, _ => []
  | (k, v) :: m, x, f => if k = x then (k, f v) :: m else (k, v) :: mupd m x f

/-- Applies `f` at a position of a list. -/
def lmod {α : Type} : List α → Nat → (α → α) → List α
  | [], _, _ => []
  | a :: as, 0, f => f a :: as
  | a :: as, n + 1, f => a :: lmod as n f

/-- Folds a state over a list, first element first. -/
def each {α σ : Type} (s : σ) (xs : List α) (f : σ → α → σ) : σ := xs.foldl f s

-- Bytes (R117: little-endian)

/-- The low n bytes of a number, lowest first. -/
def leBytes : Nat → Nat → List Byte
  | 0, _ => []
  | n + 1, v => BitVec.ofNat 8 v :: leBytes n (v / 256)

/-- The number whose bytes, lowest first, are given. -/
def leNat : List Byte → Nat
  | [] => 0
  | b :: bs => b.toNat + 256 * leNat bs

/-- Field of n bytes at an offset of a record, little-endian. -/
def fld (bs : List Byte) (off n : Nat) : Nat := leNat ((bs.drop off).take n)

/-- Overwrites bytes of a record from an offset. -/
def putFld (bs : List Byte) (off : Nat) (v : List Byte) : List Byte := bs.take off ++ v ++ bs.drop (off + v.length)

def allZero (bs : List Byte) : Bool := bs.all (· == 0)

/-- Two's complement value of the low n bits. -/
def sgn (n v : Nat) : Int := if v % 2 ^ n < 2 ^ (n - 1) then (v % 2 ^ n : Nat) else (v % 2 ^ n : Nat) - (2 ^ n : Nat)

/-- The low n bits of an integer, as a number. -/
def wrap (n : Nat) (x : Int) : Nat := (x % ((2 ^ n : Nat) : Int)).toNat

/-- Bits 63:60 of an address are zero (R59, R76). -/
def hi4zero (a : DWord) : Bool := a.toNat < 2 ^ 60

-- Memory in canonical form: addresses rising, no zero byte listed; an unlisted address reads zero (R308; log 2)

def Mem.wf : Mem → Bool
  | [] => true
  | (_, b) :: [] => b != 0
  | (a, b) :: (a', b') :: m => b != 0 && decide (a < a') && Mem.wf ((a', b') :: m)

def Mem.rd : Mem → Nat → Byte
  | [], _ => 0
  | (a, b) :: m, x => if a = x then b else Mem.rd m x

def Mem.wr : Mem → Nat → Byte → Mem
  | [], x, v => if v = 0 then [] else [(x, v)]
  | (a, b) :: m, x, v =>
    if x < a then (if v = 0 then (a, b) :: m else (x, v) :: (a, b) :: m)
    else if a = x then (if v = 0 then m else (a, v) :: m)
    else (a, b) :: Mem.wr m x v

def Mem.rdN (m : Mem) (a n : Nat) : List Byte := (List.range n).map (fun i => Mem.rd m (a + i))

def Mem.wrN : Mem → Nat → List Byte → Mem
  | m, _, [] => m
  | m, a, b :: bs => Mem.wrN (Mem.wr m a b) (a + 1) bs

/-- The n bytes from an address on, in one pass over a list whose addresses rise and start at or above it. -/
def Mem.dump : Nat → Nat → Mem → List Byte
  | 0, _, _ => []
  | n + 1, a, [] => 0 :: Mem.dump n (a + 1) []
  | n + 1, a, (k, b) :: m => if k = a then b :: Mem.dump n (a + 1) m else 0 :: Mem.dump n (a + 1) ((k, b) :: m)

/-- The canonical form of bytes from an address on. -/
def Mem.ofBytes (a : Nat) (bs : List Byte) : Mem := (bs.zipIdx.filter (fun p => p.1 != 0)).map (fun p => (a + p.2, p.1))

-- Parts of the state

def State.thr (s : State) (t : ThreadId) : Option Thread := mget s.threads t
def State.grp (s : State) (g : GroupId) : Option Group := mget s.groups g
def State.wg (s : State) (w : Nat) : Option Workgroup := mget s.wgs w
def State.disp (s : State) (d : Nat) : Option Dispatch := mget s.disps d
def State.core (s : State) (c : Nat) : Core := (mget s.cores c).getD Core.reset
def State.die (s : State) (d : Nat) : Die := s.dies.getD d Die.reset
def State.queue (s : State) (q : Nat) : Option Queue := mget s.queues q
def State.slot (s : State) (n : Nat) : Slot := s.slots.getD n Slot.reset

def State.updThr (s : State) (t : ThreadId) (f : Thread → Thread) : State := { s with threads := mupd s.threads t f }
def State.updGrp (s : State) (g : GroupId) (f : Group → Group) : State := { s with groups := mupd s.groups g f }
def State.updWg (s : State) (w : Nat) (f : Workgroup → Workgroup) : State := { s with wgs := mupd s.wgs w f }
def State.updDisp (s : State) (d : Nat) (f : Dispatch → Dispatch) : State := { s with disps := mupd s.disps d f }
def State.updCore (s : State) (c : Nat) (f : Core → Core) : State := { s with cores := mput s.cores c (f (s.core c)) }
def State.updDie (s : State) (d : Nat) (f : Die → Die) : State := { s with dies := lmod s.dies d f }
def State.updQueue (s : State) (q : Nat) (f : Queue → Queue) : State := { s with queues := mupd s.queues q f }
def State.updSlot (s : State) (n : Nat) (f : Slot → Slot) : State := { s with slots := lmod s.slots n f }

/-- Advances the counter of draws and identifiers. -/
def State.bump (s : State) : State := { s with fresh := s.fresh + 1 }

/-- Core of a workgroup, numbered 32 x die + core. -/
def Workgroup.coreIx (w : Workgroup) : Nat := 32 * w.die + w.core

def State.wgOf (s : State) (t : ThreadId) : Option Workgroup := s.wg t.wg
def State.dispOf (s : State) (w : Nat) : Option Dispatch := (s.wg w).bind (fun wg => s.disp wg.disp)
def State.coreOf (s : State) (t : ThreadId) : Nat := ((s.wg t.wg).map Workgroup.coreIx).getD 0

/-- Registers per thread of a workgroup's dispatch (R13). -/
def State.nregOf (s : State) (w : Nat) : Nat := ((s.dispOf w).map (fun d => d.lr.nreg)).getD 0

/-- Translation context of a workgroup (R15). -/
def State.ctxOf (s : State) (w : Nat) : Nat := ((s.dispOf w).map (fun d => d.ctx)).getD 0

/-- Threads of a group in index order. -/
def State.groupThreads (s : State) (g : GroupId) : List ThreadId :=
  (s.threads.map Prod.fst).filter (fun t => decide (t.group = g))

/-- Threads of a group that have not exited. -/
def State.liveThreads (s : State) (g : GroupId) : List ThreadId :=
  (s.groupThreads g).filter (fun t => ((s.thr t).map (fun x => !x.exited)).getD false)

/-- Groups of a workgroup in %gid order. -/
def State.wgGroups (s : State) (w : Nat) : List GroupId :=
  (List.range (((s.wg w).map Workgroup.ngrp).getD 0)).map (fun g => ⟨w, g⟩)

/-- Lane of a thread within its quarter: group offset + index (R12). -/
def State.laneOf (s : State) (t : ThreadId) : Nat := ((s.grp t.group).map Group.off).getD 0 + t.ix

/-- Insertion of a thread into a list in ascending lane order. -/
def State.insertLane (s : State) (t : ThreadId) : List ThreadId → List ThreadId
  | [] => [t]
  | u :: us => if s.laneOf t < s.laneOf u then t :: u :: us else u :: State.insertLane s t us

def State.sortLanes (s : State) (ts : List ThreadId) : List ThreadId :=
  ts.foldl (fun acc t => State.insertLane s t acc) []

/-- The groups with threads in a list, in order of their first thread. -/
def groupsOf (ts : List ThreadId) : List GroupId := (ts.map ThreadId.group).eraseDups

-- Completion flags (R270)

def flagGet (f : BitVec 72) (k : Nat) : Nat := (f.toNat / 2 ^ (6 * k)) % 64
def flagSet (f : BitVec 72) (k v : Nat) : BitVec 72 :=
  (f &&& ~~~(BitVec.ofNat 72 63 <<< (6 * k))) ||| (BitVec.ofNat 72 (v % 64) <<< (6 * k))
def flagInc (f : BitVec 72) (k : Nat) : BitVec 72 := flagSet f k (flagGet f k + 1)
def flagDec (f : BitVec 72) (k : Nat) : BitVec 72 := flagSet f k (flagGet f k - 1)

/-- Counts one more on a flag; `none` counts on no flag. -/
def Thread.count (x : Thread) : Option Nat → Thread
  | none => x
  | some k => { x with flags := flagInc x.flags k }

def Thread.uncount (x : Thread) : Option Nat → Thread
  | none => x
  | some k => { x with flags := flagDec x.flags k }

/-- SETA or SETB of the thread's clause; 15 is no flag (R264). -/
def Thread.seta (x : Thread) : Option Nat := x.clause.bind (fun c => if c.seta < 12 then some c.seta else none)
def Thread.setb (x : Thread) : Option Nat := x.clause.bind (fun c => if c.setb < 12 then some c.setb else none)

/-- Some flag named by the mask is nonzero (R266). -/
def flagsBusy (f : BitVec 72) (mask : BitVec 12) : Bool :=
  (List.range 12).any (fun k => mask.getLsbD k && flagGet f k != 0)

-- Program counter (R266)

/-- Bits 59:0 of an address: what a PC holds (R14). -/
def pcBits (a : DWord) : DWord := a &&& 0x0FFFFFFFFFFFFFFF

/-- Past the current word: the next word, or the header after the clause. -/
def Thread.advance (x : Thread) : Thread :=
  let n := pcBits (x.pc + 8)
  match x.clause with
  | none => { x with pc := n }
  | some c => if n = pcBits (c.hdr + BitVec.ofNat 64 (8 * (c.len + 1))) then { x with pc := n, clause := none } else { x with pc := n }

/-- To a header position (R268). -/
def Thread.goto (x : Thread) (a : DWord) : Thread := { x with pc := pcBits a, clause := none }

/-- The address of the header that follows the thread's clause (R267, R275). -/
def Thread.afterClause (x : Thread) : DWord :=
  match x.clause with
  | none => pcBits (x.pc + 8)
  | some c => pcBits (c.hdr + BitVec.ofNat 64 (8 * (c.len + 1)))

/-- The word at the PC is the last of its clause (R267). -/
def Thread.atClauseEnd (x : Thread) : Bool := pcBits (x.pc + 8) == x.afterClause

/-- What is saved as the PC: the header while WAIT has not been passed (R265, R266). -/
def Thread.savedPc (x : Thread) : DWord :=
  match x.clause with
  | some c => if c.wait = 0 then x.pc else c.hdr
  | none => x.pc

-- Effect of one word on one lane

/-- What one execution does to its thread and its group's uniform registers. -/
structure LaneFx where
  vs  : List (Nat × Word) := []
  ss  : List (Nat × Word) := []
  ps  : List (Nat × Bool) := []
  fsr : BitVec 6 := 0
  jump : Option DWord := none
  accs : List Acc := []
deriving DecidableEq, Repr

/-- A trap raised by one lane's check: cause, INFO, faulting address (R259). -/
structure TrapInfo where
  cause : Nat
  info  : Nat := 0
  addr  : DWord := 0
deriving DecidableEq, Repr

def illegalInstr : TrapInfo := { cause := 1 }
def illegalState (a : DWord := 0) : TrapInfo := { cause := 2, addr := a }

inductive LaneRes where
  | fx (e : LaneFx)
  | trap (i : TrapInfo)
deriving DecidableEq, Repr

def setPred (p : BitVec 7) (n : Nat) (v : Bool) : BitVec 7 :=
  if v then p ||| (1 <<< n) else p &&& ~~~((1 : BitVec 7) <<< n)

/-- Writes v-registers, predicates and status of a thread. -/
def Thread.apply (x : Thread) (e : LaneFx) : Thread :=
  { x with
    regs := e.vs.foldl (fun r w => r.set w.1 w.2) x.regs
    preds := e.ps.foldl (fun p w => setPred p w.1 w.2) x.preds
    fsr := x.fsr ||| e.fsr }

def Group.writeS (g : Group) (ws : List (Nat × Word)) : Group :=
  { g with sregs := ws.foldl (fun r w => r.set w.1 w.2) g.sregs }

/-- A new pending access, counted on its owners' flag (R270). -/
def State.addAcc (s : State) (a : Acc) : State :=
  let s := { s with accs := s.accs ++ [(s.fresh, a)] }.bump
  a.owners.foldl (fun s t => s.updThr t (fun x => x.count a.flag)) s

/-- The effect of one lane: its registers, the group's uniform registers, its pending accesses, and its PC. -/
def State.applyFx (s : State) (t : ThreadId) (e : LaneFx) : State :=
  let s := s.updThr t (fun x => x.apply e)
  let s := if e.ss.isEmpty then s else s.updGrp t.group (fun g => g.writeS e.ss)
  let s := e.accs.foldl State.addAcc s
  match e.jump with
  | none => s.updThr t Thread.advance
  | some a => s.updThr t (fun x => x.goto a)

/-- The trap of each failing lane, in order. -/
def trapsOf : List (ThreadId × LaneRes) → List (ThreadId × TrapInfo)
  | [] => []
  | (t, .trap i) :: rs => (t, i) :: trapsOf rs
  | (_, .fx _) :: rs => trapsOf rs

-- Taking a trap (R258-R262)

/-- CAUSE, INFO of %trapcause (R259). -/
def trapWord (i : TrapInfo) : Word := BitVec.ofNat 32 (i.cause % 256 + 256 * (i.info % 256))

/-- Handler entry of a workgroup's context; 0 for none (R260). -/
def State.handlerOf (s : State) (w : Nat) : DWord := ((mget s.contexts (s.ctxOf w)).map Context.handler).getD 0

/-- A trap sets the trap registers of its thread; in system mode it is a double fault: SECOND receives the cause (R261). -/
def Thread.takeTrap (x : Thread) (i : TrapInfo) (epc : DWord) : Thread :=
  if x.sys then
    { x with trapcause := (x.trapcause &&& 0xFF00FFFF) ||| BitVec.ofNat 32 (65536 * (i.cause % 256)), trapped := true }
  else { x with trapcause := trapWord i, epc := epc, trapaddr := i.addr, trapped := true, reserved := none }

/-- The halt broadcast to one group: it may still issue up to four clauses, a free number (R258). -/
def State.broadcast (s : State) (g : GroupId) : State :=
  let mid := (s.liveThreads g).any (fun t => ((s.thr t).map (fun x => x.clause.isSome && !x.trapped && !x.stopped)).getD false)
  let q := Config.skid s.fresh g.gid % 5
  s.bump.updGrp g (fun x => { x with quota := q, skid := if mid && q != 0 then 1 else 0, halted := q == 0 })

/-- The first trap of a workgroup, from its lowest lane (R263). -/
def State.firstTrapOf (s : State) (t : ThreadId) : TrapRec :=
  match s.thr t with
  | none => ⟨0, 0, 0, 0, t.gid⟩
  | some x => ⟨x.trapcause.toNat % 256, x.trapcause.toNat / 65536 % 256, x.epc, x.trapaddr, t.gid⟩

/-- Halts a workgroup whose threads have just trapped: the first-trap record, the halt broadcast, and, when a handler is
registered, entry of the first group's trapping threads into system mode at the handler (R258, R260). A workgroup that another's abort has
halted records the first trap that it takes in its skid (R262). -/
def State.haltWg (s : State) (w : Nat) (ts : List ThreadId) : State :=
  match ts with
  | [] => s
  | t0 :: _ =>
    match (s.wg w).map Workgroup.halt with
    | some .running =>
      let h := s.handlerOf w
      let s := s.updWg w (fun x => { x with halt := .skidding (h == 0), firstTrap := some (s.firstTrapOf t0) })
      let s := (s.wgGroups w).foldl State.broadcast s
      if h = 0 then s
      else (ts.filter (fun t => t.gid == t0.gid)).foldl
        (fun s t => s.updThr t (fun x => { (x.goto h) with sys := true, trapped := false, wait := .none })) s
    | some _ => if ((s.wg w).bind Workgroup.firstTrap).isSome then s else s.updWg w (fun x => { x with firstTrap := some (s.firstTrapOf t0) })
    | none => s

/-- A trap in system mode aborts the workgroup when its groups have stopped (R261, R262). -/
def State.doubleFault (s : State) (t : ThreadId) : State :=
  let c := ((s.thr t).map (fun y => y.trapcause.toNat / 65536 % 256)).getD 0
  let s := s.updWg t.wg (fun x => { x with
    halt := .skidding true
    firstTrap := x.firstTrap.map (fun r => { r with second := c }) })
  s.updGrp t.group (fun g => { g with halted := true })

/-- Taking traps at one word. `epc` gives each thread's resume address. Only the failing threads have their trap registers set;
the other threads of the issue group stop at the word, unexecuted (R258). Threads of another workgroup that shared the
issue group are not halted and issue again (log 8). -/
def State.takeTraps (s : State) (issue : List ThreadId) (fails : List (ThreadId × TrapInfo)) (epc : Thread → DWord) : State :=
  let ts := fails.map Prod.fst
  let was := ts.filter (fun t => ((s.thr t).map Thread.sys).getD false)
  let s := fails.foldl (fun s f => s.updThr f.1 (fun x => x.takeTrap f.2 (epc x))) s
  let ws := (ts.map ThreadId.wg).eraseDups
  let s := (issue.filter (fun t => !ts.contains t && ws.contains t.wg)).foldl
    (fun s t => s.updThr t (fun x => { x with stopped := true })) s
  let s := ws.foldl (fun s w => s.haltWg w (ts.filter (fun t => t.wg == w && !was.contains t))) s
  was.foldl State.doubleFault s

-- Return from a trap (R260, R340)

/-- Flags of the issuers of an engine entry stop counting it (R162). -/
def State.uncountAll (s : State) (ts : List ThreadId) (flag : Option Nat) : State :=
  ts.foldl (fun s t => s.updThr t (fun x => x.uncount flag)) s

/-- The workgroup that published entry n of a chain (R169). -/
def pubOf (pubs : List (Nat × Nat)) (n : Nat) : Option Nat := (pubs.find? (fun p => n < p.1)).map Prod.snd

/-- The workgroup that the entry taken belongs to. -/
def Chain.owner (h : Chain) : Option Nat := h.cur.bind (fun r => pubOf h.pubs r.1)

/-- Engine commands of a workgroup that a fault holds, on its core. -/
def State.engineSite (s : State) (c w : Nat) : FaultSite → Bool
  | .copyCmd k .cpy => k == c && (s.core c).cpyq.any (fun e => e.wg == w && e.run.fault)
  | .copyCmd k (.chain desc ctx) => k == c && (s.core c).chains.any (fun h => h.desc == desc && h.ctx == ctx && h.owner == some w)
  | .copyCmd _ (.sched v _) => v == w
  | .matrix _ v => v == w
  | _ => false

/-- Drops the faults of the named sites; an access fault lasts while some access waits for it. -/
def State.dropFaults (s : State) (p : FaultSite → Bool) : State :=
  { s with faults := s.faults.filter (fun e => !p e.2.site) }

-- The kiln lease (R160)

/-- Queue of a workgroup. -/
def State.queueOfWg (s : State) (w : Nat) : Nat := ((s.dispOf w).map Dispatch.queue).getD 0
def State.slotOfWg (s : State) (w : Nat) : Nat := ((s.dispOf w).map Dispatch.slot).getD 0

def MxEntry.isMma (e : MxEntry) : Bool := match e.op with | .mma _ _ _ _ _ _ => true | _ => false

/-- The oldest entry of each workgroup of a chain. -/
def mxHeads (ch : List MxEntry) : List MxEntry := ch.filter (fun e => ch.all (fun f => f.wg != e.wg || e.seq ≤ f.seq))

def State.classOfSlot (s : State) (n : Nat) : Nat := (((s.slot n).queue.bind s.queue).map Queue.cls).getD 3

/-- The entry whose slot the lease goes to: smallest class, then appended earliest. -/
def State.leaseBest (s : State) : List MxEntry → Option MxEntry
  | [] => none
  | e :: es =>
    match State.leaseBest s es with
    | none => some e
    | some f =>
      let ce := s.classOfSlot (s.slotOfWg e.wg)
      let cf := s.classOfSlot (s.slotOfWg f.wg)
      if cf < ce || (cf == ce && f.seq < e.seq) then some f else some e

/-- lease_step of R160; `doneSlot` is the slot of an MMA that has just completed. An entry waits until its array work is done, one stopped by a
fault or restored included. While H has MMA entries but none is the oldest of its workgroup, T(H) is not defined, and C keeps its value (log 72). -/
def State.leaseStep (s : State) (c : Nat) (doneSlot : Option Nat) : State :=
  let k := s.core c
  let heads := (mxHeads k.chain).filter MxEntry.isMma
  let t := fun (e : MxEntry) => ((s.dispOf e.wg).map (fun d => d.lr.lease)).getD 0
  let cnt := if k.lease.isSome && doneSlot == k.lease then k.leaseC - 1 else k.leaseC
  let w := heads.filter (fun e => !e.finished && some (s.slotOfWg e.wg) != k.lease)
  let noMma := !(k.chain.any (fun e => e.isMma && some (s.slotOfWg e.wg) == k.lease))
  if k.lease.isNone || cnt = 0 || (noMma && !w.isEmpty) then
    match s.leaseBest w with
    | some e => s.updCore c (fun x => { x with lease := some (s.slotOfWg e.wg), leaseC := t e })
    | none =>
      if k.lease.isSome && !noMma then
        let own := heads.filter (fun e => some (s.slotOfWg e.wg) == k.lease)
        match own with
        | [] => s.updCore c (fun x => { x with leaseC := cnt })
        | e :: es => s.updCore c (fun x => { x with leaseC := t (es.foldl (fun a b => if b.seq < a.seq then b else a) e) })
      else s.updCore c (fun x => { x with lease := none, leaseC := cnt })
  else s.updCore c (fun x => { x with leaseC := cnt })

/-- A slot gives up the lease at once, and the next lease step runs (R160). -/
def State.giveUpLease (s : State) (c slot : Nat) : State :=
  if (s.core c).lease = some slot then (s.updCore c (fun x => { x with lease := none })).leaseStep c none else s

-- The end of a workgroup's engine commands

/-- The engine commands of a halted workgroup end without completion (R162, R192): its matrix-chain and CPY entries go and their
issuers' flags count them no more, running schedule iterations end, and its chain entries keep only their places. The next entries of the
core's chain may then have the lease (R160). -/
def State.discardEngines (s : State) (w : Nat) : State :=
  let c := ((s.wg w).map Workgroup.coreIx).getD 0
  let s := s.dropFaults (s.engineSite c w)
  let k := s.core c
  let s := (k.chain.filter (fun e => e.wg == w)).foldl (fun s e => s.uncountAll e.issuers e.flag) s
  let s := (k.cpyq.filter (fun e => e.wg == w)).foldl (fun s e => s.uncountAll e.issuers e.flag) s
  let dead := s.fresh
  let s := s.bump.updCore c (fun x => { x with
    chain := x.chain.filter (fun e => e.wg != w)
    cpyq := x.cpyq.filter (fun e => e.wg != w)
    chains := x.chains.map (fun h =>
      let own := h.owner == some w
      { h with
        pubs := h.pubs.map (fun p => (p.1, if p.2 = w then dead else p.2))
        cur := if own then none else h.cur
        fault := h.fault && !own }) })
  let s := s.updWg w (fun x => { x with sched := x.sched.map (fun e =>
    match e.run with
    | some r => { e with run := none, next := if r.cmd.isEmpty then e.next else e.next + 1 }
    | none => e) })
  if k.chain.any (fun e => e.wg == w) then s.leaseStep c none else s

/-- The halt ends: every group resumes at its saved PCs (R260). -/
def State.endHalt (s : State) (w : Nat) : State :=
  let s := s.discardEngines w
  let s := s.updWg w (fun x => { x with halt := .running, firstTrap := none })
  let s := { s with groups := s.groups.map (fun (e : GroupId × Group) => if e.1.wg = w then (e.1, { e.2 with halted := false, quota := 0, skid := 0 }) else e) }
  { s with threads := s.threads.map (fun (e : ThreadId × Thread) => if e.1.wg = w then (e.1, { e.2 with trapped := false, stopped := false }) else e) }

/-- A thread of the workgroup is still in the handler. -/
def State.inHandler (s : State) (w : Nat) : Bool := s.threads.any (fun e => e.1.wg == w && e.2.sys && !e.2.exited)

/-- Ends the halt when no thread is left in the handler and none asked for ABORT (R260). -/
def State.leaveHandler (s : State) (w : Nat) : State :=
  match (s.wg w).map Workgroup.halt with
  | some .running => s
  | some (.skidding true) => s
  | some _ => if s.inHandler w then s else s.endHalt w
  | none => s

/-- ERET of one thread: back to user mode at %epc; with ABORT set the workgroup is aborted instead (R259, R260).
The PC may be a word address: the clause is found again by reading back (R266). -/
def State.eretThread (s : State) (t : ThreadId) : State :=
  let abort := ((s.thr t).map (fun x => x.trapcause.getLsbD 31)).getD false
  let s := s.updThr t (fun x => { x with sys := false, pc := pcBits x.epc, clause := none, resume := true, stopped := true, wait := .none })
  if abort then s.updWg t.wg (fun x => { x with halt := .skidding true }) else s.leaveHandler t.wg

end Sys2Proof.Machine
end

