-- ==== Sys2Proof/Machine/Keccak.lean ====
section
/-! DEFINITION. SHA3-256 and SHA3-512, which the spec names for participant tables, firmware and attestation (R189, R307, R310). The functions
themselves are those of FIPS 202 (PRESUMED, log 15). -/
namespace Sys2Proof.Machine

/-- The parity of the five lanes of column x, and a lane turned left. -/
def keccakColumn (a : List DWord) (x : Nat) : DWord := [0, 5, 10, 15, 20].foldl (fun v k => v ^^^ a.getD (x % 5 + k) 0) 0
def keccakTurn (n : Nat) (x : DWord) : DWord := x.rotateLeft (n % 64)

/-- Theta: lane i takes the parities of the columns beside its own. -/
def keccakTheta (a : List DWord) : List DWord :=
  let ps := (List.range 5).map (fun x => keccakColumn a (x + 4) ^^^ keccakTurn 1 (keccakColumn a (x + 1)))
  a.zipIdx.map (fun p => p.1 ^^^ ps.getD (p.2 % 5) 0)

/-- Rho and pi in one walk over the lanes but the first: from place (x, y) a lane goes to (y, 2x + 3y), and the t-th to go is turned by the
t-th triangular number. The pairs give the new place, counted x + 5y, and the lane. -/
def keccakWalk (a : List DWord) : Nat → Nat → Nat → Nat → List (Nat × DWord)
  | 0, _, _, _ => []
  | n + 1, t, x, y =>
    let z := (2 * x + 3 * y) % 5
    (y + 5 * z, keccakTurn (t * (t + 1) / 2) (a.getD (x + 5 * y) 0)) :: keccakWalk a n (t + 1) y z

/-- Chi over a state given by places. -/
def keccakChi (get : Nat → DWord) : List DWord :=
  (List.range 25).map (fun i =>
    let row := fun k => get (i / 5 * 5 + (i + k) % 5)
    row 0 ^^^ (~~~row 1 &&& row 2))

/-- The shift register that the round constants come from: its next state, and the bits 2^j - 1 that seven steps of it set. -/
def keccakLfsr (r : Nat) : Nat := if r < 128 then 2 * r else (2 * r) ^^^ 0x171
def keccakIota : Nat → Nat → Nat → Nat × Nat
  | 0, _, r => (r, 0)
  | n + 1, j, r =>
    let q := keccakIota n (j + 1) (keccakLfsr r)
    (q.1, q.2 + r % 2 * 2 ^ (2 ^ j - 1))

/-- n rounds, with the shift register as it stands. -/
def keccakRounds : Nat → Nat → List DWord → List DWord
  | 0, _, a => a
  | n + 1, r, a =>
    let b := keccakTheta a
    let w := keccakWalk b 24 1 1 0
    let c := keccakIota 7 0 r
    let a' := keccakChi (fun i => if i = 0 then b.headD 0 else ((w.find? (fun p => p.1 == i)).map Prod.snd).getD 0)
    keccakRounds n c.1 (a'.mapIdx (fun i x => if i = 0 then x ^^^ BitVec.ofNat 64 c.2 else x))

def keccakF (a : List DWord) : List DWord := keccakRounds 24 1 a

def lanesOf : List Byte → List DWord
  | a :: b :: c :: d :: e :: f :: g :: h :: rest => BitVec.ofNat 64 (leNat [a, b, c, d, e, f, g, h]) :: lanesOf rest
  | _ => []

/-- Absorbs n blocks of `rate` bytes. -/
def keccakAbsorb (rate : Nat) (bs : List Byte) : Nat → List DWord
  | 0 => List.replicate 25 0
  | n + 1 =>
    let ws := lanesOf ((bs.drop (rate * n)).take rate)
    keccakF ((keccakAbsorb rate bs n).zipIdx.map (fun p => p.1 ^^^ ws.getD p.2 0))

/-- The message with its domain bits 01 and the padding 1 0* 1, to a whole number of blocks. -/
def keccakPad (rate : Nat) (msg : List Byte) : List Byte :=
  let n := (msg.length / rate + 1) * rate
  (List.range n).map (fun i => msg.getD i 0 + (if i = msg.length then 6 else 0) + (if i + 1 = n then 0x80 else 0))

/-- A SHA3 digest of `out` bytes; twice as many are the capacity. -/
def sha3 (out : Nat) (msg : List Byte) : List Byte :=
  let rate := 200 - 2 * out
  ((keccakAbsorb rate (keccakPad rate msg) (msg.length / rate + 1)).flatMap (fun w => leBytes 8 w.toNat)).take out

def sha3_256 : List Byte → List Byte := sha3 32
def sha3_512 : List Byte → List Byte := sha3 64

end Sys2Proof.Machine
end

