-- ==== Sys2Proof/WellFormed.lean ====
section
/-! DEFINITION. Which instruction words are accepted at decode (R24, R264-R288 and the encoding table of each entry).
`Instr.wf` is the whole check: a word whose fields fail it takes an illegal-instruction trap at decode (R281, R283). -/
namespace Sys2Proof

/-- PN with PG 7 is refused (R274). -/
def Guard.ok (g : Guard) : Bool := !(g.neg && g.p == 7)

def Opnd.isV : Opnd → Bool | .v _ => true | _ => false
def Opnd.isS : Opnd → Bool | .s _ => true | _ => false
def Opnd.isK : Opnd → Bool | .k _ => true | _ => false
def Opnd.isZ : Opnd → Bool | .z => true | _ => false

/-- A register with an even number (R280). -/
def Opnd.isEvenReg : Opnd → Bool
  | .v n => n.val % 2 == 0
  | .s n => n.val % 2 == 0
  | _ => false

def Opnd.isEvenV (o : Opnd) : Bool := o.isV && o.isEvenReg
def Opnd.isEvenS (o : Opnd) : Bool := o.isS && o.isEvenReg

/-- A source at the given width: at 64 bits an odd first register is refused (R280). -/
def Opnd.srcOk (wide : Bool) (o : Opnd) : Bool :=
  !wide || !(o.isV || o.isS) || o.isEvenReg

/-- A destination at the given width: specials and constants cannot be written (R279). -/
def Opnd.dstOk (wide : Bool) (o : Opnd) : Bool :=
  (o.isV || o.isS || o.isZ) && o.srcOk wide

/-- Not lane-varying: an s-register, a constant, z, or a special that is the same in the whole group (R24).
DEDUCED (log 7): %lane and %tid are the lane-varying specials. -/
def Opnd.uniform : Opnd → Bool
  | .v _ => false
  | .sp .lane => false
  | .sp .tid => false
  | _ => true

/-- An s-register destination needs uniform sources (R24). -/
def uniformDst (d : Opnd) (srcs : List Opnd) : Bool := !d.isS || srcs.all Opnd.uniform

def CField.isImm : CField → Bool | .imm _ => true | _ => false
def CField.isZ : CField → Bool | .op .z => true | _ => false
def CField.opnd : CField → Opnd | .op o => o | .imm _ => .z

def Ty.wide : Ty → Bool | .i64 => true | .u64 => true | _ => false
def Ty.isFloat : Ty → Bool | .f32 => true | .f16x2 => true | .bf16x2 => true | _ => false

/-- Which arithmetic MOD fields an entry accepts (R283, R284). -/
structure Accepts where
  ts  : List Ty
  rm  : Bool := false
  sat : Bool := false
  ci  : Bool := false
  na  : Bool := false
  nb  : Bool := false
  sub : BitVec 6 := 0
deriving DecidableEq, Repr

def ArithF.mods (f : ArithF) (a : Accepts) : Bool :=
  f.g.ok && a.ts.contains f.t && (a.rm || f.rm == .rne) && (a.sat || !f.sat) && (a.ci || !f.c.isImm)
    && (a.na || !f.na) && (a.nb || !f.nb) && (f.sub &&& ~~~a.sub == 0) && !(f.c.isImm && f.t.isFloat)

/-- One source: B and C hold z. -/
def ArithF.unary (f : ArithF) (dw aw : Bool) : Bool :=
  f.d.dstOk dw && f.a.srcOk aw && f.b.isZ && f.c.isZ && uniformDst f.d [f.a]

/-- Two sources; with CI the C field replaces B, which is z (R285). -/
def ArithF.binary (f : ArithF) (dw aw bw : Bool) : Bool :=
  f.d.dstOk dw && f.a.srcOk aw && f.b.srcOk bw && (if f.c.isImm then f.b.isZ else f.c.isZ) && uniformDst f.d [f.a, f.b]

/-- Three sources; with CI the C field holds the third (R285). -/
def ArithF.ternary (f : ArithF) (dw aw bw cw : Bool) : Bool :=
  f.d.dstOk dw && f.a.srcOk aw && f.b.srcOk bw && f.c.opnd.srcOk cw && uniformDst f.d [f.a, f.b, f.c.opnd]

def intTs : List Ty := [.i32, .u32, .i64, .u64]
def elemTs : List Ty := [.i32, .u32, .i64, .u64, .i16x2, .u16x2, .i8x4, .u8x4]

/-- Bits 2:0, 5:3 of the arithmetic layout's opcode-specific field. -/
def ArithF.lo3 (f : ArithF) : Fin 8 := (f.sub.extractLsb' 0 3).toFin
def ArithF.hi3 (f : ArithF) : Fin 8 := (f.sub.extractLsb' 3 3).toFin

def ArithF.bin (f : ArithF) (a : Accepts) : Bool := f.mods a && f.binary f.t.wide f.t.wide f.t.wide
def ArithF.tern (f : ArithF) (a : Accepts) : Bool := f.mods a && f.ternary f.t.wide f.t.wide f.t.wide f.t.wide

def ArithF.bitwise (f : ArithF) : Bool := f.bin { ts := intTs, ci := true }
def ArithF.shift (f : ArithF) : Bool := f.mods { ts := intTs, ci := true } && f.binary f.t.wide f.t.wide false
def ArithF.fbin (f : ArithF) (ts : List Ty) (round : Bool) : Bool :=
  f.bin { ts := ts, rm := round, sat := round, na := true, nb := true }
def ArithF.fma (f : ArithF) (ts : List Ty) : Bool :=
  f.tern { ts := ts, rm := true, sat := true, na := true, nb := true, sub := 0x20 }
def ArithF.fun1 (f : ArithF) : Bool := f.mods { ts := [.f32], rm := true, sat := true, na := true } && f.unary false false
def ArithF.qdot (f : ArithF) : Bool :=
  f.mods { ts := [.f32], rm := true, sat := true, sub := 3 } && f.d.isV && f.c.opnd.isEvenV
def ArithF.qcode (f : ArithF) (sat : Bool) : Bool :=
  f.mods { ts := [.f32], rm := true, sat := sat, sub := 3 } && f.d.isV && f.a.isV && f.b.isV && f.c.isZ
def ArithF.dequant (f : ArithF) (sub : BitVec 6) : Bool :=
  f.mods { ts := [.i32], sub := sub } && f.d.isV && f.b.isV && f.c.isZ

/-- The OP and T of SCAN and REDUX match (R394). -/
def ArithF.scanOk (f : ArithF) (excl : Bool) : Bool :=
  let op := (f.sub.extractLsb' 0 4).toNat
  f.mods { ts := if op ≤ 5 then [.i32, .u32] else if op ≤ 8 then [.f32] else [], sub := if excl then 0x1F else 0x0F }
    && f.d.isV && f.b.isZ && f.c.isZ

/-- The base field of R287. -/
def baseOk (sp : Space) (a : Opnd) : Bool :=
  a.isZ || (match sp with | .global => a.isEvenReg | _ => a.isV || a.isS)

/-- R288, and the same rule for LDP and STP. -/
def scOrdOk (sc : Scope) (o : Ord3) : Bool := (o == .plain) == (sc == .none)

/-- A memory-layout word with the listed fields at their only value. -/
def MemF.only (f : MemF) (sz : Sz) : Bool :=
  f.g.ok && f.sz == sz && !f.sx && f.sp == .global && f.ch == .normal

def MemF.cz (f : MemF) : Bool := f.c == 0xFF

def Sz.regs : Sz → Nat | .b64 => 2 | .b128 => 4 | _ => 1

/-- Data or destination registers of LD, ST and STI (R365, R401); a run of s-registers ends at s31 (log 7). -/
def dataOk (load : Bool) (sz : Sz) (d : Opnd) : Bool :=
  match sz with
  | .b128 => d.isEvenV || (load && d.isEvenS && (match d with | .s n => n.val ≤ 28 | _ => true))
  | .b64 => if load then d.isEvenReg else d.srcOk true
  | _ => !load || d.isV || d.isS

def MemF.atomicOk (f : MemF) : Bool :=
  f.g.ok && (f.sz == .b32 || f.sz == .b64) && !f.sx && f.sc != .none && f.idx.toNat ≤ 4 && baseOk f.sp f.a

/-- Operation codes 0x00-0x0B, FP only at 32 bits (R321). -/
def MemF.atomOp (f : MemF) : Bool := f.c.toNat ≤ 0x0B && (f.c.toNat ≤ 8 || f.sz == .b32)

def OwnF.zzz (f : OwnF) : Bool := f.g.ok && f.d.isZ && f.a.isZ && f.b.isZ && f.c.isZ

/-- Width and s-register permission of a system register number (R355). -/
def srWide (n : Nat) : Bool := n == 0x00 || (0x10 ≤ n && n ≤ 0x17) || n == 0x19 || n == 0x1A
def srSDest (n : Nat) : Bool := !(n == 0x02 || n == 0x03 || (0x18 ≤ n && n ≤ 0x1A))

/-- The slot rules of R276. -/
def DSlot.ok (s : DSlot) : Bool :=
  s.d.isV && !(s.s.isImm && (s.op == .fadd || s.op == .fmul || s.op == .fmin || s.op == .fmax))

/-- The bank of a v-register (R278). -/
def Opnd.bank : Opnd → Option Nat | .v n => some (n.val % 4) | _ => none

def CField.names (c : CField) (o : Opnd) : Bool := match c with | .op x => x == o | .imm _ => false

/-- The pairing rules of R278. -/
def pairOk (a b : DSlot) : Bool :=
  a.ok && b.ok && a.d.bank != b.d.bank && !a.s.names b.d && !b.s.names a.d
    && (match a.s, b.s with
        | .op (.v m), .op (.v n) => m.val % 4 != n.val % 4
        | _, _ => true)

/-- A flag field of a header: 0-11 or 15 (R264). -/
def flagFieldOk (n : Fin 16) : Bool := n.val ≤ 11 || n.val == 15

/-- The fates of R264. -/
def Header.ok (h : Header) : Bool :=
  h.len != 0 && (if h.pool then h.wait == 0 && h.seta == 0 && h.setb == 0 && !h.yld && !h.pfv && h.pfo == 0
    else flagFieldOk h.seta && flagFieldOk h.setb)

/-- Whether an instruction word is accepted at decode; the steps of other units are not words and carry no check. -/
def Instr.wf : Instr → Bool
  | .nop => true
  | .br g _ => g.ok
  | .brx f => f.g.ok && f.d.isZ && f.a.isEvenReg && f.b.isZ && f.c.isZ
  | .call g d _ => g.ok && d.isEvenV
  | .callx f => f.g.ok && f.d.isEvenV && f.a.isEvenReg && f.b.isZ && f.c.isZ
  | .ret f => f.g.ok && f.d.isZ && f.a.isEvenReg && f.b.isZ && f.c.isZ
  | .exit f => f.zzz
  | .join f => f.zzz
  | .yield f => f.zzz
  | .bkpt f => f.zzz
  | .trap f _ => f.zzz
  | .eret f => f.zzz
  | .iadd f => f.bin { ts := elemTs, sat := true, ci := true, na := true, nb := true }
  | .iaddx f => f.bin { ts := [.i32, .u32], ci := true, sub := 0x3F } && !(f.d.isS && f.hi3 != 7)
  | .isub f => f.bin { ts := elemTs, sat := true, ci := true, na := true, nb := true }
  | .isubx f => f.bin { ts := [.i32, .u32], ci := true, sub := 0x3F } && !(f.d.isS && f.hi3 != 7)
  | .imul f => f.bin { ts := intTs, sat := true, ci := true, na := true, nb := true }
  | .imulhi f => f.bin { ts := intTs, ci := true, na := true, nb := true }
  | .imad f => f.tern { ts := intTs, sat := true, ci := true, na := true, nb := true }
  | .imadw f => f.mods { ts := [.i32, .u32], sat := true, ci := true, na := true, nb := true }
      && f.ternary true false false true
  | .imin f => f.bin { ts := elemTs, ci := true, na := true, nb := true }
  | .imax f => f.bin { ts := elemTs, ci := true, na := true, nb := true }
  | .iabs f => f.mods { ts := [.i32, .i64, .i16x2, .i8x4], sat := true, na := true } && f.unary f.t.wide f.t.wide
  | .idot4 f => f.mods { ts := [.i8x4, .u8x4], sat := true, ci := true, sub := 1 }
      && f.ternary false false false false && !(f.t == .u8x4 && f.sub != 0)
  | .and f => f.bitwise
  | .or f => f.bitwise
  | .xor f => f.bitwise
  | .shl f => f.shift
  | .shr f => f.shift
  | .sar f => f.shift
  | .rotl f => f.shift
  | .bfe f => f.mods { ts := intTs, ci := true } && f.ternary f.t.wide f.t.wide false false
  | .bfi f => f.mods { ts := intTs } && f.ternary f.t.wide f.t.wide f.t.wide false
  | .popc f => f.mods { ts := intTs } && f.unary false f.t.wide
  | .clz f => f.mods { ts := intTs } && f.unary false f.t.wide
  | .brev f => f.mods { ts := intTs } && f.unary f.t.wide f.t.wide
  | .lea f => f.mods { ts := [.i32], ci := true, sub := 7 } && f.ternary false false false false
  | .lea64 f => f.mods { ts := [.i32], ci := true, sub := 0xF } && f.ternary true true false false
  | .sel f => f.bin { ts := [.i32, .i64], ci := true, sub := 0xF } && !(f.d.isS && f.lo3 != 7)
  | .iset f => f.mods { ts := intTs, ci := true, na := true, nb := true, sub := 0x3F }
      && f.binary false f.t.wide f.t.wide && f.hi3.val ≤ 5
  | .mov f => f.mods { ts := [.i32, .i64] } && f.unary f.t.wide f.t.wide
  | .movi g d _ => g.ok && (d.isV || d.isS)
  | .ldl g d wide _ => g.ok && (d.isV || d.isS) && d.srcOk wide
  | .plop f _ _ _ _ _ => f.zzz
  | .pmov f => f.g.ok && f.d.isV && f.a.isZ && f.b.isZ && f.c.isZ
  | .pmovSet f _ => f.g.ok && f.d.isZ && f.b.isZ && f.c.isZ
  | .fadd f => f.fbin [.f32] true
  | .fmul f => f.fbin [.f32] true
  | .ffma f => f.fma [.f32]
  | .fmin f => f.fbin [.f32] false
  | .fmax f => f.fbin [.f32] false
  | .fset f => f.bin { ts := [.f32], na := true, nb := true, sub := 0x3F }
  | .fdiv f => f.fbin [.f32] true
  | .frcp f => f.fun1
  | .frsq f => f.fun1
  | .fsqrt f => f.fun1
  | .fexp2 f => f.fun1
  | .flog2 f => f.fun1
  | .fsinp f => f.fun1
  | .fcosp f => f.fun1
  | .frnd f => f.mods { ts := [.f32], rm := true, na := true } && f.unary false false
  | .ffrac f => f.mods { ts := [.f32], rm := true, na := true } && f.unary false false
  | .fclass f => f.mods { ts := [.f32] } && f.unary false false
  | .f2i f => f.mods { ts := intTs, rm := true, na := true } && f.unary f.t.wide false
  | .i2f f => f.mods { ts := intTs, rm := true, na := true } && f.unary false f.t.wide
  | .fcvt f => f.mods { ts := [.i32], rm := true, sat := true, sub := 0x3F } && f.unary false false
      && f.lo3.val ≤ 5 && f.hi3.val ≤ 5
  | .fpadd f => f.fbin [.f16x2, .bf16x2] true
  | .fpmul f => f.fbin [.f16x2, .bf16x2] true
  | .fpmad f => f.fma [.f16x2, .bf16x2]
  | .qde4 f => f.qdot
  | .qde5 f => f.qdot
  | .qdb f => f.qdot
  | .qdt f => f.qdot
  | .qce4 f => f.qcode true
  | .qce5 f => f.qcode true
  | .qcb f => f.qcode false
  | .qscl f => f.mods { ts := [.f32], sub := 0xF } && f.d.isV && f.a.isV && f.b.isZ && f.c.isZ
      && f.sub.extractLsb' 2 2 != 3
  | .dqe4 f => f.dequant 3
  | .dqe5 f => f.dequant 3
  | .dqb f => f.dequant 3
  | .dqt f => f.dequant 0xF
  | .share f => f.mods { ts := [.i32, .i64], ci := true, sub := 0x3F } && f.d.isV
      && f.binary f.t.wide f.t.wide false && f.lo3.val ≤ 4
  | .vmask f => f.mods { ts := [.i32], sub := 0x3F } && f.d.isV && f.d.srcOk (f.sub.extractLsb' 0 2 == 2)
      && f.a.isZ && f.b.isZ && f.c.isZ
  | .elect f => f.mods { ts := [.i32], sub := 7 } && (f.d.isS || (f.d.isZ && f.a.isZ)) && f.b.isZ && f.c.isZ
  | .rdlane f => f.mods { ts := [.i32, .i64], ci := true } && (f.d.isV || f.d.isS) && f.d.srcOk f.t.wide
      && f.a.isV && f.a.srcOk f.t.wide && (if f.c.isImm then f.b.isZ else f.c.isZ && (f.b.isS || f.b.isK))
  | .scan f => f.scanOk true
  | .redux f => f.scanOk false
  | .matchLanes f => f.mods { ts := [.i32, .i64], sub := 1 } && f.d.isEvenV && f.a.srcOk f.t.wide && f.b.isZ && f.c.isZ
  | .ld f => f.g.ok && (f.d.isV || f.d.isS) && dataOk true f.sz f.d && baseOk f.sp f.a && uniformDst f.d [f.a, f.b]
      && !(f.sx && !(f.sz == .b8 || f.sz == .b16)) && scOrdOk f.sc f.ord && f.idx.toNat ≤ 4
  | .st f => f.g.ok && !f.sx && dataOk false f.sz f.d && baseOk f.sp f.a && scOrdOk f.sc f.ord && f.idx.toNat ≤ 4
  | .sti f => f.g.ok && dataOk false f.sz f.d && baseOk .global f.a && f.ord != .rlx && f.ch == .normal
      && f.idx.toNat ≤ 4
  | .ldp f => f.g.ok && f.d.isV && f.a.isEvenS && f.sz == .b32 && !f.sx && f.sp == .global && scOrdOk f.sc f.ord
      && 1 ≤ (f.c.extractLsb' 0 5).toNat && (f.c.extractLsb' 0 5).toNat ≤ 16 && f.c.extractLsb' 5 2 == 0
      && f.idx.toNat ≤ 1 && !(f.idx == 1 && 8 < (f.c.extractLsb' 0 5).toNat)
  | .stp f => f.g.ok && f.d.isV && f.a.isEvenS && f.cz && f.sz == .b32 && !f.sx && f.sp == .global
      && scOrdOk f.sc f.ord && f.idx == 0
  | .pref f => f.g.ok && f.d.isZ && baseOk .global f.a && !f.sx && f.sp == .global && f.sc == .none
      && f.ord == .plain && f.idx.toNat ≤ 4
  | .wbr f => f.only .b32 && f.d.isZ && f.cz && f.a.isEvenReg && f.sc == .none && f.ord == .plain && f.idx == 0
  | .invr f => f.only .b32 && f.d.isZ && f.cz && f.a.isEvenReg && f.sc == .none && f.ord == .plain && f.idx == 0
  | .fenceRel f => f.only .b32 && f.d.isZ && f.a.isZ && f.b.isZ && f.cz && f.sc != .none && f.ord == .sync && f.idx == 1
  | .fenceAcq f => f.only .b32 && f.d.isZ && f.a.isZ && f.b.isZ && f.cz && f.sc != .none && f.ord == .sync && f.idx == 2
  | .tfence f => f.only .b32 && f.d.isZ && f.a.isZ && f.b.isZ && f.cz && f.sc == .none && f.ord == .plain && f.idx == 0
  | .waita f => f.g.ok && f.d.isZ && baseOk f.sp f.a && !(f.sp == .global && f.a.isZ) && (f.b.isEvenReg || f.b.isK) && f.sz == .b64 && !f.sx
      && f.sp != .bucket && f.sc != .none && f.ord == .sync && f.ch == .normal && f.idx == 0
  | .atom f => f.atomicOk && f.d.isV && f.d.srcOk (f.sz == .b64) && f.atomOp
  | .acas f => f.atomicOk && f.c == 0 && f.d.isEvenV
      && (match f.d with | .v n => f.sz == .b32 || n.val % 4 == 0 | _ => false)
  | .red f => f.atomicOk && f.d.srcOk (f.sz == .b64) && f.atomOp && f.c != 8
  | .pladd f => f.only .b32 && f.d.isV && f.a.isEvenS && f.cz && f.idx == 0
      && (f.sc == .cl || f.sc == .die || f.sc == .dev || f.sc == .sys)
  | .qsend f => f.only .b32 && f.a.isZ && f.b.isZ && f.sc == .cl && f.ord == .sync && f.c.extractLsb' 4 3 == 0
      && (f.c.msb == (f.idx != 7))
  | .qrecv f => f.only .b32 && f.d.isV && f.a.isZ && f.b.isZ && f.sc == .cl && f.ord == .sync
      && f.c.extractLsb' 4 3 == 0 && (f.c.msb == (f.idx != 7))
  | .publish f => f.only .b32 && f.d.isZ && (f.a.isS || f.a.isK) && f.b.isZ && f.cz && f.ord == .sync && f.idx == 0
      && (f.sc == .dev || f.sc == .sys)
  | .barGrp f n => f.zzz && n.val ≤ 3
  | .barWg f _ => f.zzz
  | .barCl f n => f.zzz && n.val ≤ 7
  | .stage f => f.zzz
  | .stageRel f _ => f.zzz
  | .chapp f => f.g.ok && f.d.isS && f.a.isEvenS && f.b.isS && f.c.isZ
  | .chadv f => f.g.ok && f.d.isZ && f.a.isEvenS && f.b.isS && f.c.isZ
  | .mma f => f.g.ok && (f.d.isV || f.d.isZ) && f.a.isS && (f.b.isEvenS || f.b.isZ) && (f.c.isEvenS || f.c.isZ)
  | .accld f _ => f.g.ok && f.d.isZ && f.a.isEvenS && f.b.isZ && f.c.isZ
  | .accst f _ => f.g.ok && f.d.isZ && f.a.isEvenS && f.b.isZ && f.c.isZ
  | .accz f _ => f.zzz
  | .etake f => f.zzz
  | .egive f => f.zzz
  | .cpy f => f.g.ok && f.d.isZ && f.a.isS && f.b.isZ && f.c.isZ
  | .tex f _ => f.g.ok && f.d.isV && f.a.isV && (f.b.isV || f.b.isS || f.b.isK) && f.c.isEvenS
  | .texg f _ => f.g.ok && f.d.isV && f.a.isV && (f.b.isV || f.b.isS || f.b.isK) && f.c.isEvenS
  | .rayq f _ => f.g.ok && f.d.isV && f.a.isV && f.b.isZ && f.c.isEvenS
  | .gbin f _ => f.zzz
  | .gsub f => f.zzz
  | .bkget f => f.g.ok && f.d.isS && f.a.isEvenS && f.b.isZ && f.c.isZ
  | .bkdone f => f.g.ok && f.d.isZ && f.a.isEvenS && f.b.isS && f.c.isZ
  | .getsr f n => f.g.ok && n.toNat ≤ 0x1A && (f.d.isV || (f.d.isS && srSDest n.toNat)) && f.d.srcOk (srWide n.toNat)
      && f.a.isZ && f.b.isZ && f.c.isZ
  | .setsr f n => f.g.ok && n.toNat ≤ 0x1A && f.a.srcOk (srWide n.toNat) && f.d.isZ && f.b.isZ && f.c.isZ
  | .formatD a b => pairOk a b
  | .clauseStart h => h.ok
  | _ => true

end Sys2Proof
end

