-- ==== Sys2Proof/Decode.lean ====
section
/-! DEFINITION. Decoding of 64-bit words (R264, R273-R289) and the encoder written from the same tables. -/
namespace Sys2Proof

/-- Why a word is no instruction; each is an illegal-instruction trap (R265, R273-R284). -/
inductive DecodeError where
  | headerMark        -- bits 63:62 are 0b11 and MARK is not 0b1111 (R265)
  | headerField       -- a fate of R264
  | unlistedOpcode    -- no cell of the opcode map (R289), or an opcode of another format (R275)
  | reservedOperand   -- a reserved operand specifier (R279)
  | reservedField     -- a reserved value of a MOD field (R284, R286)
  | notAccepted       -- a value the instruction's entry does not accept (R281, R283)
deriving DecidableEq, Repr

/-! ### Fields -/

def Special.code : Special → Nat
  | .lane => 0xE0 | .tid => 0xE1 | .gid => 0xE2 | .wgx => 0xE3 | .wgy => 0xE4 | .wgz => 0xE5 | .core => 0xE6 | .die => 0xE7
  | .row => 0xE8 | .width => 0xE9

def Konst.code : Konst → Nat
  | .zero => 0xF0 | .one => 0xF1 | .two => 0xF2 | .four => 0xF3 | .minusOne => 0xF4 | .fhalf => 0xF5 | .fone => 0xF6
  | .ftwo => 0xF7 | .fminusOne => 0xF8

/-- The specifier of an operand (R279). -/
def encOpnd : Opnd → Byte
  | .v n => BitVec.ofNat 8 n.val
  | .s n => BitVec.ofNat 8 (0xC0 + n.val)
  | .sp x => BitVec.ofNat 8 x.code
  | .k c => BitVec.ofNat 8 c.code
  | .z => 0xFF

def decSpecial (n : Nat) : Option Opnd :=
  match n with
  | 0xE0 => some (.sp .lane) | 0xE1 => some (.sp .tid) | 0xE2 => some (.sp .gid) | 0xE3 => some (.sp .wgx)
  | 0xE4 => some (.sp .wgy) | 0xE5 => some (.sp .wgz) | 0xE6 => some (.sp .core) | 0xE7 => some (.sp .die)
  | 0xE8 => some (.sp .row) | 0xE9 => some (.sp .width)
  | 0xF0 => some (.k .zero) | 0xF1 => some (.k .one) | 0xF2 => some (.k .two) | 0xF3 => some (.k .four)
  | 0xF4 => some (.k .minusOne) | 0xF5 => some (.k .fhalf) | 0xF6 => some (.k .fone) | 0xF7 => some (.k .ftwo)
  | 0xF8 => some (.k .fminusOne) | 0xFF => some .z
  | _ => none

/-- The operand of a specifier; reserved values have none (R279). -/
def decOpnd (b : Byte) : Option Opnd :=
  if h : b.toNat < 192 then some (.v ⟨b.toNat, h⟩)
  else if h : b.toNat - 192 < 32 then some (.s ⟨b.toNat - 192, h⟩)
  else decSpecial b.toNat

def encTy : Ty → BitVec 4
  | .i32 => 0 | .u32 => 1 | .i64 => 2 | .u64 => 3 | .f32 => 4 | .f16x2 => 5 | .bf16x2 => 6 | .i16x2 => 7 | .u16x2 => 8
  | .i8x4 => 9 | .u8x4 => 0xA

def decTy (b : BitVec 4) : Option Ty :=
  match b.toNat with
  | 0 => some .i32 | 1 => some .u32 | 2 => some .i64 | 3 => some .u64 | 4 => some .f32 | 5 => some .f16x2
  | 6 => some .bf16x2 | 7 => some .i16x2 | 8 => some .u16x2 | 9 => some .i8x4 | 0xA => some .u8x4 | _ => none

def encRm : Rm → BitVec 2 | .rne => 0 | .rtz => 1 | .rdn => 2 | .rup => 3
def decRm (b : BitVec 2) : Rm := match b.toNat with | 0 => .rne | 1 => .rtz | 2 => .rdn | _ => .rup

def encSz : Sz → BitVec 3 | .b8 => 0 | .b16 => 1 | .b32 => 2 | .b64 => 3 | .b128 => 4
def decSz (b : BitVec 3) : Option Sz :=
  match b.toNat with | 0 => some .b8 | 1 => some .b16 | 2 => some .b32 | 3 => some .b64 | 4 => some .b128 | _ => none

def encSpace : Space → BitVec 2 | .global => 0 | .scratch => 1 | .cluster => 2 | .bucket => 3
def decSpace (b : BitVec 2) : Space := match b.toNat with | 0 => .global | 1 => .scratch | 2 => .cluster | _ => .bucket

def encScope : Scope → BitVec 3 | .none => 0 | .grp => 1 | .wg => 2 | .cl => 3 | .die => 4 | .dev => 5 | .sys => 6
def decScope (b : BitVec 3) : Option Scope :=
  match b.toNat with
  | 0 => some .none | 1 => some .grp | 2 => some .wg | 3 => some .cl | 4 => some .die | 5 => some .dev | 6 => some .sys
  | _ => none

def encOrd : Ord3 → BitVec 2 | .plain => 0 | .sync => 1 | .rlx => 2
def decOrd (b : BitVec 2) : Option Ord3 :=
  match b.toNat with | 0 => some .plain | 1 => some .sync | 2 => some .rlx | _ => none

def encHint : Hint → BitVec 2 | .normal => 0 | .stream => 1 | .keep => 2 | .bypass => 3
def decHint (b : BitVec 2) : Hint := match b.toNat with | 0 => .normal | 1 => .stream | 2 => .keep | _ => .bypass

def encSlotOp : SlotOp → BitVec 6
  | .iadd => 0 | .isub => 1 | .and => 2 | .or => 3 | .xor => 4 | .shl => 5 | .shr => 6 | .sar => 7 | .imin => 8
  | .imax => 9 | .mov => 10 | .fadd => 11 | .fmul => 12 | .fmin => 13 | .fmax => 14 | .imul => 15
def decSlotOp (b : BitVec 6) : Option SlotOp :=
  match b.toNat with
  | 0 => some .iadd | 1 => some .isub | 2 => some .and | 3 => some .or | 4 => some .xor | 5 => some .shl | 6 => some .shr
  | 7 => some .sar | 8 => some .imin | 9 => some .imax | 10 => some .mov | 11 => some .fadd | 12 => some .fmul
  | 13 => some .fmin | 14 => some .fmax | 15 => some .imul | _ => none

def encBool (b : Bool) : BitVec 1 := BitVec.ofBool b
def decBool (b : BitVec 1) : Bool := b == 1

/-! ### Word layouts -/

/-- The fields of a Format F word as bits (R274). -/
structure RawF where
  op  : BitVec 10
  pn  : BitVec 1
  pg  : BitVec 3
  d   : Byte
  a   : Byte
  b   : Byte
  c   : Byte
  mod : BitVec 16
deriving DecidableEq, Repr

def RawF.pack (r : RawF) : DWord := (0b00#2 ++ r.op ++ r.pn ++ r.pg ++ r.d ++ r.a ++ r.b ++ r.c ++ r.mod : BitVec 64)

def RawF.unpack (w : DWord) : RawF :=
  { op := w.extractLsb' 52 10, pn := w.extractLsb' 51 1, pg := w.extractLsb' 48 3, d := w.extractLsb' 40 8,
    a := w.extractLsb' 32 8, b := w.extractLsb' 24 8, c := w.extractLsb' 16 8, mod := w.extractLsb' 0 16 }

/-- The fields of a Format X word (R275). -/
structure RawX where
  op  : BitVec 10
  pn  : BitVec 1
  pg  : BitVec 3
  d   : Byte
  a   : Byte
  imm : Word
deriving DecidableEq, Repr

def RawX.pack (r : RawX) : DWord := (0b10#2 ++ r.op ++ r.pn ++ r.pg ++ r.d ++ r.a ++ r.imm : BitVec 64)

def RawX.unpack (w : DWord) : RawX :=
  { op := w.extractLsb' 52 10, pn := w.extractLsb' 51 1, pg := w.extractLsb' 48 3, d := w.extractLsb' 40 8,
    a := w.extractLsb' 32 8, imm := w.extractLsb' 0 32 }

def mkGuard (pn : BitVec 1) (pg : BitVec 3) : Guard := { neg := decBool pn, p := pg.toFin }
def Guard.pn (g : Guard) : BitVec 1 := encBool g.neg
def Guard.pg (g : Guard) : BitVec 3 := BitVec.ofFin g.p

def CField.byte : CField → Byte | .op o => encOpnd o | .imm b => b

/-- The arithmetic MOD layout (R284). -/
def ArithF.mod (f : ArithF) : BitVec 16 :=
  (encTy f.t ++ encRm f.rm ++ encBool f.sat ++ encBool f.c.isImm ++ encBool f.na ++ encBool f.nb ++ f.sub : BitVec 16)

def ArithF.raw (f : ArithF) (op : BitVec 10) : RawF :=
  { op := op, pn := f.g.pn, pg := f.g.pg, d := encOpnd f.d, a := encOpnd f.a, b := encOpnd f.b, c := f.c.byte, mod := f.mod }

def RawF.arith (r : RawF) : Except DecodeError ArithF :=
  match decOpnd r.d, decOpnd r.a, decOpnd r.b, decTy (r.mod.extractLsb' 12 4) with
  | some d, some a, some b, some t =>
    let mk (c : CField) : ArithF :=
      { g := mkGuard r.pn r.pg, d := d, a := a, b := b, c := c, t := t, rm := decRm (r.mod.extractLsb' 10 2),
        sat := decBool (r.mod.extractLsb' 9 1), na := decBool (r.mod.extractLsb' 7 1),
        nb := decBool (r.mod.extractLsb' 6 1), sub := r.mod.extractLsb' 0 6 }
    if decBool (r.mod.extractLsb' 8 1) then .ok (mk (.imm r.c))
    else match decOpnd r.c with
      | some c => .ok (mk (.op c))
      | none => .error .reservedOperand
  | _, _, _, none => .error .reservedField
  | _, _, _, _ => .error .reservedOperand

/-- The memory MOD layout (R286). -/
def MemF.mod (f : MemF) : BitVec 16 :=
  (encSz f.sz ++ encBool f.sx ++ encSpace f.sp ++ encScope f.sc ++ encOrd f.ord ++ encHint f.ch ++ f.idx : BitVec 16)

def MemF.raw (f : MemF) (op : BitVec 10) : RawF :=
  { op := op, pn := f.g.pn, pg := f.g.pg, d := encOpnd f.d, a := encOpnd f.a, b := encOpnd f.b, c := f.c, mod := f.mod }

def RawF.mem (r : RawF) : Except DecodeError MemF :=
  match decOpnd r.d, decOpnd r.a, decOpnd r.b with
  | some d, some a, some b =>
    match decSz (r.mod.extractLsb' 13 3), decScope (r.mod.extractLsb' 7 3), decOrd (r.mod.extractLsb' 5 2) with
    | some sz, some sc, some o =>
      .ok { g := mkGuard r.pn r.pg, d := d, a := a, b := b, c := r.c, sz := sz, sx := decBool (r.mod.extractLsb' 12 1),
            sp := decSpace (r.mod.extractLsb' 10 2), sc := sc, ord := o, ch := decHint (r.mod.extractLsb' 3 2),
            idx := r.mod.extractLsb' 0 3 }
    | _, _, _ => .error .reservedField
  | _, _, _ => .error .reservedOperand

/-- STI's MOD layout (R404). -/
def StiF.mod (f : StiF) : BitVec 16 :=
  (encSz f.sz ++ 0#1 ++ BitVec.ofFin (w := 5) f.m ++ encOrd f.ord ++ encHint f.ch ++ f.idx : BitVec 16)

def StiF.raw (f : StiF) (op : BitVec 10) : RawF :=
  { op := op, pn := f.g.pn, pg := f.g.pg, d := encOpnd f.d, a := encOpnd f.a, b := encOpnd f.b, c := f.c, mod := f.mod }

def RawF.sti (r : RawF) : Except DecodeError StiF :=
  match decOpnd r.d, decOpnd r.a, decOpnd r.b with
  | some d, some a, some b =>
    match decSz (r.mod.extractLsb' 13 3), decBool (r.mod.extractLsb' 12 1), decOrd (r.mod.extractLsb' 5 2) with
    | some sz, false, some o =>
      .ok { g := mkGuard r.pn r.pg, d := d, a := a, b := b, c := r.c, sz := sz, m := (r.mod.extractLsb' 7 5).toFin,
            ord := o, ch := decHint (r.mod.extractLsb' 3 2), idx := r.mod.extractLsb' 0 3 }
    | _, _, _ => .error .reservedField
  | _, _, _ => .error .reservedOperand

def OwnF.raw (f : OwnF) (op : BitVec 10) (mod : BitVec 16) : RawF :=
  { op := op, pn := f.g.pn, pg := f.g.pg, d := encOpnd f.d, a := encOpnd f.a, b := encOpnd f.b, c := encOpnd f.c, mod := mod }

/-- An own-layout word; `lit` says that C is an immediate, kept as z in the syntax. -/
def RawF.own (r : RawF) (lit : Bool := false) : Except DecodeError OwnF :=
  match decOpnd r.d, decOpnd r.a, decOpnd r.b, (if lit then some .z else decOpnd r.c) with
  | some d, some a, some b, some c => .ok { g := mkGuard r.pn r.pg, d := d, a := a, b := b, c := c }
  | _, _, _, _ => .error .reservedOperand

/-- An own-layout word whose MOD holds nothing outside `mask`. -/
def RawF.ownM (r : RawF) (mask : BitVec 16) (k : OwnF → Instr) (lit : Bool := false) : Except DecodeError Instr :=
  if r.mod &&& ~~~mask = 0 then (r.own lit).map k else .error .notAccepted

/-- Clause header layout (R264). -/
def Header.pack (h : Header) : DWord :=
  (0b1111#4 ++ BitVec.ofFin (w := 4) h.len ++ encBool h.pool ++ h.wait ++ BitVec.ofFin (w := 4) h.seta
    ++ BitVec.ofFin (w := 4) h.setb ++ encBool h.yld ++ encBool h.pfv ++ h.pfo ++ 0#13 : BitVec 64)

def Header.unpack (w : DWord) : Header :=
  { len := (w.extractLsb' 56 4).toFin, pool := decBool (w.extractLsb' 55 1), wait := w.extractLsb' 43 12,
    seta := (w.extractLsb' 39 4).toFin, setb := (w.extractLsb' 35 4).toFin, yld := decBool (w.extractLsb' 34 1),
    pfv := decBool (w.extractLsb' 33 1), pfo := w.extractLsb' 13 20 }

/-- A Format D slot (R276). -/
def DSlot.pack (s : DSlot) : BitVec 31 :=
  (encSlotOp s.op ++ encOpnd s.d ++ s.s.byte ++ encBool s.s.isImm ++ 0#8 : BitVec 31)

def DSlot.unpack (w : BitVec 31) : Except DecodeError DSlot :=
  if w.extractLsb' 0 8 = 0 then
    match decSlotOp (w.extractLsb' 25 6), decOpnd (w.extractLsb' 17 8) with
    | some op, some d =>
      if decBool (w.extractLsb' 8 1) then .ok { op := op, d := d, s := .imm (w.extractLsb' 9 8) }
      else match decOpnd (w.extractLsb' 9 8) with
        | some s => .ok { op := op, d := d, s := .op s }
        | none => .error .reservedOperand
    | _, _ => .error .reservedOperand
  else .error .reservedField

def packD (a b : DSlot) : DWord := (0b01#2 ++ a.pack ++ b.pack : BitVec 64)

/-! ### The opcode map -/

/-- Format F opcodes (R289). -/
def decodeF (r : RawF) : Except DecodeError Instr :=
  match r.op.toNat with
  | 0x011 => r.ownM 0 .brx
  | 0x013 => r.ownM 0 .callx
  | 0x014 => r.ownM 0 .ret
  | 0x015 => r.ownM 0 .exit
  | 0x016 => r.ownM 0 .join
  | 0x017 => r.ownM 0 .yield
  | 0x018 => r.ownM 0 .bkpt
  | 0x019 => r.ownM 0 (.trap · r.c) true
  | 0x01A => r.ownM 0 .eret
  | 0x020 => r.arith.map .iadd
  | 0x021 => r.arith.map .iaddx
  | 0x022 => r.arith.map .isub
  | 0x023 => r.arith.map .isubx
  | 0x024 => r.arith.map .imul
  | 0x025 => r.arith.map .imulhi
  | 0x026 => r.arith.map .imad
  | 0x027 => r.arith.map .imadw
  | 0x028 => r.arith.map .imin
  | 0x029 => r.arith.map .imax
  | 0x02A => r.arith.map .iabs
  | 0x02B => r.arith.map .idot4
  | 0x030 => r.arith.map .and
  | 0x031 => r.arith.map .or
  | 0x032 => r.arith.map .xor
  | 0x033 => r.arith.map .shl
  | 0x034 => r.arith.map .shr
  | 0x035 => r.arith.map .sar
  | 0x036 => r.arith.map .rotl
  | 0x037 => r.arith.map .bfe
  | 0x038 => r.arith.map .bfi
  | 0x039 => r.arith.map .popc
  | 0x03A => r.arith.map .clz
  | 0x03B => r.arith.map .brev
  | 0x040 => r.arith.map .lea
  | 0x041 => r.arith.map .lea64
  | 0x042 => r.arith.map .sel
  | 0x043 => r.arith.map .iset
  | 0x044 => r.arith.map .mov
  | 0x047 => r.ownM 0x7FF8 (fun f => .plop f r.c (r.mod.extractLsb' 12 3).toFin (r.mod.extractLsb' 9 3).toFin
      (r.mod.extractLsb' 6 3).toFin (r.mod.extractLsb' 3 3).toFin) true
  | 0x048 => if r.mod.msb then r.ownM 0x807F (.pmovSet · (r.mod.extractLsb' 0 7)) else r.ownM 0 .pmov
  | 0x060 => r.arith.map .fadd
  | 0x061 => r.arith.map .fmul
  | 0x062 => r.arith.map .ffma
  | 0x063 => r.arith.map .fmin
  | 0x064 => r.arith.map .fmax
  | 0x065 => r.arith.map .fset
  | 0x066 => r.arith.map .fdiv
  | 0x067 => r.arith.map .frcp
  | 0x068 => r.arith.map .frsq
  | 0x069 => r.arith.map .fsqrt
  | 0x06A => r.arith.map .fexp2
  | 0x06B => r.arith.map .flog2
  | 0x06C => r.arith.map .fsinp
  | 0x06D => r.arith.map .fcosp
  | 0x06E => r.arith.map .frnd
  | 0x06F => r.arith.map .ffrac
  | 0x070 => r.arith.map .fclass
  | 0x071 => r.arith.map .f2i
  | 0x072 => r.arith.map .i2f
  | 0x073 => r.arith.map .fcvt
  | 0x074 => r.arith.map .fpadd
  | 0x075 => r.arith.map .fpmul
  | 0x076 => r.arith.map .fpmad
  | 0x080 => r.arith.map .qde4
  | 0x081 => r.arith.map .qde5
  | 0x082 => r.arith.map .qdb
  | 0x083 => r.arith.map .qdt
  | 0x084 => r.arith.map .qce4
  | 0x085 => r.arith.map .qce5
  | 0x086 => r.arith.map .qcb
  | 0x087 => r.arith.map .qscl
  | 0x088 => r.arith.map .dqe4
  | 0x089 => r.arith.map .dqe5
  | 0x08A => r.arith.map .dqb
  | 0x08B => r.arith.map .dqt
  | 0x0A0 => r.arith.map .share
  | 0x0A1 => r.arith.map .vmask
  | 0x0A2 => r.arith.map .elect
  | 0x0A3 => r.arith.map .rdlane
  | 0x0A4 => r.arith.map .scan
  | 0x0A5 => r.arith.map .redux
  | 0x0A6 => r.arith.map .matchLanes
  | 0x0C0 => r.mem.map .ld
  | 0x0C1 => r.mem.map .st
  | 0x0C2 => r.sti.map .sti
  | 0x0C3 => r.mem.map .ldp
  | 0x0C4 => r.mem.map .stp
  | 0x0C5 => r.mem.map .pref
  | 0x0C6 => r.mem.map .wbr
  | 0x0C7 => r.mem.map .invr
  | 0x0C8 => r.mem.map (fun f => if f.idx = 2 then .fenceAcq f else .fenceRel f)
  | 0x0C9 => r.mem.map .tfence
  | 0x0CA => r.mem.map .waita
  | 0x0CB => r.mem.map .atom
  | 0x0CC => r.mem.map .acas
  | 0x0CD => r.mem.map .red
  | 0x0CE => r.mem.map .pladd
  | 0x0CF => r.mem.map .qsend
  | 0x0D0 => r.mem.map .qrecv
  | 0x0D1 => r.mem.map .publish
  | 0x0E0 =>
    let n := (r.mod.extractLsb' 2 4).toFin
    match (r.mod.extractLsb' 0 2).toNat with
    | 0 => r.ownM 0x3F (.barGrp · n)
    | 1 => r.ownM 0x3F (.barWg · n)
    | 2 => r.ownM 0x3F (.barCl · n)
    | _ => .error .notAccepted
  | 0x0E1 =>
    if r.mod = 1 then (r.own true).map (.stageRel · r.c)
    else if r.mod = 0 && r.c = 0 then (r.own true).map .stage else .error .notAccepted
  | 0x0E2 => r.ownM 0 .chapp
  | 0x0E3 => r.ownM 0 .chadv
  | 0x0E4 => r.ownM 0 .mma
  | 0x0E5 => r.ownM 3 (.accld · (r.mod.extractLsb' 0 2).toFin)
  | 0x0E6 => r.ownM 3 (.accst · (r.mod.extractLsb' 0 2).toFin)
  | 0x0E7 => r.ownM 3 (.accz · (r.mod.extractLsb' 0 2).toFin)
  | 0x0E8 => r.ownM 0 .etake
  | 0x0E9 => r.ownM 0 .egive
  | 0x0EA => r.ownM 0 .cpy
  | 0x100 => r.ownM 3 (.tex · (r.mod.extractLsb' 0 2).toFin)
  | 0x101 => r.ownM 3 (.texg · (r.mod.extractLsb' 0 2).toFin)
  | 0x102 => r.ownM 1 (.rayq · (decBool (r.mod.extractLsb' 0 1)))
  | 0x103 => r.ownM 7 (.gbin · (r.mod.extractLsb' 0 3).toFin)
  | 0x104 => r.ownM 0 .gsub
  | 0x105 => r.ownM 0 .bkget
  | 0x106 => r.ownM 0 .bkdone
  | 0x120 => r.ownM 0xFF (.getsr · (r.mod.extractLsb' 0 8))
  | 0x121 => r.ownM 0xFF (.setsr · (r.mod.extractLsb' 0 8))
  | _ => .error .unlistedOpcode

/-- Format X opcodes (R275). -/
def decodeX (r : RawX) : Except DecodeError Instr :=
  let g := mkGuard r.pn r.pg
  match decOpnd r.d, decOpnd r.a with
  | some d, some a =>
    match r.op.toNat with
    | 0x010 => if d.isZ && a.isZ then .ok (.br g r.imm) else .error .notAccepted
    | 0x012 => if a.isZ then .ok (.call g d r.imm) else .error .notAccepted
    | 0x045 => if a.isZ then .ok (.movi g d r.imm) else .error .notAccepted
    | 0x046 =>
      if r.a = 2 then .ok (.ldl g d false r.imm)
      else if r.a = 3 then .ok (.ldl g d true r.imm) else .error .notAccepted
    | _ => .error .unlistedOpcode
  | _, _ => .error .reservedOperand

/-- The fields of a word, before the entry's checks. -/
def decodeRaw (w : DWord) : Except DecodeError Instr :=
  match (w.extractLsb' 62 2).toNat with
  | 0 => if w = 0 then .ok .nop else decodeF (RawF.unpack w)
  | 1 =>
    match DSlot.unpack (w.extractLsb' 31 31), DSlot.unpack (w.extractLsb' 0 31) with
    | .ok a, .ok b => .ok (.formatD a b)
    | .error e, _ => .error e
    | _, .error e => .error e
  | 2 => decodeX (RawX.unpack w)
  | _ =>
    if w.extractLsb' 60 4 = 0xF then
      if w.extractLsb' 0 13 = 0 then .ok (.clauseStart (Header.unpack w)) else .error .headerField
    else .error .headerMark

/-- The decoder: total, a word is an instruction (or a header) or is rejected by name. -/
def decode (w : DWord) : Except DecodeError Instr :=
  match decodeRaw w with
  | .ok i => if i.wf then .ok i else .error (match i with | .clauseStart _ => .headerField | _ => .notAccepted)
  | .error e => .error e

/-- Bytes of a word in memory, lowest address first (R264). -/
def wordBytes (n : Nat) (w : Nat) : List Byte :=
  match n with
  | 0 => []
  | k + 1 => BitVec.ofNat 8 w :: wordBytes k (w / 256)

/-- The little-endian value of bytes. -/
def bytesNat : List Byte → Nat
  | [] => 0
  | b :: bs => b.toNat + 256 * bytesNat bs

/-- The instruction the decoder reads from the first eight bytes, with the rest of the bytes. -/
def decodeBytes (bs : List Byte) : Except DecodeError (Instr × List Byte) :=
  match decode (BitVec.ofNat 64 (bytesNat (bs.take 8))) with
  | .ok i => .ok (i, bs.drop 8)
  | .error e => .error e

/-- The instruction the decoder reads from a word whose bits are `w`, laid out as the hardware stores it. -/
def decodeTableWord (nbits w : Nat) : Option Instr :=
  match decodeBytes (wordBytes 8 (w % 2 ^ nbits)) with
  | .ok (i, _) => some i
  | .error _ => none

/-! ### The encoder -/

/-- The word of an instruction; the steps of other units have none. -/
def encode : Instr → Option DWord
  | .nop => some 0
  | .br g imm => some (RawX.pack ⟨0x010, g.pn, g.pg, 0xFF, 0xFF, imm⟩)
  | .call g d imm => some (RawX.pack ⟨0x012, g.pn, g.pg, encOpnd d, 0xFF, imm⟩)
  | .movi g d imm => some (RawX.pack ⟨0x045, g.pn, g.pg, encOpnd d, 0xFF, imm⟩)
  | .ldl g d wide imm => some (RawX.pack ⟨0x046, g.pn, g.pg, encOpnd d, if wide then 3 else 2, imm⟩)
  | .brx f => some (f.raw 0x011 0).pack
  | .callx f => some (f.raw 0x013 0).pack
  | .ret f => some (f.raw 0x014 0).pack
  | .exit f => some (f.raw 0x015 0).pack
  | .join f => some (f.raw 0x016 0).pack
  | .yield f => some (f.raw 0x017 0).pack
  | .bkpt f => some (f.raw 0x018 0).pack
  | .trap f n => some (RawF.pack { f.raw 0x019 0 with c := n })
  | .eret f => some (f.raw 0x01A 0).pack
  | .iadd f => some (f.raw 0x020).pack
  | .iaddx f => some (f.raw 0x021).pack
  | .isub f => some (f.raw 0x022).pack
  | .isubx f => some (f.raw 0x023).pack
  | .imul f => some (f.raw 0x024).pack
  | .imulhi f => some (f.raw 0x025).pack
  | .imad f => some (f.raw 0x026).pack
  | .imadw f => some (f.raw 0x027).pack
  | .imin f => some (f.raw 0x028).pack
  | .imax f => some (f.raw 0x029).pack
  | .iabs f => some (f.raw 0x02A).pack
  | .idot4 f => some (f.raw 0x02B).pack
  | .and f => some (f.raw 0x030).pack
  | .or f => some (f.raw 0x031).pack
  | .xor f => some (f.raw 0x032).pack
  | .shl f => some (f.raw 0x033).pack
  | .shr f => some (f.raw 0x034).pack
  | .sar f => some (f.raw 0x035).pack
  | .rotl f => some (f.raw 0x036).pack
  | .bfe f => some (f.raw 0x037).pack
  | .bfi f => some (f.raw 0x038).pack
  | .popc f => some (f.raw 0x039).pack
  | .clz f => some (f.raw 0x03A).pack
  | .brev f => some (f.raw 0x03B).pack
  | .lea f => some (f.raw 0x040).pack
  | .lea64 f => some (f.raw 0x041).pack
  | .sel f => some (f.raw 0x042).pack
  | .iset f => some (f.raw 0x043).pack
  | .mov f => some (f.raw 0x044).pack
  | .plop f lut pd pa pb pc =>
    some (RawF.pack { f.raw 0x047 (0#1 ++ BitVec.ofFin (w := 3) pd ++ BitVec.ofFin (w := 3) pa
      ++ BitVec.ofFin (w := 3) pb ++ BitVec.ofFin (w := 3) pc ++ 0#3 : BitVec 16) with c := lut })
  | .pmov f => some (f.raw 0x048 0).pack
  | .pmovSet f mask => some (f.raw 0x048 (1#1 ++ 0#8 ++ mask : BitVec 16)).pack
  | .fadd f => some (f.raw 0x060).pack
  | .fmul f => some (f.raw 0x061).pack
  | .ffma f => some (f.raw 0x062).pack
  | .fmin f => some (f.raw 0x063).pack
  | .fmax f => some (f.raw 0x064).pack
  | .fset f => some (f.raw 0x065).pack
  | .fdiv f => some (f.raw 0x066).pack
  | .frcp f => some (f.raw 0x067).pack
  | .frsq f => some (f.raw 0x068).pack
  | .fsqrt f => some (f.raw 0x069).pack
  | .fexp2 f => some (f.raw 0x06A).pack
  | .flog2 f => some (f.raw 0x06B).pack
  | .fsinp f => some (f.raw 0x06C).pack
  | .fcosp f => some (f.raw 0x06D).pack
  | .frnd f => some (f.raw 0x06E).pack
  | .ffrac f => some (f.raw 0x06F).pack
  | .fclass f => some (f.raw 0x070).pack
  | .f2i f => some (f.raw 0x071).pack
  | .i2f f => some (f.raw 0x072).pack
  | .fcvt f => some (f.raw 0x073).pack
  | .fpadd f => some (f.raw 0x074).pack
  | .fpmul f => some (f.raw 0x075).pack
  | .fpmad f => some (f.raw 0x076).pack
  | .qde4 f => some (f.raw 0x080).pack
  | .qde5 f => some (f.raw 0x081).pack
  | .qdb f => some (f.raw 0x082).pack
  | .qdt f => some (f.raw 0x083).pack
  | .qce4 f => some (f.raw 0x084).pack
  | .qce5 f => some (f.raw 0x085).pack
  | .qcb f => some (f.raw 0x086).pack
  | .qscl f => some (f.raw 0x087).pack
  | .dqe4 f => some (f.raw 0x088).pack
  | .dqe5 f => some (f.raw 0x089).pack
  | .dqb f => some (f.raw 0x08A).pack
  | .dqt f => some (f.raw 0x08B).pack
  | .share f => some (f.raw 0x0A0).pack
  | .vmask f => some (f.raw 0x0A1).pack
  | .elect f => some (f.raw 0x0A2).pack
  | .rdlane f => some (f.raw 0x0A3).pack
  | .scan f => some (f.raw 0x0A4).pack
  | .redux f => some (f.raw 0x0A5).pack
  | .matchLanes f => some (f.raw 0x0A6).pack
  | .ld f => some (f.raw 0x0C0).pack
  | .st f => some (f.raw 0x0C1).pack
  | .sti f => some (f.raw 0x0C2).pack
  | .ldp f => some (f.raw 0x0C3).pack
  | .stp f => some (f.raw 0x0C4).pack
  | .pref f => some (f.raw 0x0C5).pack
  | .wbr f => some (f.raw 0x0C6).pack
  | .invr f => some (f.raw 0x0C7).pack
  | .fenceRel f => some (f.raw 0x0C8).pack
  | .fenceAcq f => some (f.raw 0x0C8).pack
  | .tfence f => some (f.raw 0x0C9).pack
  | .waita f => some (f.raw 0x0CA).pack
  | .atom f => some (f.raw 0x0CB).pack
  | .acas f => some (f.raw 0x0CC).pack
  | .red f => some (f.raw 0x0CD).pack
  | .pladd f => some (f.raw 0x0CE).pack
  | .qsend f => some (f.raw 0x0CF).pack
  | .qrecv f => some (f.raw 0x0D0).pack
  | .publish f => some (f.raw 0x0D1).pack
  | .barGrp f n => some (f.raw 0x0E0 (0#10 ++ BitVec.ofFin (w := 4) n ++ 0#2 : BitVec 16)).pack
  | .barWg f n => some (f.raw 0x0E0 (0#10 ++ BitVec.ofFin (w := 4) n ++ 1#2 : BitVec 16)).pack
  | .barCl f n => some (f.raw 0x0E0 (0#10 ++ BitVec.ofFin (w := 4) n ++ 2#2 : BitVec 16)).pack
  | .stage f => some (RawF.pack { f.raw 0x0E1 0 with c := 0 })
  | .stageRel f e => some (RawF.pack { f.raw 0x0E1 1 with c := e })
  | .chapp f => some (f.raw 0x0E2 0).pack
  | .chadv f => some (f.raw 0x0E3 0).pack
  | .mma f => some (f.raw 0x0E4 0).pack
  | .accld f t => some (f.raw 0x0E5 (0#14 ++ BitVec.ofFin (w := 2) t : BitVec 16)).pack
  | .accst f t => some (f.raw 0x0E6 (0#14 ++ BitVec.ofFin (w := 2) t : BitVec 16)).pack
  | .accz f t => some (f.raw 0x0E7 (0#14 ++ BitVec.ofFin (w := 2) t : BitVec 16)).pack
  | .etake f => some (f.raw 0x0E8 0).pack
  | .egive f => some (f.raw 0x0E9 0).pack
  | .cpy f => some (f.raw 0x0EA 0).pack
  | .tex f nc => some (f.raw 0x100 (0#14 ++ BitVec.ofFin (w := 2) nc : BitVec 16)).pack
  | .texg f nc => some (f.raw 0x101 (0#14 ++ BitVec.ofFin (w := 2) nc : BitVec 16)).pack
  | .rayq f any => some (f.raw 0x102 (0#15 ++ encBool any : BitVec 16)).pack
  | .gbin f pd => some (f.raw 0x103 (0#13 ++ BitVec.ofFin (w := 3) pd : BitVec 16)).pack
  | .gsub f => some (f.raw 0x104 0).pack
  | .bkget f => some (f.raw 0x105 0).pack
  | .bkdone f => some (f.raw 0x106 0).pack
  | .getsr f n => some (f.raw 0x120 (0#8 ++ n : BitVec 16)).pack
  | .setsr f n => some (f.raw 0x121 (0#8 ++ n : BitVec 16)).pack
  | .formatD a b => some (packD a b)
  | .clauseStart h => some h.pack
  | _ => none

end Sys2Proof
end

