-- ==== Sys2Proof/Machine/Flags.lean ====
section
/-! DEFINITION. Floating-point status flags: the bits of %fsr (R121), of the DASR (R114), of the matrix status word (R153) and of
PROG (R178). -/
namespace Sys2Proof.Machine

/-- Flags in the layout of %fsr: NX 0, UF 1, OF 2, DZ 3, NV 4, FMT 5 (R121). -/
abbrev Fl := BitVec 6

def flNX : Fl := 1
def flUF : Fl := 2
def flOF : Fl := 4
def flDZ : Fl := 8
def flNV : Fl := 16
def flFMT : Fl := 32

def Fl.has (f g : Fl) : Bool := f &&& g != 0

/-- The DASR bits of flags: NX 0, UF 1, OF 2, NV 3 (R114); PSAT is bit 4. -/
def dasrOf (f : Fl) : BitVec 5 := (f.extractLsb' 0 3).setWidth 5 ||| (if f.has flNV then 8 else 0)
def dasrPSAT : BitVec 5 := 16

/-- The matrix status bits of flags: FMT 0, NV 1, OF 2, UF 4, NX 5; SAT is bit 3 (R153). -/
def statOf (f : Fl) : BitVec 6 :=
  (if f.has flFMT then 1 else 0) ||| (if f.has flNV then 2 else 0) ||| (if f.has flOF then 4 else 0)
    ||| (if f.has flUF then 16 else 0) ||| (if f.has flNX then 32 else 0)
def statSAT : BitVec 6 := 8

/-- The flags of PROG bits 63:60: NV OF UF NX, as bits 3:0 (R178). -/
def progOf (f : Fl) : BitVec 4 :=
  (if f.has flNV then 8 else 0) ||| (if f.has flOF then 4 else 0) ||| (if f.has flUF then 2 else 0) ||| (if f.has flNX then 1 else 0)

/-- Raises flags in the DASR of a die (R114). -/
def State.raiseDasr (s : State) (d : Nat) (b : BitVec 5) : State := s.updDie d (fun x => { x with dasr := x.dasr ||| b })

end Sys2Proof.Machine
end

