-- ==== Sys2Proof/Machine/Operands.lean ====
section
/-! DEFINITION. Operand forms: what each specifier reads (R279, R280), guards (R282), the registers a word names (R13, R272),
element-wise views (R117) and the immediate and negation modifiers (R285). -/
namespace Sys2Proof.Machine

/-- Bit patterns of the inline constants (R279). -/
def konstWord : Konst → Word
  | .zero => 0
  | .one => 1
  | .two => 2
  | .four => 4
  | .minusOne => 0xFFFFFFFF
  | .fhalf => 0x3F000000
  | .fone => 0x3F800000
  | .ftwo => 0x40000000
  | .fminusOne => 0xBF800000

/-- At 64 bits the integer constants are sign-extended and the others zero-extended (R280). -/
def konstDWord : Konst → DWord
  | .minusOne => 0xFFFFFFFFFFFFFFFF
  | k => (konstWord k).setWidth 64

/-- The read-only specials (R31). -/
def State.special (s : State) (t : ThreadId) (x : Special) : Word :=
  let g := s.grp t.group
  let w := s.wg t.wg
  let width := (g.map Group.width).getD 0
  BitVec.ofNat 32 <| match x with
  | .lane => (g.map (fun g => 64 * g.quarter + g.off)).getD 0 + t.ix
  | .tid => t.gid * width + t.ix
  | .gid => t.gid
  | .wgx => (w.map Workgroup.x).getD 0
  | .wgy => (w.map Workgroup.y).getD 0
  | .wgz => (w.map Workgroup.z).getD 0
  | .core => (w.map Workgroup.core).getD 0
  | .die => (w.map Workgroup.die).getD 0
  | .row => (g.map Group.row).getD 0
  | .width => width

def State.vreg (s : State) (t : ThreadId) (n : Nat) : Word := ((s.thr t).map (fun x => x.regs.getD n 0)).getD 0
def State.sreg (s : State) (g : GroupId) (n : Nat) : Word := ((s.grp g).map (fun x => x.sregs.getD n 0)).getD 0

/-- A 32-bit source (R279). -/
def State.rd (s : State) (t : ThreadId) : Opnd → Word
  | .v n => s.vreg t n.val
  | .s n => s.sreg t.group n.val
  | .sp x => s.special t x
  | .k c => konstWord c
  | .z => 0

def pairVal (lo hi : Word) : DWord := (hi ++ lo : BitVec 64)

/-- A 64-bit source (R280). -/
def State.rd64 (s : State) (t : ThreadId) : Opnd → DWord
  | .v n => pairVal (s.vreg t n.val) (s.vreg t (n.val + 1))
  | .s n => pairVal (s.sreg t.group n.val) (s.sreg t.group (n.val + 1))
  | .sp x => (s.special t x).setWidth 64
  | .k c => konstDWord c
  | .z => 0

/-- The register k places after the one named. -/
def State.rdK (s : State) (t : ThreadId) (o : Opnd) (k : Nat) : Word :=
  match o with
  | .v n => s.vreg t (n.val + k)
  | .s n => s.sreg t.group (n.val + k)
  | _ => 0

/-- Consecutive register words starting at an operand. -/
def regWrites (o : Opnd) (ws : List Word) : LaneFx :=
  match o with
  | .v n => { vs := (List.range ws.length).map (fun i => (n.val + i, ws.getD i 0)) }
  | .s n => { ss := (List.range ws.length).map (fun i => (n.val + i, ws.getD i 0)) }
  | _ => {}

def loW (x : DWord) : Word := x.setWidth 32
def hiW (x : DWord) : Word := (x >>> 32).setWidth 32

def wr32 (o : Opnd) (x : Word) : LaneFx := regWrites o [x]
def wr64 (o : Opnd) (x : DWord) : LaneFx := regWrites o [loW x, hiW x]

def predGet (p : BitVec 7) (n : Nat) : Bool := n == 7 || p.getLsbD n

def State.pred (s : State) (t : ThreadId) (n : Nat) : Bool := ((s.thr t).map (fun x => predGet x.preds n)).getD false

/-- The predicate of a word holds for a thread (R282). -/
def State.holds (s : State) (g : Guard) (t : ThreadId) : Bool := s.pred t g.p.val != g.neg

-- Immediates and modifiers of the arithmetic layout (R285)

def CField.val (c : Sys2Proof.CField) (s : State) (t : ThreadId) : Word :=
  match c with
  | .op o => s.rd t o
  | .imm b => b.signExtend 32

def CField.val64 (c : Sys2Proof.CField) (s : State) (t : ThreadId) : DWord :=
  match c with
  | .op o => s.rd64 t o
  | .imm b => b.signExtend 64

/-- Element width in bits of a type, and whether it is signed (R284). -/
def tyBits : Ty → Nat
  | .i64 => 64
  | .u64 => 64
  | .i32 => 32
  | .u32 => 32
  | .f32 => 32
  | .i8x4 => 8
  | .u8x4 => 8
  | _ => 16

def tySigned : Ty → Bool
  | .i32 => true
  | .i64 => true
  | .i16x2 => true
  | .i8x4 => true
  | _ => false

/-- Elements of a register value of a type, element 0 first (R117). -/
def elems (t : Ty) (x : DWord) : List Nat :=
  let n := tyBits t
  (List.range ((if n = 64 then 64 else 32) / n)).map (fun i => x.toNat / 2 ^ (n * i) % 2 ^ n)

def packElems (t : Ty) (xs : List Nat) : DWord :=
  BitVec.ofNat 64 (xs.foldr (fun x acc => x % 2 ^ tyBits t + 2 ^ tyBits t * acc) 0)

/-- IMM8 sign-extended to the element width and replicated into each element. -/
def immElems (t : Ty) (b : Byte) : List Nat :=
  (elems t 0).map (fun _ => wrap (tyBits t) (sgn 8 b.toNat))

/-- The source value of a typed field. -/
def State.rdT (s : State) (t : ThreadId) (ty : Ty) (o : Opnd) : List Nat :=
  elems ty (if ty.wide then s.rd64 t o else (s.rd t o).setWidth 64)

/-- The last source: the C field as IMM8 with CI, else the operand (R285). -/
def State.rdLast (s : State) (t : ThreadId) (ty : Ty) (o : Opnd) (c : CField) : List Nat :=
  match c with
  | .imm b => immElems ty b
  | .op _ => s.rdT t ty o

/-- Two's complement negation of each element (R285). -/
def negElems (ty : Ty) (neg : Bool) (xs : List Nat) : List Nat :=
  if neg then xs.map (fun x => (2 ^ tyBits ty - x) % 2 ^ tyBits ty) else xs

/-- Value of an element under its type's sign. -/
def elemVal (ty : Ty) (x : Nat) : Int := if tySigned ty then sgn (tyBits ty) x else x

/-- Clamp of an exact result to the element type's range (R359). -/
def clampTy (ty : Ty) (x : Int) : Int :=
  let n := tyBits ty
  let lo : Int := if tySigned ty then -(2 ^ (n - 1) : Nat) else 0
  let hi : Int := if tySigned ty then (2 ^ (n - 1) : Nat) - 1 else (2 ^ n : Nat) - 1
  if x < lo then lo else if hi < x then hi else x

/-- A typed result: wrapped, or clamped with SAT. -/
def resElem (ty : Ty) (sat : Bool) (x : Int) : Nat := wrap (tyBits ty) (if sat then clampTy ty x else x)

/-- Writes a typed value to D. -/
def wrT (ty : Ty) (d : Opnd) (xs : List Nat) : LaneFx :=
  let v := packElems ty xs
  if ty.wide then wr64 d v else wr32 d (loW v)

-- Registers a word names (R13, R272)

inductive Reg where
  | v (n : Nat)
  | s (n : Nat)
deriving DecidableEq, Repr

/-- The n registers from the one an operand names. -/
def run (o : Opnd) (n : Nat) : List Reg :=
  match o with
  | .v k => (List.range n).map (fun i => .v (k.val + i))
  | .s k => (List.range n).map (fun i => .s (k.val + i))
  | _ => []

def wd (wide : Bool) : Nat := if wide then 2 else 1

def CField.run (c : Sys2Proof.CField) (n : Nat) : List Reg := match c with | .op o => Machine.run o n | .imm _ => []

/-- Registers of an arithmetic word, by the widths of its fields. -/
def aregs (f : ArithF) (d a b c : Nat) : List Reg := run f.d d ++ run f.a a ++ run f.b b ++ CField.run f.c c

/-- Registers of R287's effective address. -/
def baseRegs (sp : Space) (a b : Opnd) : List Reg :=
  run a (match sp with | .global => 2 | _ => 1) ++ run b 1

def slotRegs (x : DSlot) : List Reg := run x.d 1 ++ CField.run x.s 1

/-- Every register a word reads or writes, the later ones of pairs and ranges included. STP's source range depends on its
handle and MMA's B registers on its parameter block; their entries check those. -/
def wordRegs : Instr → List Reg
  | .brx f => run f.a 2
  | .call _ d _ => run d 2
  | .callx f => run f.d 2 ++ run f.a 2
  | .ret f => run f.a 2
  | .iadd f => let n := wd f.t.wide; aregs f n n n 1
  | .iaddx f => aregs f 1 1 1 1
  | .isub f => let n := wd f.t.wide; aregs f n n n 1
  | .isubx f => aregs f 1 1 1 1
  | .imul f => let n := wd f.t.wide; aregs f n n n 1
  | .imulhi f => let n := wd f.t.wide; aregs f n n n 1
  | .imad f => let n := wd f.t.wide; aregs f n n n n
  | .imadw f => aregs f 2 1 1 2
  | .imin f => let n := wd f.t.wide; aregs f n n n 1
  | .imax f => let n := wd f.t.wide; aregs f n n n 1
  | .iabs f => let n := wd f.t.wide; aregs f n n 0 0
  | .idot4 f => aregs f 1 1 1 1
  | .and f => let n := wd f.t.wide; aregs f n n n 1
  | .or f => let n := wd f.t.wide; aregs f n n n 1
  | .xor f => let n := wd f.t.wide; aregs f n n n 1
  | .shl f => let n := wd f.t.wide; aregs f n n 1 1
  | .shr f => let n := wd f.t.wide; aregs f n n 1 1
  | .sar f => let n := wd f.t.wide; aregs f n n 1 1
  | .rotl f => let n := wd f.t.wide; aregs f n n 1 1
  | .bfe f => let n := wd f.t.wide; aregs f n n 1 1
  | .bfi f => let n := wd f.t.wide; aregs f n n n 1
  | .popc f => aregs f 1 (wd f.t.wide) 0 0
  | .clz f => aregs f 1 (wd f.t.wide) 0 0
  | .brev f => let n := wd f.t.wide; aregs f n n 0 0
  | .lea f => aregs f 1 1 1 1
  | .lea64 f => aregs f 2 2 1 1
  | .sel f => let n := wd f.t.wide; aregs f n n n 1
  | .iset f => let n := wd f.t.wide; aregs f 1 n n 1
  | .mov f => let n := wd f.t.wide; aregs f n n 0 0
  | .movi _ d _ => run d 1
  | .ldl _ d wide _ => run d (wd wide)
  | .pmov f => run f.d 1
  | .pmovSet f _ => run f.a 1
  | .fadd f => aregs f 1 1 1 0
  | .fmul f => aregs f 1 1 1 0
  | .ffma f => aregs f 1 1 1 1
  | .fmin f => aregs f 1 1 1 0
  | .fmax f => aregs f 1 1 1 0
  | .fset f => aregs f 1 1 1 0
  | .fdiv f => aregs f 1 1 1 0
  | .frcp f => aregs f 1 1 0 0
  | .frsq f => aregs f 1 1 0 0
  | .fsqrt f => aregs f 1 1 0 0
  | .fexp2 f => aregs f 1 1 0 0
  | .flog2 f => aregs f 1 1 0 0
  | .fsinp f => aregs f 1 1 0 0
  | .fcosp f => aregs f 1 1 0 0
  | .frnd f => aregs f 1 1 0 0
  | .ffrac f => aregs f 1 1 0 0
  | .fclass f => aregs f 1 1 0 0
  | .f2i f => aregs f (wd f.t.wide) 1 0 0
  | .i2f f => aregs f 1 (wd f.t.wide) 0 0
  | .fcvt f => aregs f 1 1 0 0
  | .fpadd f => aregs f 1 1 1 0
  | .fpmul f => aregs f 1 1 1 0
  | .fpmad f => aregs f 1 1 1 1
  | .qde4 f => aregs f 1 1 1 2
  | .qde5 f => aregs f 1 1 1 2
  | .qdb f => aregs f 1 1 1 2
  | .qdt f => aregs f 1 1 1 2
  | .qce4 f => aregs f 1 4 1 0
  | .qce5 f => aregs f 1 4 1 0
  | .qcb f => aregs f 1 4 1 0
  | .qscl f => aregs f 1 4 0 0
  | .dqe4 f => aregs f 4 1 1 0
  | .dqe5 f => aregs f 4 1 1 0
  | .dqb f => aregs f 4 1 1 0
  | .dqt f => aregs f 5 1 1 0
  | .share f => let n := wd f.t.wide; aregs f n n 1 0
  | .vmask f => aregs f (if f.sub.extractLsb' 0 2 = 2 then 2 else 1) 0 0 0
  | .elect f => aregs f 1 1 0 0
  | .rdlane f => let n := wd f.t.wide; aregs f n n 1 0
  | .scan f => aregs f 1 1 0 0
  | .redux f => aregs f 1 1 0 0
  | .matchLanes f => aregs f 2 (wd f.t.wide) 0 0
  | .ld f => run f.d f.sz.regs ++ baseRegs f.sp f.a f.b
  | .st f => run f.d f.sz.regs ++ baseRegs f.sp f.a f.b
  | .sti f => run f.d f.sz.regs ++ baseRegs .global f.a f.b ++ [.s f.m.val]
  | .ldp f =>
    let k := (f.c.extractLsb' 0 5).toNat
    run f.d (if f.idx = 1 then 2 else (k + 1) / 2 + 1) ++ run f.a 2 ++ run f.b 1
  | .stp f => run f.d 1 ++ run f.a 2 ++ run f.b 1
  | .pref f => baseRegs .global f.a f.b
  | .wbr f => run f.a 2 ++ run f.b 1
  | .invr f => run f.a 2 ++ run f.b 1
  | .waita f => baseRegs f.sp f.a .z ++ run f.b 2
  | .atom f => run f.d f.sz.regs ++ baseRegs f.sp f.a f.b
  | .acas f => run f.d (2 * f.sz.regs) ++ baseRegs f.sp f.a f.b
  | .red f => run f.d f.sz.regs ++ baseRegs f.sp f.a f.b
  | .pladd f => run f.d 1 ++ run f.a 2 ++ run f.b 1
  | .qsend f => run f.d 1
  | .qrecv f => run f.d 1
  | .publish f => run f.a 1
  | .chapp f => run f.d 1 ++ run f.a 2 ++ run f.b 1
  | .chadv f => run f.a 2 ++ run f.b 1
  | .mma f => run f.d 9 ++ run f.a 1 ++ run f.b 2 ++ run f.c 2
  | .accld f _ => run f.a 2
  | .accst f _ => run f.a 2
  | .cpy f => run f.a 1
  | .tex f nc => run f.d (nc.val + 1) ++ run f.a 2 ++ run f.b 1 ++ run f.c 2
  | .texg f nc => run f.d (nc.val + 1) ++ run f.a 6 ++ run f.b 1 ++ run f.c 2
  | .rayq f any => run f.d (if any then 1 else 4) ++ run f.a 9 ++ run f.c 2
  | .bkget f => run f.d 1 ++ run f.a 2
  | .bkdone f => run f.a 2 ++ run f.b 1
  | .getsr f n => run f.d (wd (srWide n.toNat))
  | .setsr f n => run f.a (wd (srWide n.toNat))
  | .formatD a b => slotRegs a ++ slotRegs b
  | _ => []

/-- The guard of a word; words without one execute for every thread (R278, R375). -/
def wordGuard : Instr → Guard
  | .br g _ => g
  | .call g _ _ => g
  | .movi g _ _ => g
  | .ldl g _ _ _ => g
  | .brx f => f.g
  | .callx f => f.g
  | .ret f => f.g
  | .exit f => f.g
  | .join f => f.g
  | .yield f => f.g
  | .bkpt f => f.g
  | .trap f _ => f.g
  | .eret f => f.g
  | .iadd f => f.g
  | .iaddx f => f.g
  | .isub f => f.g
  | .isubx f => f.g
  | .imul f => f.g
  | .imulhi f => f.g
  | .imad f => f.g
  | .imadw f => f.g
  | .imin f => f.g
  | .imax f => f.g
  | .iabs f => f.g
  | .idot4 f => f.g
  | .and f => f.g
  | .or f => f.g
  | .xor f => f.g
  | .shl f => f.g
  | .shr f => f.g
  | .sar f => f.g
  | .rotl f => f.g
  | .bfe f => f.g
  | .bfi f => f.g
  | .popc f => f.g
  | .clz f => f.g
  | .brev f => f.g
  | .lea f => f.g
  | .lea64 f => f.g
  | .sel f => f.g
  | .iset f => f.g
  | .mov f => f.g
  | .plop f _ _ _ _ _ => f.g
  | .pmov f => f.g
  | .pmovSet f _ => f.g
  | .fadd f => f.g
  | .fmul f => f.g
  | .ffma f => f.g
  | .fmin f => f.g
  | .fmax f => f.g
  | .fset f => f.g
  | .fdiv f => f.g
  | .frcp f => f.g
  | .frsq f => f.g
  | .fsqrt f => f.g
  | .fexp2 f => f.g
  | .flog2 f => f.g
  | .fsinp f => f.g
  | .fcosp f => f.g
  | .frnd f => f.g
  | .ffrac f => f.g
  | .fclass f => f.g
  | .f2i f => f.g
  | .i2f f => f.g
  | .fcvt f => f.g
  | .fpadd f => f.g
  | .fpmul f => f.g
  | .fpmad f => f.g
  | .qde4 f => f.g
  | .qde5 f => f.g
  | .qdb f => f.g
  | .qdt f => f.g
  | .qce4 f => f.g
  | .qce5 f => f.g
  | .qcb f => f.g
  | .qscl f => f.g
  | .dqe4 f => f.g
  | .dqe5 f => f.g
  | .dqb f => f.g
  | .dqt f => f.g
  | .share f => f.g
  | .vmask f => f.g
  | .elect f => f.g
  | .rdlane f => f.g
  | .scan f => f.g
  | .redux f => f.g
  | .matchLanes f => f.g
  | .ld f => f.g
  | .st f => f.g
  | .sti f => f.g
  | .ldp f => f.g
  | .stp f => f.g
  | .pref f => f.g
  | .wbr f => f.g
  | .invr f => f.g
  | .fenceRel f => f.g
  | .fenceAcq f => f.g
  | .tfence f => f.g
  | .waita f => f.g
  | .atom f => f.g
  | .acas f => f.g
  | .red f => f.g
  | .pladd f => f.g
  | .qsend f => f.g
  | .qrecv f => f.g
  | .publish f => f.g
  | .barGrp f _ => f.g
  | .barWg f _ => f.g
  | .barCl f _ => f.g
  | .stage f => f.g
  | .stageRel f _ => f.g
  | .chapp f => f.g
  | .chadv f => f.g
  | .mma f => f.g
  | .accld f _ => f.g
  | .accst f _ => f.g
  | .accz f _ => f.g
  | .etake f => f.g
  | .egive f => f.g
  | .cpy f => f.g
  | .tex f _ => f.g
  | .texg f _ => f.g
  | .rayq f _ => f.g
  | .gbin f _ => f.g
  | .gsub f => f.g
  | .bkget f => f.g
  | .bkdone f => f.g
  | .getsr f _ => f.g
  | .setsr f _ => f.g
  | _ => ⟨false, 7⟩

/-- Clause-ending instructions (R267). -/
def clauseEnding : Instr → Bool
  | .br _ _ => true
  | .brx _ => true
  | .call _ _ _ => true
  | .callx _ => true
  | .ret _ => true
  | .eret _ => true
  | .yield _ => true
  | .barGrp _ _ => true
  | .barWg _ _ => true
  | .barCl _ _ => true
  | .bkdone _ => true
  | _ => false

end Sys2Proof.Machine
end

