-- ==== Sys2Proof/Machine/Float.lean ====
section
/-! DEFINITION. Exact values, number formats and the single rounding (R118-R127), block formats (R128-R131, R139, R140) and the exact
results of the special functions (R141). A result that is not a finite binary fraction is held as a fraction with one appended
low bit set: it lies strictly between two neighbours far finer than any format, so every rounding of it is the exact one. -/
namespace Sys2Proof.Machine

/-- An exact value: a NaN with sign, signalling bit and FP32 fraction (R124); a signed infinity; or (-1)^neg x m x 2^e. -/
inductive Val where
  | nan (neg sig : Bool) (f : Nat)
  | inf (neg : Bool)
  | fin (neg : Bool) (m : Nat) (e : Int)
deriving DecidableEq, Repr

def Val.canon : Val := .nan false false 0x400000
def Val.isNan : Val → Bool | .nan _ _ _ => true | _ => false
def Val.isSig : Val → Bool | .nan _ s _ => s | _ => false
def Val.isInf : Val → Bool | .inf _ => true | _ => false
def Val.isFin : Val → Bool | .fin _ _ _ => true | _ => false
def Val.isZero : Val → Bool | .fin _ m _ => m == 0 | _ => false
def Val.sign : Val → Bool | .nan s _ _ => s | .inf s => s | .fin s _ _ => s
def Val.neg : Val → Val
  | .nan s q f => .nan (!s) q f
  | .inf s => .inf (!s)
  | .fin s m e => .fin (!s) m e
def Val.abs : Val → Val
  | .nan _ q f => .nan false q f
  | .inf _ => .inf false
  | .fin _ m e => .fin false m e
def Val.zero (s : Bool := false) : Val := .fin s 0 0
def Val.ofInt (x : Int) : Val := .fin (decide (x < 0)) x.natAbs 0
def Val.ofNat (n : Nat) : Val := .fin false n 0

/-- A scalar format of R118. `maxM` x 2^`maxQ` is its largest finite value. -/
structure Fmt where
  ebits : Nat
  mbits : Nat
  bias  : Nat
  ieee  : Bool       -- has infinities; false for E4M3
  maxM  : Nat
  maxQ  : Int
deriving DecidableEq, Repr

def fp32 : Fmt := ⟨8, 23, 127, true, 16777215, 104⟩
def fp16 : Fmt := ⟨5, 10, 15, true, 2047, 5⟩
def bf16 : Fmt := ⟨8, 7, 127, true, 255, 120⟩
def e5m2 : Fmt := ⟨5, 2, 15, true, 7, 13⟩
def e4m3 : Fmt := ⟨4, 3, 7, false, 14, 5⟩

def Fmt.width (f : Fmt) : Nat := 1 + f.ebits + f.mbits
def Fmt.emin (f : Fmt) : Int := 1 - f.bias

/-- The exact value of a code (R118, R124). -/
def decodeF (f : Fmt) (c : Nat) : Val :=
  let m := c % 2 ^ f.mbits
  let e := c / 2 ^ f.mbits % 2 ^ f.ebits
  let s := c / 2 ^ (f.mbits + f.ebits) % 2 == 1
  if f.ieee && e == 2 ^ f.ebits - 1 then
    if m = 0 then .inf s
    else .nan s (m < 2 ^ (f.mbits - 1)) (if f.mbits = 23 then m else m * 2 ^ (23 - f.mbits) ||| 0x400000)
  else if !f.ieee && e == 2 ^ f.ebits - 1 && m == 2 ^ f.mbits - 1 then .nan s false 0x700000
  else if e = 0 then .fin s m (f.emin - f.mbits)
  else .fin s (2 ^ f.mbits + m) ((e : Int) - f.bias - f.mbits)

def isSubnormal (f : Fmt) (c : Nat) : Bool := c / 2 ^ f.mbits % 2 ^ f.ebits == 0 && c % 2 ^ f.mbits != 0

/-- Whether a magnitude with quotient q and remainder r of divisor d rounds up (R7). -/
def roundsUp (rm : Rm) (neg : Bool) (q r d : Nat) : Bool :=
  match rm with
  | .rne => decide (d < 2 * r) || (2 * r == d && q % 2 == 1)
  | .rtz => false
  | .rdn => neg && r != 0
  | .rup => !neg && r != 0

/-- m x 2^e rounded to a multiple of 2^q: the multiple, and whether it is inexact. -/
def roundTo (rm : Rm) (neg : Bool) (m : Nat) (e q : Int) : Nat × Bool :=
  if q ≤ e then (m * 2 ^ (e - q).toNat, false)
  else
    let d := 2 ^ (q - e).toNat
    let n := m / d
    let r := m % d
    (if roundsUp rm neg n r d then n + 1 else n, r != 0)

/-- Compares m x 2^e with m' x 2^e'. -/
def cmpPow (m : Nat) (e : Int) (m' : Nat) (e' : Int) : Ordering :=
  if e' ≤ e then compare (m * 2 ^ (e - e').toNat) m' else compare m (m' * 2 ^ (e' - e).toNat)

def signBit (f : Fmt) (s : Bool) : Nat := if s then 2 ^ (f.mbits + f.ebits) else 0
def maxCode (f : Fmt) (s : Bool) : Nat := signBit f s + (if f.ieee then (2 ^ f.ebits - 1) * 2 ^ f.mbits - 1 else 2 ^ (f.mbits + f.ebits) - 2)
def infCode (f : Fmt) (s : Bool) : Nat := signBit f s + (2 ^ f.ebits - 1) * 2 ^ f.mbits
/-- The NaN an operation on codes without infinities gives: S.1111.111 (R123). -/
def nanCode (f : Fmt) (s : Bool) : Nat := signBit f s + 2 ^ (f.mbits + f.ebits) - 1

/-- nan_narrow of R124. -/
def nanNarrow (f : Fmt) (s : Bool) (frac : Nat) : Nat :=
  if f.ieee then infCode f s + ((frac / 2 ^ (23 - f.mbits)) ||| 2 ^ (f.mbits - 1)) else nanCode f s

def toInf (rm : Rm) (s : Bool) : Bool := match rm with | .rne => true | .rtz => false | .rup => !s | .rdn => s

/-- The code of a value n x 2^q on the format's grid (R123). -/
def codeOf (f : Fmt) (s : Bool) (n : Nat) (q : Int) : Nat :=
  if n = 0 then signBit f s
  else
    let k := (Nat.log2 n : Int) + q
    if k < f.emin then signBit f s + (n * 2 ^ (q - (f.emin - f.mbits)).toNat)
    else
      let l := Nat.log2 n
      let m := if f.mbits ≤ l then n / 2 ^ (l - f.mbits) else n * 2 ^ (f.mbits - l)
      signBit f s + (k + f.bias).toNat * 2 ^ f.mbits + (m - 2 ^ f.mbits)

/-- encode of R123, with its flags. -/
def encode (f : Fmt) (x : Val) (rm : Rm) (sat : Bool) : Nat × Fl :=
  match x with
  | .nan s sig frac => (nanNarrow f s frac, if sig then flNV else 0)
  | .inf s =>
    if sat then (maxCode f s, flNX)
    else if f.ieee then (infCode f s, 0) else (nanCode f s, flNV)
  | .fin s m e =>
    if m = 0 then (signBit f s, 0)
    else
      let q := max ((Nat.log2 m : Int) + e - f.mbits) (f.emin - f.mbits)
      let r := roundTo rm s m e q
      let nx : Fl := if r.2 then flNX else 0
      if cmpPow r.1 q f.maxM f.maxQ == .gt then
        (if sat || !toInf rm s then maxCode f s else if f.ieee then infCode f s else nanCode f s, flOF ||| flNX)
      else
        let tiny := r.1 == 0 || decide ((Nat.log2 r.1 : Int) + q < f.emin)
        (codeOf f s r.1 q, nx ||| (if tiny && r.2 then flUF else 0))

-- Exact arithmetic

def mulV : Val → Val → Val × Fl
  | .nan _ a _, .nan _ b _ => (.canon, if a || b then flNV else 0)
  | .nan _ a _, _ => (.canon, if a then flNV else 0)
  | _, .nan _ b _ => (.canon, if b then flNV else 0)
  | .inf s, .inf t => (.inf (s != t), 0)
  | .inf s, .fin t m _ => if m = 0 then (.canon, flNV) else (.inf (s != t), 0)
  | .fin s m _, .inf t => if m = 0 then (.canon, flNV) else (.inf (s != t), 0)
  | .fin s m e, .fin t n g => (.fin (s != t) (m * n) (e + g), 0)

/-- Exact sum; the sign of an exact zero is R344's. -/
def addV (rm : Rm) : Val → Val → Val × Fl
  | .nan _ a _, .nan _ b _ => (.canon, if a || b then flNV else 0)
  | .nan _ a _, _ => (.canon, if a then flNV else 0)
  | _, .nan _ b _ => (.canon, if b then flNV else 0)
  | .inf s, .inf t => if s = t then (.inf s, 0) else (.canon, flNV)
  | .inf s, .fin _ _ _ => (.inf s, 0)
  | .fin _ _ _, .inf t => (.inf t, 0)
  | .fin s m e, .fin t n g =>
    let q := min e g
    let x : Int := (if s then -1 else 1) * ((m * 2 ^ (e - q).toNat : Nat) : Int)
    let y : Int := (if t then -1 else 1) * ((n * 2 ^ (g - q).toNat : Nat) : Int)
    let z := x + y
    if z = 0 then (.zero (if m = 0 && n = 0 && s == t then s else rm == .rdn), 0)
    else (.fin (decide (z < 0)) z.natAbs q, 0)

/-- Fused a x b + c (R346). -/
def fmaV (rm : Rm) (a b c : Val) : Val × Fl :=
  let p := mulV a b
  let r := addV rm p.1 c
  (r.1, p.2 ||| r.2)

/-- Multiplication by 2^k. -/
def Val.scale (x : Val) (k : Int) : Val := match x with | .fin s m e => .fin s m (e + k) | _ => x

/-- x < y, x = y or x > y for values that are no NaN; the zeros are equal. -/
def cmpV (x y : Val) : Ordering :=
  match x, y with
  | .inf s, .inf t => if s = t then .eq else if s then .lt else .gt
  | .inf s, _ => if s then .lt else .gt
  | _, .inf t => if t then .gt else .lt
  | .fin s m e, .fin t n g =>
    if m = 0 && n = 0 then .eq
    else if m = 0 then (if t then .gt else .lt)
    else if n = 0 then (if s then .lt else .gt)
    else if s != t then (if s then .lt else .gt)
    else if s then cmpPow n g m e else cmpPow m e n g
  | _, _ => .eq

def ltV (x y : Val) : Bool := !x.isNan && !y.isNan && cmpV x y == .lt
def leV (x y : Val) : Bool := !x.isNan && !y.isNan && cmpV x y != .gt
def eqV (x y : Val) : Bool := !x.isNan && !y.isNan && cmpV x y == .eq

/-- minimumNumber and maximumNumber of two codes: -0 below +0, NV only for a signalling NaN (R346). -/
def minMaxF (f : Fmt) (mx : Bool) (a b : Nat) : Nat × Fl :=
  let x := decodeF f a
  let y := decodeF f b
  let fl : Fl := if x.isSig || y.isSig then flNV else 0
  if x.isNan && y.isNan then (nanNarrow f false 0x400000, fl)
  else if x.isNan then (b, fl)
  else if y.isNan then (a, fl)
  else
    let aLess := match cmpV x y with | .lt => true | .gt => false | .eq => x.sign
    (if aLess != mx then a else b, fl)

/-- round_to_integer of an exact finite value, and whether it is inexact. -/
def roundInt (rm : Rm) (x : Val) : Int × Bool :=
  match x with
  | .fin s m e =>
    let r := roundTo rm s m e 0
    (if s then -(r.1 : Int) else r.1, r.2)
  | _ => (0, false)

/-- floor of a finite value. -/
def floorV (x : Val) : Int := (roundInt .rdn x).1

/-- floor(log2 |x|) of a finite nonzero value. -/
def log2V (x : Val) : Int := match x with | .fin _ m e => (Nat.log2 m : Int) + e | _ => 0

-- E8M0 and block formats (R119, R126, R128-R131)

/-- The code of a conversion to E8M0, and its flags (R126). -/
def toE8M0 (x : Val) (rm : Rm) : Nat × Fl :=
  match x with
  | .nan _ sig _ => (0xFF, if sig then flNV else 0)
  | .inf _ => (0xFF, flNV)
  | .fin _ m e =>
    if m = 0 then (0, flUF ||| flNX)
    else
      let l := Nat.log2 m
      let k : Int := (l : Int) + e + 127
      let frac := m - 2 ^ l
      let up := match rm with
        | .rtz => false
        | .rdn => false
        | .rup => frac != 0
        | .rne => decide (2 ^ l < 2 * frac) || (2 * frac == 2 ^ l && k % 2 != 0)
      let c : Int := if up then k + 1 else k
      if c < 0 then (0, flUF ||| flNX)
      else if 254 < c then (254, flOF ||| flNX)
      else (c.toNat, if frac != 0 then flNX else 0)

def ofE8M0 (c : Nat) : Val := if c = 255 then .nan false false 0x400000 else .fin false 1 ((c : Int) - 127)

/-- Element formats of the quantising paths. -/
inductive EFmt where
  | flt (f : Fmt)
  | bfp (k : Nat)
  | tern
deriving DecidableEq, Repr

def clampI (lo hi x : Int) : Int := if x < lo then lo else if hi < x then hi else x

/-- quant_elem of R131: a code of a float format, or an integer for block formats. -/
def quantElem (f : EFmt) (x : Val) (e : Nat) (rm : Rm) (sat : Bool) : Int × Fl :=
  if e = 255 then (0, 0)
  else
    let y := x.scale (127 - (e : Int))
    match f with
    | .flt g => let r := encode g y rm sat; (r.1, r.2)
    | .bfp k =>
      if !y.isFin then (0, flNV)
      else
        let r := roundInt rm (y.scale ((k : Int) - 1))
        (clampI (-(2 ^ (k - 1) : Nat)) ((2 ^ (k - 1) : Nat) - 1) r.1, if r.2 then flNX else 0)
    | .tern =>
      if !y.isFin then (0, flNV)
      else let r := roundInt rm y; (clampI (-1) 1 r.1, if r.2 then flNX else 0)

/-- decode of a code in an element format: BFP mantissas and ternary digits are given as integers. -/
def decodeE (f : EFmt) (q : Int) : Val :=
  match f with
  | .flt g => decodeF g q.toNat
  | .bfp k => (Val.ofInt q).scale (1 - (k : Int))
  | .tern => Val.ofInt q

/-- dequant_elem of R131: an FP32 code. -/
def dequantElem (f : EFmt) (q : Int) (e : Nat) : Word × Fl :=
  if e = 255 then (0x7FC00000, 0)
  else let r := encode fp32 ((decodeE f q).scale ((e : Int) - 127)) .rne false; (BitVec.ofNat 32 r.1, r.2)

/-- The scale code of a block of FP32 values (R130). -/
def scaleCode (emax : Int) (xs : List Val) : Nat :=
  if xs.any (fun x => !x.isFin) then 255
  else if xs.all Val.isZero then 0
  else
    let l := (xs.filter (fun x => !x.isZero)).map log2V
    let e := l.foldl max (l.headD 0) - emax + 127
    (clampI 0 254 e).toNat

/-- The five digits of a ternary byte (R129); none for a reserved code. -/
def ternDigits (b : Byte) : Option (List Int) :=
  if 243 ≤ b.toNat then none
  else some ((List.range 5).map (fun i => match b.toNat / 3 ^ i % 3 with | 0 => 0 | 1 => 1 | _ => -1))

-- The block Hadamard transform (R139, R140)

def signAt (i j : Nat) : Bool := (popc (i &&& j) % 2 == 1)
where popc (n : Nat) : Nat := (List.range 6).countP (fun k => n.testBit k)

def hadShift (n : Nat) : Int := -((Nat.log2 n / 2 : Nat) : Int)

/-- One exact output of the transform of finite values. -/
def hadExact (xs : List Val) (i : Nat) : Val :=
  (((List.range xs.length).foldl (fun acc j =>
    let x := xs.getD j Val.zero
    (addV .rne acc (if signAt i j then x.neg else x)).1) Val.zero).scale (hadShift xs.length))

/-- The transform of a floating-point run: FP32 codes and flags (R140). -/
def hadFloat (xs : List Val) : List (Nat × Fl) :=
  if xs.any (fun x => !x.isFin) then xs.map (fun x => (0x7FC00000, if x.isSig then flNV else 0))
  else (List.range xs.length).map (fun i => encode fp32 (hadExact xs i) .rne false)

-- Special functions (R141)

/-- Fixed-point precision of the irrational results, in bits. -/
def fxP : Nat := 448
/-- floor(pi x 2^448) and floor(ln 2 x 2^448). -/
def fxPi : Nat := 0x3243f6a8885a308d313198a2e03707344a4093822299f31d0082efa98ec4e6c89452821e638d01377be5466cf34e90c6cc0ac29b7c97c50dd
def fxLn2 : Nat := 0xb17217f7d1cf79abc9e3b39803f2f6af40f343267298b62d8a0d175b8baafa2be7b876206debac98559552fb4afa1b10ed2eae35c1382144

def fxMul (a b : Nat) : Nat := a * b / 2 ^ fxP

/-- Sum of x^k/k! from k, in fixed point. -/
def fxExp (x : Nat) : Nat → Nat → Nat → Nat
  | 0, _, _ => 0
  | n + 1, k, t => t + fxExp x n (k + 1) (fxMul t x / (k + 1))

/-- sin y for y in [0, pi/2], from the term t = y^k/k!: t - next + ... -/
def fxSin (y2 : Nat) : Nat → Nat → Nat → Int
  | 0, _, _ => 0
  | n + 1, k, t => (t : Int) - fxSin y2 n (k + 2) (fxMul t y2 / ((k + 1) * (k + 2)))

/-- atanh z = z + z^3/3 + ..., from the power p = z^k. -/
def fxAtanh (z2 : Nat) : Nat → Nat → Nat → Nat
  | 0, _, _ => 0
  | n + 1, k, p => p / k + fxAtanh z2 n (k + 2) (fxMul p z2)

/-- floor of the square root, bit by bit from bit n - 1. -/
def isqrt (x : Nat) : Nat → Nat → Nat
  | 0, r => r
  | n + 1, r => let c := r + 2 ^ n; isqrt x n (if c * c ≤ x then c else r)

/-- A fraction q x 2^e with a nonzero rest gets one more low bit, set. -/
def jam (s : Bool) (q : Nat) (e : Int) (rest : Bool) : Val := if rest then .fin s (2 * q + 1) (e - 1) else .fin s q e

def divV : Val → Val → Val × Fl
  | .nan _ a _, .nan _ b _ => (.canon, if a || b then flNV else 0)
  | .nan _ a _, _ => (.canon, if a then flNV else 0)
  | _, .nan _ b _ => (.canon, if b then flNV else 0)
  | .inf _, .inf _ => (.canon, flNV)
  | .inf s, .fin t _ _ => (.inf (s != t), 0)
  | .fin s _ _, .inf t => (.zero (s != t), 0)
  | .fin s m e, .fin t n g =>
    if n = 0 then (if m = 0 then (.canon, flNV) else (.inf (s != t), flDZ))
    else
      let a := m * 2 ^ 128
      (jam (s != t) (a / n) (e - g - 128) (a % n != 0), 0)

/-- Square root of m x 2^e, m > 0. -/
def sqrtMag (m : Nat) (e : Int) : Val :=
  let e' := if e % 2 = 0 then e else e - 1
  let a := (if e % 2 = 0 then m else 2 * m) * 2 ^ 128
  let r := isqrt a 128 0
  jam false r (e' / 2 - 64) (r * r != a)

def sqrtV : Val → Val × Fl
  | .nan _ a _ => (.canon, if a then flNV else 0)
  | .inf s => if s then (.canon, flNV) else (.inf false, 0)
  | .fin s m e => if m = 0 then (.zero s, 0) else if s then (.canon, flNV) else (sqrtMag m e, 0)

def rsqrtV : Val → Val × Fl
  | .nan _ a _ => (.canon, if a then flNV else 0)
  | .inf s => if s then (.canon, flNV) else (.zero, 0)
  | .fin s m e =>
    if m = 0 then (.inf s, flDZ)
    else if s then (.canon, flNV)
    else
      let m' := if e % 2 = 0 then m else 2 * m
      let e' := if e % 2 = 0 then e else e - 1
      let r := isqrt (2 ^ 256 / m') 129 0
      (jam false r (-(e' / 2) - 128) (r * r * m' != 2 ^ 256), 0)

/-- A finite value in fixed point: floor(|x| x 2^448). -/
def fxOf (m : Nat) (e : Int) : Nat := (roundTo .rtz false m e (-(fxP : Int))).1

def exp2V : Val → Val × Fl
  | .nan _ a _ => (.canon, if a then flNV else 0)
  | .inf s => (if s then .zero else .inf false, 0)
  | .fin s m e =>
    if m = 0 then (.fin false 1 0, 0)
    else if cmpPow m e 1 10 == .gt then (if s then .fin false 1 (-2000) else .fin false 1 2000, 0)
    else
      let x : Int := if s then -(fxOf m e : Int) else fxOf m e
      let n := x / (2 ^ fxP : Nat)
      let f := (x - n * (2 ^ fxP : Nat)).toNat
      if f = 0 then (.fin false 1 n, 0)
      else (jam false (fxExp (fxMul f fxLn2) 100 0 (2 ^ fxP)) (n - fxP) true, 0)

def lg2V : Val → Val × Fl
  | .nan _ a _ => (.canon, if a then flNV else 0)
  | .inf s => if s then (.canon, flNV) else (.inf false, 0)
  | .fin s m e =>
    if m = 0 then (.inf true, flDZ)
    else if s then (.canon, flNV)
    else
      let l := Nat.log2 m
      let k : Int := (l : Int) + e
      if m = 2 ^ l then ((if k = 0 then .zero else Val.ofInt k), 0)
      else
        let z := (m - 2 ^ l) * 2 ^ fxP / (m + 2 ^ l)
        let lnT := 2 * fxAtanh (fxMul z z) 150 1 z
        let x : Int := k * (2 ^ fxP : Nat) + (lnT * 2 ^ fxP / fxLn2 : Nat)
        (jam (decide (x < 0)) (if x < 0 then x.natAbs - 1 else x.natAbs) (-(fxP : Int)) true, 0)

/-- sin(pi r) for r in [0, 1) of a unit, in fixed point: magnitude for r in [0, 1/2] by symmetry. -/
def sinUnit (r : Nat) : Nat :=
  let h := if 2 * r ≤ 2 ^ fxP then r else 2 ^ fxP - r
  let y := fxMul h fxPi
  (fxSin (fxMul y y) 60 1 y).toNat

/-- sin(pi x) where x = r / 2^448 and r is any integer: sign and magnitude; exact at multiples of 1/2. -/
def sinPi (r : Int) : Val :=
  let u := (r % (2 * 2 ^ fxP : Nat)).toNat
  let neg := decide (2 ^ fxP ≤ u)
  let v := u % 2 ^ fxP
  if v = 0 then .zero
  else if 2 * v = 2 ^ fxP then .fin neg 1 0
  else jam neg (sinUnit v) (-(fxP : Int)) true

/-- A value at or above 2^24 in magnitude is an even integer. -/
def bigEven (m : Nat) (e : Int) : Bool := m != 0 && decide (25 ≤ (Nat.log2 m : Int) + e)

def sinpV : Val → Val × Fl
  | .nan _ a _ => (.canon, if a then flNV else 0)
  | .inf _ => (.canon, flNV)
  | .fin s m e =>
    if m = 0 || bigEven m e then (.zero s, 0)
    else
      let r : Int := fxOf m e
      match sinPi r with
      | .fin n q g => (if q = 0 then .zero s else .fin (n != s) q g, 0)
      | v => (v, 0)

def cospV : Val → Val × Fl
  | .nan _ a _ => (.canon, if a then flNV else 0)
  | .inf _ => (.canon, flNV)
  | .fin _ m e =>
    if m = 0 || bigEven m e then (.fin false 1 0, 0)
    else (sinPi ((fxOf m e : Int) + (2 ^ (fxP - 1) : Nat)), 0)

end Sys2Proof.Machine
end

