-- ==== Sys2Proof/Machine/Memory.lean ====
section
/-! DEFINITION. The memory system: physical map (R71, R72), translation (R73-R78), the die L2s with held remote lines, injected-copy
masks and the home directory (R68, R69, R97, R105), the L1s (R64-R67, R85, R86), releases and acquires, scratchpads and bucket
windows (R59-R63). The home L2s and GDDR7 are one store, `State.mem`: no rule tells them apart. -/
namespace Sys2Proof.Machine

-- Physical map

def dieStride : Nat := 0x1000000000
def dieBytes : Nat := 0xA7A200000
def sysBase : Nat := 0x8000000000000
def sysEnd : Nat := 0x10000000000000

/-- The home die of a device address (R71). -/
def homeDie (pa : Nat) : Option Nat :=
  if pa / dieStride < 4 && pa % dieStride < dieBytes then some (pa / dieStride) else none

def inDevice (pa : Nat) : Bool := (homeDie pa).isSome
def inSystem (pa : Nat) : Bool := sysBase ≤ pa && pa < sysEnd
def inMap (pa : Nat) : Bool := inDevice pa || inSystem pa

/-- spread_locate of R72; none is its fault(5). -/
def spreadLocate (a : Nat) : Option Nat :=
  let loc := a / 8192 * 2048 + a % 2048
  if dieBytes ≤ loc then none else some (a / 2048 % 4 * dieStride + loc)

-- Lines of 128 bytes

def lineOf (pa : Nat) : Nat := pa / 128
def lineGet (x : BitVec 1024) (i : Nat) : Byte := x.extractLsb' (8 * i) 8
def lineSet (x : BitVec 1024) (i : Nat) (b : Byte) : BitVec 1024 :=
  (x &&& ~~~((0xFF : BitVec 1024) <<< (8 * i))) ||| (b.setWidth 1024 <<< (8 * i))

def lineOfBytes (bs : List Byte) : BitVec 1024 := BitVec.ofNat 1024 (leNat bs)

/-- The line as it stands at its home. -/
def State.homeLine (s : State) (line : Nat) : BitVec 1024 := lineOfBytes (Mem.rdN s.mem (128 * line) 128)

/-- Bits of a sector's bytes in a byte mask. -/
def sectorBytes (k : Nat) : List Nat := (List.range 32).map (fun i => 32 * k + i)

/-- Copies the bytes i of `src` for which the mask is clear. -/
def mergeClean (dst src : BitVec 1024) (dirty : BitVec 128) (is : List Nat) : BitVec 1024 :=
  is.foldl (fun d i => if dirty.getLsbD i then d else lineSet d i (lineGet src i)) dst

/-- Copies the bytes i of `src` for which the mask is set. -/
def mergeDirty (dst src : BitVec 1024) (dirty : BitVec 128) : BitVec 1024 :=
  (List.range 128).foldl (fun d i => if dirty.getLsbD i then lineSet d i (lineGet src i) else d) dst

-- Injected copies (R97)

def L1Line.dropClean (l : L1Line) : L1Line := { l with valid := 0, inj := false }

/-- A line's clean bytes go, dirty bytes stay, INJ is cleared; a line with nothing dirty is gone. -/
def invalidateL1 (ls : List L1Line) (line : Nat) : List L1Line :=
  (ls.map (fun l => if l.line = line then l.dropClean else l)).filter (fun l => !(l.line == line && l.dirty == 0))

def State.dropCopy (s : State) (core line : Nat) : State :=
  if (s.core core).l1.any (fun l => l.line == line) then s.updCore core (fun c => { c with l1 := invalidateL1 c.l1 line }) else s

/-- Invalidations of a line still on their way to cores of a die arrive. -/
def State.deliverInv (s : State) (d line : Nat) : State :=
  let ms := s.invMsgs.filter (fun m => m.1 / 32 == d && m.2 == line)
  let s := ms.foldl (fun s m => s.dropCopy m.1 m.2) s
  { s with invMsgs := s.invMsgs.filter (fun m => !(m.1 / 32 == d && m.2 == line)) }

/-- Before a line of a die's L2 changes, the injected copies of it on that die go, but those of `keep`; the change is not complete
until every L1 has acknowledged (R97). An injected line still in flight is followed by the invalidation (log 64). -/
def State.invalCopies (s : State) (d line : Nat) (keep : BitVec 32 := 0) : State :=
  let s := s.deliverInv d line
  let s := { s with injMsgs := s.injMsgs.map (fun m => if m.core / 32 = d ∧ m.line = line then { m with stale := true } else m) }
  match mget (s.die d).injMask line with
  | none => s
  | some m =>
    let s := (List.range 32).foldl (fun s k => if m.getLsbD k && !keep.getLsbD k then s.dropCopy (32 * d + k) line else s) s
    s.updDie d (fun x => { x with injMask := if m &&& keep = 0 then mdel x.injMask line else mput x.injMask line (m &&& keep) })

-- Home store

/-- Bytes written at their home by a die d: injected copies of the home die go, and those of the dies that the directory lists (R69, R97);
d keeps those of `keep`. -/
def State.homeWrite (s : State) (pa : Nat) (bs : List Byte) (d : Nat := 4) (keep : BitVec 32 := 0) : State :=
  let s := match homeDie pa with
    | some h =>
      let m := ((mget (s.die h).dir (lineOf pa)).getD (0, none)).1
      (List.range 4).foldl (fun (s : State) k => if k = h || m.getLsbD k then s.invalCopies k (lineOf pa) (if k = d then keep else 0) else s) s
    | none => s
  { s with mem := Mem.wrN s.mem pa bs }

/-- Directory of a C line after a read or a write by a die (R69). -/
def State.dirTouch (s : State) (d pa : Nat) (write : Bool) : State :=
  match homeDie pa with
  | none => s
  | some h =>
    let line := lineOf pa
    let e := (mget (s.die h).dir line).getD (0, none)
    if write then
      let s := (List.range 4).foldl (fun s k => if k = d then s else s.invalCopies k line) s
      if d = h then s.updDie h (fun x => { x with dir := mdel x.dir line })
      else s.updDie h (fun x => { x with dir := mput x.dir line (1 <<< d, some d) })
    else if d = h then
      (match e.2 with | some _ => s.updDie h (fun x => { x with dir := mput x.dir line (e.1, none) }) | none => s)
    else s.updDie h (fun x => { x with dir := mput x.dir line (e.1 ||| (1 <<< d), if e.2 = some d then e.2 else none) })

/-- The die's L2 keeps a copy of its own: lines of remote S pages and of the system range (R68, R86). -/
def heldApart (d pa : Nat) (a : PageAttr) : Bool := inSystem pa || (a.s && homeDie pa != some d)

-- Die L2 (R68, R105)

/-- Write-back of a line's bytes under a mask. -/
def State.maskedWrite (wr : State → Nat → List Byte → State) (s : State) (line : Nat) (data : BitVec 1024) (m : BitVec 128) : State :=
  (List.range 128).foldl (fun s i => if m.getLsbD i then wr s (128 * line + i) [lineGet data i] else s) s

/-- Writes back a die L2's dirty bytes of a line to its home; they become clean (R105, R106). -/
def State.l2WriteBack (s : State) (d line : Nat) (m : BitVec 128) : State :=
  match mget (s.die d).l2 line with
  | none => s
  | some l =>
    let s := State.maskedWrite (fun s a b => s.homeWrite a b) s line l.data (l.dirty &&& m)
    s.updDie d (fun x => { x with l2 := mput x.l2 line { l with dirty := l.dirty &&& ~~~m } })

/-- A die's L2 evicts a line: invalidations go to the holders of injected copies, dirty bytes go home byte-masked, and a copy of its
own is gone (R97, R105). Pinned lines stay (R70). -/
def State.evict (s : State) (d line : Nat) : State :=
  if (s.die d).pins.any (fun p => p.1 ≤ 128 * line && 128 * line < p.1 + p.2) then s
  else
    let m := (mget (s.die d).injMask line).getD 0
    let s := { s with invMsgs := s.invMsgs ++ ((List.range 32).filter (fun k => m.getLsbD k)).map (fun k => (32 * d + k, line)) }
    let s := s.updDie d (fun x => { x with injMask := mdel x.injMask line })
    let s := s.l2WriteBack d line (BitVec.allOnes 128)
    s.updDie d (fun x => { x with l2 := mdel x.l2 line })

/-- The slice of a line (R68). -/
def sliceOf (line : Nat) : Nat := (line % 16) ^^^ (line / 16 % 16) ^^^ (line / 256 % 16) ^^^ (line / 4096 % 16)

/-- Room for one more line that the L2 holds apart: a set has 16 ways, and a full one evicts a line, a free choice (R68). -/
def State.l2Room (s : State) (d line : Nat) : State :=
  let l2 := (s.die d).l2
  if l2.length < 16 || l2.any (fun e => e.1 == line) then s
  else
    let set := (l2.map Prod.fst).filter (fun k => sliceOf k == sliceOf line && Config.l2Row k % 1024 == Config.l2Row line % 1024)
    if set.length < 16 then s else s.bump.evict d (set.getD (Config.victim s.fresh % set.length) line)

/-- The contents of a line are open: free bytes, whatever copies the dies held. -/
def State.scramble (s : State) (line : Nat) : State :=
  let u := (List.range 4).foldl (fun s d => s.updDie d (fun x => { x with l2 := mdel x.l2 line })) s
  { u with mem := Mem.wrN u.mem (128 * line) ((List.range 128).map (Config.freeByte s.fresh)) }.bump

/-- The kinds of page, C and S, through which a line has been reached, with an access of these attributes. -/
def State.kindsAt (s : State) (pa : Nat) (a : PageAttr) : Bool × Bool :=
  let o := (mget s.kinds (lineOf pa)).getD (false, false)
  (o.1 || a.c, o.2 || a.s)

/-- A line reached both through a C page and through an S page has unspecified contents (R69). -/
def State.meetKinds (s : State) (pa : Nat) (a : PageAttr) : State :=
  if !(a.c || a.s) then s
  else
    let k := s.kindsAt pa a
    let u := { s with kinds := mput s.kinds (lineOf pa) k }
    if k = (true, true) then u.scramble (lineOf pa) else u

/-- A sector that the L2 is to hold apart is read from its home. -/
def State.l2Fill (s : State) (d pa : Nat) (rg : Option Nat) : State :=
  let line := lineOf pa
  let s := s.l2Room d line
  let k := pa / 32 % 4
  let l := (mget (s.die d).l2 line).getD ⟨0, 0, 0, rg⟩
  if l.valid.getLsbD k then s
  else
    let l' : L2Line := { l with valid := l.valid ||| (1 <<< k), data := mergeClean l.data (s.homeLine line) l.dirty (sectorBytes k) }
    s.updDie d (fun x => { x with l2 := mput x.l2 line l' })

/-- Reads bytes of one sector at the L2 level of R87. -/
def State.l2Read (s : State) (d pa n : Nat) (a : PageAttr) : State × List Byte :=
  let s := s.meetKinds pa a
  if heldApart d pa a then
    let s := s.l2Fill d pa a.rg
    let l := (mget (s.die d).l2 (lineOf pa)).getD ⟨0, 0, 0, none⟩
    (s, (List.range n).map (fun i => lineGet l.data (pa % 128 + i)))
  else (if a.c then s.dirTouch d pa false else s, Mem.rdN s.mem pa n)

/-- Writes bytes of one line at the L2 level. -/
def State.l2Write (s : State) (d pa : Nat) (a : PageAttr) (bs : List Byte) (keep : BitVec 32 := 0) : State :=
  let line := lineOf pa
  let s := s.meetKinds pa a
  let put := fun (mark : Bool) (l : L2Line) =>
    (List.range bs.length).foldl (fun (l : L2Line) i =>
      { l with data := lineSet l.data (pa % 128 + i) (bs.getD i 0)
               dirty := if mark then l.dirty ||| (1 <<< (pa % 128 + i)) else l.dirty }) l
  if inSystem pa then
    let s := { s with mem := Mem.wrN s.mem pa bs }
    let s := s.invalCopies d line keep
    s.updDie d (fun x => { x with l2 := mupd x.l2 line (put false) })
  else if heldApart d pa a then
    let s := (s.invalCopies d line keep).l2Room d line
    let l := (mget (s.die d).l2 line).getD ⟨0, 0, 0, a.rg⟩
    s.updDie d (fun x => { x with l2 := mput x.l2 line (put true l) })
  else (if a.c then s.dirTouch d pa true else s).homeWrite pa bs d keep

/-- The L2's own copy of a line goes, its dirty bytes to their home first (R109). -/
def State.l2Drop (s : State) (d line : Nat) : State :=
  let s := (s.invalCopies d line).l2WriteBack d line (BitVec.allOnes 128)
  s.updDie d (fun x => { x with l2 := mdel x.l2 line })

-- L1 (R64-R67)

def State.l1Find (s : State) (c line : Nat) : Option L1Line := (s.core c).l1.find? (fun l => l.line == line)
def State.l1Put (s : State) (c : Nat) (l : L1Line) : State :=
  s.updCore c (fun x => { x with
    l1 := if x.l1.any (fun y => y.line == l.line) then x.l1.map (fun y => if y.line = l.line then l else y) else x.l1 ++ [l] })
def State.l1Del (s : State) (c line : Nat) : State := s.updCore c (fun x => { x with l1 := x.l1.filter (fun l => l.line != line) })

/-- Write-back of a line's dirty bytes to the next level (R64); the line is then clean. -/
def State.l1WriteBack (s : State) (c : Nat) (l : L1Line) : State :=
  if l.dirty = 0 then s
  else
    let s := State.maskedWrite (fun s a b => s.l2Write (c / 32) a l.attr b) s l.line l.data l.dirty
    match s.l1Find c l.line with
    | none => s
    | some l' => s.l1Put c { l' with dirty := 0 }

/-- Injection quota of a core (R65). -/
def State.quota (s : State) (c : Nat) : Nat := (((s.core c).conf).map Prod.snd).getD 0

/-- The lines of a set that an ordinary fill may replace. -/
def State.l1Set (s : State) (c line : Nat) : List L1Line := (s.core c).l1.filter (fun l => l.line % 256 == line % 256 && l.way < 8 - s.quota c)

/-- A free choice of way that passes over a kept line once (R64, R67). -/
def State.l1Pass (s : State) (c line : Nat) : Nat → State × Nat
  | 0 => (s.bump, Config.victim s.fresh % (8 - s.quota c))
  | k + 1 =>
    let w := Config.victim s.fresh % (8 - s.quota c)
    match (s.l1Set c line).find? (fun l => l.way == w && l.rank == .keep) with
    | some l => (s.bump.l1Put c { l with rank := .normal }).l1Pass c line k
    | none => (s.bump, w)

/-- A way of a set for an ordinary fill: a free one of ways 0 to 7 - Q, or a victim, written back: a line inserted as least recently used, or
a free choice (R64, R65, R67). -/
def State.l1Way (s : State) (c line : Nat) : State × Nat :=
  match (List.range (8 - s.quota c)).find? (fun w => (s.l1Set c line).all (fun l => l.way != w)) with
  | some w => (s, w)
  | none =>
    let r := match (s.l1Set c line).find? (fun l => l.rank == .stream) with
      | some l => (s, l.way)
      | none => s.l1Pass c line (8 - s.quota c)
    match (r.1.l1Set c line).find? (fun l => l.way == r.2) with
    | none => r
    | some l => ((r.1.l1WriteBack c l).l1Del c l.line, r.2)

/-- How a line is inserted: a streaming page makes a hint .STREAM (R67). -/
def PageAttr.rank (a : PageAttr) (ch : Hint) : Hint := if a.cp = 1 then .stream else ch

/-- The line of an access, allocated if absent; a hit line counts as least recently used no more. -/
def State.l1Alloc (s : State) (c line : Nat) (a : PageAttr) (ch : Hint := .normal) : State × L1Line :=
  match s.l1Find c line with
  | some l => (s, { l with rank := if l.rank = .stream then .normal else l.rank })
  | none =>
    let r := s.l1Way c line
    (r.1, { line := line, valid := 0, dirty := 0, data := 0, inj := false, tag := 63, attr := a, way := r.2, rank := a.rank ch })

/-- Never allocated in an L1 (R67). -/
def PageAttr.l2Only (a : PageAttr) : Bool := a.cp == 2

/-- Bytes overlaid with the issuing L1's dirty bytes of the line (R67, R87). -/
def State.overlay (s : State) (c pa : Nat) (bs : List Byte) : List Byte :=
  match s.l1Find c (lineOf pa) with
  | none => bs
  | some l => (List.range bs.length).map (fun i =>
      if l.dirty.getLsbD (pa % 128 + i) then lineGet l.data (pa % 128 + i) else bs.getD i 0)

/-- The L1's clean copy of bytes just read at the next level takes their values, so that no later read of the core is older (R91). -/
def State.l1Refresh (s : State) (c pa : Nat) (bs : List Byte) : State :=
  match s.l1Find c (lineOf pa) with
  | none => s
  | some l => s.l1Put c { l with data := (List.range bs.length).foldl (fun d i =>
      if l.dirty.getLsbD (pa % 128 + i) then d else lineSet d (pa % 128 + i) (bs.getD i 0)) l.data }

/-- A bypassing read: L2 data overlaid with the issuing L1's dirty bytes. It hits no L1 line, so it leaves INJ (log 65). -/
def State.bypassRead (s : State) (c pa n : Nat) (a : PageAttr) : State × List Byte :=
  let r := s.l2Read (c / 32) pa n a
  (r.1.l1Refresh c pa r.2, r.1.overlay c pa r.2)

/-- A read in the L1 (R64, R66, R67): every read done there that finds the line, PREF and an L1 atomic included, clears its INJ (log 65). -/
def State.l1Read (s : State) (c pa n : Nat) (a : PageAttr) (ch : Hint) : State × List Byte :=
  if a.l2Only || ch == .bypass then s.bypassRead c pa n a
  else
    let r := s.l1Alloc c (lineOf pa) a ch
    let s := r.1
    let l := { r.2 with inj := false }
    let k := pa / 32 % 4
    let out := fun (l : L1Line) => (List.range n).map (fun i => lineGet l.data (pa % 128 + i))
    if l.valid.getLsbD k then (s.l1Put c l, out l)
    else
      let f := s.l2Read (c / 32) (pa / 32 * 32) 32 a
      let src := lineOfBytes (List.replicate (32 * k) 0 ++ f.2)
      let l := { l with valid := l.valid ||| (1 <<< k), data := mergeClean l.data src l.dirty (sectorBytes k) }
      (f.1.l1Put c l, out l)

/-- Updates the bytes of an L1's copy, if present, without marking them dirty (R67). -/
def State.l1Update (s : State) (c pa : Nat) (bs : List Byte) : State :=
  match s.l1Find c (lineOf pa) with
  | none => s
  | some l => s.l1Put c { l with data := (List.range bs.length).foldl (fun d i => lineSet d (pa % 128 + i) (bs.getD i 0)) l.data }

/-- A bypassing or written-through store (R67, R87). -/
def State.bypassWrite (s : State) (c pa : Nat) (a : PageAttr) (bs : List Byte) (keep : BitVec 32 := 0) : State :=
  (s.l2Write (c / 32) pa a bs keep).l1Update c pa bs

/-- A plain store: allocates the line without fetching it and marks its bytes dirty under the task tag (R64, R85). -/
def State.l1Write (s : State) (c tag pa : Nat) (a : PageAttr) (ch : Hint) (bs : List Byte) : State :=
  if a.l2Only || ch == .bypass then s.bypassWrite c pa a bs
  else
    let r := s.l1Alloc c (lineOf pa) a ch
    let l := r.2
    let tag' := if l.dirty = 0 then tag else if l.tag = tag then tag else 63
    let l := (List.range bs.length).foldl (fun (l : L1Line) i =>
      { l with data := lineSet l.data (pa % 128 + i) (bs.getD i 0), dirty := l.dirty ||| (1 <<< (pa % 128 + i)) }) l
    r.1.l1Put c { l with tag := tag' }

-- Releases and acquires (R85, R86)

def Scope.wide : Sys2Proof.Scope → Bool
  | .cl => true
  | .die => true
  | .dev => true
  | .sys => true
  | _ => false

/-- The L1's part of a release by workgroup slot `tag` (R85 step 2; R45). -/
def State.writeBackTag (s : State) (c tag : Nat) : State :=
  ((s.core c).l1.filter (fun l => l.dirty != 0 && (l.tag == tag || l.tag == 63))).foldl (fun s l => s.l1WriteBack c l) s

def State.release (s : State) (c tag : Nat) (sc : Scope) : State := if Scope.wide sc then s.writeBackTag c tag else s

/-- The part of a release by several parties of one core, by their workgroup slots. -/
def State.releaseTags (s : State) (c : Nat) (tags : List Nat) (sc : Scope) : State := tags.eraseDups.foldl (fun s t => s.release c t sc) s

/-- The L1's part of an acquire: clean bytes of lines with INJ clear are dropped; at SYS the die's L2 drops its clean lines of
the system range (R86). -/
def State.acquire (s : State) (c : Nat) (sc : Scope) : State :=
  if Scope.wide sc then
    let s := s.updCore c (fun x => { x with
      l1 := (x.l1.map (fun l => if l.inj then l else { l with valid := 0 })).filter (fun l => l.inj || l.dirty != 0) })
    if sc = .sys then s.updDie (c / 32) (fun x => { x with l2 := x.l2.filter (fun e => !(inSystem (128 * e.1) && e.2.dirty == 0)) })
    else s
  else s

-- Page tables (R74-R78)

/-- A translation: physical address, page attributes, leaf base and size. -/
structure Xl where
  pa   : Nat
  attr : PageAttr
  base : Nat
  size : Nat
  pte  : Nat
deriving DecidableEq, Repr

/-- What an access needs of its page; `shadow` selects frame 1 - L, with L as it stood when the command started (R78, R79). -/
structure Need where
  r : Bool := false
  w : Bool := false
  x : Bool := false
  shadow : Option (List (Nat × Bool)) := none
deriving DecidableEq, Repr

def pteFrame (e : Nat) : Nat := e % 2 ^ 52 / 2 ^ 12 * 2 ^ 12

/-- Fates of a leaf entry of R75 and R78; true is cause 4. -/
def leafBad (e size : Nat) : Bool :=
  let b := fun k => e.testBit k
  let f := pteFrame e
  (e / 16 % 8 != 0) || (!b 10 && e / 2 ^ 54 != 0) || (e / 2 ^ 52 % 4 == 3) || (b 11 && b 10) || (b 9 && b 8)
    || (f % size != 0)
    || (b 10 && (f % (2 * size) != 0 || homeDie f == none || homeDie f != homeDie (f + 2 * size - 1)))

/-- The entry that a walk uses at a level: one of the walk-cache entries `wc`, or the one in memory (R73, R77). -/
def walkEntry (s : State) (wc : List WalkEntry) (va lvl shift at' : Nat) : Nat :=
  match wc.find? (fun w => w.lvl == lvl && w.key == va / 2 ^ shift) with
  | some w => w.pte
  | none => leNat (Mem.rdN s.mem at' 8)

/-- A non-leaf entry (R75). -/
def isTable (e : Nat) : Bool := e.testBit 0 && !e.testBit 7 && e / 2 ^ 52 == 0 && e / 2 % 2 ^ 11 == 0 && inDevice (pteFrame e)

/-- The leaf found for an address: entry, base and size; or the fault (R74, R75). Of the 16 entries of a 64 KiB page that differ, the one
picked serves as a 64 KiB leaf whatever its own PS (log 66). -/
def walkGo (s : State) (wc : List WalkEntry) (va : Nat) : List (Nat × Nat × Nat) → Nat → Except XFault (Nat × Nat × Nat)
  | [], _ => .error ⟨4, va / 4096 * 4096, 4096, false⟩
  | (lvl, shift, bits) :: ls, table =>
    let nl : Nat → XFault := fun c => ⟨c, va / 4096 * 4096, 4096, false⟩
    let ix := va / 2 ^ shift % 2 ^ bits
    let rd := fun i => leNat (Mem.rdN s.mem (table + 8 * i) 8)
    let e := walkEntry s wc va lvl shift (table + 8 * ix)
    if !e.testBit 0 then .error (nl 0)
    else if lvl = 5 then
      if e.testBit 7 then
        let es := (List.range 16).map (fun k => rd (ix / 16 * 16 + k))
        let e' := if es.all (· == e) then e else es.getD (Config.sixteenth s.fresh % 16) e
        if !e'.testBit 0 then .error (nl 0)
        else if leafBad e' 65536 then .error ⟨4, va / 65536 * 65536, 65536, false⟩
        else .ok (e', va / 65536 * 65536, 65536)
      else if leafBad e 4096 then .error ⟨4, va / 4096 * 4096, 4096, false⟩
      else .ok (e, va / 4096 * 4096, 4096)
    else if e.testBit 7 && 3 ≤ lvl then
      let size := 2 ^ shift
      if leafBad e size then .error ⟨4, va / size * size, size, false⟩ else .ok (e, va / size * size, size)
    else if !isTable e then .error (nl 4)
    else walkGo s wc va ls (pteFrame e)

/-- The non-leaf entries that a walk passes: what the walk cache learns of it. -/
def walkPath (s : State) (wc : List WalkEntry) (ctx va : Nat) : List (Nat × Nat × Nat) → Nat → List WalkEntry
  | [], _ => []
  | (lvl, shift, bits) :: ls, table =>
    let e := walkEntry s wc va lvl shift (table + 8 * (va / 2 ^ shift % 2 ^ bits))
    if lvl < 5 && isTable e then ⟨ctx, lvl, va / 2 ^ shift, e⟩ :: walkPath s wc ctx va ls (pteFrame e) else []

def walkLevels : List (Nat × Nat × Nat) := [(1, 48, 12), (2, 39, 9), (3, 30, 9), (4, 21, 9), (5, 12, 9)]

/-- Permissions, region and frame of a leaf for an access (R76, R78, R72); the order of the checks is log 10's. -/
def useLeaf (s : State) (ctx va : Nat) (nd : Need) (e base size : Nat) : Except XFault Xl :=
  let bad := fun c => Except.error (⟨c, base, size, nd.w⟩ : XFault)
  let off := va - base
  let fr := pteFrame e
  let attr : PageAttr := ⟨e.testBit 8, e.testBit 9, BitVec.ofNat 2 (e / 2 ^ 52), if e.testBit 10 then some (e / 2 ^ 54) else none⟩
  if nd.r && !e.testBit 1 then bad 1
  else if nd.w && !e.testBit 2 then bad 2
  else if nd.x && !e.testBit 3 then bad 3
  else if e.testBit 10 then
    let k := e / 2 ^ 54
    match mget s.regions k with
    | none => bad 6
    | some g =>
      if g.ctx != ctx then bad 6
      else
        let one := match nd.shadow with | none => g.live | some l => !((mget l k).getD g.live)
        .ok ⟨fr + (if one then size else 0) + off, attr, base, size, e⟩
  else if e.testBit 11 then
    match spreadLocate (fr + off) with
    | none => bad 5
    | some pa => .ok ⟨pa, attr, base, size, e⟩
  else if inMap (fr + off) then .ok ⟨fr + off, attr, base, size, e⟩
  else bad 5

/-- The newest n of a list. -/
def newest {α : Type} (n : Nat) (l : List α) : List α := l.drop (l.length - n)

/-- A die's translations: the 16,384 entries of its L2 TLB and the 128 of each core's L1 TLB (R73). -/
def tlbCap : Nat := 16384 + 32 * 128

/-- What a walk leaves cached on its die: the non-leaf entries it passed and its leaf (R73). -/
def Die.learn (x : Die) (path : List WalkEntry) (leaf : Option TlbEntry) : Die :=
  let new := path.filter (fun w => !x.walk.contains w)
  { x with
    walk := if new.isEmpty then x.walk
      else newest 512 (x.walk.filter (fun w => !new.any (fun v => v.ctx == w.ctx && v.lvl == w.lvl && v.key == w.key)) ++ new)
    tlb := match leaf with
      | some t => if x.tlb.contains t then x.tlb else newest tlbCap (x.tlb ++ [t])
      | none => x.tlb }

/-- The walk-cache entries of a context that serve a walk: a free choice of each (R73, R77). -/
def State.walkHits (s : State) (d ctx : Nat) : List WalkEntry :=
  ((s.die d).walk.filter (fun w => w.ctx == ctx)).zipIdx.filterMap (fun p => if Config.walkUse s.fresh p.2 then some p.1 else none)

/-- Translation of a 60-bit address in a context on a die; a cached entry may serve it or not, a free choice (R73, R77). -/
def State.walkTo (s : State) (d ctx va : Nat) (nd : Need) : State × Except XFault Xl :=
  let hits := (s.die d).tlb.filter (fun e => e.ctx == ctx && e.va ≤ va && va < e.va + e.size)
  let k := if hits.isEmpty then 0 else Config.tlbPick s.fresh % (hits.length + 1)
  let s := s.bump
  match hits[k]? with
  | some h => (s, useLeaf s ctx va nd h.pte.toNat h.va h.size)
  | none =>
    match mget s.contexts ctx with
    | none => (s, .error ⟨0, va / 4096 * 4096, 4096, nd.w⟩)
    | some c =>
      let wc := s.walkHits d ctx
      let path := walkPath s wc ctx va walkLevels c.root.toNat
      match walkGo s wc va walkLevels c.root.toNat with
      | .error f => (s.updDie d (fun x => x.learn path none), .error { f with wr := nd.w })
      | .ok (e, base, size) =>
        let s := s.updDie d (fun x => x.learn path (some ⟨ctx, base, size, BitVec.ofNat 64 e⟩))
        (s, useLeaf s ctx va nd e base size)

/-- The cause that marks a failed read of a lost sector among translation faults; R76 has no such cause. -/
def lostCause : Nat := 255

/-- An access to a physical address. Reading a lost sector takes the error again (R303); a store gives the sector data with a code of its own (log 79). -/
def State.meetSector (s : State) (va : Nat) (nd : Need) (x : Xl) : State × Except XFault Xl :=
  if !s.lost.contains (x.pa / 32) then (s, .ok x)
  else if nd.r || nd.x then (s, .error ⟨lostCause, va / 32 * 32, 32, nd.w⟩)
  else ({ s with lost := s.lost.filter (· != x.pa / 32) }, .ok x)

/-- What a translation found, up to the data that stands there. -/
def State.meet (r : State × Except XFault Xl) (va : Nat) (nd : Need) : State × Except XFault Xl :=
  match r with
  | (s, .ok x) => s.meetSector va nd x
  | (s, .error f) => (s, .error f)

/-- Translation of an address for an access. -/
def State.xlate (s : State) (d ctx va : Nat) (nd : Need) : State × Except XFault Xl := State.meet (s.walkTo d ctx va nd) va nd

-- Address spaces other than global (R59-R63)

/-- Where an address of a space lies. -/
inductive Place where
  | glob (va : Nat)
  | spad (wg off : Nat)
  | bk (die off : Nat)
deriving DecidableEq, Repr

/-- Requested scratchpad bytes of a workgroup. -/
def State.spbOf (s : State) (w : Nat) : Nat := ((s.dispOf w).map (fun d => d.lr.spb)).getD 0

/-- S of R61: requested bytes rounded up to a power of two of at least 1,024. -/
def pow2Up (n : Nat) : Nat := if n ≤ 1024 then 1024 else 2 ^ (Nat.log2 (n - 1) + 1)

/-- The place of n bytes in a space for a workgroup, or none when a bound of R59 is broken. -/
def State.place (s : State) (w : Nat) (sp : Space) (a : DWord) (n : Nat) : Option Place :=
  let x := a.toNat
  match sp with
  | .global => if hi4zero a then some (.glob x) else none
  | .scratch => if x < 2 ^ 32 && x + n ≤ s.spbOf w then some (.spad w x) else none
  | .cluster =>
    let sz := pow2Up (s.spbOf w)
    let ms := (((s.wg w).bind (fun g => mget s.clusters g.cluster)).map Cluster.members).getD []
    match ms[x / sz]? with
    | some m => if x < 2 ^ 32 && x % sz + n ≤ s.spbOf w then some (.spad m (x % sz)) else none
    | none => none
  | .bucket =>
    let d := ((s.wg w).map Workgroup.die).getD 0
    let dp := ((s.wg w).map Workgroup.disp).getD 0
    match (s.die d).bkState with
    | .graphics g => if g = dp && x + n ≤ 0x1000000 then some (.bk d x) else none
    | .window g b => if g = dp && x + n ≤ b then some (.bk d x) else none
    | .idle => none

def State.isGfx (s : State) (w : Nat) : Bool := ((s.dispOf w).map (fun d => d.gfx.isSome)).getD false

/-- The checks of R59 and R202 on an access: alignment, bound, and no store to .BK in a graphics dispatch. -/
def State.checkAccess (s : State) (w : Nat) (sp : Space) (a : DWord) (n : Nat) (store : Bool) : Option TrapInfo :=
  if a.toNat % n != 0 then some (illegalState a)
  else if sp = .bucket && store && s.isGfx w then some (illegalState a)
  else match s.place w sp a n with
    | some _ => none
    | none => some (illegalState a)

def State.spadRead (s : State) (w off n : Nat) : List Byte := Mem.rdN (((s.wg w).map Workgroup.spad).getD []) off n
def State.spadWrite (s : State) (w off : Nat) (bs : List Byte) : State := s.updWg w (fun x => { x with spad := Mem.wrN x.spad off bs })

/-- What a byte of die d's bucket memory holds where nothing is listed: zero, or after a dispatch has released it a free byte, since its contents are
not kept (R214). -/
def bkMask (d : Nat) (draw : Option Nat) (off : Nat) : Byte := match draw with | some k => Config.freeByte k (0x1000000 * d + off) | none => 0

/-- A byte of bucket memory: what is listed for it tells how it differs from bkMask. -/
def Die.bkByte (x : Die) (d off : Nat) : Byte := Mem.rd x.bk off ^^^ bkMask d x.bkDraw off

def State.bkRead (s : State) (d off n : Nat) : List Byte := (List.range n).map (fun i => (s.die d).bkByte d (off + i))
def State.bkWrite (s : State) (d off : Nat) (bs : List Byte) : State :=
  s.updDie d (fun x => { x with bk := Mem.wrN x.bk off (bs.zipIdx.map (fun p => p.1 ^^^ bkMask d x.bkDraw (off + p.2))) })

-- Physical accesses of the hub and of saves: at the home L2, or at the PCIe root (R81, R253)

def State.physRead (s : State) (pa n : Nat) : List Byte := Mem.rdN s.mem pa n
def State.physWrite (s : State) (pa : Nat) (bs : List Byte) : State :=
  (List.range bs.length).foldl (fun s i => s.homeWrite (pa + i) [bs.getD i 0]) s

/-- A multi-byte access of an engine or hub in a global space: byte by byte at the L2 level of a die, with one translation per
byte's page; the first failing byte's fault is returned and nothing further is done. -/
def State.globRead (s : State) (d ctx va : Nat) (nd : Need) : Nat → State × Except (XFault × Nat) (List Byte)
  | 0 => (s, .ok [])
  | n + 1 =>
    match s.xlate d ctx va nd with
    | (s, .error f) => (s, .error (f, va))
    | (s, .ok x) =>
      let r := s.l2Read d x.pa 1 x.attr
      match r.1.globRead d ctx (va + 1) nd n with
      | (s, .error f) => (s, .error f)
      | (s, .ok bs) => (s, .ok (r.2 ++ bs))

def State.globWrite (s : State) (d ctx va : Nat) (nd : Need) : List Byte → State × Except (XFault × Nat) Unit
  | [] => (s, .ok ())
  | b :: bs =>
    match s.xlate d ctx va nd with
    | (s, .error f) => (s, .error (f, va))
    | (s, .ok x) => (s.l2Write d x.pa x.attr [b]).globWrite d ctx (va + 1) nd bs

end Sys2Proof.Machine
end

