-- ==== Sys2Proof/Machine/Planes.lean ====
section
/-! DEFINITION. Significance planes: tensor handles (R134, R135), the place of a block's bytes (R133), reads of k planes (R136, R137)
and the accumulation of PLADD (R138). -/
namespace Sys2Proof.Machine

/-- A tensor handle (R134). -/
structure Handle where
  expb   : Nat
  pl0b   : Nat
  pstr   : Nat
  nblk   : Nat
  rpitch : Nat
  bpr    : Nat
  pcnt   : Nat
deriving DecidableEq, Repr

/-- The handle in 32 bytes; none when a fate of R134 applies. -/
def handleOf (bs : List Byte) : Option Handle :=
  let h : Handle := ⟨fld bs 0 8, fld bs 8 8, fld bs 16 4, fld bs 20 4, fld bs 24 4, fld bs 28 2, fld bs 30 1⟩
  if h.expb < 2 ^ 60 && h.pl0b < 2 ^ 60 && h.pl0b % 2 == 0 && h.pstr % 2 == 0 && h.pstr != 0 && h.nblk != 0
    && h.bpr != 0 && h.bpr ≤ h.rpitch && h.pcnt != 0 && h.pcnt ≤ 16
  then some h else none

/-- x of R133: the place of block b in the arrays. -/
def Handle.slotOf (h : Handle) (b : Nat) : Nat := b / h.bpr * h.rpitch + b % h.bpr
/-- The addresses are formed modulo 2^64 (log 68). -/
def Handle.expAddr (h : Handle) (b : Nat) : Nat := (h.expb + h.slotOf b) % 2 ^ 64
def Handle.planeAddr (h : Handle) (b j : Nat) : Nat := (h.pl0b + j * h.pstr + 2 * h.slotOf b) % 2 ^ 64

/-- The bytes of a block: its exponent byte and its first n plane words (R133). -/
def blockAddrs (h : Handle) (b n : Nat) : List (Nat × Nat) := (h.expAddr b, 1) :: (List.range n).map (fun j => (h.planeAddr b j, 2))

/-- Bit i of a plane word. -/
def planeBit (w : Nat) (i : Nat) : Nat := w / 2 ^ i % 2

/-- The k-bit pattern of element i from plane words, plane 0 highest; missing planes read zero (R136). -/
def mantBits (k : Nat) (ws : List Nat) (i : Nat) : Nat :=
  (List.range k).foldl (fun a j => 2 * a + planeBit (ws.getD j 0) i) 0

/-- The k-bit mantissa of element i (R136). -/
def mant (k : Nat) (ws : List Nat) (i : Nat) : Int := sgn k (mantBits k ws i)

/-- With RND, for k below P and a block that is no NaN, plane k is added in and the sum saturates (R137). -/
def mantRnd (k p e : Nat) (rnd : Bool) (ws : List Nat) (i : Nat) : Int :=
  let m := mant k ws i
  if rnd && k < p && e != 255 then
    let n := m + planeBit (ws.getD k 0) i
    if (2 ^ (k - 1) : Nat) ≤ n then (2 ^ (k - 1) : Nat) - 1 else n
  else m

/-- How many plane words a read of k planes takes (R369). -/
def planesRead (k p : Nat) (rnd : Bool) : Nat := min (if rnd && k < p then k + 1 else k) p

/-- The plane words of 16 mantissas of p bits (R133). -/
def planesOf (p : Nat) (ms : List Int) : List Nat :=
  (List.range p).map (fun j => (List.range 16).foldl (fun w i => w + 2 ^ i * (wrap p (ms.getD i 0) / 2 ^ (p - 1 - j) % 2)) 0)

/-- Halves every sum with ties to even while one is out of range and E is below 254 (R138); at most n times. -/
def pladdNorm (lo hi : Int) : Nat → Nat → List Int → Fl → Nat × List Int × Fl
  | 0, e, ns, f => (e, ns, f)
  | n + 1, e, ns, f =>
    if ns.any (fun x => x < lo || hi < x) && e < 254 then
      let hs := ns.map (fun x => roundInt .rne ((Val.ofInt x).scale (-1)))
      pladdNorm lo hi n (e + 1) (hs.map Prod.fst) (f ||| (if hs.any Prod.snd then flNX else 0))
    else (e, ns, f)

/-- pladd_apply of R138: new exponent, new mantissas or none for planes left as they were, and the DASR bits. -/
def pladdApply (p e : Nat) (ms : List Int) (us : List Val) : Nat × Option (List Int) × BitVec 5 :=
  if e = 255 then (255, none, dasrOf flNV)
  else if us.any (fun u => !u.isFin) then (255, none, dasrOf flNV)
  else
    let lo : Int := -(2 ^ (p - 1) : Nat)
    let hi : Int := (2 ^ (p - 1) : Nat) - 1
    let ds := us.map (fun u => roundInt .rne (u.scale (127 - (e : Int) + ((p : Int) - 1))))
    let ns := (List.range 16).map (fun i => ms.getD i 0 + (ds.getD i (0, false)).1)
    let r := pladdNorm lo hi 255 e ns (if ds.any Prod.snd then flNX else 0)
    if r.2.1.any (fun x => x < lo || hi < x) then
      (r.1, some (r.2.1.map (clampI lo hi)), dasrOf (r.2.2 ||| flNX) ||| dasrPSAT)
    else (r.1, some r.2.1, dasrOf r.2.2)

end Sys2Proof.Machine
end

