-- ==== Sys2Proof/Machine/Eval.lean ====
section
/-! DEFINITION. Evaluation that reads memory as it goes: a state, a fault or a fate; and FP32 arithmetic on codes that gathers its
flags, one RNE rounding per operation (R123, R220, R225). -/
namespace Sys2Proof.Machine

/-- Why an evaluation stops: a failed translation and the address that met it, or a fate of a record. -/
inductive XErr where
  | fault (f : XFault) (va : Nat)
  | fate (addr : Nat)
deriving DecidableEq, Repr

/-- A computation that may read memory. -/
abbrev Ev (α : Type) := State → State × Except XErr α

def Ev.ret {α : Type} (a : α) : Ev α := fun s => (s, .ok a)
def Ev.fail {α : Type} (e : XErr) : Ev α := fun s => (s, .error e)
def Ev.and {α β : Type} (x : Ev α) (f : α → Ev β) : Ev β := fun s =>
  match x s with
  | (s, .ok a) => f a s
  | (s, .error e) => (s, .error e)

/-- A fold whose steps may read memory. -/
def Ev.foldl {α β : Type} (f : β → α → Ev β) : β → List α → Ev β
  | b, [] => Ev.ret b
  | b, a :: as => (f b a).and (fun b => Ev.foldl f b as)

def Ev.list {α β : Type} (f : α → Ev β) (xs : List α) : Ev (List β) :=
  Ev.foldl (fun acc a => (f a).and (fun b => Ev.ret (acc ++ [b]))) [] xs

/-- Work in stages, each of which may read memory: what has been done when it ends, or when a stage stops. A stage that stops has had no effect. -/
def goOn {σ : Type} (next : σ → Option (Ev σ)) : Nat → σ → State → State × σ × Option XErr
  | 0, x, s => (s, x, none)
  | n + 1, x, s =>
    match next x with
    | none => (s, x, none)
    | some f => match f s with
      | (s', .ok y) => goOn next n y s'
      | (s', .error e) => ({ s with fresh := s'.fresh }, x, some e)

/-- Fails with a fate unless the condition holds. -/
def Ev.need (c : Bool) (addr : Nat) : Ev Unit := if c then Ev.ret () else Ev.fail (.fate addr)

/-- A reader of n bytes at a global address. -/
abbrev Rd := Nat → Nat → Ev (List Byte)

/-- Reads a naturally placed run that may cross lines and pages, piece by piece of at most 16 bytes. -/
def rdRun (r : Rd) : Nat → Nat → Nat → Ev (List Byte)
  | 0, _, _ => Ev.ret []
  | fuel + 1, va, n =>
    if n = 0 then Ev.ret []
    else
      let k := min n (16 - va % 16)
      (r va k).and (fun a => (rdRun r fuel (va + k) (n - k)).and (fun b => Ev.ret (a ++ b)))

def rdBytes (r : Rd) (va n : Nat) : Ev (List Byte) := rdRun r (n / 16 + 2) va n

/-- A translated read on a die: the bytes at the level that `lvl` gives; an address of 2^60 or more is a fate (R59). -/
def readAt (d ctx : Nat) (nd : Need) (lvl : State → Nat → Nat → PageAttr → State × List Byte) : Rd := fun va n s =>
  if 2 ^ 60 ≤ va then (s, .error (.fate va))
  else
    match s.xlate d ctx va nd with
    | (s, .error f) => (s, .error (.fault f va))
    | (s, .ok x) => let r := lvl s x.pa n x.attr; (r.1, .ok r.2)

/-- An engine's read: the L2 level of its die (R99). -/
def engRead (d ctx : Nat) : Rd := readAt d ctx { r := true } (fun s pa n a => s.l2Read d pa n a)

/-- A plain load at scope GRP through the L1 of a core (R135, R217, R221, R222). -/
def coreRead (c ctx : Nat) (ch : Hint := .normal) : Rd := readAt (c / 32) ctx { r := true } (fun s pa n a => s.l1Read c pa n a ch)

-- FP32 codes with gathered flags

/-- A code and the flags raised on the way to it. -/
abbrev FN := Nat × Fl

def fpOp (op : Val → Val → Val × Fl) (a b : FN) : FN :=
  let r := op (decodeF fp32 a.1) (decodeF fp32 b.1)
  let e := encode fp32 r.1 .rne false
  (e.1, a.2 ||| b.2 ||| r.2 ||| e.2)

def fpNeg (a : FN) : FN := (a.1 ^^^ 0x80000000, a.2)
def fpAbs (a : FN) : FN := (a.1 % 0x80000000, a.2)
def fpAdd : FN → FN → FN := fpOp (addV .rne)
def fpSub (a b : FN) : FN :=
  let y := decodeF fp32 b.1
  let r := addV .rne (decodeF fp32 a.1) y.neg
  let e := encode fp32 r.1 .rne false
  (e.1, a.2 ||| b.2 ||| r.2 ||| e.2)
def fpMul : FN → FN → FN := fpOp mulV
def fpDiv : FN → FN → FN := fpOp divV
def fpSqrt (a : FN) : FN :=
  let r := sqrtV (decodeF fp32 a.1)
  let e := encode fp32 r.1 .rne false
  (e.1, a.2 ||| r.2 ||| e.2)
def fpMinMax2 (mx : Bool) (a b : FN) : FN := let r := minMaxF fp32 mx a.1 b.1; (r.1, a.2 ||| b.2 ||| r.2)

/-- Code of an integer that FP32 holds exactly. -/
def fpInt (x : Int) : FN := ((encode fp32 (Val.ofInt x) .rne false).1, 0)
def fpVal (a : FN) : Val := decodeF fp32 a.1
def fpNaN (a : FN) : Bool := (fpVal a).isNan
def fpLt (a b : FN) : Bool := ltV (fpVal a) (fpVal b)
def fpLe (a b : FN) : Bool := leV (fpVal a) (fpVal b)
def fpEq (a b : FN) : Bool := eqV (fpVal a) (fpVal b)
def fpFin (a : FN) : Bool := (fpVal a).isFin
/-- floor, exact; a NaN or infinity stays. -/
def fpFloor (a : FN) : FN := if fpFin a then ((encode fp32 (Val.ofInt (floorV (fpVal a))) .rne false).1, a.2) else a

/-- FP32 field of a record. -/
def fpFld (bs : List Byte) (off : Nat) : FN := (fld bs off 4, 0)

/-- Minimum or maximum of values where a NaN among them gives NaN (R197). -/
def fpExt (mx : Bool) (xs : List FN) : FN :=
  if xs.any fpNaN then (0x7FC00000, 0)
  else match xs with
    | [] => (0x7FC00000, 0)
    | x :: rest => rest.foldl (fun a b => if mx then (if fpLt a b then b else a) else (if fpLt b a then b else a)) x

end Sys2Proof.Machine
end

