-- ==== Sys2Proof/Machine/Sampler.lean ====
section
/-! DEFINITION. The sampler: texture descriptors and texels (R217, R218), filter programs (R219-R221). The ray unit: scene records,
nodes, leaves, the triangle test and the traversal (R222-R227), over grid records (R199) and primitive IDs (R211). -/
namespace Sys2Proof.Machine

-- Texture descriptors (R217)

/-- Texel size of a format code. -/
def texelSize (fmt : Nat) : Nat :=
  match fmt with
  | 0 => 1
  | 1 => 2
  | 2 => 4
  | 3 => 1
  | 4 => 2
  | 5 => 4
  | 6 => 2
  | 7 => 8
  | 8 => 4
  | 9 => 16
  | _ => 1

/-- No fate of R217 applies to the 64 bytes of a descriptor. -/
def descOk (d : List Byte) : Bool :=
  let fmt := fld d 8 1
  let w := fld d 12 2
  let h := fld d 14 2
  let k := fld d 40 1
  decide (fmt ≤ 10) && decide (fld d 9 1 < 16) && fld d 10 2 == 0 && w != 0 && decide (w ≤ 32768) && h != 0 && decide (h ≤ 32768)
    && (fmt == 10 || (fld d 0 8 % texelSize fmt == 0 && decide (fld d 0 8 < 2 ^ 60) && decide (w * texelSize fmt ≤ fld d 16 4)))
    && fld d 20 4 == 0 && fld d 24 8 % 64 == 0
    && (if fmt = 10 then fld d 32 8 % 32 == 0 && decide (1 ≤ k % 128) && decide (k % 128 ≤ 16) else fld d 32 8 == 0 && k == 0)
    && allZero ((d.drop 41).take 23)

/-- The rest of R218's fates for code 10, with the handle read. -/
def descPlanesOk (d hb : List Byte) : Bool :=
  if fld d 8 1 != 10 then true
  else match handleOf hb with
    | none => false
    | some h => decide (fld d 12 2 ≤ 16 * h.bpr) && decide ((fld d 14 2 - 1) * h.bpr + (fld d 12 2 - 1) / 16 < h.nblk)

/-- No fate of R219 applies to a filter program: header and taps. -/
def progOk (hd : List Byte) (taps : List Byte) : Bool :=
  let fin := fun off => (decodeF fp32 (fld hd off 4)).isFin
  decide (1 ≤ fld hd 0 1) && decide (fld hd 0 1 ≤ 64) && decide (fld hd 1 1 < 16) && decide (fld hd 1 1 / 2 % 8 ≤ 4) && fld hd 2 2 == 0
    && fin 4 && fin 8 && allZero ((hd.drop 12).take 52)
    && (List.range (fld hd 0 1)).all (fun k => fld taps (8 * k + 6) 2 == 0 && decide (fld taps (8 * k + 2) 2 < 8))

/-- Some tap compares with the reference value. -/
def usesRef (hd taps : List Byte) : Bool := (List.range (fld hd 0 1)).any (fun k => fld taps (8 * k) 4 / 65536 % 4 == 1)

-- Texels (R218)

def unorm (n : Nat) : Nat := (encode fp32 (divV (Val.ofNat n) (Val.ofNat 255)).1 .rne false).1

/-- The sRGB transfer function of n / 255, correctly rounded: IEC 61966-2-1's curve (log 5). The power 2.4 is the fifth root of
the twelfth power. -/
def srgb (n : Nat) : Nat :=
  if n ≤ 10 then (encode fp32 (divV (Val.ofNat (100 * n)) (Val.ofNat (255 * 1292))).1 .rne false).1
  else
    let p := (1000 * n + 55 * 255) ^ 12
    let q := (255 * 1055) ^ 12
    let root := (List.range 65).foldl (fun r i => let c := r + 2 ^ (64 - i); if c ^ 5 * q ≤ p * 2 ^ 320 then c else r) 0
    (encode fp32 (jam false root (-64) (root ^ 5 * q != p * 2 ^ 320)) .rne false).1

def half32 (c : Nat) : Nat := (encode fp32 (decodeF fp16 c) .rne false).1

def fone : Nat := 0x3F800000

/-- The components (r, g, b, a) of a texel's bytes. -/
def decodeTexel (fmt : Nat) (bs : List Byte) : List Nat :=
  let u := fun i => unorm (fld bs i 1)
  let g := fun i => srgb (fld bs i 1)
  match fmt with
  | 0 => [u 0, 0, 0, fone]
  | 1 => [u 0, u 1, 0, fone]
  | 2 => [u 0, u 1, u 2, u 3]
  | 3 => [g 0, 0, 0, fone]
  | 4 => [g 0, g 1, 0, fone]
  | 5 => [g 0, g 1, g 2, u 3]
  | 6 => [half32 (fld bs 0 2), 0, 0, fone]
  | 7 => [half32 (fld bs 0 2), half32 (fld bs 2 2), half32 (fld bs 4 2), half32 (fld bs 6 2)]
  | 8 => [fld bs 0 4, 0, 0, fone]
  | _ => [fld bs 0 4, fld bs 4 4, fld bs 8 4, fld bs 12 4]

/-- Element i of block b of a plane tensor at k planes, as an FP32 code. -/
def planeElem (r : Rd) (h : Handle) (b k : Nat) (rnd : Bool) (i : Nat) : Ev Nat :=
  (r (h.expAddr b) 1).and (fun eb =>
    (Ev.list (fun j => (r (h.planeAddr b j) 2).and (fun w => Ev.ret (leNat w))) (List.range (planesRead k h.pcnt rnd))).and (fun ws =>
      let e := leNat eb
      if e = 255 then Ev.ret 0x7FC00000
      else Ev.ret (encode fp32 ((decodeE (.bfp k) (mantRnd k h.pcnt e rnd ws i)).scale ((e : Int) - 127)) .rne false).1))

def readTexel (r : Rd) (d hb : List Byte) (x y : Nat) : Ev (List Nat) :=
  let fmt := fld d 8 1
  if fmt = 10 then
    match handleOf hb with
    | none => Ev.fail (.fate (fld d 32 8))
    | some h =>
      (planeElem r h (y * h.bpr + x / 16) (fld d 40 1 % 128) (128 ≤ fld d 40 1) (x % 16)).and (fun c => Ev.ret [c, 0, 0, fone])
  else
    (r (fld d 0 8 + y * fld d 16 4 + x * texelSize fmt) (texelSize fmt)).and (fun bs => Ev.ret (decodeTexel fmt bs))

-- Filter programs (R220)

/-- texel_index; none is the border. -/
def texelIndex (i : Int) (n mode : Nat) : Option Nat :=
  match mode with
  | 0 => some (i % n).toNat
  | 1 => some (if i < 0 then 0 else if (n : Int) ≤ i then n - 1 else i.toNat)
  | 2 => let m := (i % (2 * n : Nat)).toNat; some (if n ≤ m then 2 * n - 1 - m else m)
  | _ => if i < 0 || (n : Int) ≤ i then none else some i.toNat

def cubicW (cb cc x : FN) : FN :=
  let i := fpInt
  if fpLt x (i 1) then
    let p := fpSub (fpSub (i 12) (fpMul (i 9) cb)) (fpMul (i 6) cc)
    let q := fpAdd (fpAdd (i (-18)) (fpMul (i 12) cb)) (fpMul (i 6) cc)
    let r := fpSub (i 6) (fpMul (i 2) cb)
    fpDiv (fpAdd (fpMul (fpMul (fpAdd (fpMul p x) q) x) x) r) (i 6)
  else if fpLt x (i 2) then
    let p := fpSub (fpNeg cb) (fpMul (i 6) cc)
    let q := fpAdd (fpMul (i 6) cb) (fpMul (i 30) cc)
    let r := fpSub (fpMul (i (-12)) cb) (fpMul (i 48) cc)
    let t := fpAdd (fpMul (i 8) cb) (fpMul (i 24) cc)
    fpDiv (fpAdd (fpMul (fpAdd (fpMul (fpAdd (fpMul p x) q) x) r) x) t) (i 6)
  else (0, x.2)

/-- |floor(q) + 0.5 - q|. -/
def centreDist (q : FN) : FN := fpAbs (fpSub (fpAdd (fpFloor q) (0x3F000000, 0)) q)

def cmpRef (op : Nat) (a b : FN) : Bool :=
  match op with
  | 0 => fpLt a b
  | 1 => fpLe a b
  | 2 => fpLt b a
  | 3 => fpLe b a
  | _ => fpEq a b

/-- Accumulator of a filter: none is empty; the weight sum. -/
structure FiltAcc where
  acc  : Option (List FN)
  wsum : FN
  fl   : Fl
deriving DecidableEq, Repr

/-- A coordinate usable as a texel index: finite and below 2^24 in magnitude. -/
def coordOk (q : FN) : Bool := fpFin q && fpLt (fpAbs q) (0x4B800000, 0)

def filterTap (r : Rd) (d hb hd taps : List Byte) (pu pv : FN) (fx fy : FN × FN) (ref : FN) (z : FiltAcc) (k : Nat) : Ev FiltAcc :=
  let tap := fld taps (8 * k) 8
  let w := fld d 12 2
  let h := fld d 14 2
  let a := fpDiv (fpInt (sgn 8 tap)) (fpInt 16)
  let b := fpDiv (fpInt (sgn 8 (tap / 256))) (fpInt 16)
  let qu := fpAdd (fpAdd pu (fpMul a fx.1)) (fpMul b fy.1)
  let qv := fpAdd (fpAdd pv (fpMul a fx.2)) (fpMul b fy.2)
  let ix := if coordOk qu && coordOk qv then texelIndex (floorV (fpVal qu)) w (fld d 9 1 % 4) else none
  let iy := if coordOk qu && coordOk qv then texelIndex (floorV (fpVal qv)) h (fld d 9 1 / 4) else none
  (match ix, iy with
    | some x, some y => readTexel r d hb x y
    | _, _ => Ev.ret [0, 0, 0, 0]).and (fun t =>
      let ts : List FN := t.map (fun c => (c, 0))
      let cb := fpFld hd 4
      let cc := fpFld hd 8
      let wt : FN := if tap / 2 ^ 18 % 2 = 1 then fpMul (cubicW cb cc (centreDist qu)) (cubicW cb cc (centreDist qv))
        else (half32 (tap / 2 ^ 32 % 2 ^ 16), 0)
      let prod := ts.map (fun c => fpMul wt c)
      let old := z.acc.getD (ts.map (fun _ => ((0 : Nat), (0 : Fl))))
      let acc : List FN × Bool := match tap / 2 ^ 16 % 4 with
        | 0 => (List.zipWith fpAdd old prod, true)
        | 1 =>
          let v : FN := if cmpRef (fld hd 1 1 / 2 % 8) ref (ts.headD (0, 0)) then (fone, 0) else (0, 0)
          (old.map (fun o => fpAdd o (fpMul wt v)), true)
        | 2 => ((match z.acc with | none => prod | some o => List.zipWith (fpMinMax2 false) o prod), false)
        | _ => ((match z.acc with | none => prod | some o => List.zipWith (fpMinMax2 true) o prod), false)
      let ws := if acc.2 then fpAdd z.wsum wt else z.wsum
      Ev.ret ⟨some acc.1, ws, z.fl ||| ws.2 ||| wt.2 ||| qu.2 ||| qv.2 ||| (acc.1.map Prod.snd).foldl (· ||| ·) 0⟩)

def ftzWord (ftz : Bool) (x : Word) : FN := if ftz && isSubnormal fp32 x.toNat then ((x &&& 0x80000000).toNat, 0) else (x.toNat, 0)

/-- The four result components and the flags of a filter run (R220). `args` are the registers from vA. -/
def filterRun (r : Rd) (desc prog : List Byte) (grad ftz : Bool) (args : List Word) : Ev (List Word × Fl) :=
  let d := desc.take 64
  let hb := desc.drop 64
  let hd := prog.take 64
  let taps := prog.drop 64
  let c := fun i => ftzWord ftz (args.getD i 0)
  let one : FN := (fone, 0)
  let fx := if grad then (c 2, c 3) else (one, (0, 0))
  let fy := if grad then (c 4, c 5) else ((0, 0), one)
  let ref : FN := ((args.getD (if grad then 6 else 2) 0).toNat, 0)
  let pu := fpMul (c 0) (fpInt (fld d 12 2))
  let pv := fpMul (c 1) (fpInt (fld d 14 2))
  (Ev.foldl (filterTap r d hb hd taps pu pv fx fy ref) ⟨none, (0, 0), pu.2 ||| pv.2⟩ (List.range (fld hd 0 1))).and (fun z =>
    let acc := z.acc.getD []
    let out := if fld hd 1 1 % 2 = 1 && !fpEq z.wsum (0, 0) then acc.map (fun x => fpDiv x z.wsum) else acc
    Ev.ret (out.map (fun x => BitVec.ofNat 32 x.1), z.fl ||| (out.map Prod.snd).foldl (· ||| ·) 0))

-- Grid records (R199) and primitive IDs (R211)

/-- The header of a grid record. -/
structure GHead where
  gidx : Nat
  nu   : Nat
  nv   : Nat
  u0   : Nat
  v0   : Nat
  pu   : Nat
  pv   : Nat
  gflg : Nat
  ga   : Nat
deriving DecidableEq, Repr

def gheadOf (b : List Byte) : GHead :=
  ⟨fld b 0 8 % 2 ^ 40, fld b 8 1, fld b 9 1, fld b 10 1, fld b 11 1, fld b 12 1, fld b 13 1, fld b 14 1, fld b 15 1⟩

def GHead.vertOff (h : GHead) (i j : Nat) : Nat := 64 + (j * (h.pu + 1) + i) * (24 + 2 * h.ga)

/-- Primitive ID of sub-triangle `sub` of micropolygon (i, j) of a piece (R211). -/
def primId (h : GHead) (i j sub : Nat) : Nat := h.gidx * 2 ^ 24 + (h.u0 + i) % 256 * 2 ^ 16 + (h.v0 + j) % 256 * 2 ^ 8 + sub * 2 ^ 7

-- The ray unit

abbrev V3 := FN × FN × FN

def v3sub (a b : V3) : V3 := (fpSub a.1 b.1, fpSub a.2.1 b.2.1, fpSub a.2.2 b.2.2)
def v3cross (x y : V3) : V3 :=
  (fpSub (fpMul x.2.1 y.2.2) (fpMul x.2.2 y.2.1), fpSub (fpMul x.2.2 y.1) (fpMul x.1 y.2.2), fpSub (fpMul x.1 y.2.1) (fpMul x.2.1 y.1))
def v3dot (x y : V3) : FN := fpAdd (fpAdd (fpMul x.1 y.1) (fpMul x.2.1 y.2.1)) (fpMul x.2.2 y.2.2)

/-- A ray: origin, direction, tmin, tmax and time (R225). -/
structure Ray where
  o : V3
  d : V3
  tmin : FN
  tmax : FN
  t : FN
deriving DecidableEq, Repr

def rayOf (args : List Word) : Ray :=
  let c := fun i => ((args.getD i 0).toNat, (0 : Fl))
  ⟨(c 0, c 1, c 2), (c 3, c 4, c 5), c 6, c 7, c 8⟩

/-- ray_tri of R225. -/
def rayTri (ray : Ray) (a b c : V3) (onesided : Bool) : Option (FN × FN × FN) :=
  let e1 := v3sub b a
  let e2 := v3sub c a
  let pv := v3cross ray.d e2
  let det := v3dot e1 pv
  let z : FN := (0, 0)
  if fpEq det z || fpNaN det || (onesided && fpLt det z) then none
  else
    let sv := v3sub ray.o a
    let lb := fpDiv (v3dot sv pv) det
    let qv := v3cross sv e1
    let lc := fpDiv (v3dot ray.d qv) det
    let th := fpDiv (v3dot e2 qv) det
    if !(fpLe z lb && fpLe z lc && fpLe (fpAdd lb lc) (fone, 0)) then none
    else if !(fpLt ray.tmin th && fpLe th ray.tmax) then none
    else some (th, lb, lc)

/-- A hit: th, primitive ID, weights. -/
abbrev Hit := FN × Nat × FN × FN

/-- The smaller th wins, then the smaller ID (R226). -/
def betterHit (a : Option Hit) (b : Hit) : Option Hit :=
  match a with
  | none => some b
  | some x => if fpLt b.1 x.1 || (fpEq b.1 x.1 && b.2.1 < x.2.1) then some b else some x

/-- A vertex of a record at time t, from its 24 position bytes (R225). -/
def vertexAt (t : FN) (b : List Byte) : V3 :=
  let p := fun k => fpAdd (fpFld b (4 * k)) (fpMul t (fpSub (fpFld b (12 + 4 * k)) (fpFld b (4 * k))))
  (p 0, p 1, p 2)

/-- The positions of a vertex at both shutter times, from its 24 position bytes. -/
def bothTimes (b : List Byte) : List V3 := [(fpFld b 0, fpFld b 4, fpFld b 8), (fpFld b 12, fpFld b 16, fpFld b 20)]

/-- Every hit of a leaf (R224, R225), each with the positions of its micropolygon's corners at both shutter times. -/
def leafHits (r : Rd) (ray : Ray) (leaf : List Byte) (addr : Nat) : Ev (List (Hit × List V3)) :=
  let g := fld leaf 0 8
  let ni := fld leaf 10 1
  let nj := fld leaf 11 1
  let ok := g % 64 == 0 && decide (g < 2 ^ 60) && decide (1 ≤ ni) && decide (ni ≤ 16) && decide (1 ≤ nj) && decide (nj ≤ 16)
    && decide (fld leaf 12 1 < 2) && fld leaf 13 3 == 0
  (Ev.need ok addr).and (fun _ => (rdBytes r g 64).and (fun hb =>
    let h := gheadOf hb
    (Ev.need (decide (fld leaf 8 1 + ni ≤ h.pu) && decide (fld leaf 9 1 + nj ≤ h.pv)) addr).and (fun _ =>
      let cells := (List.range nj).flatMap (fun j => (List.range ni).map (fun i => (fld leaf 8 1 + i, fld leaf 9 1 + j)))
      let vtx := fun i j => rdBytes r (g + h.vertOff i j) 24
      (Ev.list (fun (c : Nat × Nat) => (Ev.list (fun (v : Nat × Nat) => vtx v.1 v.2) [c, (c.1 + 1, c.2), (c.1 + 1, c.2 + 1), (c.1, c.2 + 1)]).and (fun vs =>
        let at' := fun k => vertexAt ray.t (vs.getD k [])
        let one := fld leaf 12 1 % 2 == 1
        let hit := fun (x : Option (FN × FN × FN)) (sub : Nat) =>
          (x.map (fun y => ((y.1, primId h c.1 c.2 sub, y.2.1, y.2.2), vs.flatMap bothTimes))).toList
        Ev.ret (hit (rayTri ray (at' 0) (at' 1) (at' 2) one) 0 ++ hit (rayTri ray (at' 0) (at' 2) (at' 3) one) 1))) cells).and (fun hs =>
          Ev.ret hs.flatten))))

-- The box test: does the exact segment o + s d, tmin < s ≤ tmax, meet the box? (R226)

/-- A finite FP32 code as a multiple of 2^-149; none for an infinity. -/
def fixedOf (c : Nat) : Option Int :=
  match decodeF fp32 c with
  | .fin s m e => let n : Int := (m * 2 ^ (e + 149).toNat : Nat); some (if s then -n else n)
  | _ => none

/-- A bound on s as a fraction with positive denominator. -/
abbrev Frac := Int × Int
def fracLe (a b : Frac) : Bool := decide (a.1 * b.2 ≤ b.1 * a.2)
def fracLt (a b : Frac) : Bool := decide (a.1 * b.2 < b.1 * a.2)

/-- Bounds that lo ≤ o + s d ≤ hi puts on s: lower bounds, upper bounds, or none when it fails for every s. An infinite
bound is no bound. -/
def slab (o d : Int) (lo hi : Option Int) : Option (List Frac × List Frac) :=
  if d = 0 then
    (if (match lo with | some l => decide (l ≤ o) | none => true) && (match hi with | some h => decide (o ≤ h) | none => true)
     then some ([], []) else none)
  else
    let low := (lo.map (fun l => if 0 < d then (l - o, d) else (o - l, -d))).toList
    let high := (hi.map (fun h => if 0 < d then (h - o, d) else (o - h, -d))).toList
    some (if 0 < d then (low, high) else (high, low))

/-- The segment meets the box; accepted when an operand is not finite. -/
def meets (ray : Ray) (box : List (Nat × Nat)) : Bool :=
  match fixedOf ray.o.1.1, fixedOf ray.o.2.1.1, fixedOf ray.o.2.2.1, fixedOf ray.d.1.1, fixedOf ray.d.2.1.1, fixedOf ray.d.2.2.1 with
  | some ox, some oy, some oz, some dx, some dy, some dz =>
    let b := fun k => box.getD k (0, 0)
    match slab ox dx (fixedOf (b 0).1) (fixedOf (b 0).2), slab oy dy (fixedOf (b 1).1) (fixedOf (b 1).2),
        slab oz dz (fixedOf (b 2).1) (fixedOf (b 2).2) with
    | some x, some y, some z =>
      let lows := x.1 ++ y.1 ++ z.1
      let highs := x.2 ++ y.2 ++ z.2 ++ ((fixedOf ray.tmax.1).map (fun t => (t, (2 ^ 149 : Int)))).toList
      let tmin := ((fixedOf ray.tmin.1).map (fun t => (t, (2 ^ 149 : Int)))).toList
      lows.all (fun l => highs.all (fun h => fracLe l h)) && tmin.all (fun l => highs.all (fun h => fracLt l h))
    | _, _, _ => false
  | _, _, _, _, _, _ => true

/-- The box of child c of a node (R223): per axis its bounds as FP32 codes; none for an empty box. -/
def childBox (node : List Byte) (c : Nat) : Option (List (Nat × Nat)) :=
  let ax := fun k =>
    let e : Int := (fld node (12 + k) 1 : Int) - 127
    let org := decodeF fp32 (fld node (4 * k) 4)
    let at' := fun (rm : Rm) (n : Nat) => (encode fp32 (addV rm org ((Val.ofNat n).scale e)).1 rm false).1
    let lo := fld node (16 + 6 * c + 2 * k) 1
    let hi := fld node (17 + 6 * c + 2 * k) 1
    (decide (lo ≤ hi), at' .rdn lo, at' .rup hi)
  if (ax 0).1 && (ax 1).1 && (ax 2).1 then some [(ax 0).2, (ax 1).2, (ax 2).2] else none

def nodeOk (node : List Byte) : Bool :=
  (List.range 3).all (fun k => (decodeF fp32 (fld node (4 * k) 4)).isFin && fld node (12 + k) 1 != 255)
    && fld node 15 1 == 0 && (List.range 4).all (fun c => fld node (40 + 4 * c) 4 / 2 ^ 30 != 3) && fld node 56 8 == 0

/-- No fate of R222 applies to a scene record. -/
def sceneOk (sc : List Byte) : Bool :=
  fld sc 0 8 % 64 == 0 && decide (fld sc 0 8 < 2 ^ 60) && fld sc 8 8 % 16 == 0 && decide (fld sc 8 8 < 2 ^ 60)
    && fld sc 16 4 / 2 ^ 30 != 3 && allZero ((sc.drop 20).take 12)

/-- A subtree that the traversal has left out: its pointer, its depth, and the boxes on the way into it from the one that the segment misses. -/
abbrev Missed := Nat × Nat × List (List (Nat × Nat))

/-- Traversal from a list of (child pointer, depth); `n` counts nodes visited; at most 64 levels and 65,536 nodes (R226). It answers with the best hit
and with the subtrees that it has left out. -/
def traverse (r : Rd) (ray : Ray) (sc : List Byte) (addr : Nat) : Nat → List (Nat × Nat) → Nat → Option Hit → List Missed → Ev (Option Hit × List Missed)
  | 0, _, _, _, _ => Ev.fail (.fate addr)
  | _ + 1, [], _, best, out => Ev.ret (best, out)
  | fuel + 1, (p, depth) :: rest, n, best, out =>
    let ix := p % 2 ^ 30
    match p / 2 ^ 30 with
    | 0 => traverse r ray sc addr fuel rest n best out
    | 1 =>
      if 64 < depth || 65536 ≤ n then Ev.fail (.fate addr)
      else
        (rdBytes r (fld sc 0 8 + 64 * ix) 64).and (fun node =>
          (Ev.need (nodeOk node) (fld sc 0 8 + 64 * ix)).and (fun _ =>
            let kids := (List.range 4).filterMap (fun c => (childBox node c).map (fun box => (fld node (40 + 4 * c) 4, depth + 1, box)))
            let go := (kids.filter (fun k => meets ray k.2.2)).map (fun k => (k.1, k.2.1))
            let left := (kids.filter (fun k => !meets ray k.2.2)).map (fun k => (k.1, k.2.1, [k.2.2]))
            traverse r ray sc addr fuel (go ++ rest) (n + 1) best (left ++ out)))
    | _ =>
      (rdBytes r (fld sc 8 8 + 16 * ix) 16).and (fun leaf =>
        (leafHits r ray leaf (fld sc 8 8 + 16 * ix)).and (fun hs =>
          traverse r ray sc addr fuel rest n (hs.foldl (fun b h => betterHit b h.1) best) out))

/-- A box encloses a point. -/
def inBox (p : V3) (box : List (Nat × Nat)) : Bool :=
  let on := fun (x : FN) (k : Nat) => fpLe ((box.getD k (0, 0)).1, 0) x && fpLe x ((box.getD k (0, 0)).2, 0)
  on p.1 0 && on p.2.1 1 && on p.2.2 2

/-- Hits in the subtrees left out (R226): the rounded test of R225 can find one though the exact segment misses the box. One whose micropolygon all
boxes on the way enclose at both shutter times belongs to the result; whether one outside a box is found is free. Nothing here faults or traps. -/
def missedHits (r : Rd) (ray : Ray) (sc : List Byte) : Nat → List Missed → State → State × List Hit
  | 0, _, s => (s, [])
  | _ + 1, [], s => (s, [])
  | fuel + 1, (p, depth, boxes) :: rest, s =>
    let ix := p % 2 ^ 30
    let skip := fun (s : State) => missedHits r ray sc fuel rest s
    match p / 2 ^ 30 with
    | 0 => skip s
    | 1 =>
      if 64 < depth then skip s
      else match rdBytes r (fld sc 0 8 + 64 * ix) 64 s with
        | (s, .error _) => skip s
        | (s, .ok node) =>
          if nodeOk node then
            let kids := (List.range 4).filterMap (fun c => (childBox node c).map (fun box => (fld node (40 + 4 * c) 4, depth + 1, boxes ++ [box])))
            missedHits r ray sc fuel (kids ++ rest) s
          else skip s
    | _ =>
      match (rdBytes r (fld sc 8 8 + 16 * ix) 16).and (fun leaf => leafHits r ray leaf 0) s with
      | (s, .error _) => skip s
      | (s, .ok hs) =>
        let found := (hs.zipIdx.filter (fun h => h.1.2.all (fun v => boxes.all (inBox v)) || Config.freeBit (s.fresh + h.2))).map (fun h => h.1.1)
        let z := skip { s with fresh := s.fresh + hs.length }
        (z.1, found ++ z.2)

/-- The hit of a ray among all leaves of a scene (R226). What the missed subtrees hold is looked up without an effect on the machine. -/
def nearestHit (r : Rd) (ray : Ray) (sc : List Byte) : Ev (Option Hit) :=
  (traverse r ray sc 0 400000 [(fld sc 16 4, 1)] 0 none []).and (fun t s =>
    let m := missedHits r ray sc 400000 t.2 s
    ({ s with fresh := m.1.fresh }, .ok (m.2.foldl betterHit t.1)))

/-- The registers RAYQ writes (R226). -/
def rayRun (r : Rd) (sc : List Byte) (any : Bool) (args : List Word) : Ev (List Word) :=
  let ray := rayOf args
  (if args.any (fun w => (decodeF fp32 w.toNat).isNan) then Ev.ret none
   else nearestHit r ray sc).and (fun h =>
    Ev.ret (match any, h with
      | true, none => [0]
      | true, some _ => [1]
      | false, none => [0x7F800000, 0xFFFFFFFF, 0xFFFFFFFF, 0]
      | false, some (th, id, lb, lc) =>
        let f16 := fun (x : FN) => (encode fp16 (fpVal x) .rne false).1
        [BitVec.ofNat 32 th.1, BitVec.ofNat 32 id, BitVec.ofNat 32 (id / 2 ^ 32), BitVec.ofNat 32 (f16 lb + 2 ^ 16 * f16 lc)]))

end Sys2Proof.Machine
end

