-- ==== Sys2Proof/Machine/Issue.lean ====
section
/-! DEFINITION. Issue of a word to an issue group: flag classes (R271), when a thread may issue a word (R16, R256, R270, R272), and
the two ways a word executes: once per thread and once per group (R19, R313). -/
namespace Sys2Proof.Machine

/-- Flag class of a word (R271). -/
inductive FClass where
  | a | b | none
deriving DecidableEq, Repr

def flagClass : Instr → FClass
  | .ld _ => .a
  | .ldp _ => .a
  | .ldl _ _ _ _ => .a
  | .atom _ => .a
  | .acas _ => .a
  | .tex _ _ => .a
  | .texg _ _ => .a
  | .rayq _ _ => .a
  | .bkget _ => .a
  | .st _ => .b
  | .stp _ => .b
  | .sti _ => .b
  | .red _ => .b
  | .pladd _ => .b
  | .wbr _ => .b
  | .qsend _ => .b
  | .chapp _ => .b
  | .chadv _ => .b
  | .cpy _ => .b
  | .mma _ => .b
  | .accld _ _ => .b
  | .accst _ _ => .b
  | .accz _ _ => .b
  | .gbin _ _ => .b
  | .gsub _ => .b
  | .bkdone _ => .b
  | .publish _ => .b
  | _ => .none

/-- The flag a word counts on for a thread (R270). -/
def Thread.flagOf (x : Thread) (i : Instr) : Option Nat :=
  match flagClass i with
  | .a => x.seta
  | .b => x.setb
  | .none => none

/-- Registers that a pending access writes (R272). -/
def accDests : AccOp → List (Option ThreadId × Reg)
  | .load d sz _ => (run d sz.regs).map (fun r => (none, r))
  | .ldl d wide => (run d (wd wide)).map (fun r => (none, r))
  | .atoms k true sz ls =>
    ls.flatMap (fun l => (run l.d (match k with | .cas => sz.regs | .rmw _ => sz.regs)).map (fun r => (some l.t, r)))
  | .ldp d _ _ k _ q => (run d (if q.isSome then 2 else (k + 1) / 2 + 1)).map (fun r => (none, r))
  | .tex d nc _ _ _ _ _ => (run d (nc + 1)).map (fun r => (none, r))
  | .rayq d any _ _ => (run d (if any then 1 else 4)).map (fun r => (none, r))
  | _ => []

/-- A register of a thread (an s-register of its group) is pending (R272). -/
def State.isPending (s : State) (t : ThreadId) (r : Reg) : Bool :=
  s.accs.any (fun e => (accDests e.2.op).any (fun d =>
    d.2 == r && (match r with
      | .v _ => (d.1.getD e.2.t) == t
      | .s _ => e.2.t.group == t.group)))

/-- An access that is the thread's. -/
def Acc.isOf (a : Acc) (t : ThreadId) : Bool := a.owners.contains t || a.t == t

/-- An access that returns a value. -/
def accReads : AccOp → Bool
  | .load _ _ _ => true
  | .ldl _ _ => true
  | .atoms _ ret _ _ => ret
  | .ldp _ _ _ _ _ _ => true
  | .tex _ _ _ _ _ _ _ => true
  | .rayq _ _ _ _ => true
  | _ => false

def State.hasRead (s : State) (t : ThreadId) : Bool := s.accs.any (fun e => accReads e.2.op && e.2.isOf t)

/-- An access that is performed past the issuing core: a release at GRP or WG goes by it, since it is acknowledged at that level before it is
performed at its own (R85, R87; log 67). -/
def Acc.goesBy (a : Acc) : Bool :=
  a.space == .global && (match a.op with
    | .atoms _ ret _ _ => !ret && Scope.wide a.sc
    | .pladd _ _ => true
    | .store _ => a.ord != .plain && Scope.wide a.sc
    | .stp _ _ _ _ => a.ord != .plain && Scope.wide a.sc
    | .wbr _ => true
    | _ => false)

/-- A release of the thread waits for some access: one of its own that the release does not go by, or, at CL or wider, one that a release of its
workgroup has gone by before (R85). -/
def State.owes (s : State) (t : ThreadId) (wide : Bool) : Bool :=
  s.accs.any (fun e => if e.2.isOf t then wide || !e.2.goesBy else wide && e.2.passed && e.2.t.wg == t.wg)

/-- A release of threads at GRP or WG has gone by their accesses. -/
def State.goBy (s : State) (ts : List ThreadId) : State :=
  { s with accs := s.accs.map (fun e => (e.1, if ts.any e.2.isOf then { e.2 with passed := true } else e.2)) }

/-- An access that is an acquire point or a release point (R84, R110). -/
def Acc.acquires (a : Acc) : Bool :=
  a.ord == .sync && (match a.op with
    | .load _ _ _ => true
    | .ldp _ _ _ _ _ _ => true
    | .atoms _ ret _ _ => ret
    | _ => false)

def Acc.releases (a : Acc) : Bool :=
  a.ord == .sync && (match a.op with
    | .store _ => true
    | .stis _ => true
    | .stp _ _ _ _ => true
    | .atoms _ _ _ _ => true
    | .pladd _ _ => true
    | _ => false)

/-- The byte ranges of an access; none for one that follows records (R221, R226). -/
def Acc.ranges (a : Acc) : Option (List (ThreadId × DWord × Nat)) :=
  let blk := fun (hb : List Byte) (b n : Nat) => match handleOf hb with
    | some h => (blockAddrs h b n).map (fun p => (a.t, BitVec.ofNat 64 p.1, p.2))
    | none => []
  let planes := fun (hb : List Byte) => ((handleOf hb).map Handle.pcnt).getD 0
  match a.op with
  | .load _ _ _ => some [(a.t, a.va, a.size)]
  | .store _ => some [(a.t, a.va, a.size)]
  | .stis ls => some (ls.map (fun l => (l.1, l.2.1, l.2.2.1.length)))
  | .atoms _ _ _ ls => some (ls.map (fun l => (l.t, l.va, a.size)))
  | .ldl _ _ => some []
  | .ldp _ hb b k rnd _ => some (blk hb b (planesRead k (planes hb) rnd))
  | .stp hb b _ _ => some (blk hb b (planes hb))
  | .pladd hb ups => some (ups.flatMap (fun u => blk hb u.1 (planes hb)))
  | .wbr n => some [(a.t, a.va, n)]
  | .invr n => some [(a.t, BitVec.ofNat 64 (a.va.toNat / 32 * 32), (a.va.toNat % 32 + n + 31) / 32 * 32)]
  | .tex _ _ _ _ _ _ _ => none
  | .rayq _ _ _ _ => none

/-- Two ranges of one space that may name a common byte: global addresses by their place in a 4 KiB page, since two pages may map
one frame (R82); the others by the place R59 to R61 give. -/
def State.rangesMeet (s : State) (spA spB : Space) (a b : ThreadId × DWord × Nat) : Bool :=
  if spA = .global ∧ spB = .global then
    let x := a.2.1.toNat % 4096
    let y := b.2.1.toNat % 4096
    a.2.2 != 0 && b.2.2 != 0 && ((x < y + b.2.2 && y < x + a.2.2) || x + 4096 < y + b.2.2 || y + 4096 < x + a.2.2)
  else
    match s.place a.1.wg spA a.2.1 a.2.2, s.place b.1.wg spB b.2.1 b.2.2 with
    | some (.spad w x), some (.spad v y) => w == v && x < y + b.2.2 && y < x + a.2.2
    | some (.bk d x), some (.bk e y) => d == e && x < y + b.2.2 && y < x + a.2.2
    | _, _ => false

def State.accMeet (s : State) (a b : Acc) : Bool :=
  match a.ranges, b.ranges with
  | some xs, some ys => xs.any (fun x => ys.any (fun y => s.rangesMeet a.space b.space x y))
  | none, some ys => b.space == .global && !ys.isEmpty
  | some xs, none => a.space == .global && !xs.isEmpty
  | none, none => true

-- Words that reach memory when they issue

/-- The handle's address of a plane word. -/
def handleAt : Instr → Option Opnd
  | .ldp f => some f.a
  | .stp f => some f.a
  | .pladd f => some f.a
  | _ => none

/-- The spaces in which a word reads or updates records, blocks or descriptors when it issues, by addresses that it finds in them: TEX, TEXG,
RAYQ, BKGET, BKDONE and CHAPP in global memory (R217, R222, R233, R234, R167); CHAPP, CPY and the matrix words, whose command then reads
its operands, in the scratchpads (R156, R167, R170). -/
def issueSpaces : Instr → List Space
  | .tex _ _ => [.global]
  | .texg _ _ => [.global]
  | .rayq _ _ => [.global]
  | .bkget _ => [.global]
  | .bkdone _ => [.global]
  | .chapp _ => [.global, .scratch, .cluster]
  | .cpy _ => [.scratch, .cluster]
  | .mma _ => [.scratch, .cluster]
  | .accld _ _ => [.scratch, .cluster]
  | .accst _ _ => [.scratch, .cluster]
  | .accz _ _ => [.scratch, .cluster]
  | _ => []

/-- An access whose performing changes what a later read returns. -/
def Acc.alters (a : Acc) : Bool :=
  match a.op with
  | .store _ => true
  | .stis _ => true
  | .atoms _ _ _ _ => true
  | .stp _ _ _ _ => true
  | .pladd _ _ => true
  | .invr _ => true
  | _ => false

/-- The word's own reads at issue follow a pending access in program order: one that acquires (R86), or one that alters bytes they may read
(R82, R107). -/
def State.awaits (s : State) (t : ThreadId) (i : Instr) : Bool :=
  let sps := issueSpaces i
  let h := (handleAt i).map (fun o => (t, s.rd64 t o, 32))
  if sps.isEmpty && h.isNone then false
  else s.accs.any (fun e => (e.2.isOf t || (e.2.passed && e.2.t.wg == t.wg)) && (e.2.acquires || (e.2.alters && (sps.contains e.2.space
    || (match h with
      | some h => e.2.space == .global && ((e.2.ranges).getD []).any (fun r => s.rangesMeet .global .global r h)
      | none => false)))))

/-- Words that a group executes once for all its threads and that wait for their accesses: none of them issues before the others can (R19, R200,
R201). -/
def onceForAll : Instr → Bool
  | .gbin _ _ => true
  | .gsub _ => true
  | .publish _ => true
  | .chadv _ => true
  | .qsend _ => true
  | .chapp _ => true
  | .cpy _ => true
  | .mma _ => true
  | .accld _ _ => true
  | .accst _ _ => true
  | .accz _ _ => true
  | .bkget _ => true
  | .bkdone _ => true
  | _ => false


/-- A release or acquire point (R84). -/
def orderPoint : Instr → Bool
  | .barWg _ _ => true
  | .barCl _ _ => true
  | .exit _ => true
  | .yield _ => true
  | .fenceRel _ => true
  | .fenceAcq _ => true
  | .qsend _ => true
  | .qrecv _ => true
  | .chadv _ => true
  | .publish _ => true
  | .waita _ => true
  | .ld f => f.ord == .sync
  | .ldp f => f.ord == .sync
  | .st f => f.ord == .sync
  | .stp f => f.ord == .sync
  | .sti f => f.ord == .sync
  | .atom f => f.ord == .sync
  | .acas f => f.ord == .sync
  | .red f => f.ord == .sync
  | .pladd f => f.ord == .sync
  | _ => false

/-- Release points other than memory accesses, and words that wait for the thread's earlier accesses: the thread is held until
those accesses are performed (R85, R94, R200, R201; log 9). -/
def waitsAccesses : Instr → Bool
  | .barWg _ _ => true
  | .barCl _ _ => true
  | .exit _ => true
  | .yield _ => true
  | .fenceRel _ => true
  | .qsend _ => true
  | .chadv _ => true
  | .publish _ => true
  | .gbin _ _ => true
  | .gsub _ => true
  | .tfence _ => true
  | _ => false

/-- Releases at GRP or WG of words that leave their threads in the workgroup (R85; log 67). -/
def narrowRelease : Instr → Bool
  | .barWg _ _ => true
  | .fenceRel f => !Scope.wide f.sc
  | _ => false

/-- Words that wait for the thread's earlier loads: FENCE.ACQ, so that a read before it can synchronise (R89), and STAGE.REL (R181). -/
def waitsReads : Instr → Bool
  | .fenceAcq _ => true
  | .stageRel _ _ => true
  | _ => false

/-- Address of R287 for a memory word. -/
def State.effAddr (s : State) (t : ThreadId) (sp : Space) (a b : Opnd) (idx : Nat) (off : Int) : DWord :=
  let base := match sp with | .global => s.rd64 t a | _ => (s.rd t a).setWidth 64
  base + ((s.rd t b).setWidth 64 <<< idx) + BitVec.ofInt 64 off

/-- Bytes of an access size (R286). -/
def szBytes : Sz → Nat
  | .b8 => 1
  | .b16 => 2
  | .b32 => 4
  | .b64 => 8
  | .b128 => 16

/-- What the accesses of a word read, tried out: a reader `r` is given every global range in turn. Addresses that records hold are found by
reading them as the word itself would (R256). -/
def texTouch (r : Rd) (a : DWord) (grad : Bool) (args : List Word) : Ev Unit :=
  (rdBytes r a.toNat 64).and (fun d =>
    if !descOk d then Ev.ret ()
    else (if fld d 8 1 = 10 then rdBytes r (fld d 32 8) 32 else Ev.ret []).and (fun hb =>
      (rdBytes r (fld d 24 8) 64).and (fun hd =>
        (rdBytes r (fld d 24 8 + 64) (8 * min 64 (fld hd 0 1))).and (fun taps =>
          if !(descPlanesOk d hb && progOk hd taps) then Ev.ret ()
          else (filterRun r (d ++ hb) (hd ++ taps) grad false args).and (fun _ => Ev.ret ())))))

def blockTouch (r : Rd) (h : DWord) (b : Nat) (n : Handle → Nat) : Ev Unit :=
  (rdBytes r h.toNat 32).and (fun hb => match handleOf hb with
    | some hd => (Ev.list (fun p => r p.1 p.2) (blockAddrs hd b (n hd))).and (fun _ => Ev.ret ())
    | none => Ev.ret ())

def State.touch (s : State) (t : ThreadId) (r : Rd) (i : Instr) : Ev Unit :=
  let at' := fun (f : MemF) (n : Int) (sz : Nat) =>
    if f.sp = .global then (r (s.effAddr t f.sp f.a f.b f.idx.toNat n).toNat sz).and (fun _ => Ev.ret ()) else Ev.ret ()
  let off := fun (c : Byte) (sz : Sz) => sgn 8 c.toNat * szBytes sz
  let range := fun (a n : Nat) => (r a n).and (fun _ => Ev.ret ())
  match i with
  | .ld f => at' f (off f.c f.sz) (szBytes f.sz)
  | .st f => at' f (off f.c f.sz) (szBytes f.sz)
  | .sti f => range (s.effAddr t .global f.a f.b f.idx.toNat (off f.c f.sz)).toNat (szBytes f.sz)
  | .atom f => at' f 0 (szBytes f.sz)
  | .acas f => at' f 0 (szBytes f.sz)
  | .red f => at' f 0 (szBytes f.sz)
  | .ldl _ _ w imm => range (((s.thr t).map Thread.pc).getD 0 + imm.signExtend 64).toNat (if w then 8 else 4)
  | .wbr f => range (s.rd64 t f.a).toNat (s.rd t f.b).toNat
  | .invr f => range (s.rd64 t f.a).toNat (s.rd t f.b).toNat
  | .ldp f => blockTouch r (s.rd64 t f.a) (s.rd t f.b).toNat (fun h => planesRead (f.c.toNat % 32) h.pcnt (f.c.getLsbD 7))
  | .stp f => blockTouch r (s.rd64 t f.a) (s.rd t f.b).toNat Handle.pcnt
  | .pladd f => blockTouch r (s.rd64 t f.a) (s.rd t f.b).toNat Handle.pcnt
  | .tex f _ => texTouch r (s.rd64 t f.c + ((s.rd t f.b).setWidth 64 <<< 6)) false ((List.range 8).map (fun k => s.rdK t f.a k))
  | .texg f _ => texTouch r (s.rd64 t f.c + ((s.rd t f.b).setWidth 64 <<< 6)) true ((List.range 8).map (fun k => s.rdK t f.a k))
  | .rayq f any => (rdBytes r (s.rd64 t f.c).toNat 32).and (fun sc =>
      if sceneOk sc then (rayRun r sc any ((List.range 9).map (fun k => s.rdK t f.a k))).and (fun _ => Ev.ret ()) else Ev.ret ())
  | .chapp f => range (s.rd64 t f.a).toNat 64
  | .bkget f => range (s.rd64 t f.a).toNat 64
  | .bkdone f => range (s.rd64 t f.a).toNat 64
  | _ => Ev.ret ()

/-- A reader that fails on the named pages, with an address that no memory has. -/
def offPages (ps : List (Nat × Nat)) (r : Rd) : Rd := fun va n =>
  if ps.any (fun p => va < p.1 + p.2 && p.1 < va + n) then Ev.fail (.fate (2 ^ 64)) else r va n

/-- A thread's word accesses one of the named pages. -/
def State.touches (s : State) (t : ThreadId) (ps : List (Nat × Nat)) (i : Instr) : Bool :=
  let rdr : Rd := offPages ps (fun va n u => if n ≤ 16 then coreRead (s.coreOf t) (s.ctxOf t.wg) .normal va n u else (u, .ok []))
  match (s.touch t rdr i s).2 with
  | .error (.fate a) => a == 2 ^ 64
  | _ => false

/-- Faults that hold accesses of a group. -/
def State.groupFaults (s : State) (g : GroupId) : List PFault :=
  (s.accs.filter (fun e => e.2.t.group == g)).filterMap (fun e => e.2.fault.bind (fun f => mget s.faults f))

/-- Some fault on an access of the group has no answer yet. -/
def State.unanswered (s : State) (g : GroupId) : Bool := (s.groupFaults g).any (fun p => !p.cancelled)

/-- The replayable group is not ready: a thread of it has stopped, and a fault has no answer (R256, R257). -/
def State.groupHeld (s : State) (g : GroupId) : Bool := ((s.grp g).map Group.held).getD false && s.unanswered g

/-- What an access needs of the pages of its addresses; none for accesses of ranges and of records. -/
def accNeeds (a : Acc) : Need × List DWord :=
  match a.op with
  | .load _ _ _ => ({ r := true }, [a.va])
  | .store _ => ({ w := true }, [a.va])
  | .stis ls => ({ w := true }, ls.map (fun l => l.2.1))
  | .ldl _ _ => ({ x := true }, [a.va])
  | .atoms _ _ _ ls => ({ r := true, w := true }, ls.map AtLane.va)
  | _ => ({}, [])

/-- The fault that a pending access meets when it is translated now. -/
def State.meetsFault (s : State) (a : Acc) : Option XFault :=
  if a.space != .global then none
  else (accNeeds a).2.findSome? (fun va =>
    match (s.xlate (s.coreOf a.t / 32) (s.ctxOf a.t.wg) va.toNat (accNeeds a).1).2 with
    | .error f => some f
    | .ok _ => none)

/-- The pages with a pending faulting access of a group: base and size (R256). -/
def State.faultPages (s : State) (g : GroupId) : List (Nat × Nat) :=
  (s.accs.filter (fun e => e.2.t.group == g)).filterMap (fun e => match e.2.fault with
    | some f => (mget s.faults f).map (fun p => (p.page, p.size))
    | none => (s.meetsFault e.2).map (fun f => (f.page, f.size)))

/-- R256: the thread runs on past a faulting access of its group, but not past these words. -/
def State.stopsAtFault (s : State) (t : ThreadId) (i : Instr) : Bool :=
  let fs := s.faultPages t.group
  !fs.isEmpty && (orderPoint i || s.touches t fs i)

/-- Lane of the scale register of a narrow word: the start of its run of n lanes (R132, R337). -/
def State.scaleThread (s : State) (t : ThreadId) (n : Nat) : ThreadId :=
  let off := ((s.grp t.group).map Group.off).getD 0
  { t with ix := (off + t.ix) / n * n - off }

/-- Registers read in another lane, which must not be pending there (R337, R385, R391, R148). -/
def State.otherLane (s : State) (t : ThreadId) : Instr → List (ThreadId × Reg)
  | .dqe4 f => (run f.b 1).map (fun r => (s.scaleThread t 8, r))
  | .dqe5 f => (run f.b 1).map (fun r => (s.scaleThread t 8, r))
  | .dqb f => (run f.b 1).map (fun r => (s.scaleThread t 4, r))
  | .dqt f => (run f.b 1).map (fun r => (s.scaleThread t 4, r))
  | .qce4 f => (run f.b 1).map (fun r => (s.scaleThread t 8, r))
  | .qce5 f => (run f.b 1).map (fun r => (s.scaleThread t 8, r))
  | .qcb f => (run f.b 1).map (fun r => (s.scaleThread t 4, r))
  | .qde4 f => (CField.run f.c 2).map (fun r => (s.scaleThread t 8, r))
  | .qde5 f => (CField.run f.c 2).map (fun r => (s.scaleThread t 8, r))
  | .qdb f => (CField.run f.c 2).map (fun r => (s.scaleThread t 4, r))
  | .qdt f => (CField.run f.c 2).map (fun r => (s.scaleThread t 4, r))
  | .rdlane f => (run f.a (wd f.t.wide)).map (fun r => ({ t with ix := (CField.val f.c s t ||| s.rd t f.b).toNat }, r))
  | .tex f _ => (run f.a 3).map (fun r => (t, r))
  | .texg f _ => (run f.a 7).map (fun r => (t, r))
  | .stp f => (run f.d 9).map (fun r => (t, r))
  | .mma f => (s.groupThreads t.group).flatMap (fun u => (run f.d 9).map (fun r => (u, r)))
  | _ => []

/-- Phased mode (R39). -/
def State.phased (s : State) (w : Nat) : Bool := ((s.dispOf w).map (fun d => d.lr.mode == 1)).getD false

/-- %preq of a thread's group. -/
def State.preqOf (s : State) (t : ThreadId) : Bool := ((s.grp t.group).map Group.preq).getD false

/-- BKDONE of a group asked to yield performs a YIELD, a release point (R234; log 9). -/
def State.givesWay (s : State) (t : ThreadId) : Instr → Bool
  | .bkdone _ => s.preqOf t
  | _ => false

/-- The thread's flags must be zero before it counts as arrived (R41 step 1, R414). -/
def State.waitsFlags (s : State) (t : ThreadId) : Instr → Bool
  | .barWg _ _ => s.phased t.wg
  | .barCl _ _ => s.phased t.wg
  | .yield _ => true
  | .bkdone _ => s.preqOf t
  | _ => false

/-- Flags f0-f11 all zero. -/
def Thread.flagsZero (x : Thread) : Bool := x.flags == 0

/-- The thread's registers and flags let it issue the word (R16, R270, R272). -/
def State.ready (s : State) (i : Instr) (t : ThreadId) : Bool :=
  match s.thr t with
  | none => false
  | some x => predGet x.preds (wordGuard i).p.val != (wordGuard i).neg && (wordRegs i).all (fun r => !s.isPending t r)
      && (match x.flagOf i with | some k => flagGet x.flags k != 63 | none => true)

/-- Nothing holds the thread at the word but its group (R16, R256, R270, R272). A thread whose predicate is false reads and writes nothing
and is never held (log 7). -/
def State.unheld (s : State) (i : Instr) (t : ThreadId) : Bool :=
  match s.thr t with
  | none => false
  | some x =>
    !(predGet x.preds (wordGuard i).p.val != (wordGuard i).neg) ||
    ((wordRegs i).all (fun r => !s.isPending t r)
      && (s.otherLane t i).all (fun p => !s.isPending p.1 p.2)
      && (match x.flagOf i with | some k => flagGet x.flags k != 63 | none => true)
      && !((waitsAccesses i || s.givesWay t i) && s.owes t (!narrowRelease i))
      && !s.awaits t i
      && !(waitsReads i && s.hasRead t)
      && !(s.waitsFlags t i && !x.flagsZero)
      && !s.stopsAtFault t i)

/-- The word may issue for the thread. -/
def State.issuable (s : State) (i : Instr) (t : ThreadId) : Bool := !s.groupHeld t.group && s.unheld i t

/-- A word that a group executes once waits until none of the group's threads that are ready for it is held by accesses. -/
def State.together (s : State) (i : Instr) (ts : List ThreadId) (t : ThreadId) : Bool :=
  !onceForAll i || ts.all (fun u => u.group != t.group || !s.ready i u || s.unheld i u)

/-- The threads of the issue group for which the word issues. -/
def State.issuing (s : State) (i : Instr) : List ThreadId := s.issue.threads.filter (fun t => s.issuable i t)

/-- The threads that execute it (R282). -/
def State.executing (s : State) (i : Instr) : List ThreadId := (s.issuing i).filter (fun t => s.holds (wordGuard i) t)

/-- Every v-register the word names lies below N (R13). -/
def State.regsBelow (s : State) (t : ThreadId) (i : Instr) : Bool :=
  (wordRegs i).all (fun r => match r with | .v n => decide (n < s.nregOf t.wg) | .s _ => true)

/-- The word that never traps (R382). -/
def trapless : Instr → Bool
  | .pref _ => true
  | _ => false

/-- No trap of R13. -/
def State.regsOk (s : State) (t : ThreadId) (i : Instr) : Bool := trapless i || s.regsBelow t i

/-- A clause-ending word that is not last in its clause is illegal at decode (R267). -/
def State.misplaced (s : State) (i : Instr) : Bool :=
  clauseEnding i && (s.issuing i).any (fun t => ((s.thr t).map (fun x => !x.atClauseEnd)).getD false)

/-- Threads of the issue group whose predicate is false go on to the next word. -/
def State.skipFalse (s : State) (g ex : List ThreadId) : State :=
  (g.filter (fun t => !ex.contains t)).foldl (fun s t => s.updThr t Thread.advance) s

/-- Applies one lane's result. -/
def State.applyRes (s : State) (r : ThreadId × LaneRes) : State := match r.2 with | .fx e => s.applyFx r.1 e | .trap _ => s

/-- A word executed once per thread: every lane's result is computed from the state before, and either every lane's effect
is applied in ascending lane order, or the failing lanes trap and nothing else happens (R258, R313). `post` is what the
execution does beside, to the executing threads together. -/
def State.lanesThen (s : State) (i : Instr) (lane : State → List ThreadId → ThreadId → LaneRes)
    (post : State → List ThreadId → State) : State :=
  let g := s.issuing i
  if s.misplaced i then s.takeTraps g (g.map (fun t => (t, illegalInstr))) Thread.pc
  else
    let ex := s.executing i
    let res := ex.map (fun t => (t, if s.regsOk t i then lane s ex t else .trap illegalInstr))
    match trapsOf res with
    | [] => post ((res.foldl State.applyRes s).skipFalse g ex) ex
    | fails => s.takeTraps g fails Thread.pc

def State.lanes (s : State) (i : Instr) (lane : State → List ThreadId → ThreadId → LaneRes) : State :=
  s.lanesThen i lane (fun s _ => s)

/-- As an outcome of `exec`. -/
def runLanes (i : Instr) (lane : State → List ThreadId → ThreadId → LaneRes) (s : State) : Host.Outcome State Fault Refusal :=
  .next (s.lanes i lane)

/-- What a per-group execution does: it is done (`none`), or its threads wait. -/
abbrev GroupFx := State × Option Wait

/-- A word executed once per group (R19): the checks of every group come first, then the groups act in ascending lane order. -/
def State.perGroup (s : State) (i : Instr) (chk : State → GroupId → List ThreadId → Option TrapInfo)
    (eff : State → GroupId → List ThreadId → GroupFx) : State :=
  let g := s.issuing i
  if s.misplaced i then s.takeTraps g (g.map (fun t => (t, illegalInstr))) Thread.pc
  else
    let ex := s.executing i
    let of := fun (k : GroupId) => ex.filter (fun t => t.group == k)
    let fails := (groupsOf ex).flatMap (fun k =>
      if (of k).all (fun t => s.regsOk t i) then
        match chk s k (of k) with
        | some tr => (of k).map (fun t => (t, tr))
        | none => []
      else (of k).map (fun t => (t, illegalInstr)))
    match fails with
    | [] =>
      let s := (groupsOf ex).foldl (fun s k =>
        let r := eff s k (of k)
        match r.2 with
        | none => (of k).foldl (fun s t => s.updThr t Thread.advance) r.1
        | some w => (of k).foldl (fun s t => s.updThr t (fun x => { x with wait := w })) r.1) s
      s.skipFalse g ex
    | _ => s.takeTraps g fails Thread.pc

def runGroups (i : Instr) (chk : State → GroupId → List ThreadId → Option TrapInfo)
    (eff : State → GroupId → List ThreadId → GroupFx) (s : State) : Host.Outcome State Fault Refusal :=
  .next (s.perGroup i chk eff)

/-- Counts one more on each executing thread's flag (R270). -/
def State.countAll (s : State) (ts : List ThreadId) (i : Instr) : State :=
  ts.foldl (fun s t => s.updThr t (fun x => x.count (x.flagOf i))) s

end Sys2Proof.Machine
end

