-- ==== Sys2Proof/Machine/Integer.lean ====
section
/-! DEFINITION. Integer arithmetic (R358-R362), bitwise words and shifts (R320, R376, R397), bit fields and counts (R327, R328,
R332, R381), address arithmetic (R370), selection and comparison (R353, R398), moves (R373) and predicates (R379, R380). -/
namespace Sys2Proof.Machine

/-- One lane's function of the state. -/
abbrev LaneFn := State → List ThreadId → ThreadId → LaneRes

/-- Two typed sources, the exact result per element, wrapped or clamped (R359). -/
def intBin (f : ArithF) (op : Int → Int → Int) : LaneFn := fun s _ t =>
  let a := negElems f.t f.na (s.rdT t f.t f.a)
  let b := negElems f.t f.nb (s.rdLast t f.t f.b f.c)
  .fx (wrT f.t f.d (List.zipWith (fun x y => resElem f.t f.sat (op (elemVal f.t x) (elemVal f.t y))) a b))

/-- High half of the exact product (R358). -/
def mulHi (ty : Ty) (x y : Int) : Int := (x * y) / (2 ^ tyBits ty : Nat)

def intMad (f : ArithF) : LaneFn := fun s _ t =>
  let a := negElems f.t f.na (s.rdT t f.t f.a)
  let b := negElems f.t f.nb (s.rdT t f.t f.b)
  let c := s.rdLast t f.t f.c.opnd f.c
  let p := List.zipWith (fun x y => elemVal f.t x * elemVal f.t y) a b
  .fx (wrT f.t f.d (List.zipWith (fun m z => resElem f.t f.sat (m + elemVal f.t z)) p c))

def wideTy : Ty → Ty | .i32 => .i64 | _ => .u64

def intMadW (f : ArithF) : LaneFn := fun s _ t =>
  let a := (negElems f.t f.na (s.rdT t f.t f.a)).headD 0
  let b := (negElems f.t f.nb (s.rdT t f.t f.b)).headD 0
  let c := (CField.val64 f.c s t).toNat
  let w := wideTy f.t
  .fx (wrT w f.d [resElem w f.sat (elemVal f.t a * elemVal f.t b + elemVal w c)])

def intAbs (f : ArithF) : LaneFn := fun s _ t =>
  let a := negElems f.t f.na (s.rdT t f.t f.a)
  .fx (wrT f.t f.d (a.map (fun x => resElem f.t f.sat (elemVal f.t x).natAbs)))

/-- IDOT4 (R361). c is a 32-bit value of I32 or U32, not packed bytes: an immediate is the 32-bit pattern of IMM8 sign-extended (log 71). -/
def dot4 (f : ArithF) : LaneFn := fun s _ t =>
  let mix := f.sub == 1
  let a := elems f.t ((s.rd t f.a).setWidth 64)
  let b := elems f.t ((s.rd t f.b).setWidth 64)
  let bt : Ty := if mix then .u8x4 else f.t
  let rt : Ty := if f.t = .i8x4 then .i32 else .u32
  let c := match f.c with
    | .imm i => elemVal rt (i.signExtend 32 : Word).toNat
    | .op o => elemVal rt (s.rd t o).toNat
  let p := List.zipWith (fun x y => elemVal f.t x * elemVal bt y) a b
  .fx (wrT rt f.d [resElem rt f.sat (p.foldl (· + ·) c)])

/-- Carry chain of R360; a CI immediate is the 32-bit pattern of the sign-extended value. -/
def addx (f : ArithF) (sub : Bool) : LaneFn := fun s _ t =>
  let cin : Int := if f.hi3 = 7 then 0 else if s.pred t f.hi3.val then 1 else 0
  let a : Int := (s.rd t f.a).toNat
  let b : Int := (match f.c with | .imm i => i.signExtend 32 | .op _ => s.rd t f.b).toNat
  let x := if sub then a - b - cin else a + b + cin
  let e := wr32 f.d (BitVec.ofInt 32 x)
  .fx (if f.lo3 = 7 then e else { e with ps := [(f.lo3.val, decide (2 ^ 32 ≤ x ∨ x < 0))] })

def bitBin (f : ArithF) (op : Nat → Nat → Nat) : LaneFn := fun s _ t =>
  .fx (wrT f.t f.d (List.zipWith op (s.rdT t f.t f.a) (s.rdLast t f.t f.b f.c)))

/-- A 32-bit last source: IMM8 sign-extended, or B. -/
def State.rdB (s : State) (t : ThreadId) (f : ArithF) : Word :=
  match f.c with | .imm i => i.signExtend 32 | .op _ => s.rd t f.b

def shiftLane (f : ArithF) (op : Nat → Nat → Nat → Nat) : LaneFn := fun s _ t =>
  let w := tyBits f.t
  .fx (wrT f.t f.d ((s.rdT t f.t f.a).map (fun x => op w x (s.rdB t f).toNat % 2 ^ w)))

def shlN (w x s : Nat) : Nat := if w ≤ s then 0 else x * 2 ^ s
def shrN (w x s : Nat) : Nat := if w ≤ s then 0 else x / 2 ^ s
def sarN (w x s : Nat) : Nat := wrap w (sgn w x / (2 ^ min s w : Nat))
def rotlN (w x s : Nat) : Nat := let k := s % w; (x * 2 ^ k + x / 2 ^ (w - k)) % 2 ^ w

def bfeLane (f : ArithF) : LaneFn := fun s _ t =>
  let w := tyBits f.t
  let a := (s.rdT t f.t f.a).headD 0
  let p := min ((s.rd t f.b).toNat % 256) w
  let l := min ((CField.val f.c s t).toNat % 256) (w - p)
  let x := a / 2 ^ p % 2 ^ l
  .fx (wrT f.t f.d [if tySigned f.t && 0 < l then wrap w (sgn l x) else x])

def bfiLane (f : ArithF) : LaneFn := fun s _ t =>
  let w := tyBits f.t
  let a := (s.rdT t f.t f.a).headD 0
  let b := (s.rdT t f.t f.b).headD 0
  let c := (CField.val f.c s t).toNat
  let p := min (c % 256) w
  let l := min (c / 256 % 256) (w - p)
  .fx (wrT f.t f.d [a % 2 ^ p + b % 2 ^ l * 2 ^ p + a / 2 ^ (p + l) * 2 ^ (p + l)])

def popcN (w x : Nat) : Nat := (List.range w).countP (fun i => x.testBit i)
def clzN : Nat → Nat → Nat
  | 0, _ => 0
  | w + 1, x => if x.testBit w then 0 else clzN w x + 1
def brevN (w x : Nat) : Nat := (List.range w).foldl (fun acc i => 2 * acc + if x.testBit i then 1 else 0) 0

/-- A count of a typed source, written as one 32-bit register. -/
def countLane (f : ArithF) (op : Nat → Nat → Nat) : LaneFn := fun s _ t =>
  .fx (wr32 f.d (BitVec.ofNat 32 (op (tyBits f.t) ((s.rdT t f.t f.a).headD 0))))

def leaLane (f : ArithF) : LaneFn := fun s _ t =>
  .fx (wr32 f.d (s.rd t f.a + (s.rd t f.b <<< f.lo3.val) + CField.val f.c s t))

def lea64Lane (f : ArithF) : LaneFn := fun s _ t =>
  let b := s.rd t f.b
  let x : DWord := if f.sub.getLsbD 3 then b.signExtend 64 else b.setWidth 64
  .fx (wr64 f.d (s.rd64 t f.a + (x <<< f.lo3.val) + (CField.val f.c s t).signExtend 64))

def selLane (f : ArithF) : LaneFn := fun s _ t =>
  let a := s.rdT t f.t f.a
  let b := s.rdLast t f.t f.b f.c
  .fx (wrT f.t f.d (if s.pred t f.lo3.val != f.sub.getLsbD 3 then a else b))

/-- ISET's comparisons, codes 0-5 (R353). -/
def icmp (k : Nat) (x y : Int) : Bool :=
  match k with
  | 0 => x == y
  | 1 => x != y
  | 2 => x < y
  | 3 => x ≤ y
  | 4 => y < x
  | _ => y ≤ x

/-- The mask and the predicate of a comparison (R353). -/
def setFx (d : Opnd) (p : Fin 8) (c : Bool) : LaneFx :=
  let e := wr32 d (if c then 0xFFFFFFFF else 0)
  if p = 7 then e else { e with ps := [(p.val, c)] }

def isetLane (f : ArithF) : LaneFn := fun s _ t =>
  let a := (negElems f.t f.na (s.rdT t f.t f.a)).headD 0
  let b := (negElems f.t f.nb (s.rdLast t f.t f.b f.c)).headD 0
  .fx (setFx f.d f.lo3 (icmp f.hi3.val (elemVal f.t a) (elemVal f.t b)))

def movLane (f : ArithF) : LaneFn := fun s _ t => .fx (wrT f.t f.d (s.rdT t f.t f.a))

def plopLane (lut : Byte) (pd pa pb pc : Fin 8) : LaneFn := fun s _ t =>
  let b := fun (p : Fin 8) => if s.pred t p.val then 1 else 0
  let v := lut.getLsbD (4 * b pa + 2 * b pb + b pc)
  .fx (if pd = 7 then {} else { ps := [(pd.val, v)] })

def pmovLane (f : OwnF) : LaneFn := fun s _ t =>
  .fx (wr32 f.d (0x80 ||| (((s.thr t).map Thread.preds).getD 0).setWidth 32))

def pmovSetLane (f : OwnF) (mask : BitVec 7) : LaneFn := fun s _ t =>
  let a := s.rd t f.a
  .fx { ps := ((List.range 7).filter (fun k => mask.getLsbD k)).map (fun k => (k, a.getLsbD k)) }

-- Meanings

def execIadd (f : ArithF) (s : State) := runLanes (.iadd f) (intBin f (· + ·)) s
def execIaddx (f : ArithF) (s : State) := runLanes (.iaddx f) (addx f false) s
def execIsub (f : ArithF) (s : State) := runLanes (.isub f) (intBin f (· - ·)) s
def execIsubx (f : ArithF) (s : State) := runLanes (.isubx f) (addx f true) s
def execImul (f : ArithF) (s : State) := runLanes (.imul f) (intBin f (· * ·)) s
def execImulhi (f : ArithF) (s : State) := runLanes (.imulhi f) (intBin f (mulHi f.t)) s
def execImad (f : ArithF) (s : State) := runLanes (.imad f) (intMad f) s
def execImadw (f : ArithF) (s : State) := runLanes (.imadw f) (intMadW f) s
def execImin (f : ArithF) (s : State) := runLanes (.imin f) (intBin f min) s
def execImax (f : ArithF) (s : State) := runLanes (.imax f) (intBin f max) s
def execIabs (f : ArithF) (s : State) := runLanes (.iabs f) (intAbs f) s
def execIdot4 (f : ArithF) (s : State) := runLanes (.idot4 f) (dot4 f) s
def execAnd (f : ArithF) (s : State) := runLanes (.and f) (bitBin f (· &&& ·)) s
def execOr (f : ArithF) (s : State) := runLanes (.or f) (bitBin f (· ||| ·)) s
def execXor (f : ArithF) (s : State) := runLanes (.xor f) (bitBin f (· ^^^ ·)) s
def execShl (f : ArithF) (s : State) := runLanes (.shl f) (shiftLane f shlN) s
def execShr (f : ArithF) (s : State) := runLanes (.shr f) (shiftLane f shrN) s
def execSar (f : ArithF) (s : State) := runLanes (.sar f) (shiftLane f sarN) s
def execRotl (f : ArithF) (s : State) := runLanes (.rotl f) (shiftLane f rotlN) s
def execBfe (f : ArithF) (s : State) := runLanes (.bfe f) (bfeLane f) s
def execBfi (f : ArithF) (s : State) := runLanes (.bfi f) (bfiLane f) s
def execPopc (f : ArithF) (s : State) := runLanes (.popc f) (countLane f popcN) s
def execClz (f : ArithF) (s : State) := runLanes (.clz f) (countLane f clzN) s
def execBrev (f : ArithF) (s : State) :=
  runLanes (.brev f) (fun s _ t => .fx (wrT f.t f.d ((s.rdT t f.t f.a).map (brevN (tyBits f.t))))) s
def execLea (f : ArithF) (s : State) := runLanes (.lea f) (leaLane f) s
def execLea64 (f : ArithF) (s : State) := runLanes (.lea64 f) (lea64Lane f) s
def execSel (f : ArithF) (s : State) := runLanes (.sel f) (selLane f) s
def execIset (f : ArithF) (s : State) := runLanes (.iset f) (isetLane f) s
def execMov (f : ArithF) (s : State) := runLanes (.mov f) (movLane f) s
def execMovi (g : Guard) (d : Opnd) (imm : Word) (s : State) := runLanes (.movi g d imm) (fun _ _ _ => .fx (wr32 d imm)) s
def execPlop (f : OwnF) (lut : Byte) (pd pa pb pc : Fin 8) (s : State) :=
  runLanes (.plop f lut pd pa pb pc) (plopLane lut pd pa pb pc) s
def execPmov (f : OwnF) (s : State) := runLanes (.pmov f) (pmovLane f) s
def execPmovSet (f : OwnF) (mask : BitVec 7) (s : State) := runLanes (.pmovSet f mask) (pmovSetLane f mask) s
/-- NOP has no effect; its threads go on to the next word (R375). -/
def execNop (s : State) := runLanes .nop (fun _ _ _ => .fx {}) s

end Sys2Proof.Machine
end

