-- ==== Sys2Proof/Machine/FpWords.lean ====
section
/-! DEFINITION. Floating-point and packed-half words (R344-R353, opcodes 0x060-0x076), and Format D words (R276-R278). -/
namespace Sys2Proof.Machine

/-- %fcr.FTZ of a thread (R122). -/
def State.ftz (s : State) (t : ThreadId) : Bool := ((s.thr t).map (fun x => x.fcr.getLsbD 2)).getD false

def rmOf (n : Nat) : Rm := match n % 4 with | 0 => .rne | 1 => .rtz | 2 => .rdn | _ => .rup

/-- %fcr.RM of a thread. -/
def State.fcrRm (s : State) (t : ThreadId) : Rm := rmOf (((s.thr t).map (fun x => x.fcr.toNat)).getD 0)

/-- Under FTZ a subnormal code becomes a zero of its sign (R122). -/
def flush (f : Fmt) (ftz : Bool) (c : Nat) : Nat := if ftz && isSubnormal f c then signBit f (c / 2 ^ (f.mbits + f.ebits) % 2 == 1) else c

/-- The source code after FTZ and sign inversion (R344). -/
def srcCode (f : Fmt) (ftz neg : Bool) (c : Nat) : Nat :=
  let x := flush f ftz c
  if neg then x ^^^ 2 ^ (f.mbits + f.ebits) else x

/-- A rounded result, flushed under FTZ with UF and NX (R122). -/
def dstCode (f : Fmt) (ftz : Bool) (r : Nat × Fl) : Nat × Fl :=
  if ftz && isSubnormal f r.1 then (flush f true r.1, r.2 ||| flUF ||| flNX) else r

/-- Rounds an exact result (R344). -/
def roundRes (f : Fmt) (ftz : Bool) (rm : Rm) (sat : Bool) (x : Val × Fl) : Nat × Fl :=
  let r := encode f x.1 rm sat
  dstCode f ftz (r.1, r.2 ||| x.2)

def fmtOf : Ty → Fmt | .f16x2 => fp16 | .bf16x2 => bf16 | _ => fp32

/-- Source elements of a floating-point type. -/
def State.rdF (s : State) (t : ThreadId) (ty : Ty) (neg : Bool) (o : Opnd) : List Nat :=
  (elems ty ((s.rd t o).setWidth 64)).map (srcCode (fmtOf ty) (s.ftz t) neg)

/-- Writes elements and raises the union of their flags. -/
def wrF (ty : Ty) (d : Opnd) (rs : List (Nat × Fl)) : LaneFx :=
  { wrT ty d (rs.map Prod.fst) with fsr := rs.foldl (fun a r => a ||| r.2) 0 }

/-- The thread whose %fcr an execution uses: with an s-register destination a word executes once for the group, and the highest executing lane of the
group speaks for it (R19, R343; log 59); otherwise each thread for itself. -/
def speaks (d : Opnd) (ex : List ThreadId) (t : ThreadId) : ThreadId := if d.isS then (ex.filter (fun u => u.group == t.group)).getLastD t else t

/-- One execution for the group when the destination is an s-register: its value, flags and predicate are the same in every executing thread. -/
def once (d : Opnd) (lane : LaneFn) : LaneFn := fun s ex t => lane s ex (speaks d ex t)

def fpBin (f : ArithF) (op : Val → Val → Val × Fl) : LaneFn := fun s _ t =>
  let g := fmtOf f.t
  .fx (wrF f.t f.d (List.zipWith (fun a b => roundRes g (s.ftz t) f.rm f.sat (op (decodeF g a) (decodeF g b)))
    (s.rdF t f.t f.na f.a) (s.rdF t f.t f.nb f.b)))

def fpFma (f : ArithF) : LaneFn := fun s _ t =>
  let g := fmtOf f.t
  let c := s.rdF t f.t (f.sub.getLsbD 5) f.c.opnd
  let ab := List.zip (s.rdF t f.t f.na f.a) (s.rdF t f.t f.nb f.b)
  .fx (wrF f.t f.d (List.zipWith (fun ab c =>
    roundRes g (s.ftz t) f.rm f.sat (fmaV f.rm (decodeF g ab.1) (decodeF g ab.2) (decodeF g c))) ab c))

def fpMinMax (f : ArithF) (mx : Bool) : LaneFn := fun s _ t =>
  .fx (wrF f.t f.d (List.zipWith (minMaxF (fmtOf f.t) mx) (s.rdF t f.t f.na f.a) (s.rdF t f.t f.nb f.b)))

/-- One-source functions of FP32. -/
def fpFun (f : ArithF) (op : Val → Val × Fl) : LaneFn := fun s _ t =>
  .fx (wrF .f32 f.d ((s.rdF t .f32 f.na f.a).map (fun a => roundRes fp32 (s.ftz t) f.rm f.sat (op (decodeF fp32 a)))))

/-- FSET's comparisons (R353). -/
def fcmp (k : Nat) (x y : Val) : Bool :=
  match k with
  | 0 => eqV x y
  | 1 => !eqV x y
  | 2 => ltV x y
  | 3 => leV x y
  | 4 => ltV y x
  | 5 => leV y x
  | 6 => !(x.isNan || y.isNan)
  | _ => x.isNan || y.isNan

def fsetLane (f : ArithF) : LaneFn := fun s _ t =>
  let x := decodeF fp32 ((s.rdF t .f32 f.na f.a).headD 0)
  let y := decodeF fp32 ((s.rdF t .f32 f.nb f.b).headD 0)
  let k := f.hi3.val
  let nv := x.isSig || y.isSig || (2 ≤ k && k ≤ 5 && (x.isNan || y.isNan))
  .fx { setFx f.d f.lo3 (fcmp k x y) with fsr := if nv then flNV else 0 }

/-- F2I of an exact value (R127): the pattern and the flags. -/
def f2iVal (ty : Ty) (rm : Rm) (x : Val) : Nat × Fl :=
  let n := tyBits ty
  let hi : Int := clampTy ty (2 ^ 80 : Nat)
  let lo : Int := clampTy ty (-(2 ^ 80 : Nat))
  match x with
  | .nan _ _ _ => (0, flNV)
  | .inf s => (wrap n (if s then lo else hi), flNV)
  | .fin _ _ _ =>
    let r := roundInt rm x
    if r.1 < lo then (wrap n lo, flNV) else if hi < r.1 then (wrap n hi, flNV)
    else (wrap n r.1, if r.2 then flNX else 0)

def f2iLane (f : ArithF) : LaneFn := fun s _ t =>
  let r := f2iVal f.t f.rm (decodeF fp32 ((s.rdF t .f32 f.na f.a).headD 0))
  .fx { wrT f.t f.d [r.1] with fsr := r.2 }

def i2fLane (f : ArithF) : LaneFn := fun s _ t =>
  let a := (negElems f.t f.na (s.rdT t f.t f.a)).headD 0
  .fx (wrF .f32 f.d [encode fp32 (Val.ofInt (elemVal f.t a)) f.rm false])

def frndVal (rm : Rm) (x : Val) : Nat × Fl :=
  match x with
  | .nan _ sig _ => (0x7FC00000, if sig then flNV else 0)
  | .inf s => (infCode fp32 s, 0)
  | .fin s _ _ =>
    let r := roundInt rm x
    ((encode fp32 (.fin s r.1.natAbs 0) rm false).1, if r.2 then flNX else 0)

def ffracVal (x : Val) : Val × Fl :=
  match x with
  | .nan _ sig _ => (.canon, if sig then flNV else 0)
  | .inf _ => (.canon, flNV)
  | .fin _ _ _ => let d := addV .rne x (Val.ofInt (-(floorV x))); (if d.1.isZero then .zero else d.1, 0)

def frndLane (f : ArithF) : LaneFn := fun s _ t =>
  .fx (wrF .f32 f.d ((s.rdF t .f32 f.na f.a).map (fun a => frndVal f.rm (decodeF fp32 a))))

/-- The class bit of an FP32 code (R347). -/
def fclassBit (c : Nat) : Nat :=
  match decodeF fp32 c with
  | .nan _ sig _ => if sig then 8 else 9
  | .inf s => if s then 0 else 7
  | .fin s m _ => if m = 0 then (if s then 3 else 4) else if isSubnormal fp32 c then (if s then 2 else 5) else (if s then 1 else 6)

def fclassLane (f : ArithF) : LaneFn := fun s _ t => .fx (wr32 f.d (BitVec.ofNat 32 (2 ^ fclassBit (s.rd t f.a).toNat)))

/-- The format of a FCVT code; none is E8M0 (R349). -/
def cvtFmt (k : Nat) : Option Fmt :=
  match k with
  | 0 => some fp32
  | 1 => some fp16
  | 2 => some bf16
  | 3 => some e4m3
  | 4 => some e5m2
  | _ => none

def fcvtLane (f : ArithF) : LaneFn := fun s _ t =>
  let src := cvtFmt f.lo3.val
  let dst := cvtFmt f.hi3.val
  let narrow := fun (o : Option Fmt) => match o with | some g => g.width == 8 | none => true
  let ftz := s.ftz t && !narrow src && !narrow dst
  let a := (s.rd t f.a).toNat
  let x := match src with
    | some g => decodeF g (flush g ftz (a % 2 ^ g.width))
    | none => ofE8M0 (a % 256)
  let r := match dst with
    | some g => dstCode g ftz (encode g x f.rm f.sat)
    | none => toE8M0 x f.rm
  .fx { wr32 f.d (BitVec.ofNat 32 r.1) with fsr := r.2 }

-- Format D (R276-R278)

/-- The result of one slot (R277). -/
def slotResult (s : State) (t : ThreadId) (x : DSlot) : Word × Fl :=
  let d := s.rd t x.d
  let v := CField.val x.s s t
  let fp := fun (op : Val → Val → Val × Fl) =>
    let ftz := s.ftz t
    let r := roundRes fp32 ftz (s.fcrRm t) false (op (decodeF fp32 (flush fp32 ftz d.toNat)) (decodeF fp32 (flush fp32 ftz v.toNat)))
    (BitVec.ofNat 32 r.1, r.2)
  let mm := fun (mx : Bool) =>
    let r := minMaxF fp32 mx (flush fp32 (s.ftz t) d.toNat) (flush fp32 (s.ftz t) v.toNat)
    (BitVec.ofNat 32 r.1, r.2)
  match x.op with
  | .iadd => (d + v, 0)
  | .isub => (d - v, 0)
  | .and => (d &&& v, 0)
  | .or => (d ||| v, 0)
  | .xor => (d ^^^ v, 0)
  | .shl => (BitVec.ofNat 32 (shlN 32 d.toNat v.toNat), 0)
  | .shr => (BitVec.ofNat 32 (shrN 32 d.toNat v.toNat), 0)
  | .sar => (BitVec.ofNat 32 (sarN 32 d.toNat v.toNat), 0)
  | .imin => (if d.toInt ≤ v.toInt then d else v, 0)
  | .imax => (if v.toInt ≤ d.toInt then d else v, 0)
  | .mov => (v, 0)
  | .fadd => fp (addV (s.fcrRm t))
  | .fmul => fp mulV
  | .fmin => mm false
  | .fmax => mm true
  | .imul => (d * v, 0)

/-- Both slots read before either writes (R278). -/
def formatDLane (a b : DSlot) : LaneFn := fun s _ t =>
  let x := slotResult s t a
  let y := slotResult s t b
  .fx { vs := (wr32 a.d x.1).vs ++ (wr32 b.d y.1).vs, fsr := x.2 ||| y.2 }

-- Meanings

def execFadd (f : ArithF) (s : State) := runLanes (.fadd f) (once f.d (fpBin f (addV f.rm))) s
def execFmul (f : ArithF) (s : State) := runLanes (.fmul f) (once f.d (fpBin f mulV)) s
def execFfma (f : ArithF) (s : State) := runLanes (.ffma f) (once f.d (fpFma f)) s
def execFmin (f : ArithF) (s : State) := runLanes (.fmin f) (once f.d (fpMinMax f false)) s
def execFmax (f : ArithF) (s : State) := runLanes (.fmax f) (once f.d (fpMinMax f true)) s
def execFset (f : ArithF) (s : State) := runLanes (.fset f) (once f.d (fsetLane f)) s
def execFdiv (f : ArithF) (s : State) := runLanes (.fdiv f) (once f.d (fpBin f divV)) s
def execFrcp (f : ArithF) (s : State) := runLanes (.frcp f) (once f.d (fpFun f (divV (.fin false 1 0)))) s
def execFrsq (f : ArithF) (s : State) := runLanes (.frsq f) (once f.d (fpFun f rsqrtV)) s
def execFsqrt (f : ArithF) (s : State) := runLanes (.fsqrt f) (once f.d (fpFun f sqrtV)) s
def execFexp2 (f : ArithF) (s : State) := runLanes (.fexp2 f) (once f.d (fpFun f exp2V)) s
def execFlog2 (f : ArithF) (s : State) := runLanes (.flog2 f) (once f.d (fpFun f lg2V)) s
def execFsinp (f : ArithF) (s : State) := runLanes (.fsinp f) (once f.d (fpFun f sinpV)) s
def execFcosp (f : ArithF) (s : State) := runLanes (.fcosp f) (once f.d (fpFun f cospV)) s
def execFrnd (f : ArithF) (s : State) := runLanes (.frnd f) (once f.d (frndLane f)) s
def execFfrac (f : ArithF) (s : State) := runLanes (.ffrac f) (once f.d (fpFun f ffracVal)) s
def execFclass (f : ArithF) (s : State) := runLanes (.fclass f) (fclassLane f) s
def execF2i (f : ArithF) (s : State) := runLanes (.f2i f) (once f.d (f2iLane f)) s
def execI2f (f : ArithF) (s : State) := runLanes (.i2f f) (i2fLane f) s
def execFcvt (f : ArithF) (s : State) := runLanes (.fcvt f) (once f.d (fcvtLane f)) s
def execFpadd (f : ArithF) (s : State) := runLanes (.fpadd f) (once f.d (fpBin f (addV f.rm))) s
def execFpmul (f : ArithF) (s : State) := runLanes (.fpmul f) (once f.d (fpBin f mulV)) s
def execFpmad (f : ArithF) (s : State) := runLanes (.fpmad f) (once f.d (fpFma f)) s
/-- A Format D word (R276-R278). -/
def execFormatD (a b : DSlot) (s : State) := runLanes (.formatD a b) (formatDLane a b) s

end Sys2Proof.Machine
end

