-- ==== Sys2Proof/Machine/Lane.lean ====
section
/-! DEFINITION. Lane operations over the participating threads of a group: SHARE, VMASK, ELECT, RDLANE, SCAN, REDUX, MATCH (R22,
R339, R371, R391, R394, R395, R400, R410), and the narrow quantise, dequantise and dot-product words (R336, R337, R384-R386, R389). -/
namespace Sys2Proof.Machine

/-- The participating threads of a thread's group, in ascending index (R374). -/
def peersOf (ex : List ThreadId) (t : ThreadId) : List ThreadId := ex.filter (fun u => u.group == t.group)

def State.widthOf (s : State) (t : ThreadId) : Nat := ((s.grp t.group).map Group.width).getD 0

def shareLane (f : ArithF) : LaneFn := fun s ex t =>
  let w := s.widthOf t
  let b := (s.rdB t f).toNat
  let i := t.ix
  let j : Int := match f.lo3.val with
    | 0 => b
    | 1 => (i : Int) - b
    | 2 => (i : Int) + b
    | 3 => (i ^^^ b : Nat)
    | _ => ((i + b) % 2 ^ 32 % max w 1 : Nat)
  let u : ThreadId := { t with ix := j.toNat }
  let valid := decide (0 ≤ j) && decide (j < w) && ex.contains u
  let src := if valid then u else t
  let e := wrT f.t f.d (s.rdT src f.t f.a)
  .fx (if f.hi3 = 7 then e else { e with ps := [(f.hi3.val, valid)] })

/-- A 64-bit mask of group indices. -/
def maskOf (ts : List ThreadId) : DWord := ts.foldl (fun m t => m ||| (1 <<< t.ix)) 0

def vmaskLane (f : ArithF) : LaneFn := fun s ex t =>
  let q := (f.sub.extractLsb' 2 3).toNat
  let ps := peersOf ex t
  let yes := ps.filter (fun u => s.pred u q != f.sub.getLsbD 5)
  .fx (match (f.sub.extractLsb' 0 2).toNat with
    | 0 => wr32 f.d (if yes.isEmpty then 0 else 0xFFFFFFFF)
    | 1 => wr32 f.d (if yes.length = ps.length then 0xFFFFFFFF else 0)
    | 2 => wr64 f.d (maskOf yes)
    | _ => wr32 f.d (BitVec.ofNat 32 yes.length))

/-- The elected thread is the candidate of lowest lane (R339). -/
def electLane (f : ArithF) : LaneFn := fun s ex t =>
  let e := (peersOf ex t).headD t
  let d := if f.d.isS then wr32 f.d (s.rd e f.a) else {}
  .fx (if f.lo3 = 7 then d else { d with ps := [(f.lo3.val, t == e)] })

def rdlaneLane (f : ArithF) : LaneFn := fun s _ t =>
  let k := (match f.c with | .imm i => i.signExtend 32 | .op _ => s.rd t f.b).toNat
  if s.widthOf t ≤ k then .trap (illegalState) else .fx (wrT f.t f.d (s.rdT { t with ix := k } f.t f.a))

/-- Combine step of R394, with its flags. -/
def scanStep (op : Nat) (signed : Bool) (x y : Word) : Word × Fl :=
  let le := if signed then decide (x.toInt ≤ y.toInt) else decide (x.toNat ≤ y.toNat)
  let fp := fun (r : Nat × Fl) => (BitVec.ofNat 32 r.1, r.2)
  match op with
  | 0 => (x + y, 0)
  | 1 => (if le then x else y, 0)
  | 2 => (if le then y else x, 0)
  | 3 => (x &&& y, 0)
  | 4 => (x ||| y, 0)
  | 5 => (x ^^^ y, 0)
  | 6 =>
    let a := addV .rne (decodeF fp32 x.toNat) (decodeF fp32 y.toNat)
    let r := encode fp32 a.1 .rne false
    (BitVec.ofNat 32 r.1, r.2 ||| a.2)
  | 7 => fp (minMaxF fp32 false x.toNat y.toNat)
  | _ => fp (minMaxF fp32 true x.toNat y.toNat)

def scanIdent (op : Nat) (signed : Bool) : Word :=
  match op with
  | 1 => if signed then 0x7FFFFFFF else 0xFFFFFFFF
  | 2 => if signed then 0x80000000 else 0
  | 3 => 0xFFFFFFFF
  | 6 => 0x80000000
  | 7 => 0x7F800000
  | 8 => 0xFF800000
  | _ => 0

/-- Prefix results, left to right: the combination up to and with each value, and the union of the flags (R395). -/
def scanAll (op : Nat) (signed : Bool) (xs : List Word) : List Word × Fl :=
  match xs with
  | [] => ([], 0)
  | x :: xs =>
    let r := xs.foldl (fun (a : List Word × Word × Fl) y =>
      let z := scanStep op signed a.2.1 y
      (a.1 ++ [z.1], z.1, a.2.2 ||| z.2)) ([x], x, 0)
    (r.1, r.2.2)

def State.scanOf (s : State) (f : ArithF) (ex : List ThreadId) (t : ThreadId) : List Word × Fl :=
  scanAll (f.sub.extractLsb' 0 4).toNat (tySigned f.t) ((peersOf ex t).map (fun u => s.rd u f.a))

def scanLane (f : ArithF) : LaneFn := fun s ex t =>
  let r := s.scanOf f ex t
  let k := (peersOf ex t).idxOf t
  let v := if f.sub.getLsbD 4
    then (if k = 0 then scanIdent (f.sub.extractLsb' 0 4).toNat (tySigned f.t) else r.1.getD (k - 1) 0)
    else r.1.getD k 0
  .fx { wr32 f.d v with fsr := r.2 }

def reduxLane (f : ArithF) : LaneFn := fun s ex t =>
  let r := s.scanOf f ex t
  .fx { wr32 f.d (r.1.getLastD 0) with fsr := r.2 }

def matchLane (f : ArithF) : LaneFn := fun s ex t =>
  let ps := peersOf ex t
  let same := ps.filter (fun u => s.rdT u f.t f.a == s.rdT t f.t f.a)
  .fx (wr64 f.d (if f.sub.getLsbD 0 then (if same.length = ps.length then maskOf ps else 0) else maskOf same))

-- Narrow formats

/-- Byte bs of a word. -/
def byteOf (x : Word) (k : Nat) : Byte := x.extractLsb' (8 * k) 8

def bsOf (f : ArithF) : Nat := (f.sub.extractLsb' 0 2).toNat

/-- The scale byte of a register in the scale lane (R337). -/
def State.scaleByte (s : State) (t : ThreadId) (n : Nat) (o : Opnd) (k bs : Nat) : Nat :=
  (byteOf (s.rdK (s.scaleThread t n) o k) bs).toNat

/-- The exact code of a byte in an element format: float codes as they are, mantissas as signed integers. -/
def byteCode (f : EFmt) (b : Byte) : Int := match f with | .flt _ => b.toNat | _ => sgn 8 b.toNat

def dequantLane (fm : EFmt) (n : Nat) (f : ArithF) : LaneFn := fun s _ t =>
  let e := s.scaleByte t n f.b 0 (bsOf f)
  let a := s.rd t f.a
  let rs := (List.range 4).map (fun k => dequantElem fm (byteCode fm (byteOf a k)) e)
  .fx { regWrites f.d (rs.map Prod.fst) with fsr := rs.foldl (fun x r => x ||| r.2) 0 }

def dqtLane (f : ArithF) : LaneFn := fun s _ t =>
  let e := s.scaleByte t 4 f.b 0 (bsOf f)
  let d := ternDigits (byteOf (s.rd t f.a) (f.sub.extractLsb' 2 3).toNat)
  let rs := (d.getD [0, 0, 0, 0, 0]).map (fun q => dequantElem .tern q e)
  .fx { regWrites f.d (rs.map Prod.fst) with fsr := rs.foldl (fun x r => x ||| r.2) (if d.isNone then flFMT else 0) }

def quantLane (fm : EFmt) (n : Nat) (f : ArithF) : LaneFn := fun s _ t =>
  let e := s.scaleByte t n f.b 0 (bsOf f)
  let rs := (List.range 4).map (fun k => quantElem fm (decodeF fp32 (s.rdK t f.a k).toNat) e f.rm f.sat)
  .fx { wr32 f.d (BitVec.ofNat 32 (leNat (rs.map (fun r => BitVec.ofInt 8 r.1)))) with
        fsr := rs.foldl (fun x r => x ||| r.2) 0 }

def qsclLane (f : ArithF) : LaneFn := fun s ex t =>
  let k := (f.sub.extractLsb' 2 2).toNat
  let n := if k = 2 then 4 else 8
  let emax : Int := match k with | 0 => 8 | 1 => 15 | _ => -1
  let blk := (peersOf ex t).filter (fun u => s.scaleThread u n == s.scaleThread t n)
  let xs := blk.flatMap (fun u => (List.range 4).map (fun j => decodeF fp32 (s.rdK u f.a j).toNat))
  let c := BitVec.ofNat 32 (scaleCode emax xs)
  let sh := 8 * bsOf f
  .fx (wr32 f.d ((s.rd t f.d &&& ~~~((0xFF : Word) <<< sh)) ||| (c <<< sh)))

/-- The elements of an operand word, exactly, with the FMT flag of a reserved ternary byte (R132, R386). -/
def dotElems (fm : EFmt) (x : Word) : List Val × Fl :=
  match fm with
  | .tern =>
    let ds := (List.range 4).map (fun k => ternDigits (byteOf x k))
    ((ds.map (fun d => (d.getD [0, 0, 0, 0, 0]).map Val.ofInt)).flatten, if ds.any Option.isNone then flFMT else 0)
  | _ => ((List.range 4).map (fun k => decodeE fm (byteCode fm (byteOf x k))), 0)

/-- Exact sum of products over a block's participating threads, and its flags (R386). -/
def State.dotBlock (s : State) (fm : EFmt) (f : ArithF) (blk : List ThreadId) : Val × Fl :=
  blk.foldl (fun acc u =>
    let a := dotElems fm (s.rd u f.a)
    let b := dotElems fm (s.rd u f.b)
    (List.zip a.1 b.1).foldl (fun acc p =>
      let m := mulV p.1 p.2
      let r := addV .rne acc.1 m.1
      (r.1, acc.2 ||| m.2 ||| r.2)) (acc.1, acc.2 ||| a.2 ||| b.2)) (Val.zero, 0)

def dotLane (fm : EFmt) (n : Nat) (f : ArithF) : LaneFn := fun s ex t =>
  let blk := (peersOf ex t).filter (fun u => s.scaleThread u n == s.scaleThread t n)
  let ea := s.scaleByte t n f.c.opnd 0 (bsOf f)
  let eb := s.scaleByte t n f.c.opnd 1 (bsOf f)
  let p := s.dotBlock fm f blk
  let v := if ea = 255 || eb = 255 then Val.canon else p.1.scale ((ea : Int) + eb - 254)
  let v := if v.isZero then Val.zero else v
  let r := addV f.rm (decodeF fp32 (s.rd t f.d).toNat) v
  let c := encode fp32 r.1 f.rm f.sat
  .fx { wr32 f.d (BitVec.ofNat 32 c.1) with fsr := p.2 ||| r.2 ||| c.2 }

-- Meanings

def execShare (f : ArithF) (s : State) := runLanes (.share f) (shareLane f) s
def execVmask (f : ArithF) (s : State) := runLanes (.vmask f) (vmaskLane f) s
def execElect (f : ArithF) (s : State) := runLanes (.elect f) (electLane f) s
def execRdlane (f : ArithF) (s : State) := runLanes (.rdlane f) (rdlaneLane f) s
def execScan (f : ArithF) (s : State) := runLanes (.scan f) (scanLane f) s
def execRedux (f : ArithF) (s : State) := runLanes (.redux f) (reduxLane f) s
def execMatch (f : ArithF) (s : State) := runLanes (.matchLanes f) (matchLane f) s
def execQde4 (f : ArithF) (s : State) := runLanes (.qde4 f) (dotLane (.flt e4m3) 8 f) s
def execQde5 (f : ArithF) (s : State) := runLanes (.qde5 f) (dotLane (.flt e5m2) 8 f) s
def execQdb (f : ArithF) (s : State) := runLanes (.qdb f) (dotLane (.bfp 8) 4 f) s
def execQdt (f : ArithF) (s : State) := runLanes (.qdt f) (dotLane .tern 4 f) s
def execQce4 (f : ArithF) (s : State) := runLanes (.qce4 f) (quantLane (.flt e4m3) 8 f) s
def execQce5 (f : ArithF) (s : State) := runLanes (.qce5 f) (quantLane (.flt e5m2) 8 f) s
def execQcb (f : ArithF) (s : State) := runLanes (.qcb f) (quantLane (.bfp 8) 4 f) s
def execQscl (f : ArithF) (s : State) := runLanes (.qscl f) (qsclLane f) s
def execDqe4 (f : ArithF) (s : State) := runLanes (.dqe4 f) (dequantLane (.flt e4m3) 8 f) s
def execDqe5 (f : ArithF) (s : State) := runLanes (.dqe5 f) (dequantLane (.flt e5m2) 8 f) s
def execDqb (f : ArithF) (s : State) := runLanes (.dqb f) (dequantLane (.bfp 8) 4 f) s
def execDqt (f : ArithF) (s : State) := runLanes (.dqt f) (dqtLane f) s

end Sys2Proof.Machine
end

