-- ==== Sys2Proof/Machine/Access.lean ====
section
/-! DEFINITION. Pending accesses of threads: when one may be performed (R82, R85, R86, R256), what performing it does (R83, R87, R96,
R105-R107, R109-R116, R322, R366-R369, R378, R402, R405, R406, R413), page faults of accesses (R256), and the events LOAD_COMPLETE,
STORE_COMPLETE, INJECTED_LINE_RECEIVE, INJECTED_COPY_INVALIDATE and L2_EVICTION. -/
namespace Sys2Proof.Machine

-- Counters and the error log

/-- Adds to the enabled counters of a core that count an event (R304). -/
def State.countEv (s : State) (c code n : Nat) : State :=
  if (s.core c).evsel.any (fun w => w.toNat % 512 == 256 + code) then
    s.updCore c (fun x => { x with
      evcnt := (List.range 8).map (fun k =>
        let v := x.evcnt.getD k 0
        if (x.evsel.getD k 0).toNat % 512 = 256 + code then (v + BitVec.ofNat 64 n) &&& 0xFFFFFFFFFFFF else v) })
  else s

/-- Adds to the die counters that count an event (R305). -/
def State.countDie (s : State) (d code n : Nat) : State :=
  s.updDie d (fun x => { x with
    ctrVal := (List.range 16).map (fun k =>
      let v := x.ctrVal.getD k 0
      if (x.ctrSel.getD k 0).toNat = code then (v + BitVec.ofNat 64 n) &&& 0xFFFFFFFFFFFF else v) })

/-- A record of the firmware error log: a repeat of the newest within 1 ms only counts; 256 are kept (R308). -/
def State.logErr (s : State) (kind die unit : Nat) (addr : DWord) : State :=
  let new : ErrRec := ⟨s.hubTime, kind, die, unit, addr, 0⟩
  match s.errlog.getLast? with
  | some r =>
    if r.kind = kind && r.die = die && r.unit = unit && r.addr = addr && s.hubTime ≤ r.time + 1000000 then
      { s with errlog := s.errlog.dropLast ++ [{ r with rep := r.rep + 1 }] }
    else
      let l := s.errlog ++ [new]
      { s with errlog := l.drop (l.length - 256) }
  | none => { s with errlog := [new] }

-- Order of a thread's accesses

/-- Issue order: by execution, then by identifier. -/
def accBefore (i : Nat) (a : Acc) (j : Nat) (b : Acc) : Bool := a.exec < b.exec || (a.exec == b.exec && i < j)

def Acc.sameThread (a b : Acc) : Bool := a.t == b.t || a.owners.any (fun t => b.owners.contains t)

/-- An earlier access that a later one may have to follow: one of its thread; or one of its workgroup that a release at GRP or WG has gone by,
which every other access of the workgroup follows (R85, R91; log 67). -/
def precedes (i : Nat) (a : Acc) (j : Nat) (b : Acc) : Bool :=
  (accBefore i a j b && a.sameThread b) || (a.passed && a.t.wg == b.t.wg && (!b.passed || accBefore i a j b))

/-- The publish regions of the pages that an access names. A thread uses one live bit of a region after another, never an older one, so its
accesses to one region go in program order (R104). -/
def State.regionsOf (s : State) (a : Acc) : List Nat :=
  if a.space != .global || s.regions.isEmpty then []
  else ((a.ranges).getD []).filterMap (fun r => match (s.xlate (s.coreOf r.1 / 32) (s.ctxOf r.1.wg) r.2.1.toNat {}).2 with
    | .ok x => x.attr.rg
    | .error _ => none)

/-- Two accesses of a thread that keep their program order: they may name a common byte (R82), or pages of one region (R104). -/
def State.ordered (s : State) (a b : Acc) : Bool := s.accMeet a b || (s.regionsOf b).any (fun k => (s.regionsOf a).contains k)

/-- The access may be performed now: no fault holds it, every earlier access of its threads that it must follow is done (R82 same
bytes, R104 same region, R85 release, R86 acquire), and lanes of one execution on common bytes go in lane order (R316, R402). -/
def State.canPerform (s : State) (id : Nat) (a : Acc) : Bool :=
  a.fault.isNone && s.accs.all (fun e =>
    e.1 == id ||
      !((precedes e.1 e.2 id a && (e.2.acquires || (a.releases && (Scope.wide a.sc || !e.2.goesBy)) || s.ordered e.2 a))
        || (accBefore e.1 e.2 id a && e.2.exec == a.exec && s.accMeet e.2 a)))

-- Completion

/-- Writes registers and status of a thread outside an issue. -/
def State.putRegs (s : State) (t : ThreadId) (e : LaneFx) : State :=
  let s := s.updThr t (fun x => x.apply e)
  if e.ss.isEmpty then s else s.updGrp t.group (fun g => g.writeS e.ss)

/-- The access is complete: it is no longer pending, and its owners' flag counts it no more (R270). -/
def State.finish (s : State) (id : Nat) (a : Acc) : State :=
  let s := { s with accs := mdel s.accs id }
  a.owners.foldl (fun s t => s.updThr t (fun x => x.uncount a.flag)) s

/-- Task tag of a workgroup's dirty lines (R45, R85). -/
def State.tagOf (s : State) (w : Nat) : Nat := ((s.wg w).map Workgroup.wslot).getD 63

-- Levels (R87). The hint of an ordered access done in the L1 acts as a plain access's does (log 69); a read at SYS of the system range renews
-- the copies of the die and the core, so that no later read is older (R91).

def levelRead (sc : Scope) (ord : Ord3) (ch : Hint) (c : Nat) (s : State) (pa n : Nat) (a : PageAttr) : State × List Byte :=
  if ord = .plain || !Scope.wide sc then s.l1Read c pa n a ch
  else if sc = .sys && inSystem pa then
    let bs := Mem.rdN s.mem pa n
    ((s.updDie (c / 32) (fun x => { x with l2 := mupd x.l2 (lineOf pa) (fun l =>
      { l with data := (List.range n).foldl (fun d i => lineSet d (pa % 128 + i) (bs.getD i 0)) l.data }) })).l1Refresh c pa bs, s.overlay c pa bs)
  else s.bypassRead c pa n a

def levelWrite (sc : Scope) (ord : Ord3) (ch : Hint) (c tag : Nat) (s : State) (pa : Nat) (a : PageAttr) (bs : List Byte) : State :=
  if ord = .plain || !Scope.wide sc then s.l1Write c tag pa a ch bs
  else s.bypassWrite c pa a bs

/-- The issuing L1's dirty bytes of a line go to the next level and its clean bytes go (R109). -/
def State.l1Flush (s : State) (c line : Nat) : State :=
  match s.l1Find c line with
  | none => s
  | some l => (s.l1WriteBack c l).l1Del c line

/-- Where R109 performs an atomic on a global address. At the home L2, the issuing die's own copy of a remote S line goes home first, so that
the die's later reads are no older (R108; log 64). -/
inductive AtPlace where
  | l1 | l2 | home
deriving DecidableEq, Repr

def atPlace (sc : Scope) (a : PageAttr) : AtPlace :=
  if sc = .dev || sc = .sys then .home else if Scope.wide sc || a.l2Only then .l2 else .l1

def State.atRead (s : State) (c pa n : Nat) (a : PageAttr) (p : AtPlace) : State × List Byte :=
  match p with
  | .l1 => s.l1Read c pa n a .normal
  | .l2 => (s.l1Flush c (lineOf pa)).l2Read (c / 32) pa n a
  | .home =>
    let s := s.l1Flush c (lineOf pa)
    let s := if heldApart (c / 32) pa a then s.l2Drop (c / 32) (lineOf pa) else s
    ((if a.c then s.dirTouch ((homeDie pa).getD (c / 32)) pa true else s), Mem.rdN s.mem pa n)

def State.atWrite (s : State) (c tag pa : Nat) (a : PageAttr) (p : AtPlace) (bs : List Byte) : State :=
  match p with
  | .l1 => s.l1Write c tag pa a .normal bs
  | .l2 => s.l2Write (c / 32) pa a bs
  | .home => s.homeWrite pa bs

/-- The die whose DASR receives flags of a non-returning atomic (R114). -/
def atDie (c pa : Nat) (a : PageAttr) (p : AtPlace) : Nat :=
  let d := c / 32
  let h := (homeDie pa).getD d
  match p with
  | .l1 => d
  | .l2 => if h = d || a.c || a.s then d else h
  | .home => h

/-- One more atomic executed in an L2 queue (die event 0x0E of R305; log 58). -/
def State.countAtomic (s : State) (c pa : Nat) (a : PageAttr) (p : AtPlace) : State :=
  if p = .l1 then s else s.countDie (atDie c pa a p) 0x0E 1

-- Atomic operations (R113, R317, R322)

/-- atomic_apply: the new value and its flags. -/
def atomicApply (op : Byte) (m v n : Nat) : Nat × Fl :=
  match op.toNat with
  | 0 => ((m + v) % 2 ^ n, 0)
  | 1 => (if sgn n m ≤ sgn n v then m else v, 0)
  | 2 => (if sgn n v ≤ sgn n m then m else v, 0)
  | 3 => (if m ≤ v then m else v, 0)
  | 4 => (if v ≤ m then m else v, 0)
  | 5 => (m &&& v, 0)
  | 6 => (m ||| v, 0)
  | 7 => (m ^^^ v, 0)
  | 8 => (v, 0)
  | 9 => fpOp (addV .rne) (m, 0) (v, 0)
  | 10 => minMaxF fp32 false m v
  | _ => minMaxF fp32 true m v

/-- What one lane stores: a value or nothing, and its flags. -/
def laneStores (k : AtKind) (m : Nat) (x y : DWord) (n : Nat) : Option Nat × Fl :=
  match k with
  | .rmw op => let r := atomicApply op m (x.toNat % 2 ^ n) n; (some r.1, r.2)
  | .cas => (if m = x.toNat % 2 ^ n then some (y.toNat % 2 ^ n) else none, 0)

/-- Effects of one lane after its read-modify-write: its destination and its flags. -/
def State.atDone (s : State) (ret : Bool) (wide : Bool) (l : AtLane) (old : Nat) (fl : Fl) (die : Nat) : State :=
  if ret then
    let e := if wide then wr64 l.d (BitVec.ofNat 64 old) else wr32 l.d (BitVec.ofNat 32 old)
    s.putRegs l.t { e with fsr := fl }
  else if fl = 0 then s else s.raiseDasr die (dasrOf fl)

/-- One lane of an atomic at its place (R109, R316). `x` is the translation of a global address; `fl0` the flags of the merging (R112). -/
def State.atLaneGo (s : State) (a : Acc) (k : AtKind) (ret : Bool) (n : Nat) (l : AtLane) (x : Option Xl) (fl0 : Fl := 0) : State :=
  let c := s.coreOf l.t
  let fin := fun (s : State) (old : List Byte) (wr : State → List Byte → State) (die : Nat) =>
    let m := leNat old
    let r := laneStores k m l.x l.y (8 * n)
    let s := match r.1 with | some v => wr s (leBytes n v) | none => s
    s.atDone ret (n == 8) l m (r.2 ||| fl0) die
  match x with
  | some x =>
    let p := atPlace a.sc x.attr
    let r := s.atRead c x.pa n x.attr p
    fin (r.1.countAtomic c x.pa x.attr p) r.2 (fun s b => s.atWrite c (s.tagOf l.t.wg) x.pa x.attr p b) (atDie c x.pa x.attr p)
  | none =>
    match s.place l.t.wg a.space l.va n with
    | some (.spad w off) => fin s (s.spadRead w off n) (fun s b => s.spadWrite w off b) (c / 32)
    | some (.bk d off) => fin s (s.bkRead d off n) (fun s b => s.bkWrite d off b) (c / 32)
    | _ => s

/-- A lane of a RED on its way to an L2: its translation, and the flags of what has merged into it. -/
abbrev RedLane := AtLane × Xl × Fl

/-- A second operand merges into an entry (R112). -/
def RedLane.join (op : Byte) (n : Nat) (m : RedLane) (l : AtLane) : RedLane :=
  let r := atomicApply op (m.1.x.toNat % 2 ^ n) (l.x.toNat % 2 ^ n) n
  ({ m.1 with x := BitVec.ofNat 64 r.1 }, m.2.1, m.2.2 ||| r.2)

/-- The dispatch of a thread runs under the native profile. -/
def State.native (s : State) (t : ThreadId) : Bool := ((s.dispOf t.wg).map (fun p => !p.lr.dbp)).getD false

/-- Under the native profile, RED operands pending together at one address may merge, a free choice (R112): each lane joins the last
earlier lane of its address, or stays. `at'` says that a lane goes to an L2 and is of a native dispatch. -/
def mergeLanes (op : Byte) (n draw : Nat) (at' : RedLane → Bool) : Nat → List RedLane → List RedLane → List RedLane
  | _, done, [] => done
  | i, done, l :: ls =>
    match (done.reverse.find? (fun m => m.1.va == l.1.va && at' m && at' l)), Config.merges (draw + i) with
    | some m, true => mergeLanes op n draw at' (i + 1) (done.map (fun z => if z = m then m.join op n l.1 else z)) ls
    | _, _ => mergeLanes op n draw at' (i + 1) (done ++ [l]) ls

-- Translations of an access

/-- Translates the address of an access of one address: its instruction translates each page once (R73). -/
def State.xlateAcc (s : State) (a : Acc) (nd : Need) : State × Except XFault Xl :=
  let ctx := s.ctxOf a.t.wg
  match a.leaf with
  | some h => State.meet (s, useLeaf s ctx a.va.toNat nd h.pte.toNat h.va h.size) a.va.toNat nd
  | none => s.xlate (s.coreOf a.t / 32) ctx a.va.toNat nd

/-- Translates the address of each lane; the first failure, with its address, ends it. -/
def State.xlateAll (s : State) (d ctx : Nat) (nd : Need) : List DWord → State × Except (XFault × Nat) (List Xl)
  | [] => (s, .ok [])
  | a :: as =>
    match s.xlate d ctx a.toNat nd with
    | (s, .error f) => (s, .error (f, a.toNat))
    | (s, .ok x) =>
      match s.xlateAll d ctx nd as with
      | (s, .error e) => (s, .error e)
      | (s, .ok xs) => (s, .ok (x :: xs))

/-- The 128-byte lines of a range, each with its first and last byte within the range. -/
def linesOf (va len : Nat) : List (Nat × Nat) :=
  if len = 0 then [] else
    (List.range ((va + len - 1) / 128 - va / 128 + 1)).map (fun k =>
      let b := (va / 128 + k) * 128
      (max b va, min (b + 128) (va + len)))

-- Performing

/-- The level reader of a plane access (R369): the instruction's order, scope and hint. -/
def planeRead (s : State) (a : Acc) : Rd :=
  let c := s.coreOf a.t
  readAt (c / 32) (s.ctxOf a.t.wg) { r := true } (levelRead a.sc a.ord a.ch c)

/-- Registers written by LDP (R369). -/
def ldpRegs (d : Opnd) (h : Handle) (k : Nat) (rnd : Bool) (quad : Option Nat) (e : Nat) (ws : List Nat) : LaneFx :=
  let m := fun i => mantRnd k h.pcnt e rnd ws i
  let eW : Word := BitVec.ofNat 32 e
  match quad with
  | none =>
    let pl := planesOf k ((List.range 16).map m)
    regWrites d (((List.range ((k + 1) / 2)).map (fun j => BitVec.ofNat 32 (pl.getD (2 * j) 0 + 2 ^ 16 * pl.getD (2 * j + 1) 0))) ++ [eW])
  | some q =>
    let b := fun i => wrap 8 (m (4 * q + i) * (2 ^ (8 - k) : Nat))
    regWrites d [BitVec.ofNat 32 (b 0 + 2 ^ 8 * b 1 + 2 ^ 16 * b 2 + 2 ^ 24 * b 3), eW]

/-- STP: all bytes of a block, translated first (R406). -/
def State.stpGo (s : State) (a : Acc) (h : Handle) (b : Nat) (pl : List Half) (e : Byte) : State × Except (XFault × Nat) Unit :=
  let c := s.coreOf a.t
  let as := blockAddrs h b h.pcnt
  match s.xlateAll (c / 32) (s.ctxOf a.t.wg) { w := true } (as.map (fun x => BitVec.ofNat 64 x.1)) with
  | (s, .error f) => (s, .error f)
  | (s, .ok xs) =>
    let s := if a.ord = .sync then s.release c (s.tagOf a.t.wg) a.sc else s
    let data := [e] :: pl.map (fun w => leBytes 2 w.toNat)
    ((xs.zip data).foldl (fun s p => levelWrite a.sc a.ord a.ch c (s.tagOf a.t.wg) s p.1.pa p.1.attr p.2) s, .ok ())

/-- One update of one block (R115, R378): reads and writes each word at the place of R109. -/
def State.pladdBlock (s : State) (a : Acc) (c : Nat) (h : Handle) (us : List Word) (xs : List Xl) : State :=
  let rd := fun (s : State) (x : Xl) (n : Nat) => s.atRead c x.pa n x.attr (atPlace a.sc x.attr)
  let r := xs.zipIdx.foldl (fun (z : State × List Nat) x =>
    let v := rd z.1 x.1 (if x.2 = 0 then 1 else 2)
    (v.1, z.2 ++ [leNat v.2])) (s, [])
  let s := r.1
  let e := r.2.headD 0
  let ws := r.2.drop 1
  let res := pladdApply h.pcnt e ((List.range 16).map (fun i => mant h.pcnt ws i)) (us.map (fun u => decodeF fp32 u.toNat))
  let data := [BitVec.ofNat 8 res.1] :: (match res.2.1 with
    | some ms => (planesOf h.pcnt ms).map (leBytes 2)
    | none => ws.map (leBytes 2))
  let s := (xs.zip data).foldl (fun s p => s.atWrite c (s.tagOf a.t.wg) p.1.pa p.1.attr (atPlace a.sc p.1.attr) p.2) s
  match xs with
  | x :: _ =>
    let p := atPlace a.sc x.attr
    (s.countAtomic c x.pa x.attr p).raiseDasr (atDie c x.pa x.attr p) res.2.2
  | [] => s

/-- The result of performing an access: done, done but not yet complete (injected copies on the way), a failed translation, or a
trap that arises only now. -/
inductive Perf where
  | done
  | waits
  | fault (f : XFault) (va : Nat)
  | trap (i : TrapInfo)
deriving DecidableEq, Repr

def perfOf : Except (XFault × Nat) Unit → Perf
  | .ok _ => .done
  | .error (f, va) => .fault f va

/-- PLADD: every page of every block translated first, then the updates in order (R378). -/
def State.pladdGo (s : State) (a : Acc) (h : Handle) (ups : List (Nat × List Word)) : State × Perf :=
  let c := s.coreOf a.t
  let go := ups.foldl (fun (z : State × Except (XFault × Nat) (List (List Xl))) u =>
    match z.2 with
    | .error e => (z.1, .error e)
    | .ok acc =>
      match z.1.xlateAll (c / 32) (s.ctxOf a.t.wg) { r := true, w := true } ((blockAddrs h u.1 h.pcnt).map (fun x => BitVec.ofNat 64 x.1)) with
      | (s, .error e) => (s, .error e)
      | (s, .ok xs) => (s, .ok (acc ++ [xs]))) (s, .ok [])
  match go with
  | (s, .error e) => (s, .fault e.1 e.2)
  | (s, .ok xss) =>
    match ((ups.flatMap (fun u => blockAddrs h u.1 h.pcnt)).zip xss.flatten).find? (fun p => inSystem p.2.pa) with
    | some p => (s, .trap (illegalState (BitVec.ofNat 64 p.1.1)))
    | none =>
      let s := if a.ord = .sync then s.release c (s.tagOf a.t.wg) a.sc else s
      ((ups.zip xss).foldl (fun s p => s.pladdBlock a c h p.1.2 p.2) s, .done)

/-- Byte mask of a part of a line. -/
def partMask (lo hi : Nat) : BitVec 128 := (List.range 128).foldl (fun m i => if lo ≤ i && i < hi then m ||| (1 <<< i) else m) 0

/-- WBR on a part of a line (R106): the issuing L1's dirty bytes to the die's L2, then remote S bytes to their home. -/
def State.wbrLine (s : State) (c : Nat) (x : Xl) (lo hi : Nat) : State :=
  let line := lineOf x.pa
  let m := partMask (lo % 128) (lo % 128 + (hi - lo))
  let s := match s.l1Find c line with
    | none => s
    | some l =>
      let s := State.maskedWrite (fun s a b => s.l2Write (c / 32) a l.attr b) s line l.data (l.dirty &&& m)
      match s.l1Find c line with
      | some l' => s.l1Put c { l' with dirty := l'.dirty &&& ~~~m }
      | none => s
  if x.attr.s && homeDie x.pa != some (c / 32) && inDevice x.pa then s.l2WriteBack (c / 32) line m else s

/-- INVR on a part of a line (R107): the sectors it overlaps lose their clean bytes in the die's L2 and in the issuing L1, whose line then counts
as injected no more (R66) and goes when nothing is left of it; injected copies of the die go, since the line is fetched anew (R97). -/
def State.invrLine (s : State) (c : Nat) (x : Xl) (lo hi : Nat) : State :=
  if !(x.attr.s && homeDie x.pa != some (c / 32) && inDevice x.pa) then s
  else
    let line := lineOf x.pa
    let ks := (List.range 4).filter (fun k => lo % 128 < 32 * k + 32 && 32 * k < lo % 128 + (hi - lo))
    let drop := fun (v : BitVec 4) => ks.foldl (fun v k => v &&& ~~~((1 : BitVec 4) <<< k)) v
    let s := (s.invalCopies (c / 32) line).updDie (c / 32) (fun d => { d with l2 := mupd d.l2 line (fun l => { l with valid := drop l.valid }) })
    s.updCore c (fun k => { k with
      l1 := (k.l1.map (fun l => if l.line = line then { l with valid := drop l.valid, inj := false } else l)).filter
        (fun l => l.line != line || l.valid != 0 || l.dirty != 0) })

/-- A range acted on line by line, every page translated first (R363, R413). -/
def State.rangeGo (s : State) (a : Acc) (len : Nat) (f : State → Nat → Xl → Nat → Nat → State) : State × Except (XFault × Nat) Unit :=
  let c := s.coreOf a.t
  let ls := linesOf a.va.toNat len
  match s.xlateAll (c / 32) (s.ctxOf a.t.wg) {} (ls.map (fun l => BitVec.ofNat 64 l.1)) with
  | (s, .error e) => (s, .error e)
  | (s, .ok xs) => ((ls.zip xs).foldl (fun s p => f s c p.2 p.1.1 p.1.2) s, .ok ())

/-- The whole line as it stands at the die's L2. -/
def State.l2Whole (s : State) (d line : Nat) (a : PageAttr) : State × BitVec 1024 :=
  (List.range 4).foldl (fun (z : State × BitVec 1024) k =>
    let r := z.1.l2Read d (128 * line + 32 * k) 32 a
    (r.1, z.2 ||| (lineOfBytes r.2 <<< (256 * k)))) (s, 0)

/-- The lanes of an STI: writes in lane order, then one injection per line to the union of the masks (R96, R405). -/
def State.stiGo (s : State) (id : Nat) (a : Acc) (ls : List (ThreadId × DWord × List Byte × Word)) (xs : List Xl) : State :=
  let c := s.coreOf a.t
  let d := c / 32
  let s := if a.ord = .sync then s.releaseTags c (ls.map (fun l => s.tagOf l.1.wg)) .die else s
  let ps := ls.zip xs
  let lines := (ps.map (fun p => lineOf p.2.pa)).eraseDups
  let maskOf := fun line => (ps.filter (fun p => lineOf p.2.pa == line)).foldl (fun (m : BitVec 32) p => m ||| p.1.2.2.2) 0
  let s := ps.foldl (fun s p => s.bypassWrite c p.2.pa p.2.attr p.1.2.2.1 (maskOf (lineOf p.2.pa))) s
  lines.foldl (fun s line =>
    match ps.find? (fun p => lineOf p.2.pa == line) with
    | none => s
    | some p =>
      let named := (List.range 32).filter (fun k => (maskOf line).getLsbD k)
      let ok := (homeDie p.2.pa == some d || p.2.attr.c || p.2.attr.s) && !p.2.attr.l2Only
      if ok then
        let w := s.l2Whole d line p.2.attr
        { w.1 with injMsgs := w.1.injMsgs ++ named.map (fun k => (⟨32 * d + k, line, w.2, id, p.2.attr, false⟩ : InjMsg)) }
      else s.countEv c 0x0C named.length) s

/-- One instruction-cache line, read if absent; a full set of 8 replaces a way, a free choice (R80). -/
def State.icFill (s : State) (c line : Nat) (data : BitVec 1024) : State :=
  let set := (s.core c).icache.filter (fun e => e.1 % 128 == line % 128)
  if set.length < 8 then s.updCore c (fun x => { x with icache := mput x.icache line data })
  else
    let v := ((set.map Prod.fst).getD (Config.victim s.fresh % 8) line)
    s.bump.updCore c (fun x => { x with icache := mput (mdel x.icache v) line data })

/-- Bytes of one line through the instruction cache of a core. -/
def State.icRead (s : State) (c pa n : Nat) (a : PageAttr) : State × List Byte :=
  let out := fun (l : BitVec 1024) => (List.range n).map (fun i => lineGet l (pa % 128 + i))
  match mget (s.core c).icache (lineOf pa) with
  | some l => (s, out l)
  | none =>
    let w := s.l2Whole (c / 32) (lineOf pa) a
    (w.1.icFill c (lineOf pa) w.2, out w.2)

/-- Writes a loaded value: extended for B8 and B16, words lowest first (R366). -/
def loadRegs (d : Opnd) (sz : Sz) (sx : Bool) (bs : List Byte) : LaneFx :=
  match sz with
  | .b8 => wr32 d (if sx then (BitVec.ofNat 8 (leNat bs)).signExtend 32 else BitVec.ofNat 32 (leNat bs))
  | .b16 => wr32 d (if sx then (BitVec.ofNat 16 (leNat bs)).signExtend 32 else BitVec.ofNat 32 (leNat bs))
  | _ => regWrites d ((List.range (bs.length / 4)).map (fun k => BitVec.ofNat 32 (fld bs (4 * k) 4)))

/-- A load or store of one range at its place. -/
def State.rangeAccess (s : State) (a : Acc) (nd : Need) (f : State → Xl → State) (g : State → Place → State) : State × Perf :=
  match a.space with
  | .global =>
    match s.xlateAcc a nd with
    | (s, .error e) => (s, .fault e a.va.toNat)
    | (s, .ok x) => (f s x, .done)
  | _ =>
    match s.place a.t.wg a.space a.va a.size with
    | some p => (g s p, .done)
    | none => (s, .done)

/-- Performs an access. On a fault or trap the state is as before but for the translations tried. `joins` are lanes of other pending REDs
that merge into its entries (R112). -/
def State.perform (s : State) (id : Nat) (a : Acc) (joins : List AtLane := []) : State × Perf :=
  let c := s.coreOf a.t
  let d := c / 32
  let ctx := s.ctxOf a.t.wg
  let tag := s.tagOf a.t.wg
  match a.op with
  | .load dst sz sx =>
    let put := fun (r : State × List Byte) =>
      let s := r.1.putRegs a.t (loadRegs dst sz sx r.2)
      if a.ord = .sync then s.acquire c a.sc else s
    s.rangeAccess a { r := true } (fun s x => put (levelRead a.sc a.ord a.ch c s x.pa a.size x.attr))
      (fun s p => match p with
        | .spad w off => put (s, s.spadRead w off a.size)
        | .bk b off => put (s, s.bkRead b off a.size)
        | .glob _ => s)
  | .store data =>
    let rel := fun (s : State) => if a.ord = .sync then s.release c tag a.sc else s
    s.rangeAccess a { w := true } (fun s x => levelWrite a.sc a.ord a.ch c tag (rel s) x.pa x.attr data)
      (fun s p => match p with
        | .spad w off => (rel s).spadWrite w off data
        | .bk b off => (rel s).bkWrite b off data
        | .glob _ => s)
  | .stis ls =>
    match s.xlateAll d ctx { w := true } (ls.map (fun l => l.2.1)) with
    | (s, .error (f, va)) => (s, .fault f va)
    | (s, .ok xs) =>
      let s := s.stiGo id a ls xs
      let s := { s with accs := mupd s.accs id (fun b => { b with op := .stis [] }) }
      (s, if s.injMsgs.any (fun m => m.sti == id) then .waits else .done)
  | .ldl dst wide =>
    match s.xlateAcc a { x := true } with
    | (s, .error f) => (s, .fault f a.va.toNat)
    | (s, .ok x) =>
      let r := s.icRead c x.pa a.size x.attr
      (r.1.putRegs a.t (loadRegs dst (if wide then .b64 else .b32) false r.2), .done)
  | .atoms k ret sz ls =>
    let n := szBytes sz
    let red := match k with | .rmw op => if ret then none else some op | .cas => none
    let rel := fun (s : State) => if a.ord = .sync then s.releaseTags c (ls.map (fun l => s.tagOf l.t.wg)) a.sc else s
    let acq := fun (s : State) => if a.ord = .sync && ret then s.acquire c a.sc else s
    if a.space = .global then
      match s.xlateAll d ctx { r := true, w := true } (ls.map AtLane.va) with
      | (s, .error (f, va)) => (s, .fault f va)
      | (s, .ok xs) =>
        match (ls.zip xs).find? (fun p => inSystem p.2.pa) with
        | some p => (s, .trap (illegalState p.1.va))
        | none =>
          let zs : List RedLane := (ls.zip xs).map (fun p => (p.1, p.2, 0))
          let zs := match red with
            | some op =>
              let at' := fun (z : RedLane) => atPlace a.sc z.2.1.attr != AtPlace.l1 && s.native z.1.t
              joins.foldl (fun (zs : List RedLane) (l : AtLane) => match zs.find? (fun (z : RedLane) => z.1.va == l.va) with
                | some m => zs.map (fun (z : RedLane) => if z = m then m.join op (8 * n) l else z)
                | none => zs) (mergeLanes op (8 * n) s.fresh at' 0 [] zs)
            | none => zs
          let s := zs.foldl (fun (s : State) (z : RedLane) => s.atLaneGo a k ret n z.1 (some z.2.1) z.2.2) (rel s)
          (acq s.bump, .done)
    else (acq (ls.foldl (fun s l => s.atLaneGo a k ret n l none) (rel s)), .done)
  | .ldp dst hb b k rnd quad =>
    match handleOf hb with
    | none => (s, .trap (illegalState))
    | some h =>
      let r := planeRead s a
      match ((r (h.expAddr b) 1).and (fun eb => (Ev.list (fun j => (r (h.planeAddr b j) 2).and (fun w => Ev.ret (leNat w)))
          (List.range (planesRead k h.pcnt rnd))).and (fun ws => Ev.ret (leNat eb, ws)))) s with
      | (s, .error (.fault f va)) => (s, .fault f va)
      | (s, .error (.fate x)) => (s, .trap (illegalState (BitVec.ofNat 64 x)))
      | (s, .ok (e, ws)) =>
        let s := s.putRegs a.t (ldpRegs dst h k rnd quad e ws)
        (if a.ord = .sync then s.acquire c a.sc else s, .done)
  | .stp hb b pl e =>
    match handleOf hb with
    | none => (s, .trap (illegalState))
    | some h => let r := s.stpGo a h b pl e; (r.1, perfOf r.2)
  | .pladd hb ups =>
    match handleOf hb with
    | none => (s, .trap (illegalState))
    | some h => s.pladdGo a h ups
  | .wbr len => let r := s.rangeGo a len (fun s c x lo hi => s.wbrLine c x lo hi); (r.1, perfOf r.2)
  | .invr len => let r := s.rangeGo a len (fun s c x lo hi => s.invrLine c x lo hi); (r.1, perfOf r.2)
  | .tex dst nc grad desc prog args ftz =>
    match filterRun (coreRead c ctx) desc prog grad ftz args s with
    | (s, .error (.fault f va)) => (s, .fault f va)
    | (s, .error (.fate x)) => (s, .trap (illegalState (BitVec.ofNat 64 x)))
    | (s, .ok (ws, fl)) => (s.putRegs a.t { regWrites dst (ws.take (nc + 1)) with fsr := fl }, .done)
  | .rayq dst any scene args =>
    match rayRun (coreRead c ctx) scene any args s with
    | (s, .error (.fault f va)) => (s, .fault f va)
    | (s, .error (.fate x)) => (s, .trap (illegalState (BitVec.ofNat 64 x)))
    | (s, .ok ws) => (s.putRegs a.t (regWrites dst ws), .done)

/-- An access of one address. -/
def oneAddress : AccOp → Bool
  | .load _ _ _ => true
  | .store _ => true
  | .ldl _ _ => true
  | _ => false

/-- The access class that LOAD_COMPLETE performs: class A, and INVR, which counts on no flag (R271, R363). -/
def loadClass (a : Acc) : Bool := accReads a.op || (match a.op with | .invr _ => true | _ => false)

/-- A trap that an access raises when it is performed, on its threads where they stand (R109, R217, R222). -/
def State.lateTrap (s : State) (a : Acc) (i : TrapInfo) : State :=
  let ts := a.owners.filter (fun t => ((s.thr t).map (fun x => !x.exited)).getD false)
  s.takeTraps ts (ts.map (fun t => (t, i))) Thread.savedPc

/-- An access without the lanes of one of its threads. -/
def Acc.without (a : Acc) (t : ThreadId) : Acc :=
  { a with
    owners := a.owners.erase t
    op := match a.op with
      | .atoms k ret sz ls => .atoms k ret sz (ls.filter (fun l => l.t != t))
      | .stis ls => .stis (ls.filter (fun l => l.1 != t))
      | o => o }

/-- What an entry of an L2 write queue merges: operation, type, address, and the die whose L2 holds it (R112). -/
def State.redEntry (s : State) (a : Acc) (l : AtLane) : Option (Byte × Sz × Nat × Nat) :=
  match a.op with
  | .atoms (.rmw op) false sz _ =>
    if a.space != .global || !s.native l.t then none
    else match (s.xlate (s.coreOf l.t / 32) (s.ctxOf l.t.wg) l.va.toNat { r := true, w := true }).2 with
      | .ok x =>
        let p := atPlace a.sc x.attr
        if p = .l1 || inSystem x.pa then none else some (op, sz, x.pa, atDie (s.coreOf l.t) x.pa x.attr p)
      | .error _ => none
  | _ => none

/-- The lanes of other REDs, pending and free to be performed, that a RED finds in its entries. -/
def State.redMates (s : State) (id : Nat) (a : Acc) : List (Nat × Acc × AtLane) :=
  match a.op with
  | .atoms (.rmw _) false _ ls =>
    let mine := ls.filterMap (s.redEntry a)
    if mine.isEmpty then []
    else s.accs.flatMap (fun e => match e.2.op with
      | .atoms (.rmw _) false _ ms =>
        if e.1 != id && s.canPerform e.1 e.2 then (ms.filter (fun m => ((s.redEntry e.2 m).map mine.contains).getD false
          && (ls.any (fun l => l.va == m.va)))).map (fun m => (e.1, e.2, m))
        else []
      | _ => [])
  | _ => []

/-- A list in a free order: the order of arrival (R112). -/
def arrivalOrder {α : Type} (draw : Nat) : Nat → List α → List α
  | 0, l => l
  | n + 1, l => match l[Config.pick (draw + n) % l.length]? with
    | some x => x :: arrivalOrder draw n (l.eraseIdx (Config.pick (draw + n) % l.length))
    | none => l

/-- A lane of a pending RED goes into another's entry: its release, and its own L1's part (R85, R109); the lane is pending no more, and its
thread's flag counts it no more. -/
def State.joinRed (s : State) (m : Nat × Acc × AtLane) : State :=
  let c := s.coreOf m.2.2.t
  let s := if m.2.1.ord = .sync then s.release c (s.tagOf m.2.2.t.wg) m.2.1.sc else s
  let s := match (s.xlate (c / 32) (s.ctxOf m.2.2.t.wg) m.2.2.va.toNat { r := true, w := true }).2 with
    | .ok x => s.l1Flush c (lineOf x.pa)
    | .error _ => s
  let s := s.updThr m.2.2.t (fun x => x.uncount m.2.1.flag)
  match (mget s.accs m.1).map (fun b => b.without m.2.2.t) with
  | some b => { s with accs := if b.owners.isEmpty then mdel s.accs m.1 else mupd s.accs m.1 (fun _ => b) }
  | none => s

/-- The operand two registers on. -/
def upper2 : Opnd → Opnd
  | .v n => .v (n + 2)
  | .s n => .s (n + 2)
  | o => o

/-- A 16-byte access is two 8-byte halves (R83): what remains when one has been performed, with the half to perform. -/
def Acc.halved (a : Acc) (upper : Bool) : Option (Acc × Acc) :=
  let at' := fun (b : Acc) (hi : Bool) => { b with va := if hi then b.va + 8 else b.va, size := 8 }
  match a.op with
  | .load d .b128 sx =>
    let h := fun (hi : Bool) => { at' a hi with op := .load (if hi then upper2 d else d) .b64 sx }
    some ({ h upper with ord := if a.ord = .sync then .rlx else a.ord }, h (!upper))
  | .store bs => if bs.length = 16 then
      let h := fun (hi : Bool) => { at' a hi with op := .store (if hi then bs.drop 8 else bs.take 8) }
      some (h upper, { h (!upper) with ord := if a.ord = .sync then .rlx else a.ord })
    else none
  | _ => none

/-- What is performed now of an access that may be done in halves, and what remains: a free choice (R83). -/
def State.halfOf (s : State) (a : Acc) : Option (Acc × Acc) :=
  let pick := Config.halves s.fresh % 3
  if pick = 0 then none else a.halved (pick == 2)

/-- A releasing access at GRP or WG has gone by the accesses of its threads that are performed past the core (R85). -/
def State.passBy (s : State) (a : Acc) : State := if a.releases && !Scope.wide a.sc then s.goBy a.owners else s

/-- Performs an access if it may be performed and its translations succeed; otherwise nothing happens. -/
def State.completeOne (s : State) (id : Nat) : State :=
  match mget s.accs id with
  | none => s
  | some a =>
    if !s.canPerform id a || s.injMsgs.any (fun m => m.sti == id) then s
    else
      let s0 := if a.halved false = none then s else s.bump
      match s.halfOf a with
      | some (h, rest) =>
        (match s0.perform id h with
          | (s', .done) => { s'.passBy h with accs := mupd (s'.passBy h).accs id (fun _ => rest) }
          | _ => s)
      | none =>
        let mates := arrivalOrder s.fresh 256 ((s.redMates id a).zipIdx.filterMap (fun p => if Config.merges (s.fresh + 64 + p.2) then some p.1 else none))
        match s0.perform id a (mates.map (fun m => m.2.2)) with
        | (s', .done) => mates.foldl State.joinRed ((s'.passBy a).finish id a)
        | (s', .waits) => s'
        | (_, .fault _ _) => s
        | (s', .trap i) => (s'.finish id a).lateTrap a i

/-- Lanes of one instruction that the coalescer takes together: of one 128-byte line, or of one access of the scratchpads or the bucket memory
(R64, R73; log 63). -/
def lineMate (a b : Acc) : Bool :=
  a.exec == b.exec && oneAddress a.op && oneAddress b.op && a.space == b.space && (a.space != .global || a.va.toNat / 128 == b.va.toNat / 128)

/-- The lanes of the same instruction on the page of an access just performed use its translation (R73). -/
def State.shareLeaf (s : State) (a : Acc) : State :=
  if a.space != .global || !oneAddress a.op || !s.accs.any (fun e => e.2.exec == a.exec && e.2.leaf.isNone) then s
  else
    let nd := (accNeeds a).1
    match (s.xlateAcc a nd).2 with
    | .error _ => s
    | .ok x =>
      let ctx := s.ctxOf a.t.wg
      { s with accs := s.accs.map (fun e => (e.1, if e.2.exec == a.exec && oneAddress e.2.op && e.2.leaf.isNone && e.2.fault.isNone
          && x.base ≤ e.2.va.toNat && e.2.va.toNat < x.base + x.size then { e.2 with leaf := some ⟨ctx, x.base, x.size, BitVec.ofNat 64 x.pte⟩ } else e.2)) }

/-- Performs an access of the given class, and with it the lanes that the coalescer takes together with it. -/
def State.completeAcc (s : State) (id : Nat) (load : Bool) : State :=
  match mget s.accs id with
  | none => s
  | some a =>
    if loadClass a != load || !s.canPerform id a || s.injMsgs.any (fun m => m.sti == id) then s
    else ((s.accs.filter (fun e => e.1 == id || lineMate a e.2)).map Prod.fst).foldl State.completeOne (s.shareLeaf a)

def execLoadComplete (id : Nat) (s : State) : Host.Outcome State Fault Refusal := .next (s.completeAcc id true)
def execStoreComplete (id : Nat) (s : State) : Host.Outcome State Fault Refusal := .next (s.completeAcc id false)

-- Page faults of accesses (R256, R257)

/-- ACC of a fault record. -/
def accCode : AccOp → Nat
  | .load _ _ _ => 0
  | .store _ => 1
  | .stis _ => 1
  | .ldl _ _ => 4
  | .atoms _ _ _ _ => 2
  | .ldp _ _ _ _ _ _ => 0
  | .stp _ _ _ _ => 1
  | .pladd _ _ => 2
  | .wbr _ => 1
  | .invr _ => 0
  | .tex _ _ _ _ _ _ _ => 0
  | .rayq _ _ _ _ => 0

def accUnit : AccOp → Nat
  | .tex _ _ _ _ _ _ _ => 6
  | .rayq _ _ _ _ => 6
  | _ => 0

/-- A new page fault of work of a workgroup. -/
def State.newFault (s : State) (w : Nat) (site : FaultSite) (f : XFault) (va acc unit : Nat) (noted : Bool) : State × Nat :=
  let d := s.dispOf w
  let q := (d.map Dispatch.queue).getD 0
  let p : PFault :=
    { site := site, va := BitVec.ofNat 64 va, cause := f.cause, acc := acc, unit := unit
      die := ((s.wg w).map Workgroup.die).getD 0xFF, core := ((s.wg w).map Workgroup.core).getD 0xFF
      slot := (d.map Dispatch.slot).getD 0, queue := q, ctx := s.ctxOf w, fn := ((s.queue q).map Queue.fn).getD 0
      page := f.page, size := f.size, noted := noted, tag := none, replayed := false, cancelled := false }
  ({ s with faults := s.faults ++ [(s.fresh, p)] }.bump, s.fresh)

/-- Whether a lane address lies in the page of a fault. -/
def inPage (f : XFault) (a : DWord) : Bool := f.page ≤ a.toNat && a.toNat < f.page + f.size

/-- The parts of an access that a fault on one page holds, one for each group, and the part that goes on (R256, R316); nothing goes on for an
access of one range or of records. -/
def splitAcc (a : Acc) (f : XFault) : List Acc × Option Acc :=
  match a.op with
  | .atoms k ret sz ls =>
    let part := fun (ls : List AtLane) => { a with
      op := .atoms k ret sz ls, t := (ls.head?.map AtLane.t).getD a.t, va := (ls.head?.map AtLane.va).getD a.va
      owners := a.owners.filter (fun t => ls.any (fun l => l.t == t)) }
    let bad := ls.filter (fun l => inPage f l.va)
    let good := ls.filter (fun l => !inPage f l.va)
    ((groupsOf (bad.map AtLane.t)).map (fun g => part (bad.filter (fun l => l.t.group == g))), if good.isEmpty then none else some (part good))
  | .stis ls =>
    let part := fun (ls : List (ThreadId × DWord × List Byte × Word)) => { a with
      op := .stis ls, t := (ls.head?.map Prod.fst).getD a.t, va := (ls.head?.map (fun l => l.2.1)).getD a.va
      owners := a.owners.filter (fun t => ls.any (fun l => l.1 == t)) }
    let bad := ls.filter (fun l => inPage f l.2.1)
    let good := ls.filter (fun l => !inPage f l.2.1)
    ((groupsOf (bad.map Prod.fst)).map (fun g => part (bad.filter (fun l => l.1.group == g))), if good.isEmpty then none else some (part good))
  | _ => ([a], none)

/-- A fault already raised for this execution on this page in the workgroup, shared by its lanes. -/
def State.sharedFault (s : State) (a : Acc) (f : XFault) : Option Nat :=
  ((s.accs.filter (fun e => e.2.exec == a.exec && e.2.t.wg == a.t.wg)).filterMap (fun e => e.2.fault)).find? (fun k =>
    match mget s.faults k with
    | some p => p.page == f.page && p.size == f.size && p.cause == f.cause
    | none => false)

def State.inSys (s : State) (t : ThreadId) : Bool := ((s.thr t).map Thread.sys).getD false

/-- The accesses that fault with an access on a page: for one instruction each page is translated once (R73). Lanes in system mode fault
alone. -/
def State.pageMates (s : State) (id : Nat) (a : Acc) (f : XFault) : List Nat :=
  (s.accs.filter (fun e => e.1 == id || (oneAddress a.op && e.2.exec == a.exec && e.2.t.wg == a.t.wg && e.2.fault.isNone
    && e.2.space == a.space && inPage f e.2.va && e.2.owners.all (fun t => !s.inSys t)))).map Prod.fst

/-- A part of an access is held by a fault: one already raised for its execution, or a new one at address va; in system mode it is a double
fault (R256, R261). -/
def State.holdPart (s : State) (pid : Nat) (a : Acc) (f : XFault) (va : Nat) : State :=
  if a.owners.any s.inSys then
    let s := a.owners.foldl (fun s t => s.updThr t (fun x => x.uncount a.flag)) s
    s.takeTraps a.owners (a.owners.map (fun t => (t, { cause := 8, addr := BitVec.ofNat 64 va }))) Thread.savedPc
  else
    let r := match s.sharedFault a f with
      | some k => (s, k)
      | none => s.newFault a.t.wg (.access pid) f va (accCode a.op) (accUnit a.op) true
    { r.1 with accs := r.1.accs ++ [(pid, { a with fault := some r.2, leaf := none })] }

/-- The lanes of an access that read a lost sector take a trap with cause 6, and the others go on (R303). -/
def State.dataTrap (s : State) (id : Nat) (a : Acc) (f : XFault) : State :=
  let sp := splitAcc a f
  let s := { s with accs := match sp.2 with | some g => mupd s.accs id (fun _ => g) | none => mdel s.accs id }
  sp.1.foldl (fun s p => (p.owners.foldl (fun s t => s.updThr t (fun x => x.uncount p.flag)) s).lateTrap p { cause := 6, addr := p.va }) s

/-- PAGE_FAULT of an access: its failed translation holds the lanes on that page; in system mode it is a double fault (R256, R261). -/
def State.accFault (s : State) (id : Nat) : State :=
  match mget s.accs id with
  | none => s
  | some a =>
    if !s.canPerform id a || s.injMsgs.any (fun m => m.sti == id) then s
    else
      match s.perform id a with
      | (_, .fault f va) =>
        if f.cause = lostCause then s.dataTrap id a f
        else if oneAddress a.op && !(a.owners.any s.inSys) then
          let mates := s.pageMates id a f
          let first := (((mates.head?).bind (mget s.accs)).map (fun b => b.va.toNat)).getD va
          let r := match s.sharedFault a f with
            | some k => (s, k)
            | none => s.newFault a.t.wg (.access id) f first (accCode a.op) (accUnit a.op) true
          { r.1 with accs := r.1.accs.map (fun (e : Nat × Acc) => (e.1, if mates.contains e.1 then { e.2 with fault := some r.2, leaf := none } else e.2)) }
        else
          let sp := splitAcc a f
          let s := { s with accs := match sp.2 with | some g => mupd s.accs id (fun _ => g) | none => mdel s.accs id }
          sp.1.zipIdx.foldl (fun s p =>
            let va := if sp.1.length = 1 then va else p.1.va.toNat
            if p.2 = 0 && sp.2.isNone then s.holdPart id p.1 f va else s.bump.holdPart s.fresh p.1 f va) s
      | _ => s

-- Injected lines (R65, R66, R97) and L2 eviction (R105)

/-- An injected line reaches an L1 (R66): merged, installed in a quota way, or refused; an invalidation that follows it takes it out again. -/
def State.receiveInj (s : State) (core line : Nat) : State :=
  match s.injMsgs.find? (fun m => m.core == core && m.line == line) with
  | none => s
  | some m =>
    let s := { s with injMsgs := s.injMsgs.erase m }
    let data := m.data
    let d := core / 32
    let accept := fun (s : State) =>
      let s := if m.stale then s.dropCopy core line
        else s.updDie d (fun x => { x with injMask := mput x.injMask line (((mget x.injMask line).getD 0) ||| (1 <<< (core % 32))) })
      s.countEv core 0x0B 1
    match s.l1Find core line with
    | some l => accept (s.l1Put core { l with data := mergeClean l.data data l.dirty (List.range 128), valid := 15, inj := true })
    | none =>
      let q := s.quota core
      let ways := (List.range q).map (fun i => 7 - i)
      let inSet := (s.core core).l1.filter (fun l => l.line % 256 == line % 256)
      let new : Nat → L1Line := fun w =>
        { line := line, valid := 15, dirty := 0, data := data, inj := true, tag := 63, attr := m.attr, way := w, rank := .normal }
      match ways.find? (fun w => inSet.all (fun l => l.way != w)) with
      | some w => accept (s.l1Put core (new w))
      | none =>
        match inSet.find? (fun l => ways.contains l.way && !l.inj) with
        | some l => accept (((s.l1WriteBack core l).l1Del core l.line).l1Put core (new l.way))
        | none =>
          let sender := ((mget s.accs m.sti).map (fun a => s.coreOf a.t)).getD core
          s.countEv sender 0x0C 1

def execInjectedLineReceive (core line : Nat) (s : State) : Host.Outcome State Fault Refusal := .next (s.receiveInj core line)

/-- An invalidation of an injected copy reaches an L1: clean bytes go, INJ is cleared (R97). -/
def execInjectedCopyInvalidate (core line : Nat) (s : State) : Host.Outcome State Fault Refusal :=
  .next (if s.invMsgs.contains (core, line) then
    { s.dropCopy core line with invMsgs := s.invMsgs.erase (core, line) } else s)

def execL2Eviction (d line : Nat) (s : State) : Host.Outcome State Fault Refusal := .next (s.evict d line)

end Sys2Proof.Machine
end

