-- ==== Sys2Proof/Machine/Work.lean ====
section
/-! DEFINITION. Work on the cores: queue errors (R263), the context save area (R253-R255), freeing a workgroup,
placement of groups (R26, R58), barriers (R32-R34), phase ends (R39-R44), saves (R249-R251), aborts (R262) and the end of a halt broadcast
(R258). Shared by the instructions and by the hub. -/
namespace Sys2Proof.Machine

def zeros (n : Nat) : List Byte := List.replicate n 0

/-- Zero bytes up to a multiple of 64. -/
def pad64 (bs : List Byte) : List Byte := bs ++ zeros ((64 - bs.length % 64) % 64)

def up64 (n : Nat) : Nat := (n + 63) / 64 * 64

-- Queue errors (R263)

/-- Kinds of error-log records; the spec names no coding (log 12). -/
def kindRefused : Nat := 1
def kindNotify : Nat := 2
def kindQueue : Nat := 3
def kindLink : Nat := 4
def kindData : Nat := 5

/-- Content of an error record. -/
structure QErr where
  code : Nat
  cause : Nat := 0
  second : Nat := 0
  die : Nat := 0xFF
  core : Nat := 0xFF
  cmd : Nat := 0
  lrec : DWord := 0
  x : Nat := 0
  y : Nat := 0
  z : Nat := 0
  epc : DWord := 0
  taddr : DWord := 0
deriving DecidableEq, Repr

def QErr.bytes (e : QErr) : List Byte :=
  leBytes 1 e.code ++ leBytes 1 e.cause ++ leBytes 1 e.second ++ leBytes 1 e.die ++ leBytes 1 e.core ++ zeros 3 ++ leBytes 8 e.cmd
    ++ leBytes 8 e.lrec.toNat ++ leBytes 4 e.x ++ leBytes 4 e.y ++ leBytes 4 e.z ++ zeros 4 ++ leBytes 8 e.epc.toNat
    ++ leBytes 8 e.taddr.toNat ++ zeros 8

/-- A write of the part itself at a physical address; outside the ranges of R71 there is nothing to write. -/
def State.physStore (s : State) (pa : Nat) (bs : List Byte) : State := if inMap pa then s.physWrite pa bs else s

/-- A queue error: the record, a notification, and the queue starts no further command; a second one only counts in the error log. -/
def State.queueError (s : State) (q : Nat) (e : QErr) : State :=
  match s.queue q with
  | none => s
  | some k =>
    if k.err then s.logErr kindQueue e.die 0 k.errb
    else
      let s := (s.physStore k.errb.toNat e.bytes).updQueue q (fun x => { x with err := true })
      { s with told := mput s.told k.fn (((mget s.told k.fn).getD 0) + 1) }

/-- The scope that orders what follows a completion; a completion without a word orders at DEV, and a narrow one at DIE (R81, R245). -/
def orderScope (sc : Nat) : Nat := if sc = 0 then 5 else if sc < 4 then 4 else sc

/-- The stronger of the completions that order a command: those before, and one more (R93). -/
def wider (a : Option Nat) (sc : Option Nat) : Option Nat :=
  match sc with
  | some k => some (max (a.getD 0) (orderScope k))
  | none => a

/-- A command of a queue has ended; `scope` is that of its completion, which orders the next commands (R93). -/
def State.cmdEnd (s : State) (q idx : Nat) (scope : Option Nat) : State :=
  s.updQueue q (fun x => { x with running := x.running.filter (fun r => r.idx != idx), lastScope := wider x.lastScope scope })

-- Removal of work

/-- Work of a workgroup that a fault holds. -/
def State.siteIn (s : State) (w : Nat) : FaultSite → Bool
  | .access id => match mget s.accs id with | some a => a.t.wg == w | none => false
  | .fetch t => t.wg == w
  | .record t => t.wg == w
  | .prologue v => v == w
  | f => s.engineSite (((s.wg w).map Workgroup.coreIx).getD 0) w f

/-- A core that holds no workgroup gives up its configuration (R56). -/
def State.tidyCore (s : State) (c : Nat) : State :=
  if s.wgs.any (fun e => e.2.coreIx == c && e.2.resident) then s else s.updCore c (fun x => { x with conf := none })

/-- Removes threads, groups, accesses, faults and engine entries of a workgroup. -/
def State.stripWg (s : State) (w : Nat) : State :=
  let c := ((s.wg w).map Workgroup.coreIx).getD 0
  let s := (s.dropFaults (s.siteIn w)).discardEngines w
  let s := { s with
    accs := s.accs.filter (fun e => e.2.t.wg != w)
    threads := s.threads.filter (fun e => e.1.wg != w)
    groups := s.groups.filter (fun e => e.1.wg != w) }
  s.updCore c (fun x => { x with
    chain := x.chain.filter (fun e => e.wg != w)
    cpyq := x.cpyq.filter (fun e => e.wg != w)
    phaseQ := x.phaseQ.filter (fun e => e.1 != w) })

/-- Frees a workgroup (R342): in a cluster of several it keeps its scratchpad until the last of them ends. With its last workgroup on the core its
slot gives up the lease (R160). -/
def State.freeWg (s : State) (w : Nat) : State :=
  match s.wg w with
  | none => s
  | some g =>
    let slot := s.slotOfWg w
    let s := (s.stripWg w).updWg w (fun x => { x with ended := true, tiles := [], tileNos := [], phrOffs := [] })
    let left := s.wgs.any (fun e => e.2.coreIx == g.coreIx && !e.2.ended && e.2.resident && s.slotOfWg e.1 == slot)
    let s := if left then s else s.giveUpLease g.coreIx slot
    let ms := ((mget s.clusters g.cluster).map Cluster.members).getD [w]
    if ms.all (fun m => ((s.wg m).map Workgroup.ended).getD true) then
      let cs := ms.map (fun m => ((s.wg m).map Workgroup.coreIx).getD 0)
      let s := { s with wgs := s.wgs.filter (fun e => !ms.contains e.1), clusters := mdel s.clusters g.cluster }
      (g.coreIx :: cs).foldl State.tidyCore s
    else s

-- Placement (R26, R58)

/-- Where a group stands on a core. -/
structure Spot where
  quarter : Nat
  row : Nat
  off : Nat
  width : Nat
  base : Nat
  nreg : Nat
deriving DecidableEq, Repr

/-- Groups that hold slots on a core. -/
def State.spots (s : State) (c : Nat) : List Spot :=
  (s.groups.filter (fun e => e.2.status == .running
      && ((s.wg e.1.wg).map (fun w => w.resident && w.coreIx == c)).getD false && !(s.liveThreads e.1).isEmpty)).map
    (fun e => ⟨e.2.quarter, e.2.row, e.2.off, e.2.width, e.2.base, s.nregOf e.1.wg⟩)

def Spot.lanesMeet (p : Spot) (q off w : Nat) : Bool := p.quarter == q && p.off < off + w && off < p.off + p.width

/-- lowest_base of R26; `f` is the column height. -/
def lowestBase (occ : List Spot) (f q off w n : Nat) : Option Nat :=
  ((List.range (f / 8 + 1)).map (8 * ·)).find? (fun b => b + n ≤ f
    && occ.all (fun p => !p.lanesMeet q off w || b + n ≤ p.base || p.base + p.nreg ≤ b))

/-- place_group of R26. -/
def placeGroup (occ : List Spot) (f w n : Nat) : Option Spot :=
  (List.range 16).findSome? (fun row => (List.range 4).findSome? (fun q => ((List.range (64 / w)).map (· * w)).findSome? (fun off =>
    if occ.all (fun p => !(p.row == row && p.lanesMeet q off w)) then
      (lowestBase occ f q off w n).map (fun b => ⟨q, row, off, w, b, n⟩)
    else none)))

/-- Lanes of a group by WCODE (R242). -/
def widthOf (wcode : Nat) : Nat := 8 * 2 ^ wcode

/-- Fields of a partition word (R57). -/
def partRegu (p : Word) : Nat := p.toNat / 2 ^ 25
def partSpad (p : Word) : Nat := p.toNat / 2 ^ 18 % 128
def partAcct (p : Word) : Nat := p.toNat / 2 ^ 15 % 8
def partAccw (p : Word) : Nat := p.toNat / 2 ^ 12 % 8
def partPhr (p : Word) : Nat := p.toNat / 32 % 128

/-- Words in a lane's column. -/
def columnWords (p : Word) : Nat := 16 * partRegu p

-- Phase records (R44)

def State.lrOf (s : State) (w : Nat) : Option Launch := (s.dispOf w).map Dispatch.lr

/-- Size of a phase record. -/
def recordSize (w c : Nat) : Nat := up64 (192 + 64 + 8 * w + 4 * w * c)

/-- The phase record of a group as its threads now stand. -/
def State.phaseRecord (s : State) (g : GroupId) : List Byte :=
  match s.grp g, s.lrOf g.wg with
  | some x, some lr =>
    let ts := s.groupThreads g
    let th := fun (f : Thread → Nat) (t : ThreadId) => ((s.thr t).map (fun y => if y.exited then 0 else f y)).getD 0
    let pred := ts.map (fun t => BitVec.ofNat 8 (((s.thr t).map (fun y => if y.exited then 128 else y.preds.toNat)).getD 0))
    pad64 (leBytes 8 x.npc.toNat ++ leBytes 1 g.gid ++ leBytes 1 lr.wcode ++ leBytes 1 lr.cfirst ++ leBytes 1 lr.ccount
      ++ leBytes 1 x.cause ++ zeros 51 ++ x.sregs.flatMap (fun r => leBytes 4 r.toNat)
      ++ pred ++ zeros (64 - pred.length)
      ++ ts.flatMap (fun t => leBytes 4 (th (fun y => y.fsr.toNat) t)) ++ ts.flatMap (fun t => leBytes 4 (th (fun y => y.fcr.toNat) t))
      ++ (List.range lr.ccount).flatMap (fun k => ts.flatMap (fun t => leBytes 4 (th (fun y => (y.regs.getD (lr.cfirst + k) 0).toNat) t))))
  | _, _ => []

/-- What R43 keeps of a thread across a phase end. -/
def Thread.carry (x : Thread) (first count : Nat) : Thread :=
  { x with
    clause := none
    regs := (List.range x.regs.length).map (fun k => if !x.exited && first ≤ k && k < first + count then x.regs.getD k 0 else 0)
    preds := if x.exited then 0 else x.preds
    fsr := if x.exited then 0 else x.fsr
    fcr := if x.exited then 0 else x.fcr
    trapcause := 0
    epc := 0
    trapaddr := 0
    watch := none
    resume := false }

/-- The core writes a group's phase record and frees its slot and registers (R41 step 2, R46). -/
def State.endPhase (s : State) (g : GroupId) (npc : DWord) (cause : Nat) (st : GStatus) (bar : Option (BarLevel × Nat)) : State :=
  let lr := s.lrOf g.wg
  let first := (lr.map Launch.cfirst).getD 0
  let count := (lr.map Launch.ccount).getD 0
  let s := (s.groupThreads g).foldl (fun s t => s.updThr t (fun x => { (x.carry first count) with pc := npc })) s
  s.updGrp g (fun x => { x with status := st, npc := npc, cause := cause, waitBar := bar, fullSave := false })

-- Barriers (R32-R34)

/-- Group mask of a selector (R33). -/
def selMask (lr : Launch) (sel : Nat) (gid : Nat) : Bool :=
  match sel with
  | 0 => true
  | 1 => lr.m0.getLsbD gid
  | 2 => lr.m1.getLsbD gid
  | _ => false

/-- A group is a member of a barrier of its workgroup or cluster. -/
def State.barMember (s : State) (g : GroupId) (lvl : BarLevel) (n : Nat) : Bool :=
  match s.lrOf g.wg with
  | none => false
  | some lr =>
    match lvl with
    | .grp => true
    | .wg => selMask lr (lr.wgsel.toNat / 4 ^ n % 4) g.gid
    | .cl => selMask lr (lr.clsel.toNat / 4 ^ n % 4) g.gid

/-- Workgroups that a barrier spans. -/
def State.barWgs (s : State) (w : Nat) (lvl : BarLevel) : List Nat :=
  match lvl with
  | .cl => (((s.wg w).bind (fun g => mget s.clusters g.cluster)).map Cluster.members).getD [w]
  | _ => [w]

/-- Member groups of a barrier. -/
def State.barGroups (s : State) (g : GroupId) (lvl : BarLevel) (n : Nat) : List GroupId :=
  match lvl with
  | .grp => [g]
  | _ => (s.barWgs g.wg lvl).flatMap (fun w => (s.wgGroups w).filter (fun h => s.barMember h lvl n))

/-- The barrier completes: every non-exited member has arrived, and no member workgroup is halted or saved (R34, R260). -/
def State.barReady (s : State) (g : GroupId) (lvl : BarLevel) (n : Nat) : Bool :=
  (s.barWgs g.wg lvl).all (fun w => ((s.wg w).map (fun x => x.ended || (x.resident && x.halt == .running))).getD true)
    && ((s.barGroups g lvl n).flatMap s.liveThreads).all (fun t => ((s.thr t).map (fun x => x.wait == .bar lvl n)).getD true)

/-- Appends a group to its core's phase queue; a victim goes to the head (R41, R250). -/
def State.enqueue (s : State) (g : GroupId) (head : Bool) : State :=
  match s.wg g.wg with
  | none => s
  | some w =>
    let e := (g.wg, g.gid, w.wslot)
    (s.updGrp g (fun x => { x with status := .queued, waitBar := none })).updCore w.coreIx
      (fun x => { x with phaseQ := if head then e :: x.phaseQ else x.phaseQ ++ [e] })

/-- Releases a group from a barrier. -/
def State.releaseGroup (s : State) (g : GroupId) : State :=
  let s := (s.liveThreads g).foldl (fun s t => s.updThr t (fun x => { x with wait := .none })) s
  match (s.grp g).map Group.status with
  | some .between => s.enqueue g false
  | some .victim => s.enqueue g true
  | _ => s

/-- BARRIER_COMPLETE, when the barrier can (R34): all members are released together, with the acquire of their scope (R325). -/
def State.tryBar (s : State) (g : GroupId) (lvl : BarLevel) (n : Nat) : State :=
  if s.barReady g lvl n then
    let s := (s.barGroups g lvl n).foldl State.releaseGroup s
    match lvl with
    | .cl => (s.barWgs g.wg lvl).foldl (fun s w => s.acquire (((s.wg w).map Workgroup.coreIx).getD 0) .cl) s
    | _ => s
  else s

/-- Barriers at which threads of a cluster wait. -/
def State.waitedBars (s : State) (w : Nat) : List (GroupId × BarLevel × Nat) :=
  ((s.threads.filter (fun e => (s.barWgs w .cl).contains e.1.wg && !e.2.exited)).filterMap (fun e =>
    match e.2.wait with
    | .bar lvl n => some (e.1.group, lvl, n)
    | _ => none)).eraseDups

/-- Judges anew every barrier of a workgroup's cluster: after an EXIT, an end of a halt or a restore. -/
def State.tryBars (s : State) (w : Nat) : State := (s.waitedBars w).foldl (fun s b => s.tryBar b.1 b.2.1 b.2.2) s

-- Standing at barriers and YIELDs (R39, R414)

/-- Where a waiting thread stands: the barrier level, or none at a YIELD, and the address of the word. -/
def Thread.stand (x : Thread) : Option (Option BarLevel × DWord) :=
  match x.wait with
  | .bar l _ => some (some l, pcBits (x.pc - 8))
  | .yielding => some (none, x.pc)
  | _ => none

/-- The divergent-phase-end condition over where all non-exited threads of a group stand. -/
def diverges (phased : Bool) (ps : List (Option BarLevel × DWord)) : Bool :=
  if ps.any (fun p => p.1 == none) then !(ps.all (fun p => p.1 == none) && (ps.map Prod.snd).eraseDups.length == 1)
  else phased && ps.all (fun p => p.1 != some .grp) && decide (1 < (ps.map Prod.snd).eraseDups.length)

/-- The places of a group's non-exited threads, with those of `ex` standing at `here`; none when one stands nowhere. -/
def State.standing (s : State) (g : GroupId) (ex : List ThreadId) (here : ThreadId → Option BarLevel × DWord) :
    Option (List (Option BarLevel × DWord)) :=
  (s.liveThreads g).foldl (fun acc t =>
    match acc with
    | none => none
    | some ps => if ex.contains t then some (ps ++ [here t]) else ((s.thr t).bind Thread.stand).map (fun p => ps ++ [p])) (some [])

def State.wouldDiverge (s : State) (g : GroupId) (ex : List ThreadId) (lvl : Option BarLevel) : Bool :=
  match s.standing g ex (fun t => (lvl, ((s.thr t).map Thread.pc).getD 0)) with
  | some ps => diverges (s.phased g.wg) ps
  | none => false

-- The context save area (R253, R254)

def csaHeader (nblk used : Nat) : List Byte := leBytes 4 1 ++ leBytes 4 nblk ++ leBytes 8 used ++ zeros 48

/-- Appends a block to a queue's area; none when it would pass CSAS. -/
def State.csaAppend (s : State) (q : Nat) (blk : List Byte) : State × Option Nat :=
  match s.queue q with
  | none => (s, none)
  | some k =>
    let fresh := k.csaUsed = 0
    let off := up64 (if fresh then 64 else k.csaUsed)
    let used := off + blk.length
    let n := (if fresh then 0 else k.csaBlks) + 1
    if k.csas.toNat < used then (s, none)
    else
      let s := (s.physStore (k.csab.toNat + off) blk).physStore k.csab.toNat (csaHeader n used)
      (s.updQueue q (fun x => { x with csaUsed := used, csaBlks := n }), some off)

/-- An area whose saved work has all been restored holds none (R253). -/
def State.csaIdle (s : State) (q : Nat) : State :=
  match s.queue q with
  | none => s
  | some k =>
    let victims := s.groups.any (fun e => e.2.status == .victim && ((s.dispOf e.1.wg).map (fun d => d.queue == q)).getD false)
    let gfx := s.disps.any (fun e => e.2.queue == q && ((e.2.gfx.map (fun g => !g.bks.isEmpty)).getD false))
    if k.savedWgs.isEmpty && k.savedCopies.isEmpty && !victims && !gfx then s.updQueue q (fun x => { x with csaUsed := 0, csaBlks := 0 }) else s

/-- A thread record (R254). -/
def Thread.record (x : Thread) : List Byte :=
  let tst := if x.exited then 1 else match x.wait with | .bar _ _ => 2 | _ => 0
  let targ := if x.exited then 0 else match x.wait with
    | .bar .grp n => n
    | .bar .wg n => 64 + n
    | .bar .cl n => 128 + n
    | _ => 0
  leBytes 8 x.savedPc.toNat ++ leBytes 1 tst ++ leBytes 1 targ ++ leBytes 1 x.preds.toNat ++ zeros 1 ++ leBytes 4 x.fsr.toNat
    ++ leBytes 4 x.fcr.toNat ++ leBytes 9 x.flags.toNat ++ zeros 3

/-- FORM of a group section (R254, R262). -/
def State.formOf (s : State) (g : GroupId) : Nat :=
  if (s.liveThreads g).isEmpty then 2
  else match s.grp g with
    | some x =>
      (match x.status with
        | .between => 1
        | .yielded => 1
        | .queued => if x.fullSave then 0 else 1
        | .saved => if x.fullSave then 0 else 1
        | _ => 0)
    | none => 2

/-- A group section (R254). -/
def State.groupSection (s : State) (g : GroupId) : List Byte :=
  match s.grp g with
  | none => []
  | some x =>
    let form := s.formOf g
    let ts := s.groupThreads g
    let hdr := leBytes 1 g.gid ++ leBytes 1 form ++ leBytes 1 x.skid ++ zeros 1 ++ leBytes 2 x.stage ++ zeros 2
      ++ (List.range 16).flatMap (fun k => leBytes 2 (x.rels.getD k 0)) ++ zeros 24
    let full := x.sregs.flatMap (fun r => leBytes 4 r.toNat) ++ ts.flatMap (fun t => ((s.thr t).map Thread.record).getD (zeros 32))
      ++ (List.range (s.nregOf g.wg)).flatMap (fun k => ts.flatMap (fun t => leBytes 4 (s.vreg t k).toNat))
    hdr ++ (match form with | 0 => full | 1 => s.phaseRecord g | _ => [])

/-- PROG of a copy command (R178). -/
def CopyRun.prog (r : CopyRun) : List Byte := leBytes 8 (r.flags.toNat * 2 ^ 60 + r.iter % 2 ^ 16 * 2 ^ 32 + r.elem % 2 ^ 32)
def CopyRun.bytes (r : CopyRun) : List Byte := putFld r.cmd 32 r.prog

/-- A saved matrix-chain entry; the spec gives no layout (log 13). -/
def MxEntry.bytes (e : MxEntry) : List Byte :=
  let kind := match e.op with | .mma _ _ _ _ _ _ => 0 | .accld _ _ _ => 1 | .accst _ _ _ => 2 | .accz _ => 3
  let ops : List Word := match e.op with
    | .mma _ a b c d _ => [a, b, c, d]
    | .accld a b t => [a, b, BitVec.ofNat 32 t]
    | .accst a b t => [a, b, BitVec.ofNat 32 t]
    | .accz t => [BitVec.ofNat 32 t]
  let more : List Byte := match e.op with
    | .mma blk _ _ _ _ rb => blk ++ rb.flatMap (fun r => r.flatMap (fun w => leBytes 4 w.toNat))
    | _ => []
  pad64 (leBytes 1 kind ++ leBytes 1 e.gid ++ leBytes 1 (e.flag.getD 15) ++ leBytes 1 e.flags.toNat ++ leBytes 4 e.slab ++ leBytes 8 e.seq
    ++ ops.flatMap (fun w => leBytes 4 w.toNat)) ++ pad64 more

/-- Matrix-chain and CPY entries of a workgroup, wherever they are held. -/
def State.mxOf (s : State) (w : Nat) : List MxEntry :=
  match s.wg w with
  | none => []
  | some g => if g.resident then (s.core g.coreIx).chain.filter (fun e => e.wg == w) else g.mxSaved
def State.cpyOf (s : State) (w : Nat) : List CpyEntry :=
  match s.wg w with
  | none => []
  | some g => if g.resident then (s.core g.coreIx).cpyq.filter (fun e => e.wg == w) else g.cpySaved

/-- The workgroup block, type 1 (R253). -/
def State.wgBlock (s : State) (w : Nat) (state cause : Nat) : List Byte :=
  match s.wg w, s.dispOf w with
  | some g, some d =>
    let mx := s.mxOf w
    let cp := s.cpyOf w
    let spad := Mem.dump (up64 d.lr.spb) 0 g.spad
    let body := (s.wgGroups w).flatMap s.groupSection ++ spad ++ g.tiles.flatMap (fun m => Mem.dump 65536 0 m)
      ++ mx.flatMap MxEntry.bytes ++ cp.flatMap (fun e => e.run.bytes) ++ g.sched.flatMap (fun e => leBytes 4 e.next)
    let size := 64 + up64 body.length
    leBytes 1 1 ++ leBytes 1 state ++ leBytes 1 g.ngrp ++ leBytes 1 d.lr.wcode ++ leBytes 1 d.lr.nreg ++ leBytes 1 (partAccw d.lr.part)
      ++ leBytes 1 g.die ++ leBytes 1 g.core ++ leBytes 8 size ++ leBytes 8 d.lrec.toNat ++ leBytes 4 g.x ++ leBytes 4 g.y
      ++ leBytes 4 g.z ++ leBytes 4 spad.length ++ leBytes 1 (g.baton.getD 0xFF) ++ leBytes 1 cause ++ leBytes 2 mx.length
      ++ leBytes 2 cp.length ++ zeros 18 ++ pad64 body
  | _, _ => []

/-- The cluster block, type 2 (R253): the channels of a cluster. -/
def clusterBlock (c : Cluster) : List Byte :=
  let body := c.chans.flatMap (fun ws => leBytes 2 ws.length ++ zeros 62 ++ ws.flatMap (fun w => leBytes 4 w.toNat) ++ zeros (1024 - 4 * ws.length))
  leBytes 1 2 ++ zeros 7 ++ leBytes 8 (64 + body.length) ++ zeros 48 ++ body

/-- The victim block, type 5 (R253): header fields that identify the workgroup, and one group section. -/
def State.victimBlock (s : State) (g : GroupId) : List Byte :=
  match s.wg g.wg, s.dispOf g.wg with
  | some w, some d =>
    let body := s.groupSection g
    leBytes 1 5 ++ zeros 1 ++ leBytes 1 w.ngrp ++ leBytes 1 d.lr.wcode ++ leBytes 1 d.lr.nreg ++ leBytes 1 (partAccw d.lr.part)
      ++ leBytes 1 w.die ++ leBytes 1 w.core ++ leBytes 8 (64 + up64 body.length) ++ leBytes 8 d.lrec.toNat ++ leBytes 4 w.x ++ leBytes 4 w.y
      ++ leBytes 4 w.z ++ zeros 28 ++ pad64 body
  | _, _ => []

-- The end of dispatches and queues

/-- The dispatch that holds a die's bucket memory or a window of it. -/
def Die.bkOwner (x : Die) : Option Nat := match x.bkState with | .graphics n => some n | .window n _ => some n | .idle => none

/-- Units and bucket memory give up a dispatch; bucket memory does not keep its contents (R214). -/
def State.dropDispUnits (s : State) (d : Nat) : State :=
  let held := s.dies.any (fun x => x.bkState == .graphics d)
  let s := if held then s.dropFaults (fun f => match f with | .dicer _ => true | .binner _ => true | .raster _ _ => true | _ => false) else s
  { s with dies := s.dies.map (fun (x : Die) =>
      let x := { x with
        dicing := x.dicing.filter (fun p => p.disp != d)
        toBin := x.toBin.filter (fun p => p.disp != d)
        diceFault := x.diceFault && !held
        binFault := x.binFault && !held
        rasters := if held then x.rasters.map (fun _ => .idle) else x.rasters }
      if x.bkOwner = some d then { x with bkState := .idle, bk := [], bkDraw := some s.fresh } else x) }.bump

/-- A failed graph instance ends when no node of it runs any more (R245). -/
def State.graphReap (s : State) (i : Nat) : State :=
  match mget s.graphs i with
  | none => s
  | some g =>
    if g.failed && g.nodes.all (fun n => match n.2.2 with | some (some _) => false | _ => true) then
      { s with graphs := mdel s.graphs i }.cmdEnd g.queue g.cmd none
    else s

/-- A node of a graph instance has ended; `ok` when it completed. -/
def State.graphNode (s : State) (n : Nat × Nat) (ok : Bool) : State :=
  let s := { s with graphs := mupd s.graphs n.1 (fun g => { g with
    failed := g.failed || !ok
    nodes := lmod g.nodes n.2 (fun x => (x.1, x.2.1, some none)) }) }
  s.graphReap n.1

/-- A failed dispatch leaves when its last workgroup is freed. -/
def State.dispReap (s : State) (d : Nat) : State :=
  match s.disp d with
  | none => s
  | some x =>
    if x.fin = .failed && !(s.wgs.any (fun e => e.2.disp == d && !e.2.ended)) then
      let s := s.dropDispUnits d
      let s := s.dropFaults (fun f => match f with | .hubDone e => e == d | _ => false)
      let s := { s with disps := mdel s.disps d, wgs := s.wgs.filter (fun e => e.2.disp != d), clusters := s.clusters.filter (fun e => e.2.disp != d) }
      match x.node with
      | some n => s.graphNode n false
      | none => s.cmdEnd x.queue x.cmd none
    else s

/-- The work of a slot or queue that the engines hold goes. -/
def State.dropQueueUnits (s : State) (q : Nat) : State :=
  let keep := fun (h : Chain) => h.queue != q
  let s := { s with
    cores := s.cores.map (fun (e : Nat × Core) => (e.1, { e.2 with chains := e.2.chains.filter keep, qcopy := mdel e.2.qcopy q }))
    dies := s.dies.map (fun (x : Die) => { x with layout := x.layout.filter keep, coll := x.coll.filter keep }) }
  { s with faults := s.faults.filter (fun e => e.2.queue != q) }

/-- A fatal queue error discards the queue's work, HEAD := TAIL, and disables the queue (R255). -/
def State.fatalQueue (s : State) (q : Nat) : State :=
  match s.queue q with
  | none => s
  | some k =>
    let ds := (s.disps.filter (fun e => e.2.queue == q)).map Prod.fst
    let s := ((s.wgs.filter (fun e => ds.contains e.2.disp)).map Prod.fst).foldl (fun s w => s.freeWg w) s
    let s := ds.foldl State.dropDispUnits s
    let s := s.dropQueueUnits q
    let s := { s with disps := s.disps.filter (fun e => e.2.queue != q), graphs := s.graphs.filter (fun e => e.2.queue != q) }
    let s := s.updQueue q (fun x => { x with
      head := x.tail, running := [], savedWgs := [], savedCopies := [], csaUsed := 0, csaBlks := 0, readFault := false })
    let s := s.physStore (k.desc.toNat + 32) (leBytes 8 k.tail.toNat)
    s.queueError q { code := 6, cmd := k.tail.toNat }

-- Saves (R249-R251)

def State.preempting (s : State) (d : Nat) : Bool := ((s.disp d).map (fun x => (s.slot x.slot).asked)).getD false

/-- A group is quiescent (R249). -/
def State.quiescent (s : State) (g : GroupId) : Bool :=
  (s.liveThreads g).isEmpty || ((s.grp g).map (fun x => x.status != .running)).getD true

/-- Instruction-level save of a group (R251): every thread keeps its state and the address it goes on from; a thread that waits elsewhere
than at a barrier executes its instruction again (R254). -/
def Thread.freeze (x : Thread) : Thread :=
  let mid := match x.clause with | some c => c.wait == 0 | none => x.resume
  { x with
    pc := x.savedPc
    clause := none
    resume := mid && !x.exited
    watch := none
    wait := (match x.wait with | .bar l n => .bar l n | _ => .none) }

def State.freezeGroup (s : State) (g : GroupId) (st : GStatus) : State :=
  let s := (s.groupThreads g).foldl (fun s t => s.updThr t Thread.freeze) s
  s.updGrp g (fun x => { x with status := st, fullSave := true })

/-- PROG of a stopped command is written where the command stands, if its page translates (R178, R100). -/
def State.progStore (s : State) (c ctx : Nat) (r : CopyRun) : State :=
  match s.xlate (c / 32) ctx ((r.addr.toNat + 32) % 2 ^ 60) { w := true } with
  | (s, .ok x) => (s.l2Write (c / 32) x.pa x.attr r.prog).dropCopy c (lineOf x.pa)
  | (s, .error _) => s

/-- The command has nothing left to run: all its iterations, or for a schedule entry the iteration that is its next one. -/
def CopyRun.ran (r : CopyRun) (next : Option Nat) : Bool :=
  r.shape.isSome && (match next with
    | some n => r.iter != n
    | none => fld r.cmd 60 2 ≤ r.iter)

/-- A stopped command reads its shape record again when it goes on (R179); one that only has its completion left goes on there. -/
def CopyRun.pause (r : CopyRun) (next : Option Nat) : CopyRun := { r with shape := if r.ran next then r.shape else none, fault := false }

/-- The running copy commands of a workgroup stop at a run (R192): a chain entry goes back to its ring, with its PROG. -/
def State.stopCommands (s : State) (c w : Nat) : State :=
  let s := s.dropFaults (s.engineSite c w)
  let s := ((s.core c).chains.filter (fun h => h.owner == some w)).foldl (fun s h =>
    match h.cur with
    | some r => if r.2.ran none then s else s.progStore c h.ctx r.2
    | none => s) s
  let s := s.updCore c (fun x => { x with
    chains := x.chains.map (fun h => if h.owner = some w then
      { h with cur := h.cur.bind (fun r => if r.2.ran none then some (r.1, r.2.pause none) else none), fault := false } else h)
    cpyq := x.cpyq.map (fun e => if e.wg = w then { e with run := e.run.pause none } else e)
    chain := x.chain.map (fun e => if e.wg = w then { e with fault := false } else e) })
  s.updWg w (fun x => { x with sched := x.sched.map (fun e => { e with run := (e.run.filter (fun r => !r.cmd.isEmpty)).map (fun r => r.pause (some e.next)) }) })

/-- WORKGROUP_SAVE: the block goes into the save area and the core gives up the workgroup; `false` when the area is full. -/
def State.saveWg (s : State) (w : Nat) : State × Bool :=
  match s.wg w, s.dispOf w with
  | some g, some d =>
    let c := g.coreIx
    let run := (s.wgGroups w).filter (fun h => !s.quiescent h)
    let s := run.foldl (fun s h => s.freezeGroup h .running) s
    let s := (s.writeBackTag c g.wslot).stopCommands c w
    match s.csaAppend d.queue (s.wgBlock w 0 0) with
    | (s, none) => (s, false)
    | (s, some off) =>
      let mx := s.mxOf w
      let cp := s.cpyOf w
      let s := (s.wgGroups w).foldl (fun s h => s.updGrp h (fun x => { x with status := .saved })) s
      let s := s.updCore c (fun x => { x with
        chain := x.chain.filter (fun e => e.wg != w)
        cpyq := x.cpyq.filter (fun e => e.wg != w)
        phaseQ := x.phaseQ.filter (fun e => e.1 != w) })
      let s := s.updWg w (fun x => { x with resident := false, saveOff := off, mxSaved := mx, cpySaved := cp, tileNos := [], phrOffs := [] })
      let s := s.updQueue d.queue (fun x => { x with savedWgs := x.savedWgs ++ [w] })
      let s := s.giveUpLease c d.slot
      -- the channels of a cluster go with its last member
      let ms := ((mget s.clusters g.cluster).map Cluster.members).getD [w]
      let s := if d.lr.chen && ms.all (fun m => ((s.wg m).map (fun x => !x.resident || x.ended)).getD true) then
          (match mget s.clusters g.cluster with
            | some cl => (match s.csaAppend d.queue (clusterBlock cl) with
              | (s, some _) => (s, true)
              | (s, none) => (s, false))
            | none => (s, true))
        else (s, true)
      ((s.1.tidyCore c), s.2)
  | _, _ => (s, true)

/-- Saves a workgroup; a full area is a fatal queue error (R255). -/
def State.saveOrDie (s : State) (w : Nat) : State :=
  let q := ((s.dispOf w).map Dispatch.queue).getD 0
  match s.saveWg w with
  | (s, true) => s
  | (s, false) => s.fatalQueue q

/-- A group is a victim (R250). -/
def State.isVictim (s : State) (g : GroupId) : Bool :=
  let ts := s.liveThreads g
  !ts.isEmpty && ((s.grp g).map (fun x => x.status == .running)).getD false
    && ts.all (fun t => ((s.thr t).map (fun x => x.flagsZero && (match x.wait with | .bar .wg _ => true | .bar .cl _ => true | _ => false))).getD false)
    && ts.all (fun t => !s.accs.any (fun e => e.2.isOf t))

/-- VICTIM_SAVE (R250). -/
def State.saveVictim (s : State) (g : GroupId) : State :=
  let q := ((s.dispOf g.wg).map Dispatch.queue).getD 0
  let s := s.freezeGroup g .victim
  match s.csaAppend q (s.victimBlock g) with
  | (s, some _) => s
  | (s, none) => s.fatalQueue q

/-- In a slot being pre-empted, victims are saved as they come to wait, and a workgroup is saved once every group of it is quiescent
(R249, R250). -/
def State.trySave (s : State) (w : Nat) : State :=
  match s.wg w with
  | none => s
  | some g =>
    let s := if g.resident && !g.ended && g.halt == .running && s.preempting g.disp then
        ((s.wgGroups w).filter s.isVictim).foldl (fun s h => s.saveVictim h) s
      else s
    let live := (s.wgGroups w).any (fun h => !(s.liveThreads h).isEmpty)
    let ends := s.mxOf w == [] && s.cpyOf w == []
    if g.resident && !g.ended && g.halt == .running && s.preempting g.disp && (s.wgGroups w).all s.quiescent && (live || !ends) then s.saveOrDie w
    else s

-- Phase ends and YIELDs

/-- When all non-exited threads of a group stand at one BAR of a phased run, or at one YIELD, the group's phase ends (R41, R414). -/
def State.tryPhaseEnd (s : State) (g : GroupId) : State :=
  match s.standing g [] (fun _ => (none, 0)), s.liveThreads g with
  | some ps, t :: _ =>
    match s.thr t with
    | none => s
    | some x =>
      if diverges (s.phased g.wg) ps then s
      else match x.wait with
        | .bar l n => if s.phased g.wg && ps.all (fun p => p.1 != some .grp) then s.endPhase g x.pc 0 .between (some (l, n)) else s
        | .yielding =>
          let held := ((s.grp g).map Group.preq).getD false
          let s := s.endPhase g (if x.clause.isSome then x.afterClause else x.pc) 1 (if held then .yielded else .queued) none
          let s := (s.liveThreads g).foldl (fun s t => s.updThr t (fun y => { y with wait := .none })) s
          if held then s else s.enqueue g false
        | _ => s
  | _, _ => s

/-- Places a group of the phase queue: it takes its spot, and its threads go on from their record or, for a victim, as they were (R41
step 4, R250). -/
def State.wakeAt (s : State) (g : GroupId) (p : Spot) : State :=
  s.updGrp g (fun x => { x with status := .running, quarter := p.quarter, row := p.row, off := p.off, base := p.base, waitBar := none, fullSave := false })

/-- PHASE_QUEUE_SCAN (R42): from the head, every task that can be placed is. -/
def State.scanPhaseQ (s : State) (c : Nat) : State :=
  (s.core c).phaseQ.foldl (fun (s : State) (e : Nat × Nat × Nat) =>
    let g : GroupId := ⟨e.1, e.2.1⟩
    match s.grp g, s.lrOf e.1 with
    | some x, some lr =>
      match placeGroup (s.spots c) (columnWords lr.part) x.width lr.nreg with
      | some p =>
        let q := ((s.dispOf e.1).map Dispatch.queue).getD 0
        ((s.wakeAt g p).updCore c (fun k => { k with phaseQ := k.phaseQ.erase e })).csaIdle q
      | none => s
    | _, _ => s) s

def execPhaseQueueScan (core : Nat) (s : State) : Host.Outcome State Fault Refusal := .next (s.scanPhaseQ core)

-- Aborts (R262)

/-- The halt broadcast of an abort reaches a workgroup that runs, or takes over a halt in progress. -/
def State.abortHalt (s : State) (w : Nat) : State :=
  match (s.wg w).map Workgroup.halt with
  | some .running => (s.wgGroups w).foldl State.broadcast (s.updWg w (fun x => { x with halt := .skidding true }))
  | some .handler => s.updWg w (fun x => { x with halt := .skidding true })
  | some (.skidding false) => s.updWg w (fun x => { x with halt := .skidding true })
  | _ => s

/-- Writes a halted workgroup's block, with the CAUSE of its own first trap, and frees it. -/
def State.abortWg (s : State) (w : Nat) : State :=
  match s.wg w, s.dispOf w with
  | some g, some d =>
    match s.csaAppend d.queue (s.wgBlock w 1 ((g.firstTrap.map TrapRec.cause).getD 0)) with
    | (s, some _) => s.freeWg w
    | (s, none) => s.fatalQueue d.queue
  | _, _ => s

/-- The error record of an aborted workgroup. -/
def State.abortError (s : State) (w code : Nat) : QErr :=
  match s.wg w, s.dispOf w with
  | some g, some d =>
    let f := g.firstTrap.getD ⟨0, 0, 0, 0, 0⟩
    { code := code, cause := f.cause, second := f.second, die := g.die, core := g.core, cmd := d.cmd, lrec := d.lrec
      x := g.x, y := g.y, z := g.z, epc := f.epc, taddr := f.taddr }
  | _, _ => { code := code }

/-- The dispatch of an aborted workgroup ends with a queue error; its other workgroups halt, and its saved ones become halted blocks. -/
def State.failDispatch (s : State) (d : Nat) (e : QErr) : State :=
  match s.disp d with
  | none => s
  | some x =>
    if x.fin = .failed then s
    else
      let s := s.queueError x.queue e
      let s := s.updDisp d (fun y => { y with fin := .failed })
      let s := match x.node with
        | some n => { s with graphs := mupd s.graphs n.1 (fun g => { g with failed := true }) }
        | none => s
      let ws := s.wgs.filter (fun p => p.2.disp == d && !p.2.ended)
      let s := (ws.filter (fun p => p.2.resident)).foldl (fun s p => s.abortHalt p.1) s
      (ws.filter (fun p => !p.2.resident)).foldl (fun s p =>
        let base := ((s.queue x.queue).map (fun k => k.csab.toNat)).getD 0
        let s := s.physStore (base + p.2.saveOff + 1) [1]
        (s.updQueue x.queue (fun k => { k with savedWgs := k.savedWgs.filter (· != p.1) })).freeWg p.1) s

/-- A workgroup is aborted: its dispatch fails, its block is written and it is freed (R262). -/
def State.abortGo (s : State) (w code : Nat) : State :=
  match s.wg w with
  | none => s
  | some g => (((s.failDispatch g.disp (s.abortError w code))).abortWg w).dispReap g.disp

/-- An engine command of a workgroup fails (R162, R192): its other entries are discarded and it is aborted with CODE 4. -/
def State.engineFail (s : State) (w : Nat) : State :=
  match s.wg w with
  | none => s
  | some g => ((s.discardEngines w).failDispatch g.disp { s.abortError w 4 with cause := 0, second := 0, epc := 0, taddr := 0 }).abortHalt w

-- The end of the halt broadcast (R258)

/-- A thread may issue as far as its own state, its group's and its workgroup's halt go (R16, R258, R260). -/
def State.awake (s : State) (t : ThreadId) : Bool :=
  match s.thr t, s.grp t.group, s.wg t.wg with
  | some x, some g, some w =>
    !x.exited && x.wait == .none && g.status == .running && w.resident && !w.ended && w.sched.all (fun e => e.dring.isSome || e.failed) && w.nextBind == ((s.dispOf t.wg).map (fun d => d.lr.nbind)).getD 0
      && (match w.halt with
        | .running => true
        | .skidding _ => !x.sys && !x.trapped && !x.stopped && !g.halted && (x.clause.isSome || g.skid < g.quota)
        | .handler => x.sys && !x.trapped && !x.stopped)
  | _, _, _ => false

/-- The thread cannot move by itself now. -/
def State.stuck (s : State) (t : ThreadId) : Bool :=
  !s.awake t || ((s.thr t).map (fun x => match x.clause with | some c => flagsBusy x.flags c.wait | none => false)).getD true
    || !(s.groupFaults t.group).isEmpty

/-- The groups of a skidding workgroup that have stopped are marked so. -/
def State.markHalted (s : State) (w : Nat) : State :=
  (s.wgGroups w).foldl (fun s g => if (s.liveThreads g).all s.stuck then s.updGrp g (fun x => { x with halted := true }) else s) s

/-- The workgroup has come to rest: every group stopped and no access left that can still be performed. -/
def State.atRest (s : State) (w : Nat) : Bool :=
  (s.wgGroups w).all (fun g => ((s.grp g).map (fun x => x.halted || x.status != .running)).getD true)
    && !(s.accs.any (fun e => e.2.t.wg == w && s.canPerform e.1 e.2))

/-- The end of a halt broadcast: the handler may run, or the workgroup is aborted (R260, R262). -/
def State.settleWg (s : State) (w : Nat) : State :=
  match (s.wg w).map Workgroup.halt with
  | some (.skidding abort) =>
    let s := s.markHalted w
    if s.atRest w then (if abort then s.abortGo w 3 else s.updWg w (fun x => { x with halt := .handler })) else s
  | _ => s

/-- After every step the halts in progress are looked at. -/
def State.settle (s : State) : State := ((s.wgs.filter (fun e => e.2.halt != .running)).map Prod.fst).foldl State.settleWg s

-- The end of a workgroup (R342)

/-- Every thread has exited, and everything it gave to the engines is complete. -/
def State.canEnd (s : State) (w : Nat) : Bool :=
  match s.wg w with
  | none => false
  | some g =>
    g.resident && !g.ended && g.halt == .running && (s.wgGroups w).all (fun h => (s.liveThreads h).isEmpty)
      && !(s.accs.any (fun e => e.2.t.wg == w)) && s.mxOf w == [] && s.cpyOf w == []
      && g.sched.all (fun e => e.run.isNone)
      && s.cores.all (fun c => c.2.chains.all (fun h => h.pubs.all (fun p => p.2 != w)))
      && s.dies.all (fun d => d.layout.all (fun h => h.pubs.all (fun p => p.2 != w)) && d.coll.all (fun h => h.pubs.all (fun p => p.2 != w)))

/-- WORKGROUP_END: its resources are released. -/
def State.endWg (s : State) (w : Nat) : State :=
  match s.wg w with
  | none => s
  | some g =>
    if s.canEnd w then
      ((s.updDisp g.disp (fun d => { d with live := d.live - 1 })).freeWg w).dispReap g.disp
    else s


end Sys2Proof.Machine
end

