-- ==== Sys2Proof/Machine/Control.lean ====
section
/-! DEFINITION. Control words: branches and calls (R331, R333, R396), EXIT (R341), JOIN (R21, R364), YIELD (R414), traps and their return
(R330, R340, R409), barriers (R324-R326), the ember baton (R157-R159, R338), STAGE (R181), system registers (R355-R357, R399), and the
start of a clause (R264-R266). -/
namespace Sys2Proof.Machine

/-- Keeps a thread at the word that it has just executed, waiting. -/
def State.holdAt (s0 s : State) (t : ThreadId) (w : Wait) : State :=
  s.updThr t (fun x => { x with
    pc := ((s0.thr t).map Thread.pc).getD x.pc
    clause := ((s0.thr t).map Thread.clause).getD x.clause
    wait := w })

-- Branches

/-- Target of an X-format branch: w + 8 x sign_extend(IMM32) (R275). -/
def State.brTarget (s : State) (t : ThreadId) (imm : Word) : DWord := ((s.thr t).map Thread.pc).getD 0 + (imm.signExtend 64 <<< 3)

/-- The address of the header that follows the thread's clause (R333). -/
def State.linkOf (s : State) (t : ThreadId) : DWord := ((s.thr t).map Thread.afterClause).getD 0

/-- A register target with bits 63:60 or 2:0 nonzero is refused (R331). -/
def targetOk (a : DWord) : Bool := hi4zero a && a.toNat % 8 == 0

def brLane (imm : Word) : LaneFn := fun s _ t => .fx { jump := some (s.brTarget t imm) }
def brxLane (f : OwnF) : LaneFn := fun s _ t =>
  let a := s.rd64 t f.a
  if targetOk a then .fx { jump := some a } else .trap (illegalState a)
def callLane (d : Opnd) (imm : Word) : LaneFn := fun s _ t => .fx { wr64 d (s.linkOf t) with jump := some (s.brTarget t imm) }
def callxLane (f : OwnF) : LaneFn := fun s _ t =>
  let a := s.rd64 t f.a
  if targetOk a then .fx { wr64 f.d (s.linkOf t) with jump := some a } else .trap (illegalState a)

def execBr (g : Guard) (imm : Word) (s : State) : Host.Outcome State Fault Refusal := runLanes (.br g imm) (brLane imm) s
def execBrx (f : OwnF) (s : State) : Host.Outcome State Fault Refusal := runLanes (.brx f) (brxLane f) s
def execCall (g : Guard) (d : Opnd) (imm : Word) (s : State) : Host.Outcome State Fault Refusal :=
  runLanes (.call g d imm) (callLane d imm) s
def execCallx (f : OwnF) (s : State) : Host.Outcome State Fault Refusal := runLanes (.callx f) (callxLane f) s
def execRet (f : OwnF) (s : State) : Host.Outcome State Fault Refusal := runLanes (.ret f) (brxLane f) s

-- The ember baton (R157-R159)

/-- A group belongs to the ring of the baton. -/
def inRing (lr : Launch) (gid : Nat) : Bool :=
  match lr.batonSel with
  | 1 => true
  | 2 => lr.m0.getLsbD gid
  | 3 => lr.m1.getLsbD gid
  | _ => false

/-- The next member in ring order, after `gid`, that has a non-exited thread. -/
def State.nextHolder (s : State) (w gid : Nat) : Option Nat :=
  match s.wg w, s.lrOf w with
  | some g, some lr => ((List.range g.ngrp).map (fun k => (gid + 1 + k) % g.ngrp)).find? (fun k =>
      k != gid && inRing lr k && !(s.liveThreads ⟨w, k⟩).isEmpty)
  | _, _ => none

/-- The baton passes to the next member, whose threads waiting at ETAKE execute it again; without another member the giver keeps it. -/
def State.passBaton (s : State) (w gid : Nat) : State :=
  match s.nextHolder w gid with
  | none => s
  | some k =>
    let s := s.updWg w (fun x => { x with baton := some k })
    (s.groupThreads ⟨w, k⟩).foldl (fun s t => s.updThr t (fun x => { x with wait := if x.wait = .etake then .none else x.wait })) s

def State.holdsBaton (s : State) (g : GroupId) : Bool := ((s.wg g.wg).map (fun w => w.baton == some g.gid)).getD false
def State.ringMember (s : State) (g : GroupId) : Bool := ((s.lrOf g.wg).map (fun lr => inRing lr g.gid)).getD false

def etakeCheck (s : State) (g : GroupId) (_ : List ThreadId) : Option TrapInfo := if s.ringMember g then none else some (illegalState)
def egiveCheck (s : State) (g : GroupId) (_ : List ThreadId) : Option TrapInfo :=
  if s.ringMember g && s.holdsBaton g then none else some (illegalState)

def etakeGo (s : State) (g : GroupId) (_ : List ThreadId) : GroupFx := (s, if s.holdsBaton g then none else some .etake)
def egiveGo (s : State) (g : GroupId) (_ : List ThreadId) : GroupFx := (s.passBaton g.wg g.gid, none)

def execEtake (f : OwnF) (s : State) : Host.Outcome State Fault Refusal := runGroups (.etake f) etakeCheck etakeGo s
def execEgive (f : OwnF) (s : State) : Host.Outcome State Fault Refusal := runGroups (.egive f) egiveCheck egiveGo s

-- JOIN (R21, R364)

/-- Releases a group from JOIN when every non-exited thread stands at the same one. -/
def State.tryJoin (s : State) (g : GroupId) : State :=
  let ts := s.liveThreads g
  match ts with
  | [] => s
  | t0 :: _ =>
    let pc := (s.thr t0).map Thread.pc
    if ts.all (fun t => ((s.thr t).map (fun x => x.wait == .join && some x.pc == pc)).getD false) then
      ts.foldl (fun s t => s.updThr t (fun x => ({ x with wait := .none } : Thread).advance)) s
    else s

def joinPost (s0 s : State) (ex : List ThreadId) : State :=
  (groupsOf ex).foldl State.tryJoin (ex.foldl (fun z t => State.holdAt s0 z t .join) s)

def execJoin (f : OwnF) (s : State) : Host.Outcome State Fault Refusal :=
  .next (s.lanesThen (.join f) (fun _ _ _ => .fx {}) (fun s' ex => joinPost s s' ex))

/-- JOIN_TIMEOUT: 256 cycles have passed since the thread arrived, which can be so at any moment (R21). -/
def execJoinTimeout (t : ThreadId) (s : State) : Host.Outcome State Fault Refusal :=
  .next (match s.thr t with
    | some x => if x.wait = .join then s.updThr t (fun x => ({ x with wait := .none } : Thread).advance) else s
    | none => s)

-- EXIT (R341)

/-- Scope of the release at EXIT (R84). -/
def exitScope (cwsc : Nat) : Scope := if cwsc = 6 then .sys else if cwsc = 5 || cwsc = 0 then .dev else .die

/-- What the remaining threads of a group meet when one has exited: a divergent phase end, or the end of their phase (R39, R341). -/
def State.afterExit (s : State) (g : GroupId) : State :=
  let live := s.liveThreads g
  let s := if live.isEmpty && s.holdsBaton g then s.passBaton g.wg g.gid else s
  match s.standing g [] (fun _ => (none, 0)), live with
  | some ps, _ :: _ =>
    if diverges (s.phased g.wg) ps then
      let places := live.map (fun t => (t, ((s.thr t).bind Thread.stand).map Prod.snd))
      let s := places.foldl (fun s p => s.updThr p.1 (fun x => { x with pc := p.2.getD x.pc, wait := .none, resume := true, clause := none })) s
      s.takeTraps live (live.map (fun t => (t, { cause := 3 }))) Thread.pc
    else s.tryPhaseEnd g
  | _, _ => s.tryJoin g

def exitThread (s : State) (t : ThreadId) : State :=
  let sc := exitScope (((s.lrOf t.wg).map Launch.cwsc).getD 0)
  (s.release (s.coreOf t) (s.tagOf t.wg) sc).updThr t (fun x => { x with exited := true, clause := none, wait := .none })

def exitPost (s : State) (ex : List ThreadId) : State :=
  let s := ex.foldl exitThread s
  let s := (groupsOf ex).foldl State.afterExit s
  let ws := (ex.map ThreadId.wg).eraseDups
  ws.foldl (fun s w => (((s.leaveHandler w).tryBars w).trySave w)) s

def execExit (f : OwnF) (s : State) : Host.Outcome State Fault Refusal :=
  .next (s.lanesThen (.exit f) (fun _ _ _ => .fx {}) exitPost)

-- YIELD (R414)

def yieldLane : LaneFn := fun s ex t =>
  if s.wouldDiverge t.group (ex.filter (fun u => u.group == t.group)) none then .trap { cause := 3 } else .fx {}

def yieldPost (s0 s : State) (ex : List ThreadId) : State :=
  let s := ex.foldl (fun z t => z.release (z.coreOf t) (z.tagOf t.wg) .wg) s
  let s := ex.foldl (fun z t => State.holdAt s0 z t .yielding) s
  let s := (groupsOf ex).foldl State.tryPhaseEnd s
  ((ex.map ThreadId.wg).eraseDups).foldl State.trySave s

def execYield (f : OwnF) (s : State) : Host.Outcome State Fault Refusal :=
  .next (s.lanesThen (.yield f) yieldLane (fun s' ex => yieldPost s s' ex))

-- BKPT, TRAP, ERET (R330, R340, R409)

/-- The word completes, and its threads then take the trap, to resume at the next word or header. -/
def trapPost (i : TrapInfo) (s : State) (ex : List ThreadId) : State := s.takeTraps ex (ex.map (fun t => (t, i))) Thread.pc

def execBkpt (f : OwnF) (s : State) : Host.Outcome State Fault Refusal :=
  .next (s.lanesThen (.bkpt f) (fun _ _ _ => .fx {}) (trapPost { cause := 4 }))

def execTrap (f : OwnF) (n : Byte) (s : State) : Host.Outcome State Fault Refusal :=
  .next (s.lanesThen (.trap f n) (fun _ _ _ => .fx {}) (trapPost { cause := 5, info := n.toNat }))

def eretLane : LaneFn := fun s _ t =>
  match s.thr t with
  | none => .trap illegalInstr
  | some x => if !x.sys then .trap illegalInstr else if targetOk x.epc then .fx {} else .trap (illegalState x.epc)

/-- Each thread returns; %trapcause is cleared; barriers are judged again when the halt has ended (R260, R340). -/
def eretPost (s : State) (ex : List ThreadId) : State :=
  let s := ex.foldl (fun s t => (s.eretThread t).updThr t (fun x => { x with trapcause := 0 })) s
  ((ex.map ThreadId.wg).eraseDups).foldl (fun s w => (s.tryBars w).trySave w) s

def execEret (f : OwnF) (s : State) : Host.Outcome State Fault Refusal := .next (s.lanesThen (.eret f) eretLane eretPost)

-- Barriers (R324-R326)

def barLane (lvl : BarLevel) (n : Nat) : LaneFn := fun s ex t =>
  if ((s.thr t).map Thread.sys).getD false then .trap (illegalState)
  else if !s.barMember t.group lvl n then .trap (illegalState)
  else if s.wouldDiverge t.group (ex.filter (fun u => u.group == t.group)) (some lvl) then .trap { cause := 3 }
  else .fx {}

def barPost (lvl : BarLevel) (n : Nat) (s : State) (ex : List ThreadId) : State :=
  let s := match lvl with
    | .cl => ex.foldl (fun z t => z.release (z.coreOf t) (z.tagOf t.wg) .cl) s
    | .wg => s.goBy ex
    | .grp => s
  let s := ex.foldl (fun z t => z.updThr t (fun x => { x with wait := .bar lvl n })) s
  let s := (groupsOf ex).foldl (fun z g => (z.tryPhaseEnd g)) s
  let s := (groupsOf ex).foldl (fun z g => (z.tryBar g lvl n)) s
  ((ex.map ThreadId.wg).eraseDups).foldl State.trySave s

def execBarGrp (f : OwnF) (n : Fin 16) (s : State) : Host.Outcome State Fault Refusal :=
  .next (s.lanesThen (.barGrp f n) (barLane .grp n.val) (barPost .grp n.val))
def execBarWg (f : OwnF) (n : Fin 16) (s : State) : Host.Outcome State Fault Refusal :=
  .next (s.lanesThen (.barWg f n) (barLane .wg n.val) (barPost .wg n.val))
def execBarCl (f : OwnF) (n : Fin 16) (s : State) : Host.Outcome State Fault Refusal :=
  .next (s.lanesThen (.barCl f n) (barLane .cl n.val) (barPost .cl n.val))

-- STAGE (R181)

def stageGo (s : State) (g : GroupId) (_ : List ThreadId) : GroupFx :=
  (s.updGrp g (fun x => { x with stage := min 65535 (x.stage + 1) }), none)

def stageRelCheck (e : Byte) (s : State) (g : GroupId) (_ : List ThreadId) : Option TrapInfo :=
  if e.toNat < ((s.lrOf g.wg).map Launch.nsched).getD 0 then none else some (illegalState)

def stageRelGo (e : Byte) (s : State) (g : GroupId) (_ : List ThreadId) : GroupFx :=
  (s.updGrp g (fun x => { x with rels := lmod x.rels e.toNat (fun n => min 65535 (n + 1)) }), none)

def execStage (f : OwnF) (s : State) : Host.Outcome State Fault Refusal := runGroups (.stage f) (fun _ _ _ => none) stageGo s
def execStageRel (f : OwnF) (e : Byte) (s : State) : Host.Outcome State Fault Refusal :=
  runGroups (.stageRel f e) (stageRelCheck e) (stageRelGo e) s

/-- Minimum over the groups of a workgroup that have non-exited threads (R181). -/
def State.minOver (s : State) (w : Nat) (f : Group → Nat) : Nat :=
  let vs := ((s.wgGroups w).filter (fun g => !(s.liveThreads g).isEmpty)).filterMap (fun g => (s.grp g).map f)
  match vs with
  | [] => 0
  | v :: rest => rest.foldl min v

/-- The stage counter, which %stage reads. -/
def State.stageOf (s : State) (w : Nat) : Nat := s.minOver w Group.stage

-- System registers (R355-R357, R399)

/-- Events whose counts only timing decides (R304). -/
def timedEvents : List Nat := [0x01, 0x06, 0x07, 0x08, 0x09, 0x0A, 0x0D, 0x0E, 0x0F, 0x10]

/-- Time has passed on a core: %cycle and the enabled counters of timed events advance by free amounts, the counters of core cycles
(event 0x01) by as much as %cycle (R304, R306). -/
def State.passTime (s : State) (c : Nat) : State :=
  let k := s.fresh
  let passed := fun code => if code = 0x01 then Config.elapsed k else Config.eventCount k code
  s.bump.updCore c (fun x => { x with
    cycle := x.cycle + BitVec.ofNat 64 (Config.elapsed k)
    evcnt := (List.range 8).map (fun i =>
      let v := x.evcnt.getD i 0
      let sel := (x.evsel.getD i 0).toNat % 512
      if 256 ≤ sel && timedEvents.contains (sel - 256) then (v + BitVec.ofNat 64 (passed (sel - 256))) &&& 0xFFFFFFFFFFFF else v) })

/-- %lease (R161). -/
def leaseWord (k : Core) (slot : Nat) : Word :=
  BitVec.ofNat 32 ((if k.lease = some slot then 2 ^ 31 else 0) + (k.lease.getD 0xFF) * 65536 + k.leaseC % 8192)

/-- A system register as a thread reads it, 64 bits wide. -/
def State.sysReg (s : State) (t : ThreadId) (sr : Nat) : DWord :=
  let k := s.core (s.coreOf t)
  let th := fun (f : Thread → DWord) => ((s.thr t).map f).getD 0
  match sr with
  | 0x00 => k.cycle
  | 0x01 => if ((s.grp t.group).map Group.preq).getD false then 1 else 0
  | 0x02 => th (fun x => x.fsr.setWidth 64)
  | 0x03 => th (fun x => x.fcr.setWidth 64)
  | 0x04 => BitVec.ofNat 64 (s.quota (s.coreOf t))
  | 0x05 => (leaseWord k (s.slotOfWg t.wg)).setWidth 64
  | 0x06 => BitVec.ofNat 64 (s.stageOf t.wg)
  | 0x07 => if ((s.lrOf t.wg).map Launch.dbp).getD false then 0x10001 else 0x10000
  | 0x18 => th (fun x => x.trapcause.setWidth 64)
  | 0x19 => th Thread.trapaddr
  | 0x1A => th Thread.epc
  | n => if n < 0x10 then (k.evsel.getD (n - 8) 0).setWidth 64 else k.evcnt.getD (n - 0x10) 0

def getsrLane (d : Opnd) (sr : Nat) : LaneFn := fun s _ t =>
  .fx (if srWide sr then wr64 d (s.sysReg t sr) else wr32 d (loW (s.sysReg t sr)))

/-- GETSR of a register that counts time first lets time pass on the core. -/
def timedReg (sr : Nat) : Bool := sr == 0 || (0x10 ≤ sr && sr ≤ 0x17)

/-- A write of one of these changes what a counter counts from now on: what it counted so far stays in it. -/
def counterReg (sr : Nat) : Bool := 0x08 ≤ sr && sr ≤ 0x17

def execGetsr (f : OwnF) (sr : Byte) (s : State) : Host.Outcome State Fault Refusal :=
  runLanes (.getsr f sr) (getsrLane f.d sr.toNat) (if timedReg sr.toNat then s.passTime s.issue.core else s)

/-- The trap registers are written in system mode only (R259). -/
def setsrLane (sr : Nat) : LaneFn := fun s _ t =>
  if 0x18 ≤ sr && sr ≤ 0x1A && !((s.thr t).map Thread.sys).getD false then .trap illegalInstr else .fx {}

/-- Writes a system register; a read-only register ignores the write. -/
def State.writeSys (s : State) (t : ThreadId) (sr : Nat) (v : DWord) : State :=
  match sr with
  | 0x02 => s.updThr t (fun x => { x with fsr := v.setWidth 6 })
  | 0x03 => s.updThr t (fun x => { x with fcr := v.setWidth 3 })
  | 0x18 => s.updThr t (fun x => { x with trapcause := (loW v) &&& 0x80FFFFFF })
  | 0x19 => s.updThr t (fun x => { x with trapaddr := v })
  | 0x1A => s.updThr t (fun x => { x with epc := v })
  | n =>
    if 0x08 ≤ n && n ≤ 0x0F then s.updCore (s.coreOf t) (fun k => { k with evsel := k.evsel.set (n - 8) ((loW v) &&& 0x1FF) })
    else if 0x10 ≤ n && n ≤ 0x17 then
      s.updCore (s.coreOf t) (fun k => { k with evcnt := k.evcnt.set (n - 0x10) (v &&& 0xFFFFFFFFFFFF) })
    else s

def setsrPost (a : Opnd) (sr : Nat) (s : State) (ex : List ThreadId) : State :=
  ex.foldl (fun s t => s.writeSys t sr (if srWide sr then s.rd64 t a else (s.rd t a).setWidth 64)) s

def execSetsr (f : OwnF) (sr : Byte) (s : State) : Host.Outcome State Fault Refusal :=
  let s := if counterReg sr.toNat then s.passTime s.issue.core else s
  .next (s.lanesThen (.setsr f sr) (setsrLane sr.toNat) (setsrPost f.a sr.toNat))

-- PC table (R15, R17) and the start of a clause (R264-R266)

def State.newStamp (s : State) (c q : Nat) : State × Nat :=
  let n := ((s.core c).stamps.getD q 0) + 1
  (s.updCore c (fun x => { x with stamps := x.stamps.set q n }), n)

def PcEntry.is (e : PcEntry) (q : Nat) (pc : DWord) (row ctx : Nat) : Bool := e.quarter == q && e.pc == pc && e.row == row && e.ctx == ctx

def State.rowOf (s : State) (t : ThreadId) : Nat := ((s.grp t.group).map Group.row).getD 0

/-- The entry of a thread's position exists, created with a new stamp if it did not. -/
def State.joinEntry (s : State) (c q : Nat) (t : ThreadId) : State :=
  match s.thr t with
  | none => s
  | some x =>
    if (s.core c).pct.any (fun e => e.is q x.pc (s.rowOf t) (s.ctxOf t.wg)) then s
    else
      let r := s.newStamp c q
      r.1.updCore c (fun k => { k with pct := k.pct ++ [⟨q, x.pc, s.rowOf t, s.ctxOf t.wg, r.2⟩] })

/-- The entry takes a new stamp. -/
def State.restamp (s : State) (c q : Nat) (pc : DWord) (row ctx : Nat) : State :=
  let r := s.newStamp c q
  r.1.updCore c (fun k => { k with pct := k.pct.map (fun e => if e.is q pc row ctx then { e with age := r.2 } else e) })

def State.quarterOf (s : State) (t : ThreadId) : Nat := ((s.grp t.group).map Group.quarter).getD 0

/-- Threads of an entry. -/
def State.entryThreads (s : State) (c : Nat) (e : PcEntry) : List ThreadId :=
  s.sortLanes ((s.threads.map Prod.fst).filter (fun t =>
    s.coreOf t == c && s.quarterOf t == e.quarter && s.rowOf t == e.row && s.ctxOf t.wg == e.ctx
      && ((s.thr t).map (fun x => !x.exited && x.clause.isSome && x.pc == e.pc)).getD false
      && ((s.grp t.group).map (fun g => g.status == .running)).getD false && ((s.wg t.wg).map Workgroup.resident).getD false))

/-- A prefetch asks for the line of an address and the next; what does not translate is dropped (R247). -/
def State.askLines (s : State) (c ctx : Nat) (a : DWord) : State :=
  [a, a + 128].foldl (fun s a =>
    match s.xlate (c / 32) ctx (pcBits a).toNat { x := true } with
    | (s, .ok x) => s.updCore c (fun k => { k with prefetch := k.prefetch ++ [(lineOf x.pa, x.attr)] })
    | (s, .error _) => s) s

/-- One thread passes a code header. -/
def Thread.enter (x : Thread) (h : Header) : Thread :=
  { x with
    clause := some { hdr := x.pc, len := h.len.val, seta := h.seta.val, setb := h.setb.val, wait := h.wait }
    pc := pcBits (x.pc + 8)
    resume := false }

/-- Outcome of an instruction fetch. -/
inductive Fetched where
  | word (w : DWord)
  | miss (line : Nat) (a : PageAttr)
  | fault (f : XFault)
deriving DecidableEq, Repr

/-- The 8 bytes of code at an address, through the instruction cache of a core (R80). -/
def State.fetchWord (s : State) (c ctx : Nat) (a : DWord) : State × Fetched :=
  match s.xlate (c / 32) ctx (pcBits a).toNat { x := true } with
  | (s, .error f) => (s, .fault f)
  | (s, .ok x) =>
    match mget (s.core c).icache (lineOf x.pa) with
    | some l => (s, .word (BitVec.ofNat 64 (leNat ((List.range 8).map (fun i => lineGet l (x.pa % 128 + i))))))
    | none => (s, .miss (lineOf x.pa) x.attr)

/-- Threads of an entry that nothing but their registers may hold back (R16). -/
def State.candidates (s : State) (c : Nat) (e : PcEntry) : List ThreadId :=
  (s.entryThreads c e).filter (fun t => s.awake t && ((s.thr t).map (fun x => match x.clause with
    | some k => !flagsBusy x.flags k.wait
    | none => false)).getD false)

/-- A thread of an entry is ready (R16): its word may issue for it, as far as the instruction cache can tell. -/
def State.holdsReady (s : State) (c : Nat) (e : PcEntry) : Bool :=
  match (s.fetchWord c e.ctx e.pc).2 with
  | .word w => (match decode w with
    | .ok i => (s.candidates c e).any (s.issuable i)
    | .error _ => !(s.candidates c e).isEmpty)
  | _ => !(s.candidates c e).isEmpty

/-- Passing a header by the threads of the issue group that stand at it (R266): a pool is passed over; a code clause is entered, the
entry of its first word is joined, and the clause counts in a skid (R258). -/
def State.startClause (s : State) (h : Header) : State :=
  let c := s.issue.core
  let q := s.issue.quarter
  let ts := s.issue.threads.filter (fun t => ((s.thr t).map (fun x => x.clause.isNone)).getD false)
  if h.pool then
    ts.foldl (fun s t => s.updThr t (fun x => { x with pc := pcBits (x.pc + BitVec.ofNat 64 (8 * (h.len.val + 1))), resume := false })) s
  else
    match ts with
    | [] => s
    | t0 :: _ =>
      let a := ((s.thr t0).map Thread.pc).getD 0
      let busy := (s.core c).pct.any (fun e => e.is q (pcBits (a + 8)) (s.rowOf t0) (s.ctxOf t0.wg) && s.holdsReady c e)
      let s := ts.foldl (fun s t => s.updThr t (fun x => x.enter h)) s
      let s := s.joinEntry c q t0
      let s := if h.yld && !busy then s.restamp c q (pcBits (a + 8)) (s.rowOf t0) (s.ctxOf t0.wg) else s
      let s := (groupsOf ts).foldl (fun s g =>
        match (s.wg g.wg).map Workgroup.halt with
        | some (.skidding _) => s.updGrp g (fun x => { x with skid := x.skid + 1 })
        | _ => s) s
      if h.pfv then s.askLines c (s.ctxOf t0.wg) (a + (h.pfo.signExtend 64 <<< 3)) else s

def execClauseStart (h : Header) (s : State) : Host.Outcome State Fault Refusal := .next (s.startClause h)

/-- ICACHE_MISS_FILL: a line that a frozen fetch or a prefetch awaits arrives (R246, R247). -/
def State.fillLine (s : State) (c line : Nat) : State :=
  let k := s.core c
  let want := (k.frozen.filterMap id ++ k.prefetch).find? (fun p => p.1 == line)
  match want with
  | none => s
  | some (_, a) =>
    let r := s.l2Whole (c / 32) line a
    (r.1.icFill c line r.2).updCore c (fun x => { x with
      frozen := x.frozen.map (fun f => match f with | some p => if p.1 = line then none else some p | none => none)
      prefetch := x.prefetch.filter (fun p => p.1 != line) })

def execIcacheMissFill (core line : Nat) (s : State) : Host.Outcome State Fault Refusal := .next (s.fillLine core line)

end Sys2Proof.Machine
end

