-- ==== Sys2Proof/Machine/Channel.lean ====
section
/-! DEFINITION. Channels (R47-R52, R387, R388): QSEND, QRECV and CHANNEL_WAKE. -/
namespace Sys2Proof.Machine

def chanCap : Nat := 256

def State.clusterOf (s : State) (w : Nat) : Nat := ((s.wg w).map Workgroup.cluster).getD 0

def State.chanWords (s : State) (w ch : Nat) : List Word :=
  (((mget s.clusters (s.clusterOf w)).map (fun c => c.chans.getD ch []))).getD []

/-- Sets the words of a channel; a change of its count lets the waiting threads try again (R49). -/
def State.setChan (s : State) (w ch : Nat) (ws : List Word) : State :=
  let n := (s.chanWords w ch).length
  let waiting := s.threads.any (fun e => e.2.wait == .chan (s.clusterOf w) ch)
  { s with clusters := mupd s.clusters (s.clusterOf w) (fun c =>
    { c with chans := c.chans.set ch ws
             stirred := if ws.length = n || c.stirred.contains ch || !waiting then c.stirred else c.stirred ++ [ch] }) }

def chanOf (f : MemF) : Nat := f.c.toNat % 16
def chanNb (f : MemF) : Bool := f.c.getLsbD 7

/-- QSEND and QRECV need channel enable (R47). -/
def chanCheck (s : State) (g : GroupId) (_ : List ThreadId) : Option TrapInfo :=
  if ((s.lrOf g.wg).map Launch.chen).getD false then none else some (illegalState)

/-- Writes the predicate of a .NB transfer: set where the word did not move (R50). -/
def State.nbPreds (s : State) (p : Nat) (ts : List ThreadId) (moved : Nat) : State :=
  ts.zipIdx.foldl (fun s e => s.updThr e.1 (fun x => { x with preds := setPred x.preds p (decide (moved ≤ e.2)) })) s

/-- One QSEND transfer of a group, its threads in ascending lane order. A .NB transfer that moves no word is a release point too (R52). -/
def qsendGo (f : MemF) (s : State) (g : GroupId) (ts : List ThreadId) : GroupFx :=
  let ch := chanOf f
  let have' := s.chanWords g.wg ch
  let room := chanCap - have'.length
  let c := ((s.wg g.wg).map Workgroup.coreIx).getD 0
  let n := if chanNb f then min room ts.length else if ts.length ≤ room then ts.length else 0
  let s := if n < ts.length then s.countEv c 0x11 1 else s
  let s := if chanNb f then s.release c (s.tagOf g.wg) .cl else s
  let s := if n = 0 then s
    else (s.release c (s.tagOf g.wg) .cl).setChan g.wg ch (have' ++ (ts.take n).map (fun t => s.rd t f.d))
  if chanNb f then (s.nbPreds f.idx.toNat ts n, none)
  else (s, if n < ts.length then some (.chan (s.clusterOf g.wg) ch) else none)

/-- One QRECV transfer of a group. -/
def qrecvGo (f : MemF) (s : State) (g : GroupId) (ts : List ThreadId) : GroupFx :=
  let ch := chanOf f
  let have' := s.chanWords g.wg ch
  let c := ((s.wg g.wg).map Workgroup.coreIx).getD 0
  let n := if chanNb f then min have'.length ts.length else if ts.length ≤ have'.length then ts.length else 0
  let s := if n < ts.length then s.countEv c 0x12 1 else s
  let s := if n = 0 then s
    else
      let s := ((ts.take n).zip have').foldl (fun s e => s.putRegs e.1 (wr32 f.d e.2)) s
      (s.setChan g.wg ch (have'.drop n)).acquire c .cl
  if chanNb f then (s.nbPreds f.idx.toNat ts n, none)
  else (s, if n < ts.length then some (.chan (s.clusterOf g.wg) ch) else none)

def execQsend (f : MemF) (s : State) : Host.Outcome State Fault Refusal := runGroups (.qsend f) chanCheck (qsendGo f) s
def execQrecv (f : MemF) (s : State) : Host.Outcome State Fault Refusal := runGroups (.qrecv f) chanCheck (qrecvGo f) s

/-- CHANNEL_WAKE: the count of a channel has changed, and the threads blocked at it execute their instruction again (R49). -/
def State.wakeChan (s : State) (cl ch : Nat) : State :=
  match mget s.clusters cl with
  | none => s
  | some c =>
    if c.stirred.contains ch then
      let s := { s with clusters := mupd s.clusters cl (fun c => { c with stirred := c.stirred.erase ch }) }
      { s with threads := s.threads.map (fun (e : ThreadId × Thread) =>
        (e.1, { e.2 with wait := if e.2.wait = .chan cl ch then .none else e.2.wait })) }
    else s

def execChannelWake (cluster ch : Nat) (s : State) : Host.Outcome State Fault Refusal := .next (s.wakeChan cluster ch)

end Sys2Proof.Machine
end

