-- ==== Sys2Proof/Machine/Fetch.lean ====
section
/-! DEFINITION. What a quarter of a core does in one step (R15-R18, R246, R264-R268): it passes a header, or chooses the entry that issues,
fetches its word through the instruction cache, and moves the threads that executed it. -/
namespace Sys2Proof.Machine

/-- A miss freezes the quarter's sequencer and counts one schedule slip (R246). -/
def State.freeze (s : State) (c q line : Nat) (a : PageAttr) : State :=
  (s.updCore c (fun x => { x with frozen := x.frozen.set q (some (line, a)) })).countEv c 0x05 1

/-- A fetch that fails translation holds its threads, one fault for each group; in system mode it is a double fault (R256, R261). -/
def State.fetchFault (s : State) (ts : List ThreadId) (f : XFault) (a : DWord) : State :=
  let inSys := fun (t : ThreadId) => ((s.thr t).map Thread.sys).getD false
  let bad := ts.filter inSys
  let s := (groupsOf (ts.filter (fun t => !inSys t))).foldl (fun s g =>
    let us := ts.filter (fun t => t.group == g)
    match us with
    | [] => s
    | u :: _ =>
      let s := (s.newFault u.wg (.fetch u) f a.toNat 3 0 false).1
      us.foldl (fun s t => s.updThr t (fun x => { x with wait := .fetch })) s) s
  if bad.isEmpty then s else s.takeTraps bad (bad.map (fun t => (t, { cause := if f.cause = lostCause then 6 else 8, addr := a }))) Thread.savedPc

/-- A thread that stands at a header or at a restored address and may go on. -/
def State.atHeader (s : State) (c q : Nat) (t : ThreadId) : Bool :=
  s.coreOf t == c && s.quarterOf t == q && s.awake t && ((s.thr t).map (fun x => x.clause.isNone)).getD false

/-- The threads that pass a header together: those that stand where the one of lowest lane stands, so that entries made outside an issue draw
their stamps lowest lane first (log 70). -/
def State.headerGroup (s : State) (c q : Nat) : List ThreadId :=
  let ts := s.sortLanes ((s.threads.map Prod.fst).filter (s.atHeader c q))
  match ts with
  | [] => []
  | t0 :: _ =>
    let key := fun t => ((s.thr t).map (fun x => (x.pc, x.resume)), s.rowOf t, s.ctxOf t.wg)
    ts.filter (fun t => key t == key t0)

/-- How a resume by reading back ends (R266). -/
inductive Back where
  | header (at' : DWord) (h : Header)
  | start
  | none
  | miss (line : Nat) (a : PageAttr)
  | fault (f : XFault) (at' : DWord)
deriving DecidableEq, Repr

/-- Reads back from word k before an address, at most 15 words. -/
def State.readBack (s : State) (c ctx : Nat) (pc : DWord) : Nat → Nat → State × Back
  | 0, _ => (s, .none)
  | fuel + 1, k =>
    let a := pcBits (pc - BitVec.ofNat 64 (8 * k))
    match s.fetchWord c ctx a with
    | (s, .fault f) => (s, .fault f a)
    | (s, .miss l at') => (s, .miss l at')
    | (s, .word w) =>
      if w.extractLsb' 60 4 = 0xF then
        (if k = 0 then (s, .start)
         else
          let h := Header.unpack w
          (s, if h.ok && !h.pool && k ≤ h.len.val then .header a h else .none))
      else s.readBack c ctx pc fuel (k + 1)

/-- Re-entering a clause in the middle: WAIT is not checked again. -/
def Thread.reenter (x : Thread) (a : DWord) (h : Header) : Thread :=
  { x with clause := some { hdr := a, len := h.len.val, seta := h.seta.val, setb := h.setb.val, wait := 0 }, resume := false }

/-- What a quarter's turn comes to: nothing more, or an instruction to execute on `State.issue`. -/
abbrev Turn := State × Option Instr

/-- Threads in header position fetch the word there; a word that is no legal header is an illegal instruction (R265). -/
def State.headerPass (s : State) (c q : Nat) (ts : List ThreadId) : Turn :=
  match ts with
  | [] => (s, none)
  | t0 :: _ =>
    match s.thr t0 with
    | none => (s, none)
    | some x =>
      let ctx := s.ctxOf t0.wg
      let illegal := fun (s : State) => s.takeTraps ts (ts.map (fun t => (t, illegalInstr))) Thread.pc
      let start := fun (s : State) =>
        match s.fetchWord c ctx x.pc with
        | (s, .fault f) => (s.fetchFault ts f x.pc, none)
        | (s, .miss l a) => (s.freeze c q l a, none)
        | (s, .word w) =>
          match decode w with
          | .ok (.clauseStart h) => ({ s with issue := ⟨c, q, ts⟩ }, some (.clauseStart h))
          | _ => (illegal s, none)
      if x.resume then
        match s.readBack c ctx x.pc 16 0 with
        | (s, .start) => start s
        | (s, .header a h) =>
          let s := ts.foldl (fun s t => s.updThr t (fun y => y.reenter a h)) s
          (s.joinEntry c q t0, none)
        | (s, .none) => (illegal s, none)
        | (s, .miss l a) => (s.freeze c q l a, none)
        | (s, .fault f a) => (s.fetchFault ts f a, none)
      else start s

-- Where threads stop at page faults (R256-R258)

/-- The thread has stopped at its word because of a page fault: only held accesses are left of its own, and the word does not issue. -/
def State.stopsHere (s : State) (i : Instr) (t : ThreadId) : Bool :=
  !(s.groupFaults t.group).isEmpty && !s.unheld i t
    && s.accs.all (fun e => !(e.2.t == t || e.2.owners.contains t) || e.2.fault.isSome)

/-- The thread has stopped before a clause whose WAIT names a flag that counts a held access. -/
def State.stopsAtWait (s : State) (t : ThreadId) : Bool :=
  ((s.thr t).map (fun x => match x.clause with
    | some k => s.accs.any (fun e => e.2.fault.isSome && e.2.owners.contains t && (match e.2.flag with
      | some f => k.wait.getLsbD f && flagGet x.flags f != 0
      | none => false))
    | none => false)).getD false

/-- Address of a thread's own part of a cancelled access. -/
def Acc.addrFor (a : Acc) (t : ThreadId) (va : DWord) : DWord :=
  match a.op with
  | .load _ _ _ => a.va
  | .store _ => a.va
  | .ldl _ _ => a.va
  | .atoms _ _ _ ls => ((ls.find? (fun l => l.t == t)).map AtLane.va).getD va
  | .stis ls => ((ls.find? (fun l => l.1 == t)).map (fun l => l.2.1)).getD va
  | _ => va

/-- The accesses of a thread that have been cancelled, with their faults. -/
def State.cancelledOf (s : State) (t : ThreadId) : List (Nat × Acc × PFault) :=
  s.accs.filterMap (fun e =>
    if e.2.owners.contains t then (e.2.fault.bind (mget s.faults)).bind (fun p => if p.cancelled then some (e.1, e.2, p) else none) else none)

/-- The cancelled accesses of a thread are not performed: they are no longer pending, and its flags count them no more. -/
def State.dropCancelled (s : State) (t : ThreadId) : State :=
  (s.cancelledOf t).foldl (fun s e =>
    let s := s.updThr t (fun x => x.uncount e.2.1.flag)
    { s with accs := if (e.2.1.without t).owners.isEmpty then mdel s.accs e.1 else mupd s.accs e.1 (fun a => a.without t) }) s

/-- A cancelled fault is gone when no access is left of it. -/
def State.tidyCancelled (s : State) : State :=
  { s with faults := s.faults.filter (fun e => !e.2.cancelled || s.accs.any (fun a => a.2.fault == some e.1)) }

/-- Threads that have stopped take the trap of their cancelled accesses: cause 7, INFO the R76 cause, at the word where each stands. -/
def State.takeCancels (s : State) (ts : List ThreadId) : State :=
  let info := fun (t : ThreadId) => match s.cancelledOf t with
    | (_, a, p) :: _ => ({ cause := 7, info := p.cause, addr := a.addrFor t p.va } : TrapInfo)
    | [] => { cause := 7 }
  let fails := ts.map (fun t => (t, info t))
  (ts.foldl State.dropCancelled s).tidyCancelled.takeTraps ts fails Thread.savedPc

/-- The groups of threads that have stopped are replayable, while a fault has no answer. -/
def State.markHeld (s : State) (ts : List ThreadId) : State :=
  ((groupsOf ts).filter s.unanswered).foldl (fun s g => s.updGrp g (fun x => { x with held := true })) s

/-- Threads of a quarter that a fault stops before a clause. -/
def State.waitStops (s : State) (c q : Nat) : List ThreadId :=
  s.sortLanes ((s.threads.map Prod.fst).filter (fun t => s.coreOf t == c && s.quarterOf t == q && s.awake t && s.stopsAtWait t))

/-- Insertion into a list of entries by rising age. -/
def insertAge (e : PcEntry) : List PcEntry → List PcEntry
  | [] => [e]
  | f :: fs => if e.age < f.age then e :: f :: fs else f :: insertAge e fs

/-- The entries of a quarter, oldest first. -/
def State.byAge (s : State) (c q : Nat) : List PcEntry :=
  ((s.core c).pct.filter (fun e => e.quarter == q)).foldl (fun acc e => insertAge e acc) []

/-- The oldest entry with a ready thread issues its word to its ready threads (R17). -/
def State.issueFrom (s : State) (c q : Nat) : List PcEntry → Turn
  | [] => (s, none)
  | e :: es =>
    let ts := s.candidates c e
    if ts.isEmpty then s.issueFrom c q es
    else
      match s.fetchWord c e.ctx e.pc with
      | (s, .fault f) => (s.fetchFault ts f e.pc, none)
      | (s, .miss l a) => (s.freeze c q l a, none)
      | (s, .word w) =>
        match decode w with
        | .ok (.clauseStart _) => (s.takeTraps ts (ts.map (fun t => (t, illegalInstr))) Thread.pc, none)
        | .error _ => (s.takeTraps ts (ts.map (fun t => (t, illegalInstr))) Thread.pc, none)
        | .ok i =>
          let stopped := ts.filter (s.stopsHere i)
          let cut := stopped.filter (fun t => !(s.cancelledOf t).isEmpty)
          let s := s.markHeld stopped
          let g := ts.filter (fun t => s.issuable i t && s.together i ts t)
          if !cut.isEmpty then (s.takeCancels cut, none)
          else if g.isEmpty then s.issueFrom c q es
          else
            let s := g.foldl (fun s t => s.updThr t (fun x => { x with clause := x.clause.map (fun k => { k with wait := 0 }) })) s
            let s := (s.countEv c 0x02 1).countEv c 0x03 g.length
            let s := match i with | .formatD _ _ => s.countEv c 0x04 1 | _ => s
            ({ s with issue := ⟨c, q, g⟩ }, some i)

/-- The turn of a quarter: a header pass if some thread waits for one, otherwise an issue opportunity. A frozen quarter has none. -/
def State.quarterTurn (s : State) (c q : Nat) : Turn :=
  if ((s.core c).frozen.getD q none).isSome then (s, none)
  else
    let stopped := s.waitStops c q
    let cut := stopped.filter (fun t => !(s.cancelledOf t).isEmpty)
    let s := s.markHeld stopped
    if !cut.isEmpty then (s.takeCancels cut, none)
    else
      let hs := s.headerGroup c q
      if hs.isEmpty then s.issueFrom c q (s.byAge c q) else s.headerPass c q hs

/-- Entries that no thread stands in any more are removed (R17). -/
def State.tidyEntries (s : State) (c q : Nat) : State :=
  s.updCore c (fun k => { k with pct := k.pct.filter (fun e => e.quarter != q || !(s.entryThreads c e).isEmpty) })

/-- After an issue: the entry takes a new stamp, and its threads move, in ascending lane order, to the entries of their next words (R17).
`before` is the state in which the word issued. -/
def State.afterIssue (s before : State) (i : Instr) : State :=
  match i with
  | .clauseStart _ => s
  | _ =>
    let c := before.issue.core
    let q := before.issue.quarter
    match before.issue.threads with
    | [] => s
    | t0 :: _ =>
      let s := s.restamp c q (((before.thr t0).map Thread.pc).getD 0) (before.rowOf t0) (before.ctxOf t0.wg)
      let s := before.issue.threads.foldl (fun s t =>
        if ((s.thr t).map (fun x => !x.exited && x.clause.isSome)).getD false && ((s.grp t.group).map (fun g => g.status == .running)).getD false
        then s.joinEntry c q t else s) s
      s.tidyEntries c q

/-- A running thread that stands before a word of a clause, and whose position has no entry in the PC table of its core. -/
def State.lacksEntry (s : State) (e : ThreadId × Thread) : Bool :=
  !e.2.exited && e.2.clause.isSome && ((s.grp e.1.group).map (fun g => g.status == .running)).getD false
    && ((s.wg e.1.wg).map Workgroup.resident).getD false
    && !(s.core (s.coreOf e.1)).pct.any (fun k => k.is (s.quarterOf e.1) e.2.pc (s.rowOf e.1) (s.ctxOf e.1.wg))

/-- The threads that a step has moved on from where they waited (JOIN, WAITA) join the entries of their next words (R15), lowest lane first
(log 70). -/
def State.enterAll (s : State) : State :=
  (s.sortLanes ((s.threads.filter s.lacksEntry).map Prod.fst)).foldl (fun s t => s.joinEntry (s.coreOf t) (s.quarterOf t) t) s

end Sys2Proof.Machine
end

