-- ==== Sys2Proof/Machine/LoadStore.lean ====
section
/-! DEFINITION. Issue of the memory words: LD, ST, STI, LDL, LDP, STP, ATOM, ACAS, RED, PLADD, PREF, WBR, INVR, TEX, TEXG, RAYQ
(R365-R369, R377, R378, R382, R390, R392, R401-R407, R413), the fences and PUBLISH (R94, R95, R103, R351, R383, R408), and WAITA (R411,
R412). Their accesses become pending and are performed by LOAD_COMPLETE and STORE_COMPLETE. -/
namespace Sys2Proof.Machine

-- Records read at issue (R135, R217, R222, R256)

/-- Holds a thread whose record read failed: a page fault on a record, or in system mode a double fault (R256, R261). -/
def State.recordFault (s : State) (t : ThreadId) (f : XFault) (va : Nat) (unit : Nat) : State :=
  if ((s.thr t).map Thread.sys).getD false then 
    s.takeTraps [t] [(t, { cause := if f.cause = lostCause then 6 else 8, addr := BitVec.ofNat 64 va })] Thread.pc
  else
    let open' := s.faults.any (fun e => match e.2.site with
      | .record u => u.group == t.group && e.2.page == f.page && e.2.tag.isNone
      | _ => false)
    let s := if open' then s else (s.newFault t.wg (.record t) f va 0 unit false).1
    s.updThr t (fun x => { x with wait := .record })

/-- Takes a thread out of the issue group. -/
def State.dropIssue (s : State) (t : ThreadId) : State :=
  { s with issue := { s.issue with threads := s.issue.threads.filter (fun u => u != t) } }

/-- Reads the record that each executing thread needs, once per group and address, as plain loads at scope GRP. Threads whose
read faults are held at the word and leave the issue group. -/
def State.readRecordsBy (rdr : State → ThreadId → Rd) (s : State) (i : Instr) (unit : Nat) (req : State → ThreadId → Option (Nat × Nat)) :
    State × List (ThreadId × List Byte) :=
  let r := (s.executing i).foldl (fun (z : State × List (ThreadId × List Byte) × List (GroupId × Nat × Option (List Byte))) t =>
    match req s t with
    | none => z
    | some (va, n) =>
      match z.2.2.find? (fun k => k.1 == t.group && k.2.1 == va) with
      | some (_, _, some bs) => (z.1, z.2.1 ++ [(t, bs)], z.2.2)
      | some (_, _, none) => ((z.1.updThr t (fun x => { x with wait := .record })).dropIssue t, z.2.1, z.2.2)
      | none =>
        match rdBytes (rdr z.1 t) va n z.1 with
        | (s, .ok bs) => (s, z.2.1 ++ [(t, bs)], z.2.2 ++ [(t.group, va, some bs)])
        | (s, .error (.fault f a)) => ((s.recordFault t f a unit).dropIssue t, z.2.1, z.2.2 ++ [(t.group, va, none)])
        | (s, .error (.fate _)) => (s, z.2.1, z.2.2)) (s, [], [])
  (r.1, r.2.1)

/-- As plain loads at scope GRP. -/
def State.readRecords (s : State) (i : Instr) (unit : Nat) (req : State → ThreadId → Option (Nat × Nat)) : State × List (ThreadId × List Byte) :=
  s.readRecordsBy (fun s t => coreRead (s.coreOf t) (s.ctxOf t.wg)) i unit req

-- Ordinary accesses

def memOff (sz : Sz) (c : Byte) : Int := sgn 8 c.toNat * szBytes sz

/-- A new pending access of a thread. -/
def State.mkAcc (s : State) (t : ThreadId) (owners : List ThreadId) (i : Instr) (op : AccOp) (sp : Space) (sc : Scope) (ord : Ord3)
    (ch : Hint) (va : DWord) (size : Nat) : Acc :=
  { t := t, owners := owners, op := op, exec := s.fresh, space := sp, sc := sc, ord := ord, ch := ch, va := va, size := size
    flag := ((s.thr t).map (fun x => x.flagOf i)).getD none, fault := none, passed := false, leaf := none }

def ldLane (f : MemF) : LaneFn := fun s ex t =>
  let n := szBytes f.sz
  let a := s.effAddr t f.sp f.a f.b f.idx.toNat (memOff f.sz f.c)
  match s.checkAccess t.wg f.sp a n false with
  | some i => .trap i
  | none =>
    let own := if f.d.isS then ex.filter (fun u => u.group == t.group) else [t]
    if own.headD t = t then .fx { accs := [s.mkAcc t own (.ld f) (.load f.d f.sz f.sx) f.sp f.sc f.ord f.ch a n] } else .fx {}

def execLd (f : MemF) (s : State) : Host.Outcome State Fault Refusal := runLanes (.ld f) (ldLane f) s

/-- The bytes a store takes from its data operand (R402). -/
def State.storeData (s : State) (t : ThreadId) (d : Opnd) (sz : Sz) : List Byte :=
  match sz with
  | .b128 => (List.range 4).flatMap (fun k => leBytes 4 (s.rdK t d k).toNat)
  | .b64 => leBytes 8 (s.rd64 t d).toNat
  | _ => leBytes (szBytes sz) (s.rd t d).toNat

def stLane (f : MemF) : LaneFn := fun s _ t =>
  let n := szBytes f.sz
  let a := s.effAddr t f.sp f.a f.b f.idx.toNat (memOff f.sz f.c)
  match s.checkAccess t.wg f.sp a n true with
  | some i => .trap i
  | none => .fx { accs := [s.mkAcc t [t] (.st f) (.store (s.storeData t f.d f.sz)) f.sp f.sc f.ord f.ch a n] }

def execSt (f : MemF) (s : State) : Host.Outcome State Fault Refusal := runLanes (.st f) (stLane f) s

def stiAddr (s : State) (f : StiF) (t : ThreadId) : DWord := s.effAddr t .global f.a f.b f.idx.toNat (memOff f.sz f.c)

/-- STI: the lanes of the execution form one access, whatever their groups (R405). -/
def stiLane (f : StiF) : LaneFn := fun s ex t =>
  let n := szBytes f.sz
  match s.checkAccess t.wg .global (stiAddr s f t) n true with
  | some i => .trap i
  | none =>
    if ex.headD t = t then
      let ls := ex.map (fun u => (u, stiAddr s f u, s.storeData u f.d f.sz, s.rd u (.s f.m)))
      .fx { accs := [s.mkAcc t ex (.sti f) (.stis ls) .global .die f.ord .normal (stiAddr s f t) n] }
    else .fx {}

def execSti (f : StiF) (s : State) : Host.Outcome State Fault Refusal := runLanes (.sti f) (stiLane f) s

/-- LDL (R367): the address is formed from the word's own address. -/
def ldlLane (i : Instr) (d : Opnd) (wide : Bool) (imm : Word) : LaneFn := fun s ex t =>
  let n := if wide then 8 else 4
  let a := ((s.thr t).map Thread.pc).getD 0 + imm.signExtend 64
  if a.toNat % n != 0 || !hi4zero a then .trap (illegalState a)
  else
    let own := if d.isS then ex.filter (fun u => u.group == t.group) else [t]
    if own.headD t = t then .fx { accs := [s.mkAcc t own i (.ldl d wide) .global .none .plain .normal a n] } else .fx {}

def execLdl (g : Guard) (d : Opnd) (wide : Bool) (imm : Word) (s : State) : Host.Outcome State Fault Refusal :=
  runLanes (.ldl g d wide imm) (ldlLane (.ldl g d wide imm) d wide imm) s

-- Atomics (R316)

/-- The checks of an atomic on its address: R59, the bucket window at DEV or SYS, and a translation into the system range (R109). -/
def State.atCheck (s : State) (t : ThreadId) (sp : Space) (sc : Scope) (a : DWord) (n : Nat) : Option TrapInfo :=
  match s.checkAccess t.wg sp a n true with
  | some i => some i
  | none =>
    if sp = .bucket && (sc = .dev || sc = .sys) then some (illegalState a)
    else if sp = .global then
      match (s.xlate (s.coreOf t / 32) (s.ctxOf t.wg) a.toNat { r := true, w := true }).2 with
      | .ok x => if inSystem x.pa then some (illegalState a) else none
      | .error _ => none
    else none

/-- One execution of an atomic: its lanes form one access (R316). -/
def atomLane (i : Instr) (k : AtKind) (ret : Bool) (f : MemF) (opnds : State → ThreadId → DWord × DWord) : LaneFn := fun s ex t =>
  let n := szBytes f.sz
  let addr := fun u => s.effAddr u f.sp f.a f.b f.idx.toNat 0
  match s.atCheck t f.sp f.sc (addr t) n with
  | some tr => .trap tr
  | none =>
    if ex.headD t = t then
      let ls := ex.map (fun u => let o := opnds s u; ({ t := u, va := addr u, d := f.d, x := o.1, y := o.2 } : AtLane))
      .fx { accs := [s.mkAcc t ex i (.atoms k ret f.sz ls) f.sp f.sc f.ord f.ch (addr t) n] }
    else .fx {}

def atOperand (f : MemF) (s : State) (t : ThreadId) : DWord × DWord :=
  (if f.sz = .b64 then s.rd64 t f.d else (s.rd t f.d).setWidth 64, 0)

def execAtom (f : MemF) (s : State) : Host.Outcome State Fault Refusal :=
  runLanes (.atom f) (atomLane (.atom f) (.rmw f.c) true f (atOperand f)) s

/-- Compare and swap values of ACAS (R315). -/
def casOperands (f : MemF) (s : State) (t : ThreadId) : DWord × DWord :=
  if f.sz = .b64 then (pairVal (s.rdK t f.d 0) (s.rdK t f.d 1), pairVal (s.rdK t f.d 2) (s.rdK t f.d 3))
  else ((s.rdK t f.d 0).setWidth 64, (s.rdK t f.d 1).setWidth 64)

def execAcas (f : MemF) (s : State) : Host.Outcome State Fault Refusal :=
  runLanes (.acas f) (atomLane (.acas f) .cas true f (casOperands f)) s

def execRed (f : MemF) (s : State) : Host.Outcome State Fault Refusal :=
  runLanes (.red f) (atomLane (.red f) (.rmw f.c) false f (atOperand f)) s

-- Plane blocks

/-- Request for the handle of a plane word: none when its address is refused. -/
def handleReq (a : Opnd) (s : State) (t : ThreadId) : Option (Nat × Nat) :=
  let h := s.rd64 t a
  if h.toNat % 32 = 0 && hi4zero h then some (h.toNat, 32) else none

/-- The handle and block of a thread, of which it accesses `n` planes; an illegal-state trap on a fate (R134, R135). -/
def State.handleFor (s : State) (data : List (ThreadId × List Byte)) (a b : Opnd) (n : Handle → Nat) (t : ThreadId) :
    Except TrapInfo (List Byte × Handle × Nat) :=
  let h := s.rd64 t a
  match mget data t with
  | none => .error (illegalState h)
  | some bs =>
    match handleOf bs with
    | none => .error (illegalState h)
    | some hd =>
      let k := (s.rd t b).toNat
      if hd.nblk ≤ k then .error (illegalState)
      else match (blockAddrs hd k (n hd)).find? (fun p => 2 ^ 60 ≤ p.1) with
        | some p => .error (illegalState (BitVec.ofNat 64 p.1))
        | none => .ok (bs, hd, k)

def ldpLane (f : MemF) (data : List (ThreadId × List Byte)) : LaneFn := fun s _ t =>
  match s.handleFor data f.a f.b (fun h => planesRead (f.c.toNat % 32) h.pcnt (f.c.getLsbD 7)) t with
  | .error i => .trap i
  | .ok (hb, _, b) =>
    let quad := if f.idx = 1 then some (s.laneOf t % 4) else none
    .fx { accs := [s.mkAcc t [t] (.ldp f) (.ldp f.d hb b (f.c.toNat % 32) (f.c.getLsbD 7) quad) .global f.sc f.ord f.ch 0 0] }

def execLdp (f : MemF) (s : State) : Host.Outcome State Fault Refusal :=
  let r := s.readRecords (.ldp f) 0 (handleReq f.a)
  runLanes (.ldp f) (ldpLane f r.2) r.1

def stpLane (f : MemF) (data : List (ThreadId × List Byte)) : LaneFn := fun s _ t =>
  match s.handleFor data f.a f.b Handle.pcnt t with
  | .error i => .trap i
  | .ok (hb, h, b) =>
    let last := (h.pcnt + 1) / 2
    let v0 := match f.d with | .v n => n.val | _ => 0
    if s.nregOf t.wg ≤ v0 + last then .trap illegalInstr
    else
      let pl := (List.range h.pcnt).map (fun j => ((s.rdK t f.d (j / 2)) >>> (16 * (j % 2))).setWidth 16)
      .fx { accs := [s.mkAcc t [t] (.stp f) (.stp hb b pl ((s.rdK t f.d last).setWidth 8)) .global f.sc f.ord f.ch 0 0] }

def execStp (f : MemF) (s : State) : Host.Outcome State Fault Refusal :=
  let r := s.readRecords (.stp f) 0 (handleReq f.a)
  runLanes (.stp f) (stpLane f r.2) r.1

/-- The updates of a group in the order of R378: segment by segment of 16 indices, block by block in order of lowest lane. -/
def State.pladdUps (s : State) (f : MemF) (g : List ThreadId) : List (Nat × List Word) :=
  let segs := (g.map (fun t => t.ix / 16)).eraseDups
  segs.flatMap (fun sg =>
    let ts := g.filter (fun t => t.ix / 16 == sg)
    let bs := (ts.map (fun t => (s.rd t f.b).toNat)).eraseDups
    bs.map (fun b => (b, (List.range 16).map (fun i =>
      match ts.find? (fun t => t.ix == 16 * sg + i && (s.rd t f.b).toNat == b) with
      | some t => s.rd t f.d
      | none => 0))))

/-- A block of PLADD that translates into the system range (R109). -/
def State.blockInSystem (s : State) (t : ThreadId) (h : Handle) (b : Nat) : Option Nat :=
  ((blockAddrs h b h.pcnt).map Prod.fst).find? (fun va => match (s.xlate (s.coreOf t / 32) (s.ctxOf t.wg) va { r := true, w := true }).2 with
    | .ok x => inSystem x.pa
    | .error _ => false)

def pladdLane (f : MemF) (data : List (ThreadId × List Byte)) : LaneFn := fun s ex t =>
  match s.handleFor data f.a f.b Handle.pcnt t with
  | .error i => .trap i
  | .ok (hb, h, b) =>
    let g := ex.filter (fun u => u.group == t.group)
    match s.blockInSystem t h b with
    | some va => .trap (illegalState (BitVec.ofNat 64 va))
    | none =>
    if g.headD t = t then .fx { accs := [s.mkAcc t g (.pladd f) (.pladd hb (s.pladdUps f g)) .global f.sc f.ord .normal 0 0] } else .fx {}

def execPladd (f : MemF) (s : State) : Host.Outcome State Fault Refusal :=
  let r := s.readRecords (.pladd f) 0 (handleReq f.a)
  runLanes (.pladd f) (pladdLane f r.2) r.1

-- Ranges (R363, R413)

def rangeLane (i : Instr) (f : MemF) (op : Nat → AccOp) : LaneFn := fun s _ t =>
  let a := s.rd64 t f.a
  let n := (s.rd t f.b).toNat
  if 2 ^ 24 < n then .trap (illegalState)
  else if n != 0 && 2 ^ 60 < a.toNat + n then .trap (illegalState a)
  else .fx { accs := [s.mkAcc t [t] i (op n) .global .none .plain .normal a n] }

def execWbr (f : MemF) (s : State) : Host.Outcome State Fault Refusal := runLanes (.wbr f) (rangeLane (.wbr f) f .wbr) s
def execInvr (f : MemF) (s : State) : Host.Outcome State Fault Refusal := runLanes (.invr f) (rangeLane (.invr f) f .invr) s

/-- PREF asks for a line (R382); a request whose registers do not exist or whose address fails R59 or translation is dropped. -/
def State.prefetchLine (s : State) (f : MemF) (t : ThreadId) : State :=
  let a := s.effAddr t .global f.a f.b f.idx.toNat (memOff f.sz f.c)
  let c := s.coreOf t
  if !s.regsBelow t (.pref f) || (s.checkAccess t.wg .global a (szBytes f.sz) false).isSome then s
  else
    match s.xlate (c / 32) (s.ctxOf t.wg) a.toNat { r := true } with
    | (_, .error _) => s
    | (s, .ok x) =>
      let base := x.pa / 128 * 128
      (List.range 4).foldl (fun s k => if f.ch = .bypass then (s.l2Read (c / 32) (base + 32 * k) 32 x.attr).1
        else (s.l1Read c (base + 32 * k) 32 x.attr f.ch).1) s

def execPref (f : MemF) (s : State) : Host.Outcome State Fault Refusal :=
  .next (s.lanesThen (.pref f) (fun _ _ _ => .fx {}) (fun s' ex => ex.foldl (fun z t => z.prefetchLine f t) s'))

-- Fences (R94, R95, R351, R408)

def execFenceRel (f : MemF) (s : State) : Host.Outcome State Fault Refusal :=
  .next (s.lanesThen (.fenceRel f) (fun _ _ _ => .fx {}) (fun s ex =>
    let s := if Scope.wide f.sc then s else s.goBy ex
    ex.foldl (fun s t => s.release (s.coreOf t) (s.tagOf t.wg) f.sc) s))

def execFenceAcq (f : MemF) (s : State) : Host.Outcome State Fault Refusal :=
  .next (s.lanesThen (.fenceAcq f) (fun _ _ _ => .fx {}) (fun s ex => ex.foldl (fun s t => s.acquire (s.coreOf t) f.sc) s))

/-- Every store of the thread reaches the home L2 of its line (R95). -/
def State.homeAll (s : State) (t : ThreadId) : State :=
  let c := s.coreOf t
  let s := s.writeBackTag c (s.tagOf t.wg)
  ((s.die (c / 32)).l2.map Prod.fst).foldl (fun s line => s.l2WriteBack (c / 32) line (BitVec.allOnes 128)) s

def execTfence (f : MemF) (s : State) : Host.Outcome State Fault Refusal :=
  .next (s.lanesThen (.tfence f) (fun _ _ _ => .fx {}) (fun s ex => ex.foldl State.homeAll s))

-- PUBLISH (R103, R383)

/-- The entries of a table in which some bit is set. -/
def usedEntries (m : Mem) (table n : Nat) : List Nat :=
  ((m.filter (fun c => table ≤ c.1 && c.1 < table + 8 * n)).map (fun c => (c.1 - table) / 8)).eraseDups

/-- The frame pairs that the page tables below a root give a region: base and size (R78). -/
def regionFrames (s : State) (k : Nat) : List (Nat × Nat × Nat) → Nat → List (Nat × Nat)
  | [], _ => []
  | (lvl, shift, bits) :: ls, table =>
    (usedEntries s.mem table (2 ^ bits)).flatMap (fun ix =>
      let e := leNat (Mem.rdN s.mem (table + 8 * ix) 8)
      if !e.testBit 0 then []
      else if lvl = 5 || (3 ≤ lvl && e.testBit 7) then
        (if e.testBit 10 && e / 2 ^ 54 = k then [(pteFrame e, 2 * (if lvl = 5 then (if e.testBit 7 then 65536 else 4096) else 2 ^ shift))] else [])
      else if isTable e then regionFrames s k ls (pteFrame e) else [])

/-- The same of a cached leaf. -/
def TlbEntry.pair (e : TlbEntry) (k : Nat) : Option (Nat × Nat) :=
  if e.pte.toNat.testBit 10 && e.pte.toNat / 2 ^ 54 = k then some (pteFrame e.pte.toNat, 2 * e.size) else none

/-- Whether a line lies in a frame of a region, as its context maps it now or as a die has cached it. -/
def State.inRegion (s : State) (k : Nat) : Nat → Bool :=
  let root := ((mget s.regions k).bind (fun r => mget s.contexts r.ctx)).map (fun c => c.root.toNat)
  let fs := (match root with | some t => regionFrames s k walkLevels t | none => []) ++ (s.dies.flatMap Die.tlb).filterMap (fun e => e.pair k)
  fun line => fs.any (fun f => f.1 ≤ 128 * line && 128 * line < f.1 + f.2)

/-- Cores and dies give up the lines of both frames of a region, whatever mapping they were reached through: dirty bytes are written back,
then the lines go (R103 step 2). -/
def State.dropRegion (s : State) (k : Nat) : State :=
  let isIn : Nat → Bool := s.inRegion k
  let s : State := { s with injMsgs := s.injMsgs.map (fun (m : InjMsg) => if isIn m.line then { m with stale := true } else m) }
  let s := (s.cores.map Prod.fst).foldl (fun s c =>
    ((s.core c).l1.filter (fun l => l.attr.rg == some k || isIn l.line)).foldl (fun s l => s.l1Flush c l.line) s) s
  (List.range 4).foldl (fun s d =>
    ((s.die d).l2.filter (fun e => e.2.rg == some k || isIn e.1)).foldl (fun s e =>
      let s := s.l2WriteBack d e.1 (BitVec.allOnes 128)
      s.updDie d (fun x => { x with l2 := mdel x.l2 e.1 })) s) s

/-- The live bit of a region flips in one step (R79). -/
def State.flipRegion (s : State) (k : Nat) : State := { s with regions := mupd s.regions k (fun r => { r with live := !r.live }) }

def publishCheck (f : MemF) (s : State) (g : GroupId) (ts : List ThreadId) : Option TrapInfo :=
  match ts with
  | [] => none
  | t :: _ =>
    match mget s.regions (s.rd t f.a).toNat with
    | some r => if r.ctx = s.ctxOf g.wg then none else some (illegalState)
    | none => some (illegalState)

def publishGo (f : MemF) (s : State) (g : GroupId) (ts : List ThreadId) : GroupFx :=
  match ts with
  | [] => (s, none)
  | t :: _ =>
    let s := s.release (s.coreOf t) (s.tagOf g.wg) f.sc
    let k := (s.rd t f.a).toNat
    ((s.dropRegion k).flipRegion k, none)

def execPublish (f : MemF) (s : State) : Host.Outcome State Fault Refusal := runGroups (.publish f) (publishCheck f) (publishGo f) s

-- WAITA (R411, R412)

def waitaAddr (f : MemF) (s : State) (t : ThreadId) : DWord :=
  (match f.sp with | .global => s.rd64 t f.a | _ => (s.rd t f.a).setWidth 64) + BitVec.ofInt 64 (sgn 8 f.c.toNat * 8)

def waitaLane (f : MemF) : LaneFn := fun s _ t =>
  match s.checkAccess t.wg f.sp (waitaAddr f s t) 8 false with
  | some i => .trap i
  | none => .fx { jump := none }

/-- A thread that executes WAITA waits at it with the word it watches. -/
def execWaita (f : MemF) (s : State) : Host.Outcome State Fault Refusal :=
  .next (s.lanesThen (.waita f) (waitaLane f) (fun s' ex => ex.foldl (fun z t => z.updThr t (fun x =>
    { x with
      pc := ((s.thr t).map Thread.pc).getD x.pc
      clause := ((s.thr t).map Thread.clause).getD x.clause
      wait := .waita
      watch := some (f.sc, f.sp, waitaAddr f s t, s.rd64 t f.b) })) s'))

/-- One read of a watched word at the level of its scope; the thread wakes with an acquire when the value has reached its target. A
failed translation holds the thread at the WAITA. -/
def State.waitaWake (s : State) (t : ThreadId) : State :=
  match s.thr t with
  | none => s
  | some x =>
    match x.wait, x.watch with
    | .waita, some (sc, sp, a, target) =>
      let c := s.coreOf t
      let probe := s.mkAcc t [t] .nop (.store (leBytes 8 0)) sp sc .sync .normal a 8
      if s.accs.any (fun e => (e.2.sameThread probe || (e.2.passed && e.2.t.wg == t.wg)) && s.ordered e.2 probe) then s
      else
        let wake := fun (s : State) (v : Nat) =>
          if target.toNat ≤ v then
            (s.acquire c sc).updThr t (fun x => ({ x with wait := .none, watch := none } : Thread).advance)
          else s
        match s.place t.wg sp a 8 with
        | some (.glob va) =>
          (match s.xlate (c / 32) (s.ctxOf t.wg) va { r := true } with
            | (s, .error f) => (s.recordFault t f va 0).updThr t (fun x => { x with watch := none })
            | (s, .ok x) => let r := levelRead sc .sync .normal c s x.pa 8 x.attr; wake r.1 (leNat r.2))
        | some (.spad w off) => wake s (leNat (s.spadRead w off 8))
        | _ => s
    | _, _ => s

def execWaitaWake (t : ThreadId) (s : State) : Host.Outcome State Fault Refusal := .next (s.waitaWake t)

-- Textures and rays (R216-R227)

def texTable (f : OwnF) (s : State) (t : ThreadId) : Option (Nat × Nat) :=
  let a := s.rd64 t f.c + ((s.rd t f.b).setWidth 64 <<< 6)
  if hi4zero a then some (a.toNat, 64) else none

/-- A request that follows a descriptor read without fate. -/
def texNext (data : List (ThreadId × List Byte)) (k : List Byte → Option (Nat × Nat)) (_ : State) (t : ThreadId) : Option (Nat × Nat) :=
  (mget data t).bind (fun d => if descOk d then k d else none)

def joinData (xs ys : List (ThreadId × List Byte)) (t : ThreadId) : List Byte := ((mget xs t).getD []) ++ ((mget ys t).getD [])

def texLane (i : Instr) (f : OwnF) (nc : Nat) (grad : Bool) (ds hs ps ts : List (ThreadId × List Byte)) : LaneFn := fun s _ t =>
  let bad := LaneRes.trap (illegalState (s.rd64 t f.c + ((s.rd t f.b).setWidth 64 <<< 6)))
  match mget ds t with
  | none => bad
  | some d =>
    let hd := (mget ps t).getD []
    let taps := (mget ts t).getD []
    let hb := (mget hs t).getD []
    if !(descOk d && descPlanesOk d hb && progOk hd taps) then bad
    else
      let v0 := match f.a with | .v n => n.val | _ => 0
      let n := (if grad then 6 else 2) + (if usesRef hd taps then 1 else 0)
      if s.nregOf t.wg < v0 + n then .trap illegalInstr
      else
        let ftz := s.ftz t
        let args := (List.range n).map (fun k => s.rdK t f.a k)
        match (filterRun (coreRead (s.coreOf t) (s.ctxOf t.wg)) (d ++ hb) (hd ++ taps) grad ftz args s).2 with
        | .error (.fate a) => .trap (illegalState (BitVec.ofNat 64 a))
        | _ => .fx { accs := [s.mkAcc t [t] i (.tex f.d nc grad (d ++ hb) (hd ++ taps) args ftz) .global .grp .plain .normal 0 0] }

/-- What TEX and TEXG read at issue (R217, R219): each thread's descriptor, the handle of a plane texture, the filter program's header and
its taps, and the state after those reads. -/
def State.texRecords (s : State) (i : Instr) (f : OwnF) :
    State × List (ThreadId × List Byte) × List (ThreadId × List Byte) × List (ThreadId × List Byte) × List (ThreadId × List Byte) :=
  let d := s.readRecords i 6 (texTable f)
  let h := d.1.readRecords i 6 (texNext d.2 (fun x => if fld x 8 1 = 10 && fld x 32 8 < 2 ^ 60 then some (fld x 32 8, 32) else none))
  let p := h.1.readRecords i 6 (texNext d.2 (fun x => if fld x 24 8 < 2 ^ 60 then some (fld x 24 8, 64) else none))
  let tp := p.1.readRecords i 6 (fun s t => (mget p.2 t).bind (fun hd => texNext d.2 (fun x =>
    if 1 ≤ fld hd 0 1 && fld hd 0 1 ≤ 64 then some (fld x 24 8 + 64, 8 * fld hd 0 1) else none) s t))
  (tp.1, d.2, h.2, p.2, tp.2)

/-- TEX and TEXG. -/
def State.texGo (s : State) (i : Instr) (f : OwnF) (nc : Nat) (grad : Bool) : State :=
  let r := s.texRecords i f
  r.1.lanes i (texLane i f nc grad r.2.1 r.2.2.1 r.2.2.2.1 r.2.2.2.2)

def execTex (f : OwnF) (nc : Fin 4) (s : State) : Host.Outcome State Fault Refusal := .next (s.texGo (.tex f nc) f nc.val false)
def execTexg (f : OwnF) (nc : Fin 4) (s : State) : Host.Outcome State Fault Refusal := .next (s.texGo (.texg f nc) f nc.val true)

def sceneReq (f : OwnF) (s : State) (t : ThreadId) : Option (Nat × Nat) :=
  let a := s.rd64 t f.c
  if a.toNat % 32 = 0 && hi4zero a then some (a.toNat, 32) else none

def rayqLane (f : OwnF) (any : Bool) (data : List (ThreadId × List Byte)) : LaneFn := fun s _ t =>
  match mget data t with
  | none => .trap (illegalState (s.rd64 t f.c))
  | some sc =>
    if !sceneOk sc then .trap (illegalState (s.rd64 t f.c))
    else
      let args := (List.range 9).map (fun k => s.rdK t f.a k)
      match (rayRun (coreRead (s.coreOf t) (s.ctxOf t.wg)) sc any args s).2 with
      | .error (.fate a) => .trap (illegalState (BitVec.ofNat 64 a))
      | _ => .fx { accs := [s.mkAcc t [t] (.rayq f any) (.rayq f.d any sc args) .global .grp .plain .normal 0 0] }

def execRayq (f : OwnF) (any : Bool) (s : State) : Host.Outcome State Fault Refusal :=
  let r := s.readRecords (.rayq f any) 6 (sceneReq f)
  runLanes (.rayq f any) (rayqLane f any r.2) r.1

end Sys2Proof.Machine
end

