-- ==== Sys2Proof/Machine/Engine.lean ====
section
/-! DEFINITION. What the engines share: scratchpad operands with bank rotation (R61, R62, R146, R147), completion words (R53, R101), and page faults of
engine commands (R162, R192, R256, R257). -/
namespace Sys2Proof.Machine

/-- rotate_offset of R62. -/
def rotateOffset (rowBase i x c : Nat) : Nat := rowBase + x / 256 * 256 + ((x / 16 % 16 + i * c) % 16) * 16 + x % 16

/-- One byte of the cluster scratchpad as a workgroup reaches it (R61); none out of bounds. -/
def State.clPlace (s : State) (w a : Nat) : Option (Nat × Nat) :=
  if 2 ^ 32 ≤ a then none
  else match s.place w .cluster (BitVec.ofNat 64 a) 1 with
    | some (.spad v off) => some (v, off)
    | _ => none

def State.clByte (s : State) (w a : Nat) : Byte :=
  match s.clPlace w a with
  | some (v, off) => Mem.rd (((s.wg v).map Workgroup.spad).getD []) off
  | none => 0

def State.clPut (s : State) (w a : Nat) (b : Byte) : State :=
  match s.clPlace w a with
  | some (v, off) => s.spadWrite v off [b]
  | none => s

/-- Fields of a pitch word (R146). -/
def pitchRow (p : Word) : Nat := p.toNat / 65536
def pitchTile (p : Word) : Nat := p.toNat / 16 % 4096
def pitchRot (p : Word) : Nat := p.toNat % 16

/-- Address of byte x of row i of slab j of a scratchpad operand (R147). -/
def rowAddr (base pitch : Word) (j i x : Nat) : Nat :=
  rotateOffset (base.toNat + j * 64 * pitchTile pitch + i * pitchRow pitch) i x (pitchRot pitch)

/-- Every byte of the rows of a scratchpad operand lies in the cluster space. -/
def State.rowsOk (s : State) (w : Nat) (base pitch : Word) (slabs rows size : Nat) : Bool :=
  (List.range slabs).all (fun j => (List.range rows).all (fun i => (List.range size).all (fun x => (s.clPlace w (rowAddr base pitch j i x)).isSome)))

def State.rowBytes (s : State) (w : Nat) (base pitch : Word) (j i size : Nat) : List Byte :=
  (List.range size).map (fun x => s.clByte w (rowAddr base pitch j i x))

-- Completion words (R53)

/-- The scope codes 1 to 6 of SC fields. -/
def scopeOf (c : Nat) : Scope := match c with | 1 => .grp | 2 => .wg | 3 => .cl | 4 => .die | 5 => .dev | 6 => .sys | _ => .none

/-- A misaligned completion word, one outside the cluster scratchpad it names, or one in host memory with a scope other than SYS (R53); judged when the
command starts. A global word that does not translate is judged when it is stored. -/
def State.cwBad (s : State) (d ctx : Nat) (w : Option Nat) (cluster : Bool) (cw : DWord) (scope : Nat) : Bool :=
  scope != 0 && (cw.toNat % 8 != 0 || (!cluster && !hi4zero cw)
    || (if cluster then
          (match w with
            | some w => (s.place w .cluster cw 8).isNone
            | none => true)
        else
          (match (s.xlate d ctx (cw.toNat % 2 ^ 60) {}).2 with
            | .ok x => inSystem x.pa && scope != 6
            | .error _ => false)))

/-- A global completion word that does not translate when its command starts: whether it lies in host memory is judged at the store (R53). -/
def State.cwLate (s : State) (d ctx : Nat) (cluster : Bool) (cw : DWord) (scope : Nat) : Bool :=
  scope != 0 && !cluster && (match (s.xlate d ctx (cw.toNat % 2 ^ 60) {}).2 with | .ok _ => false | .error _ => true)

/-- An address of the hub that translates into host memory. -/
def State.inHost (s : State) (ctx va : Nat) : Bool := match (s.xlate 0 ctx va {}).2 with | .ok x => inSystem x.pa | .error _ => false

/-- The clean bytes of a line in the L1 of the core whose engine has written it go (R100). -/
def State.dropOwn (s : State) (own : Option Nat) (line : Nat) : State :=
  match own with
  | some c => s.dropCopy c line
  | none => s

/-- The completion store of an engine command: a release at its scope by the command (R101). `late`: its word could not be judged when the command
started; `own`: the core of the engine. -/
def State.storeDone (s : State) (d ctx : Nat) (w : Option Nat) (cluster : Bool) (cw seq : DWord) (scope : Nat) (late : Bool := false)
    (own : Option Nat := none) : State × Except XErr Unit :=
  if scope = 0 then (s, .ok ())
  else
    let rel := fun (s : State) => match w with
      | some w => s.release (((s.wg w).map Workgroup.coreIx).getD 0) (s.tagOf w) (scopeOf scope)
      | none => s
    if cluster then
      (match w.bind (fun w => s.place w .cluster cw 8) with
        | some (.spad v off) => ((rel s).spadWrite v off (leBytes 8 seq.toNat), .ok ())
        | _ => (s, .ok ()))
    else
      match s.xlate d ctx (cw.toNat % 2 ^ 60) { w := true } with
      | (s, .error f) => (s, .error (.fault f cw.toNat))
      | (s, .ok x) =>
        if late && inSystem x.pa && scope != 6 then (s, .error (.fate cw.toNat))
        else (((rel s).l2Write d x.pa x.attr (leBytes 8 seq.toNat)).dropOwn own (lineOf x.pa), .ok ())

-- Page faults of engines and of the hub

/-- A fault of a unit that is no thread: the queue it works for is given. ACC is 5 for a read, 6 for a write, 3 for a fetch
(R257). -/
def State.unitFault (s : State) (site : FaultSite) (f : XFault) (va unit die core q ctx : Nat) (acc : Nat := if f.wr then 6 else 5) : State :=
  let p : PFault :=
    { site := site, va := BitVec.ofNat 64 va, cause := f.cause, acc := acc, unit := unit, die := die, core := core, slot := ((s.queue q).bind Queue.slot).getD 0, queue := q, ctx := ctx
      fn := ((s.queue q).map Queue.fn).getD 0, page := f.page, size := f.size, noted := false, tag := none, replayed := false, cancelled := false }
  { s with faults := s.faults ++ [(s.fresh, p)] }.bump

end Sys2Proof.Machine
end

