-- ==== Sys2Proof/Machine/Matrix.lean ====
section
/-! DEFINITION. The matrix engine (R142-R163, R318, R319, R372): MMA, ACCLD, ACCST and ACCZ append entries to the core's chain; the engine runs the oldest
entry of a workgroup and completes it. -/
namespace Sys2Proof.Machine

-- The parameter block (R144, R145)

/-- Row sizes of the kinds in scratchpad (R145). -/
def aRowSize (k : Nat) : Nat := match k with | 1 => 33 | 2 => 17 | 3 => 64 | 4 => 32 | 5 => 32 | _ => 16
def bRowSize (k : Nat) : Nat := match k with | 1 => 17 | 2 => 33 | 3 => 64 | 4 => 64 | 5 => 32 | 6 => 32 | _ => 16

/-- Points of a Hadamard selector; 0 for none. -/
def hadSize (c : Nat) : Nat := match c with | 0 => 0 | 1 => 16 | 2 => 32 | _ => 64

/-- Fields of a parameter block. -/
structure MxBlock where
  ak   : Nat
  bk   : Nat
  apl  : Nat
  arnd : Bool
  ovw  : Bool
  ahad : Nat
  bhad : Nat
  tile : Nat
  mr   : Nat
  nc   : Nat
  kblk : Nat
  arow : Nat
  acol : Nat
  stat : Nat
  cw   : DWord
  seq  : DWord
  cwsc : Nat
  cwsp : Nat
deriving DecidableEq, Repr

def mxBlockOf (b : List Byte) : MxBlock :=
  let flg := fld b 3 1
  { ak := fld b 0 1, bk := fld b 1 1, apl := fld b 2 1, arnd := flg.testBit 0, ovw := flg.testBit 1, ahad := hadSize (flg / 4 % 4)
    bhad := hadSize (flg / 16 % 4), tile := fld b 4 1, mr := fld b 5 1, nc := fld b 6 1, kblk := fld b 8 2, arow := fld b 12 4
    acol := fld b 16 4, stat := fld b 20 4, cw := BitVec.ofNat 64 (fld b 24 8), seq := BitVec.ofNat 64 (fld b 32 8), cwsc := fld b 40 1
    cwsp := fld b 41 1 }

/-- Plane kinds of A. -/
def planeKind (k : Nat) : Bool := k == 0 || k == 1 || k == 3

/-- No fate of R144 that the block alone decides; `accw` and `spb` are the launch's. Rows and columns count from 0 to 127. -/
def mxBlockOk (b : List Byte) (accw spb : Nat) : Bool :=
  let m := mxBlockOf b
  m.ak ≤ 7 && m.bk ≤ 8
    && (if planeKind m.ak then 1 ≤ m.apl && m.apl ≤ 16 else m.apl == 0)
    && fld b 3 1 < 64 && (!m.arnd || m.ak ≤ 1)
    && m.tile ≤ 3 && m.tile < accw && allZero ((b.drop 7).take 1)
    && 1 ≤ m.kblk && m.kblk ≤ 256 && (m.bk != 0 || m.kblk == 1) && (m.ak != 2 || m.kblk % 5 == 0)
    && m.kblk % (max 1 (m.ahad / 16)) == 0 && m.kblk % (max 1 (m.bhad / 16)) == 0
    && allZero ((b.drop 10).take 2) && (m.ak == 0 || (m.arow == 0 && m.acol == 0))
    && (m.stat == 0xFFFFFFFF || (m.stat % 4 == 0 && m.stat + 4 ≤ spb))
    && hi4zero m.cw && m.cwsc ≤ 6 && m.cwsp ≤ 1 && allZero (b.drop 42)
    && (m.ahad == 0 || m.ak != 2) && (m.bhad ≤ 16 || m.bk != 0)

/-- RPITCH is a multiple of 16 and at least the row size (R146). -/
def pitchOk (p : Word) (size : Nat) : Bool := pitchRow p % 16 == 0 && size ≤ pitchRow p

/-- Slabs of A in scratchpad: a ternary slab holds five blocks. -/
def MxBlock.aSlabs (m : MxBlock) : Nat := if m.ak = 2 then m.kblk / 5 else m.kblk

-- Issue

def State.accwOf (s : State) (w : Nat) : Nat := ((s.lrOf w).map (fun lr => partAccw lr.part)).getD 0

def State.mxParam (s : State) (w : Nat) (a : Word) : List Byte := s.spadRead w a.toNat 64

/-- Rows of A and columns of B that a command reads; the array has 128 of each. -/
def MxBlock.rows (m : MxBlock) : Nat := min (m.mr + 1) 128
def MxBlock.cols (m : MxBlock) : Nat := min (m.nc + 1) 128

/-- The conditions of R144 to R148 and R159 at an MMA. -/
def mmaCheck (f : OwnF) (s : State) (g : GroupId) (ts : List ThreadId) : Option TrapInfo :=
  let bad := some (illegalState)
  match ts with
  | [] => none
  | t :: _ =>
    let a := s.rd t f.a
    let spb := s.spbOf g.wg
    let baton := ((s.lrOf g.wg).map (fun lr => lr.batonSel != 0)).getD false
    if baton && !s.holdsBaton g then bad
    else if a.toNat % 64 != 0 || spb < a.toNat + 64 then bad
    else
      let b := s.mxParam g.wg a
      let m := mxBlockOf b
      if !mxBlockOk b (s.accwOf g.wg) spb then bad
      else if f.b.isZ then bad
      else if m.bk = 0 && (f.d.isZ || !f.c.isZ || s.widthOf t != 64) then bad
      else if m.bk != 0 && (!f.d.isZ || f.c.isZ) then bad
      else if m.ak != 0 && !(pitchOk (s.rdK t f.b 1) (aRowSize m.ak)
          && s.rowsOk g.wg (s.rdK t f.b 0) (s.rdK t f.b 1) m.aSlabs m.rows (aRowSize m.ak)) then bad
      else if m.bk != 0 && !(pitchOk (s.rdK t f.c 1) (bRowSize m.bk)
          && s.rowsOk g.wg (s.rdK t f.c 0) (s.rdK t f.c 1) m.kblk m.cols (bRowSize m.bk)) then bad
      else none

/-- Appends an entry for a group, counted on its executing threads' flags; while the chain is full its threads wait (R143). -/
def State.appendMx (s : State) (i : Instr) (g : GroupId) (ts : List ThreadId) (op : MxOp) : GroupFx :=
  let c := ((s.wg g.wg).map Workgroup.coreIx).getD 0
  if 64 ≤ (s.core c).chain.length then (s, some .chain)
  else
    let flag := (ts.head?.bind s.thr).bind (fun x => x.flagOf i)
    let e : MxEntry :=
      { wg := g.wg, gid := g.gid, op := op, issuers := ts, flag := flag, seq := s.fresh, slab := 0, flags := 0, started := false, finished := false
        fault := false, handle := none, late := false }
    let first := !((s.core c).chain.any (fun x => x.wg == g.wg))
    let s := (s.bump.updCore c (fun x => { x with chain := x.chain ++ [e] })).countAll ts i
    (if first then s.leaseStep c none else s, none)

def mmaGo (f : OwnF) (s : State) (g : GroupId) (ts : List ThreadId) : GroupFx :=
  match ts with
  | [] => (s, none)
  | t :: _ =>
    let b := s.mxParam g.wg (s.rd t f.a)
    let regb := if fld b 1 1 = 0 then (s.groupThreads g).map (fun u => (List.range 9).map (fun k => s.rdK u f.d k)) else []
    s.appendMx (.mma f) g ts (.mma b (s.rdK t f.b 0) (s.rdK t f.b 1) (s.rdK t f.c 0) (s.rdK t f.c 1) regb)

def execMma (f : OwnF) (s : State) : Host.Outcome State Fault Refusal := runGroups (.mma f) (mmaCheck f) (mmaGo f) s

/-- The checks of ACCLD and ACCST (R319). -/
def accCheck (f : OwnF) (tile : Nat) (s : State) (g : GroupId) (ts : List ThreadId) : Option TrapInfo :=
  match ts with
  | [] => none
  | t :: _ =>
    if tile < s.accwOf g.wg && pitchOk (s.rdK t f.a 1) 512 && s.rowsOk g.wg (s.rdK t f.a 0) (s.rdK t f.a 1) 1 128 512 then none
    else some (illegalState)

def acczCheck (tile : Nat) (s : State) (g : GroupId) (_ : List ThreadId) : Option TrapInfo :=
  if tile < s.accwOf g.wg then none else some (illegalState)

def accGo (i : Instr) (f : OwnF) (op : Word → Word → MxOp) (s : State) (g : GroupId) (ts : List ThreadId) : GroupFx :=
  match ts with
  | [] => (s, none)
  | t :: _ => s.appendMx i g ts (op (s.rdK t f.a 0) (s.rdK t f.a 1))

def execAccld (f : OwnF) (tile : Fin 4) (s : State) : Host.Outcome State Fault Refusal :=
  runGroups (.accld f tile) (accCheck f tile.val) (accGo (.accld f tile) f (fun a b => .accld a b tile.val)) s
def execAccst (f : OwnF) (tile : Fin 4) (s : State) : Host.Outcome State Fault Refusal :=
  runGroups (.accst f tile) (accCheck f tile.val) (accGo (.accst f tile) f (fun a b => .accst a b tile.val)) s
def execAccz (f : OwnF) (tile : Fin 4) (s : State) : Host.Outcome State Fault Refusal :=
  runGroups (.accz f tile) (acczCheck tile.val) (accGo (.accz f tile) f (fun _ _ => .accz tile.val)) s

/-- MATRIX_CHAIN_ROOM: an entry has freed, and the threads waiting for one execute their instruction again (R143). -/
def State.chainRoom (s : State) (c : Nat) : State :=
  if (s.core c).chain.length < 64 then
    { s with threads := s.threads.map (fun (e : ThreadId × Thread) =>
      (e.1, if s.coreOf e.1 == c && e.2.wait == .chain then { e.2 with wait := .none } else e.2)) }
  else s

def execMatrixChainRoom (core : Nat) (s : State) : Host.Outcome State Fault Refusal := .next (s.chainRoom core)

-- Block operands (R149-R151)

/-- A block of 16 mantissas of k bits: its exponent byte, the mantissas, and the status bits raised on the way. -/
structure MxVec where
  e  : Nat
  ms : List Int
  st : BitVec 6
deriving DecidableEq, Repr

/-- align_block of R150. -/
def alignBlock (ds : List Val) (k : Nat) (rne : Bool) : MxVec :=
  if ds.any (fun d => !d.isFin) then ⟨255, List.replicate 16 0, statOf flNV⟩
  else if ds.all Val.isZero then ⟨0, List.replicate 16 0, 0⟩
  else
    let e := scaleCode (-1) ds
    let lo : Int := -(2 ^ (k - 1) : Nat)
    let hi : Int := (2 ^ (k - 1) : Nat) - 1
    let ns := ds.map (fun d => (roundInt (if rne then .rne else .rtz) (d.scale (127 - (e : Int) + ((k : Int) - 1)))).1)
    ⟨e, ns.map (clampI lo hi), if ns.any (fun n => n < lo || hi < n) then statSAT else 0⟩

/-- Exact values of a block operand; a NaN block decodes to NaN (R128). -/
def MxVec.vals (v : MxVec) (k : Nat) : List Val :=
  if v.e = 255 then v.ms.map (fun _ => Val.canon) else v.ms.map (fun m => (decodeE (.bfp k) m).scale ((v.e : Int) - 127))

/-- A block quantised again at its width after a transform (R140). -/
def requant (k : Nat) (xs : List Val) : MxVec :=
  let e := scaleCode (-1) xs
  let qs := xs.map (fun x => quantElem (.bfp k) x e .rne false)
  ⟨e, qs.map Prod.fst, statOf (qs.foldl (fun f q => f ||| q.2) 0)⟩

/-- Block j of a run after the transform of n points; `vs` are the n/16 blocks of the run (R140, R151). -/
def hadBlocks (k n : Nat) (vs : List MxVec) (j : Nat) : MxVec :=
  let st := vs.foldl (fun a v => a ||| v.st) 0
  if vs.any (fun v => v.e == 255) then ⟨255, List.replicate 16 0, st⟩
  else
    let xs := vs.flatMap (fun v => v.vals k)
    let ys := (List.range n).map (fun i => hadExact xs i)
    let q := requant k ((ys.drop (16 * j)).take 16)
    { q with st := q.st ||| st }

/-- Block j of a run of floating-point elements, transformed and then quantised with RNE (R151). -/
def hadFloats (k : Nat) (xs : List Val) (j : Nat) : MxVec :=
  let ys := hadFloat xs
  let part := (ys.drop (16 * j)).take 16
  let v := alignBlock (part.map (fun y => decodeF fp32 y.1)) k true
  { v with st := v.st ||| statOf (part.foldl (fun f y => f ||| y.2) 0) }

/-- 16 elements of a floating-point format in a row. -/
def rowVals (f : Fmt) (bs : List Byte) : List Val := (List.range 16).map (fun i => decodeF f (fld bs (f.width / 8 * i) (f.width / 8)))

/-- Format, width and rounding of the floating-point kinds (R145, R150). -/
def aFloat (ak apl : Nat) : Option (Fmt × Nat × Bool) :=
  match ak with
  | 3 => some (fp32, apl, true)
  | 4 => some (bf16, 16, false)
  | 5 => some (fp16, 16, false)
  | 6 => some (e4m3, 8, false)
  | 7 => some (e5m2, 8, false)
  | _ => none

def bFloat (bk : Nat) : Option (Fmt × Nat × Bool) :=
  match bk with
  | 3 => some (fp32, 8, true)
  | 4 => some (fp32, 16, true)
  | 5 => some (bf16, 16, false)
  | 6 => some (fp16, 16, false)
  | 7 => some (e4m3, 8, false)
  | 8 => some (e5m2, 8, false)
  | _ => none

/-- Mantissa widths of the operands: ternary digits count as one bit place each. -/
def MxBlock.aBits (m : MxBlock) : Nat := match aFloat m.ak m.apl with | some (_, k, _) => k | none => if m.ak = 2 then 1 else m.apl
def MxBlock.bBits (m : MxBlock) : Nat := match bFloat m.bk with | some (_, k, _) => k | none => if m.bk = 2 then 16 else 8

/-- A plane-tensor block read at k planes (R136, R137, R149). -/
def planeBlock (r : Rd) (h : Handle) (k : Nat) (rnd : Bool) (b : Nat) : Ev MxVec :=
  (Ev.need ((blockAddrs h b (planesRead k h.pcnt rnd)).all (fun p => p.1 < 2 ^ 60)) b).and (fun _ =>
    (r (h.expAddr b) 1).and (fun eb =>
      (Ev.list (fun j => (r (h.planeAddr b j) 2).and (fun w => Ev.ret (leNat w))) (List.range (planesRead k h.pcnt rnd))).and (fun ws =>
        let e := leNat eb
        Ev.ret ⟨e, (List.range 16).map (mantRnd k h.pcnt e rnd ws), 0⟩)))

/-- Block j of row i of A before any transform. -/
def MxBlock.aRaw (m : MxBlock) (s0 : State) (w : Nat) (r : Rd) (h : Option Handle) (base pitch : Word) (j i : Nat) : Ev MxVec :=
  match m.ak with
  | 0 => (match h with
      | some h => planeBlock r h m.apl m.arnd ((m.arow + i) * h.bpr + m.acol + j)
      | none => Ev.fail (.fate 0))
  | 1 =>
    let bs := s0.rowBytes w base pitch j i 33
    let e := fld bs 32 1
    let ws := (List.range 16).map (fun p => fld bs (2 * p) 2)
    Ev.ret ⟨e, (List.range 16).map (mantRnd m.apl 16 e m.arnd ws), 0⟩
  | _ =>
    let bs := s0.rowBytes w base pitch (j / 5) i 17
    let ds := (bs.take 16).map ternDigits
    let all := ds.flatMap (fun d => d.getD [0, 0, 0, 0, 0])
    Ev.ret ⟨fld bs 16 1, (all.drop (16 * (j % 5))).take 16, if ds.any Option.isNone then statOf flFMT else 0⟩

/-- Block j of row i of A as the array takes it. -/
def MxBlock.aBlock (m : MxBlock) (s0 : State) (w : Nat) (r : Rd) (h : Option Handle) (base pitch : Word) (j i : Nat) : Ev MxVec :=
  match aFloat m.ak m.apl with
  | some (f, k, rne) =>
    let vals := fun j => rowVals f (s0.rowBytes w base pitch j i (aRowSize m.ak))
    if m.ahad = 0 then Ev.ret (alignBlock (vals j) k rne)
    else
      let n := m.ahad / 16
      Ev.ret (hadFloats k ((List.range n).flatMap (fun q => vals (j / n * n + q))) (j % n))
  | none =>
    if m.ahad = 0 then m.aRaw s0 w r h base pitch j i
    else
      let n := m.ahad / 16
      (Ev.list (fun q => m.aRaw s0 w r h base pitch (j / n * n + q) i) (List.range n)).and (fun vs =>
        Ev.ret (hadBlocks m.apl m.ahad vs (j % n)))

/-- Column n of a register-sourced B (R148). -/
def regColumn (rb : List (List Word)) (n : Nat) : MxVec :=
  let byte := fun lane k b => byteOf ((rb.getD lane []).getD k 0) b
  ⟨(byte (n / 4) 8 (n % 4)).toNat, (List.range 16).map (fun k => sgn 8 (byte (n / 2) (k / 2) (2 * (k % 2) + n % 2)).toNat), 0⟩

/-- Block j of column n of B before any transform, for the block kinds. -/
def MxBlock.bRaw (m : MxBlock) (s0 : State) (w : Nat) (base pitch : Word) (rb : List (List Word)) (j n : Nat) : MxVec :=
  match m.bk with
  | 0 => regColumn rb n
  | 1 =>
    let bs := s0.rowBytes w base pitch j n 17
    ⟨fld bs 16 1, (List.range 16).map (fun i => sgn 8 (fld bs i 1)), 0⟩
  | _ =>
    let bs := s0.rowBytes w base pitch j n 33
    ⟨fld bs 32 1, (List.range 16).map (fun i => sgn 16 (fld bs (2 * i) 2)), 0⟩

def MxBlock.bBlock (m : MxBlock) (s0 : State) (w : Nat) (base pitch : Word) (rb : List (List Word)) (j n : Nat) : MxVec :=
  match bFloat m.bk with
  | some (f, k, rne) =>
    let vals := fun j => rowVals f (s0.rowBytes w base pitch j n (bRowSize m.bk))
    if m.bhad = 0 then alignBlock (vals j) k rne
    else
      let q := m.bhad / 16
      hadFloats k ((List.range q).flatMap (fun p => vals (j / q * q + p))) (j % q)
  | none =>
    if m.bhad = 0 then m.bRaw s0 w base pitch rb j n
    else
      let q := m.bhad / 16
      hadBlocks m.bBits m.bhad ((List.range q).map (fun p => m.bRaw s0 w base pitch rb (j / q * q + p) n)) (j % q)

-- Accumulation (R152)

/-- One slab's addition into a cell: the new code and the status bits. `sh` is the number of fraction bits of the two operands together. -/
def cellStep (sh : Int) (a b : MxVec) (acc : Nat) : Nat × BitVec 6 :=
  let p : Val × BitVec 6 :=
    if a.e = 255 || b.e = 255 then (Val.canon, statOf flNV)
    else
      let sp := (a.ms.zip b.ms).foldl (fun x z => x + z.1 * z.2) (0 : Int)
      let r := encode fp32 ((Val.ofInt sp).scale ((a.e : Int) + b.e - 254 - sh)) .rne false
      (decodeF fp32 r.1, statOf r.2)
  let x := addV .rne (decodeF fp32 acc) p.1
  let r := encode fp32 x.1 .rne false
  (r.1, p.2 ||| statOf x.2 ||| statOf r.2)

/-- One slab over the tile: rows of A against columns of B. -/
def slabStep (sh : Int) (as bs : List MxVec) (tile : List (List Nat)) : List (List Nat) × BitVec 6 :=
  let rows := tile.zipIdx.map (fun row =>
    match as[row.2]? with
    | none => (row.1, (0 : BitVec 6))
    | some a =>
      let cs := row.1.zipIdx.map (fun cell => match bs[cell.2]? with
        | none => (cell.1, (0 : BitVec 6))
        | some b => cellStep sh a b cell.1)
      (cs.map Prod.fst, cs.foldl (fun f c => f ||| c.2) a.st))
  (rows.map Prod.fst, rows.foldl (fun f r => f ||| r.2) (bs.foldl (fun f b => f ||| b.st) 0))

/-- Words of a tile by row. -/
def chunks4 : List Byte → List Nat
  | a :: b :: c :: d :: rest => leNat [a, b, c, d] :: chunks4 rest
  | _ => []

def splitRows : Nat → List Nat → List (List Nat)
  | 0, _ => []
  | n + 1, xs => xs.take 128 :: splitRows n (xs.drop 128)

def tileRows (m : Mem) : List (List Nat) := splitRows 128 (chunks4 (Mem.dump 65536 0 m))
def rowsTile (rs : List (List Nat)) : Mem := Mem.ofBytes 0 (rs.flatMap (fun r => r.flatMap (fun x => leBytes 4 x)))

def zeroTile (m : MxBlock) (rs : List (List Nat)) : List (List Nat) :=
  rs.zipIdx.map (fun r => r.1.zipIdx.map (fun c => if r.2 < m.rows && c.2 < m.cols then 0 else c.1))

/-- How a command's array work ends. -/
inductive MxEnd where
  | done
  | fault (f : XFault) (va : Nat)
  | fate
deriving DecidableEq, Repr

/-- The slabs from `j` on; at a failed translation the slabs done stay (R162). -/
def MxBlock.slabs (m : MxBlock) (s0 : State) (w : Nat) (r : Rd) (h : Option Handle) (xa xb ya yb : Word) (rb : List (List Word)) :
    Nat → Nat → List (List Nat) → BitVec 6 → State → State × List (List Nat) × Nat × BitVec 6 × MxEnd
  | 0, j, t, st, s => (s, t, j, st, .done)
  | n + 1, j, t, st, s =>
    match (Ev.list (fun i => m.aBlock s0 w r h xa xb j i) (List.range m.rows)) s with
    | (s, .error (.fault f va)) => (s, t, j, st, .fault f va)
    | (s, .error (.fate _)) => (s, t, j, st, .fate)
    | (s, .ok as) =>
      let bs := (List.range m.cols).map (fun c => m.bBlock s0 w ya yb rb j c)
      let sh : Int := (if m.ak = 2 then 0 else (m.aBits : Int) - 1) + ((m.bBits : Int) - 1)
      let z := slabStep sh as bs t
      m.slabs s0 w r h xa xb ya yb rb n (j + 1) z.1 (st ||| z.2) s

/-- The handle's bytes of a plane-tensor A, read once, when the command starts (R135, R149); `kept` is what it has read. -/
def MxBlock.readHandle (m : MxBlock) (r : Rd) (va : DWord) (kept : Option (List Byte)) : Ev (List Byte) :=
  match kept with
  | some b => Ev.ret b
  | none =>
    if m.ak != 0 then Ev.ret []
    else (Ev.need (va.toNat % 32 == 0 && hi4zero va) va.toNat).and (fun _ => rdBytes r va.toNat 32)

/-- The handle in those bytes; none when it has a fate of R134, R135 or R149. -/
def MxBlock.handle (m : MxBlock) (b : List Byte) : Option (Option Handle) :=
  if m.ak != 0 then some none
  else match handleOf b with
    | none => none
    | some h =>
      if m.acol + m.kblk ≤ h.bpr && (m.arow + m.rows - 1) * h.bpr + m.acol + m.kblk - 1 < h.nblk then some (some h) else none

/-- Updates the entry of a chain with the given number. -/
def State.updMx (s : State) (c seq : Nat) (f : MxEntry → MxEntry) : State :=
  s.updCore c (fun x => { x with chain := x.chain.map (fun e => if e.seq = seq then f e else e) })

def State.setTile (s : State) (w k : Nat) (m : Mem) : State := s.updWg w (fun x => { x with tiles := x.tiles.set k m })
def State.tileOf (s : State) (w k : Nat) : Mem := ((s.wg w).map (fun x => x.tiles.getD k [])).getD []

/-- A matrix command that fails: its tile is unspecified, a free value, and its workgroup is aborted (R162). -/
def State.mxFail (s : State) (w tile : Nat) : State :=
  let k := s.fresh
  ((s.bump).setTile w tile (Mem.ofBytes 0 ((List.range 65536).map (Config.failedTile k)))).engineFail w

/-- Runs an MMA entry from its next slab; the completion word is judged when it first starts (R53). -/
def State.runMma (s : State) (c : Nat) (e : MxEntry) (b : List Byte) (xa xb ya yb : Word) (rb : List (List Word)) : State :=
  let m := mxBlockOf b
  let d := c / 32
  let ctx := s.ctxOf e.wg
  let r := engRead d ctx
  let stop := fun (s : State) (f : XFault) (va : Nat) =>
    (s.updMx c e.seq (fun x => { x with fault := true })).unitFault (.matrix c e.wg) f va 2 d (c % 32) (s.queueOfWg e.wg) ctx
  if !e.started && s.cwBad d ctx (some e.wg) (m.cwsp == 1) m.cw m.cwsc then s.mxFail e.wg m.tile
  else
    let late := if e.started then e.late else s.cwLate d ctx (m.cwsp == 1) m.cw m.cwsc
    let s := s.updMx c e.seq (fun x => { x with started := true, late := late })
    match m.readHandle r (pairVal xa xb) e.handle s with
    | (s, .error (.fault f va)) => stop s f va
    | (s, .error (.fate _)) => s.mxFail e.wg m.tile
    | (s, .ok hb) =>
    match m.handle hb with
    | none => s.mxFail e.wg m.tile
    | some h =>
      let s := s.updMx c e.seq (fun x => { x with handle := some hb })
      let t0 := tileRows (s.tileOf e.wg m.tile)
      let t0 := if m.ovw && e.slab = 0 then zeroTile m t0 else t0
      match m.slabs s e.wg r h xa xb ya yb rb (m.kblk - e.slab) e.slab t0 e.flags s with
      | (s, t, j, st, .done) =>
        (s.setTile e.wg m.tile (rowsTile t)).updMx c e.seq (fun x => { x with slab := j, flags := st, finished := true })
      | (s, t, j, st, .fault f va) =>
        stop ((s.setTile e.wg m.tile (rowsTile t)).updMx c e.seq (fun x => { x with slab := j, flags := st })) f va
      | (s, _, _, _, .fate) => s.mxFail e.wg m.tile

/-- ACCLD and ACCST copy the tile's 128 rows of 512 bytes from or to the cluster scratchpad (R154, R319). -/
def State.loadTile (s : State) (w : Nat) (base pitch : Word) : List Byte := (List.range 128).flatMap (fun i => s.rowBytes w base pitch 0 i 512)

def State.storeTile (s : State) (w : Nat) (base pitch : Word) (bs : List Byte) : State :=
  bs.zipIdx.foldl (fun s p => s.clPut w (rowAddr base pitch 0 (p.2 / 512) (p.2 % 512)) p.1) s

/-- The oldest entry of a workgroup. -/
def State.mxHead (s : State) (c w : Nat) : Option MxEntry := (mxHeads (s.core c).chain).find? (fun e => e.wg == w)

/-- The workgroup's engine commands run: it is resident and not halted. -/
def State.enginesRun (s : State) (w : Nat) : Bool := ((s.wg w).map (fun x => x.resident && !x.ended && x.halt == .running)).getD false

/-- MATRIX_ENTRY_START: the oldest entry of a workgroup runs; an MMA only while its slot holds the lease (R155, R160). -/
def State.mxStart (s : State) (c w : Nat) : State :=
  match s.mxHead c w with
  | none => s
  | some e =>
    if !s.enginesRun w || e.fault || e.finished then s
    else
      let fin := fun (s : State) => s.updMx c e.seq (fun x => { x with started := true, finished := true })
      match e.op with
      | .mma b xa xb ya yb rb => if (s.core c).lease = some (s.slotOfWg w) then s.runMma c e b xa xb ya yb rb else s
      | .accld b p t => fin (s.setTile w t (Mem.ofBytes 0 (s.loadTile w b p)))
      | .accst b p t => fin (s.storeTile w b p (Mem.dump 65536 0 (s.tileOf w t)))
      | .accz t => fin (s.setTile w t [])

def execMatrixEntryStart (core wg : Nat) (s : State) : Host.Outcome State Fault Refusal := .next (s.mxStart core wg)

/-- Takes a completed entry off the chain: the issuers' flags, and the lease (R153, R160). -/
def State.mxRetire (s : State) (c : Nat) (e : MxEntry) : State :=
  let s := s.uncountAll e.issuers e.flag
  let s := s.updCore c (fun x => { x with chain := x.chain.filter (fun y => y.seq != e.seq) })
  s.leaseStep c (if e.isMma then some (s.slotOfWg e.wg) else none)

/-- MATRIX_ENTRY_COMPLETE: the status word is ORed, the completion word written, SETB decremented (R153, R156). -/
def State.mxComplete (s : State) (c w : Nat) : State :=
  match s.mxHead c w with
  | none => s
  | some e =>
    if !s.enginesRun w || e.fault || !e.finished then s
    else
      match e.op with
      | .mma b _ _ _ _ _ =>
        let m := mxBlockOf b
        let d := c / 32
        let ctx := s.ctxOf w
        let s1 := if m.stat = 0xFFFFFFFF then s
          else s.spadWrite w m.stat (leBytes 4 (leNat (s.spadRead w m.stat 4) ||| e.flags.toNat))
        match s1.storeDone d ctx (some w) (m.cwsp == 1) m.cw m.seq m.cwsc e.late (some c) with
        | (s2, .ok _) => s2.mxRetire c e
        | (_, .error (.fate _)) => s.mxFail w m.tile
        | (_, .error (.fault f va)) =>
          (s.updMx c e.seq (fun x => { x with fault := true })).unitFault (.matrix c w) f va 2 d (c % 32) (s.queueOfWg w) ctx
      | _ => s.mxRetire c e

def execMatrixEntryComplete (core wg : Nat) (s : State) : Host.Outcome State Fault Refusal := .next (s.mxComplete core wg)

end Sys2Proof.Machine
end

