-- ==== Sys2Proof/Machine/Copy.lean ====
section
/-! DEFINITION. Command chains, the CPY queue, copy commands and static copy schedules (R164-R182, R192, R334, R335): CHAPP, CHADV, CPY and
the steps of the copy engine. The layout and collective engines share the chains and the NOP command. -/
namespace Sys2Proof

-- Engine instances (R164)

/-- The die of an instance. -/
def EngRef.die : EngRef → Nat
  | .copy c => c / 32
  | .layout d => d
  | .collective d => d

/-- UNIT and CORE of a fault record (R257). -/
def EngRef.unit : EngRef → Nat
  | .copy _ => 1
  | .layout _ => 3
  | .collective _ => 4
def EngRef.coreCode : EngRef → Nat
  | .copy c => c % 32
  | _ => 0xFF

/-- Chains an instance may list. -/
def EngRef.room : EngRef → Nat
  | .copy _ => 8
  | _ => 64

end Sys2Proof

namespace Sys2Proof.Machine

-- Chain descriptors (R165)

/-- Fields of a chain descriptor. -/
structure ChainDesc where
  ring  : Nat
  lsize : Nat
  eng   : Nat
  die   : Nat
  core  : Nat
  wtail : Nat
  tail  : Nat
  head  : Nat
deriving DecidableEq, Repr

def chainDescOf (b : List Byte) : ChainDesc :=
  { ring := fld b 0 8, lsize := fld b 8 1, eng := fld b 9 1, die := fld b 10 1, core := fld b 11 1, wtail := fld b 16 8, tail := fld b 24 8
    head := fld b 32 8 }

/-- No fate of the descriptor for a thread of a core. -/
def ChainDesc.ok (d : ChainDesc) (c : Nat) : Bool :=
  d.ring % 64 == 0 && d.ring < 2 ^ 60 && 1 ≤ d.lsize && d.lsize ≤ 16 && d.eng ≤ 2 && d.die == c / 32
    && d.core == (if d.eng = 0 then c % 32 else 0)

/-- The engine instance of a chain. -/
def ChainDesc.ref (d : ChainDesc) (c : Nat) : EngRef := match d.eng with | 0 => .copy c | 1 => .layout (c / 32) | _ => .collective (c / 32)

/-- Address of entry n. -/
def ChainDesc.entry (d : ChainDesc) (n : Nat) : Nat := (d.ring + 64 * (n % 2 ^ d.lsize)) % 2 ^ 64

/-- A core's read of a descriptor, at its home L2, as of an atomic; the system range has none (R109, R167). -/
def descRead (c ctx : Nat) : Rd := fun va n s =>
  if 2 ^ 60 ≤ va then (s, .error (.fate va))
  else
    match s.xlate (c / 32) ctx va { r := true, w := true } with
    | (s, .error f) => (s, .error (.fault f va))
    | (s, .ok x) => if inSystem x.pa then (s, .error (.fate va)) else let r := s.atRead c x.pa n x.attr .home; (r.1, .ok r.2)

/-- Writes 8 bytes of a descriptor at its home L2, for a party of a die. -/
def State.descPut (s : State) (d ctx va v : Nat) : State × Except (XFault × Nat) Unit :=
  match s.xlate d ctx (va % 2 ^ 60) { w := true } with
  | (s, .error f) => (s, .error (f, va))
  | (s, .ok x) => ((if x.attr.c then s.dirTouch d x.pa true else s).homeWrite x.pa (leBytes 8 v), .ok ())

/-- An engine's read of a descriptor. -/
def engDesc (d ctx va : Nat) : Ev ChainDesc :=
  (rdBytes (readAt d ctx { r := true } (fun s pa n _ => (s, Mem.rdN s.mem pa n))) va 64).and (fun b => Ev.ret (chainDescOf b))

-- Chains that engines list (R164, R168)

def State.chainsOf (s : State) : EngRef → List Chain
  | .copy c => (s.core c).chains
  | .layout d => (s.die d).layout
  | .collective d => (s.die d).coll

def State.setChains (s : State) (e : EngRef) (f : List Chain → List Chain) : State :=
  match e with
  | .copy c => s.updCore c (fun x => { x with chains := f x.chains })
  | .layout d => s.updDie d (fun x => { x with layout := f x.layout })
  | .collective d => s.updDie d (fun x => { x with coll := f x.coll })

def Chain.is (h : Chain) (desc : DWord) (ctx : Nat) : Bool := h.desc == desc && h.ctx == ctx

def State.chain (s : State) (e : EngRef) (desc : DWord) (ctx : Nat) : Option Chain := (s.chainsOf e).find? (fun h => h.is desc ctx)

def State.updChain (s : State) (e : EngRef) (desc : DWord) (ctx : Nat) (f : Chain → Chain) : State :=
  s.setChains e (fun hs => hs.map (fun h => if h.is desc ctx then f h else h))

def State.dropChain (s : State) (e : EngRef) (desc : DWord) (ctx : Nat) : State := s.setChains e (fun hs => hs.filter (fun h => !h.is desc ctx))

-- CHAPP and CHADV (R166-R168, R334)

def chainDesc (f : OwnF) (s : State) (t : ThreadId) : DWord := s.rd64 t f.a

def descRdr (s : State) (t : ThreadId) : Rd := descRead (s.coreOf t) (s.ctxOf t.wg)

/-- The descriptor as it stands now: a group that acted before may have changed it since it was read for the checks. -/
def nowDesc (s : State) (t : ThreadId) (va : Nat) (data : List (ThreadId × List Byte)) : List (ThreadId × List Byte) :=
  match rdBytes (descRdr s t) va 64 s with
  | (_, .ok b) => [(t, b)]
  | _ => data

/-- .L offset sE is aligned and in bounds. -/
def chappSlotOk (f : OwnF) (s : State) (t : ThreadId) : Bool :=
  (s.rd t f.b).toNat % 64 == 0 && (s.rd t f.b).toNat + 64 ≤ s.spbOf t.wg

def descReq (ok : State → ThreadId → Bool) (f : OwnF) (s : State) (t : ThreadId) : Option (Nat × Nat) :=
  let a := chainDesc f s t
  if ok s t && a.toNat % 64 = 0 && hi4zero a then some (a.toNat, 64) else none

/-- The descriptor of a group, or the trap of its fates. -/
def descOf (f : OwnF) (data : List (ThreadId × List Byte)) (s : State) (t : ThreadId) : Except TrapInfo ChainDesc :=
  match mget data t with
  | none => .error (illegalState (chainDesc f s t))
  | some b => if (chainDescOf b).ok (s.coreOf t) then .ok (chainDescOf b) else .error (illegalState (chainDesc f s t))

def chappCheck (f : OwnF) (data : List (ThreadId × List Byte)) (s : State) (_ : GroupId) (ts : List ThreadId) : Option TrapInfo :=
  match ts with
  | [] => none
  | t :: _ =>
    if !chappSlotOk f s t then some (illegalState)
    else match descOf f data s t with | .ok _ => none | .error i => some i

/-- The index that a group reserved before its ring entry faulted. -/
def State.reservedBy (s : State) (ts : List ThreadId) : Option Nat := ts.findSome? (fun t => (s.thr t).bind Thread.reserved)

/-- CHAPP of one group: step 1 reserves an index, step 2 writes the entry. -/
def chappGo (f : OwnF) (data : List (ThreadId × List Byte)) (s : State) (_ : GroupId) (ts : List ThreadId) : GroupFx :=
  match ts with
  | [] => (s, none)
  | t :: _ =>
    match descOf f (nowDesc s t (chainDesc f s t).toNat data) s t with
    | .error _ => (s, none)
    | .ok d =>
      let c := s.coreOf t
      let ctx := s.ctxOf t.wg
      let desc := chainDesc f s t
      let held := s.reservedBy ts
      if held.isNone && (d.wtail + 2 ^ 64 - d.head) % 2 ^ 64 = 2 ^ d.lsize then (s, some (.chapp ctx desc))
      else
        let n := held.getD d.wtail
        let r := if held.isSome then (s, .ok ()) else s.descPut (c / 32) ctx (desc.toNat + 16) (d.wtail + 1)
        match r with
        | (s, .error (x, va)) => (s.recordFault t x va 0, some .record)
        | (s, .ok _) =>
          let bs := s.spadRead t.wg (s.rd t f.b).toNat 64
          match s.xlate (c / 32) ctx (d.entry n) { w := true } with
          | (s, .error x) =>
            let s := ts.foldl (fun s u => s.updThr u (fun y => { y with reserved := some n })) s
            (s.recordFault t x (d.entry n) 0, some .record)
          | (s, .ok x) =>
            let s := s.bypassWrite c x.pa x.attr bs
            let s := ts.foldl (fun s u => s.updThr u (fun y => { y with reserved := none })) s
            (s.putRegs t (wr32 f.d (BitVec.ofNat 32 n)), none)

def execChapp (f : OwnF) (s : State) : Host.Outcome State Fault Refusal :=
  let r := s.readRecordsBy descRdr (.chapp f) 0 (descReq (chappSlotOk f) f)
  runGroups (.chapp f) (chappCheck f r.2) (chappGo f r.2) r.1

/-- The entry that sN names: low 32 bits sN, from HEAD on. -/
def ChainDesc.upTo (d : ChainDesc) (sn : Word) : Nat := d.head + (sn.toNat + 2 ^ 32 - d.head % 2 ^ 32) % 2 ^ 32

def chadvCheck (f : OwnF) (data : List (ThreadId × List Byte)) (s : State) (_ : GroupId) (ts : List ThreadId) : Option TrapInfo :=
  match ts with
  | [] => none
  | t :: _ =>
    match descOf f data s t with
    | .error i => some i
    | .ok d => if d.wtail ≤ d.upTo (s.rd t f.b) then some (illegalState) else none

/-- CHADV of one group: a release at DEV, TAIL, and the engine's list. -/
def chadvGo (f : OwnF) (data : List (ThreadId × List Byte)) (s : State) (g : GroupId) (ts : List ThreadId) : GroupFx :=
  match ts with
  | [] => (s, none)
  | t :: _ =>
    match descOf f (nowDesc s t (chainDesc f s t).toNat data) s t with
    | .error _ => (s, none)
    | .ok d =>
      let c := s.coreOf t
      let ctx := s.ctxOf g.wg
      let desc := chainDesc f s t
      let e := d.ref c
      let n := d.upTo (s.rd t f.b)
      let tail := max d.tail (n + 1)
      let listed := (s.chain e desc ctx).isSome
      if !listed && d.head < tail && e.room ≤ (s.chainsOf e).length then (s, some (.chadv e))
      else
        match (s.release c (s.tagOf g.wg) .dev).descPut (c / 32) ctx (desc.toNat + 24) tail with
        | (s, .error (x, va)) => (s.recordFault t x va 0, some .record)
        | (s, .ok _) =>
          let s := if listed || tail ≤ d.head then s
            else s.setChains e (fun hs => hs ++ [⟨desc, ctx, s.queueOfWg g.wg, [], none, [], [], false⟩])
          (if d.tail < tail then s.updChain e desc ctx (fun h => { h with pubs := h.pubs ++ [(tail, g.wg)] }) else s, none)

def execChadv (f : OwnF) (s : State) : Host.Outcome State Fault Refusal :=
  let r := s.readRecordsBy descRdr (.chadv f) 0 (descReq (fun _ _ => true) f)
  runGroups (.chadv f) (chadvCheck f r.2) (chadvGo f r.2) r.1

/-- The threads of a group that wait as the given one does execute their instruction again. -/
def State.wakeLike (s : State) (t : ThreadId) : State :=
  match s.thr t with
  | none => s
  | some x =>
    { s with threads := s.threads.map (fun (e : ThreadId × Thread) =>
      (e.1, if e.1.group = t.group && e.2.wait == x.wait && e.2.pc == x.pc then { e.2 with wait := .none } else e.2)) }

/-- CHAPP_ROOM: HEAD has changed, and the ring has room; a descriptor that does not translate is met again by the CHAPP itself. -/
def State.chappRoom (s : State) (t : ThreadId) : State :=
  match (s.thr t).map Thread.wait with
  | some (.chapp ctx desc) =>
    match rdBytes (descRead (s.coreOf t) ctx) desc.toNat 64 s with
    | (_, .error _) => s.wakeLike t
    | (s', .ok b) =>
      let d := chainDescOf b
      if (d.wtail + 2 ^ 64 - d.head) % 2 ^ 64 = 2 ^ d.lsize then s else s'.wakeLike t
  | _ => s

def execChappRoom (t : ThreadId) (s : State) : Host.Outcome State Fault Refusal := .next (s.chappRoom t)

/-- CHADV_LIST_ROOM: the engine's list has room. -/
def State.chadvRoom (s : State) (t : ThreadId) : State :=
  match (s.thr t).map Thread.wait with
  | some (.chadv e) => if (s.chainsOf e).length < e.room then s.wakeLike t else s
  | _ => s

def execChadvListRoom (t : ThreadId) (s : State) : Host.Outcome State Fault Refusal := .next (s.chadvRoom t)

-- CPY (R170, R335)

/-- A command as it comes from its source, at the progress its PROG gives (R178). -/
def copyRunOf (cmd : List Byte) (addr : DWord) : CopyRun :=
  let p := fld cmd 32 8
  { cmd := cmd, addr := addr, iter := p / 2 ^ 32 % 2 ^ 16, elem := p % 2 ^ 32, flags := BitVec.ofNat 4 (p / 2 ^ 60), fault := false, lives := none
    shape := none, late := false, native := false }

def cpyCheck (f : OwnF) (s : State) (g : GroupId) (ts : List ThreadId) : Option TrapInfo :=
  match ts with
  | [] => none
  | t :: _ =>
    let a := (s.rd t f.a).toNat
    if a % 64 != 0 || s.spbOf g.wg < a + 64 then some (illegalState) else none

def cpyRoom : Nat := 16

def cpyGo (f : OwnF) (s : State) (g : GroupId) (ts : List ThreadId) : GroupFx :=
  match ts with
  | [] => (s, none)
  | t :: _ =>
    let c := s.coreOf t
    if cpyRoom ≤ (s.core c).cpyq.length then (s, some .cpyq)
    else
      let a := s.rd t f.a
      let e : CpyEntry :=
        { wg := g.wg, gid := g.gid, issuers := ts, flag := (s.thr t).bind (fun x => x.flagOf (.cpy f))
          run := copyRunOf (s.spadRead g.wg a.toNat 64) (a.setWidth 64) }
      ((s.updCore c (fun x => { x with cpyq := x.cpyq ++ [e] })).countAll ts (.cpy f), none)

def execCpy (f : OwnF) (s : State) : Host.Outcome State Fault Refusal := runGroups (.cpy f) (cpyCheck f) (cpyGo f) s

/-- CPY_QUEUE_ROOM: threads waiting for a place in a core's CPY queue execute their instruction again. -/
def State.cpyQueueRoom (s : State) (c : Nat) : State :=
  if (s.core c).cpyq.length < cpyRoom then
    { s with threads := s.threads.map (fun (e : ThreadId × Thread) =>
      (e.1, if s.coreOf e.1 == c && e.2.wait == .cpyq then { e.2 with wait := .none } else e.2)) }
  else s

def execCpyQueueRoom (core : Nat) (s : State) : Host.Outcome State Fault Refusal := .next (s.cpyQueueRoom core)

-- Sources of a copy engine

/-- Whom a command works for: its workgroup, its translation context and its queue. -/
structure CopyFor where
  wg   : Option Nat
  ctx  : Nat
  queue : Nat
deriving DecidableEq, Repr

/-- The oldest CPY entry of a core whose workgroup runs: its place in the queue, and the entry. -/
def State.cpyIx (s : State) (c : Nat) : Nat := (s.core c).cpyq.findIdx (fun e => s.enginesRun e.wg)
def State.cpyHead (s : State) (c : Nat) : Option CpyEntry := (s.core c).cpyq[s.cpyIx c]?

def State.forWg (s : State) (w : Nat) : CopyFor := ⟨some w, s.ctxOf w, s.queueOfWg w⟩

/-- The command at the head of a source and whom it works for; none when there is none or its workgroup does not run. -/
def State.source (s : State) (c : Nat) (src : CopySrc) : Option (CopyRun × CopyFor) :=
  match src with
  | .cpy => (s.cpyHead c).map (fun e => (e.run, s.forWg e.wg))
  | .chain desc ctx =>
    match s.chain (.copy c) desc ctx with
    | none => none
    | some h =>
      match h.cur, h.owner with
      | some r, some w => if s.enginesRun w && !h.fault then some (r.2, ⟨some w, ctx, h.queue⟩) else none
      | _, _ => none
  | .sched w e =>
    if s.enginesRun w && ((s.wg w).map Workgroup.coreIx) == some c then
      (((s.wg w).bind (fun g => g.sched[e]?)).bind SchedSt.run).map (fun r => (r, s.forWg w))
    else none
  | .queue q =>
    match mget (s.core c).qcopy q, s.queue q with
    | some r, some k => some (r, ⟨none, k.ctx, q⟩)
    | _, _ => none

/-- Changes the command at the head of a source. -/
def State.updSource (s : State) (c : Nat) (src : CopySrc) (f : CopyRun → CopyRun) : State :=
  match src with
  | .cpy =>
    let n := s.cpyIx c
    s.updCore c (fun x => { x with cpyq := lmod x.cpyq n (fun e => { e with run := f e.run }) })
  | .chain desc ctx => s.updChain (.copy c) desc ctx (fun h => { h with cur := h.cur.map (fun r => (r.1, f r.2)) })
  | .sched w e => s.updWg w (fun g => { g with sched := lmod g.sched e (fun x => { x with run := x.run.map f }) })
  | .queue q => s.updCore c (fun x => { x with qcopy := mupd x.qcopy q f })

/-- The next iteration of a schedule entry. -/
def State.schedNext (s : State) (w e : Nat) : Nat := (((s.wg w).bind (fun g => g.sched[e]?)).map SchedSt.next).getD 0

/-- A command stops for a page fault (R178, R179): PROG goes where the command stands, and it waits. -/
def State.copyFault (s : State) (c : Nat) (src : CopySrc) (r : CopyRun) (who : CopyFor) (f : XFault) (va : Nat) : State :=
  let s := match src with
    | .chain _ _ => s.progStore c who.ctx r
    | .queue _ => s.progStore c who.ctx r
    | _ => s
  (s.updSource c src (fun x => { x with fault := true, shape := none })).unitFault (.copyCmd c src) f va 1 (c / 32) (c % 32) who.queue who.ctx

/-- A queue copy ends without completing. -/
def State.queueCopyFail (s : State) (c q : Nat) : State :=
  match (s.queue q).bind (fun k => k.running.find? (fun r => r.core == some c)) with
  | none => s
  | some r =>
    let s := s.updCore c (fun x => { x with qcopy := mdel x.qcopy q })
    (s.queueError q { code := 4, die := c / 32, core := c % 32, cmd := r.idx }).cmdEnd q r.idx none

/-- A command fails with a queue error (R192). -/
def State.copyFail (s : State) (c : Nat) (src : CopySrc) (who : CopyFor) : State :=
  match src, who.wg with
  | .queue q, _ => s.queueCopyFail c q
  | .sched w e, _ => (s.updWg w (fun g => { g with sched := lmod g.sched e (fun x => { x with failed := true }) })).engineFail w
  | _, some w => s.engineFail w
  | _, none => s

-- The copy command (R172-R176)

def copyFmt (k : Nat) : Option Fmt :=
  match k with
  | 0 => some fp32
  | 1 => some fp16
  | 2 => some bf16
  | 3 => some e4m3
  | 4 => some e5m2
  | _ => none

/-- Bytes of a format code (R173). -/
def copySize (k : Nat) : Nat := match k with | 0 => 4 | 1 => 2 | 2 => 2 | 3 => 1 | 4 => 1 | 5 => 1 | 6 => 2 | _ => 4

/-- Fields of a copy command. -/
structure CopyCmd where
  tr    : Bool
  shadow : Bool
  sat   : Bool
  fnan  : Bool
  rm    : Nat
  sfmt  : Nat
  dfmt  : Nat
  rfmt  : Nat
  ndim  : Nat
  spc   : Nat
  cwc   : Nat
  src   : Nat
  dst   : Nat
  shp   : Nat
  cw    : DWord
  seq   : DWord
  scale : Nat
  loop  : Nat
deriving DecidableEq, Repr

def copyCmdOf (b : List Byte) : CopyCmd :=
  let flg := fld b 1 1
  { tr := flg.testBit 0, shadow := flg.testBit 1, sat := flg.testBit 2, fnan := flg.testBit 3, rm := flg / 16 % 4, sfmt := fld b 2 1
    dfmt := fld b 3 1, rfmt := fld b 4 1, ndim := fld b 5 1, spc := fld b 6 1, cwc := fld b 7 1, src := fld b 8 8, dst := fld b 16 8
    shp := fld b 24 8, cw := BitVec.ofNat 64 (fld b 40 8), seq := BitVec.ofNat 64 (fld b 48 8), scale := fld b 56 4, loop := fld b 60 2 }

def CopyCmd.ef (m : CopyCmd) : Bool := m.rm == 2
def CopyCmd.scope (m : CopyCmd) : Nat := m.cwc % 8
def CopyCmd.cwsp (m : CopyCmd) : Bool := m.cwc.testBit 3
def CopyCmd.space (m : CopyCmd) (k : Nat) : Nat := m.spc / 4 ^ k % 4

/-- CWC: no reserved scope or bit. -/
def cwcOk (cwc : Nat) : Bool := cwc % 8 != 7 && cwc / 16 == 0

/-- No fate of R172 that the command alone decides. -/
def copyCmdOk (b : List Byte) : Bool :=
  let m := copyCmdOf b
  m.rm != 3 && fld b 1 1 / 64 == 0 && !(m.tr && m.ndim == 1) && !(m.fnan && 5 ≤ m.dfmt)
    && m.sfmt ≤ 7 && m.dfmt ≤ 7 && ((m.sfmt ≤ 4 && m.dfmt ≤ 4) || m.sfmt == m.dfmt) && (!m.ef || m.rfmt ≤ 4)
    && 1 ≤ m.ndim && m.ndim ≤ 4 && (List.range 4).all (fun k => m.space k != 3) && cwcOk m.cwc
    && m.src < 2 ^ 60 && m.dst < 2 ^ 60 && m.shp % 64 == 0 && (decodeF fp32 m.scale).isFin
    && m.loop != 0 && (!m.ef || m.loop == 1) && allZero ((b.drop 62).take 2) && !(m.shadow && m.space 1 != 0)
    && fld b 32 8 / 2 ^ 48 % 2 ^ 12 == 0

/-- Fields of a shape record by dimension; a dimension at or above NDIM has extent 1 (R174). -/
def shN (m : CopyCmd) (sh : List Byte) (d : Nat) : Nat := if d < m.ndim then fld sh (12 * d) 2 else 1
def shBnd (sh : List Byte) (d : Nat) : Nat := fld sh (12 * d + 2) 2
def shSrc (m : CopyCmd) (sh : List Byte) (d : Nat) : Int := if d < m.ndim then sgn 32 (fld sh (12 * d + 4) 4) else 0
def shDst (m : CopyCmd) (sh : List Byte) (d : Nat) : Int := if d < m.ndim then sgn 32 (fld sh (12 * d + 8) 4) else 0
def shStep (sh : List Byte) : Int := sgn 16 (fld sh 48 2)
def shDim (sh : List Byte) : Nat := fld sh 50 1
def shRing (sh : List Byte) : Nat := fld sh 51 1
def shTotal (m : CopyCmd) (sh : List Byte) : Nat := shN m sh 0 * shN m sh 1 * shN m sh 2 * shN m sh 3

def shapeOk (m : CopyCmd) (sh : List Byte) : Bool :=
  (List.range 4).all (fun d => shN m sh d != 0) && shDim sh ≤ 3 && (shStep sh == 0 || shDim sh < m.ndim)
    && 1 ≤ shRing sh && shRing sh ≤ 16 && (!m.ef || fld sh 56 8 < 2 ^ 60) && shTotal m sh < 2 ^ 32

/-- Coordinates of element x. -/
def coordsOf (m : CopyCmd) (sh : List Byte) (x : Nat) : List Nat :=
  let n0 := shN m sh 0
  let n1 := shN m sh 1
  let n2 := shN m sh 2
  [x % n0, x / n0 % n1, x / (n0 * n1) % n2, x / (n0 * n1 * n2)]

def sumDims (cs : List Int) (f : Nat → Int) : Int := (List.range 4).foldl (fun a d => a + cs.getD d 0 * f d) 0

/-- Sum over dimensions of coordinate x DSTR. -/
def dstSum (m : CopyCmd) (sh : List Byte) (x : Nat) : Int := sumDims ((coordsOf m sh x).map Int.ofNat) (shDst m sh)

/-- Destination address of element x in iteration i. -/
def dstAddr (m : CopyCmd) (sh : List Byte) (i x : Nat) : Nat :=
  wrap 64 (m.dst + (i % shRing sh) * fld sh 52 4 + copySize m.dfmt * dstSum m sh x)

/-- Where a command's accesses go: its die and core, and the live bits for SHADOW writes. -/
structure CopyIo where
  core   : Nat
  who    : CopyFor
  shadow : Option (List (Nat × Bool))
deriving DecidableEq, Repr

/-- A place in scratchpad, space 1 (.L) or 2 (.CL). R62 gives an engine's scratchpad operand a rotation code where its command has a field for
one; a copy command has none, and its operands are not rotated (log 73). -/
def CopyIo.pad (io : CopyIo) (s : State) (sp a n : Nat) : Option (Nat × Nat) :=
  match io.who.wg with
  | none => none
  | some w =>
    match s.place w (if sp = 1 then .scratch else .cluster) (BitVec.ofNat 64 a) n with
    | some (.spad v off) => some (v, off)
    | _ => none

/-- A read of n bytes by a command (R99, R176). -/
def CopyIo.read (io : CopyIo) (sp a n : Nat) : Ev (List Byte) := fun s =>
  if a % n != 0 then (s, .error (.fate a))
  else if sp = 0 then engRead (io.core / 32) io.who.ctx a n s
  else match io.pad s sp a n with
    | some (v, off) => (s, .ok (s.spadRead v off n))
    | none => (s, .error (.fate a))

/-- A write of an element by a command (R100, R176); `pair` refuses a page that is no P page. -/
def CopyIo.write (io : CopyIo) (pair : Bool) (sp a : Nat) (bs : List Byte) : Ev Unit := fun s =>
  if a % bs.length != 0 then (s, .error (.fate a))
  else if sp = 0 then
    (if 2 ^ 60 ≤ a then (s, .error (.fate a))
     else
      match s.xlate (io.core / 32) io.who.ctx a { w := true, shadow := io.shadow } with
      | (s, .error f) => (s, .error (.fault f a))
      | (s, .ok x) =>
        if pair && x.attr.rg.isNone then (s, .error (.fate a))
        else ((s.l2Write (io.core / 32) x.pa x.attr bs).dropCopy io.core (lineOf x.pa), .ok ()))
  else match io.pad s sp a bs.length with
    | some (v, off) => (s.spadWrite v off bs, .ok ())
    | none => (s, .error (.fate a))

def isExact (x y : Val) : Bool := match x, y with | .inf a, .inf b => a == b | _, _ => false

/-- Residue of a converted element (R175). -/
def residue (y dq : Val) : Val := if y.isFin && dq.isFin then (addV .rne y dq.neg).1 else if isExact y dq then Val.zero else Val.canon

/-- copy_element of R175; the flags it raises. -/
def copyElem (io : CopyIo) (m : CopyCmd) (sh : List Byte) (i x : Nat) : Ev Fl :=
  let cs := coordsOf m sh x
  let c := if m.tr then [cs.getD 1 0, cs.getD 0 0, cs.getD 2 0, cs.getD 3 0] else cs
  let s := c.zipIdx.map (fun p => (p.1 : Int) + if p.2 = shDim sh then i * shStep sh else 0)
  let dd := dstAddr m sh i x
  let dsz := copySize m.dfmt
  let ra := wrap 64 (fld sh 56 8 + copySize m.rfmt * dstSum m sh x)
  let out := fun (bs : List Byte) => io.write m.shadow (m.space 1) dd bs
  let res := fun (code : Nat) => if m.ef then io.write false (m.space 2) ra (leBytes (copySize m.rfmt) code) else Ev.ret ()
  if (List.range m.ndim).any (fun d => s.getD d 0 < 0 || (shBnd sh d : Int) ≤ s.getD d 0) then
    let fill := match copyFmt m.dfmt with | some f => if m.fnan then (encode f Val.canon .rne false).1 else 0 | none => 0
    (out (leBytes dsz fill)).and (fun _ => (res 0).and (fun _ => Ev.ret 0))
  else
    let sa := wrap 64 (m.src + copySize m.sfmt * sumDims s (shSrc m sh))
    (io.read (m.space 0) sa (copySize m.sfmt)).and (fun v =>
      match copyFmt m.sfmt, copyFmt m.dfmt with
      | some sf, some df =>
        let y0 := decodeF sf (leNat v)
        let y : Val × Fl := if y0.isNan then (y0, 0) else mulV y0 (decodeF fp32 m.scale)
        let q := encode df y.1 (if m.rm = 1 then .rtz else .rne) m.sat
        (out (leBytes dsz q.1)).and (fun _ =>
          match m.ef, copyFmt m.rfmt with
          | true, some rf =>
            let r := encode rf (residue y.1 (decodeF df q.1)) .rne false
            (res r.1).and (fun _ => Ev.ret (y.2 ||| q.2 ||| r.2))
          | _, _ => Ev.ret (y.2 ||| q.2))
      | _, _ => (out v).and (fun _ => Ev.ret 0))

/-- The elements of one run: while the destination stays in a 32-byte sector (R178). -/
def copyRunGo (io : CopyIo) (m : CopyCmd) (sh : List Byte) (i sector : Nat) : Nat → Nat → Fl → Ev (Nat × Fl)
  | 0, x, fl => Ev.ret (x, fl)
  | n + 1, x, fl =>
    if dstAddr m sh i x / 32 = sector then
      (copyElem io m sh i x).and (fun f => copyRunGo io m sh i sector n (x + 1) (fl ||| f))
    else Ev.ret (x, fl)

/-- A destination page of a SHADOW command that is no P page (R172); one that does not translate now is judged where it is written. -/
def State.shadowBad (s : State) (c : Nat) (who : CopyFor) (m : CopyCmd) (sh : List Byte) : Bool :=
  m.shadow && ((List.range (min m.loop (shRing sh))).flatMap (fun i =>
      (List.range (shTotal m sh)).map (fun x => dstAddr m sh i x / 4096))).eraseDups.any (fun p =>
    match (s.xlate (c / 32) who.ctx (4096 * p) {}).2 with
    | .ok x => p < 2 ^ 48 && x.attr.rg.isNone
    | .error _ => false)

/-- A command checks its fields and reads its shape record (R172, R174, R178); its completion word and the pages of a SHADOW destination are
judged when it first starts. -/
def State.copyStart (s : State) (c : Nat) (src : CopySrc) (r : CopyRun) (who : CopyFor) : State × Except XErr (List Byte) :=
  let m := copyCmdOf r.cmd
  let first := r.lives.isNone
  let sched := match src with | .sched _ _ => true | _ => false
  let queue := match src with | .queue _ => true | _ => false
  if !copyCmdOk r.cmd || (first && !sched && s.cwBad (c / 32) who.ctx who.wg m.cwsp m.cw m.scope)
      || (queue && (m.spc != 0 || m.cwsp || (1 ≤ m.scope && m.scope ≤ 3))) then (s, .error (.fate 0))
  else
    match rdBytes (CopyIo.read ⟨c, who, none⟩ (m.space 3)) m.shp 64 s with
    | (s, .error e) => (s, .error e)
    | (s, .ok sh) =>
      if shapeOk m sh && r.iter < m.loop && r.elem < shTotal m sh && !(first && s.shadowBad c who m sh) then (s, .ok sh) else (s, .error (.fate 0))

/-- Whether a command's completion word is judged at the store, as it stands when the command starts; a schedule entry's is known (R53). -/
def State.lateOf (s : State) (d ctx : Nat) (src : CopySrc) (r : CopyRun) : Bool :=
  let m := copyCmdOf r.cmd
  match src with
  | .sched _ _ => r.late
  | _ => if r.lives.isSome then r.late else s.cwLate d ctx m.cwsp m.cw m.scope

/-- The live bits of the regions now. -/
def State.livesNow (s : State) : List (Nat × Bool) := s.regions.map (fun e => (e.1, e.2.live))

/-- Runs one run of a started command. -/
def State.copyGo (s : State) (c : Nat) (src : CopySrc) (r : CopyRun) (who : CopyFor) (sh : List Byte) : State :=
  let m := copyCmdOf r.cmd
  let io : CopyIo := ⟨c, who, if m.shadow then some (r.lives.getD []) else none⟩
  let total := shTotal m sh
  match copyRunGo io m sh r.iter (dstAddr m sh r.iter r.elem / 32) (total - r.elem) r.elem 0 s with
  | (_, .error (.fault f va)) => s.copyFault c src r who f va
  | (s, .error (.fate _)) => s.copyFail c src who
  | (s, .ok (x, fl)) =>
    s.updSource c src (fun y =>
      let y := { y with flags := y.flags ||| progOf fl }
      if x < total then { y with elem := x } else { y with iter := y.iter + 1, elem := 0 })

/-- The command has nothing left to run: all its iterations, or the one iteration of a schedule entry. -/
def State.copyRan (s : State) (src : CopySrc) (r : CopyRun) : Bool :=
  r.ran (match src with | .sched w e => some (s.schedNext w e) | _ => none)

/-- COPY_COMMAND: the command of a source starts if it has not, and performs its next run; an OPC above 1 fails it (R171, R175). -/
def State.copyStep (s : State) (c : Nat) (src : CopySrc) : State :=
  match s.source c src with
  | none => s
  | some (r, who) =>
    if r.fault || fld r.cmd 0 1 = 0 || s.copyRan src r then s
    else if fld r.cmd 0 1 != 1 then s.copyFail c src who
    else
      match r.shape with
      | some sh => s.copyGo c src r who sh
      | none =>
        match s.copyStart c src r who with
        | (s, .error (.fault f va)) => s.copyFault c src r who f va
        | (s, .error (.fate _)) => s.copyFail c src who
        | (s, .ok sh) =>
          let r' := { r with shape := some sh, lives := some (r.lives.getD s.livesNow), late := s.lateOf (c / 32) who.ctx src r }
          (s.updSource c src (fun _ => r')).copyGo c src r' who sh

def execCopyCommand (core : Nat) (src : CopySrc) (s : State) : Host.Outcome State Fault Refusal := .next (s.copyStep core src)

-- Completion (R101, R169, R178)

/-- HEAD of a chain moves past the entry taken. -/
def State.chainAdvance (s : State) (e : EngRef) (h : Chain) (n : Nat) : State × Except (XFault × Nat) Unit :=
  match s.descPut e.die h.ctx (h.desc.toNat + 32) (n + 1) with
  | (s, .error x) => (s, .error x)
  | (s, .ok _) => (s.updChain e h.desc h.ctx (fun y => { y with cur := none, coll := [], part := [], fault := false, pubs := y.pubs.filter (fun p => n + 1 < p.1) }), .ok ())

/-- The source gives up its completed command. -/
def State.retire (s : State) (c : Nat) (src : CopySrc) : State × Except (XFault × Nat) Unit :=
  match src with
  | .cpy =>
    (match s.cpyHead c with
      | none => (s, .ok ())
      | some h =>
        let n := s.cpyIx c
        ((s.uncountAll h.issuers h.flag).updCore c (fun x => { x with cpyq := x.cpyq.eraseIdx n }), .ok ()))
  | .chain desc ctx =>
    (match s.chain (.copy c) desc ctx with
      | none => (s, .ok ())
      | some h => s.chainAdvance (.copy c) h ((h.cur.map Prod.fst).getD 0))
  | .sched w e => (s.updWg w (fun g => { g with sched := lmod g.sched e (fun x => { x with run := none, next := x.next + 1 }) }), .ok ())
  | .queue q =>
    (match (s.queue q).bind (fun k => k.running.find? (fun r => r.core == some c)), mget (s.core c).qcopy q with
      | some r, some y => ((s.updCore c (fun x => { x with qcopy := mdel x.qcopy q })).cmdEnd q r.idx (some (fld y.cmd 7 1 % 8)), .ok ())
      | _, _ => (s, .ok ()))

/-- The flags go to PROG of a completed command (R178, R100). -/
def State.flagsOut (s : State) (c : Nat) (src : CopySrc) (r : CopyRun) (who : CopyFor) : State × Except (XFault × Nat) Unit :=
  let bs := leBytes 8 (r.flags.toNat * 2 ^ 60)
  let va := (r.addr.toNat + 32) % 2 ^ 60
  let glob := match s.xlate (c / 32) who.ctx va { w := true } with
    | (s, .error f) => (s, .error (f, va))
    | (s, .ok x) => ((s.l2Write (c / 32) x.pa x.attr bs).dropCopy c (lineOf x.pa), .ok ())
  match src, who.wg with
  | .chain _ _, _ => glob
  | .queue _, _ => glob
  | .cpy, some w => (s.spadWrite w (r.addr.toNat + 32) bs, .ok ())
  | _, _ => (s, .ok ())

/-- Flags, completion store and retirement together; a page fault among them holds the command. -/
def State.copyFinish (s : State) (c : Nat) (src : CopySrc) (r : CopyRun) (who : CopyFor) (prog : Bool) : State :=
  let m := copyCmdOf r.cmd
  let hold := fun (x : XFault × Nat) =>
    (s.updSource c src (fun y => { y with fault := true })).unitFault (.copyCmd c src) x.1 x.2 1 (c / 32) (c % 32) who.queue who.ctx
  match (if prog then s.flagsOut c src r who else (s, .ok ())) with
  | (_, .error x) => hold x
  | (s1, .ok _) =>
    match s1.storeDone (c / 32) who.ctx who.wg m.cwsp m.cw m.seq m.scope r.late (some c) with
    | (_, .error (.fault f va)) => hold (f, va)
    | (_, .error (.fate _)) => s.copyFail c src who
    | (s2, .ok _) =>
      match s2.retire c src with
      | (_, .error x) => hold x
      | (s3, .ok _) => s3

/-- COPY_COMMAND_COMPLETE. -/
def State.copyComplete (s : State) (c : Nat) (src : CopySrc) : State :=
  match s.source c src with
  | none => s
  | some (r, who) =>
    match src with
    | .sched _ _ => s
    | _ => if r.fault || fld r.cmd 0 1 != 1 || !s.copyRan src r then s else s.copyFinish c src r who true

def execCopyCommandComplete (core : Nat) (src : CopySrc) (s : State) : Host.Outcome State Fault Refusal := .next (s.copyComplete core src)

-- Chains (R169)

/-- A fault of a chain's descriptor or entry. -/
def State.chainFault (s : State) (e : EngRef) (h : Chain) (x : XFault × Nat) : State :=
  (s.updChain e h.desc h.ctx (fun y => { y with fault := true })).unitFault (.chainRead e h.desc h.ctx) x.1 x.2 e.unit e.die e.coreCode h.queue h.ctx

/-- The publisher's commands run on this engine: a copy engine's only while the workgroup runs; the others belong to the die (R192). -/
def State.pubRuns (s : State) (e : EngRef) (w : Nat) : Bool := match e with | .copy _ => s.enginesRun w | _ => true

/-- A workgroup that is saved and will be restored. -/
def State.pubSaved (s : State) (e : EngRef) (w : Nat) : Bool :=
  match e with
  | .copy _ => ((s.wg w).map (fun g => !g.resident && !g.ended)).getD false
  | _ => false

/-- CHAIN_ENTRY_TAKE: the next published entry is taken; one whose publisher is halted or gone is passed over, and a chain with nothing
published leaves the list. So does one whose descriptor or entry lies at 2^60 or above (log 74). -/
def State.takeEntry (s : State) (e : EngRef) (ix : Nat) : State :=
  match (s.chainsOf e)[ix]? with
  | none => s
  | some h =>
    if h.fault then s
    else
      let pass := fun (s : State) (n : Nat) => match s.chainAdvance e h n with
        | (_, .error x) => s.chainFault e h x
        | (s, .ok _) => s
      match h.cur with
      | some r =>
        (match pubOf h.pubs r.1 with
          | some w => if s.pubRuns e w || s.pubSaved e w then s else pass s r.1
          | none => pass s r.1)
      | none =>
        match engDesc e.die h.ctx h.desc.toNat s with
        | (_, .error (.fault f va)) => s.chainFault e h (f, va)
        | (s, .error (.fate _)) => s.dropChain e h.desc h.ctx
        | (s, .ok d) =>
          match pubOf h.pubs d.head with
          | none => s.dropChain e h.desc h.ctx
          | some w =>
            if d.tail ≤ d.head then s.dropChain e h.desc h.ctx
            else if s.pubSaved e w then s
            else if !s.pubRuns e w then pass s d.head
            else
              match rdBytes (engRead e.die h.ctx) (d.entry d.head) 64 s with
              | (_, .error (.fault f va)) => s.chainFault e h (f, va)
              | (s, .error (.fate _)) => s.dropChain e h.desc h.ctx
              | (s, .ok b) =>
                s.updChain e h.desc h.ctx (fun y => { y with cur := some (d.head, copyRunOf b (BitVec.ofNat 64 (d.entry d.head))) })

def execChainEntryTake (e : EngRef) (ix : Nat) (s : State) : Host.Outcome State Fault Refusal := .next (s.takeEntry e ix)

-- Commands of the layout and collective engines (R192)

/-- Ring index of the queue command that a workgroup works for. -/
def State.cmdOfWg (s : State) (w : Nat) : Nat := ((s.dispOf w).map Dispatch.cmd).getD 0

/-- A layout or collective command fails: reported to the queue of the publishing slot, and HEAD advances. -/
def State.dieCmdFail (s : State) (e : EngRef) (h : Chain) (code : Nat) : State :=
  let q := h.queue
  let s := s.dropFaults (fun f => f == .engine e h.desc h.ctx)
  let s := s.queueError q { code := code, die := e.die, cmd := (h.owner.map s.cmdOfWg).getD 0 }
  match h.cur with
  | none => s
  | some r => match s.chainAdvance e h r.1 with
    | (_, .error x) => (s.updChain e h.desc h.ctx (fun y => { y with cur := none, coll := [], part := [] })).chainFault e h x
    | (s, .ok _) => s

/-- A page fault of a layout or collective command. -/
def State.dieCmdFault (s : State) (e : EngRef) (h : Chain) (x : XFault × Nat) : State :=
  (s.updChain e h.desc h.ctx (fun y => { y with fault := true })).unitFault (.engine e h.desc h.ctx) x.1 x.2 e.unit e.die e.coreCode h.queue h.ctx

/-- Changes the command that a chain of a layout or collective engine runs. -/
def State.updCur (s : State) (e : EngRef) (h : Chain) (f : CopyRun → CopyRun) : State :=
  s.updChain e h.desc h.ctx (fun y => { y with cur := y.cur.map (fun r => (r.1, f r.2)) })

/-- The completion of a layout or collective command. -/
def State.dieCmdDone (s : State) (e : EngRef) (h : Chain) (r : CopyRun) : State :=
  let m := copyCmdOf r.cmd
  match s.storeDone e.die h.ctx h.owner m.cwsp m.cw m.seq m.scope r.late with
  | (_, .error (.fault f va)) => s.dieCmdFault e h (f, va)
  | (_, .error (.fate _)) => s.dieCmdFail e h 4
  | (s1, .ok _) =>
    match s1.chainAdvance e h ((h.cur.map Prod.fst).getD 0) with
    | (_, .error x) => s.dieCmdFault e h x
    | (s2, .ok _) => s2

-- NOP (R171)

/-- The completion fields of a NOP that is not a schedule entry. -/
def State.nopBad (s : State) (d ctx : Nat) (w : Option Nat) (queue : Bool) (cmd : List Byte) : Bool :=
  let m := copyCmdOf cmd
  !cwcOk m.cwc || s.cwBad d ctx w m.cwsp m.cw m.scope || (queue && (m.cwsp || (1 ≤ m.scope && m.scope ≤ 3)))

/-- ENGINE_NOP: the command of a source is a NOP; it writes its completion word. -/
def State.nopStep (s : State) (e : EngRef) (src : CopySrc) : State :=
  match e with
  | .copy c =>
    (match s.source c src with
      | none => s
      | some (r, who) =>
        if r.fault || fld r.cmd 0 1 != 0 then s
        else match src with
          | .sched _ _ => s
          | _ =>
            let queue := match src with | .queue _ => true | _ => false
            if r.lives.isNone && s.nopBad (c / 32) who.ctx who.wg queue r.cmd then s.copyFail c src who
            else
              let r' := { r with lives := some (r.lives.getD []), late := s.lateOf (c / 32) who.ctx src r }
              (s.updSource c src (fun _ => r')).copyFinish c src r' who false)
  | _ =>
    match src with
    | .chain desc ctx =>
      (match s.chain e desc ctx with
        | none => s
        | some h =>
          match h.cur with
          | none => s
          | some r =>
            if h.fault || fld r.2.cmd 0 1 != 0 then s
            else if r.2.lives.isNone && s.nopBad e.die ctx h.owner false r.2.cmd then s.dieCmdFail e h 4
            else
              let r' := { r.2 with lives := some [], late := s.lateOf e.die ctx src r.2 }
              (s.updCur e h (fun _ => r')).dieCmdDone e h r')
    | _ => s

def execEngineNop (e : EngRef) (src : CopySrc) (s : State) : Host.Outcome State Fault Refusal := .next (s.nopStep e src)

-- Static copy schedules (R180, R182)

def State.schedAt (s : State) (w e : Nat) : Option SchedSt := (s.wg w).bind (fun g => g.sched[e]?)

def State.updSched (s : State) (w e : Nat) (f : SchedSt → SchedSt) : State := s.updWg w (fun g => { g with sched := lmod g.sched e f })

/-- Linear index of a workgroup (R241). -/
def State.linearOf (s : State) (w : Nat) : Nat :=
  match s.wg w, s.lrOf w with
  | some g, some lr => g.x + lr.dimx * (g.y + lr.dimy * g.z)
  | _, _ => 0

/-- The completion word of buffer k of a schedule entry. -/
def State.schedWord (s : State) (w : Nat) (m : CopyCmd) (dring k : Nat) : DWord :=
  if m.cwsp then
    let sz := pow2Up (s.spbOf w)
    BitVec.ofNat 64 (((s.wg w).map Workgroup.rank).getD 0 * sz + m.cw.toNat % sz + 8 * k)
  else m.cw + BitVec.ofNat 64 (8 * dring * s.linearOf w + 8 * k)

/-- Writes zero to the first n global completion words of an entry, at DEV (R180, R100). -/
def State.zeroWords (s : State) (w : Nat) (m : CopyCmd) (dring : Nat) : Nat → State × Except (XFault × Nat) Unit
  | 0 => (s, .ok ())
  | n + 1 =>
    match s.zeroWords w m dring n with
    | (s, .error x) => (s, .error x)
    | (s, .ok _) =>
      let a := s.schedWord w m dring n
      let c := ((s.wg w).map Workgroup.coreIx).getD 0
      let d := c / 32
      match s.xlate d (s.ctxOf w) (a.toNat % 2 ^ 60) { w := true } with
      | (s, .error f) => (s, .error (f, a.toNat))
      | (s, .ok x) => ((s.l2Write d x.pa x.attr (leBytes 8 0)).dropCopy c (lineOf x.pa), .ok ())

/-- The words of an entry that would be bad completion words (R53). -/
def State.schedCwBad (s : State) (w : Nat) (m : CopyCmd) (dring : Nat) : Bool :=
  let d := (((s.wg w).map Workgroup.coreIx).getD 0) / 32
  (List.range dring).any (fun k => s.cwBad d (s.ctxOf w) (some w) m.cwsp (s.schedWord w m dring k) m.scope)

/-- Bytes of one line read as data through a core's instruction cache, where the schedule entries and bindings of its workgroups are kept; a line
that has been evicted is read again (R246). -/
def icData (c ctx : Nat) : Rd := readAt (c / 32) ctx { r := true } (fun s pa n a => s.icRead c pa n a)

/-- Entry e of a schedule, as the core's copy engine reads it. -/
def State.schedRead (s : State) (w e : Nat) : State × Except XErr (List Byte) :=
  icData (((s.wg w).map Workgroup.coreIx).getD 0) (s.ctxOf w) (((s.lrOf w).map (fun l => l.schedA.toNat)).getD 0 + 64 * e) 64 s

/-- The read of an entry, or of what its start needs, meets a page fault. -/
def State.schedStop (s : State) (w e : Nat) (f : XFault) (va : Nat) : State :=
  let c := ((s.wg w).map Workgroup.coreIx).getD 0
  (s.updSched w e (fun y => { y with run := some { copyRunOf [] 0 with fault := true } })).unitFault (.copyCmd c (.sched w e)) f va 1 (c / 32) (c % 32)
    (s.queueOfWg w) (s.ctxOf w)

/-- Prepares an entry before the threads start: DRING is read and its global completion words are written to zero. An entry with a fate has no
words; it fails when its first iteration starts. -/
def State.schedPrepare (s : State) (w e : Nat) (cmd : List Byte) : State :=
  let c := ((s.wg w).map Workgroup.coreIx).getD 0
  let m := copyCmdOf cmd
  let ready := fun (s : State) (n : Nat) => s.updSched w e (fun y => { y with cmd := cmd, dring := some n })
  let zero := fun (s : State) (n : Nat) =>
    if m.scope = 0 || m.cwsp || s.schedCwBad w m n then ready s n
    else match s.zeroWords w m n n with
      | (_, .error (f, va)) => s.schedStop w e f va
      | (s, .ok _) => ready s n
  if fld cmd 0 1 = 0 then (if cwcOk m.cwc then zero s 1 else ready s 1)
  else if fld cmd 0 1 != 1 || !copyCmdOk cmd then ready s 1
  else
    match rdBytes (CopyIo.read ⟨c, s.forWg w, none⟩ (m.space 3)) m.shp 64 s with
    | (s, .error (.fault f va)) => s.schedStop w e f va
    | (s, .error (.fate _)) => ready s 1
    | (s, .ok sh) => if shapeOk m sh then zero s (shRing sh) else ready s 1

/-- SCHEDULE_ITERATION_START (R182), while a thread is left that has not exited (R342). An entry that is no copy command, or whose LOOP is 0, has one
iteration, which fails as it starts (R171, R172). -/
def State.schedStart (s : State) (w e : Nat) : State :=
  match s.wg w, s.schedAt w e with
  | some g, some x =>
    if !s.enginesRun w || x.failed || x.run.isSome then s
    else
      match x.dring with
      | none =>
        (match s.schedRead w e with
          | (s, .error (.fault f va)) => s.schedStop w e f va
          | (s, .error (.fate _)) => s.copyFail g.coreIx (.sched w e) (s.forWg w)
          | (s, .ok b) => s.schedPrepare w e b)
      | some dring =>
        let m := copyCmdOf x.cmd
        let loop := if fld x.cmd 0 1 = 1 then max 1 m.loop else 1
        let nbind := ((s.lrOf w).map Launch.nbind).getD 0
        let i := x.next
        let rel := s.minOver w (fun y => y.rels.getD e 0)
        let allOut := (s.wgGroups w).all (fun h => (s.liveThreads h).isEmpty)
        if allOut || loop ≤ i || g.nextBind < nbind || s.stageOf w < m.seq.toNat % 2 ^ 16 || !(i < dring || i + 1 ≤ rel + dring) then s
        else
          match s.schedRead w e with
          | (s, .error (.fault f va)) => s.schedStop w e f va
          | (s, .error (.fate _)) => s.copyFail g.coreIx (.sched w e) (s.forWg w)
          | (s, .ok b) =>
          let m := copyCmdOf b
          let s := s.updSched w e (fun y => { y with cmd := b })
          if (fld b 0 1 = 0 && !cwcOk m.cwc) || s.schedCwBad w m dring then s.copyFail g.coreIx (.sched w e) (s.forWg w)
          else
          let late := s.cwLate (g.coreIx / 32) (s.ctxOf w) m.cwsp (s.schedWord w m dring (i % dring)) m.scope
          s.updSched w e (fun y => { y with run := some { copyRunOf b 0 with iter := i, late := late } })
  | _, _ => s

def execScheduleIterationStart (wg entry : Nat) (s : State) : Host.Outcome State Fault Refusal := .next (s.schedStart wg entry)

/-- SCHEDULE_ITERATION_COMPLETE: i + 1 goes to the word of buffer i mod DRING by a release at the entry's scope. -/
def State.schedComplete (s : State) (w e : Nat) : State :=
  match s.wg w, s.schedAt w e with
  | some g, some x =>
    match x.run, x.dring with
    | some r, some dring =>
      let m := copyCmdOf x.cmd
      let c := g.coreIx
      let nop := fld x.cmd 0 1 = 0
      if !s.enginesRun w || r.fault || !(nop || s.copyRan (.sched w e) r) then s
      else
        match s.storeDone (c / 32) (s.ctxOf w) (some w) m.cwsp (s.schedWord w m dring (x.next % dring)) (BitVec.ofNat 64 (x.next + 1)) m.scope r.late
            (some c) with
        | (_, .error (.fate _)) => s.copyFail c (.sched w e) (s.forWg w)
        | (_, .error (.fault f va)) =>
          (s.updSched w e (fun y => { y with run := y.run.map (fun z => { z with fault := true }) })).unitFault (.copyCmd c (.sched w e)) f va 1
            (c / 32) (c % 32) (s.queueOfWg w) (s.ctxOf w)
        | (s, .ok _) => (s.retire c (.sched w e)).1
    | _, _ => s
  | _, _ => s

def execScheduleIterationComplete (wg entry : Nat) (s : State) : Host.Outcome State Fault Refusal := .next (s.schedComplete wg entry)

-- Resumption (R102, R162, R179)

/-- A command whose fault has been serviced goes on. A schedule entry whose read faulted is read again. -/
def State.siteResume (s : State) : FaultSite → State
  | .copyCmd c .cpy => s.updCore c (fun x => { x with cpyq := x.cpyq.map (fun e => { e with run := { e.run with fault := false } }) })
  | .copyCmd c (.sched w e) =>
    s.updSched w e (fun y =>
      let _ := c
      { y with run := (y.run.filter (fun z => !z.cmd.isEmpty)).map (fun z => { z with fault := false }) })
  | .copyCmd c (.queue q) => s.updCore c (fun x => { x with qcopy := mupd x.qcopy q (fun r => { r with fault := false }) })
  | .copyCmd c (.chain desc ctx) =>
    s.updChain (.copy c) desc ctx (fun h => { h with cur := h.cur.map (fun r => (r.1, { r.2 with fault := false })) })
  | .chainRead e desc ctx => s.updChain e desc ctx (fun h => { h with fault := false })
  | .engine e desc ctx => s.updChain e desc ctx (fun h => { h with fault := false })
  | .matrix c w => s.updCore c (fun x => { x with chain := x.chain.map (fun e => if e.wg = w then { e with fault := false } else e) })
  | .prologue w => s.updWg w (fun g => { g with bindFault := false })
  | .dicer d => s.updDie d (fun x => { x with diceFault := false })
  | .binner d => s.updDie d (fun x => { x with binFault := false })
  | .raster d r => s.updDie d (fun x => { x with rasters := lmod x.rasters r (fun y => { y with fault := false }) })
  | _ => s

/-- COMMAND_RESUME: after service, the stopped command goes on from its progress. -/
def State.commandResume (s : State) (site : FaultSite) : State :=
  if s.faults.any (fun e => e.2.site == site && e.2.replayed) then (s.dropFaults (fun f => f == site)).siteResume site else s

def execCommandResume (site : FaultSite) (s : State) : Host.Outcome State Fault Refusal := .next (s.commandResume site)

end Sys2Proof.Machine
end

