-- ==== Sys2Proof/Machine/Prologue.lean ====
section
/-! DEFINITION. The prologue engine (R183, R184): transform bindings of a workgroup being admitted, in order, into its scratchpad. -/
namespace Sys2Proof.Machine

/-- Fields of a transform binding. -/
structure Bind where
  kind  : Nat
  flg   : Nat
  sfmt  : Nat
  dfmt  : Nat
  kpl   : Nat
  src   : Nat
  dst   : Nat
  dpitch : Nat
  spitch : Nat
  rows  : Nat
  cols  : Nat
  ystep : Nat
  xstep : Nat
deriving DecidableEq, Repr

def bindOf (b : List Byte) : Bind :=
  { kind := fld b 0 1, flg := fld b 1 1, sfmt := fld b 2 1, dfmt := fld b 3 1, kpl := fld b 4 1, src := fld b 8 8, dst := fld b 16 4
    dpitch := fld b 20 4, spitch := fld b 24 4, rows := fld b 28 2, cols := fld b 30 2, ystep := fld b 32 2, xstep := fld b 34 2 }

def Bind.rnd (b : Bind) : Bool := b.flg.testBit 0
def Bind.had (b : Bind) : Nat := hadSize (b.flg / 2 % 4)
def Bind.planes (b : Bind) : Bool := b.kind == 1 || b.kind == 4

/-- The end of the bytes that a binding writes, as an .L offset. -/
def Bind.last (b : Bind) : Nat :=
  match b.kind with
  | 2 => b.dst + (b.cols - 1) * b.dpitch + b.rows * copySize b.sfmt
  | 4 => b.dst + (b.cols / 16 - 1) * b.spitch + (b.rows - 1) * b.dpitch + 33
  | _ => b.dst + (b.rows - 1) * b.dpitch + b.cols * copySize b.dfmt

/-- No fate of R183; `spb` is the scratchpad of the workgroup. -/
def bindOk (bs : List Byte) (spb : Nat) : Bool :=
  let b := bindOf bs
  1 ≤ b.kind && b.kind ≤ 4 && b.flg < 8 && (b.kind != 3 || b.had != 0) && (b.kind != 3 || b.sfmt ≤ 2) && (b.kind != 2 || b.sfmt ≤ 7)
    && ((b.kind != 1 && b.kind != 3) || b.dfmt ≤ 2) && (!b.planes || (1 ≤ b.kpl && b.kpl ≤ 16)) && allZero ((bs.drop 5).take 3)
    && b.src < 2 ^ 60 && b.rows != 0 && b.cols != 0 && (!b.planes || (b.cols % 16 == 0 && b.xstep % 16 == 0))
    && (b.kind != 3 || b.cols % b.had == 0) && allZero (bs.drop 36) && b.last ≤ spb

/-- The window's origin: row and column. -/
def State.bindOrigin (s : State) (w : Nat) (b : Bind) : Nat × Nat :=
  match s.wg w with
  | some g => (b.ystep * g.y, b.xstep * g.x)
  | none => (0, 0)

/-- A block of the tensor, zero beyond it (R184). -/
def bindBlock (r : Rd) (h : Handle) (b : Bind) (row blk : Nat) : Ev MxVec :=
  let n := row * h.bpr + blk
  if h.bpr ≤ blk || h.nblk ≤ n then Ev.ret ⟨0, List.replicate 16 0, 0⟩ else planeBlock r h b.kpl b.rnd n

/-- The tensor handle (R134, R135). -/
def bindHandle (r : Rd) (b : Bind) : Ev Handle :=
  (Ev.need (b.src % 32 == 0) b.src).and (fun _ => (rdBytes r b.src 32).and (fun bs =>
    match handleOf bs with
    | some h => Ev.ret h
    | none => Ev.fail (.fate b.src)))

/-- A byte run of a binding's result: .L offset and bytes. -/
abbrev BindOut := List (Nat × List Byte)

def encDst (b : Bind) (v : Val) : List Byte :=
  match copyFmt b.dfmt with
  | some f => leBytes (copySize b.dfmt) (encode f v .rne false).1
  | none => []

/-- Kind 1: plane-tensor elements encoded into DFMT. -/
def bindDequantise (r : Rd) (b : Bind) (row0 col0 : Nat) : Ev BindOut :=
  (bindHandle r b).and (fun h =>
    (Ev.list (fun i => (Ev.list (fun j => bindBlock r h b (row0 + i) (col0 / 16 + j)) (List.range (b.cols / 16))).and (fun vs =>
      Ev.ret (b.dst + i * b.dpitch, (vs.flatMap (fun v => v.vals b.kpl)).flatMap (encDst b)))) (List.range b.rows)))

/-- A source element of kinds 2 and 3. -/
def bindElem (r : Rd) (b : Bind) (row col : Nat) : Ev (List Byte) :=
  rdBytes r ((b.src + (row * b.spitch + col) * copySize b.sfmt) % 2 ^ 64) (copySize b.sfmt)

/-- Kind 2: a window copied bit for bit, transposed. -/
def bindTranspose (r : Rd) (b : Bind) (row0 col0 : Nat) : Ev BindOut :=
  Ev.list (fun c => (Ev.list (fun i => bindElem r b (row0 + i) (col0 + c)) (List.range b.rows)).and (fun es =>
    Ev.ret (b.dst + c * b.dpitch, es.flatten))) (List.range b.cols)

/-- Runs of n elements. -/
def inRuns (n : Nat) : Nat → List Val → List (List Val)
  | 0, _ => []
  | k + 1, xs => xs.take n :: inRuns n k (xs.drop n)

/-- Kind 3: runs of a source row transformed (R139, R140). -/
def bindHadamard (r : Rd) (b : Bind) (row0 col0 : Nat) : Ev BindOut :=
  Ev.list (fun i => (Ev.list (fun c => bindElem r b (row0 + i) (col0 + c)) (List.range b.cols)).and (fun es =>
    let xs := es.map (fun e => match copyFmt b.sfmt with | some f => decodeF f (leNat e) | none => Val.zero)
    let ys := (inRuns b.had (b.cols / b.had) xs).flatMap hadFloat
    Ev.ret (b.dst + i * b.dpitch, ys.flatMap (fun y => encDst b (decodeF fp32 y.1))))) (List.range b.rows)

/-- Kind 4: blocks in the row layout of AKIND 1, planes from KPL on zero (R145). -/
def bindPlanes (r : Rd) (b : Bind) (row0 col0 : Nat) : Ev BindOut :=
  (bindHandle r b).and (fun h =>
    (Ev.list (fun i => Ev.list (fun j => (bindBlock r h b (row0 + i) (col0 / 16 + j)).and (fun v =>
      let ws := planesOf b.kpl v.ms
      Ev.ret (b.dst + j * b.spitch + i * b.dpitch, (List.range 16).flatMap (fun p => leBytes 2 (ws.getD p 0)) ++ leBytes 1 v.e)))
      (List.range (b.cols / 16))) (List.range b.rows)).and (fun rows => Ev.ret rows.flatten))

/-- A binding that cannot run refuses its workgroup: the dispatch fails, and the workgroup is freed (R184). -/
def State.refuseWg (s : State) (w : Nat) : State :=
  match s.wg w with
  | none => s
  | some g => (((s.failDispatch g.disp { s.abortError w 1 with cause := 0, second := 0, epc := 0, taddr := 0 })).freeWg w).dispReap g.disp

/-- A page fault of the prologue engine. -/
def State.bindStop (s : State) (w : Nat) (g : Workgroup) (x : XFault) (va : Nat) : State :=
  (s.updWg w (fun y => { y with bindFault := true })).unitFault (.prologue w) x va 1 g.die g.core (s.queueOfWg w) (s.ctxOf w)

/-- The next binding of a workgroup, read through the core's instruction cache (R246); done if it is of the given kind. -/
def State.bindStep (s : State) (w kind : Nat) (f : Rd → Bind → Nat → Nat → Ev BindOut) : State :=
  match s.wg w, s.lrOf w with
  | some g, some lr =>
    if lr.nbind ≤ g.nextBind || !s.enginesRun w || g.bindFault then s
    else
      match icData g.coreIx (s.ctxOf w) (lr.bindA.toNat + 64 * g.nextBind) 64 s with
      | (s, .error (.fault x va)) => s.bindStop w g x va
      | (s, .error (.fate _)) => s.refuseWg w
      | (s1, .ok bs) =>
        let b := bindOf bs
        let o := s1.bindOrigin w b
        if !bindOk bs lr.spb then s1.refuseWg w
        else if b.kind != kind then s
        else
          match f (engRead g.die (s1.ctxOf w)) b o.1 o.2 s1 with
          | (s, .error (.fault x va)) => s.bindStop w g x va
          | (s, .error (.fate _)) => s.refuseWg w
          | (s, .ok outs) =>
            (outs.foldl (fun s p => s.spadWrite w p.1 p.2) s).updWg w (fun y => { y with nextBind := y.nextBind + 1 })
  | _, _ => s

def execPrologueDequantise (wg : Nat) (s : State) : Host.Outcome State Fault Refusal := .next (s.bindStep wg 1 bindDequantise)
def execPrologueTranspose (wg : Nat) (s : State) : Host.Outcome State Fault Refusal := .next (s.bindStep wg 2 bindTranspose)
def execPrologueHadamard (wg : Nat) (s : State) : Host.Outcome State Fault Refusal := .next (s.bindStep wg 3 bindHadamard)
def execProloguePlaneReduction (wg : Nat) (s : State) : Host.Outcome State Fault Refusal := .next (s.bindStep wg 4 bindPlanes)

end Sys2Proof.Machine
end

