-- ==== Sys2Proof/Machine/Layout.lean ====
section
/-! DEFINITION. The layout engine (R185, R186): im2col commands of a die's listed chains. -/
namespace Sys2Proof.Machine

/-- Fields of an im2col command. -/
structure Im2col where
  esz : Nat
  kh  : Nat
  kw  : Nat
  sh  : Nat
  sw  : Nat
  ph  : Nat
  pw  : Nat
  cwc : Nat
  src : Nat
  dst : Nat
  c   : Nat
  w   : Nat
  h   : Nat
  dpitch : Nat
deriving DecidableEq, Repr

def im2colOf (b : List Byte) : Im2col :=
  { esz := fld b 1 1, kh := fld b 2 1, kw := fld b 3 1, sh := fld b 4 1, sw := fld b 5 1, ph := fld b 6 1 / 16, pw := fld b 6 1 % 16
    cwc := fld b 7 1, src := fld b 8 8, dst := fld b 16 8, c := fld b 24 2, w := fld b 26 2, h := fld b 28 2, dpitch := fld b 32 4 }

def Im2col.size (m : Im2col) : Nat := 2 ^ m.esz
/-- Output dimensions; 0 where the kernel does not fit. -/
def Im2col.oh (m : Im2col) : Nat := if m.h + 2 * m.ph < m.kh then 0 else (m.h + 2 * m.ph - m.kh) / m.sh + 1
def Im2col.ow (m : Im2col) : Nat := if m.w + 2 * m.pw < m.kw then 0 else (m.w + 2 * m.pw - m.kw) / m.sw + 1
/-- Bytes of an output row. -/
def Im2col.rowLen (m : Im2col) : Nat := m.kh * m.kw * m.c * m.size

/-- No fate of R185 and R186 but those of the completion word and of the output's pages. -/
def im2colOk (b : List Byte) : Bool :=
  let m := im2colOf b
  let rng := fun (x hi : Nat) => 1 ≤ x && x ≤ hi
  m.esz ≤ 2 && rng m.kh 16 && rng m.kw 16 && rng m.sh 8 && rng m.sw 8 && cwcOk m.cwc && !m.cwc.testBit 3 && m.src < 2 ^ 60
    && m.c != 0 && m.w != 0 && m.h != 0 && allZero ((b.drop 30).take 2) && m.dpitch % 128 == 0 && m.rowLen ≤ m.dpitch
    && allZero ((b.drop 36).take 4) && allZero (b.drop 56) && 1 ≤ m.oh && 1 ≤ m.ow

/-- A physical range lies in a pinned region of the die (R70). -/
def Die.pinned (x : Die) (pa n : Nat) : Bool := x.pins.any (fun p => p.1 ≤ pa && pa + n ≤ p.1 + p.2)

/-- Translates every 128-byte piece of the output row by row and judges that it is pinned on the die. -/
def im2colPinned (d ctx : Nat) (m : Im2col) : Ev Unit :=
  Ev.foldl (fun _ r => Ev.foldl (fun _ (p : Nat × Nat) => fun s =>
    if 2 ^ 60 ≤ p.1 then (s, .error (.fate p.1))
    else match s.xlate d ctx p.1 { w := true } with
      | (s, .error f) => (s, .error (.fault f p.1))
      | (s, .ok x) => if (s.die d).pinned x.pa (p.2 - p.1) then (s, .ok ()) else (s, .error (.fate p.1)))
    () (linesOf (m.dst + r * m.dpitch) m.rowLen)) () (List.range (m.oh * m.ow))

/-- The input element under column q of output row r, or zero bytes outside the input. -/
def im2colElem (rd : Rd) (m : Im2col) (r q : Nat) : Ev (List Byte) :=
  let oh := r / m.ow
  let ow := r % m.ow
  let k := q / m.c
  let ih : Int := oh * m.sh - m.ph + (k / m.kw : Nat)
  let iw : Int := ow * m.sw - m.pw + (k % m.kw : Nat)
  if 0 ≤ ih && ih < m.h && 0 ≤ iw && iw < m.w then rdBytes rd ((m.src + ((ih.toNat * m.w + iw.toNat) * m.c + q % m.c) * m.size) % 2 ^ 64) m.size
  else Ev.ret (zeros m.size)

/-- An engine's write of a byte run at the L2 level, line by line (R100). -/
def engWrite (d ctx va : Nat) (bs : List Byte) : Ev Unit :=
  Ev.foldl (fun _ (p : Nat × Nat) => fun s =>
    if 2 ^ 60 ≤ p.1 then (s, .error (.fate p.1))
    else match s.xlate d ctx p.1 { w := true } with
      | (s, .error f) => (s, .error (.fault f p.1))
      | (s, .ok x) => (s.l2Write d x.pa x.attr ((bs.drop (p.1 - va)).take (p.2 - p.1)), .ok ())) () (linesOf va bs.length)

/-- The output lines of 128 bytes, row by row: the row, and the bytes of it that the line holds. -/
def Im2col.lines (m : Im2col) : List (Nat × Nat × Nat) :=
  (List.range (m.oh * m.ow)).flatMap (fun r => let a := m.dst + r * m.dpitch; (linesOf a m.rowLen).map (fun p => (r, p.1 - a, p.2 - a)))

/-- An output line: the elements that have bytes in it are read, and those bytes are written. -/
def im2colLine (d ctx : Nat) (m : Im2col) (l : Nat × Nat × Nat) : Ev Unit :=
  let q := l.2.1 / m.size
  (Ev.list (fun k => im2colElem (engRead d ctx) m l.1 (q + k)) (List.range ((l.2.2 - 1) / m.size + 1 - q))).and (fun es =>
    engWrite d ctx (m.dst + l.1 * m.dpitch + l.2.1) ((es.flatten.drop (l.2.1 - q * m.size)).take (l.2.2 - l.2.1)))

/-- The lines in turn, counted from n; at a failed translation those done stay, and the count says where it stopped (R186). -/
def im2colGo (d ctx : Nat) (m : Im2col) : List (Nat × Nat × Nat) → Nat → State → State × Nat × Except XErr Unit
  | [], n, s => (s, n, .ok ())
  | l :: ls, n, s =>
    match im2colLine d ctx m l s with
    | (_, .error e) => (s, n, .error e)
    | (s, .ok _) => im2colGo d ctx m ls (n + 1) s

/-- The first listed chain of a list whose command has the given OPC and runs. -/
def firstCmd (hs : List Chain) (ok : List Byte → Bool) : Option (Chain × CopyRun) :=
  hs.findSome? (fun h => match h.cur with
    | some r => if !h.fault && ok r.2.cmd then some (h, r.2) else none
    | none => none)

/-- IM2COL: the command starts, runs and completes; one that has stopped for a page fault goes on at the line where it stopped. An OPC that does
not suit the engine fails (R168, R171). -/
def State.im2colStep (s : State) (d : Nat) : State :=
  let e : EngRef := .layout d
  match firstCmd (s.die d).layout (fun b => fld b 0 1 != 0) with
  | none => s
  | some (h, r) =>
    let m := im2colOf r.cmd
    let cp := copyCmdOf r.cmd
    let first := r.lives.isNone
    if fld r.cmd 0 1 != 2 || !im2colOk r.cmd || (first && s.cwBad d h.ctx none false cp.cw cp.scope) then s.dieCmdFail e h 4
    else
      match (if first then im2colPinned d h.ctx m s else (s, .ok ())) with
      | (s, .error (.fault f va)) => s.dieCmdFault e h (f, va)
      | (s, .error (.fate _)) => s.dieCmdFail e h 4
      | (s, .ok _) =>
        let r := { r with lives := some [], late := s.lateOf d h.ctx (.chain h.desc h.ctx) r, elem := if first then 0 else r.elem }
        match im2colGo d h.ctx m (m.lines.drop r.elem) r.elem s with
        | (s, n, .error (.fault f va)) => (s.updCur e h (fun _ => { r with elem := n })).dieCmdFault e h (f, va)
        | (s, _, .error (.fate _)) => s.dieCmdFail e h 4
        | (s, n, .ok _) => (s.updCur e h (fun _ => { r with elem := n })).dieCmdDone e h r

def execIm2col (die : Nat) (s : State) : Host.Outcome State Fault Refusal := .next (s.im2colStep die)

end Sys2Proof.Machine
end

