-- ==== Sys2Proof/Machine/Graphics.lean ====
section
/-! DEFINITION. The graphics dispatch up to the end of binning (R193-R206): the render record, the dicer, GBIN and GSUB, and the binner with
slots and spill rings. A unit that meets a page fault keeps what it has done and resumes at the net, grid or item it had in hand (R215; log 40). -/
namespace Sys2Proof.Machine

-- The render record (R194)

/-- Fields of a render record that are addresses or counts. -/
structure Render where
  patchb : Nat
  npatch : Nat
  width  : Nat
  height : Nat
  spp    : Nat
  nattr  : Nat
  bcap   : Nat
  arenan : Nat
  arena  : Nat
  gmap   : Nat
  pattb  : Nat
  vbuf   : Nat
  spillb : Nat
  spilln : Nat
  fragmax : Nat
  sphead : Nat
  fragb  : Nat
  fhead  : Nat
  rsb    : Nat
  pose   : Nat
  surfe  : Nat
deriving DecidableEq, Repr

def renderOf (b : List Byte) : Render :=
  { patchb := fld b 0 8, npatch := fld b 8 4, width := fld b 12 2, height := fld b 14 2, spp := fld b 16 1, nattr := fld b 17 1
    bcap := fld b 18 1, arenan := fld b 28 4, arena := fld b 32 8, gmap := fld b 40 8, pattb := fld b 48 8, vbuf := fld b 56 8
    spillb := fld b 64 8, spilln := fld b 72 4, fragmax := fld b 76 4, sphead := fld b 80 8, fragb := fld b 88 8, fhead := fld b 96 8
    rsb := fld b 104 8, pose := fld b 112 8, surfe := fld b 120 8 }

-- Its FP32 fields
def rrSX (b : List Byte) : FN := fpFld b 128
def rrSY (b : List Byte) : FN := fpFld b 132
def rrCX (b : List Byte) : FN := fpFld b 136
def rrCY (b : List Byte) : FN := fpFld b 140
def rrNear (b : List Byte) : FN := fpFld b 144
def rrFar (b : List Byte) : FN := fpFld b 148
def rrLens (b : List Byte) : FN := fpFld b 152
def rrFocus (b : List Byte) : FN := fpFld b 156

def fpZero : FN := (0, 0)
def fpOne : FN := (fone, 0)

/-- The edge target; zero of either sign means 1.0. -/
def rrRate (b : List Byte) : FN := if fpEq (fpFld b 24) fpZero then fpOne else fpFld b 24

/-- Samples per pixel. -/
def Render.samples (r : Render) : Nat := 4 ^ r.spp
def Render.nbx (r : Render) : Nat := (r.width + 31) / 32
def Render.nby (r : Render) : Nat := (r.height + 31) / 32
def Render.buckets (r : Render) : Nat := r.nbx * r.nby

/-- Bytes of a vertex, and of a record with a given number of micropolygons. -/
def Render.stride (r : Render) : Nat := 24 + 2 * r.nattr
def Render.pieceSize (r : Render) (pu pv : Nat) : Nat := up64 (64 + (pu + 1) * (pv + 1) * r.stride)
def Render.rs (r : Render) : Nat := r.pieceSize 16 16

/-- Bucket capacity, raster area and number of slots (R203). -/
def Render.cap (r : Render) : Nat := 16384 * r.bcap
def Render.ra (r : Render) : Nat := 16 * 1024 * r.samples
def Render.nslot (r : Render) : Nat := min 1024 ((0x1000000 - 0x10000 - 2 * r.ra) / r.cap)

/-- No fate of R194 that the record alone decides. -/
def renderOk (b : List Byte) : Bool :=
  let r := renderOf b
  let fin := fun x => fpFin x
  r.patchb % 64 == 0 && r.patchb < 2 ^ 60 && 1 ≤ r.npatch && r.npatch ≤ 2 ^ 20 && 1 ≤ r.width && r.width ≤ 32767 && 1 ≤ r.height
    && r.height ≤ 32767 && r.spp ≤ 3 && r.nattr % 2 == 0 && r.nattr ≤ 16 && 1 ≤ r.bcap && allZero ((b.drop 19).take 5)
    && fin (fpFld b 24) && fpLe fpZero (fpFld b 24) && fpLe (fpFld b 24) (fpInt 16) && r.arenan != 0 && r.arena % 64 == 0 && r.gmap % 8 == 0
    && r.pattb % 64 == 0 && r.vbuf % 16 == 0 && r.spillb % 65536 == 0 && r.sphead % 8 == 0 && r.fragb % 32 == 0 && r.fhead % 4 == 0
    && r.rsb % 64 == 0 && r.pose % 8 == 0 && r.pose < 2 ^ 60 && r.surfe % 8 == 0 && r.surfe < 2 ^ 60
    && fin (rrSX b) && !fpEq (rrSX b) fpZero && fin (rrSY b) && !fpEq (rrSY b) fpZero && fin (rrCX b) && fin (rrCY b)
    && fpLt fpZero (rrNear b) && fpLt (rrNear b) (rrFar b) && fin (rrLens b) && fpLe fpZero (rrLens b) && fpLt fpZero (rrFocus b)
    && allZero (b.drop 160) && r.nslot != 0

-- Bucket geometry (R194, R228)

def homeOf (bx bY : Nat) : Nat := (bx + 2 * (bY % 2)) % 4

/-- Home die of a bucket index. -/
def Render.home (r : Render) (b : Nat) : Nat := homeOf (b % r.nbx) (b / r.nbx)

/-- The home list of a die, for a screen of nbx by nby buckets. -/
def homeList (nbx nby e : Nat) : List Nat := (List.range (nbx * nby)).filter (fun b => homeOf (b % nbx) (b / nbx) == e)

-- Shared by the units

/-- The render record of a dispatch that holds the bucket memory and is not being pre-empted. -/
def State.gfxOf (s : State) (d : Nat) : Option (Dispatch × Gfx) :=
  match s.disp d with
  | none => none
  | some x => match x.gfx with
    | some g => if g.taken && x.fin == .running && !s.preempting d then some (x, g) else none
    | none => none

def State.updGfx (s : State) (d : Nat) (f : Gfx → Gfx) : State := s.updDisp d (fun x => { x with gfx := x.gfx.map f })

/-- The fate of an allocation that would pass its pool; no address is so high. -/
def poolFate : Nat := 2 ^ 64

/-- A read-modify-write at the home L2 of a field of the render state block (R195); `f` gives the new value, or none to leave it. -/
def rsbRmw (d ctx va n : Nat) (f : Nat → Option Nat) : Ev Nat := fun s =>
  if 2 ^ 60 ≤ va then (s, .error (.fate va))
  else match s.xlate d ctx va { r := true, w := true } with
    | (s, .error x) => (s, .error (.fault x va))
    | (s, .ok x) =>
      let old := leNat (Mem.rdN s.mem x.pa n)
      (match f old with
        | none => (s, .ok old)
        | some v => ((if x.attr.c then s.dirTouch d x.pa true else s).homeWrite x.pa (leBytes n v), .ok old))

/-- Adds to a field of the render state block. -/
def rsbAdd (d ctx va n v : Nat) : Ev Unit :=
  if v = 0 then Ev.ret () else (rsbRmw d ctx va n (fun old => some (old + v))).and (fun _ => Ev.ret ())

/-- Takes k of the records that a field counts; passing the pool's size ends the dispatch (R198, R206, R215). -/
def rsbTake (d ctx va n k pool : Nat) : Ev Nat :=
  (rsbRmw d ctx va n (fun old => if old + k ≤ pool then some (old + k) else none)).and (fun old =>
    if old + k ≤ pool then Ev.ret old else Ev.fail (.fate poolFate))

/-- The dispatch ends with a queue error: an exhausted pool, or an access no address of which exists (R215; log 41). -/
def State.gfxFate (s : State) (d die a : Nat) : State :=
  let x := s.disp d
  (s.failDispatch d { code := if a = poolFate then 5 else 4, die := die, cmd := (x.map Dispatch.cmd).getD 0, lrec := (x.map Dispatch.lrec).getD 0 }).dispReap d

/-- A page fault of the dicer, a binner or a rasteriser (R215, R257). -/
def State.gfxFault (s : State) (site : FaultSite) (d die : Nat) (f : XFault) (va : Nat) : State :=
  let x := s.disp d
  s.unitFault site f va 5 die 0xFF ((x.map Dispatch.queue).getD 0) ((x.map Dispatch.ctx).getD 0)

-- Nets and projection (R196, R197)

/-- A control net: point (i, j) at 4 j + i. -/
abbrev Net := List V3

def netAt (q : Net) (i j : Nat) : V3 := q.getD (4 * j + i) (fpZero, fpZero, fpZero)
def netOf (b : List Byte) (off : Nat) : Net :=
  (List.range 16).map (fun k => (fpFld b (off + 12 * k), fpFld b (off + 12 * k + 4), fpFld b (off + 12 * k + 8)))
def swapNet (q : Net) : Net := (List.range 16).map (fun k => netAt q (k / 4) (k % 4))

def half : FN := (0x3F000000, 0)
def v3map2 (f : FN → FN → FN) (a b : V3) : V3 := (f a.1 b.1, f a.2.1 b.2.1, f a.2.2 b.2.2)
def midPoint : V3 → V3 → V3 := v3map2 (fun a b => fpMul (fpAdd a b) half)
def lerp3 (s : FN) : V3 → V3 → V3 := v3map2 (fun a b => fpAdd a (fpMul s (fpSub b a)))

/-- One row of four points halved at 0.5. -/
def halveRow (r : List V3) : List V3 × List V3 :=
  let p := fun k => r.getD k (fpZero, fpZero, fpZero)
  let ab := midPoint (p 0) (p 1)
  let bc := midPoint (p 1) (p 2)
  let cd := midPoint (p 2) (p 3)
  let abc := midPoint ab bc
  let bcd := midPoint bc cd
  let m := midPoint abc bcd
  ([p 0, ab, abc, m], [m, bcd, cd, p 3])

def halveU (q : Net) : Net × Net :=
  let rows := (List.range 4).map (fun j => halveRow ((q.drop (4 * j)).take 4))
  (rows.flatMap Prod.fst, rows.flatMap Prod.snd)

def halveNet (u : Bool) (q : Net) : Net × Net :=
  if u then halveU q else let h := halveU (swapNet q); (swapNet h.1, swapNet h.2)

/-- de Casteljau on four points. -/
def castel (s : FN) (r : List V3) : V3 :=
  let p := fun k => r.getD k (fpZero, fpZero, fpZero)
  let ab := lerp3 s (p 0) (p 1)
  let bc := lerp3 s (p 1) (p 2)
  let cd := lerp3 s (p 2) (p 3)
  lerp3 s (lerp3 s ab bc) (lerp3 s bc cd)

/-- A vertex of a grid: along u in each row, then along v. -/
def evalNet (q : Net) (s t : FN) : V3 := castel t ((List.range 4).map (fun j => castel s ((q.drop (4 * j)).take 4)))

def proj (b : List Byte) (p : V3) : FN × FN :=
  (fpAdd (fpMul (rrSX b) (fpDiv p.1 p.2.2)) (rrCX b), fpAdd (fpMul (rrSY b) (fpDiv p.2.1 p.2.2)) (rrCY b))

/-- Length of a projected difference. -/
def projLen (b : List Byte) (p q : V3) : FN :=
  let a := proj b p
  let c := proj b q
  let dx := fpSub c.1 a.1
  let dy := fpSub c.2 a.2
  fpSqrt (fpAdd (fpMul dx dx) (fpMul dy dy))

/-- Length of the projected polygon of four points. -/
def rowLen (b : List Byte) (r : List V3) : FN :=
  let p := fun k => r.getD k (fpZero, fpZero, fpZero)
  fpAdd (fpAdd (projLen b (p 0) (p 1)) (projLen b (p 1) (p 2))) (projLen b (p 2) (p 3))

def netRows (q : Net) : List (List V3) := (List.range 4).map (fun j => (q.drop (4 * j)).take 4)

/-- The circle of confusion at a depth (R209). -/
def coc (b : List Byte) (z : FN) : FN := fpMul (rrLens b) (fpSub fpOne (fpDiv (rrFocus b) z))

/-- The larger of two values; NaN if one is. -/
def fpMax (a c : FN) : FN := fpExt true [a, c]

/-- screen_box misses the screen; a box with a NaN bound does not. -/
def boxMisses (b : List Byte) (qs : List V3) (zlo zhi dbound : FN) : Bool :=
  let r := renderOf b
  let ps := qs.map (proj b)
  let cw := fpMax (fpAbs (coc b zlo)) (fpAbs (coc b zhi))
  let dw := fpDiv (fpMul dbound (fpMax (fpAbs (rrSX b)) (fpAbs (rrSY b)))) zlo
  let w := fpAdd (fpAdd cw dw) fpOne
  let xl := fpSub (fpExt false (ps.map Prod.fst)) w
  let xh := fpAdd (fpExt true (ps.map Prod.fst)) w
  let yl := fpSub (fpExt false (ps.map Prod.snd)) w
  let yh := fpAdd (fpExt true (ps.map Prod.snd)) w
  !([xl, xh, yl, yh].any fpNaN)
    && (fpLt xh fpZero || fpLt yh fpZero || fpLe (fpInt r.width) xl || fpLe (fpInt r.height) yl)

/-- max(1, ceil(len / RATE)) up to 16; none above, or when it is no number. -/
def cuts (l rate : FN) : Option Nat :=
  let q := fpDiv l rate
  if fpFin q then
    let n := (roundInt .rup (fpVal q)).1
    if 16 < n then none else some (max 1 n.toNat)
  else none

/-- A diced grid: nets at both times, parameter rectangle, micropolygons along u and v. -/
structure Diced where
  q0 : Net
  q1 : Net
  us : FN
  ue : FN
  vs : FN
  ve : FN
  nu : Nat
  nv : Nat
deriving DecidableEq, Repr

def v3NaN (p : V3) : Bool := fpNaN p.1 || fpNaN p.2.1 || fpNaN p.2.2

/-- visit of R197: the grids in order, and the subpatches discarded at the depth limit. The first argument is 20 less the depth. -/
def visit (b : List Byte) (dbound : FN) : Nat → Diced → List Diced × Nat
  | left, g =>
    let qs := g.q0 ++ g.q1
    let zs := qs.map (fun p => p.2.2)
    let zlo := fpSub (fpExt false zs) dbound
    let zhi := fpAdd (fpExt true zs) dbound
    if qs.any v3NaN then ([], 0)
    else if fpLt zhi (rrNear b) || fpLt (rrFar b) zlo then ([], 0)
    else
      let near := fpLe zlo (rrNear b)
      let lu := fpExt true ((netRows g.q0 ++ netRows g.q1).map (rowLen b))
      let lv := fpExt true ((netRows (swapNet g.q0) ++ netRows (swapNet g.q1)).map (rowLen b))
      if !near && boxMisses b qs zlo zhi dbound then ([], 0)
      else
        match near, cuts lu (rrRate b), cuts lv (rrRate b) with
        | false, some nu, some nv => ([{ g with nu := nu, nv := nv }], 0)
        | _, _, _ =>
          match left with
          | 0 => ([], 1)
          | left + 1 =>
            let u := fpLe lv lu || fpNaN lv
            let h0 := halveNet u g.q0
            let h1 := halveNet u g.q1
            let mid := fun (a c : FN) => fpMul (fpAdd a c) half
            let lo := if u then { g with q0 := h0.1, q1 := h1.1, ue := mid g.us g.ue } else { g with q0 := h0.1, q1 := h1.1, ve := mid g.vs g.ve }
            let hi := if u then { g with q0 := h0.2, q1 := h1.2, us := mid g.us g.ue } else { g with q0 := h0.2, q1 := h1.2, vs := mid g.vs g.ve }
            let a := visit b dbound left lo
            let c := visit b dbound left hi
            (a.1 ++ c.1, a.2 + c.2)
termination_by structural left => left

/-- DBOUND; a negative or non-finite value is +Inf (R196). -/
def dboundOf (p : List Byte) : FN := if fpFin (fpFld p 4) && !fpLt (fpFld p 4) fpZero then fpFld p 4 else (0x7F800000, 0)

/-- The grids of a patch record. -/
def dicePatch (b p : List Byte) : List Diced × Nat :=
  visit b (dboundOf p) 20 { q0 := netOf p 64, q1 := netOf p 256, us := fpZero, ue := fpOne, vs := fpZero, ve := fpOne, nu := 0, nv := 0 }

def fpBytes (x : FN) : List Byte := leBytes 4 x.1
def v3Bytes (p : V3) : List Byte := fpBytes p.1 ++ fpBytes p.2.1 ++ fpBytes p.2.2

/-- A fraction i / n. -/
def fpRatio (i n : Nat) : FN := fpDiv (fpInt i) (fpInt n)

/-- The grid record that the dicer writes (R199). DESIGN CHOICE (log 77): its BRECT bytes, which GBIN writes later, are zero. -/
def gridRecord (r : Render) (patch : List Byte) (p n : Nat) (g : Diced) : List Byte :=
  let hdr := leBytes 8 (p * 2 ^ 20 + n) ++ leBytes 1 g.nu ++ leBytes 1 g.nv ++ zeros 2 ++ leBytes 1 g.nu ++ leBytes 1 g.nv
    ++ leBytes 1 (fld patch 0 1 % 4) ++ leBytes 1 r.nattr ++ leBytes 4 (fld patch 8 4) ++ leBytes 4 p ++ fpBytes g.us ++ fpBytes g.ue
    ++ fpBytes g.vs ++ fpBytes g.ve ++ zeros 8 ++ leBytes 8 (fld patch 16 8) ++ zeros 8
  hdr ++ (List.range (g.nv + 1)).flatMap (fun j => (List.range (g.nu + 1)).flatMap (fun i =>
    let s := fpRatio i g.nu
    let t := fpRatio j g.nv
    v3Bytes (evalNet g.q0 s t) ++ v3Bytes (evalNet g.q1 s t) ++ zeros (2 * r.nattr)))

-- DICE_PATCH (R197, R198)

/-- One stage of dicing patch p of dispatch n, whose visit gave the grids gs and `disc` discards; none when nothing is left. A stage has one
read-modify-write at most, after everything else that it does to memory. -/
def diceNext (d n ctx : Nat) (r : Render) (p : Nat) (gs : List Diced) (disc : Nat) (w : DiceWork) : Option (Ev DiceWork) :=
  let next : Ev DiceWork := Ev.ret { w with stage := w.stage + 1 }
  match w.stage with
  | 0 => some ((rsbAdd d ctx (r.rsb + 40) 4 disc).and (fun _ => next))
  | 1 => some (if gs.isEmpty then next else (rsbTake d ctx r.rsb 4 gs.length r.arenan).and (fun f => Ev.ret { w with first := f, stage := 2 }))
  | 2 =>
    let e := if gs.isEmpty then 0 else w.first + gs.length * 2 ^ 32
    some ((engWrite d ctx (r.gmap + 8 * p) (leBytes 8 e)).and (fun _ => next))
  | k + 3 =>
    match gs[k]? with
    | none => none
    | some g =>
      let a := r.arena + r.rs * (w.first + k)
      some ((engWrite d ctx a (gridRecord r w.patch p k g)).and (fun _ => (rsbAdd d ctx (r.rsb + 16) 8 1).and (fun _ s =>
        (s.updGfx n (fun y => { y with posQ := y.posQ ++ [(d, p * 2 ^ 20 + k, BitVec.ofNat 64 a)] }), .ok { w with stage := k + 4 }))))

/-- Dices a patch from where its work stands, to the end or to what stops it. -/
def diceGo (d n ctx : Nat) (b : List Byte) (p : Nat) (w : DiceWork) (s : State) : State × DiceWork × Option XErr :=
  let v := dicePatch b w.patch
  goOn (diceNext d n ctx (renderOf b) p v.1 v.2) (v.1.length + 4) w s

/-- The work on a patch as it stands, or at its start with the patch record read. -/
def diceBegin (d ctx : Nat) (b : List Byte) (e : DiceReq) : Ev DiceWork :=
  match e.work with
  | some w => Ev.ret w
  | none => (rdBytes (engRead d ctx) ((renderOf b).patchb + 448 * e.patch) 448).and (fun p => Ev.ret ⟨p, 0, 0⟩)

/-- DICE_PATCH: the dicer of a die takes its next patch, or goes on with it. -/
def State.diceStep (s : State) (d : Nat) : State :=
  let i := (s.die d).dicing.findIdx (fun e => (s.gfxOf e.disp).isSome)
  match (s.die d).dicing[i]? with
  | none => s
  | some e =>
    match s.gfxOf e.disp with
    | none => s
    | some (x, g) =>
      let hold := fun (s : State) (f : XFault) (va : Nat) => (s.updDie d (fun y => { y with diceFault := true })).gfxFault (.dicer d) e.disp d f va
      if (s.die d).diceFault then s
      else
        match diceBegin d x.ctx g.rr e s with
        | (s', .error (.fault f va)) => hold { s with fresh := s'.fresh } f va
        | (s', .error (.fate a)) => { s with fresh := s'.fresh }.gfxFate e.disp d a
        | (s, .ok w) =>
          match diceGo d e.disp x.ctx g.rr e.patch w s with
          | (s, w, some (.fault f va)) => hold (s.updDie d (fun y => { y with dicing := lmod y.dicing i (fun z => { z with work := some w }) })) f va
          | (s, _, some (.fate a)) => s.gfxFate e.disp d a
          | (s, _, none) =>
            let rest := fun (l : List DiceReq) =>
              if e.patch + 4 < (renderOf g.rr).npatch then lmod l i (fun z => { z with patch := z.patch + 4, work := none }) else l.eraseIdx i
            s.updDie d (fun y => { y with dicing := rest y.dicing })

def execDicePatch (die : Nat) (s : State) : Host.Outcome State Fault Refusal := .next (s.diceStep die)

-- GRAPHICS_DISPATCH_START (R63, R193, R194, R203, R208)

/-- A read of the hub for a queue: at the home L2, or at the PCIe root (R81); its translation is die 0's (log 42). -/
def hubRead (ctx : Nat) : Rd := readAt 0 ctx { r := true } (fun s pa n _ => (s, Mem.rdN s.mem pa n))

/-- The word at a task entry, read as an instruction fetch. -/
def hubFetch (ctx : Nat) : Rd := readAt 0 ctx { x := true } (fun s pa n _ => (s, Mem.rdN s.mem pa n))

def headerWord (bs : List Byte) : Bool := match decode (BitVec.ofNat 64 (leNat bs)) with | .ok (.clauseStart h) => !h.pool | _ => false

/-- The render record, checked. -/
def readRender (ctx a : Nat) : Ev (List Byte) :=
  (Ev.need (a % 64 == 0) a).and (fun _ => (rdBytes (hubRead ctx) a 256).and (fun b => (Ev.need (renderOk b) a).and (fun _ => Ev.ret b)))

/-- Its task entries, fetched and checked. -/
def readEntries (ctx : Nat) (b : List Byte) : Ev Unit :=
  let r := renderOf b
  (rdBytes (hubFetch ctx) r.pose 8).and (fun w0 => (Ev.need (headerWord w0) r.pose).and (fun _ =>
    (rdBytes (hubFetch ctx) r.surfe 8).and (fun w1 => Ev.need (headerWord w1) r.surfe)))

/-- The pattern table, read once (R208). -/
def readPattern (ctx : Nat) (b : List Byte) : Ev (List Byte) :=
  let r := renderOf b
  rdBytes (engRead 0 ctx) r.pattb (128 * r.samples)

/-- A free slot header (R204). -/
def freeSlot : List Byte := leBytes 4 0xFFFFFFFF ++ zeros 60

/-- Bucket memory of a die as a graphics dispatch finds it when it starts: every slot free, the rest as it is. -/
def State.clearSlots (s : State) (d n : Nat) : State := (List.range n).foldl (fun s k => s.bkWrite d (64 * k) freeSlot) s

/-- The dispatch takes the bucket memory of all dies and starts. -/
def State.gfxTake (s : State) (n : Nat) (b pat : List Byte) : State :=
  let r := renderOf b
  let s := (List.range 4).foldl (fun s d => (s.clearSlots d r.nslot).updDie d (fun x => { x with
    bkState := .graphics n, dicing := x.dicing ++ (if d < r.npatch then [⟨n, d, none⟩] else []), rasters := x.rasters.map (fun _ => .idle) })) s
  s.updGfx n (fun y => { y with rr := b, pattern := pat, taken := true })

/-- A restored dispatch takes the bucket memory again, with its contents (R252); the save area may be empty then (R253). -/
def State.gfxRetake (s : State) (n q : Nat) (g : Gfx) : State :=
  let s := (List.range 4).foldl (fun s d => s.updDie d (fun x =>
    let b := g.bks.getD d ([], none, x.rasters)
    { x with bkState := .graphics n, bk := b.1, bkDraw := b.2.1, rasters := b.2.2 })) s
  (s.updGfx n (fun y => { y with taken := true, bks := [] })).csaIdle q

/-- The launch of a graphics dispatch is refused. -/
def State.gfxRefuse (s : State) (n : Nat) : State :=
  let x := s.disp n
  (s.failDispatch n { code := 1, cmd := (x.map Dispatch.cmd).getD 0, lrec := (x.map Dispatch.lrec).getD 0 }).dispReap n

/-- GRAPHICS_DISPATCH_START, when every die's bucket memory is idle. -/
def State.gfxStart (s : State) (n : Nat) : State :=
  match s.disp n with
  | none => s
  | some x =>
    match x.gfx with
    | none => s
    | some g =>
      if g.taken || x.fin != .running || x.fault || s.preempting n || !(s.dies.all (fun d => d.bkState == .idle)) || (s.slot x.slot).queue != some x.queue then s
      else if !g.bks.isEmpty then s.gfxRetake n x.queue g
      else
        let hold := fun (s : State) (f : XFault) (va unit die acc : Nat) =>
          (s.updDisp n (fun y => { y with fault := true })).unitFault (.hubDone n) f va unit die 0xFF x.queue x.ctx acc
        match readRender x.ctx x.lr.args.toNat s with
        | (s, .error (.fault f va)) => hold s f va 7 0xFF 5
        | (s, .error (.fate _)) => s.gfxRefuse n
        | (s, .ok b) =>
          match readEntries x.ctx b s with
          | (s, .error (.fault f va)) => hold s f va 7 0xFF 3
          | (s, .error (.fate _)) => s.gfxRefuse n
          | (s, .ok _) =>
            match readPattern x.ctx b s with
            | (s, .error (.fault f va)) => hold s f va 5 0 5
            | (s, .error (.fate a)) => s.gfxFate n 0 a
            | (s, .ok pat) => s.gfxTake n b pat

def execGraphicsDispatchStart (disp : Nat) (s : State) : Host.Outcome State Fault Refusal := .next (s.gfxStart disp)

-- GBIN and GSUB (R200-R202, R354)

def State.taskOf (s : State) (w : Nat) : Option GridTask := (s.wg w).bind Workgroup.task

/-- The task is of the given kind and has not executed its GBIN or GSUB. -/
def taskCheck (surface : Bool) (s : State) (g : GroupId) (_ : List ThreadId) : Option TrapInfo :=
  match s.taskOf g.wg with
  | some t => if t.surface == surface && !t.done then none else some (illegalState)
  | none => some (illegalState)

/-- The positions of a grid's vertices at both times. -/
def gridVerts (r : Rd) (a : Nat) (h : GHead) : Ev (List V3) :=
  (Ev.list (fun (k : Nat × Nat) => (rdBytes r (a + h.vertOff k.1 k.2) 24).and (fun b =>
      let p := fun o => (fpFld b o, fpFld b (o + 4), fpFld b (o + 8))
      Ev.ret [p 0, p 12])) ((List.range (h.nv + 1)).flatMap (fun j => (List.range (h.nu + 1)).map (fun i => (i, j))))).and (fun vs => Ev.ret vs.flatten)

/-- floor(x / 32) within 0 to n - 1; where x is no number the spec states none of these, and a free one stands for it. -/
def bucketOf (draw n : Nat) (x : FN) : Nat :=
  let q := fpDiv x (fpInt 32)
  if fpNaN q then (Config.freeWord draw).toNat % n
  else if fpFin q then min (n - 1) (floorV (fpVal q)).toNat
  else if (fpVal q).sign then 0 else n - 1

/-- gbin of R200: none when culled, else BRECT. -/
def gbinRect (b : List Byte) (draw : Nat) (vs : List V3) : Option (List Nat) :=
  let r := renderOf b
  let cm := fpExt true (vs.map (fun p => fpAbs (coc b p.2.2)))
  if fpNaN cm || vs.any v3NaN then none
  else
    let ext := fun (mx : Bool) (f : V3 → FN) => fpExt mx (vs.map f)
    let lo := fun (f : V3 → FN) => fpSub (fpSub (ext false f) cm) fpOne
    let hi := fun (f : V3 → FN) => fpAdd (fpAdd (ext true f) cm) fpOne
    let px : V3 → FN := fun p => p.1
    let py : V3 → FN := fun p => p.2.1
    let pz : V3 → FN := fun p => p.2.2
    if fpLt (ext true pz) (rrNear b) || fpLt (rrFar b) (ext false pz) || fpLt (hi px) fpZero || fpLt (hi py) fpZero
        || fpLe (fpInt r.width) (lo px) || fpLe (fpInt r.height) (lo py) then none
    else some [bucketOf draw r.nbx (lo px), bucketOf (draw + 1) r.nby (lo py), bucketOf (draw + 2) r.nbx (hi px), bucketOf (draw + 3) r.nby (hi py)]

/-- Whether the grid at an address is culled, with the record's BRECT and GFLG.CULLED written. -/
def gbinEv (d ctx : Nat) (b : List Byte) (a draw : Nat) : Ev Bool :=
  (rdBytes (engRead d ctx) a 64).and (fun hb =>
    let h := gheadOf hb
    (gridVerts (engRead d ctx) a h).and (fun vs =>
      let res := gbinRect b draw vs
      let rect := res.getD [0xFFFF, 0xFFFF, 0xFFFF, 0xFFFF]
      (engWrite d ctx (a + 40) (rect.flatMap (leBytes 2))).and (fun _ =>
        (engWrite d ctx (a + 14) (leBytes 1 (h.gflg / 8 * 8 + h.gflg % 4 + (if res.isNone then 4 else 0)))).and (fun _ =>
          (rsbAdd d ctx ((renderOf b).rsb + 24) 8 (if res.isNone then 1 else 0)).and (fun _ => Ev.ret res.isNone)))))

/-- GBIN of one group. -/
def gbinGo (pd : Fin 8) (s : State) (g : GroupId) (ts : List ThreadId) : GroupFx :=
  match ts, s.wg g.wg, s.taskOf g.wg with
  | t0 :: _, some w, some task =>
    match ((s.disp w.disp).bind Dispatch.gfx) with
    | none => (s, none)
    | some x =>
      match gbinEv w.die (s.ctxOf g.wg) x.rr task.recAddr.toNat s.fresh { s with fresh := s.fresh + 4 } with
      | (_, .error (.fault f va)) => (s.recordFault t0 f va 0, some .record)
      | (_, .error (.fate a)) => (s.gfxFate w.disp w.die a, none)
      | (s, .ok culled) =>
        let s := if pd.val = 7 then s else ts.foldl (fun s t => s.putRegs t { ps := [(pd.val, culled)] }) s
        let s := s.updWg g.wg (fun y => { y with task := some { task with done := true } })
        (if culled then s else s.updGfx w.disp (fun y => { y with surfQ := y.surfQ ++ [(w.die, task.grid, task.recAddr)] }), none)
  | _, _, _ => (s, none)

def execGbin (f : OwnF) (pd : Fin 8) (s : State) : Host.Outcome State Fault Refusal := runGroups (.gbin f pd) (taskCheck false) (gbinGo pd) s

/-- GSUB of one group: the grid goes to the binner of its anchor's home die, which reads the record. -/
def gsubGo (f : OwnF) (s : State) (g : GroupId) (ts : List ThreadId) : GroupFx :=
  match ts, s.wg g.wg, s.taskOf g.wg with
  | t0 :: _, some w, some task =>
    match rdBytes (engRead w.die (s.ctxOf g.wg)) task.recAddr.toNat 64 s with
    | (_, .error (.fault x va)) => (s.recordFault t0 x va 0, some .record)
    | (_, .error (.fate a)) => (s.gfxFate w.disp w.die a, none)
    | (s, .ok hb) =>
      let flag := (s.thr t0).bind (fun x => x.flagOf (.gsub f))
      let e : BinReq := ⟨w.disp, task.recAddr, ts, flag, none⟩
      let s := s.updDie (homeOf (fld hb 40 2) (fld hb 42 2)) (fun y => { y with toBin := y.toBin ++ [e] })
      ((s.updWg g.wg (fun y => { y with task := some { task with done := true } })).countAll ts (.gsub f), none)
  | _, _, _ => (s, none)

def execGsub (f : OwnF) (s : State) : Host.Outcome State Fault Refusal := runGroups (.gsub f) (taskCheck true) (gsubGo f) s

-- The end of a grid task (R200, R201, R342)

/-- A task that exited without its GBIN or GSUB is counted. -/
def taskEndEv (d ctx : Nat) (b : List Byte) (t : GridTask) : Ev Unit :=
  if t.done then Ev.ret () else if t.surface then rsbAdd d ctx ((renderOf b).rsb + 44) 4 1 else rsbAdd d ctx ((renderOf b).rsb + 24) 8 1

/-- WORKGROUP_END; the count of a grid task may meet a page fault, which its die's dicer reports. -/
def State.endTask (s : State) (w : Nat) : State :=
  match s.wg w, s.taskOf w with
  | some g, some t =>
    if !s.canEnd w || (s.die g.die).diceFault then s
    else
      match ((s.disp g.disp).bind Dispatch.gfx) with
      | none => s.endWg w
      | some x =>
        match taskEndEv g.die (s.ctxOf w) x.rr t s with
        | (_, .error (.fault f va)) => (s.updDie g.die (fun y => { y with diceFault := true })).gfxFault (.dicer g.die) g.disp g.die f va
        | (_, .error (.fate a)) => s.gfxFate g.disp g.die a
        | (s, .ok _) => s.endWg w
  | _, _ => s.endWg w

def execWorkgroupEnd (wg : Nat) (s : State) : Host.Outcome State Fault Refusal := .next (s.endTask wg)

-- Slots and spill rings (R203-R206)

def slotAddr (r : Render) (k : Nat) : Nat := 0x10000 + k * r.cap

/-- USED and NENT of a slot. -/
def State.slotUsed (s : State) (d k : Nat) : Nat := leNat (s.bkRead d (64 * k + 4) 4)
def State.slotNent (s : State) (d k : Nat) : Nat := leNat (s.bkRead d (64 * k + 8) 4)
def State.slotFree (s : State) (d k : Nat) : Bool := leNat (s.bkRead d (64 * k) 4) == 0xFFFFFFFF

def State.slotOf (s : State) (n b : Nat) : Option Nat := (((s.disp n).bind Dispatch.gfx).map (fun g => mget g.slotOf b)).getD none

/-- The lowest free slot of a die. -/
def State.freeSlotOf (s : State) (r : Render) (d : Nat) : Option Nat := (List.range r.nslot).find? (fun k => s.slotFree d k)

/-- fits of R205. -/
def State.fits (s : State) (r : Render) (n b size : Nat) : Bool :=
  match s.slotOf n b with
  | some k => size ≤ r.cap - s.slotUsed (r.home b) k
  | none => (s.freeSlotOf r (r.home b)).isSome && size ≤ r.cap

/-- The slot of a bucket, taken if it holds none. -/
def State.takeSlot (s : State) (r : Render) (n b : Nat) : State × Nat :=
  match s.slotOf n b with
  | some k => (s, k)
  | none =>
    let d := r.home b
    let k := (s.freeSlotOf r d).getD 0
    ((s.bkWrite d (64 * k) (leBytes 4 b ++ zeros 60)).updGfx n (fun g => { g with slotOf := mput g.slotOf b k }), k)

/-- An entry of a slot or spill ring. -/
def entryBytes (kind die slot off addr : Nat) : List Byte := leBytes 1 kind ++ leBytes 1 die ++ leBytes 2 slot ++ leBytes 4 off ++ leBytes 8 addr

/-- Adds an entry, and `extra` bytes of piece record already written, to a bucket's slot. -/
def State.addEntry (s : State) (r : Render) (n b extra : Nat) (e : List Byte) : State :=
  let t := s.takeSlot r n b
  let s := t.1
  let d := r.home b
  let k := t.2
  let m := s.slotNent d k
  let s := s.bkWrite d (slotAddr r k + r.cap - 16 * (m + 1)) e
  (s.bkWrite d (64 * k + 4) (leBytes 4 (s.slotUsed d k + extra + 16))).bkWrite d (64 * k + 8) (leBytes 4 (m + 1))

/-- The record of a piece, cut from a grid record (R199, R205). -/
def pieceRecord (r : Render) (grid : List Byte) (p : Piece) : List Byte :=
  let nu := fld grid 8 1
  let nv := fld grid 9 1
  let whole := p.pu == nu && p.pv == nv
  let gflg := fld grid 14 1
  let hdr := grid.take 10 ++ leBytes 1 p.u0 ++ leBytes 1 p.v0 ++ leBytes 1 p.pu ++ leBytes 1 p.pv
    ++ leBytes 1 (if whole then gflg else gflg / 16 * 16 + gflg % 8 + 8) ++ (grid.take 64).drop 15
  let body := (List.range (p.pv + 1)).flatMap (fun j => (List.range (p.pu + 1)).flatMap (fun i =>
    (grid.drop (64 + ((p.v0 + j) * (nu + 1) + p.u0 + i) * r.stride)).take r.stride))
  pad64 (hdr ++ body)

/-- The entry by which another bucket refers to a placed piece. DESIGN CHOICE (log 78): DIE, SLOT and OFF of a kind 3 or kind 4 entry are zero. -/
def refTo (gidx : Nat) : Placed → List Byte
  | .slot d k off => entryBytes 2 d k off gidx
  | .pool va => entryBytes 3 0 0 0 va

/-- The spill ring of a bucket: first and last chunk, bytes taken in the last. -/
def State.ringOf (s : State) (n b : Nat) : Option (Nat × Nat × Nat) := (((s.disp n).bind Dispatch.gfx).map (fun g => mget g.spill b)).getD none

/-- The header of a new chunk, and its number in the chunk before it (R206). -/
def linkChunk (d ctx n : Nat) (r : Render) (b c : Nat) : Ev Unit := fun s =>
  let ring := s.ringOf n b
  (engWrite d ctx (r.spillb + 65536 * c) (leBytes 4 0xFFFFFFFF ++ leBytes 4 64 ++ leBytes 4 b ++ zeros 52)).and (fun _ =>
    (match ring with | some x => engWrite d ctx (r.spillb + 65536 * x.2.1) (leBytes 4 c) | none => Ev.ret ()).and (fun _ s =>
      (s.updGfx n (fun g => { g with spill := mput g.spill b ((ring.map Prod.fst).getD c, c, 64) }), .ok ()))) s

/-- A stage of spill_item. An item that takes a ring's last chunk from `u` bytes to `need u` and has room there is written by `put`, given the chunk and
`u`; then `extra` is done, and `fin` is the work after it. For one without room a chunk is taken, and at the next stage linked. -/
def spillStage (d ctx n : Nat) (r : Render) (b : Nat) (w : BinWork) (need : Nat → Nat) (put : Nat → Nat → Ev Unit) (extra : Ev Unit)
    (fin : Nat → Nat → BinWork) : Ev BinWork := fun s =>
  let take := (rsbTake d ctx (r.rsb + 4) 4 1 r.spilln).and (fun c => Ev.ret { w with chunk := some c })
  match w.chunk, s.ringOf n b with
  | some c, _ => (linkChunk d ctx n r b c).and (fun _ => Ev.ret { w with chunk := none }) s
  | none, none => take s
  | none, some (first, c, u) =>
    if 65536 < need u then take s
    else
      (put c u).and (fun _ => (engWrite d ctx (r.spillb + 65536 * c + 4) (leBytes 4 (need u))).and (fun _ => extra.and (fun _ s =>
        (s.updGfx n (fun g => { g with spill := mput g.spill b (first, c, need u) }), .ok (fin c u))))) s

/-- Where the record of a piece spilled from `u` on in chunk c lies: the multiple of 64 after its entry. -/
def spilledAt (r : Render) (c u : Nat) : Nat := r.spillb + 65536 * c + up64 (u + 16)

/-- spill_item of a piece, of kind 4, and the count of it. -/
def spillPiece (d ctx n : Nat) (r : Render) (b : Nat) (w : BinWork) (body : List Byte) : Ev BinWork :=
  spillStage d ctx n r b w (fun u => up64 (u + 16) + body.length)
    (fun c u => (engWrite d ctx (r.spillb + 65536 * c + u) (entryBytes 4 0 0 0 (spilledAt r c u))).and (fun _ => engWrite d ctx (spilledAt r c u) body))
    ((rsbAdd d ctx (r.rsb + 36) 4 1).and (fun _ s => (s.countDie d 0x0A 1, .ok ())))
    (fun c u => { w with todo := none, placed := w.placed ++ [.pool (spilledAt r c u)] })

/-- spill_item of a reference. -/
def spillRef (d ctx n : Nat) (r : Render) (b : Nat) (w : BinWork) (e : List Byte) : Ev BinWork :=
  spillStage d ctx n r b w (· + 16) (fun c u => engWrite d ctx (r.spillb + 65536 * c + u) e) (Ev.ret ()) (fun _ _ => { w with refs := w.refs + 1 })

/-- put of R205. -/
def putPiece (r : Render) (n b : Nat) (body : List Byte) (gidx : Nat) : Ev Placed := fun s =>
  let t := s.takeSlot r n b
  let s := t.1
  let d := r.home b
  let off := s.slotUsed d t.2 - 16 * s.slotNent d t.2
  ((s.bkWrite d (slotAddr r t.2 + off) body).addEntry r n b body.length (entryBytes 1 d t.2 off gidx), .ok (.slot d t.2 off))

def Piece.halves (p : Piece) : Piece × Piece :=
  if p.pv ≤ p.pu then ({ p with pu := p.pu / 2 }, { p with u0 := p.u0 + p.pu / 2, pu := p.pu - p.pu / 2 })
  else ({ p with pv := p.pv / 2 }, { p with v0 := p.v0 + p.pv / 2, pv := p.pv - p.pv / 2 })

/-- One stage of place of R205 on a piece: it is put, or split with one half put and the other left to place, or spilled. -/
def placeStage (d ctx n : Nat) (r : Render) (b : Nat) (w : BinWork) (p : Piece) : Ev BinWork := fun s =>
  let fits := fun (q : Piece) => s.fits r n b (r.pieceSize q.pu q.pv + 16)
  let put := fun (q : Piece) (rest : Option Piece) =>
    (putPiece r n b (pieceRecord r w.grid q) (fld w.grid 0 8)).and (fun x => Ev.ret { w with todo := rest, placed := w.placed ++ [x] })
  let split := fun (q rest : Piece) => (rsbAdd d ctx (r.rsb + 32) 4 1).and (fun _ s => put q (some rest) (s.countDie d 0x09 1))
  let h := p.halves
  if w.chunk.isSome then spillPiece d ctx n r b w (pieceRecord r w.grid p) s
  else if fits p then put p none s
  else if 4 ≤ max p.pu p.pv && fits h.1 then split h.1 h.2 s
  else if 4 ≤ max p.pu p.pv && fits h.2 then split h.2 h.1 s
  else spillPiece d ctx n r b w (pieceRecord r w.grid p) s

/-- Bucket indices of a bucket rectangle, ascending. -/
def rectBuckets (r : Render) (grid : List Byte) : List Nat :=
  let x0 := fld grid 40 2
  let y0 := fld grid 42 2
  let x1 := fld grid 44 2
  let y1 := fld grid 46 2
  (List.range (y1 + 1 - y0)).flatMap (fun j => (List.range (x1 + 1 - x0)).map (fun i => (y0 + j) * r.nbx + x0 + i))

/-- One stage of bin_grid of R205; none when the grid is placed. -/
def binNext (d ctx n : Nat) (r : Render) (w : BinWork) : Option (Ev BinWork) :=
  let anchor := fld w.grid 42 2 * r.nbx + fld w.grid 40 2
  match w.todo with
  | some p => some (placeStage d ctx n r anchor w p)
  | none =>
    match ((rectBuckets r w.grid).filter (· != anchor))[w.refs / w.placed.length]?, w.placed[w.refs % w.placed.length]? with
    | some b, some x =>
      let e := refTo (fld w.grid 0 8) x
      some (fun s =>
        if w.chunk.isNone && s.fits r n b 16 then (s.addEntry r n b 0 e, .ok { w with refs := w.refs + 1 }) else spillRef d ctx n r b w e s)
    | _, _ => none

/-- A grid whose record has been read. -/
def binStart (grid : List Byte) : BinWork := ⟨grid, some ⟨0, 0, fld grid 8 1, fld grid 9 1⟩, [], 0, none⟩

/-- Bins a grid from where its work stands, to the end or to what stops it; the stages are fewer than the limit, since a rectangle has at most 2^20
buckets and a grid at most 16 pieces. -/
def binGo (d ctx n : Nat) (r : Render) (w : BinWork) (s : State) : State × BinWork × Option XErr := goOn (binNext d ctx n r) (2 ^ 30) w s

/-- The whole grid record. -/
def readGrid (d ctx : Nat) (r : Render) (a : Nat) : Ev (List Byte) :=
  (rdBytes (engRead d ctx) a 64).and (fun hb =>
    rdBytes (engRead d ctx) a (64 + (fld hb 8 1 + 1) * (fld hb 9 1 + 1) * r.stride))

/-- The work on a grid as it stands, or at its start with the record read: its GSUB is counted by no flag then. -/
def binBegin (d ctx : Nat) (r : Render) (i : Nat) (e : BinReq) : Ev BinWork :=
  match e.work with
  | some w => Ev.ret w
  | none => (readGrid d ctx r e.recAddr.toNat).and (fun grid s =>
      ((s.updDie d (fun y => { y with toBin := lmod y.toBin i (fun z => { z with issuers := [] }) })).uncountAll e.issuers e.flag, .ok (binStart grid)))

/-- BIN_GRID: a die's binner takes the next grid handed to it, or goes on with it. -/
def State.binStep (s : State) (d : Nat) : State :=
  let i := (s.die d).toBin.findIdx (fun e => (s.gfxOf e.disp).isSome)
  match (s.die d).toBin[i]? with
  | none => s
  | some e =>
    match s.gfxOf e.disp with
    | none => s
    | some (x, g) =>
      let r := renderOf g.rr
      let hold := fun (s : State) (f : XFault) (va : Nat) => (s.updDie d (fun y => { y with binFault := true })).gfxFault (.binner d) e.disp d f va
      if (s.die d).binFault then s
      else
        match binBegin d x.ctx r i e s with
        | (s', .error (.fault f va)) => hold { s with fresh := s'.fresh } f va
        | (s', .error (.fate a)) => { s with fresh := s'.fresh }.gfxFate e.disp d a
        | (s, .ok w) =>
          match binGo d x.ctx e.disp r w s with
          | (s, w, some (.fault f va)) => hold (s.updDie d (fun y => { y with toBin := lmod y.toBin i (fun z => { z with work := some w }) })) f va
          | (s, _, some (.fate a)) => s.gfxFate e.disp d a
          | (s, _, none) => s.updDie d (fun y => { y with toBin := y.toBin.eraseIdx i })

def execBinGrid (die : Nat) (s : State) : Host.Outcome State Fault Refusal := .next (s.binStep die)

-- BINNING_COMPLETE (R206, R207)

/-- Every patch diced, every task ended, every placement applied. -/
def State.binDone (s : State) (n : Nat) : Bool :=
  match s.gfxOf n with
  | none => false
  | some (x, g) => !g.binned && g.posQ.isEmpty && g.surfQ.isEmpty && x.live == 0
      && s.dies.all (fun d => d.dicing.all (fun e => e.disp != n) && d.toBin.all (fun e => e.disp != n) && !d.binFault)

/-- The spill heads of all buckets, each written by the bucket's home die. -/
def writeHeads (ctx : Nat) (r : Render) (g : Gfx) : Ev Unit :=
  Ev.foldl (fun _ b =>
    let h := ((mget g.spill b).map (fun x => x.1 + x.2.1 * 2 ^ 32)).getD (2 ^ 64 - 1)
    engWrite (r.home b) ctx (r.sphead + 8 * b) (leBytes 8 h)) () (List.range r.buckets)

def State.binningDone (s : State) (n : Nat) : State :=
  match s.gfxOf n with
  | none => s
  | some (x, g) =>
    let r := renderOf g.rr
    if !s.binDone n then s
    else
      match writeHeads x.ctx r g s with
      | (s', .error (.fault f va)) => ({ s with fresh := s'.fresh }.updDie 0 (fun y => { y with binFault := true })).gfxFault (.binner 0) n 0 f va
      | (_, .error (.fate a)) => s.gfxFate n 0 a
      | (s, .ok _) => s.updGfx n (fun y => { y with binned := true, heads := [0, 0, 0, 0], tails := [0, 0, 0, 0] })

def execBinningComplete (disp : Nat) (s : State) : Host.Outcome State Fault Refusal := .next (s.binningDone disp)

end Sys2Proof.Machine
end

