-- ==== Sys2Proof/Machine/Raster.lean ====
section
/-! DEFINITION. Rasterisation (R207-R213) and the bucket scheduler of a graphics dispatch (R228-R231): taking a bucket, the coverage test and
depth of a sample, opaque and transparent pieces, the visibility buffer and the fragments. -/
namespace Sys2Proof.Machine

-- Samples (R208)

/-- An integer over a power of two, exact in FP32. -/
def fpScaled (x : Int) (k : Nat) : FN := ((encode fp32 (.fin (decide (x < 0)) x.natAbs (-(k : Int))) .rne false).1, 0)

/-- A sample: its pixel and number, its point in 16.8 fixed point, its lens position and time. -/
structure Sample where
  px : Nat
  py : Nat
  s  : Nat
  x  : Int
  y  : Int
  u  : FN
  v  : FN
  t  : FN
deriving DecidableEq, Repr

def sampleOf (pattern : List Byte) (n px py s : Nat) : Sample :=
  let o := ((4 * (py % 4) + px % 4) * n + s) * 8
  { px := px, py := py, s := s, x := 256 * px + fld pattern o 1, y := 256 * py + fld pattern (o + 1) 1
    u := fpScaled (sgn 16 (fld pattern (o + 2) 2)) 15, v := fpScaled (sgn 16 (fld pattern (o + 4) 2)) 15
    t := fpScaled (fld pattern (o + 6) 2) 16 }

-- Coverage and depth (R209, R210)

/-- A vertex seen by a sample: fixed x and y, FP32 z. -/
abbrev FixV := Int × Int × FN

/-- fixed of R209. -/
def fixed16 (w : FN) : Option Int :=
  if !fpFin w then none
  else
    let n := (roundInt .rne (fpVal (fpMul w (fpInt 256)))).1
    if !fpFin (fpMul w (fpInt 256)) || n < -8388608 || 8388607 < n then none else some n

/-- vertex_at of R209, from the 24 position bytes of a vertex. -/
def seenVertex (b : List Byte) (p : Sample) (pos : List Byte) : Option FixV :=
  let at_ := fun k => fpAdd (fpFld pos (4 * k)) (fpMul p.t (fpSub (fpFld pos (12 + 4 * k)) (fpFld pos (4 * k))))
  let z := at_ 2
  let c := coc b z
  match fixed16 (fpAdd (at_ 0) (fpMul p.u c)), fixed16 (fpAdd (at_ 1) (fpMul p.v c)) with
  | some x, some y => some (x, y, z)
  | _, _ => none

def edgeFn (a b : FixV) (px py : Int) : Int := (b.1 - a.1) * (py - a.2.1) - (b.2.1 - a.2.1) * (px - a.1)

/-- The top-left rule. -/
def ownsEdge (a b : FixV) : Bool := b.2.1 - a.2.1 < 0 || (b.2.1 - a.2.1 == 0 && 0 < b.1 - a.1)

/-- cover of R209. -/
def coverTri (a b c : FixV) (px py : Int) (onesided : Bool) : Option (FixV × FixV × FixV × Int) :=
  let w := edgeFn a b c.1 c.2.1
  if w = 0 || (w < 0 && onesided) then none
  else
    let b' := if w < 0 then c else b
    let c' := if w < 0 then b else c
    let inside := fun (e0 e1 : FixV) => let f := edgeFn e0 e1 px py; 0 < f || (f == 0 && ownsEdge e0 e1)
    if inside a b' && inside b' c' && inside c' a then some (a, b', c', if w < 0 then -w else w) else none

/-- Depth of a covered sample (R210). -/
def depthOf (k : FixV × FixV × FixV × Int) (px py : Int) : FN :=
  let a := k.1
  let b := k.2.1
  let c := k.2.2.1
  let w := k.2.2.2
  let fl := fun (x : Int) => ((encode fp32 (Val.ofInt x) .rne false).1, (0 : Fl))
  let lb := fpDiv (fl (edgeFn c a px py)) (fl w)
  let lc := fpDiv (fl (edgeFn a b px py)) (fl w)
  let z := fpAdd a.2.2 (fpMul lb (fpSub b.2.2 a.2.2))
  fpAdd z (fpMul lc (fpSub c.2.2 a.2.2))

/-- A depth within the range of the render record. -/
def depthOk (b : List Byte) (z : FN) : Bool := fpLe (rrNear b) z && fpLe z (rrFar b)

/-- What a piece shows to a sample: ID and depth of each sub-triangle that covers it with accepted depth. -/
def pieceHits (b : List Byte) (piece : List Byte) (p : Sample) : List (Nat × FN) :=
  let h := gheadOf piece
  let one := h.gflg.testBit 1
  let vtx := fun i j => seenVertex b p ((piece.drop (h.vertOff i j)).take 24)
  let tri := fun (i j sub : Nat) (v0 v1 v2 : Option FixV) =>
    match v0, v1, v2 with
    | some a, some c, some d =>
      (match coverTri a c d p.x p.y one with
        | some k => let z := depthOf k p.x p.y; if depthOk b z then [(primId h i j sub, z)] else []
        | none => [])
    | _, _, _ => []
  (List.range h.pv).flatMap (fun j => (List.range h.pu).flatMap (fun i =>
    let v00 := vtx i j
    let v10 := vtx (i + 1) j
    let v11 := vtx (i + 1) (j + 1)
    let v01 := vtx i (j + 1)
    tri i j 0 v00 v10 v11 ++ tri i j 1 v00 v11 v01))

/-- The pair of a sample; empty at first (R211). -/
def emptySample : Nat × FN := (2 ^ 64 - 1, (0x7F800000, 0))

/-- The rule of R211. -/
def beats (x old : Nat × FN) : Bool := fpLt x.2 old.2 || (fpEq x.2 old.2 && x.1 < old.1)

def nearer (old x : Nat × FN) : Nat × FN := if beats x old then x else old

/-- A pair as a sample holds it in the raster area and in the visibility buffer (R211). -/
def pairBytes (x : Nat × FN) : List Byte := leBytes 8 x.1 ++ fpBytes x.2 ++ zeros 4

def pairOf (b : List Byte) : Nat × FN := (fld b 0 8, fpFld b 8)

-- Items of a bucket (R204, R206, R207)

/-- The record of a resident piece. -/
def State.residentPiece (s : State) (r : Render) (die slot off : Nat) : List Byte :=
  let a := slotAddr r slot + off
  let h := gheadOf (s.bkRead die a 64)
  s.bkRead die a (64 + (h.pu + 1) * (h.pv + 1) * r.stride)

/-- The record of a spilled piece. -/
def poolPiece (d ctx : Nat) (r : Render) (va : Nat) : Ev (List Byte) :=
  (rdBytes (engRead d ctx) va 64).and (fun hb =>
    let h := gheadOf hb
    rdBytes (engRead d ctx) va (64 + (h.pu + 1) * (h.pv + 1) * r.stride))

/-- The piece of an entry of a slot on die `home` or of a ring. -/
def itemPiece (d ctx : Nat) (r : Render) (e : List Byte) : Ev (List Byte) := fun s =>
  if fld e 0 1 = 1 || fld e 0 1 = 2 then (s, .ok (s.residentPiece r (fld e 1 1) (fld e 2 2) (fld e 4 4)))
  else poolPiece d ctx r (fld e 8 8) s

/-- The entries of a bucket's slot, in order. -/
def State.slotItems (s : State) (n : Nat) (r : Render) (b : Nat) : List (List Byte) :=
  match s.slotOf n b with
  | none => []
  | some k => (List.range (s.slotNent (r.home b) k)).map (fun m => s.bkRead (r.home b) (slotAddr r k + r.cap - 16 * (m + 1)) 16)

/-- Entries of one chunk from an offset on; a chunk of 64 KiB holds at most 4,096 items. The record of a kind 4 item follows its entry. -/
def chunkItems (d ctx : Nat) (r : Render) (base used : Nat) : Nat → Nat → Ev (List (List Byte))
  | 0, _ => Ev.ret []
  | fuel + 1, off =>
    if used ≤ off then Ev.ret []
    else
      (rdBytes (engRead d ctx) (base + off) 16).and (fun e =>
        (if fld e 0 1 = 4 then poolPiece d ctx r (fld e 8 8) else Ev.ret []).and (fun x =>
          let next := if fld e 0 1 = 4 then up64 (off + 16) + up64 x.length else off + 16
          (chunkItems d ctx r base used fuel next).and (fun xs => Ev.ret (e :: xs))))

/-- Entries of a spill ring, from a chunk on. -/
def ringItems (d ctx : Nat) (r : Render) : Nat → Nat → Ev (List (List Byte))
  | 0, _ => Ev.ret []
  | fuel + 1, c =>
    if c = 0xFFFFFFFF then Ev.ret []
    else
      let base := r.spillb + 65536 * c
      (rdBytes (engRead d ctx) base 64).and (fun h =>
        (chunkItems d ctx r base (fld h 4 4) 4096 64).and (fun xs =>
          (ringItems d ctx r fuel (fld h 0 4)).and (fun ys => Ev.ret (xs ++ ys))))

/-- All items of a bucket: its slot's, then its ring's. -/
def bucketItems (d ctx n : Nat) (r : Render) (g : Gfx) (b : Nat) : Ev (List (List Byte)) := fun s =>
  ((ringItems d ctx r (r.spilln + 1) (((mget g.spill b).map Prod.fst).getD 0xFFFFFFFF)).and (fun ys => Ev.ret (s.slotItems n r b ++ ys))) s

/-- The samples of a bucket, clipped to the screen. -/
def bucketSamples (r : Render) (pattern : List Byte) (b : Nat) : List Sample :=
  let x0 := 32 * (b % r.nbx)
  let y0 := 32 * (b / r.nbx)
  (List.range (min 32 (r.height - y0))).flatMap (fun j => (List.range (min 32 (r.width - x0))).flatMap (fun i =>
    (List.range r.samples).map (fun k => sampleOf pattern r.samples (x0 + i) (y0 + j) k)))

-- Fragments (R212)

/-- The items of a list in an order that the spec leaves open. -/
def freeOrder {α : Type} (draw : Nat) : Nat → List α → List α
  | 0, _ => []
  | n + 1, xs =>
    match xs[Config.pick (draw + n) % xs.length]? with
    | none => []
    | some x => x :: freeOrder draw n (xs.eraseIdx (Config.pick (draw + n) % xs.length))

/-- Sets aside k draws; the first of them. -/
def takeDraws (k : Nat) : Ev Nat := fun s => ({ s with fresh := s.fresh + k }, .ok s.fresh)

-- The stages of a bucket (R207, R215)

/-- Where the raster area of rasteriser k holds a sample: 16 bytes each, in pixel order (log 43). -/
def Render.areaAt (r : Render) (k : Nat) (p : Sample) : Nat :=
  0x1000000 - 2 * r.ra + k * r.ra + (((p.py % 32) * 32 + p.px % 32) * r.samples + p.s) * 16

/-- The pair of a sample so far. -/
def State.areaPair (s : State) (d k : Nat) (r : Render) (p : Sample) : Nat × FN := pairOf (s.bkRead d (r.areaAt k p) 16)

/-- Every sample of the raster area becomes empty. -/
def State.clearArea (s : State) (d k : Nat) (r : Render) : State :=
  s.bkWrite d (0x1000000 - 2 * r.ra + k * r.ra) ((List.replicate (1024 * r.samples) (pairBytes emptySample)).flatten)

/-- An opaque piece is tested against every sample of its bucket. -/
def State.testPiece (s : State) (d k : Nat) (b : List Byte) (ps : List Sample) (piece : List Byte) : State :=
  let r := renderOf b
  ps.foldl (fun s p => match pieceHits b piece p with
    | [] => s
    | hs => s.bkWrite d (r.areaAt k p) (pairBytes (hs.foldl nearer (s.areaPair d k r p)))) s

/-- The fragments of a transparent piece (R212), the first 20 bytes of each. -/
def State.pieceFrags (s : State) (d k : Nat) (b : List Byte) (ps : List Sample) (piece : List Byte) : List (List Byte) :=
  ps.flatMap (fun p => ((pieceHits b piece p).filter (fun x => beats x (s.areaPair d k (renderOf b) p))).map (fun x =>
    leBytes 8 x.1 ++ fpBytes x.2 ++ leBytes 2 p.px ++ leBytes 2 p.py ++ leBytes 1 p.s ++ zeros 3))

/-- A record for the next fragment is taken, or the fragment is dropped. -/
def takeFragment (d ctx : Nat) (r : Render) (x : Raster) : Ev Raster :=
  (rsbRmw d ctx (r.rsb + 8) 4 (fun n => if n < r.fragmax then some (n + 1) else none)).and (fun n =>
    if n < r.fragmax then Ev.ret { x with frag := some n }
    else (rsbAdd d ctx (r.rsb + 12) 4 1).and (fun _ => Ev.ret { x with frags := x.frags.tail }))

/-- Step 3 of R207: the samples of a bucket, and its fragment head. -/
def writeBucket (d ctx k : Nat) (r : Render) (ps : List Sample) (b head : Nat) : Ev Unit := fun s =>
  ((Ev.foldl (fun _ (p : Sample) =>
      engWrite d ctx (r.vbuf + ((p.py * r.width + p.px) * r.samples + p.s) * 16) (pairBytes (s.areaPair d k r p))) () ps).and (fun _ =>
    engWrite d ctx (r.fhead + 4 * b) (leBytes 4 head))) s

/-- One stage of rasteriser k on a bucket b with samples ps; none when it is written. Its items' pieces are read as they are met; a stage has one
read-modify-write at most, after everything else that it does to memory. -/
def rasterNext (d ctx n k : Nat) (g : Gfx) (b : Nat) (ps : List Sample) (x : Raster) : Option (Ev Raster) :=
  let r := renderOf g.rr
  match x.bucket, x.pass with
  | none, _ => none
  | some _, 0 => some ((bucketItems d ctx n r g b).and (fun es s => (s.clearArea d k r, .ok { x with pass := 1, items := es, item := 0 })))
  | some _, 1 =>
    (match x.items[x.item]? with
      | none => some (Ev.ret { x with pass := 2, item := 0 })
      | some e => some ((itemPiece d ctx r e).and (fun p s =>
          (if (gheadOf p).gflg.testBit 0 then s else s.testPiece d k g.rr ps p, .ok { x with item := x.item + 1 }))))
  | some _, 2 =>
    (match x.frags, x.frag with
      | f :: rest, some i => some ((engWrite d ctx (r.fragb + 32 * i) (f ++ leBytes 4 x.head ++ zeros 8)).and (fun _ =>
          Ev.ret { x with frags := rest, frag := none, head := i }))
      | _ :: _, none => some (takeFragment d ctx r x)
      | [], _ =>
        match x.items[x.item]? with
        | none => some (Ev.ret { x with pass := 3 })
        | some e => some ((itemPiece d ctx r e).and (fun p s =>
            let fs := if (gheadOf p).gflg.testBit 0 then s.pieceFrags d k g.rr ps p else []
            ((takeDraws fs.length).and (fun draw => Ev.ret { x with item := x.item + 1, frags := freeOrder draw fs.length fs })) s)))
  | some _, _ => some ((writeBucket d ctx k r ps b x.head).and (fun _ => Ev.ret .idle))

/-- A rasteriser's work from where it stands: to the end, to what stops it, or as far as one step takes it. -/
def rasterGo (d ctx n k : Nat) (g : Gfx) (b : Nat) (x : Raster) (s : State) : State × Raster × Option XErr :=
  goOn (rasterNext d ctx n k g b (bucketSamples (renderOf g.rr) g.pattern b)) (2 ^ 30) x s

-- TAKE_BUCKET (R229, R230) and RASTERISE_BUCKET (R207)

/-- take_bucket of R229: the list taken from, and whether from its front, and the bucket. -/
def takeFrom (nbx nby : Nat) (heads tails : List Nat) (d : Nat) : Option (Nat × Bool × Nat) :=
  ([d, (d + 1) % 4, (d + 3) % 4]).findSome? (fun e =>
    let l := homeList nbx nby e
    let h := heads.getD e 0
    let t := tails.getD e 0
    if h + t < l.length then
      (if e = d then (l[h]?).map (fun b => (e, true, b)) else (l[l.length - 1 - t]?).map (fun b => (e, false, b)))
    else none)

def State.rasterOf (s : State) (d k : Nat) : Raster := (s.die d).rasters.getD k .idle

def State.updRaster (s : State) (d k : Nat) (f : Raster → Raster) : State := s.updDie d (fun x => { x with rasters := lmod x.rasters k f })

/-- The dispatch whose bucket memory a die holds. -/
def State.gfxHolder (s : State) (d : Nat) : Option Nat := match (s.die d).bkState with | .graphics n => some n | _ => none

/-- TAKE_BUCKET: an idle rasteriser takes a bucket; one of a dispatch asked to yield takes none (R231). -/
def State.takeBucket (s : State) (d k : Nat) : State :=
  match s.gfxHolder d with
  | none => s
  | some n =>
    match s.gfxOf n with
    | none => s
    | some (_, g) =>
      let r := renderOf g.rr
      if !g.binned || (s.rasterOf d k).bucket.isSome then s
      else match takeFrom r.nbx r.nby g.heads g.tails d with
        | none => s
        | some (e, front, b) =>
          let s := if e = d then s else s.countDie d 0x0B 1
          let s := s.updGfx n (fun y => if front then { y with heads := lmod y.heads e (· + 1) } else { y with tails := lmod y.tails e (· + 1) })
          s.updRaster d k (fun _ => { Raster.idle with bucket := some b })

def execTakeBucket (die r : Nat) (s : State) : Host.Outcome State Fault Refusal := .next (s.takeBucket die r)

/-- RASTERISE_BUCKET: the bucket in hand is processed and written; a dispatch asked to yield still finishes it. -/
def State.rasterStep (s : State) (d k : Nat) : State :=
  match s.gfxHolder d with
  | none => s
  | some n =>
    match s.disp n with
    | none => s
    | some x =>
      match x.gfx, (s.rasterOf d k).bucket with
      | some g, some b =>
        if (s.rasterOf d k).fault || x.fin != .running then s
        else
          match rasterGo d x.ctx n k g b (s.rasterOf d k) s with
          | (s, z, some (.fault f va)) => (s.updRaster d k (fun _ => { z with fault := true })).gfxFault (.raster d k) n d f va
          | (s, _, some (.fate a)) => s.gfxFate n d a
          | (s, z, none) =>
            let s := s.updRaster d k (fun _ => z)
            if z.bucket.isNone then s.updGfx n (fun y => { y with written := y.written + 1 }) else s
      | _, _ => s

def execRasteriseBucket (die r : Nat) (s : State) : Host.Outcome State Fault Refusal := .next (s.rasterStep die r)

end Sys2Proof.Machine
end

