-- ==== Sys2Proof/Machine/Queues.lean ====
section
/-! DEFINITION. Queue commands (R236-R238), launch records (R242) and what refuses a launch, graphs (R243-R245), and the completion of a
dispatch (R54). Each QUEUE_ step looks at the next command of its queue and acts only on one of its own kind; QUEUE_NOP also refuses a
QOPC above 5. -/
namespace Sys2Proof.Machine

-- Accesses of the hub (R81)

/-- A store of the hub: at the home L2 as a party of the home die, or at the PCIe root. -/
def State.hubStore (s : State) (ctx va : Nat) (bs : List Byte) : State × Except XErr Unit :=
  if 2 ^ 60 ≤ va then (s, .error (.fate va))
  else match s.xlate 0 ctx va { w := true } with
    | (s, .error f) => (s, .error (.fault f va))
    | (s, .ok x) => ((if x.attr.c then s.dirTouch ((homeDie x.pa).getD 0) x.pa true else s).homeWrite x.pa bs, .ok ())

/-- A store that may cross pages, in pieces of 64 bytes of one aligned run. -/
def hubWrite (ctx va : Nat) (bs : List Byte) : Ev Unit :=
  Ev.foldl (fun _ k => fun s => s.hubStore ctx (va + 64 * k) ((bs.drop (64 * k)).take 64)) () (List.range ((bs.length + 63) / 64))

/-- A page fault of the hub (R257, UNIT 7). -/
def State.hubFault (s : State) (site : FaultSite) (q ctx : Nat) (f : XFault) (va : Nat) : State :=
  s.unitFault site f va 7 0xFF 0xFF q ctx

/-- The scope at which a dispatch ordered after a completion starts (R93). -/
def State.startAcquire (s : State) (c : Nat) (sc : Option Nat) : State :=
  match sc with
  | some k => s.acquire c (scopeOf (orderScope k))
  | none => s

-- Commands (R237)

/-- Fields of a queue command. -/
structure QCmd where
  opc   : Nat
  ovl   : Bool
  diem  : Nat
  qsc   : Nat
  addr  : Nat
  value : DWord
  inst  : Nat
deriving DecidableEq, Repr

def qcmdOf (b : List Byte) : QCmd :=
  { opc := fld b 0 1, ovl := (fld b 1 1).testBit 0, diem := fld b 2 1, qsc := fld b 3 1, addr := fld b 8 8
    value := BitVec.ofNat 64 (fld b 16 8), inst := fld b 24 8 }

/-- Alignment of ADDR by QOPC. -/
def qAlign (opc : Nat) : Nat := match opc with | 1 => 64 | 2 => 64 | 3 => 8 | 4 => 8 | 5 => 64 | _ => 1

/-- No fate of R237. -/
def qcmdOk (b : List Byte) : Bool :=
  let m := qcmdOf b
  m.opc ≤ 5 && fld b 1 1 < 2 && m.diem < 16 && !((m.opc == 3 || m.opc == 4) && (m.qsc == 0 || 7 ≤ m.qsc)) && allZero ((b.drop 4).take 4)
    && m.addr < 2 ^ 60 && m.addr % qAlign m.opc == 0 && !(m.opc == 2 && m.inst % 64 != 0) && allZero (b.drop 32)

/-- Dies that a command allows. -/
def QCmd.dies (m : QCmd) : BitVec 4 := if m.diem = 0 then 15 else BitVec.ofNat 4 m.diem

/-- The queue may start commands: bound, not being pre-empted, without error, and with its saved work restored (R239, R252). -/
def State.mayStart (s : State) (q : Nat) (k : Queue) : Bool :=
  (match k.slot with | some n => !(s.slot n).preempt | none => false) && !k.err && !k.readFault && k.savedWgs.isEmpty && k.savedCopies.isEmpty
    && s.disps.all (fun e => e.2.queue != q || ((e.2.gfx.map (fun g => g.bks.isEmpty)).getD true))

/-- The next command of a queue, if it may start now (R236). -/
def State.nextCmd (s : State) (q : Nat) : State × Option (Queue × List Byte) :=
  match s.queue q with
  | none => (s, none)
  | some k =>
    if !s.mayStart q k || k.tail.toNat ≤ k.head.toNat then (s, none)
    else
      match rdBytes (hubRead k.ctx) (k.ring.toNat + 64 * (k.head.toNat % 2 ^ k.lsize)) 64 s with
      | (s, .error (.fault f va)) =>
        ((s.updQueue q (fun x => { x with readFault := true })).hubFault (.hubCmd q) q k.ctx f va, none)
      | (s, .error (.fate _)) => (s, some (k, []))
      | (s, .ok b) =>
        if (qcmdOf b).ovl || !(k.running.any (fun r => r.idx + 1 == k.head.toNat)) then (s, some (k, b)) else (s, none)

/-- HEAD counts one more command started; the descriptor holds it too (R235). -/
def State.advanceHead (s : State) (q : Nat) : State :=
  match s.queue q with
  | none => s
  | some k => (s.updQueue q (fun x => { x with head := x.head + 1 })).physStore (k.desc.toNat + 32) (leBytes 8 (k.head + 1).toNat)

/-- A command that cannot run: a queue error, and HEAD passes it. -/
def State.refuseCmd (s : State) (q : Nat) (e : QErr) : State :=
  match s.queue q with
  | none => s
  | some k => (s.queueError q { e with cmd := k.head.toNat }).advanceHead q

/-- A command starts and goes on running. -/
def State.runCmd (s : State) (q : Nat) (b : List Byte) (obj core : Option Nat) (late : Bool := false) : State :=
  match s.queue q with
  | none => s
  | some k => (s.updQueue q (fun x => { x with running := x.running ++ [⟨k.head.toNat, b, obj, core, none, false, late⟩] })).advanceHead q

/-- Runs `f` on the next command of a queue when its QOPC is wanted; a command with a fate is refused. -/
def State.withCmd (s : State) (q : Nat) (want : Nat → Bool) (f : State → Queue → List Byte → State) : State :=
  match s.nextCmd q with
  | (s, none) => s
  | (s, some (k, b)) =>
    if !want (fld b 0 1) then s
    else if qcmdOk b && b.length == 64 then f s k b
    else s.refuseCmd q { code := 2 }

-- NOP

/-- QUEUE_NOP: complete at once. A QOPC above 5 is refused here too. -/
def State.queueNop (s : State) (q : Nat) : State := s.withCmd q (fun o => o = 0 || 5 < o) (fun s _ _ => s.advanceHead q)

def execQueueNop (q : Nat) (s : State) : Host.Outcome State Fault Refusal := .next (s.queueNop q)

-- Launch records (R242)

def launchOf (b : List Byte) : Launch :=
  { entry := BitVec.ofNat 64 (fld b 0 8), args := BitVec.ofNat 64 (fld b 8 8), mode := fld b 16 1, wcode := fld b 17 1, nreg := fld b 18 1
    ngrp := fld b 19 1, cfirst := fld b 20 1, ccount := fld b 21 1, cx := fld b 22 1 % 4 + 1, cy := fld b 22 1 / 4 % 4 + 1
    cz := fld b 22 1 / 16 % 4 + 1, chen := (fld b 23 1).testBit 0, batonSel := fld b 23 1 / 2 % 4, dbp := (fld b 23 1).testBit 3
    part := BitVec.ofNat 32 (fld b 24 4), spb := fld b 28 4, dimx := fld b 32 4, dimy := fld b 36 4, dimz := fld b 40 4
    wgsel := BitVec.ofNat 32 (fld b 44 4), m0 := BitVec.ofNat 64 (fld b 48 8), m1 := BitVec.ofNat 64 (fld b 56 8)
    clsel := BitVec.ofNat 16 (fld b 64 2), quota := fld b 66 1, nsched := fld b 67 1, lease := fld b 68 2, nbind := fld b 70 1
    cwsc := fld b 71 1, cw := BitVec.ofNat 64 (fld b 72 8), seq := BitVec.ofNat 64 (fld b 80 8), schedA := BitVec.ofNat 64 (fld b 88 8)
    bindA := BitVec.ofNat 64 (fld b 96 8), deadline := fld b 104 4, bkwin := fld b 108 2 }

/-- Workgroups of a cluster. -/
def Launch.csize (l : Launch) : Nat := l.cx * l.cy * l.cz

/-- No fate of a partition word (R57). -/
def partOk (p : Word) : Bool :=
  let units := partRegu p + partSpad p + 4 * partAcct p + partPhr p
  1 ≤ partRegu p && partRegu p ≤ 64 && partSpad p ≤ 96 && partAcct p ≤ 4 && partAccw p ≤ partAcct p && partPhr p ≤ 96 && p.toNat % 32 == 0
    && units ≤ 96

/-- A group mask selected for a barrier or the baton names a group of the workgroup. -/
def Launch.maskOk (l : Launch) (m : DWord) : Bool := m.toNat % 2 ^ l.ngrp != 0

/-- A selector of a barrier is none of R33's fates. -/
def Launch.selOk (l : Launch) (sel : Nat) : Bool :=
  match sel with
  | 0 => true
  | 1 => l.maskOk l.m0
  | 2 => l.maskOk l.m1
  | _ => false

/-- The baton's mask is not empty (R157). -/
def Launch.batonOk (l : Launch) : Bool := match l.batonSel with | 2 => l.maskOk l.m0 | 3 => l.maskOk l.m1 | _ => true

/-- Scratchpad bytes of a workgroup, in steps of 1 KiB, with the channels of rank 0 (R47, R58). -/
def Launch.spadNeed (l : Launch) (rank : Nat) : Nat := (l.spb + 1023) / 1024 + (if l.chen && rank == 0 then 16 else 0)

/-- Places for the groups of a workgroup on a core with given spots taken (R26). -/
def placeGroups (occ : List Spot) (f w n : Nat) : Nat → Option (List Spot)
  | 0 => some []
  | k + 1 =>
    match placeGroup occ f w n with
    | none => none
    | some p => (placeGroups (p :: occ) f w n k).map (fun ps => p :: ps)

/-- A workgroup fits on an empty core under its own configuration (R56). -/
def Launch.fitsEmpty (l : Launch) : Bool :=
  (placeGroups [] (columnWords l.part) (widthOf l.wcode) l.nreg l.ngrp).isSome && l.spadNeed 0 ≤ 16 * partSpad l.part
    && l.ngrp * recordSize (widthOf l.wcode) l.ccount ≤ 16384 * partPhr l.part

/-- No fate of R242, R193, R29, R33, R56, R57, R157 that the record alone decides. -/
def launchOk (b : List Byte) : Bool :=
  let l := launchOf b
  let gfx := l.mode == 2
  (gfx || (l.entry.toNat % 8 == 0 && hi4zero l.entry)) && hi4zero l.args && l.mode ≤ 2 && l.wcode ≤ 3 && l.nreg % 8 == 0 && 8 ≤ l.nreg
    && l.nreg ≤ 192 && 1 ≤ l.ngrp && l.ngrp ≤ 64 && l.ngrp * widthOf l.wcode ≤ 1024 && l.cfirst + l.ccount ≤ l.nreg && l.ccount ≤ 32
    && l.csize ≤ 4 && fld b 22 1 < 64 && fld b 23 1 < 16 && partOk l.part
    && l.spb + (if l.chen then 16384 else 0) ≤ 16384 * partSpad l.part
    && (gfx || (l.dimx != 0 && l.dimy != 0 && l.dimz != 0 && l.dimx % l.cx == 0 && l.dimy % l.cy == 0 && l.dimz % l.cz == 0))
    && (List.range 16).all (fun k => l.selOk (l.wgsel.toNat / 4 ^ k % 4)) && (List.range 8).all (fun k => l.selOk (l.clsel.toNat / 4 ^ k % 4))
    && l.batonOk && l.quota ≤ 2 && l.nsched ≤ 16 && 1 ≤ l.lease && l.lease ≤ 4096 && l.nbind ≤ 4 && l.cwsc ≤ 6
    && !(l.nsched != 0 && l.schedA.toNat % 64 != 0) && !(l.nbind != 0 && l.bindA.toNat % 64 != 0) && l.bkwin ≤ 256
    && allZero (b.drop 110) && l.fitsEmpty
    && (!gfx || (l.wcode == 3 && l.ngrp == 1 && l.csize == 1 && l.nsched == 0 && l.nbind == 0 && l.bkwin == 0))

/-- What R180 asks of a schedule entry when it is launched: PROG and SEQ bits 63:16 are zero. -/
def schedEntryOk (e : List Byte) : Bool := allZero ((e.drop 32).take 8) && fld e 48 8 < 2 ^ 16

/-- The schedule entries and bindings of a launch, judged when it starts. -/
def launchParts (ctx : Nat) (l : Launch) : Ev Unit :=
  (Ev.list (fun k => rdBytes (hubRead ctx) (l.schedA.toNat + 64 * k) 64) (List.range l.nsched)).and (fun es =>
    (Ev.list (fun k => rdBytes (hubRead ctx) (l.bindA.toNat + 64 * k) 64) (List.range l.nbind)).and (fun bs =>
      Ev.need (es.all schedEntryOk && bs.all (fun b => bindOk b l.spb)) 0))

/-- Reads a launch record at an address and judges all that R242 refuses: the record, its completion word, its schedule entries and bindings. -/
def readLaunch (ctx a : Nat) : Ev (List Byte) :=
  (rdBytes (hubRead ctx) a 256).and (fun b => (Ev.need (launchOk b) a).and (fun _ => (launchParts ctx (launchOf b)).and (fun _ => fun s =>
    if s.cwBad 0 ctx none false (launchOf b).cw (launchOf b).cwsc then (s, .error (.fate a)) else (s, .ok b))))

def noGfx : Gfx :=
  { rr := [], pattern := [], posQ := [], surfQ := [], slotOf := [], spill := [], taken := false, bks := [], binned := false, heads := [0, 0, 0, 0]
    tails := [0, 0, 0, 0], written := 0 }

/-- Everything that decides whether a launch starts, and its dispatch. -/
def launchEv (q slot cmd ctx a : Nat) (dies : BitVec 4) (node : Option (Nat × Nat)) (acq : Option Nat) : Ev Dispatch :=
  (readLaunch ctx a).and (fun b =>
    let l := launchOf b
    fun s =>
      (s, .ok { queue := q, slot := slot, cmd := cmd, lrec := BitVec.ofNat 64 a, lr := l, dies := dies, node := node, ctx := ctx, nextCl := 0
                live := 0, gfx := if l.mode = 2 then some noGfx else none, acqScope := acq, fin := .running, fault := false
                late := s.cwLate 0 ctx false l.cw l.cwsc }))

/-- A dispatch that has started, and its count in the audit log (R311). -/
def State.addDisp (s : State) (d : Dispatch) : State × Nat :=
  let s' := { s with
    disps := s.disps ++ [(s.fresh, d)]
    profNative := if d.lr.dbp then s.profNative else s.profNative + 1
    profDbp := if d.lr.dbp then s.profDbp + 1 else s.profDbp }
  (s'.bump, s.fresh)

/-- A read before the command starts meets a page fault; the queue waits at the command. -/
def State.launchFault (s : State) (q : Nat) (k : Queue) (f : XFault) (va : Nat) : State :=
  (s.updQueue q (fun x => { x with readFault := true })).hubFault (.hubLaunch q) q k.ctx f va

/-- QUEUE_LAUNCH. -/
def State.queueLaunch (s : State) (q : Nat) : State :=
  s.withCmd q (· = 1) (fun s k b =>
    let m := qcmdOf b
    match launchEv q (k.slot.getD 0) k.head.toNat k.ctx m.addr m.dies none k.lastScope s with
    | (s', .error (.fault f va)) => { s with fresh := s'.fresh }.launchFault q k f va
    | (_, .error (.fate _)) => s.refuseCmd q { code := 1, lrec := BitVec.ofNat 64 m.addr }
    | (s, .ok d) =>
      let r := s.addDisp d
      r.1.runCmd q b (some r.2) none)

def execQueueLaunch (q : Nat) (s : State) : Host.Outcome State Fault Refusal := .next (s.queueLaunch q)

-- Graphs (R243-R245)

/-- No fate of a graph header (R243). -/
def graphOk (h : List Byte) : Bool :=
  1 ≤ fld h 0 2 && fld h 0 2 ≤ 4096 && fld h 2 1 < 2 && fld h 3 1 ≤ 6 && fld h 4 4 == 0 && fld h 8 8 % 64 == 0 && allZero (h.drop 32)

/-- The instance completion word of a graph. -/
def gcwOf (h : List Byte) : DWord := BitVec.ofNat 64 (fld h 16 8)

/-- Predecessors of a node. -/
def nodeDeps (n : List Byte) : List Nat := (List.range (fld n 8 1)).map (fun j => fld n (16 + 2 * j) 2)

/-- No fate of node i. -/
def graphNodeOk (i : Nat) (n : List Byte) : Bool :=
  fld n 0 8 % 64 == 0 && fld n 8 1 ≤ 8 && allZero ((n.drop 9).take 7) && (nodeDeps n).all (· < i) && allZero (n.drop 32)

/-- Header, nodes and launch records of a graph, each judged. -/
def readGraph (ctx a : Nat) : Ev (List Byte × List (List Byte) × List (List Byte)) :=
  (rdBytes (hubRead ctx) a 64).and (fun h =>
    (Ev.need (graphOk h) a).and (fun _ =>
      (Ev.list (fun i => (rdBytes (hubRead ctx) (fld h 8 8 + 64 * i) 64).and (fun n => (Ev.need (graphNodeOk i n) a).and (fun _ => Ev.ret n)))
          (List.range (fld h 0 2))).and (fun ns =>
        (Ev.list (fun (n : List Byte) => readLaunch ctx (fld n 0 8)) ns).and (fun ls => Ev.ret (h, ns, ls)))))

/-- The snapshot in the instance buffer (R244): header, node table, and the launch records. -/
def writeInstance (ctx buf : Nat) (h : List Byte) (ns ls : List (List Byte)) : Ev Unit :=
  hubWrite ctx buf (h ++ ns.flatten ++ ls.flatten)

/-- Where the launch record of node i lies in an instance of n nodes (log 44). -/
def instRecord (buf n i : Nat) : Nat := buf + 64 + 64 * n + 256 * i

/-- QUEUE_GRAPH_LAUNCH. A SERIAL graph waits for an earlier instance of it. -/
def State.queueGraph (s : State) (q : Nat) : State :=
  s.withCmd q (· = 2) (fun s k b =>
    let m := qcmdOf b
    match readGraph k.ctx m.addr s with
    | (s', .error (.fault f va)) => { s with fresh := s'.fresh }.launchFault q k f va
    | (_, .error (.fate _)) => s.refuseCmd q { code := 1 }
    | (s1, .ok (h, ns, ls)) =>
      let serial := (fld h 2 1).testBit 0
      if serial && s.graphs.any (fun e => e.2.graph.toNat == m.addr && e.2.ctx == k.ctx) then s
      else if s1.cwBad 0 k.ctx none false (gcwOf h) (fld h 3 1) then s.refuseCmd q { code := 1 }
      else
        match writeInstance k.ctx m.inst h ns ls s1 with
        | (s', .error (.fault f va)) => { s with fresh := s'.fresh }.launchFault q k f va
        | (_, .error (.fate _)) => s.refuseCmd q { code := 1 }
        | (s, .ok _) =>
          let g : GraphInst :=
            { queue := q, slot := k.slot.getD 0, cmd := k.head.toNat, ctx := k.ctx, graph := BitVec.ofNat 64 m.addr, buf := BitVec.ofNat 64 m.inst
              serial := serial, gsc := fld h 3 1, gcw := gcwOf h, gseq := BitVec.ofNat 64 (fld h 24 8), dies := m.dies
              nodes := (ns.zip ls).map (fun p => (nodeDeps p.1, fld p.2 71 1, none)), failed := false, fault := false
              late := s1.cwLate 0 k.ctx false (gcwOf h) (fld h 3 1) }
          let id := s.fresh
          ({ s with graphs := s.graphs ++ [(id, g)] }.bump).runCmd q b (some id) none)

def execQueueGraphLaunch (q : Nat) (s : State) : Host.Outcome State Fault Refusal := .next (s.queueGraph q)

/-- The slot that a queue's work runs in now. -/
def State.boundSlot (s : State) (q : Nat) : Option Nat :=
  match (s.queue q).bind Queue.slot with
  | some n => if (s.slot n).preempt then none else some n
  | none => none

/-- The instance ends with a queue error: no further node starts, and it goes when the running ones have ended (R245). -/
def State.failGraph (s : State) (i code : Nat) (lrec : DWord) : State :=
  match mget s.graphs i with
  | none => s
  | some g => ({ (s.queueError g.queue { code := code, cmd := g.cmd, lrec := lrec }) with graphs := mupd s.graphs i (fun x => { x with failed := true }) }).graphReap i

/-- GRAPH_NODE_START: a node whose predecessors have completed. Its threads start after their completions and after those that the graph launch is
ordered after (R93). -/
def State.nodeStart (s : State) (i n : Nat) : State :=
  match mget s.graphs i with
  | none => s
  | some g =>
    match g.nodes[n]?, s.boundSlot g.queue with
    | some (deps, _, none), some slot =>
      if g.failed || g.fault || !(deps.all (fun p => ((g.nodes[p]?).map (fun x => x.2.2 == some none)).getD false)) then s
      else
        let a := instRecord g.buf.toNat g.nodes.length n
        let acq := deps.foldl (fun a p => wider a ((g.nodes[p]?).map (fun x => x.2.1))) ((s.queue g.queue).bind Queue.lastScope)
        match launchEv g.queue slot g.cmd g.ctx a g.dies (some (i, n)) acq s with
        | (s', .error (.fault f va)) =>
          ({ s with fresh := s'.fresh, graphs := mupd s.graphs i (fun x => { x with fault := true }) }).hubFault (.hubInst i) g.queue g.ctx f va
        | (_, .error (.fate _)) => s.failGraph i 1 (BitVec.ofNat 64 a)
        | (s, .ok d) =>
          let r := s.addDisp d
          { r.1 with graphs := mupd r.1.graphs i (fun x => { x with nodes := lmod x.nodes n (fun y => (y.1, y.2.1, some (some r.2))) }) }
    | _, _ => s

def execGraphNodeStart (inst node : Nat) (s : State) : Host.Outcome State Fault Refusal := .next (s.nodeStart inst node)

/-- The completion store of a dispatch, graph instance or signal: none with scope 0. What R53 asks of the word was judged at the start; `late` says
that it could not be, and then a word in host memory needs scope SYS now (R53, R81). -/
def State.hubDoneStore (s : State) (ctx : Nat) (cw seq : DWord) (sc : Nat) (late : Bool) : State × Except XErr Unit :=
  if sc = 0 then (s, .ok ())
  else if late && sc != 6 && s.inHost ctx cw.toNat then (s, .error (.fate cw.toNat))
  else s.hubStore ctx cw.toNat (leBytes 8 seq.toNat)

/-- GRAPH_INSTANCE_COMPLETE: every node's dispatch has completed. -/
def State.graphDone (s : State) (i : Nat) : State :=
  match mget s.graphs i with
  | none => s
  | some g =>
    if g.failed || g.fault || !(g.nodes.all (fun x => x.2.2 == some none)) then s
    else
      match s.hubDoneStore g.ctx g.gcw g.gseq g.gsc g.late with
      | (s', .error (.fault f va)) =>
        ({ s with fresh := s'.fresh, graphs := mupd s.graphs i (fun x => { x with fault := true }) }).hubFault (.hubInst i) g.queue g.ctx f va
      | (_, .error (.fate _)) => s.failGraph i 2 0
      | (s, .ok _) => ({ s with graphs := mdel s.graphs i }).cmdEnd g.queue g.cmd (some g.gsc)

def execGraphInstanceComplete (inst : Nat) (s : State) : Host.Outcome State Fault Refusal := .next (s.graphDone inst)

-- Wait and signal (R238)

/-- QUEUE_WAIT starts; QUEUE_WAIT_WAKE reads. -/
def State.queueWait (s : State) (q : Nat) : State := s.withCmd q (· = 3) (fun s _ b => s.runCmd q b none none)

def execQueueWait (q : Nat) (s : State) : Host.Outcome State Fault Refusal := .next (s.queueWait q)

def State.updRun (s : State) (q idx : Nat) (f : RunCmd → RunCmd) : State :=
  s.updQueue q (fun x => { x with running := x.running.map (fun r => if r.idx = idx then f r else r) })

/-- A wait or signal that has started meets a page fault. -/
def State.runFault (s : State) (q idx : Nat) (k : Queue) (f : XFault) (va : Nat) : State :=
  (s.updRun q idx (fun r => { r with fault := true })).hubFault (.hubRun q idx) q k.ctx f va

/-- A started wait or signal ends without completing. -/
def State.runFail (s : State) (q idx : Nat) : State := (s.queueError q { code := 2, cmd := idx }).cmdEnd q idx none

/-- One read of a wait's word. -/
def State.waitRead (s : State) (q : Nat) (k : Queue) (r : RunCmd) : State :=
  let m := qcmdOf r.bytes
  match rdBytes (hubRead k.ctx) m.addr 8 s with
  | (s', .error (.fault f va)) => { s with fresh := s'.fresh }.runFault q r.idx k f va
  | (_, .error (.fate _)) => s.runFail q r.idx
  | (s, .ok b) => if m.value.toNat ≤ leNat b then s.cmdEnd q r.idx (some m.qsc) else s

/-- QUEUE_WAIT_WAKE: the waits of a queue read their words. -/
def State.queueWake (s : State) (q : Nat) : State :=
  match s.queue q, s.boundSlot q with
  | some k, some _ => (k.running.filter (fun r => fld r.bytes 0 1 == 3 && !r.fault)).foldl (fun s r => s.waitRead q k r) s
  | _, _ => s

def execQueueWaitWake (q : Nat) (s : State) : Host.Outcome State Fault Refusal := .next (s.queueWake q)

/-- The store of a signal, which completes it. -/
def State.signalStore (s : State) (q : Nat) (k : Queue) (r : RunCmd) : State :=
  let m := qcmdOf r.bytes
  match s.hubDoneStore k.ctx (BitVec.ofNat 64 m.addr) m.value m.qsc r.late with
  | (s', .error (.fault f va)) => { s with fresh := s'.fresh }.runFault q r.idx k f va
  | (_, .error (.fate _)) => s.runFail q r.idx
  | (s, .ok _) => s.cmdEnd q r.idx (some m.qsc)

/-- QUEUE_SIGNAL: a signal whose fault has been answered stores again; otherwise the next command, if it is a signal, starts and stores. -/
def State.queueSignal (s : State) (q : Nat) : State :=
  match s.queue q, s.boundSlot q with
  | some k, some _ =>
    match k.running.find? (fun r => fld r.bytes 0 1 == 4 && !r.fault) with
    | some r => s.signalStore q k r
    | none =>
      s.withCmd q (· = 4) (fun s k b =>
        let m := qcmdOf b
        let cw := BitVec.ofNat 64 m.addr
        if s.cwBad 0 k.ctx none false cw m.qsc then s.refuseCmd q { code := 2 }
        else
          let late := s.cwLate 0 k.ctx false cw m.qsc
          (s.runCmd q b none none late).signalStore q k ⟨k.head.toNat, b, none, none, none, false, late⟩)
  | _, _ => s

def execQueueSignal (q : Nat) (s : State) : Host.Outcome State Fault Refusal := .next (s.queueSignal q)

-- Copy (R238)

/-- Cores on which the dispatcher may run a queue's copy command. -/
def State.copyCores (s : State) (q : Nat) (dies : BitVec 4) : List Nat :=
  (List.range 128).filter (fun c => dies.getLsbD (c / 32) && (mget (s.core c).qcopy q).isNone)

/-- QUEUE_COPY: the dispatcher chooses a core, and its copy engine reads the command. -/
def State.queueCopy (s : State) (q : Nat) : State :=
  s.withCmd q (· = 5) (fun s k b =>
    let m := qcmdOf b
    let cs := s.copyCores q m.dies
    match cs[Config.pick s.fresh % cs.length]? with
    | none => s
    | some c =>
      let s := s.bump
      match rdBytes (engRead (c / 32) k.ctx) m.addr 64 s with
      | (s', .error (.fault f va)) =>
        ({ s with fresh := s'.fresh }.updQueue q (fun x => { x with readFault := true })).unitFault (.hubLaunch q) f va 1 (c / 32) (c % 32)
          q k.ctx
      | (_, .error (.fate _)) => s.refuseCmd q { code := 4 }
      | (s, .ok cmd) =>
        (s.updCore c (fun x => { x with qcopy := mput x.qcopy q (copyRunOf cmd (BitVec.ofNat 64 m.addr)) })).runCmd q b none (some c))

def execQueueCopy (q : Nat) (s : State) : Host.Outcome State Fault Refusal := .next (s.queueCopy q)

-- DISPATCH_COMPLETE (R54, R207)

/-- Clusters of a dispatch. -/
def Launch.clusters (l : Launch) : Nat := l.dimx * l.dimy * l.dimz / l.csize

/-- Nothing of the dispatch is left to do. -/
def Dispatch.idle (d : Dispatch) : Bool :=
  d.live == 0 && (match d.gfx with
    | none => decide (d.lr.clusters ≤ d.nextCl)
    | some g => g.binned && decide ((renderOf g.rr).buckets ≤ g.written))

/-- The dispatch leaves: its bucket memory is idle again, and its queue or graph goes on. -/
def State.endDisp (s : State) (n : Nat) (d : Dispatch) : State :=
  let s := { (s.dropDispUnits n) with disps := mdel s.disps n }
  match d.node with
  | some p => s.graphNode p true
  | none => s.cmdEnd d.queue d.cmd (some d.lr.cwsc)

def State.dispDone (s : State) (n : Nat) : State :=
  match s.disp n with
  | none => s
  | some d =>
    if d.fin != .running || d.fault || !d.idle then s
    else
      match s.hubDoneStore d.ctx d.lr.cw d.lr.seq d.lr.cwsc d.late with
      | (s', .error (.fault f va)) =>
        ({ s with fresh := s'.fresh }.updDisp n (fun x => { x with fault := true })).hubFault (.hubDone n) d.queue d.ctx f va
      | (_, .error (.fate _)) => (s.failDispatch n { code := 2, cmd := d.cmd, lrec := d.lrec }).dispReap n
      | (s, .ok _) => s.endDisp n d

def execDispatchComplete (disp : Nat) (s : State) : Host.Outcome State Fault Refusal := .next (s.dispDone disp)

end Sys2Proof.Machine
end

