-- ==== Sys2Proof/Machine/Mapper.lean ====
section
/-! DEFINITION. Notify writes (R236, R298), the queue mapper (R239, R240), pre-emption of a slot and its deadlines (R248-R251, R231),
admission and restore by the die dispatchers (R26-R29, R56, R58, R241, R252). The hub's timer is in nanoseconds (log 45). -/
namespace Sys2Proof.Machine

-- Work and order of queues (R239, R240)

/-- The queue has work. -/
def Queue.hasWork (k : Queue) : Bool := (!k.err && k.head.toNat < k.tail.toNat) || !k.running.isEmpty

/-- Queues in ascending (class, wait start), ties by number. -/
def qBefore (a b : Nat × Queue) : Bool :=
  a.2.cls < b.2.cls || (a.2.cls == b.2.cls && (a.2.waitStart < b.2.waitStart || (a.2.waitStart == b.2.waitStart && a.1 < b.1)))

def insertQ (x : Nat × Queue) : List (Nat × Queue) → List (Nat × Queue)
  | [] => [x]
  | y :: ys => if qBefore x y then x :: y :: ys else y :: insertQ x ys

def sortQ (xs : List (Nat × Queue)) : List (Nat × Queue) := xs.foldl (fun acc x => insertQ x acc) []

/-- Active slots of a function, and the cap that the PF gave it (R299). -/
def State.slotsOf (s : State) (fn : Nat) : Nat :=
  (s.slots.filter (fun x => match x.queue with | some q => ((s.queue q).map (fun k => k.fn == fn)).getD false | none => false)).length

def State.underCap (s : State) (fn : Nat) : Bool := fn == 0 || s.slotsOf fn < ((mget s.vfs fn).map VfRes.slots).getD 0

/-- The idle slot with the smallest last_used, ties to the lowest number. -/
def idleSlot (xs : List Slot) : Option Nat :=
  (xs.zipIdx.filter (fun p => p.1.queue.isNone)).foldl (fun (b : Option (Nat × Nat)) p =>
    match b with
    | none => some (p.1.lastUsed, p.2)
    | some y => if p.1.lastUsed < y.1 then some (p.1.lastUsed, p.2) else b) none |>.map Prod.snd

-- Saves that complete (R249, R231)

/-- Work of a queue that is on the part. -/
def State.queueOnPart (s : State) (q : Nat) : Bool :=
  s.wgs.any (fun e => e.2.resident && !e.2.ended && ((s.disp e.2.disp).map (fun d => d.queue == q)).getD false)
    || s.disps.any (fun e => e.2.queue == q && ((e.2.gfx.map Gfx.taken).getD false))
    || s.cores.any (fun c => (mget c.2.qcopy q).isSome)

/-- The graphics block, type 3, of a die: queue state, next items, bucket memory (R253; log 13). -/
def gfxBlock (d : Nat) (g : Gfx) (x : Die) : List Byte :=
  let body := g.heads.flatMap (leBytes 4) ++ g.tails.flatMap (leBytes 4)
    ++ x.rasters.flatMap (fun r => leBytes 4 (r.bucket.getD 0xFFFFFFFF) ++ leBytes 4 r.item) ++ (Mem.dump 0x1000000 0 x.bk).zipIdx.map (fun p => p.1 ^^^ bkMask d x.bkDraw p.2)
  leBytes 1 3 ++ zeros 5 ++ leBytes 1 d ++ zeros 1 ++ leBytes 8 (64 + up64 body.length) ++ zeros 48 ++ pad64 body

/-- The save of a graphics dispatch whose tasks are all saved: when its rasterisers are idle, or by force in mid-bucket. A page fault of one of its
units is waited for. -/
def State.saveGfx (s : State) (n : Nat) (force : Bool) : State :=
  match s.disp n with
  | none => s
  | some x =>
    match x.gfx with
    | none => s
    | some g =>
      let busy := s.wgs.any (fun e => e.2.disp == n && e.2.resident && !e.2.ended)
      let faulty := s.dies.any (fun d => d.diceFault || d.binFault || d.rasters.any Raster.fault)
      let idle := s.dies.all (fun d => d.rasters.all (fun r => r.bucket.isNone))
      if !g.taken || x.fin != .running || !s.preempting n || busy || faulty || !(idle || force) then s
      else
        let r := (List.range 4).foldl (fun (z : State × Bool) d =>
          if z.2 then
            match z.1.csaAppend x.queue (gfxBlock d g (z.1.die d)) with
            | (s, some _) => (s, true)
            | (s, none) => (s, false)
          else z) (s, true)
        if r.2 then
          let bks := r.1.dies.map (fun d => (d.bk, d.bkDraw, d.rasters))
          let s := { r.1 with dies := r.1.dies.map (fun (d : Die) => { d with bkState := .idle, rasters := d.rasters.map (fun _ => .idle) }) }
          s.updGfx n (fun y => { y with taken := false, bks := bks })
        else r.1.fatalQueue x.queue

/-- Everything of a slot being pre-empted that can be saved now is. -/
def State.saveSlot (s : State) (n : Nat) : State :=
  let s := ((s.wgs.filter (fun e => e.2.resident && !e.2.ended && ((s.disp e.2.disp).map (fun d => d.slot == n)).getD false)).map Prod.fst).foldl
    State.trySave s
  ((s.disps.filter (fun e => e.2.slot == n && e.2.gfx.isSome)).map Prod.fst).foldl (fun s d => s.saveGfx d false) s

/-- The slot becomes idle: its queue has no work, or its save is complete; a queue with saved work waits again (R239). -/
def State.releaseSlot (s : State) (n : Nat) : State :=
  match (s.slot n).queue with
  | none => s
  | some q =>
    match s.queue q with
    | none => s.updSlot n (fun x => { x with queue := none, preempt := false, asked := false, deadlines := [] })
    | some k =>
      let s := if (s.slot n).asked then s.saveSlot n else s
      if !k.hasWork || ((s.slot n).asked && !s.queueOnPart q) then
        let s := s.updSlot n (fun x => { x with queue := none, preempt := false, asked := false, deadlines := [] })
        let s := s.updQueue q (fun x => { x with slot := none, waitStart := s.hubTime })
        { s with queues := s.queues.map (fun (e : Nat × Queue) => (e.1, if e.2.victim = some n then { e.2 with victim := none } else e.2)) }
      else s

-- mapper_step (R240)

/-- bind: the queue's work belongs to the slot. -/
def State.bindSlot (s : State) (n q : Nat) : State :=
  let s := s.updSlot n (fun x => { x with queue := some q, lastUsed := s.hubTime, boundAt := s.hubTime })
  let s := s.updQueue q (fun x => { x with slot := some n, victim := none })
  { s with
    disps := s.disps.map (fun (e : Nat × Dispatch) => (e.1, if e.2.queue = q then { e.2 with slot := n } else e.2))
    graphs := s.graphs.map (fun (e : Nat × GraphInst) => (e.1, if e.2.queue = q then { e.2 with slot := n } else e.2)) }

/-- better of R240, over (class, bound at, slot). -/
def betterVictim (v : Option (Nat × Nat × Nat)) (b : Nat × Nat × Nat) : Option (Nat × Nat × Nat) :=
  match v with
  | none => some b
  | some x => if x.1 < b.1 || (b.1 == x.1 && b.2.1 < x.2.1) then some b else some x

/-- Bound slots that are not being pre-empted. -/
def State.boundSlots (s : State) : List (Nat × Nat × Nat) :=
  s.slots.zipIdx.filterMap (fun p => match p.1.queue with
    | some q => if p.1.preempt then none else some (((s.queue q).map Queue.cls).getD 3, p.1.boundAt, p.2)
    | none => none)

/-- The victim that a waiting queue asks for. -/
def State.victimFor (s : State) (k : Queue) : Option Nat :=
  let bs := s.boundSlots
  let v := (bs.filter (fun b => k.cls < b.1)).foldl betterVictim none
  let w := if v.isNone && 0 < k.cls && 1000 * s.age ≤ s.hubTime - k.waitStart then
      (bs.filter (fun b => b.1 == k.cls && 1000 * s.quantum ≤ s.hubTime - b.2.1)).foldl betterVictim none
    else v
  w.map (fun b => b.2.2)

def State.mapQueue (s : State) (q : Nat) : State :=
  match s.queue q with
  | none => s
  | some k =>
    if !k.hasWork || k.slot.isSome || (k.err && k.running.isEmpty) || !s.underCap k.fn then s
    else match idleSlot s.slots with
      | some n => s.bindSlot n q
      | none =>
        if k.victim.isSome then s
        else match s.victimFor k with
          | none => s
          | some n => (s.updSlot n (fun x => { x with preempt := true })).updQueue q (fun x => { x with victim := some n })

/-- mapper_step, after slots that have become idle are released. -/
def State.mapperStep (s : State) : State :=
  let s := (List.range s.slots.length).foldl State.releaseSlot s
  ((sortQ (s.queues.filter (fun e => e.2.slot.isNone && e.2.hasWork))).map Prod.fst).foldl State.mapQueue s

/-- The slot's queue has no work, or its save is complete. -/
def State.slotDone (s : State) (n : Nat) : Bool :=
  match (s.slot n).queue with
  | none => false
  | some q => match s.queue q with
    | none => true
    | some k => !k.hasWork || ((s.slot n).asked && !s.queueOnPart q)

/-- The saves of slots being pre-empted go on, and the mapper runs when a slot is released or its save completes (R240). -/
def State.mapperLook (s : State) : State :=
  let s := ((List.range s.slots.length).filter (fun n => (s.slot n).asked)).foldl State.saveSlot s
  if (List.range s.slots.length).any s.slotDone then s.mapperStep else s

/-- MAPPER_TIMER: the hub's timer, in nanoseconds, reaches its next multiple of 10 us. -/
def execMapperTimer (s : State) : Host.Outcome State Fault Refusal :=
  .next ({ s with hubTime := (s.hubTime / 10000 + 1) * 10000 }.mapperStep)

-- NOTIFY_WRITE (R236, R298, R299)

def notifyBase : Nat := 0x01000000

/-- The queue whose notify page holds an offset of a function's BAR0. -/
def State.notifyQueue (s : State) (fn off : Nat) : Option Nat :=
  let i := (off - notifyBase) / 4096
  if fn = 0 then (if i < 4096 then some i else none) else ((mget s.vfs fn).map (fun v => v.queues[i]?)).getD none

/-- TAIL := max(TAIL, value); a value past the ring is a queue error (R236). -/
def State.announce (s : State) (q : Nat) (v : DWord) : State :=
  match s.queue q with
  | none => s
  | some k =>
    if k.head.toNat + 2 ^ k.lsize < v.toNat then s.queueError q { code := 2, cmd := k.head.toNat }
    else if v.toNat ≤ k.tail.toNat then s
    else
      let s := s.updQueue q (fun x => { x with tail := v, waitStart := if x.hasWork then x.waitStart else s.hubTime })
      s.physStore (k.desc.toNat + 40) (leBytes 8 v.toNat)

def State.notify (s : State) (fn off size : Nat) (v : DWord) : State :=
  if off < notifyBase then s
  else
    match s.notifyQueue fn off with
    | some q =>
      if size = 8 && (off - notifyBase) % 4096 = 0 && (s.queue q).isSome then (s.announce q v).mapperStep
      else s.logErr kindNotify 0xFF 0 (BitVec.ofNat 64 off)
    | none => s.logErr kindNotify 0xFF 0 (BitVec.ofNat 64 off)

def execNotifyWrite (fn off size : Nat) (value : DWord) (s : State) : Host.Outcome State Fault Refusal := .next (s.notify fn off size value)

-- Pre-emption (R248-R251)

/-- Cores that run work of a slot; the first core of each die stands for its graphics units. -/
def State.slotCores (s : State) (n : Nat) : List Nat :=
  let q := (s.slot n).queue
  let ws := (s.wgs.filter (fun e => e.2.resident && !e.2.ended && ((s.disp e.2.disp).map (fun d => d.slot == n)).getD false)).map (fun e => e.2.coreIx)
  let cs := (s.cores.filter (fun c => match q with | some q => (mget c.2.qcopy q).isSome | none => false)).map Prod.fst
  let gs := if s.disps.any (fun e => e.2.slot == n && ((e.2.gfx.map Gfx.taken).getD false)) then [0, 32, 64, 96] else []
  (ws ++ cs ++ gs).eraseDups

/-- PREEMPTION_REQUEST: REQ is set for every group of the slot, its cores start their counters, its leases go, and what can be saved is. -/
def State.preemptReq (s : State) (n : Nat) : State :=
  if !(s.slot n).preempt || (s.slot n).asked then s
  else
    let cs := s.slotCores n
    let s := s.updSlot n (fun x => { x with asked := true, deadlines := cs })
    let ws := (s.wgs.filter (fun e => ((s.disp e.2.disp).map (fun d => d.slot == n)).getD false)).map Prod.fst
    let s := { s with groups := s.groups.map (fun (e : GroupId × Group) => (e.1, if ws.contains e.1.wg then { e.2 with preq := true } else e.2)) }
    let s := cs.foldl (fun s c => s.giveUpLease c n) s
    s.saveSlot n

def execPreemptionRequest (slot : Nat) (s : State) : Host.Outcome State Fault Refusal := .next (s.preemptReq slot)

/-- A workgroup has no access to wait for, and no page fault of its threads. -/
def State.settled (s : State) (w : Nat) : Bool :=
  !(s.accs.any (fun e => e.2.t.wg == w))
    && !(s.faults.any (fun e => match e.2.site with | .fetch t => t.wg == w | .record t => t.wg == w | _ => false))

/-- A queue copy is saved: block type 4 (R253), and its PROG where the command stands (R178). -/
def State.saveCopy (s : State) (c q : Nat) : State :=
  match mget (s.core c).qcopy q, s.queue q with
  | some r, some k =>
    let s := s.dropFaults (fun f => f == .copyCmd c (.queue q))
    let s := if r.ran none then s else s.progStore c k.ctx r
    match s.csaAppend q (leBytes 1 4 ++ zeros 7 ++ leBytes 8 128 ++ zeros 48 ++ r.bytes) with
    | (s, none) => s.fatalQueue q
    | (s, some _) =>
      let ids := (k.running.filter (fun x => x.core == some c)).map RunCmd.idx
      (s.updCore c (fun x => { x with qcopy := mdel x.qcopy q })).updQueue q (fun x => { x with
        running := x.running.map (fun y => if y.core = some c then { y with core := none, copy := some (r.pause none) } else y)
        savedCopies := x.savedCopies ++ ids })
  | _, _ => s

/-- PREEMPTION_DEADLINE: a core's counter has expired. The workgroups there whose accesses are complete are saved by force, a halted one first
meets the end of its halt; queue copies there are saved; on a die's first core the graphics units are. -/
def State.preemptDeadline (s : State) (c n : Nat) : State :=
  if !(s.slot n).asked || !(s.slot n).deadlines.contains c then s
  else
    let own := fun (s : State) => (s.wgs.filter (fun e => e.2.coreIx == c && e.2.resident && !e.2.ended
      && ((s.disp e.2.disp).map (fun d => d.slot == n)).getD false)).map Prod.fst
    let s := ((own s).filter (fun w => ((s.wg w).map (fun g => g.halt == .running)).getD false && s.settled w)).foldl State.saveOrDie s
    let s := match (s.slot n).queue with | some q => s.saveCopy c q | none => s
    let s := if c % 32 = 0 then ((s.disps.filter (fun e => e.2.slot == n && e.2.gfx.isSome)).map Prod.fst).foldl (fun s d => s.saveGfx d true) s else s
    if (own s).isEmpty then s.updSlot n (fun x => { x with deadlines := x.deadlines.filter (· != c) }) else s

def execPreemptionDeadline (core slot : Nat) (s : State) : Host.Outcome State Fault Refusal := .next (s.preemptDeadline core slot)

-- Space on a core (R26, R27, R56, R58)

/-- Free group slots of a core, in groups of 8 lanes. -/
def State.freeSlots (s : State) (c : Nat) : Nat := 512 - ((s.spots c).map (fun p => p.width / 8)).foldl (· + ·) 0

/-- Workgroups that hold space on a core. -/
def State.holders (s : State) (c : Nat) : List Workgroup := (s.wgs.filter (fun e => e.2.resident && e.2.coreIx == c)).map Prod.snd

/-- First fit of a run among occupied runs, in steps. -/
def firstFit (occ : List (Nat × Nat)) (limit step size : Nat) : Option Nat :=
  ((List.range (limit / step + 1)).map (step * ·)).find? (fun o => o + size ≤ limit && occ.all (fun p => o + size ≤ p.1 || p.1 + p.2 ≤ o))

/-- First fit of n runs of one size. -/
def firstFits (limit step size : Nat) : Nat → List (Nat × Nat) → Option (List Nat)
  | 0, _ => some []
  | n + 1, occ =>
    match firstFit occ limit step size with
    | none => none
    | some o => (firstFits limit step size n ((o, size) :: occ)).map (fun os => o :: os)

/-- What a workgroup is given on a core. -/
structure Fit where
  core  : Nat
  wslot : Nat
  spad  : Nat
  phr   : List Nat
  tiles : List Nat
  spots : List Spot
deriving DecidableEq, Repr

/-- Space for a workgroup on a core; `place` groups need slots now, and one that has ended needs only its scratchpad. -/
def State.fitOn (s : State) (d : Dispatch) (rank place : Nat) (ended : Bool) (c : Nat) : Option Fit :=
  let l := d.lr
  let k := s.core c
  let hs := s.holders c
  let conf := match k.conf with | none => true | some (p, q) => p == l.part && q == l.quota
  let used := (hs.filter (fun w => !w.ended)).map Workgroup.wslot
  let size := recordSize (Sys2Proof.Machine.widthOf l.wcode) l.ccount
  let recs := hs.flatMap (fun w => w.phrOffs.map (fun o =>
    (o, ((s.disp w.disp).map (fun x => recordSize (Sys2Proof.Machine.widthOf x.lr.wcode) x.lr.ccount)).getD 0)))
  let free := (List.range (partAcct l.part)).filter (fun t => hs.all (fun w => !w.tileNos.contains t))
  let win := l.bkwin == 0 || (match (s.die (c / 32)).bkState with
    | .idle => true
    | .window n _ => ((s.disp n).map (fun x => x.queue == d.queue && x.cmd == d.cmd && x.node == d.node)).getD false
    | .graphics _ => false)
  if !conf || !k.phaseQ.isEmpty || !win then none
  else
    match (List.range 32).find? (fun n => !used.contains n), firstFit (hs.map (fun w => (w.spadOff, w.spadKib))) (16 * partSpad l.part) 1 (l.spadNeed rank) with
    | some ws, some so =>
      if ended then some ⟨c, ws, so, [], [], []⟩
      else if free.length < partAccw l.part then none
      else
        match firstFits (16384 * partPhr l.part) 64 size l.ngrp recs, placeGroups (s.spots c) (columnWords l.part) (Sys2Proof.Machine.widthOf l.wcode) l.nreg place with
        | some ph, some sp => some ⟨c, ws, so, ph, free.take (partAccw l.part), sp⟩
        | _, _ => none
    | _, _ => none

/-- The cluster set that a cluster of a dispatch takes on a 4-core cluster (R27): none needed, or the lowest free one of eight. -/
def State.setFor (s : State) (d : Dispatch) (die c4 : Nat) : Option (Option Nat) :=
  if d.lr.csize = 1 && !d.lr.chen then some none
  else
    let used := (s.clusters.filter (fun e => e.2.die == die && e.2.c4 == c4 && e.2.members.any (fun m => ((s.wg m).map Workgroup.resident).getD false))).filterMap
      (fun e => e.2.set)
    ((List.range 8).find? (fun n => !used.contains n)).map some

/-- All members of a cluster on given cores: (rank, groups to place, ended) each. -/
def State.fitAll (s : State) (d : Dispatch) (ms : List (Nat × Nat × Bool)) (cs : List Nat) : Option (List Fit) :=
  (ms.zip cs).mapM (fun p => s.fitOn d p.1.1 p.1.2.1 p.1.2.2 p.2)

/-- The first of the largest. -/
def firstMax {α : Type} : List (Nat × α) → Option (Nat × α)
  | [] => none
  | x :: xs =>
    match firstMax xs with
    | none => some x
    | some y => if x.1 < y.1 then some y else some x

/-- Core and cluster choice of R241 on a die: the fits and the cluster set. -/
def State.chooseOn (s : State) (d : Dispatch) (ms : List (Nat × Nat × Bool)) (e : Nat) : Option (List Fit × Option Nat) :=
  let groups := if ms.length = 1 then (List.range 32).map (fun c => [32 * e + c])
    else (List.range 8).map (fun c => (List.range ms.length).map (fun k => 32 * e + 4 * c + k))
  let cands := groups.filterMap (fun cs =>
    match s.fitAll d ms cs, s.setFor d e (cs.headD 0 % 32 / 4) with
    | some fs, some set => some ((cs.map s.freeSlots).foldl (· + ·) 0, fs, set)
    | _, _ => none)
  (firstMax cands).map Prod.snd

def State.dieFree (s : State) (e : Nat) : Nat := ((List.range 32).map (fun c => s.freeSlots (32 * e + c))).foldl (· + ·) 0

/-- Die choice of R241 among the allowed dies. -/
def State.chooseDie (s : State) (d : Dispatch) (ms : List (Nat × Nat × Bool)) (dies : List Nat) : Option (Nat × List Fit × Option Nat) :=
  (firstMax (dies.filterMap (fun e => (s.chooseOn d ms e).map (fun x => (s.dieFree e, e, x))))).map Prod.snd

-- Admission

/-- A core takes the configuration of the first workgroup it admits while empty; its quota ways are written back and invalidated (R56, R65). -/
def State.takeConf (s : State) (c : Nat) (l : Launch) : State :=
  if (s.core c).conf.isSome then s
  else
    let s := ((s.core c).l1.filter (fun x => 8 - l.quota ≤ x.way)).foldl (fun s x => (s.l1WriteBack c x).l1Del c x.line) s
    s.updCore c (fun x => { x with conf := some (l.part, l.quota) })

/-- A dispatch with a bucket window pins a die's, zeroed, at its first admission there (R63). -/
def State.takeWindow (s : State) (n e : Nat) (l : Launch) : State :=
  if l.bkwin = 0 || (s.die e).bkState != .idle then s
  else s.updDie e (fun x => { x with bkState := .window n (65536 * l.bkwin), bk := [], bkDraw := none })

/-- The core keeps the schedule entries and transform bindings of a workgroup it admits in instruction-cache lines (R246). A line that cannot be read
now is read when it is needed. -/
def State.primeLines (s : State) (c ctx : Nat) (l : Launch) : State :=
  (((List.range l.nsched).map (l.schedA.toNat + 64 * ·)) ++ ((List.range l.nbind).map (l.bindA.toNat + 64 * ·))).foldl
    (fun s a => (icData c ctx a 64 s).1) s

/-- The baton's first holder (R157). -/
def Launch.firstBaton (l : Launch) : Option Nat :=
  match l.batonSel with
  | 0 => none
  | 1 => some 0
  | 2 => (List.range l.ngrp).find? (fun g => l.m0.getLsbD g)
  | _ => (List.range l.ngrp).find? (fun g => l.m1.getLsbD g)

/-- A thread at its start (R14). -/
def newThread (entry : DWord) (n : Nat) : Thread :=
  { pc := entry, clause := none, regs := List.replicate n 0, preds := 0, flags := 0, fsr := 0, fcr := 0, sys := false, trapcause := 0, epc := 0
    trapaddr := 0, exited := false, wait := .none, trapped := false, stopped := false, watch := none, reserved := none, resume := false }

/-- A group at its start (R23). -/
def newGroup (d : Dispatch) (p : Spot) : Group :=
  { width := p.width, status := .running, quarter := p.quarter, row := p.row, off := p.off, base := p.base
    sregs := [d.lr.args.setWidth 32, (d.lr.args >>> 32).setWidth 32, d.lrec.setWidth 32, (d.lrec >>> 32).setWidth 32] ++ List.replicate 28 0
    preq := false, stage := 0, rels := List.replicate 16 0, skid := 0, quota := 0, halted := false, npc := 0, cause := 0, waitBar := none, fullSave := false, held := false }

/-- A workgroup at its start. -/
def newWg (n : Nat) (d : Dispatch) (xyz : Nat × Nat × Nat) (cl rank : Nat) (f : Fit) (task : Option GridTask) : Workgroup :=
  { disp := n, x := xyz.1, y := xyz.2.1, z := xyz.2.2, ngrp := d.lr.ngrp, die := f.core / 32, core := f.core % 32, wslot := f.wslot, cluster := cl
    rank := rank, resident := true, ended := false, spadOff := f.spad, spadKib := d.lr.spadNeed rank, phrOffs := f.phr, spad := []
    tiles := List.replicate f.tiles.length [], tileNos := f.tiles, baton := d.lr.firstBaton, halt := .running, firstTrap := none
    sched := List.replicate d.lr.nsched ⟨[], 0, none, none, false⟩, nextBind := 0, bindFault := false, task := task, saveOff := 0, mxSaved := [], cpySaved := [] }

/-- Admits one workgroup under an identifier: its groups and threads start, after the acquire of their start (R93, R202). -/
def State.admitWg (s : State) (n : Nat) (d : Dispatch) (w cl rank : Nat) (xyz : Nat × Nat × Nat) (f : Fit) (entry : DWord) (task : Option GridTask) : State :=
  let s := s.takeConf f.core d.lr
  let s := (s.takeWindow n (f.core / 32) d.lr).primeLines f.core d.ctx d.lr
  let s := if task.isSome then s.acquire f.core .dev else s
  let s := s.startAcquire f.core d.acqScope
  let gs := f.spots.zipIdx
  { s with
    wgs := s.wgs ++ [(w, newWg n d xyz cl rank f task)]
    groups := s.groups ++ gs.map (fun p => (⟨w, p.2⟩, newGroup d p.1))
    threads := s.threads ++ gs.flatMap (fun p => (List.range p.1.width).map (fun i => (⟨w, p.2, i⟩, newThread entry d.lr.nreg))) }

/-- Admits a cluster: member ranks with their coordinates and fits. -/
def State.admitCluster (s : State) (n : Nat) (d : Dispatch) (ms : List (Nat × Nat × Nat)) (fs : List Fit) (set : Option Nat) (entry : DWord)
    (task : Option GridTask) : State :=
  let cl := s.fresh
  let ids := (List.range ms.length).map (fun k => s.fresh + 1 + k)
  let c0 := (fs.map Fit.core).headD 0
  let k : Cluster := ⟨n, c0 / 32, c0 % 32 / 4, ids, set, List.replicate 16 [], []⟩
  let s := { s with fresh := s.fresh + 1 + ms.length, clusters := s.clusters ++ [(cl, k)] }
  let s := ((ids.zip (ms.zip fs)).zipIdx).foldl (fun s p => s.admitWg n d p.1.1 cl p.2 p.1.2.1 p.1.2.2 entry task) s
  s.updDisp n (fun x => { x with live := x.live + ms.length })

/-- Coordinates of the members of cluster n of a launch, by rank (R29, R241). -/
def Launch.members (l : Launch) (n : Nat) : List (Nat × Nat × Nat) :=
  let nx := l.dimx / l.cx
  let ny := l.dimy / l.cy
  let i := n % nx
  let j := n / nx % ny
  let k := n / (nx * ny)
  (List.range l.csize).map (fun r => (i * l.cx + r % l.cx, j * l.cy + r / l.cx % l.cy, k * l.cz + r / (l.cx * l.cy)))

def diesOf (m : BitVec 4) : List Nat := (List.range 4).filter (fun e => m.getLsbD e)

/-- New clusters: where the next one of a dispatch goes. -/
def State.nextPlace (s : State) (d : Dispatch) : Option (Nat × List Fit × Option Nat) :=
  if d.gfx.isSome || d.fin != .running || d.lr.clusters ≤ d.nextCl then none
  else s.chooseDie d ((List.range d.lr.csize).map (fun r => (r, d.lr.ngrp, false))) (diesOf d.dies)

/-- Grid tasks of a die that wait to start (R200, R201): die, surface, grid, record. -/
def Gfx.waiting (g : Gfx) (e : Nat) : List GridTask :=
  (g.posQ.filter (fun t => t.1 == e)).map (fun t => ⟨false, t.2.1, t.2.2, false⟩) ++ (g.surfQ.filter (fun t => t.1 == e)).map (fun t => ⟨true, t.2.1, t.2.2, false⟩)

def State.nextTask (s : State) (n : Nat) (e : Nat) : Option (GridTask × List Fit × Option Nat) :=
  match s.gfxOf n with
  | none => none
  | some (d, g) =>
    let ts := g.waiting e
    match ts[Config.pick s.fresh % ts.length]?, s.chooseOn d [(0, 1, false)] e with
    | some t, some (fs, set) => some (t, fs, set)
    | _, _ => none

/-- Starts a grid task (R193, R202). -/
def State.admitTask (s : State) (n : Nat) (e : Nat) (t : GridTask) (fs : List Fit) (set : Option Nat) : State :=
  match s.gfxOf n with
  | none => s
  | some (d, g) =>
    let r := renderOf g.rr
    let entry := BitVec.ofNat 64 (if t.surface then r.surfe else r.pose)
    let s := (s.bump).admitCluster n d [(t.grid % 2 ^ 32, t.grid / 2 ^ 32, if t.surface then 1 else 0)] fs set entry (some t)
    s.updGfx n (fun y =>
      if t.surface then { y with surfQ := y.surfQ.erase (e, t.grid, t.recAddr) } else { y with posQ := y.posQ.erase (e, t.grid, t.recAddr) })

-- Restore (R252)

/-- A group of a saved workgroup needs a slot at once: it was saved in full, or has yielded. -/
def State.needsSlot (s : State) (g : GroupId) : Bool :=
  !(s.liveThreads g).isEmpty && ((s.grp g).map (fun x => x.fullSave || x.waitBar.isNone)).getD false

/-- A fate of R254 or R44 in the image of a workgroup in the save area, or data of it that cannot be read (R255, R303). -/
def State.restoreFate (s : State) (w : Nat) : Bool :=
  match s.wg w, s.dispOf w with
  | some g, some d =>
    let base := ((s.queue d.queue).map (fun k => k.csab.toNat)).getD 0 + g.saveOff + 64
    let lens := (s.wgGroups w).map (fun h => (s.groupSection h).length)
    let last := base + lens.foldl (· + ·) 0
    let rd := fun a n => leNat (s.physRead a n)
    s.lost.any (fun x => base < 32 * x + 32 && 32 * x < last) || (s.wgGroups w).zipIdx.any (fun p =>
      let a := base + (lens.take p.2).foldl (· + ·) 0
      match rd (a + 1) 1 with
      | 0 => (List.range (Sys2Proof.Machine.widthOf d.lr.wcode)).any (fun i =>
          let t := a + 192 + 32 * i
          16 ≤ rd (t + 7) 1 || 2 < rd (t + 8) 1 || (rd (t + 8) 1 == 2 && rd (t + 9) 1 / 64 == 3))
      | 1 => 16 ≤ rd (a + 71) 1 || 32 < rd (a + 75) 1 || 1 < rd (a + 76) 1
      | _ => false)
  | _, _ => false

/-- Puts a saved workgroup on its core: what R253 saved, new slots, tiles and records; its core takes the configuration and its die the bucket window
as at an admission. An ended member leaves the core where it stood. DESIGN CHOICE (log 76): the threads' NPC, SREG, PRED, FSR, FCR and CARRY are those
that State holds, not bytes read back from the save area. -/
def State.restoreWg (s : State) (w : Nat) (d : Dispatch) (f : Fit) : State :=
  match s.wg w with
  | none => s
  | some g =>
    let s := ((s.takeConf f.core d.lr).takeWindow g.disp (f.core / 32) d.lr).primeLines f.core d.ctx d.lr
    let mx := g.mxSaved
    let cp := g.cpySaved
    let s := s.updWg w (fun x => { x with
      resident := true, die := f.core / 32, core := f.core % 32, wslot := f.wslot, spadOff := f.spad, phrOffs := f.phr, tileNos := f.tiles
      mxSaved := [], cpySaved := [] })
    if g.ended then s.tidyCore g.coreIx
    else
      let gs := (s.wgGroups w).filter s.needsSlot
      let s := (s.wgGroups w).foldl (fun s h => s.updGrp h (fun x => { x with
        preq := false, status := if x.waitBar.isSome && !x.fullSave then .between else .running })) s
      let s := (gs.zip f.spots).foldl (fun s p => s.updGrp p.1 (fun x => { x with
        quarter := p.2.quarter, row := p.2.row, off := p.2.off, base := p.2.base, waitBar := none, fullSave := false })) s
      let s := s.updCore f.core (fun x => { x with chain := x.chain ++ mx, cpyq := x.cpyq ++ cp })
      let s := (s.acquire f.core .dev).updQueue d.queue (fun x => { x with savedWgs := x.savedWgs.filter (· != w) })
      (s.leaseStep f.core none).tryBars w

/-- The members of a saved cluster, by rank, with what each needs. -/
def State.savedMembers (s : State) (cl : Nat) : List (Nat × Nat × Nat × Bool) :=
  (((mget s.clusters cl).map Cluster.members).getD []).map (fun m =>
    match s.wg m with
    | some g => (m, g.rank, ((s.wgGroups m).filter s.needsSlot).length, g.ended)
    | none => (m, 0, 0, true))

/-- Where a saved workgroup's cluster goes, once every member that has not ended is saved. -/
def State.restorePlace (s : State) (w : Nat) : Option (Nat × List Fit × Option Nat) :=
  match s.wg w, s.dispOf w with
  | some g, some d =>
    let ms := s.savedMembers g.cluster
    if ms.all (fun m => ((s.wg m.1).map (fun x => x.ended || !x.resident)).getD true) then
      s.chooseDie d (ms.map (fun m => (m.2.1, m.2.2.1, m.2.2.2))) (diesOf d.dies)
    else none
  | _, _ => none

/-- Restores a cluster; a fate in its image is a fatal queue error (R255). -/
def State.restoreCluster (s : State) (w : Nat) (fs : List Fit) (set : Option Nat) : State :=
  match s.wg w, s.dispOf w with
  | some g, some d =>
    let ms := s.savedMembers g.cluster
    if ms.any (fun m => !m.2.2.2 && s.restoreFate m.1) then s.fatalQueue d.queue
    else
      let c0 := (fs.map Fit.core).headD 0
      let s := { s with clusters := mupd s.clusters g.cluster (fun x => { x with die := c0 / 32, c4 := c0 % 32 / 4, set := set }) }
      ((ms.zip fs).foldl (fun s p => s.restoreWg p.1.1 d p.2) s).csaIdle d.queue
  | _, _ => s

/-- A saved queue copy goes on at a core of its command's dies. -/
def State.restoreCopy (s : State) (q : Nat) : State :=
  match s.queue q with
  | none => s
  | some k =>
    match k.savedCopies, k.running.find? (fun r => k.savedCopies.head? == some r.idx) with
    | _ :: rest, some r =>
      let cs := s.copyCores q (qcmdOf r.bytes).dies
      match cs[Config.pick s.fresh % cs.length]?, r.copy with
      | some c, some y =>
        let s := (s.bump).updCore c (fun x => { x with qcopy := mput x.qcopy q y })
        (s.updQueue q (fun x => { x with
          savedCopies := rest, running := x.running.map (fun z => if z.idx = r.idx then { z with core := some c, copy := none } else z) })).csaIdle q
      | _, _ => s
    | _, _ => s

-- DISPATCHER_TURN (R241)

/-- What a die's dispatcher can do for a slot. -/
inductive Service where
  | copy (q : Nat)
  | restore (w : Nat) (fs : List Fit) (set : Option Nat)
  | launchOn (n : Nat) (fs : List Fit) (set : Option Nat)
  | task (n : Nat) (t : GridTask) (fs : List Fit) (set : Option Nat)
deriving DecidableEq, Repr

/-- The first thing a slot's queue has for a die: saved work before new work (R240); within a queue, dispatches in the order they started. -/
def State.slotTurn (s : State) (e n : Nat) : Option Service :=
  match (s.slot n).queue with
  | none => none
  | some q =>
    match s.queue q with
    | none => none
    | some k =>
      if (s.slot n).preempt then none
      else if !k.savedCopies.isEmpty then some (.copy q)
      else
        match k.savedWgs.findSome? (fun w => match s.restorePlace w with
            | some (d, fs, set) => if d = e then some (Service.restore w fs set) else none
            | none => none) with
        | some t => some t
        | none =>
          if !k.savedWgs.isEmpty then none
          else s.disps.findSome? (fun p =>
            if p.2.queue != q then none
            else match s.nextTask p.1 e with
              | some (t, fs, set) => some (.task p.1 t fs set)
              | none => match s.nextPlace p.2 with
                | some (d, fs, set) => if d = e then some (.launchOn p.1 fs set) else none
                | none => none)

/-- Bound slots with something for a die: (class, last served, slot, what). -/
def State.turns (s : State) (e : Nat) : List (Nat × Nat × Nat × Service) :=
  (List.range s.slots.length).filterMap (fun n => (s.slotTurn e n).map (fun t => (s.classOfSlot n, (s.slot n).served.getD e 0, n, t)))

/-- The lowest class, then the least recently served, then the lowest slot. -/
def bestTurn : List (Nat × Nat × Nat × Service) → Option (Nat × Nat × Nat × Service)
  | [] => none
  | x :: xs =>
    match bestTurn xs with
    | none => some x
    | some y => if y.1 < x.1 || (y.1 == x.1 && y.2.1 < x.2.1) then some y else some x

/-- The work of a slot holds a workgroup that may go to a die and that no core has space for: a saved one, a grid task, or a new cluster (R250). -/
def State.wantsSpace (s : State) (e n : Nat) : Bool :=
  match (s.slot n).queue with
  | none => false
  | some q =>
    match s.queue q with
    | none => false
    | some k =>
      if (s.slot n).preempt then false
      else if !k.savedWgs.isEmpty then
        k.savedWgs.any (fun w => ((s.dispOf w).map (fun d => d.dies.getLsbD e)).getD false && (s.restorePlace w).isNone)
      else s.disps.any (fun p => p.2.queue == q && p.2.fin == .running
        && (match p.2.gfx with
          | some g => !(g.waiting e).isEmpty && (s.nextTask p.1 e).isNone
          | none => p.2.nextCl < p.2.lr.clusters && p.2.dies.getLsbD e && (s.nextPlace p.2).isNone))

/-- Groups on a die that its dispatcher may save for a slot that waits for space: victims of slots of a class above that slot's (R250). -/
def State.victimsOn (s : State) (e : Nat) : List GroupId :=
  let waits := ((List.range s.slots.length).filter (s.wantsSpace e)).map s.classOfSlot
  if waits.isEmpty then []
  else
    (s.groups.filter (fun g => s.isVictim g.1 && ((s.wg g.1.wg).map (fun w => w.die == e && w.halt == .running)).getD false
      && waits.any (· < s.classOfSlot (s.slotOfWg g.1.wg)))).map Prod.fst

/-- The dispatcher takes the best turn (R240, R241). -/
def State.serve (s : State) (e : Nat) : State :=
  match bestTurn (s.turns e) with
  | some (_, _, n, t) =>
    let s := s.updSlot n (fun x => { x with served := lmod x.served e (fun _ => s.tick) })
    (match t with
      | .copy q => s.restoreCopy q
      | .restore w fs set => s.restoreCluster w fs set
      | .task d t fs set => s.admitTask d e t fs set
      | .launchOn d fs set =>
        (match s.disp d with
          | none => s
          | some x => (s.admitCluster d x (x.lr.members x.nextCl) fs set x.lr.entry none).updDisp d (fun y => { y with nextCl := y.nextCl + 1 })))
  | none => s

/-- DISPATCHER_TURN. Whether a dispatcher that may save a victim does so, and which one, is free (log 48). -/
def State.dispatch (s : State) (e : Nat) : State :=
  let vs := s.victimsOn e
  match vs[Config.pick s.fresh % vs.length]? with
  | none => s.serve e
  | some g => if Config.freeBit (s.fresh + 1) then s.bump.bump.saveVictim g else s.bump.bump.serve e

def execDispatcherTurn (die : Nat) (s : State) : Host.Outcome State Fault Refusal := .next (s.dispatch die)

end Sys2Proof.Machine
end

