-- ==== Sys2Proof/Machine/Mailbox.lean ====
section
/-! DEFINITION. The hub's mailbox (R300, R422) and what its requests do: queues (R235, R263), translation contexts and handlers (R77, R260),
publish regions (R78), L2 pinning (R70), engine aborts (R191), DASR (R114), AGE and QUANTUM (R239), the peer table (R301), attestation (R310),
the error log (R308), die counters (R305); page faults and their answers (R256-R258), fault rings and their records (R257, R423). -/
namespace Sys2Proof.Machine

-- Page faults become known, and their records (R256, R257, R423)

/-- PAGE_FAULT: the fault of a pending access is raised; a fault that a unit has met holds its lanes, and may be recorded. -/
def State.pageFault (s : State) (site : FaultSite) : State :=
  match site with
  | .access id => s.accFault id
  | _ => { s with faults := s.faults.map (fun (e : Nat × PFault) => (e.1, if e.2.site = site then { e.2 with noted := true } else e.2)) }

def execPageFault (site : FaultSite) (s : State) : Host.Outcome State Fault Refusal := .next (s.pageFault site)

/-- A fault record (R257). -/
def PFault.record (p : PFault) (tag : Nat) : List Byte :=
  leBytes 8 (p.va.toNat % 2 ^ 60) ++ leBytes 1 p.cause ++ leBytes 1 p.acc ++ leBytes 1 p.unit ++ leBytes 1 p.die ++ leBytes 1 p.core
    ++ leBytes 1 p.slot ++ leBytes 2 p.queue ++ leBytes 2 p.ctx ++ zeros 6 ++ leBytes 8 tag

/-- Where record n of a ring lies (R423). -/
def FaultRing.slotAddr (r : FaultRing) (n : Nat) : Nat := r.base.toNat + 64 + 32 * (n % 2 ^ r.flsize)

/-- FAULT_RECORD_WRITE: the oldest fault of a function without a record is recorded when its ring has a slot, and vector 1 is raised. -/
def State.faultRecord (s : State) (fn : Nat) : State :=
  match mget s.rings fn, s.faults.find? (fun e => e.2.fn == fn && e.2.noted && e.2.tag.isNone) with
  | some r, some (id, p) =>
    let fhead := leNat (s.physRead (r.base.toNat + 8) 8)
    let n := r.ftail
    if BitVec.ofNat 64 n - BitVec.ofNat 64 fhead = BitVec.ofNat 64 (2 ^ r.flsize) then s
    else
      let s := (s.physStore (r.slotAddr n) (p.record n)).physStore r.base.toNat (leBytes 8 (n + 1))
      { s with
        rings := mput s.rings fn { r with ftail := n + 1 }
        faults := mupd s.faults id (fun x => { x with tag := some n })
        msix := mput s.msix fn (((mget s.msix fn).getD 0) + 1) }
  | _, _ => s

def execFaultRecordWrite (fn : Nat) (s : State) : Host.Outcome State Fault Refusal := .next (s.faultRecord fn)

-- Requests and their completion (R300)

/-- A request completes: not permitted, refused, or carried out; the completion word is written after the effects. A completion word that
is misaligned or outside R71 is not written (log 16). -/
def State.mail (s : State) (r : MailReq) (op : Nat) (pfOnly ok : Bool) (eff : State → State) : State :=
  let log := s.logErr kindRefused 0xFF op r.cw
  if 16 < r.fn || r.cw.toNat % 8 != 0 || !inMap r.cw.toNat then log
  else if (!s.boot.verified && op != 15) || (pfOnly && r.fn != 0) then log.physStore r.cw.toNat (leBytes 8 0xFFFFFFFFFFFFFFFF)
  else if r.bad || !ok then log.physStore r.cw.toNat (leBytes 8 0xFFFFFFFFFFFFFFFE)
  else (eff s).physStore r.cw.toNat (leBytes 8 1)

/-- MAILBOX_OPCODE_UNLISTED. -/
def State.mailUnlisted (s : State) (r : MailReq) (op : Byte) : State :=
  let log := s.logErr kindRefused 0xFF op.toNat r.cw
  if 16 < r.fn || r.cw.toNat % 8 != 0 || !inMap r.cw.toNat then log else log.physStore r.cw.toNat (leBytes 8 0xFFFFFFFFFFFFFFFF)

def execMailboxOpcodeUnlisted (r : MailReq) (op : Byte) (s : State) : Host.Outcome State Fault Refusal := .next (s.mailUnlisted r op)

/-- A buffer of n bytes in the physical map. -/
def bufOk (a : DWord) (n al : Nat) : Bool := a.toNat % al == 0 && inMap a.toNat && inMap (a.toNat + n - 1)

-- What belongs to a function (R299)

/-- Queue named by a request: its number from the PF, a local index from a VF. -/
def State.queueNo (s : State) (fn q : Nat) : Option Nat :=
  if fn = 0 then (if q < 4096 && !(s.vfs.any (fun v => v.2.queues.contains q)) then some q else none)
  else (mget s.vfs fn).bind (fun v => v.queues[q]?)

/-- The queue a request names, if it exists. -/
def State.ownQueue (s : State) (fn q : Nat) : Option (Nat × Queue) :=
  (s.queueNo fn q).bind (fun n => (s.queue n).map (fun k => (n, k)))

def State.ctxAllowed (s : State) (fn ctx : Nat) : Bool :=
  if fn = 0 then ctx < 65536 && !(s.vfs.any (fun v => v.2.ctxs.contains ctx))
  else ((mget s.vfs fn).map (fun v => v.ctxs.contains ctx)).getD false

/-- A context that is defined and the function's. -/
def State.ownCtx (s : State) (fn ctx : Nat) : Bool := s.ctxAllowed fn ctx && (mget s.contexts ctx).isSome

-- Queues (R235, R263)

/-- No fate of R235. -/
def State.queueDescOk (s : State) (fn : Nat) (b : List Byte) : Bool :=
  let ring := fld b 0 8
  let csab := fld b 16 8
  let csas := fld b 24 8
  ring % 64 == 0 && ring < 2 ^ 60 && 1 ≤ fld b 8 1 && fld b 8 1 ≤ 16 && fld b 9 1 < 4 && s.ownCtx fn (fld b 10 2) && 4096 ≤ fld b 12 4
    && csab % 4096 == 0 && inMap csab && 4096 ≤ csas && fld b 48 8 % 64 == 0

def newQueue (fn now : Nat) (desc : DWord) (b : List Byte) : Queue :=
  { fn := fn, desc := desc, ring := BitVec.ofNat 64 (fld b 0 8), lsize := fld b 8 1, cls := fld b 9 1, ctx := fld b 10 2, dlmax := fld b 12 4
    csab := BitVec.ofNat 64 (fld b 16 8), csas := BitVec.ofNat 64 (fld b 24 8), errb := BitVec.ofNat 64 (fld b 48 8), head := 0, tail := 0
    err := false, running := [], lastScope := none, slot := none, waitStart := now, savedWgs := [], savedCopies := [], csaUsed := 0
    csaBlks := 0, readFault := false, victim := none }

/-- QUEUE_CREATE: HEAD and TAIL are zero, in the descriptor too. -/
def State.queueCreate (s : State) (r : MailReq) (q : Nat) (desc : DWord) : State :=
  let b := s.physRead desc.toNat 64
  let no := s.queueNo r.fn q
  s.mail r 1 false (no.isSome && (s.ownQueue r.fn q).isNone && desc.toNat % 64 == 0 && inDevice desc.toNat && s.queueDescOk r.fn b) (fun s =>
    { s with queues := mput s.queues (no.getD 0) (newQueue r.fn s.hubTime desc b) }.physStore (desc.toNat + 32) (zeros 16))

def execQueueCreate (r : MailReq) (q : Nat) (desc : DWord) (s : State) : Host.Outcome State Fault Refusal := .next (s.queueCreate r q desc)

/-- A queue without bound slot, running work or saved work. -/
def State.queueAtRest (s : State) (n : Nat) (k : Queue) : Bool :=
  k.slot.isNone && k.running.isEmpty && k.savedWgs.isEmpty && k.savedCopies.isEmpty && s.disps.all (fun e => e.2.queue != n)
    && s.graphs.all (fun e => e.2.queue != n)

/-- QUEUE_DESTROY. -/
def State.queueDestroy (s : State) (r : MailReq) (q : Nat) : State :=
  match s.ownQueue r.fn q with
  | none => s.mail r 2 false false id
  | some (n, k) => s.mail r 2 false (s.queueAtRest n k) (fun s =>
      { s with queues := mdel s.queues n, faults := s.faults.filter (fun e => e.2.queue != n) })

def execQueueDestroy (r : MailReq) (q : Nat) (s : State) : Host.Outcome State Fault Refusal := .next (s.queueDestroy r q)

/-- The error state ends, and the save area holds no block of aborted work any more; HEAD and TAIL stay (R253, R263). -/
def Queue.reset (k : Queue) (now : Nat) : Queue :=
  if k.err then
    let saved := !(k.savedWgs.isEmpty && k.savedCopies.isEmpty)
    { k with err := false, csaUsed := if saved then k.csaUsed else 0, csaBlks := if saved then k.csaBlks else 0, waitStart := now }
  else k

/-- QUEUE_RESET: of a queue not in error it changes nothing. -/
def State.queueReset (s : State) (r : MailReq) (q : Nat) : State :=
  match s.ownQueue r.fn q with
  | none => s.mail r 3 false false id
  | some (n, _) => s.mail r 3 false true (fun s => s.updQueue n (fun k => k.reset s.hubTime))

def execQueueReset (r : MailReq) (q : Nat) (s : State) : Host.Outcome State Fault Refusal := .next (s.queueReset r q)

-- Translation contexts and handlers (R77, R260)

/-- A context is deleted when no queue names it. -/
def State.contextGone (s : State) (r : MailReq) (ctx : Nat) : State :=
  s.mail r 4 false (s.ownCtx r.fn ctx && s.queues.all (fun e => e.2.ctx != ctx)) (fun s => { s with contexts := mdel s.contexts ctx })

/-- CONTEXT_DEFINE; a new root for a defined context leaves its handler. -/
def State.contextDefine (s : State) (r : MailReq) (ctx : Nat) (root : DWord) : State :=
  if root = 0 then s.contextGone r ctx
  else s.mail r 4 false (s.ctxAllowed r.fn ctx && root.toNat % 32768 == 0 && inDevice root.toNat)
    (fun s => { s with contexts := mput s.contexts ctx ⟨root, ((mget s.contexts ctx).map Context.handler).getD 0, r.fn⟩ })

def execContextDefine (r : MailReq) (ctx : Nat) (root : DWord) (s : State) : Host.Outcome State Fault Refusal := .next (s.contextDefine r ctx root)

def execContextDelete (r : MailReq) (ctx : Nat) (s : State) : Host.Outcome State Fault Refusal := .next (s.contextGone r ctx)

/-- Whether a line lies in a frame that a cached leaf gives (R72, R78). -/
def TlbEntry.covers (e : TlbEntry) (line : Nat) : Bool :=
  let p := e.pte.toNat
  let fr := pteFrame p
  let pa := 128 * line
  let a := if p.testBit 11 then pa % dieStride / 2048 * 8192 + pa / dieStride * 2048 + pa % 2048 else pa
  let n := if p.testBit 10 then 2 * e.size else e.size
  fr ≤ a && a < fr + n

/-- The first address that a cached non-leaf entry serves, and how many. -/
def WalkEntry.reach (w : WalkEntry) : Nat × Nat := let n := 2 ^ (12 + 9 * (5 - w.lvl)); (w.key * n, n)

/-- The matching entries of every TLB and walk cache, and the instruction-cache lines of their pages, are dropped; lines on their way to an instruction
cache are asked for again (R77). A line in flight to an L1 arrives first. What a frame held under the mappings that go does not count against the kind
of its next mapping (R69; log 64). -/
def State.dropTlb (s : State) (hit : TlbEntry → Bool) (via : WalkEntry → Bool) : State :=
  let gone := (s.dies.flatMap Die.tlb).filter hit
  let dead := fun (line : Nat) => gone.any (fun e => e.covers line)
  let s := (s.injMsgs.filter (fun m => dead m.line)).foldl (fun s m => s.receiveInj m.core m.line) s
  { s with
    kinds := s.kinds.filter (fun k => !dead k.1)
    dies := s.dies.map (fun (d : Die) => { d with tlb := d.tlb.filter (fun e => !hit e), walk := d.walk.filter (fun w => !via w) })
    cores := s.cores.map (fun (e : Nat × Core) => (e.1, { e.2 with
      icache := e.2.icache.filter (fun l => !dead l.1)
      frozen := e.2.frozen.map (fun f => match f with | some p => if dead p.1 then none else some p | none => none)
      prefetch := e.2.prefetch.filter (fun p => !dead p.1) })) }

/-- TRANSLATION_INVALIDATE. While an access that a dropped entry has translated is not complete, the entries go but the request is kept, to be looked
at again after those that wait (R77). -/
def State.invalidate (s : State) (r : MailReq) (ctx : Nat) (flags : Byte) (start len : DWord) : State :=
  let whole := flags == 1
  let a := start.toNat
  let n := len.toNat
  let hit := fun (e : TlbEntry) => e.ctx == ctx && (whole || (e.va < a + n && a < e.va + e.size))
  let via := fun (w : WalkEntry) => w.ctx == ctx && (whole || (w.reach.1 < a + n && a < w.reach.1 + w.reach.2))
  let ok := s.ownCtx r.fn ctx && flags.toNat < 2 && (whole || (a % 4096 == 0 && a < 2 ^ 60 && n != 0 && n % 4096 == 0))
  if ok && s.accs.any (fun e => (e.2.leaf.map hit).getD false) then
    { s.dropTlb hit via with inputs := s.inputs ++ [.translationInvalidate r ctx flags start len] }
  else s.mail r 5 false ok (fun s => s.dropTlb hit via)

def execTranslationInvalidate (r : MailReq) (ctx : Nat) (flags : Byte) (start len : DWord) (s : State) : Host.Outcome State Fault Refusal :=
  .next (s.invalidate r ctx flags start len)

/-- The handler entry of a context; zero removes it. -/
def State.setHandler (s : State) (r : MailReq) (ctx : Nat) (entry : DWord) : State :=
  s.mail r 7 false (s.ownCtx r.fn ctx && entry.toNat % 8 == 0 && hi4zero entry)
    (fun s => { s with contexts := mupd s.contexts ctx (fun c => { c with handler := entry }) })

def execHandlerRegister (r : MailReq) (ctx : Nat) (entry : DWord) (s : State) : Host.Outcome State Fault Refusal :=
  .next (s.setHandler r ctx entry)
def execHandlerRemove (r : MailReq) (ctx : Nat) (s : State) : Host.Outcome State Fault Refusal := .next (s.setHandler r ctx 0)

-- Answers to faults (R256-R258)

/-- The pending fault of a function with a TAG. -/
def State.taggedFault (s : State) (fn : Nat) (tag : DWord) : Option (Nat × PFault) :=
  s.faults.find? (fun e => e.2.fn == fn && e.2.tag == some tag.toNat && !e.2.replayed && !e.2.cancelled)

def State.delFault (s : State) (id : Nat) : State := { s with faults := mdel s.faults id }

/-- A group whose faults have all been answered is ready: its threads held at a fetch or at a record go on (R257). -/
def State.wakeHeld (s : State) (g : GroupId) : State :=
  let held := s.faults.any (fun e => match e.2.site with | .fetch t => t.group == g | .record t => t.group == g | _ => false)
  if held || s.unanswered g then s
  else (s.groupThreads g).foldl (fun s t => s.updThr t (fun x => { x with wait := if x.wait = .record || x.wait = .fetch then .none else x.wait }))
    (s.updGrp g (fun x => { x with held := false }))

/-- Accesses that a fault holds. -/
def State.heldBy (s : State) (id : Nat) : List (Nat × Acc) := s.accs.filter (fun e => e.2.fault == some id)

/-- The threads that a fault on a fetch or on a record holds: of its group, those that wait so. -/
def State.heldThreads (s : State) (t : ThreadId) (w : Wait) : List ThreadId :=
  s.sortLanes ((s.liveThreads t.group).filter (fun u => ((s.thr u).map (fun x => x.wait == w)).getD false))

/-- Replay: held accesses may be performed again, a command goes on at COMMAND_RESUME, and the hub repeats its access. -/
def State.replay (s : State) (id : Nat) (p : PFault) : State :=
  match p.site with
  | .access _ =>
    let gs := groupsOf ((s.heldBy id).map (fun e => e.2.t))
    let s := { s.delFault id with accs := s.accs.map (fun (e : Nat × Acc) => (e.1, if e.2.fault = some id then { e.2 with fault := none } else e.2)) }
    gs.foldl State.wakeHeld s
  | .fetch t => (s.delFault id).wakeHeld t.group
  | .record t => (s.delFault id).wakeHeld t.group
  | .hubCmd q => (s.delFault id).updQueue q (fun x => { x with readFault := false })
  | .hubLaunch q => (s.delFault id).updQueue q (fun x => { x with readFault := false })
  | .hubRun q idx => (s.delFault id).updRun q idx (fun x => { x with fault := false })
  | .hubDone d => (s.delFault id).updDisp d (fun x => { x with fault := false })
  | .hubInst i => { s.delFault id with graphs := mupd s.graphs i (fun g => { g with fault := false }) }
  | _ => { s with faults := mupd s.faults id (fun x => { x with replayed := true }) }

/-- FAULT_REPLAY. -/
def State.faultReplay (s : State) (r : MailReq) (tag : DWord) : State :=
  match s.taggedFault r.fn tag with
  | none => s.mail r 6 false false id
  | some (i, p) => s.mail r 6 false true (fun s => s.replay i p)

def execFaultReplay (r : MailReq) (tag : DWord) (s : State) : Host.Outcome State Fault Refusal := .next (s.faultReplay r tag)

/-- The trap for an access that is not performed: cause 7, INFO the R76 cause; or cause 6 for data that cannot be corrected (R303). -/
def stoppedBy (cause : Nat) (addr : DWord) : TrapInfo := if cause = lostCause then { cause := 6, addr := addr } else { cause := 7, info := cause, addr := addr }

/-- Threads take such a trap at the word at which each stopped (R257, R258). -/
def State.cancelTrap (s : State) (ts : List (ThreadId × DWord)) (cause : Nat) : State :=
  let us := (s.sortLanes (ts.map Prod.fst).eraseDups).filter (fun t => ((s.thr t).map (fun x => !x.exited)).getD false)
  let s := us.foldl (fun s t => s.updThr t (fun x => { x with wait := if x.wait = .record || x.wait = .fetch then .none else x.wait })) s
  s.takeTraps us (us.map (fun t => (t, stoppedBy cause ((mget ts t).getD 0)))) Thread.savedPc

/-- The workgroup of a chain's oldest publisher. -/
def Chain.firstPub (h : Chain) : Option Nat := (h.pubs.head?).map Prod.snd

/-- Whom the command at the head of a source works for, halted or not. -/
def State.sourceFor (s : State) (c : Nat) (src : CopySrc) : CopyFor :=
  match src with
  | .cpy => (((s.core c).cpyq.find? (fun e => e.run.fault)).map (fun e => s.forWg e.wg)).getD ⟨none, 0, 0⟩
  | .chain desc ctx =>
    (match s.chain (.copy c) desc ctx with
      | some h => ⟨h.owner, ctx, h.queue⟩
      | none => ⟨none, ctx, 0⟩)
  | .sched w _ => s.forWg w
  | .queue q => ⟨none, ((s.queue q).map Queue.ctx).getD 0, q⟩

/-- A matrix entry fails; its tile is unspecified (R162). -/
def State.failEntry (s : State) (e : MxEntry) : State :=
  match e.op with
  | .mma b _ _ _ _ _ => s.mxFail e.wg (mxBlockOf b).tile
  | .accld _ _ k => s.mxFail e.wg k
  | .accst _ _ _ => s.engineFail e.wg
  | .accz k => s.mxFail e.wg k

/-- A cancelled matrix entry: the oldest faulted one of its workgroup fails. -/
def State.cancelMatrix (s : State) (c w : Nat) : State :=
  match (s.core c).chain.find? (fun e => e.wg == w && e.fault) with
  | none => s
  | some e => s.failEntry e

/-- A cancelled access of a die's graphics units ends their dispatch (R215). -/
def State.cancelGfx (s : State) (d : Nat) : State := match s.gfxHolder d with | some n => s.gfxFate n d 0 | none => s

/-- A cancelled chain read ends what its first publisher does with it (R192, R257). -/
def State.cancelChain (s : State) (e : EngRef) (desc : DWord) (ctx : Nat) : State :=
  match s.chain e desc ctx with
  | none => s
  | some h =>
    let s := s.dropChain e desc ctx
    match e, h.firstPub with
    | .copy _, some w => s.engineFail w
    | _, w => s.queueError h.queue { code := 4, die := e.die, core := e.coreCode, cmd := (w.map s.cmdOfWg).getD 0 }

/-- A cancelled read at the start of a graphics dispatch refuses its launch (UNIT 7) or fails its pattern table (UNIT 5); a cancelled completion
store ends the dispatch without writing the word (R257). -/
def State.cancelDone (s : State) (n unit : Nat) : State :=
  match s.disp n with
  | none => s
  | some x =>
    if ((x.gfx.map (fun g => !g.taken)).getD false) && x.fin == .running then (if unit = 5 then s.gfxFate n 0 0 else s.gfxRefuse n)
    else (s.failDispatch n { code := 2, cmd := x.cmd, lrec := x.lrec }).dispReap n

/-- A cancelled access of a graph instance: a completion store with CODE 2, a node's launch with CODE 1. -/
def State.cancelInst (s : State) (i : Nat) : State :=
  match mget s.graphs i with
  | none => s
  | some g => s.failGraph i (if g.nodes.all (fun x => x.2.2 == some none) then 2 else 1) 0

/-- What a cancel of a fault of another kind does: threads held at a record or a fetch have stopped and trap; commands and launches fail. -/
def State.cancelAt (s : State) (site : FaultSite) (p : PFault) : State :=
  match site with
  | .access _ => s
  | .fetch t => (s.cancelTrap ((s.heldThreads t .fetch).map (fun u => (u, p.va))) p.cause).wakeHeld t.group
  | .record t => (s.cancelTrap ((s.heldThreads t .record).map (fun u => (u, p.va))) p.cause).wakeHeld t.group
  | .copyCmd c src => s.copyFail c src (s.sourceFor c src)
  | .chainRead e desc ctx => s.cancelChain e desc ctx
  | .engine e desc ctx => (match s.chain e desc ctx with | some h => s.dieCmdFail e h 4 | none => s)
  | .matrix c w => s.cancelMatrix c w
  | .prologue w => s.refuseWg w
  | .dicer d => s.cancelGfx d
  | .binner d => s.cancelGfx d
  | .raster d _ => s.cancelGfx d
  | .hubCmd q => (s.updQueue q (fun x => { x with readFault := false })).refuseCmd q { code := 2 }
  | .hubLaunch q => (s.updQueue q (fun x => { x with readFault := false })).refuseCmd q { code := if p.unit = 1 then 4 else 1 }
  | .hubRun q idx => s.runFail q idx
  | .hubDone d => s.cancelDone d p.unit
  | .hubInst i => s.cancelInst i

/-- Cancel (R257, R258). A cancelled access lasts until its threads have stopped (log 62). -/
def State.cancel (s : State) (id : Nat) (p : PFault) : State :=
  let held := s.heldBy id
  match p.site with
  | .access _ =>
    (groupsOf (held.map (fun e => e.2.t))).foldl State.wakeHeld
      { s with faults := mupd s.faults id (fun x => { x with cancelled := true }) }
  | site => (s.delFault id).cancelAt site p

/-- FAULT_CANCEL. -/
def State.faultCancel (s : State) (r : MailReq) (tag : DWord) : State :=
  match s.taggedFault r.fn tag with
  | none => s.mail r 6 false false id
  | some (i, p) => s.mail r 6 false true (fun s => s.cancel i p)

def execFaultCancel (r : MailReq) (tag : DWord) (s : State) : Host.Outcome State Fault Refusal := .next (s.faultCancel r tag)

-- Publish regions (R78)

/-- REGION_CREATE: its live bit is 0. -/
def State.regionCreate (s : State) (r : MailReq) (region ctx : Nat) : State :=
  s.mail r 8 false (region < 1024 && (mget s.regions region).isNone && s.ownCtx r.fn ctx)
    (fun s => { s with regions := mput s.regions region ⟨ctx, false⟩ })

def execRegionCreate (r : MailReq) (region ctx : Nat) (s : State) : Host.Outcome State Fault Refusal := .next (s.regionCreate r region ctx)

/-- REGION_DELETE. -/
def State.regionDelete (s : State) (r : MailReq) (region : Nat) : State :=
  s.mail r 9 false (((mget s.regions region).map (fun g => s.ctxAllowed r.fn g.ctx)).getD false)
    (fun s => { s with regions := mdel s.regions region })

def execRegionDelete (r : MailReq) (region : Nat) (s : State) : Host.Outcome State Fault Refusal := .next (s.regionDelete r region)

-- L2 pinning (R70)

/-- L2_PIN. -/
def State.l2Pin (s : State) (r : MailReq) (die : Nat) (base size : DWord) : State :=
  let ps := (s.die die).pins
  let b := base.toNat
  let n := size.toNat
  s.mail r 10 true (die < 4 && b % 65536 == 0 && n % 65536 == 0 && n != 0 && homeDie b == some die && homeDie (b + n - 1) == some die
      && ps.length < 8 && (ps.map Prod.snd).sum + n ≤ 8388608)
    (fun s => s.updDie die (fun x => { x with pins := x.pins ++ [(b, n)] }))

def execL2Pin (r : MailReq) (die : Nat) (base size : DWord) (s : State) : Host.Outcome State Fault Refusal := .next (s.l2Pin r die base size)

/-- L2_UNPIN: the lines are the home's own, so nothing more is to be written back. -/
def State.l2Unpin (s : State) (r : MailReq) (die : Nat) (base : DWord) : State :=
  match (s.die die).pins.find? (fun p => p.1 == base.toNat) with
  | none => s.mail r 10 true false id
  | some p => s.mail r 10 true (die < 4) (fun s => s.updDie die (fun x => { x with pins := x.pins.erase p }))

def execL2Unpin (r : MailReq) (die : Nat) (base : DWord) (s : State) : Host.Outcome State Fault Refusal := .next (s.l2Unpin r die base)

-- Abort of an engine command (R191)

/-- The running layout or collective command of a chain entry on a die. -/
def State.dieCommand (s : State) (die ctx : Nat) (desc ix : DWord) : Option (EngRef × Chain) :=
  [EngRef.layout die, EngRef.collective die].findSome? (fun e =>
    ((s.chain e desc ctx).filter (fun h => (h.cur.map Prod.fst) == some ix.toNat)).map (fun h => (e, h)))

/-- ENGINE_COMMAND_ABORT: the command ends with a queue error. -/
def State.engineAbort (s : State) (r : MailReq) (ctx die : Nat) (desc ix : DWord) : State :=
  match s.dieCommand die ctx desc ix with
  | none => s.mail r 11 false false id
  | some (e, h) => s.mail r 11 false (die < 4 && s.ownCtx r.fn ctx) (fun s => s.dieCmdFail e h 7)

def execEngineCommandAbort (r : MailReq) (ctx die : Nat) (desc ix : DWord) (s : State) : Host.Outcome State Fault Refusal :=
  .next (s.engineAbort r ctx die desc ix)

-- Registers of the dies and of the hub

/-- DASR_READ_CLEAR (R114). -/
def State.dasrRead (s : State) (r : MailReq) (die : Nat) (buf : DWord) : State :=
  let v := (s.die die).dasr
  s.mail r 12 true (die < 4 && bufOk buf 4 4)
    (fun s => (s.physStore buf.toNat (leBytes 4 v.toNat)).updDie die (fun x => { x with dasr := x.dasr &&& ~~~v }))

def execDasrReadClear (r : MailReq) (die : Nat) (buf : DWord) (s : State) : Host.Outcome State Fault Refusal := .next (s.dasrRead r die buf)

/-- SET_AGE_QUANTUM (R239). -/
def State.setTimes (s : State) (r : MailReq) (age quantum : Nat) : State :=
  s.mail r 13 true (1 ≤ age && age ≤ 10000000 && 1 ≤ quantum && quantum ≤ 10000000) (fun s => { s with age := age, quantum := quantum })

def execSetAgeQuantum (r : MailReq) (age quantum : Nat) (s : State) : Host.Outcome State Fault Refusal := .next (s.setTimes r age quantum)

/-- PEER_TABLE_WRITE (R301). -/
def State.peerWrite (s : State) (r : MailReq) (pkg : Nat) (addr : DWord) : State :=
  s.mail r 14 true (pkg < 8 && (addr == 0 || inSystem addr.toNat)) (fun s => { s with peers := s.peers.set pkg addr })

def execPeerTableWrite (r : MailReq) (pkg : Nat) (addr : DWord) (s : State) : Host.Outcome State Fault Refusal := .next (s.peerWrite r pkg addr)

/-- Bytes 0 to 191 of the attestation report (R310). -/
def State.reportHead (s : State) (nonce : List Byte) : List Byte :=
  (List.range 32).map (fun i => nonce.getD i 0) ++ (List.range 64).map Config.bootRomDigest ++ (List.range 64).map (fun i => s.boot.digest.getD i 0)
    ++ leBytes 4 s.boot.version ++ leBytes 4 1 ++ leBytes 8 s.profNative.toNat ++ leBytes 8 s.profDbp.toNat ++ leBytes 8 Config.serial.toNat

def State.report (s : State) (nonce : List Byte) : List Byte :=
  let h := s.reportHead nonce
  h ++ (List.range 4627).map (Config.signature (sha3_512 h))

/-- ATTESTATION_REQUEST. -/
def State.attest (s : State) (r : MailReq) (nonce : List Byte) (buf : DWord) : State :=
  s.mail r 15 false (bufOk buf 4819 64) (fun s => s.physStore buf.toNat (s.report nonce))

def execAttestationRequest (r : MailReq) (nonce : List Byte) (buf : DWord) (s : State) : Host.Outcome State Fault Refusal :=
  .next (s.attest r nonce buf)

/-- A record of the error log; R308 gives its size and its fields, not their places (log 12). -/
def ErrRec.bytes (e : ErrRec) : List Byte :=
  leBytes 8 e.time ++ leBytes 1 e.kind ++ leBytes 1 e.die ++ leBytes 1 e.unit ++ zeros 5 ++ leBytes 8 e.addr.toNat ++ leBytes 8 e.rep

/-- ERROR_LOG_READ: 256 records, oldest first, unused ones zero. -/
def State.logRead (s : State) (r : MailReq) (buf : DWord) : State :=
  let b := s.errlog.flatMap ErrRec.bytes
  s.mail r 16 true (bufOk buf 8192 64) (fun s => s.physStore buf.toNat (b ++ zeros (8192 - b.length)))

def execErrorLogRead (r : MailReq) (buf : DWord) (s : State) : Host.Outcome State Fault Refusal := .next (s.logRead r buf)

/-- Die events whose counts depend on caches and timing (R305; log 4). -/
def timedDieEvents : List Nat := [0x01, 0x02, 0x03, 0x05, 0x06, 0x0C, 0x0D]

/-- Counters of such events advance by free amounts before they are read. -/
def State.dieTime (s : State) (d : Nat) : State :=
  let k := s.fresh
  s.bump.updDie d (fun x => { x with
    ctrVal := (List.range 16).map (fun i =>
      let v := x.ctrVal.getD i 0
      let c := (x.ctrSel.getD i 0).toNat
      if timedDieEvents.contains c then (v + BitVec.ofNat 64 (Config.eventCount k c)) &&& 0xFFFFFFFFFFFF else v) })

/-- DIE_COUNTERS_READ. -/
def State.ctrRead (s : State) (r : MailReq) (die : Nat) (buf : DWord) : State :=
  s.mail r 17 true (die < 4 && bufOk buf 128 8) (fun s =>
    let s := s.dieTime die
    s.physStore buf.toNat ((List.range 16).flatMap (fun i => leBytes 8 (((s.die die).ctrVal.getD i 0).toNat))))

def execDieCountersRead (r : MailReq) (die : Nat) (buf : DWord) (s : State) : Host.Outcome State Fault Refusal := .next (s.ctrRead r die buf)

/-- DIE_COUNTER_SELECT: what the counters have counted so far stays. -/
def State.ctrSelect (s : State) (r : MailReq) (die ctr : Nat) (ev : Byte) : State :=
  s.mail r 17 true (die < 4 && ctr < 16) (fun s => (s.dieTime die).updDie die (fun x => { x with ctrSel := x.ctrSel.set ctr ev }))

def execDieCounterSelect (r : MailReq) (die ctr : Nat) (ev : Byte) (s : State) : Host.Outcome State Fault Refusal :=
  .next (s.ctrSelect r die ctr ev)

/-- DIE_COUNTERS_CLEAR. -/
def State.ctrClear (s : State) (r : MailReq) (die : Nat) : State :=
  s.mail r 17 true (die < 4) (fun s => s.updDie die (fun x => { x with ctrVal := List.replicate 16 0 }))

def execDieCountersClear (r : MailReq) (die : Nat) (s : State) : Host.Outcome State Fault Refusal := .next (s.ctrClear r die)

-- Data that cannot be corrected (R303)

/-- Reads of lost sectors end what they were made for: nobody answers them. -/
def State.endLost (s : State) : State := (s.faults.filter (fun e => e.2.cause == lostCause)).foldl (fun s e => s.cancel e.1 e.2) s

/-- What follows every step: reads of lost sectors end, halts in progress are looked at, every thread has its entry, and the mapper runs if a slot is
done. -/
def State.endStep (s : State) : State := (if s.faults.any (fun e => e.2.cause == lostCause) then s.endLost else s).settle.enterAll.mapperLook

-- Fault rings (R423)

/-- The ring of a function; zero removes it. FTAIL and FHEAD start at zero. -/
def State.setRing (s : State) (r : MailReq) (base : DWord) (flsize : Nat) : State :=
  if base = 0 then s.mail r 18 false true (fun s => { s with rings := mdel s.rings r.fn })
  else s.mail r 18 false (4 ≤ flsize && flsize ≤ 16 && bufOk base (64 + 32 * 2 ^ flsize) 4096)
    (fun s => { s with rings := mput s.rings r.fn ⟨base, flsize, 0⟩ }.physStore base.toNat (zeros 64))

def execFaultRingRegister (r : MailReq) (base : DWord) (flsize : Nat) (s : State) : Host.Outcome State Fault Refusal :=
  .next (s.setRing r base flsize)
def execFaultRingRemove (r : MailReq) (s : State) : Host.Outcome State Fault Refusal := .next (s.setRing r 0 0)

-- The mailbox ring (R300, R422)

/-- The argument bytes of an opcode, by offset and length; the others are reserved. -/
def mailFields (op : Nat) : List (Nat × Nat) :=
  match op with
  | 1 => [(16, 2), (24, 8)]
  | 2 => [(16, 2)]
  | 3 => [(16, 2)]
  | 4 => [(16, 2), (24, 8)]
  | 5 => [(16, 2), (18, 1), (24, 8), (32, 8)]
  | 6 => [(16, 8), (24, 1)]
  | 7 => [(16, 2), (24, 8)]
  | 8 => [(16, 2), (18, 2)]
  | 9 => [(16, 2)]
  | 10 => [(16, 1), (17, 1), (24, 8), (32, 8)]
  | 11 => [(16, 2), (18, 1), (24, 8), (32, 8)]
  | 12 => [(16, 1), (24, 8)]
  | 13 => [(16, 4), (20, 4)]
  | 14 => [(16, 1), (24, 8)]
  | 15 => [(16, 32), (48, 8)]
  | 16 => [(16, 8)]
  | 17 => [(16, 1), (17, 1), (18, 1), (19, 1), (24, 8)]
  | 18 => [(24, 8), (32, 1)]
  | _ => []

/-- A nonzero reserved byte, or a value above the last one that its byte may hold. -/
def mailBad (b : List Byte) : Bool :=
  let op := fld b 0 1
  !((List.range 64).all (fun i => b.getD i 0 == 0 || i == 0 || (8 ≤ i && i < 16) || (mailFields op).any (fun f => f.1 ≤ i && i < f.1 + f.2)))
    || (op == 6 && 1 < fld b 24 1) || (op == 10 && 1 < fld b 17 1) || (op == 17 && 2 < fld b 17 1)

/-- What the 64 bytes of a request of a function ask for. -/
def mailInstr (fn : Nat) (b : List Byte) : Instr :=
  let r : MailReq := ⟨fn, BitVec.ofNat 64 (fld b 8 8), mailBad b⟩
  let d := fun (o : Nat) => BitVec.ofNat 64 (fld b o 8)
  match fld b 0 1 with
  | 1 => .queueCreate r (fld b 16 2) (d 24)
  | 2 => .queueDestroy r (fld b 16 2)
  | 3 => .queueReset r (fld b 16 2)
  | 4 => if fld b 24 8 = 0 then .contextDelete r (fld b 16 2) else .contextDefine r (fld b 16 2) (d 24)
  | 5 => .translationInvalidate r (fld b 16 2) (b.getD 18 0) (d 24) (d 32)
  | 6 => if fld b 24 1 = 1 then .faultCancel r (d 16) else .faultReplay r (d 16)
  | 7 => if fld b 24 8 = 0 then .handlerRemove r (fld b 16 2) else .handlerRegister r (fld b 16 2) (d 24)
  | 8 => .regionCreate r (fld b 16 2) (fld b 18 2)
  | 9 => .regionDelete r (fld b 16 2)
  | 10 => if fld b 17 1 = 1 then .l2Unpin r (fld b 16 1) (d 24) else .l2Pin r (fld b 16 1) (d 24) (d 32)
  | 11 => .engineCommandAbort r (fld b 16 2) (fld b 18 1) (d 24) (d 32)
  | 12 => .dasrReadClear r (fld b 16 1) (d 24)
  | 13 => .setAgeQuantum r (fld b 16 4) (fld b 20 4)
  | 14 => .peerTableWrite r (fld b 16 1) (d 24)
  | 15 => .attestationRequest r ((List.range 32).map (fun i => b.getD (16 + i) 0)) (d 48)
  | 16 => .errorLogRead r (d 16)
  | 17 =>
    if fld b 17 1 = 1 then .dieCounterSelect r (fld b 16 1) (fld b 18 1) (b.getD 19 0)
    else if fld b 17 1 = 2 then .dieCountersClear r (fld b 16 1) else .dieCountersRead r (fld b 16 1) (d 24)
  | 18 => if fld b 24 8 = 0 then .faultRingRemove r else .faultRingRegister r (d 24) (fld b 32 1)
  | _ => .mailboxOpcodeUnlisted r (b.getD 0 0)

end Sys2Proof.Machine
end

