-- ==== Sys2Proof/Machine/Link.lean ====
section
/-! DEFINITION. The host's port, reset, temperature and power, data checks, and the resources of virtual functions (R297, R299, R302, R303,
R307, R309). -/
namespace Sys2Proof.Machine

-- BAR2 (R297)

def bar2Size : Nat := 2 ^ 38

/-- One byte that the host writes: in its own memory it stands there (log 46); through BAR2 in a reserved range it is dropped, and otherwise
it is written at its home, which takes a line of a C page back from the dies that hold it (R69). A part without verified firmware has
BAR0 alone (R307). -/
def State.bar2Byte (s : State) (a : Nat) (b : Byte) : State :=
  if inSystem a then { s with mem := Mem.wr s.mem a b }
  else if !s.boot.verified then s
  else match homeDie a with
  | none => s
  | some d =>
    if bar2Size ≤ a then s
    else (if (mget (s.die d).dir (lineOf a)).isSome then s.dirTouch d a true else s).homeWrite a [b]

/-- One byte that the host reads: of its own memory, or through BAR2, where a reserved range reads zero; the home's directory sees a reader of the home
die. A part without verified firmware answers nothing. -/
def State.bar2Read (s : State) (a : Nat) : State × List Byte :=
  if inSystem a then (s, [Mem.rd s.mem a])
  else if !s.boot.verified || bar2Size ≤ a then (s, [])
  else match homeDie a with
  | none => (s, [0])
  | some d =>
    let s := if (mget (s.die d).dir (lineOf a)).isNone then s else s.dirTouch d a false
    (s, [Mem.rd s.mem a])

/-- HOST_BAR2_ACCESS. -/
def State.bar2 (s : State) (addr : Nat) (write : List Byte) (readLen : Nat) : State :=
  let s := write.zipIdx.foldl (fun (s : State) (p : Byte × Nat) => s.bar2Byte (addr + p.2) p.1) s
  if readLen = 0 then s
  else (List.range readLen).foldl (fun (s : State) i => let r := s.bar2Read (addr + i); { r.1 with reply := r.1.reply ++ r.2 }) { s with reply := [] }

def execHostBar2Access (addr : Nat) (write : List Byte) (readLen : Nat) (s : State) : Host.Outcome State Fault Refusal :=
  .next (s.bar2 addr write readLen)

-- Reset and boot (R307, R308)

/-- Fields of an image (R307). -/
def imgKey (i : FirmwareImage) : List Byte := (i.bytes.drop 16).take 2592
def imgSig (i : FirmwareImage) : List Byte := (i.bytes.drop 2608).take 4627
def imgVersion (i : FirmwareImage) : Nat := fld i.bytes 4 4
def imgBody (i : FirmwareImage) : List Byte := (i.bytes.drop 7296).take (fld i.bytes 8 8)

/-- The image verifies: its header is as R307 gives it (log 80), its key is the fused one, and its signature over the digest of the body holds. -/
def imgVerified (i : FirmwareImage) : Bool :=
  fld i.bytes 0 4 == 0x4E4B4231 && (imgBody i).length == fld i.bytes 8 8 && (List.range 61).all (fun k => i.bytes.getD (7235 + k) 0 == 0)
    && sha3_512 (imgKey i) == (List.range 64).map Config.fusedKey && Config.verifies (imgKey i) (sha3_512 (imgBody i)) (imgSig i)

/-- What the boot ROM makes of an image: one that does not verify, or is older than the rollback counter, gives a measurement of zero. -/
def bootOf (img : FirmwareImage) : Boot :=
  if imgVerified img && decide (Config.rollback ≤ imgVersion img) then ⟨true, imgVersion img, sha3_512 (imgBody img)⟩ else ⟨false, 0, zeros 64⟩

/-- PART_RESET: the state of State.reset, with the outcome of the boot; host memory, the package number and the model's counters go on. -/
def State.partReset (s : State) (img : FirmwareImage) : State :=
  { State.reset with mem := s.mem.filter (fun c => inSystem c.1), boot := bootOf img, pkg := s.pkg, fresh := s.fresh, tick := s.tick }

def execPartReset (img : FirmwareImage) (s : State) : Host.Outcome State Fault Refusal := .next (s.partReset img)

-- Temperature and power (R309)

/-- Every queue takes a fatal queue error (R255). -/
def State.fatalAll (s : State) : State := (s.queues.map Prod.fst).foldl (fun s q => s.fatalQueue q) s

/-- Entry temperature of a clock step. -/
def entryTemp (step : Nat) : Nat := match step with | 1 => 95 | 2 => 100 | 3 => 105 | _ => 110

/-- The highest step whose entry temperature is reached; 4 is the halt. -/
def stepFor (t : Nat) : Nat := if 110 ≤ t then 4 else if 105 ≤ t then 3 else if 100 ≤ t then 2 else if 95 ≤ t then 1 else 0

/-- The average power of the readings of the last 10 ms is below a limit, or above one. -/
def State.powerBelow (s : State) (w : Nat) : Bool := s.powers.isEmpty || decide (s.powers.sum < w * s.powers.length)
def State.powerAbove (s : State) (w : Nat) : Bool := decide (w * s.powers.length < s.powers.sum)

/-- THERMAL_SENSOR_READ: the hottest die decides. -/
def State.thermalRead (s : State) (temps : List Nat) : State :=
  let t := temps.foldl max 0
  let k := stepFor t
  if k = 4 then { s.fatalAll with thermal := 4, stopped := true }
  else if s.thermal < k then { s with thermal := k }
  else if 1 ≤ s.thermal && t + 5 ≤ entryTemp s.thermal && s.powerBelow 780 then { s with thermal := s.thermal - 1 }
  else s

def execThermalSensorRead (temps : List Nat) (s : State) : Host.Outcome State Fault Refusal := .next (s.thermalRead temps)

/-- POWER_READ: the last ten readings are the last 10 ms. -/
def State.powerRead (s : State) (w : Nat) : State :=
  let ps := s.powers ++ [w]
  let s := { s with powers := ps.drop (ps.length - 10) }
  if s.powerAbove 800 && s.thermal < 3 then { s with thermal := s.thermal + 1 } else s

def execPowerRead (watts : Nat) (s : State) : Host.Outcome State Fault Refusal := .next (s.powerRead watts)

-- Data checks (R302, R303)

/-- A correction: counted and logged. -/
def State.corrected (s : State) (die unit : Nat) (addr : DWord) : State := (s.countDie die 0x08 1).logErr kindData die unit addr

/-- GDDR7_SCRUB reads and writes back every sector: stored data stays as it is, and each sector that it corrects is counted and logged. -/
def State.scrub (s : State) (die : Nat) (fixed : List Nat) : State := fixed.foldl (fun s x => s.corrected die 0 (BitVec.ofNat 64 (32 * x))) s

def execGddr7Scrub (die : Nat) (s : State) : Host.Outcome State Fault Refusal := .next (s.scrub die (Config.scrubbed s.fresh)).bump

/-- An uncorrectable error in what a unit reads: a fault of the threads, or of the command in progress, if there is one (R302, R303, R192, R215). -/
def State.unitHit (s : State) (site : FaultSite) : State :=
  let thread := fun (t : ThreadId) => if s.awake t then s.takeTraps [t] [(t, { cause := 6 })] Thread.savedPc else s
  match site with
  | .access _ => s
  | .fetch t => thread t
  | .record t => thread t
  | .copyCmd c src => (match s.source c src with | some (_, who) => s.copyFail c src who | none => s)
  | .chainRead e desc ctx => s.cancelChain e desc ctx
  | .engine e desc ctx => (match s.chain e desc ctx with | some h => if h.cur.isSome then s.dieCmdFail e h 4 else s | none => s)
  | .matrix c w => (match s.mxHead c w with | some e => if e.started then s.failEntry e else s | none => s)
  | .prologue w => if (match s.wg w, s.lrOf w with | some g, some l => decide (g.nextBind < l.nbind) | _, _ => false) then s.refuseWg w else s
  | .dicer d => s.cancelGfx d
  | .binner d => s.cancelGfx d
  | .raster d _ => s.cancelGfx d
  | .hubCmd q => if (s.nextCmd q).2.isSome then s.refuseCmd q { code := 2 } else s
  | .hubLaunch q => if (s.nextCmd q).2.isSome then s.refuseCmd q { code := 1 } else s
  | .hubRun q idx => if ((s.queue q).map (fun k => k.running.any (fun r => r.idx == idx && fld r.bytes 0 1 == 3))).getD false then s.runFail q idx else s
  | .hubDone n => if ((s.disp n).bind Dispatch.gfx).any (fun g => !g.taken) then s.cancelDone n 7 else s
  | .hubInst i => if ((mget s.graphs i).map (fun g => g.nodes.any (fun x => x.2.2.isNone))).getD false then s.cancelInst i else s

/-- An uncorrectable error reaches its consumer (R303): a thread's access, a unit, or the save or restore of a queue's work. -/
def State.dataHit (s : State) (site : ErrSite) : State :=
  match site with
  | .access id => (match mget s.accs id with | some a => (s.finish id a).lateTrap a { cause := 6, addr := a.va } | none => s)
  | .unit site => s.unitHit site
  | .area q => s.fatalQueue q

/-- GDDR7_LINK_CRC_ERROR: each retry is counted; past 8 the error is uncorrectable. -/
def State.linkError (s : State) (die : Nat) (site : ErrSite) (retries : Nat) : State :=
  let s := (s.countDie die 0x07 (min retries 8)).logErr kindLink die 0 0
  if retries ≤ 8 then s else s.dataHit site

def execGddr7LinkCrcError (die : Nat) (site : ErrSite) (retries : Nat) (s : State) : Host.Outcome State Fault Refusal :=
  .next (s.linkError die site retries)

/-- UCIE_CRC_ERROR: each retry is counted; past 8 the link has failed, and every queue takes a fatal queue error. -/
def State.ucieError (s : State) (link retries : Nat) : State :=
  let s := (s.countDie (link % 4) 0x04 (min retries 8)).logErr kindLink (link % 4) 1 (BitVec.ofNat 64 link)
  if retries ≤ 8 then s else s.fatalAll

def execUcieCrcError (link retries : Nat) (s : State) : Host.Outcome State Fault Refusal := .next (s.ucieError link retries)

/-- PCIE_LINK_FAILURE: a fatal error of the part. -/
def execPcieLinkFailure (s : State) : Host.Outcome State Fault Refusal := .next { s.fatalAll with stopped := true }

-- Virtual functions (R299)

/-- The function that a queue or context belongs to after numbers have been assigned to a VF. -/
def ownerAfter (vf : Nat) (mine : List Nat) (n fn : Nat) : Nat := if mine.contains n then vf else if fn = vf then 0 else fn

/-- VF_RESOURCE_ASSIGN: numbers that exist and that no other function has. Queues and contexts that exist change hands. -/
def State.assignVf (s : State) (vf : Nat) (queues contexts : List Nat) (slots : Nat) : State :=
  let others := s.vfs.filter (fun e => e.1 != vf)
  if 1 ≤ vf && vf ≤ 16 && slots ≤ 128 && queues.all (fun q => q < 4096 && !(others.any (fun e => e.2.queues.contains q)))
      && contexts.all (fun c => c < 65536 && !(others.any (fun e => e.2.ctxs.contains c)))
  then { s with
    vfs := mput s.vfs vf ⟨queues, contexts, slots⟩
    queues := s.queues.map (fun e => (e.1, { e.2 with fn := ownerAfter vf queues e.1 e.2.fn }))
    contexts := s.contexts.map (fun e => (e.1, { e.2 with fn := ownerAfter vf contexts e.1 e.2.fn })) }
  else s

def execVfResourceAssign (vf : Nat) (queues contexts : List Nat) (slots : Nat) (s : State) : Host.Outcome State Fault Refusal :=
  .next (s.assignVf vf queues contexts slots)

-- What has no row of the opcode table

/-- A read of a queue's notify register returns TAIL (R298); the spec gives no value for any other read there. -/
def State.notifyRead (s : State) (fn off size : Nat) : State :=
  let tail := if off < notifyBase || size != 8 || (off - notifyBase) % 4096 != 0 then none else (s.notifyQueue fn off).bind s.queue |>.map Queue.tail
  match tail with
  | some v => { s with reply := leBytes 8 v.toNat }
  | none => { s.bump with reply := (List.range size).map (Config.freeByte s.fresh) }

/-- The instruction that a mailbox request stands for. -/
def outsideInstr : Outside → Option Instr
  | .mail fn b => some (mailInstr fn b)
  | _ => none

/-- What else has arrived. -/
def State.outsideStep (s : State) : Outside → State
  | .mail _ _ => s
  | .notifyRead fn off size => s.notifyRead fn off size
  | .corrected die unit addr => s.corrected die unit addr
  | .lost sector => { s with lost := if s.lost.contains sector then s.lost else s.lost ++ [sector] }
  | .hit site => s.dataHit site

end Sys2Proof.Machine
end

