-- ==== Sys2Proof/Machine/Agents.lean ====
section
/-! DEFINITION. Who may move next (R11): the quarters of the cores, the steps of the other units, and what has arrived from outside. The
lists may hold steps that are not due; such a step changes nothing. Also the state in which a given word is the next to run. -/
namespace Sys2Proof.Machine

/-- What reaches the part from outside: notify writes, mailbox requests, the host's accesses, sensors, links, reset (R297-R310). -/
def isExternal : Instr → Bool
  | .notifyWrite _ _ _ _ => true
  | .queueCreate _ _ _ => true
  | .queueDestroy _ _ => true
  | .queueReset _ _ => true
  | .contextDefine _ _ _ => true
  | .contextDelete _ _ => true
  | .translationInvalidate _ _ _ _ _ => true
  | .faultReplay _ _ => true
  | .faultCancel _ _ => true
  | .handlerRegister _ _ _ => true
  | .handlerRemove _ _ => true
  | .regionCreate _ _ _ => true
  | .regionDelete _ _ => true
  | .l2Pin _ _ _ _ => true
  | .l2Unpin _ _ _ => true
  | .engineCommandAbort _ _ _ _ _ => true
  | .dasrReadClear _ _ _ => true
  | .setAgeQuantum _ _ _ => true
  | .peerTableWrite _ _ _ => true
  | .attestationRequest _ _ _ => true
  | .errorLogRead _ _ => true
  | .dieCountersRead _ _ _ => true
  | .dieCounterSelect _ _ _ _ => true
  | .dieCountersClear _ _ => true
  | .faultRingRegister _ _ _ => true
  | .faultRingRemove _ => true
  | .cordReceive _ c => !c.isEmpty
  | .hostBar2Access _ _ _ => true
  | .partReset _ => true
  | .thermalSensorRead _ => true
  | .powerRead _ => true
  | .gddr7Scrub _ => true
  | .gddr7LinkCrcError _ _ _ => true
  | .ucieCrcError _ _ => true
  | .pcieLinkFailure => true
  | .vfResourceAssign _ _ _ _ => true
  | .mailboxOpcodeUnlisted _ _ => true
  | _ => false

def isReset : Instr → Bool
  | .partReset _ => true
  | _ => false

/-- What arrives at this tick joins the inputs, after those already waiting; a free time has passed on the hub's timer (log 45). -/
def State.arrive (s : State) : State :=
  { s with
    inputs := s.inputs ++ (Config.arrivals s.tick).filter isExternal
    outside := s.outside ++ Config.outside s.tick
    hubTime := s.hubTime + Config.hubTicks s.tick % (10000 - s.hubTime % 10000) }

/-- Quarters with a thread that could move. -/
def State.busyQuarters (s : State) : List (Nat × Nat) :=
  (((s.threads.map Prod.fst).filter (fun t => s.awake t)).map (fun t => (s.coreOf t, s.quarterOf t))).eraseDups.filter
    (fun k => ((s.core k.1).frozen.getD k.2 none).isNone)

/-- Steps of accesses and waiting threads. -/
def State.threadEvents (s : State) : List Instr :=
  s.accs.flatMap (fun e => [if loadClass e.2 then .loadComplete e.1 else .storeComplete e.1, .pageFault (.access e.1)])
    ++ s.threads.flatMap (fun e => match e.2.wait with
      | .join => [.joinTimeout e.1]
      | .waita => [.waitaWake e.1]
      | .chan cl ch => [.channelWake cl ch]
      | .chapp _ _ => [.chappRoom e.1]
      | .chadv _ => [.chadvListRoom e.1]
      | .chain => [.matrixChainRoom (s.coreOf e.1)]
      | .cpyq => [.cpyQueueRoom (s.coreOf e.1)]
      | _ => [])
    ++ (s.faults.map (fun e => Instr.pageFault e.2.site)) ++ (s.faults.map (fun e => Instr.commandResume e.2.site))
    ++ (s.rings.map (fun e => Instr.faultRecordWrite e.1))
    ++ s.injMsgs.map (fun m => .injectedLineReceive m.core m.line) ++ s.invMsgs.map (fun m => .injectedCopyInvalidate m.1 m.2)

def engineSteps (e : EngRef) (hs : List Chain) : List Instr :=
  (List.range hs.length).map (fun k => .chainEntryTake e k)
    ++ hs.flatMap (fun h => match h.cur with | some _ => [.engineNop e (.chain h.desc h.ctx)] | none => [])

def copySteps (c : Nat) (src : CopySrc) : List Instr := [.engineNop (.copy c) src, .copyCommand c src, .copyCommandComplete c src]

/-- Steps of the units of a core. -/
def coreEvents (c : Nat) (k : Core) : List Instr :=
  (if k.phaseQ.isEmpty then [] else [.phaseQueueScan c])
    ++ (k.frozen.filterMap id ++ k.prefetch).map (fun p => .icacheMissFill c p.1)
    ++ (k.chain.map MxEntry.wg).eraseDups.flatMap (fun w => [.matrixEntryStart c w, .matrixEntryComplete c w])
    ++ (if k.cpyq.isEmpty then [] else copySteps c .cpy)
    ++ engineSteps (.copy c) k.chains ++ k.chains.flatMap (fun h => copySteps c (.chain h.desc h.ctx))
    ++ k.qcopy.flatMap (fun q => copySteps c (.queue q.1))

/-- Steps of a workgroup's own engines. -/
def State.wgEvents (s : State) (w : Nat) (g : Workgroup) : List Instr :=
  .workgroupEnd w :: (if g.nextBind < ((s.lrOf w).map Launch.nbind).getD 0 then
      [.prologueDequantise w, .prologueTranspose w, .prologueHadamard w, .prologuePlaneReduction w] else [])
    ++ (List.range g.sched.length).flatMap (fun e =>
      [.scheduleIterationStart w e, .engineNop (.copy g.coreIx) (.sched w e), .copyCommand g.coreIx (.sched w e), .scheduleIterationComplete w e])

/-- Steps of a die. -/
def dieEvents (d : Nat) (x : Die) : List Instr :=
  .dispatcherTurn d :: (x.l2.map (fun e => Instr.l2Eviction d e.1) ++ x.injMask.map (fun e => Instr.l2Eviction d e.1)
    ++ engineSteps (.layout d) x.layout ++ engineSteps (.collective d) x.coll
    ++ (if x.layout.isEmpty then [] else [.im2col d])
    ++ (if x.coll.isEmpty then [] else [.allReduce d, .reduceScatter d, .allGather d, .broadcast d, .cordReceive d []])
    ++ (if x.dicing.isEmpty then [] else [.dicePatch d]) ++ (if x.toBin.isEmpty then [] else [.binGrid d])
    ++ [0, 1].flatMap (fun r => [.takeBucket d r, .rasteriseBucket d r]))

/-- Steps of the hub. -/
def State.hubEvents (s : State) : List Instr :=
  .mapperTimer :: (s.queues.flatMap (fun e => if e.2.slot.isSome then
      [.queueNop e.1, .queueLaunch e.1, .queueGraphLaunch e.1, .queueWait e.1, .queueWaitWake e.1, .queueSignal e.1, .queueCopy e.1] else [])
    ++ s.graphs.flatMap (fun e => .graphInstanceComplete e.1 :: (List.range e.2.nodes.length).map (fun n => .graphNodeStart e.1 n))
    ++ s.disps.flatMap (fun e => [.dispatchComplete e.1, .graphicsDispatchStart e.1, .binningComplete e.1])
    ++ s.slots.zipIdx.flatMap (fun p => if p.1.preempt then .preemptionRequest p.2 :: p.1.deadlines.map (fun c => .preemptionDeadline c p.2) else []))

def State.events (s : State) : List Instr :=
  s.threadEvents ++ s.cores.flatMap (fun e => coreEvents e.1 e.2) ++ s.wgs.flatMap (fun e => s.wgEvents e.1 e.2)
    ++ s.dies.zipIdx.flatMap (fun p => dieEvents p.2 p.1) ++ s.hubEvents

/-- Everyone who may move. -/
def State.agents (s : State) : List Agent :=
  (if s.inputs.isEmpty then [] else [.input]) ++ (if s.outside.isEmpty then [] else [.outside]) ++ s.busyQuarters.map (fun k => .quarter k.1 k.2) ++ s.events.map .event

/-- A part that has stopped only waits for its reset (R302, R309). -/
def State.agentsNow (s : State) : List Agent :=
  if s.stopped then (match s.inputs.find? isReset with | some i => [.event i] | none => []) else s.agents

-- The state in which a given word is the next to run

/-- The launch record of the workgroup that State.withFetchWord makes: one group of 8 lanes with 192 registers. -/
def probeLaunch : Launch :=
  { entry := 0x10000, args := 0, mode := 0, wcode := 0, nreg := 192, ngrp := 1, cfirst := 0, ccount := 0, cx := 1, cy := 1, cz := 1
    chen := false, batonSel := 0, dbp := false, part := 0x80411100, spb := 1024, dimx := 1, dimy := 1, dimz := 1, wgsel := 0, m0 := 0
    m1 := 0, clsel := 0, quota := 0, nsched := 0, lease := 1, nbind := 0, cwsc := 0, cw := 0, seq := 0, schedA := 0, bindA := 0
    deadline := 0, bkwin := 0 }

def probeThread (hdr : Bool) : Thread :=
  { pc := 0x10008, clause := if hdr then none else some ⟨0x10000, 1, 15, 15, 0⟩, regs := List.replicate 192 0, preds := 0, flags := 0
    fsr := 0, fcr := 0, sys := false, trapcause := 0, epc := 0, trapaddr := 0, exited := false, wait := .none, trapped := false
    stopped := false, watch := none, reserved := none, resume := false }

def probeGroup : Group :=
  { width := 8, status := .running, quarter := 0, row := 0, off := 0, base := 0, sregs := List.replicate 32 0, preq := false, stage := 0
    rels := List.replicate 16 0, skid := 0, quota := 0, halted := false, npc := 0, cause := 0, waitBar := none, fullSave := false
    held := false }

def probeWg : Workgroup :=
  { disp := 0, x := 0, y := 0, z := 0, ngrp := 1, die := 0, core := 0, wslot := 0, cluster := 0, rank := 0, resident := true, ended := false
    spadOff := 0, spadKib := 1, phrOffs := [0], spad := [], tiles := [[]], tileNos := [0], baton := none, halt := .running
    firstTrap := none, sched := [], nextBind := 0, bindFault := false, task := none, saveOff := 0, mxSaved := [], cpySaved := [] }

def probeDisp : Dispatch :=
  { queue := 0, slot := 0, cmd := 0, lrec := 0, lr := probeLaunch, dies := 15, node := none, ctx := 0, nextCl := 1, live := 1
    gfx := none, acqScope := none, fin := .running, fault := false, late := false }

/-- Page tables that map the first GiB to itself with R, W and X: level 1 at 0x8000, level 2 at 0x9000, a level-3 leaf at 0xA000. -/
def probeTables : List (Nat × Byte) := [(0x8000, 1), (0x8001, 0x90), (0x9000, 1), (0x9001, 0xA0), (0xA000, 0x8F)]

/-- A header of one word and the word itself at 0x10000, in memory and in the instruction cache; one thread stands before the word, and the
quarter that holds it moves next. A word that is a clause header is met in header position. -/
def State.placeWord (s : State) (w : Nat) : State :=
  let hdr : Nat := 0xF10007F800000000
  let isHdr := w / 2 ^ 60 % 16 == 15
  let t : ThreadId := ⟨0, 0, 0⟩
  let mem := Mem.wrN (probeTables.foldl (fun m c => Mem.wr m c.1 c.2) s.mem) 0x10000 (leBytes 8 hdr ++ leBytes 8 w)
  { s with
    mem := mem
    contexts := mput s.contexts 0 ⟨0x8000, 0, 0⟩
    disps := mput s.disps 0 probeDisp
    wgs := mput s.wgs 0 probeWg
    clusters := mput s.clusters 0 ⟨0, 0, 0, [0], none, [], []⟩
    groups := mput s.groups ⟨0, 0⟩ probeGroup
    threads := mput s.threads t (probeThread isHdr)
    cores := mput s.cores 0 { s.core 0 with
      conf := some (0x80411100, 0)
      pct := if isHdr then [] else [⟨0, 0x10008, 0, 0, 0⟩]
      frozen := [none, none, none, none]
      icache := mput (s.core 0).icache 0x200 (BitVec.ofNat 1024 (hdr + 2 ^ 64 * (w % 2 ^ 64))) }
    turn := some (.quarter 0 0) }

end Sys2Proof.Machine
end

