-- ==== Sys2Proof/Machine/Buckets.lean ====
section
/-! DEFINITION. BKGET and BKDONE: the take rule on a bucket queue descriptor (R216, R232-R234, R329). -/
namespace Sys2Proof.Machine

/-- Dimensions of a bucket queue descriptor. -/
def bqNbx (b : List Byte) : Nat := fld b 0 2
def bqNby (b : List Byte) : Nat := fld b 2 2
def bqHeads (b : List Byte) : List Nat := (List.range 4).map (fun e => fld b (8 + 8 * e) 4)
def bqTails (b : List Byte) : List Nat := (List.range 4).map (fun e => fld b (12 + 8 * e) 4)

/-- No fate of R232. -/
def bucketDescOk (b : List Byte) : Bool :=
  1 ≤ bqNbx b && bqNbx b ≤ 1024 && 1 ≤ bqNby b && bqNby b ≤ 1024 && fld b 4 4 == 0 && allZero ((b.drop 44).take 20)

/-- A relaxed add of 1 at DEV to a 4-byte field of a descriptor, at its home L2. -/
def State.descBump (s : State) (c ctx va old : Nat) : State × Except (XFault × Nat) Unit :=
  match s.xlate (c / 32) ctx va { r := true, w := true } with
  | (s, .error f) => (s, .error (f, va))
  | (s, .ok x) => ((if x.attr.c then s.dirTouch (c / 32) x.pa true else s).homeWrite x.pa (leBytes 4 (old + 1)), .ok ())

def bucketCheck (f : OwnF) (data : List (ThreadId × List Byte)) (s : State) (_ : GroupId) (ts : List ThreadId) : Option TrapInfo :=
  match ts with
  | [] => none
  | t :: _ =>
    match mget data t with
    | none => some (illegalState (chainDesc f s t))
    | some b => if bucketDescOk b then none else some (illegalState (chainDesc f s t))

/-- BKGET of one group. -/
def bkgetGo (f : OwnF) (data : List (ThreadId × List Byte)) (s : State) (_ : GroupId) (ts : List ThreadId) : GroupFx :=
  match ts with
  | [] => (s, none)
  | t :: _ =>
    let c := s.coreOf t
    let a := (chainDesc f s t).toNat
    let b := (mget (nowDesc s t a data) t).getD []
    match takeFrom (bqNbx b) (bqNby b) (bqHeads b) (bqTails b) (c / 32) with
    | none => (s.putRegs t (wr32 f.d 0xFFFFFFFF), none)
    | some (e, front, k) =>
      let va := a + 8 + 8 * e + (if front then 0 else 4)
      match s.descBump c (s.ctxOf t.wg) va ((if front then bqHeads b else bqTails b).getD e 0) with
      | (_, .error (x, va)) => (s.recordFault t x va 0, some .record)
      | (s, .ok _) => (s.putRegs t (wr32 f.d (BitVec.ofNat 32 k)), none)

def execBkget (f : OwnF) (s : State) : Host.Outcome State Fault Refusal :=
  let r := s.readRecordsBy descRdr (.bkget f) 0 (descReq (fun _ _ => true) f)
  runGroups (.bkget f) (bucketCheck f r.2) (bkgetGo f r.2) r.1

def bkdoneCheck (f : OwnF) (data : List (ThreadId × List Byte)) (s : State) (g : GroupId) (ts : List ThreadId) : Option TrapInfo :=
  match bucketCheck f data s g ts, ts with
  | some i, _ => some i
  | none, t :: _ =>
    let b := (mget data t).getD []
    if bqNbx b * bqNby b ≤ (s.rd t f.b).toNat then some (illegalState) else none
  | none, [] => none

/-- BKDONE of one group: DONE. -/
def bkdoneGo (f : OwnF) (data : List (ThreadId × List Byte)) (s : State) (_ : GroupId) (ts : List ThreadId) : GroupFx :=
  match ts with
  | [] => (s, none)
  | t :: _ =>
    let c := s.coreOf t
    let a := (chainDesc f s t).toNat
    let b := (mget (nowDesc s t a data) t).getD []
    match s.descBump c (s.ctxOf t.wg) (a + 40) (fld b 40 4) with
    | (_, .error (x, va)) => (s.recordFault t x va 0, some .record)
    | (s, .ok _) => (s, none)

/-- The YIELD that BKDONE performs for a group asked to yield, at the clause after it (R234); `s0` is the state before, against
which a thread that trapped is known. -/
def State.giveWay (s0 s : State) (ts : List ThreadId) (g : GroupId) : State :=
  let ts := ts.filter (fun t => t.group == g && (s.thr t).map Thread.sys == (s0.thr t).map Thread.sys && ((s.thr t).map (fun x => x.wait == .none && x.clause.isNone && !x.trapped && !x.stopped)).getD false)
  let s := ts.foldl (fun s t => (s.release (s.coreOf t) (s.tagOf t.wg) .wg).updThr t (fun x => { x with wait := .yielding })) s
  match s.standing g [] (fun _ => (none, 0)) with
  | some ps =>
    if diverges (s.phased g.wg) ps then
      (ts.foldl (fun s t => s.updThr t (fun x => { x with wait := .none })) s).takeTraps ts (ts.map (fun t => (t, { cause := 3 }))) Thread.pc
    else (s.tryPhaseEnd g).trySave g.wg
  | none => s

def execBkdone (f : OwnF) (s : State) : Host.Outcome State Fault Refusal :=
  let r := s.readRecordsBy descRdr (.bkdone f) 0 (descReq (fun _ _ => true) f)
  let ex := r.1.executing (.bkdone f)
  let s := r.1.perGroup (.bkdone f) (bkdoneCheck f r.2) (bkdoneGo f r.2)
  .next (((groupsOf ex).filter (fun g => ((s.grp g).map Group.preq).getD false)).foldl (fun s' g => State.giveWay r.1 s' ex g) s)

end Sys2Proof.Machine
end

