-- ==== Sys2Proof/Machine/Collective.lean ====
section
/-! DEFINITION. The collective engine (R187-R191): all-reduce, reduce-scatter, all-gather, broadcast, and the receipt of cords. A die's engine
runs one command at a time; a start sends the cords that this participant begins, and each cord received is combined, written or
forwarded. -/
namespace Sys2Proof.Machine

/-- Fields of a collective command. -/
structure Coll where
  cop   : Nat
  qpl   : Nat
  fpl   : Nat
  ef    : Bool
  rank  : Nat
  root  : Nat
  cwc   : Nat
  src   : Nat
  dst   : Nat
  res   : Nat
  ptab  : Nat
  nelem : Nat
  cid   : Nat
deriving DecidableEq, Repr

def collOf (b : List Byte) : Coll :=
  { cop := fld b 1 1, qpl := fld b 2 1, fpl := fld b 3 1, ef := (fld b 4 1).testBit 0, rank := fld b 5 1, root := fld b 6 1, cwc := fld b 7 1
    src := fld b 8 8, dst := fld b 16 8, res := fld b 24 8, ptab := fld b 32 8, nelem := fld b 56 4, cid := fld b 60 4 }

/-- No fate of R188 that the command alone decides. -/
def collOk (b : List Byte) : Bool :=
  let m := collOf b
  m.cop ≤ 3 && m.qpl ≤ 8 && m.qpl != 1 && m.fpl ≤ 8 && m.fpl != 1 && !(m.fpl != 0 && m.qpl == 0) && fld b 4 1 < 2 && !(m.ef && m.qpl == 0)
    && cwcOk m.cwc && m.src < 2 ^ 60 && m.dst < 2 ^ 60 && (!m.ef || m.res < 2 ^ 60) && m.ptab % 64 == 0 && m.nelem != 0

/-- Participants of a table: package and die by rank (R187). -/
def npart (t : List Byte) : Nat := fld t 0 1
def partAt (t : List Byte) (i : Nat) : Nat × Nat := (fld t (8 + i) 1 / 32, fld t (8 + i) 1 % 4)

/-- No fate of the participant table for a die of a package; a package it names has an entry in the peer table (R301). -/
def ptabOk (t : List Byte) (m : Coll) (pkg d : Nat) (peers : List DWord) : Bool :=
  let n := npart t
  2 ≤ n && n ≤ 32 && allZero ((t.drop 1).take 7) && (List.range n).all (fun i => fld t (8 + i) 1 / 4 % 8 == 0)
    && decide ((List.range n).map (partAt t)).Nodup && m.rank < n && partAt t m.rank == (pkg, d) && (m.cop != 3 || m.root < n)
    && (List.range n).all (fun i => peers.getD (partAt t i).1 0 != 0)

-- Cords (R189)

def cordLen : Nat := 1024

/-- Cords of a buffer. -/
def Coll.cords (m : Coll) : Nat := (m.nelem + cordLen - 1) / cordLen

/-- Elements of cord k that exist. -/
def Coll.live (m : Coll) (k : Nat) : Nat := min cordLen (m.nelem - cordLen * k)

/-- FP32 codes of a byte run. -/
def fpCodes : List Byte → List Nat
  | a :: b :: c :: d :: rest => leNat [a, b, c, d] :: fpCodes rest
  | _ => []

/-- A quantised cord: 64 blocks of a scale code and 16 mantissas of p bits; or, with p 0, FP32 codes. -/
structure CordVal where
  p    : Nat
  fp   : List Nat
  blks : List (Nat × List Int)
deriving DecidableEq, Repr

def inBlocks : Nat → List Nat → List (List Nat)
  | 0, _ => []
  | n + 1, xs => xs.take 16 :: inBlocks n (xs.drop 16)

/-- q(v) of R190 and its flags. -/
def quantCord (qpl : Nat) (xs : List Nat) : CordVal × Fl :=
  if qpl = 0 then (⟨0, xs, []⟩, 0)
  else
    let bs := (inBlocks 64 xs).map (fun b =>
      let vs := b.map (decodeF fp32)
      let e := scaleCode (-1) vs
      let qs := vs.map (fun v => quantElem (.bfp qpl) v e .rne false)
      ((e, qs.map Prod.fst), qs.foldl (fun f q => f ||| q.2) (0 : Fl)))
    (⟨qpl, [], bs.map Prod.fst⟩, bs.foldl (fun f b => f ||| b.2) 0)

/-- dq of R190 and its flags. -/
def dequantCord (v : CordVal) : List Nat × Fl :=
  if v.p = 0 then (v.fp, 0)
  else
    let ws := v.blks.flatMap (fun b => b.2.map (fun q => dequantElem (.bfp v.p) q b.1))
    (ws.map (fun w => w.1.toNat), ws.foldl (fun f w => f ||| w.2) 0)

/-- Keeps the first k planes (R136). -/
def CordVal.truncate (v : CordVal) (k : Nat) : CordVal :=
  if 0 < k && k < v.p then { v with p := k, blks := v.blks.map (fun b => (b.1, b.2.map (fun q => q / 2 ^ (v.p - k)))) } else v

def CordVal.payload (v : CordVal) : List Byte :=
  if v.p = 0 then v.fp.flatMap (leBytes 4)
  else
    let ws := v.blks.map (fun b => planesOf v.p b.2)
    (v.blks.flatMap (fun b => leBytes 1 b.1)) ++ (List.range v.p).flatMap (fun j => ws.flatMap (fun w => leBytes 2 (w.getD j 0)))

/-- Reads a payload of p planes. -/
def cordValOf (p : Nat) (bs : List Byte) : CordVal :=
  if p = 0 then ⟨0, fpCodes (bs.take 4096), []⟩
  else
    ⟨p, [], (List.range 64).map (fun b =>
      let ws := (List.range p).map (fun j => fld bs (64 + 128 * j + 2 * b) 2)
      (fld bs b 1, (List.range 16).map (fun i => mant p ws i)))⟩

def cordHeader (m : Coll) (t : List Byte) (k p phase : Nat) : List Byte :=
  leBytes 4 m.cid ++ leBytes 4 k ++ leBytes 1 m.rank ++ leBytes 1 p ++ leBytes 1 phase ++ leBytes 1 m.cop ++ leBytes 4 m.nelem ++ sha3_256 t
    ++ zeros 16

/-- The neighbour of a rank: the next, or the one before. -/
def neighbour (t : List Byte) (back : Bool) (r : Nat) : Nat := (r + (if back then npart t - 1 else 1)) % npart t

/-- Sends a cord to a neighbour; the link keeps order. -/
def State.sendCord (s : State) (m : Coll) (t : List Byte) (back : Bool) (k phase : Nat) (v : CordVal) : State :=
  let dest := partAt t (neighbour t back m.rank)
  { s with cords := s.cords ++ [⟨dest.1, dest.2, cordHeader m t k v.p phase, v.payload⟩] }

-- The parts of R190

/-- Owner of cord k. -/
def Coll.owner (m : Coll) (t : List Byte) (k : Nat) : Nat := if m.cop = 3 then m.root else k % npart t

/-- How far a rank lies after the owner of a cord. -/
def Coll.dist (m : Coll) (t : List Byte) (k : Nat) : Nat := (m.rank + npart t - m.owner t k) % npart t

/-- The ranks just after the owner that send their partial sum of a cord the other way round the ring: none under DBP-1; under the native
profile a free number, the same at every participant (R191; log 60). -/
def Coll.split (m : Coll) (t : List Byte) (native : Bool) (k : Nat) : Nat := if native then Config.ringSplit m.cid k % npart t else 0

/-- The owner has two partial sums to wait for. -/
def Coll.twoSums (m : Coll) (t : List Byte) (native : Bool) (k : Nat) : Bool := 1 ≤ m.split t native k && m.split t native k + 2 ≤ npart t

def raiseFl (d : Nat) (f : Fl) : Ev Unit := fun s => (if f = 0 then s else s.raiseDasr d (dasrOf f), .ok ())

/-- Elements of a buffer in cord k; those at NELEM or above are zero. -/
def cordRead (d ctx base : Nat) (m : Coll) (k : Nat) : Ev (List Nat) :=
  let n := m.live k
  (rdBytes (engRead d ctx) (base + 4 * cordLen * k) (4 * n)).and (fun bs => Ev.ret (fpCodes bs ++ List.replicate (cordLen - n) 0))

def cordWrite (d ctx base : Nat) (m : Coll) (k : Nat) (xs : List Nat) : Ev Unit :=
  engWrite d ctx (base + 4 * cordLen * k) ((xs.take (m.live k)).flatMap (leBytes 4))

def addCodes (xs ys : List Nat) : List Nat × Fl :=
  let zs := (xs.zip ys).map (fun p => fpOp (addV .rne) (p.1, 0) (p.2, 0))
  (zs.map Prod.fst, zs.foldl (fun f z => f ||| z.2) 0)

/-- local(r, k). -/
def cordLocal (d ctx : Nat) (m : Coll) (k : Nat) : Ev (List Nat) :=
  (cordRead d ctx m.src m k).and (fun xs =>
    if m.ef then (cordRead d ctx m.res m k).and (fun rs =>
      let z := addCodes xs rs
      (raiseFl d z.2).and (fun _ => Ev.ret z.1))
    else Ev.ret xs)

/-- quant_ef(r, k, v). -/
def quantEf (d ctx : Nat) (m : Coll) (k : Nat) (xs : List Nat) : Ev CordVal :=
  let q := quantCord m.qpl xs
  (raiseFl d q.2).and (fun _ =>
    if m.ef then
      let dq := dequantCord q.1
      let rs := (xs.zip dq.1).map (fun p => fpSub (p.1, 0) (p.2, 0))
      (raiseFl d (rs.foldl (fun f r => f ||| r.2) dq.2)).and (fun _ =>
        (cordWrite d ctx m.res m k (rs.map Prod.fst)).and (fun _ => Ev.ret q.1))
    else Ev.ret q.1)

def evSend (m : Coll) (t : List Byte) (back : Bool) (k phase : Nat) (v : CordVal) : Ev Unit := fun s => (s.sendCord m t back k phase v, .ok ())

/-- The owner's part of gather_phase. -/
def gatherOwn (d ctx : Nat) (m : Coll) (t : List Byte) (k : Nat) (v : List Nat) : Ev Unit :=
  (quantEf d ctx m k v).and (fun c =>
    let x := dequantCord c
    (raiseFl d x.2).and (fun _ => (cordWrite d ctx m.dst m k x.1).and (fun _ => evSend m t false k 1 c)))

/-- What this participant does for cord k when its command starts; the cords it has then handled. -/
def collBegin (d ctx : Nat) (m : Coll) (t : List Byte) (native : Bool) (k : Nat) : Ev (List (Nat × Nat)) :=
  let b := m.split t native k
  let j := m.dist t k
  if m.cop ≤ 1 then
    (if j = b + 1 || (j = b && j != 0) then
      (cordLocal d ctx m k).and (fun x => (quantEf d ctx m k x).and (fun q => (evSend m t (j ≤ b) k 0 q).and (fun _ => Ev.ret [(k, 0)])))
     else Ev.ret [])
  else if m.rank = m.owner t k then (cordRead d ctx m.src m k).and (fun v => (gatherOwn d ctx m t k v).and (fun _ => Ev.ret [(k, 1)]))
  else Ev.ret []

/-- What a cord received comes to: the cords handled, and a sum that waits for a second partial sum. -/
abbrev CordFx := List (Nat × Nat) × List (Nat × List Nat)

/-- A cord of the reduce phase: its sum is sent on, or the owner has its final value. Where the owner has two partial sums to add, it adds the
first to its own elements, and the second, in order of arrival, to `held` (R191). -/
def collReduce (d ctx : Nat) (m : Coll) (t : List Byte) (native : Bool) (k : Nat) (v : CordVal) (held : Option (List Nat)) : Ev CordFx :=
  let x := dequantCord v
  (raiseFl d x.2).and (fun _ => (match held with | some l => Ev.ret l | none => cordLocal d ctx m k).and (fun l =>
    let z := addCodes x.1 l
    (raiseFl d z.2).and (fun _ =>
      if m.rank != m.owner t k then
        (quantEf d ctx m k z.1).and (fun q => (evSend m t (m.dist t k ≤ m.split t native k) k 0 q).and (fun _ => Ev.ret ([(k, 0)], [])))
      else if m.twoSums t native k && held.isNone then Ev.ret ([], [(k, z.1)])
      else if m.cop = 0 then (gatherOwn d ctx m t k z.1).and (fun _ => Ev.ret ([(k, 0), (k, 1)], []))
      else (cordWrite d ctx m.dst m k z.1).and (fun _ => Ev.ret ([(k, 0)], [])))))

/-- A cord of the gather phase: written, and forwarded but to its owner. -/
def collGather (d ctx : Nat) (m : Coll) (t : List Byte) (k : Nat) (v : CordVal) : Ev CordFx :=
  let x := dequantCord v
  (raiseFl d x.2).and (fun _ => (cordWrite d ctx m.dst m k x.1).and (fun _ =>
    if (m.rank + 1) % npart t = m.owner t k then Ev.ret ([(k, 1)], [])
    else (evSend m t false k 1 (v.truncate m.fpl)).and (fun _ => Ev.ret ([(k, 1)], []))))

/-- The beginnings of the cords from k on; at a failed translation those before it stand, and the count says at which it stopped (R192). -/
def collBegins (d ctx : Nat) (m : Coll) (t : List Byte) (native : Bool) :
    Nat → Nat → State → List (Nat × Nat) → State × Nat × List (Nat × Nat) × Except XErr Unit
  | 0, k, s, hs => (s, k, hs, .ok ())
  | n + 1, k, s, hs =>
    match collBegin d ctx m t native k s with
    | (_, .error e) => (s, k, hs, .error e)
    | (s, .ok h) => collBegins d ctx m t native n (k + 1) s (hs ++ h)

/-- This participant has handled every cord. -/
def collDone (m : Coll) (hs : List (Nat × Nat)) : Bool :=
  (List.range m.cords).all (fun k => (1 < m.cop || hs.contains (k, 0)) && (m.cop == 1 || hs.contains (k, 1)))

-- Events

/-- The command that a die's engine runs now: started, with its participant table. -/
def collNow (hs : List Chain) : Option (Chain × CopyRun × List Byte) :=
  hs.findSome? (fun h => match h.cur with
    | some r => r.2.shape.map (fun t => (h, r.2, t))
    | none => none)

/-- The row of a command by its COP; an unsuitable OPC or COP is met at ALL_REDUCE. -/
def collKind (b : List Byte) : Nat := if fld b 0 1 = 3 && collOk b then fld b 1 1 else 0

/-- The running command begins its cords, from the one at which it stands. -/
def State.collRun (s : State) (d : Nat) (h : Chain) (r : CopyRun) (t : List Byte) : State :=
  let e : EngRef := .collective d
  let m := collOf r.cmd
  let z := collBegins d h.ctx m t r.native (m.cords - r.elem) r.elem s []
  let s := z.1.updChain e h.desc h.ctx (fun y => { y with coll := y.coll ++ z.2.2.1, cur := y.cur.map (fun p => (p.1, { r with elem := z.2.1 })) })
  match z.2.2.2 with
  | .ok _ => s
  | .error (.fault f va) => s.dieCmdFault e h (f, va)
  | .error (.fate _) => s.dieCmdFail e h 4

/-- The command of a chain works for a dispatch under the native profile (R10). -/
def State.nativeChain (s : State) (h : Chain) : Bool := ((h.owner.bind s.dispOf).map (fun d => !d.lr.dbp)).getD false

/-- A start event of the given operation: the running command goes on, or completes if it has handled every cord; or, with none running, the
next command of that operation starts. -/
def State.collStep (s : State) (d cop : Nat) : State :=
  let e : EngRef := .collective d
  match collNow (s.die d).coll with
  | some (h, r, t) =>
    if h.fault || collKind r.cmd != cop then s
    else if r.elem < (collOf r.cmd).cords then s.collRun d h r t
    else if collDone (collOf r.cmd) h.coll then s.dieCmdDone e h r
    else s
  | none =>
    match firstCmd (s.die d).coll (fun b => fld b 0 1 != 0 && collKind b == cop) with
    | none => s
    | some (h, r) =>
      let m := collOf r.cmd
      let cp := copyCmdOf r.cmd
      if fld r.cmd 0 1 != 3 || !collOk r.cmd || (r.lives.isNone && s.cwBad d h.ctx h.owner cp.cwsp cp.cw cp.scope) then s.dieCmdFail e h 4
      else
        let r := { r with lives := some [], late := s.lateOf d h.ctx (.chain h.desc h.ctx) r, elem := 0, native := s.nativeChain h }
        let s := s.updCur e h (fun _ => r)
        match rdBytes (engRead d h.ctx) m.ptab 64 s with
        | (s, .error (.fault f va)) => s.dieCmdFault e h (f, va)
        | (s, .error (.fate _)) => s.dieCmdFail e h 4
        | (s, .ok t) => if ptabOk t m s.pkg d s.peers then s.collRun d h { r with shape := some t } t else s.dieCmdFail e h 4

def execAllReduce (die : Nat) (s : State) : Host.Outcome State Fault Refusal := .next (s.collStep die 0)
def execReduceScatter (die : Nat) (s : State) : Host.Outcome State Fault Refusal := .next (s.collStep die 1)
def execAllGather (die : Nat) (s : State) : Host.Outcome State Fault Refusal := .next (s.collStep die 2)
def execBroadcast (die : Nat) (s : State) : Host.Outcome State Fault Refusal := .next (s.collStep die 3)

/-- A cord that arrives from another package joins those in flight. -/
def State.cordArrive (s : State) (d : Nat) (cord : List Byte) : State :=
  if cord.isEmpty then s else { s with cords := s.cords ++ [⟨s.pkg, d, cord.take 64, cord.drop 64⟩] }

def Cord.isFor (x : Cord) (pkg d : Nat) : Bool := x.toPkg == pkg && x.toDie == d

/-- The first cord for a die leaves the link. -/
def dropCord (pkg d : Nat) : List Cord → List Cord
  | [] => []
  | x :: xs => if x.isFor pkg d then xs else x :: dropCord pkg d xs

/-- CORD_RECEIVE: the next cord for a die is checked against its running command and combined or forwarded. It waits while none runs. A cord that
matches but is not due (an index out of range, a cord already handled, a phase the operation lacks) is dropped (log 75). -/
def State.cordStep (s : State) (d : Nat) : State :=
  let e : EngRef := .collective d
  match s.cords.find? (fun x => x.isFor s.pkg d), collNow (s.die d).coll with
  | some x, some (h, r, t) =>
    let m := collOf r.cmd
    if h.fault || r.elem < m.cords || collDone m h.coll then s
    else
      let s1 := { s with cords := dropCord s.pkg d s.cords }
      let hd := x.header
      if fld hd 0 4 != m.cid || fld hd 11 1 != m.cop || fld hd 12 4 != m.nelem || (hd.drop 16).take 32 != sha3_256 t then s1.dieCmdFail e h 4
      else
        let k := fld hd 4 4
        let phase := fld hd 10 1
        let due := k < m.cords && !h.coll.contains (k, phase) && ((phase == 0 && m.cop ≤ 1) || (phase == 1 && m.cop != 1))
        if !due then s1
        else
          let v := cordValOf (fld hd 9 1) x.body
          match (if phase = 0 then collReduce d h.ctx m t r.native k v (mget h.part k) else collGather d h.ctx m t k v) s1 with
          | (_, .error (.fault f va)) => s.dieCmdFault e h (f, va)
          | (s, .error (.fate _)) => s.dieCmdFail e h 4
          | (s, .ok fx) => s.updChain e h.desc h.ctx (fun y => { y with coll := y.coll ++ fx.1, part := y.part.filter (fun p => p.1 != k) ++ fx.2 })
  | _, _ => s

def execCordReceive (die : Nat) (cord : List Byte) (s : State) : Host.Outcome State Fault Refusal := .next ((s.cordArrive die cord).cordStep die)

end Sys2Proof.Machine
end

