-- ==== Sys2Proof/Machine/Dispatch.lean ====
section
/-! DEFINITION. One arm for each constructor of `Instr`. -/
namespace Sys2Proof.Machine

def exec (i : Instr) (s : State) : Host.Outcome State Fault Refusal :=
  match i with
  | .nop => Sys2Proof.Machine.execNop s
  | .br g imm => Sys2Proof.Machine.execBr g imm s
  | .brx f => Sys2Proof.Machine.execBrx f s
  | .call g d imm => Sys2Proof.Machine.execCall g d imm s
  | .callx f => Sys2Proof.Machine.execCallx f s
  | .ret f => Sys2Proof.Machine.execRet f s
  | .exit f => Sys2Proof.Machine.execExit f s
  | .join f => Sys2Proof.Machine.execJoin f s
  | .yield f => Sys2Proof.Machine.execYield f s
  | .bkpt f => Sys2Proof.Machine.execBkpt f s
  | .trap f n => Sys2Proof.Machine.execTrap f n s
  | .eret f => Sys2Proof.Machine.execEret f s
  | .iadd f => Sys2Proof.Machine.execIadd f s
  | .iaddx f => Sys2Proof.Machine.execIaddx f s
  | .isub f => Sys2Proof.Machine.execIsub f s
  | .isubx f => Sys2Proof.Machine.execIsubx f s
  | .imul f => Sys2Proof.Machine.execImul f s
  | .imulhi f => Sys2Proof.Machine.execImulhi f s
  | .imad f => Sys2Proof.Machine.execImad f s
  | .imadw f => Sys2Proof.Machine.execImadw f s
  | .imin f => Sys2Proof.Machine.execImin f s
  | .imax f => Sys2Proof.Machine.execImax f s
  | .iabs f => Sys2Proof.Machine.execIabs f s
  | .idot4 f => Sys2Proof.Machine.execIdot4 f s
  | .and f => Sys2Proof.Machine.execAnd f s
  | .or f => Sys2Proof.Machine.execOr f s
  | .xor f => Sys2Proof.Machine.execXor f s
  | .shl f => Sys2Proof.Machine.execShl f s
  | .shr f => Sys2Proof.Machine.execShr f s
  | .sar f => Sys2Proof.Machine.execSar f s
  | .rotl f => Sys2Proof.Machine.execRotl f s
  | .bfe f => Sys2Proof.Machine.execBfe f s
  | .bfi f => Sys2Proof.Machine.execBfi f s
  | .popc f => Sys2Proof.Machine.execPopc f s
  | .clz f => Sys2Proof.Machine.execClz f s
  | .brev f => Sys2Proof.Machine.execBrev f s
  | .lea f => Sys2Proof.Machine.execLea f s
  | .lea64 f => Sys2Proof.Machine.execLea64 f s
  | .sel f => Sys2Proof.Machine.execSel f s
  | .iset f => Sys2Proof.Machine.execIset f s
  | .mov f => Sys2Proof.Machine.execMov f s
  | .movi g d imm => Sys2Proof.Machine.execMovi g d imm s
  | .ldl g d wide imm => Sys2Proof.Machine.execLdl g d wide imm s
  | .plop f lut pd pa pb pc => Sys2Proof.Machine.execPlop f lut pd pa pb pc s
  | .pmov f => Sys2Proof.Machine.execPmov f s
  | .pmovSet f mask => Sys2Proof.Machine.execPmovSet f mask s
  | .fadd f => Sys2Proof.Machine.execFadd f s
  | .fmul f => Sys2Proof.Machine.execFmul f s
  | .ffma f => Sys2Proof.Machine.execFfma f s
  | .fmin f => Sys2Proof.Machine.execFmin f s
  | .fmax f => Sys2Proof.Machine.execFmax f s
  | .fset f => Sys2Proof.Machine.execFset f s
  | .fdiv f => Sys2Proof.Machine.execFdiv f s
  | .frcp f => Sys2Proof.Machine.execFrcp f s
  | .frsq f => Sys2Proof.Machine.execFrsq f s
  | .fsqrt f => Sys2Proof.Machine.execFsqrt f s
  | .fexp2 f => Sys2Proof.Machine.execFexp2 f s
  | .flog2 f => Sys2Proof.Machine.execFlog2 f s
  | .fsinp f => Sys2Proof.Machine.execFsinp f s
  | .fcosp f => Sys2Proof.Machine.execFcosp f s
  | .frnd f => Sys2Proof.Machine.execFrnd f s
  | .ffrac f => Sys2Proof.Machine.execFfrac f s
  | .fclass f => Sys2Proof.Machine.execFclass f s
  | .f2i f => Sys2Proof.Machine.execF2i f s
  | .i2f f => Sys2Proof.Machine.execI2f f s
  | .fcvt f => Sys2Proof.Machine.execFcvt f s
  | .fpadd f => Sys2Proof.Machine.execFpadd f s
  | .fpmul f => Sys2Proof.Machine.execFpmul f s
  | .fpmad f => Sys2Proof.Machine.execFpmad f s
  | .qde4 f => Sys2Proof.Machine.execQde4 f s
  | .qde5 f => Sys2Proof.Machine.execQde5 f s
  | .qdb f => Sys2Proof.Machine.execQdb f s
  | .qdt f => Sys2Proof.Machine.execQdt f s
  | .qce4 f => Sys2Proof.Machine.execQce4 f s
  | .qce5 f => Sys2Proof.Machine.execQce5 f s
  | .qcb f => Sys2Proof.Machine.execQcb f s
  | .qscl f => Sys2Proof.Machine.execQscl f s
  | .dqe4 f => Sys2Proof.Machine.execDqe4 f s
  | .dqe5 f => Sys2Proof.Machine.execDqe5 f s
  | .dqb f => Sys2Proof.Machine.execDqb f s
  | .dqt f => Sys2Proof.Machine.execDqt f s
  | .share f => Sys2Proof.Machine.execShare f s
  | .vmask f => Sys2Proof.Machine.execVmask f s
  | .elect f => Sys2Proof.Machine.execElect f s
  | .rdlane f => Sys2Proof.Machine.execRdlane f s
  | .scan f => Sys2Proof.Machine.execScan f s
  | .redux f => Sys2Proof.Machine.execRedux f s
  | .matchLanes f => Sys2Proof.Machine.execMatch f s
  | .ld f => Sys2Proof.Machine.execLd f s
  | .st f => Sys2Proof.Machine.execSt f s
  | .sti f => Sys2Proof.Machine.execSti f s
  | .ldp f => Sys2Proof.Machine.execLdp f s
  | .stp f => Sys2Proof.Machine.execStp f s
  | .pref f => Sys2Proof.Machine.execPref f s
  | .wbr f => Sys2Proof.Machine.execWbr f s
  | .invr f => Sys2Proof.Machine.execInvr f s
  | .fenceRel f => Sys2Proof.Machine.execFenceRel f s
  | .fenceAcq f => Sys2Proof.Machine.execFenceAcq f s
  | .tfence f => Sys2Proof.Machine.execTfence f s
  | .waita f => Sys2Proof.Machine.execWaita f s
  | .atom f => Sys2Proof.Machine.execAtom f s
  | .acas f => Sys2Proof.Machine.execAcas f s
  | .red f => Sys2Proof.Machine.execRed f s
  | .pladd f => Sys2Proof.Machine.execPladd f s
  | .qsend f => Sys2Proof.Machine.execQsend f s
  | .qrecv f => Sys2Proof.Machine.execQrecv f s
  | .publish f => Sys2Proof.Machine.execPublish f s
  | .barGrp f n => Sys2Proof.Machine.execBarGrp f n s
  | .barWg f n => Sys2Proof.Machine.execBarWg f n s
  | .barCl f n => Sys2Proof.Machine.execBarCl f n s
  | .stage f => Sys2Proof.Machine.execStage f s
  | .stageRel f e => Sys2Proof.Machine.execStageRel f e s
  | .chapp f => Sys2Proof.Machine.execChapp f s
  | .chadv f => Sys2Proof.Machine.execChadv f s
  | .mma f => Sys2Proof.Machine.execMma f s
  | .accld f tile => Sys2Proof.Machine.execAccld f tile s
  | .accst f tile => Sys2Proof.Machine.execAccst f tile s
  | .accz f tile => Sys2Proof.Machine.execAccz f tile s
  | .etake f => Sys2Proof.Machine.execEtake f s
  | .egive f => Sys2Proof.Machine.execEgive f s
  | .cpy f => Sys2Proof.Machine.execCpy f s
  | .tex f nc => Sys2Proof.Machine.execTex f nc s
  | .texg f nc => Sys2Proof.Machine.execTexg f nc s
  | .rayq f any => Sys2Proof.Machine.execRayq f any s
  | .gbin f pd => Sys2Proof.Machine.execGbin f pd s
  | .gsub f => Sys2Proof.Machine.execGsub f s
  | .bkget f => Sys2Proof.Machine.execBkget f s
  | .bkdone f => Sys2Proof.Machine.execBkdone f s
  | .getsr f sr => Sys2Proof.Machine.execGetsr f sr s
  | .setsr f sr => Sys2Proof.Machine.execSetsr f sr s
  | .formatD s0 s1 => Sys2Proof.Machine.execFormatD s0 s1 s
  | .clauseStart h => Sys2Proof.Machine.execClauseStart h s
  | .loadComplete acc => Sys2Proof.Machine.execLoadComplete acc s
  | .storeComplete acc => Sys2Proof.Machine.execStoreComplete acc s
  | .joinTimeout t => Sys2Proof.Machine.execJoinTimeout t s
  | .phaseQueueScan core => Sys2Proof.Machine.execPhaseQueueScan core s
  | .channelWake cluster ch => Sys2Proof.Machine.execChannelWake cluster ch s
  | .waitaWake t => Sys2Proof.Machine.execWaitaWake t s
  | .icacheMissFill core line => Sys2Proof.Machine.execIcacheMissFill core line s
  | .pageFault site => Sys2Proof.Machine.execPageFault site s
  | .faultRecordWrite fn => Sys2Proof.Machine.execFaultRecordWrite fn s
  | .injectedLineReceive core line => Sys2Proof.Machine.execInjectedLineReceive core line s
  | .injectedCopyInvalidate core line => Sys2Proof.Machine.execInjectedCopyInvalidate core line s
  | .l2Eviction die line => Sys2Proof.Machine.execL2Eviction die line s
  | .matrixChainRoom core => Sys2Proof.Machine.execMatrixChainRoom core s
  | .matrixEntryStart core wg => Sys2Proof.Machine.execMatrixEntryStart core wg s
  | .matrixEntryComplete core wg => Sys2Proof.Machine.execMatrixEntryComplete core wg s
  | .chappRoom t => Sys2Proof.Machine.execChappRoom t s
  | .chadvListRoom t => Sys2Proof.Machine.execChadvListRoom t s
  | .cpyQueueRoom core => Sys2Proof.Machine.execCpyQueueRoom core s
  | .chainEntryTake e ix => Sys2Proof.Machine.execChainEntryTake e ix s
  | .engineNop e src => Sys2Proof.Machine.execEngineNop e src s
  | .copyCommand core src => Sys2Proof.Machine.execCopyCommand core src s
  | .copyCommandComplete core src => Sys2Proof.Machine.execCopyCommandComplete core src s
  | .commandResume site => Sys2Proof.Machine.execCommandResume site s
  | .scheduleIterationStart wg entry => Sys2Proof.Machine.execScheduleIterationStart wg entry s
  | .scheduleIterationComplete wg entry => Sys2Proof.Machine.execScheduleIterationComplete wg entry s
  | .prologueDequantise wg => Sys2Proof.Machine.execPrologueDequantise wg s
  | .prologueTranspose wg => Sys2Proof.Machine.execPrologueTranspose wg s
  | .prologueHadamard wg => Sys2Proof.Machine.execPrologueHadamard wg s
  | .prologuePlaneReduction wg => Sys2Proof.Machine.execProloguePlaneReduction wg s
  | .im2col die => Sys2Proof.Machine.execIm2col die s
  | .allReduce die => Sys2Proof.Machine.execAllReduce die s
  | .reduceScatter die => Sys2Proof.Machine.execReduceScatter die s
  | .allGather die => Sys2Proof.Machine.execAllGather die s
  | .broadcast die => Sys2Proof.Machine.execBroadcast die s
  | .cordReceive die cord => Sys2Proof.Machine.execCordReceive die cord s
  | .graphicsDispatchStart disp => Sys2Proof.Machine.execGraphicsDispatchStart disp s
  | .dicePatch die => Sys2Proof.Machine.execDicePatch die s
  | .binGrid die => Sys2Proof.Machine.execBinGrid die s
  | .binningComplete disp => Sys2Proof.Machine.execBinningComplete disp s
  | .takeBucket die r => Sys2Proof.Machine.execTakeBucket die r s
  | .rasteriseBucket die r => Sys2Proof.Machine.execRasteriseBucket die r s
  | .notifyWrite fn off size value => Sys2Proof.Machine.execNotifyWrite fn off size value s
  | .queueNop q => Sys2Proof.Machine.execQueueNop q s
  | .queueLaunch q => Sys2Proof.Machine.execQueueLaunch q s
  | .queueGraphLaunch q => Sys2Proof.Machine.execQueueGraphLaunch q s
  | .queueWait q => Sys2Proof.Machine.execQueueWait q s
  | .queueWaitWake q => Sys2Proof.Machine.execQueueWaitWake q s
  | .queueSignal q => Sys2Proof.Machine.execQueueSignal q s
  | .queueCopy q => Sys2Proof.Machine.execQueueCopy q s
  | .graphNodeStart inst node => Sys2Proof.Machine.execGraphNodeStart inst node s
  | .graphInstanceComplete inst => Sys2Proof.Machine.execGraphInstanceComplete inst s
  | .mapperTimer => Sys2Proof.Machine.execMapperTimer s
  | .dispatcherTurn die => Sys2Proof.Machine.execDispatcherTurn die s
  | .workgroupEnd wg => Sys2Proof.Machine.execWorkgroupEnd wg s
  | .dispatchComplete disp => Sys2Proof.Machine.execDispatchComplete disp s
  | .preemptionRequest slot => Sys2Proof.Machine.execPreemptionRequest slot s
  | .preemptionDeadline core slot => Sys2Proof.Machine.execPreemptionDeadline core slot s
  | .queueCreate r q desc => Sys2Proof.Machine.execQueueCreate r q desc s
  | .queueDestroy r q => Sys2Proof.Machine.execQueueDestroy r q s
  | .queueReset r q => Sys2Proof.Machine.execQueueReset r q s
  | .contextDefine r ctx root => Sys2Proof.Machine.execContextDefine r ctx root s
  | .contextDelete r ctx => Sys2Proof.Machine.execContextDelete r ctx s
  | .translationInvalidate r ctx flags start len => Sys2Proof.Machine.execTranslationInvalidate r ctx flags start len s
  | .faultReplay r tag => Sys2Proof.Machine.execFaultReplay r tag s
  | .faultCancel r tag => Sys2Proof.Machine.execFaultCancel r tag s
  | .handlerRegister r ctx entry => Sys2Proof.Machine.execHandlerRegister r ctx entry s
  | .handlerRemove r ctx => Sys2Proof.Machine.execHandlerRemove r ctx s
  | .regionCreate r region ctx => Sys2Proof.Machine.execRegionCreate r region ctx s
  | .regionDelete r region => Sys2Proof.Machine.execRegionDelete r region s
  | .l2Pin r die base size => Sys2Proof.Machine.execL2Pin r die base size s
  | .l2Unpin r die base => Sys2Proof.Machine.execL2Unpin r die base s
  | .engineCommandAbort r ctx die desc ix => Sys2Proof.Machine.execEngineCommandAbort r ctx die desc ix s
  | .dasrReadClear r die buf => Sys2Proof.Machine.execDasrReadClear r die buf s
  | .setAgeQuantum r age quantum => Sys2Proof.Machine.execSetAgeQuantum r age quantum s
  | .peerTableWrite r pkg addr => Sys2Proof.Machine.execPeerTableWrite r pkg addr s
  | .attestationRequest r nonce buf => Sys2Proof.Machine.execAttestationRequest r nonce buf s
  | .errorLogRead r buf => Sys2Proof.Machine.execErrorLogRead r buf s
  | .dieCountersRead r die buf => Sys2Proof.Machine.execDieCountersRead r die buf s
  | .dieCounterSelect r die ctr ev => Sys2Proof.Machine.execDieCounterSelect r die ctr ev s
  | .dieCountersClear r die => Sys2Proof.Machine.execDieCountersClear r die s
  | .faultRingRegister r base flsize => Sys2Proof.Machine.execFaultRingRegister r base flsize s
  | .faultRingRemove r => Sys2Proof.Machine.execFaultRingRemove r s
  | .hostBar2Access addr write readLen => Sys2Proof.Machine.execHostBar2Access addr write readLen s
  | .partReset img => Sys2Proof.Machine.execPartReset img s
  | .thermalSensorRead temps => Sys2Proof.Machine.execThermalSensorRead temps s
  | .powerRead watts => Sys2Proof.Machine.execPowerRead watts s
  | .gddr7Scrub die => Sys2Proof.Machine.execGddr7Scrub die s
  | .gddr7LinkCrcError die site retries => Sys2Proof.Machine.execGddr7LinkCrcError die site retries s
  | .ucieCrcError link retries => Sys2Proof.Machine.execUcieCrcError link retries s
  | .pcieLinkFailure => Sys2Proof.Machine.execPcieLinkFailure s
  | .vfResourceAssign vf queues contexts slots => Sys2Proof.Machine.execVfResourceAssign vf queues contexts slots s
  | .mailboxOpcodeUnlisted r op => Sys2Proof.Machine.execMailboxOpcodeUnlisted r op s

end Sys2Proof.Machine
end

