-- ==== Sys2Proof/Machine/Step.lean ====
section
/-! DEFINITION. One step of the part: one agent moves (R11). -/
namespace Sys2Proof.Machine

/-- After an execution the threads of the issue group stand where they go on from, and halts in progress are looked at. -/
def finishTurn (before : State) (i : Instr) : Host.Outcome State Fault Refusal → Host.Outcome State Fault Refusal
  | .next s => .next (s.afterIssue before i).endStep
  | .fault f => .fault f
  | .refused r => .refused r

/-- The same for a step of another unit. -/
def finishEvent : Host.Outcome State Fault Refusal → Host.Outcome State Fault Refusal
  | .next s => .next s.endStep
  | .fault f => .fault f
  | .refused r => .refused r

/-- What one agent does. -/
def act (a : Agent) (s : State) : Host.Outcome State Fault Refusal :=
  match a with
  | .quarter c q =>
    match s.quarterTurn c q with
    | (s, none) => .next s.endStep
    | (s, some i) => finishTurn s i (exec i s)
  | .event i => finishEvent (exec i { s with inputs := s.inputs.erase i })
  | .input =>
    match s.inputs with
    | [] => .next s
    | i :: rest => finishEvent (exec i { s with inputs := rest })
  | .outside =>
    match s.outside with
    | [] => .next s
    | o :: rest => match outsideInstr o with
      | some i => finishEvent (exec i { s with outside := rest })
      | none => .next ({ s with outside := rest }.outsideStep o).endStep

/-- One step: the agent that `turn` names, or a free choice among those who may move. -/
def step (s : State) : Host.Outcome State Fault Refusal :=
  match s.turn with
  | some a => act a { s with turn := none, tick := s.tick + 1 }
  | none =>
    let s' := s.arrive
    let as := s'.agentsNow
    let s'' := { s' with tick := s.tick + 1 }
    match as[Config.pick s.tick % as.length]? with
    | none => .next s''
    | some a => act a s''

/-- See State.placeWord. Every word of this machine has 64 bits. -/
def State.withFetchWord (s : State) (nbits w : Nat) : State := s.placeWord (w % 2 ^ nbits)

end Sys2Proof.Machine
end

