-- ==== Sys2Proof/Safety.lean ====
section
/-! DEFINITION. Safe runs, and the terms in which the statements are made: when an issue group can execute a word, and what a word that
only writes registers leaves. -/
namespace Sys2Proof

/-- A step is safe when the machine goes on. -/
def Safe (s : Machine.State) : Prop := ∃ s', Machine.step s = .next s'

/-- Every step that answers a next state keeps a property. -/
def Kept (p : Machine.State → Prop) : Prop := ∀ s s', p s → Machine.step s = .next s' → p s'

namespace Machine

/-- Every memory of the part is in its one canonical form, and the part has its four dies. -/
def Canonical (s : State) : Prop :=
  s.mem.wf = true ∧ (∀ e ∈ s.wgs, e.2.spad.wf = true ∧ ∀ t ∈ e.2.tiles, t.wf = true) ∧ (∀ d ∈ s.dies, d.bk.wf = true)
    ∧ (∀ e ∈ s.disps, ∀ g, e.2.gfx = some g → ∀ b ∈ g.bks, b.1.wf = true) ∧ s.dies.length = 4

/-- The issue group can execute the word: no thread stands in it twice, the word stands where its kind may stand in a clause (R267), and
every executing thread is there with its N registers, its group with 32 uniform registers, and names no register past N (R13). -/
def Ready (s : State) (i : Instr) : Prop :=
  s.issue.threads.Nodup ∧ s.misplaced i = false ∧ ∀ t ∈ s.executing i, s.regsOk t i = true
    ∧ (∃ x, s.thr t = some x ∧ x.regs.length = s.nregOf t.wg) ∧ ∃ g, s.grp t.group = some g ∧ g.sregs.length = 32

/-- Register k after words were written from operand d on, when d names v-registers. -/
def afterV (d : Opnd) (ws : List Word) (old : Nat → Word) (k : Nat) : Word :=
  match d with
  | .v n => if n.val ≤ k ∧ k < n.val + ws.length then ws.getD (k - n.val) 0 else old k
  | _ => old k

/-- The same for s-registers. -/
def afterS (d : Opnd) (ws : List Word) (old : Nat → Word) (k : Nat) : Word :=
  match d with
  | .s n => if n.val ≤ k ∧ k < n.val + ws.length then ws.getD (k - n.val) 0 else old k
  | _ => old k

/-- Predicate k after some were written. -/
def afterP (ps : List (Nat × Bool)) (old : Bool) (k : Nat) : Bool := (ps.find? (fun p => p.1 == k)).map Prod.snd |>.getD old

/-- The last executing thread of a group, in lane order. -/
def lastOf (s : State) (i : Instr) (g : GroupId) : Option ThreadId := ((s.executing i).filter (fun t => decide (t.group = g))).getLast?

/-- What a word that only writes registers leaves, all of it: each executing thread has the words `ws` from d on (nothing where d is z), the
predicates `ps` and the status bits `fl`, every other register, predicate and status bit as before, and goes on to the next word; an
s-register holds what the last executing thread of its group gives; an issuing thread whose predicate is false goes on to the next
word; every other thread and everything else in the part is unchanged. -/
def LaneWord (s z : State) (i : Instr) (d : Opnd) (ws : ThreadId → List Word) (ps : ThreadId → List (Nat × Bool)) (fl : ThreadId → BitVec 6) :
    Prop :=
  z = { s with threads := z.threads, groups := z.groups }
    ∧ (∀ t ∈ s.executing i, ∀ x, s.thr t = some x → ∃ y, z.thr t = some y
        ∧ { y with regs := x.regs, preds := x.preds, fsr := x.fsr } = x.advance ∧ y.fsr = x.fsr ||| fl t
        ∧ (∀ k, y.regs.getD k 0 = afterV d (ws t) (fun k => x.regs.getD k 0) k)
        ∧ (∀ k < 7, y.preds.getLsbD k = afterP (ps t) (x.preds.getLsbD k) k))
    ∧ (∀ t, t ∉ s.executing i → z.thr t = if t ∈ s.issuing i then (s.thr t).map Thread.advance else s.thr t)
    ∧ (∀ g, s.grp g = none → z.grp g = none)
    ∧ (∀ g x, s.grp g = some x → ∃ y, z.grp g = some y ∧ { y with sregs := x.sregs } = x
        ∧ ∀ k, y.sregs.getD k 0 = (match lastOf s i g with
          | some t => afterS d (ws t) (fun k => x.sregs.getD k 0) k
          | none => x.sregs.getD k 0))

/-- The word completes, writing registers only. -/
def Writes (s : State) (i : Instr) (d : Opnd) (ws : ThreadId → List Word) (ps : ThreadId → List (Nat × Bool) := fun _ => [])
    (fl : ThreadId → BitVec 6 := fun _ => 0) : Prop := ∃ z, exec i s = .next z ∧ LaneWord s z i d ws ps fl

/-- The register words of a typed value (R117, R280). -/
def wordsOf (ty : Ty) (xs : List Nat) : List Word := if ty.wide then [loW (packElems ty xs), hiW (packElems ty xs)] else [loW (packElems ty xs)]

/-- Wherever an issue group can execute an accepted word, it completes and leaves that. -/
def Gives (s : State) (i : Instr) (d : Opnd) (ws : ThreadId → List Word) (ps : ThreadId → List (Nat × Bool) := fun _ => [])
    (fl : ThreadId → BitVec 6 := fun _ => 0) : Prop := i.wf = true → Ready s i → Writes s i d ws ps fl

/-- The same, when d receives the elements of a typed result. -/
def GivesT (s : State) (i : Instr) (ty : Ty) (d : Opnd) (xs : ThreadId → List Nat) : Prop := Gives s i d (fun t => wordsOf ty (xs t))

/-- The same, when d receives floating-point codes and %fsr the union of their flags (R121, R344). -/
def GivesF (s : State) (i : Instr) (ty : Ty) (d : Opnd) (rs : ThreadId → List (Nat × Fl)) : Prop :=
  Gives s i d (fun t => wordsOf ty ((rs t).map Prod.fst)) (fun _ => []) (fun t => (rs t).foldl (fun a r => a ||| r.2) 0)

/-- The same, of a word that executes once for its group when d is an s-register: each thread has what the thread that speaks for it gives (R343). -/
def GivesOnce (s : State) (i : Instr) (ty : Ty) (d : Opnd) (rs : ThreadId → List (Nat × Fl)) : Prop :=
  GivesF s i ty d (fun t => rs (speaks d (s.executing i) t))

/-- Time has passed on the core of the issue group, if it is let pass, and nothing changes but its cycle and event counters (R304, R306). -/
def Elapsed (s u : State) (lets : Bool) : Prop :=
  if lets then ∃ k, u = { s with cores := mput s.cores s.issue.core k, fresh := s.fresh + 1 }
    ∧ k = { s.core s.issue.core with cycle := k.cycle, evcnt := k.evcnt }
  else u = s

/-- The elements of source A of an integer word, and of its second source (B, or IMM8 with CI), negated as NA and NB say (R285). -/
def srcA (s : State) (f : ArithF) (t : ThreadId) : List Nat := negElems f.t f.na (s.rdT t f.t f.a)
def srcB (s : State) (f : ArithF) (t : ThreadId) : List Nat := negElems f.t f.nb (s.rdLast t f.t f.b f.c)

/-- An integer result per element of two sources, as exact integers. -/
def perElem (s : State) (f : ArithF) (op : Int → Int → Int) (t : ThreadId) : List Nat :=
  List.zipWith (fun x y => resElem f.t f.sat (op (elemVal f.t x) (elemVal f.t y))) (srcA s f t) (srcB s f t)

/-- The mask word of a comparison, and the predicate it writes; 7 writes none (R353). -/
def maskWord (c : Bool) : List Word := [if c then 0xFFFFFFFF else 0]
def predOf (p : Fin 8) (c : Bool) : List (Nat × Bool) := if p = 7 then [] else [(p.val, c)]

/-- What traps leave, all of it, in a workgroup w that runs and has no thread in the handler: each failing thread keeps its registers and
has the trap registers of R259, and goes to the handler in system mode if one is registered and the thread is of the first failing
group, else stops where it stands; the threads of `rest` stop unexecuted; the workgroup halts with the first trap recorded (R258,
R260, R263); nothing else changes but its groups' halt counts. -/
def TrapsTaken (s z : State) (w : Nat) (fails : List (ThreadId × TrapInfo)) (rest : List ThreadId) (epc : Thread → DWord) : Prop :=
  z = { s with threads := z.threads, groups := z.groups, wgs := z.wgs, fresh := z.fresh }
    ∧ (∀ f ∈ fails, ∀ x, s.thr f.1 = some x →
        let y := { x with trapcause := BitVec.ofNat 32 (f.2.cause % 256 + 256 * (f.2.info % 256)), epc := epc x, trapaddr := f.2.addr, reserved := none }
        z.thr f.1 = some (if s.handlerOf w ≠ 0 ∧ some f.1.gid = (fails.head?).map (fun g => g.1.gid) then
          { y with sys := true, pc := pcBits (s.handlerOf w), clause := none, wait := .none, trapped := false } else { y with trapped := true }))
    ∧ (∀ t ∈ rest, z.thr t = (s.thr t).map (fun x => { x with stopped := true }))
    ∧ (∀ t, t ∉ fails.map Prod.fst → t ∉ rest → z.thr t = s.thr t)
    ∧ (∀ v, v ≠ w → z.wg v = s.wg v)
    ∧ (∀ x, s.wg w = some x → ∃ r, z.wg w = some { x with halt := .skidding (s.handlerOf w == 0), firstTrap := some r }
        ∧ ∀ f, fails.head? = some f → r.gid = f.1.gid ∧ r.second = 0 ∧ r.cause = f.2.cause % 256 ∧ r.taddr = f.2.addr)

/-- The failing threads of an execution stand in one running workgroup, in user mode. -/
def UserTrap (s : State) (w : Nat) (ts : List ThreadId) : Prop :=
  (∃ x, s.wg w = some x ∧ x.halt = .running) ∧ ∀ t ∈ ts, t.wg = w ∧ ∃ x, s.thr t = some x ∧ x.sys = false

/-- Where every thread stands after a word: the executing threads as `f` says, the other issuing threads at the next word, all others as
they were. -/
def ThreadsGo (s z : State) (i : Instr) (f : ThreadId → Thread → Thread) : Prop := ∀ t,
  z.thr t = if t ∈ s.executing i then (s.thr t).map (f t) else if t ∈ s.issuing i then (s.thr t).map Thread.advance else s.thr t

/-- An issue group that can execute the word, all of whose executing threads are of group g; there is at least one. -/
def ReadyIn (s : State) (i : Instr) (g : GroupId) : Prop := Ready s i ∧ s.executing i ≠ [] ∧ ∀ t ∈ s.executing i, t.group = g

/-- No thread is listed twice, as in every state that a run reaches. -/
def Keyed (s : State) : Prop := (s.threads.map Prod.fst).Nodup

/-- The workgroup's slot is not being pre-empted, and no thread of its cluster waits at a barrier. -/
def Undisturbed (s : State) (w : Nat) : Prop :=
  Keyed s ∧ (∀ x, s.wg w = some x → s.preempting x.disp = false)
    ∧ ∀ t x, s.thr t = some x → t.wg ∈ s.barWgs w .cl → x.exited = false → ∀ l n, x.wait ≠ .bar l n

/-- Some thread of the group, outside the list, still runs. -/
def SomeRuns (s : State) (g : GroupId) (ts : List ThreadId) : Prop :=
  ∃ t x, t.group = g ∧ t ∉ ts ∧ s.thr t = some x ∧ x.exited = false ∧ x.wait = .none

/-- A register target of a branch: a multiple of 8 with bits 63:60 clear (R331). -/
def GoodTarget (a : DWord) : Prop := a.toNat % 8 = 0 ∧ a.toNat < 2 ^ 60

/-- A thread's registers with a pair from d on replaced. -/
def withPair (d : Opnd) (v : DWord) (regs : List Word) : List Word :=
  match d with
  | .v n => (regs.set n.val (loW v)).set (n.val + 1) (hiW v)
  | _ => regs

/-- All that the memory system may change when it moves bytes between its levels: caches, dies, memory, copies on their way, and what it
keeps of lines that are lost or reached through pages of two kinds. -/
def MemoryOnly (s z : State) : Prop :=
  z = { s with cores := z.cores, dies := z.dies, mem := z.mem, lost := z.lost, injMsgs := z.injMsgs, invMsgs := z.invMsgs, kinds := z.kinds, fresh := z.fresh }
    ∧ (s.mem.wf = true → z.mem.wf = true)

/-- The same, and where threads stand. -/
def ThreadsAndMemory (s z : State) : Prop := ∃ u, MemoryOnly s u ∧ z = { u with threads := z.threads }

/-- A bit of a predicate, 0 or 1. -/
def bitN (b : Bool) : Nat := if b then 1 else 0

/-- Where an access of n bytes may go (R59, R202): aligned, inside its space, and no store of a graphics dispatch to its buckets. -/
def Reaches (s : State) (t : ThreadId) (sp : Space) (a : DWord) (n : Nat) (store : Bool) : Prop :=
  a.toNat % n = 0 ∧ (s.place t.wg sp a n).isSome = true ∧ ¬ (sp = .bucket ∧ store = true ∧ s.isGfx t.wg = true)

/-- The address of a load or store (R287): base, scaled index, and the signed offset in units of the access size. -/
def memAddr (s : State) (sp : Space) (a b : Opnd) (idx : BitVec 3) (c : Byte) (sz : Sz) (t : ThreadId) : DWord :=
  (if sp = .global then s.rd64 t a else (s.rd t a).setWidth 64) + ((s.rd t b).setWidth 64 <<< idx.toNat) + BitVec.ofInt 64 (c.toInt * szBytes sz)

/-- The executing threads of a thread's group, and whether a thread is the first of them. -/
def groupOf (s : State) (i : Instr) (t : ThreadId) : List ThreadId := (s.executing i).filter (fun u => u.group == t.group)

/-- The threads that one load is for: the group's for an s-register destination, else its own (R366). -/
def ownersOf (s : State) (i : Instr) (d : Opnd) (t : ThreadId) : List ThreadId := if d.isS then groupOf s i t else [t]

/-- The completion flag a word counts on for a thread: SETA for words that return a value, SETB for the others (R271). -/
def flagA (s : State) (t : ThreadId) : Option Nat := (s.thr t).bind Thread.seta
def flagB (s : State) (t : ThreadId) : Option Nat := (s.thr t).bind Thread.setb

/-- Accesses become pending, from state u on, and are counted on their owners' flags; every executing thread goes on to the next word
and nothing else changes (R270). -/
def Pends (s u z : State) (i : Instr) (as : List Acc) : Prop :=
  z = { u with threads := z.threads, accs := u.accs ++ as.zipIdx.map (fun p => (u.fresh + p.2, p.1)), fresh := u.fresh + as.length }
    ∧ ThreadsGo s z i (fun t x => (x.count ((as.find? (fun a => a.owners.contains t)).bind Acc.flag)).advance)

/-- The word completes, issuing these accesses. -/
def Issues (s : State) (i : Instr) (as : List Acc) : Prop := ∃ z, exec i s = .next z ∧ Pends s s z i as

/-- One read of a watched word by a thread (R412), with the state after it: at its place, or, for a global address, at the level of the
scope, as its translation allows. -/
def watched (s : State) (t : ThreadId) (sc : Scope) (sp : Space) (a : DWord) : Option (State × Nat) :=
  match s.place t.wg sp a 8 with
  | some (.glob va) =>
    match s.xlate (s.coreOf t / 32) (s.ctxOf t.wg) va { r := true } with
    | (u, .ok x) => let r := levelRead sc .sync .normal (s.coreOf t) u x.pa 8 x.attr; some (r.1, leNat r.2)
    | (_, .error _) => none
  | some (.spad w off) => some (s, leNat (s.spadRead w off 8))
  | _ => none

/-- No access that the thread's next one follows, and that may name a byte of the watched word or a page of its region, is pending (R82, R104). -/
def WatchClear (s : State) (t : ThreadId) (sp : Space) (a : DWord) : Prop := ∀ e ∈ s.accs, t ∈ e.2.t :: e.2.owners ∨ (e.2.passed = true ∧ e.2.t.wg = t.wg) →
  ∀ b : Acc, b.op = .store (leBytes 8 0) → b.t = t → b.owners = [t] → b.space = sp → b.va = a → b.size = 8 → s.ordered e.2 b = false

/-- The L1 line holds dirty bytes that a release of the workgroup writes back: its task tag is the workgroup's slot, or 63 (R85). -/
def DirtyFor (s : State) (w : Nat) (l : L1Line) : Prop := l.dirty ≠ 0 ∧ (l.tag = s.tagOf w ∨ l.tag = 63)

/-- The line of an address has not been reached through a C page and through an S page, which would leave its contents open (R69). -/
def OneKind (z : State) (a : Nat) : Prop := mget z.kinds (a / 128) ≠ some (true, true)

/-- No cache that a core of those writes back to memory holds a byte dirty: neither its L1 nor its die's L2. -/
def CleanAt (s : State) (cs : Nat → Prop) (a : Nat) : Prop :=
  ∀ c, cs c → (∀ l ∈ (s.core c).l1, l.line = a / 128 → l.dirty.getLsbD (a % 128) = false)
    ∧ ∀ l, mget (s.die (c / 32)).l2 (a / 128) = some l → l.dirty.getLsbD (a % 128) = false

/-- Memory changed only by bytes that caches of those cores and their dies held dirty. -/
def KeepsBytes (s z : State) (cs : Nat → Prop) : Prop := ∀ a, CleanAt s cs a → OneKind z a → Mem.rd z.mem a = Mem.rd s.mem a

/-- A release of those workgroups on a core at CL or wider has been done (R85): the core's L1 holds no byte dirty for them, and every byte that it did
hold stands in memory, or, where the die's L2 keeps the line for another home, there or in memory. -/
def Released (s z : State) (c : Nat) (ws : Nat → Prop) : Prop :=
  (∀ w, ws w → ∀ l ∈ (z.core c).l1, ¬ DirtyFor s w l)
    ∧ (((s.core c).l1.map L1Line.line).Nodup → ∀ w, ws w → ∀ l ∈ (s.core c).l1, DirtyFor s w l → ∀ k < 128, l.dirty.getLsbD k = true →
        OneKind z (128 * l.line + k) →
        let there := Mem.rd z.mem (128 * l.line + k) = lineGet l.data k
        if heldApart (c / 32) (128 * l.line) l.attr && !inSystem (128 * l.line) then
          c < 128 → there ∨ ∃ y, mget (z.die (c / 32)).l2 l.line = some y ∧ lineGet y.data k = lineGet l.data k
        else (∀ y, mget (s.die (c / 32)).l2 l.line = some y → y.dirty.getLsbD k = false) → there)

/-- The access may be performed now, by its class (R270, R271): it is pending, nothing holds it, and no injected copy of it is on the way. -/
def Due (s : State) (id : Nat) (a : Acc) : Prop :=
  mget s.accs id = some a ∧ s.canPerform id a = true ∧ a.owners.Nodup ∧ ∀ m ∈ s.injMsgs, m.sti ≠ id

/-- The n registers that a loaded value is written to exist (R13). -/
def Fits (s : State) (t : ThreadId) (d : Opnd) (n : Nat) : Prop :=
  (∀ k, d = .v k → ∀ x, s.thr t = some x → k.val + n ≤ x.regs.length) ∧ (∀ k, d = .s k → ∀ g, s.grp t.group = some g → k.val + n ≤ g.sregs.length)

/-- Thread t has the words `ws` from register d on, its own or its group's, and the status bits `fl`; else each thread is as `f` says, and no group
changes. -/
def RegsAfter (s z : State) (t : ThreadId) (d : Opnd) (ws : List Word) (fl : BitVec 6) (f : ThreadId → Thread → Thread) : Prop :=
  (∀ u, s.thr u = none → z.thr u = none)
    ∧ (∀ u x, s.thr u = some x → ∃ y, z.thr u = some y ∧ { y with regs := x.regs, fsr := x.fsr } = f u x
        ∧ y.fsr = (if u = t then x.fsr ||| fl else x.fsr)
        ∧ ∀ k, y.regs.getD k 0 = if u = t then afterV d ws (fun k => x.regs.getD k 0) k else x.regs.getD k 0)
    ∧ (∀ g, s.grp g = none → z.grp g = none)
    ∧ (∀ g x, s.grp g = some x → ∃ y, z.grp g = some y ∧ { y with sregs := x.sregs } = x
        ∧ ∀ k, y.sregs.getD k 0 = if g = t.group then afterS d ws (fun k => x.sregs.getD k 0) k else x.sregs.getD k 0)

/-- The access is complete: it is pending no longer and its owners' flag counts it no more; thread a.t (or its group) has the words `ws` from
register d on and the status bits `fl`, and nothing else changes (R270). -/
def Completes (s z : State) (id : Nat) (a : Acc) (d : Opnd) (ws : List Word) (fl : BitVec 6 := 0) : Prop :=
  z = { s with threads := z.threads, groups := z.groups, accs := mdel s.accs id }
    ∧ RegsAfter s z a.t d ws fl (fun t x => if t ∈ a.owners then x.uncount a.flag else x)

/-- The part b of an access has been performed. When nothing remains of the access, it is complete; else what remains, `rest`, is pending in its
place and its flag still counts it (R83). -/
def Performed (s z : State) (id : Nat) (b : Acc) (rest : Option Acc) (d : Opnd) (ws : List Word) : Prop :=
  match rest with
  | none => Completes s z id b d ws
  | some r => z = { s with threads := z.threads, groups := z.groups, accs := mupd s.accs id (fun _ => r) } ∧ RegsAfter s z b.t d ws 0 (fun _ x => x)

/-- The lanes of an access are complete: each thread has the words and the status bits that `out` gives it, from register d on, and nothing else
changes. -/
def LanesComplete (s z : State) (id : Nat) (a : Acc) (d : Opnd) (out : List (ThreadId × List Word × BitVec 6)) : Prop :=
  z = { s with threads := z.threads, accs := mdel s.accs id }
    ∧ (∀ t, s.thr t = none → z.thr t = none)
    ∧ ∀ t x, s.thr t = some x → ∃ y, z.thr t = some y
        ∧ { y with regs := x.regs, fsr := x.fsr } = (if t ∈ a.owners then x.uncount a.flag else x)
        ∧ y.fsr = x.fsr ||| ((mget out t).map Prod.snd).getD 0
        ∧ ∀ k, y.regs.getD k 0 = afterV d (((mget out t).map Prod.fst).getD []) (fun k => x.regs.getD k 0) k

/-- The register words of a loaded value: sign- or zero-extended below 32 bits, else its words, lowest first (R366, R117). -/
def loadWords (sz : Sz) (sx : Bool) (bs : List Byte) : List Word :=
  match sz with
  | .b8 => [if sx then (BitVec.ofNat 8 (leNat bs)).signExtend 32 else BitVec.ofNat 32 (leNat bs)]
  | .b16 => [if sx then (BitVec.ofNat 16 (leNat bs)).signExtend 32 else BitVec.ofNat 32 (leNat bs)]
  | _ => (List.range (bs.length / 4)).map (fun k => BitVec.ofNat 32 (leNat ((bs.drop (4 * k)).take 4)))

/-- Byte k of bytes placed from an address on, over what stood there. -/
def placed (pa : Nat) (bs : List Byte) (old : Nat → Byte) (k : Nat) : Byte := if pa ≤ k ∧ k < pa + bs.length then bs.getD (k - pa) 0 else old k

/-- Bytes placed one after another. -/
def placedAll (ps : List (Nat × List Byte)) (old : Nat → Byte) : Nat → Byte := ps.foldl (fun m p => placed p.1 p.2 m) old

/-- The value of n bytes of a memory m, lowest first. -/
def valueAt (m : Nat → Byte) (a n : Nat) : Nat := leNat ((List.range n).map (fun k => m (a + k)))

/-- Reads, modifications and writes in lane order, each of n bytes at an address: what is left in memory, and what each read (R316). -/
def inOrder (n : Nat) (new : AtLane → Nat → Nat) : (Nat → Byte) → List (AtLane × Nat) → (Nat → Byte) × List (AtLane × Nat)
  | m, [] => (m, [])
  | m, (l, pa) :: ls =>
    let old := valueAt m pa n
    let r := inOrder n new (placed pa (leBytes n (new l old)) m) ls
    (r.1, (l, old) :: r.2)

/-- No cache that the core writes back holds a byte of those lines dirty. -/
def CleanLine (s : State) (c : Nat) (pa : Nat) : Prop := ∀ k < 128, CleanAt s (fun d => d = c) (pa / 128 * 128 + k)

/-- The part has stored bytes at a physical address, and nothing else in memory changed. -/
def Stored (u z : State) (pa : Nat) (bs : List Byte) : Prop := MemoryOnly u z ∧ ∀ k, Mem.rd z.mem k = placed pa bs (Mem.rd u.mem) k

/-- The mailbox takes the request (R300): its completion word may be written, the opcode is open to its function, and its reserved bytes are
zero. -/
def Accepts (s : State) (r : MailReq) (pfOnly : Bool) : Prop :=
  r.fn ≤ 16 ∧ r.cw.toNat % 8 = 0 ∧ inMap r.cw.toNat = true ∧ s.boot.verified = true ∧ (pfOnly = true → r.fn = 0) ∧ r.bad = false

/-- The request completes: its effects give state u, and then its completion word holds v (R300). -/
def Answers (i : Instr) (s u : State) (r : MailReq) (v : Nat) : Prop := ∃ z, exec i s = .next z ∧ Stored u z r.cw.toNat (leBytes 8 v)

/-- A buffer of n bytes that a request may name: aligned, in device memory or in the system range (R422). -/
def GoodBuffer (a : DWord) (n align : Nat) : Prop := a.toNat % align = 0 ∧ inMap a.toNat = true ∧ inMap (a.toNat + n - 1) = true

/-- A scratchpad operand of the matrix engine (R146, R147): its pitch fits the rows, and every byte of them lies in the cluster space. -/
def RowsReach (s : State) (w : Nat) (base pitch : Word) (slabs rows size : Nat) : Prop :=
  pitchRow pitch % 16 = 0 ∧ size ≤ pitchRow pitch
    ∧ ∀ j < slabs, ∀ i < rows, ∀ x < size, (s.clPlace w (rowAddr base pitch j i x)).isSome = true

/-- The conditions of R144 to R148 and R159 under which an MMA of a group appends its command. -/
def MmaMayIssue (s : State) (f : OwnF) (g : GroupId) (t : ThreadId) : Prop :=
  let a := (s.rd t f.a).toNat
  let b := s.spadRead g.wg a 64
  let m := mxBlockOf b
  (((s.lrOf g.wg).map (fun lr => lr.batonSel != 0)).getD false = true → s.holdsBaton g = true)
    ∧ a % 64 = 0 ∧ a + 64 ≤ s.spbOf g.wg ∧ mxBlockOk b (s.accwOf g.wg) (s.spbOf g.wg) = true ∧ f.b.isZ = false
    ∧ (m.bk = 0 → f.d.isZ = false ∧ f.c.isZ = true ∧ s.widthOf t = 64)
    ∧ (m.bk ≠ 0 → f.d.isZ = true ∧ f.c.isZ = false ∧ RowsReach s g.wg (s.rdK t f.c 0) (s.rdK t f.c 1) m.kblk m.cols (bRowSize m.bk))
    ∧ (m.ak ≠ 0 → RowsReach s g.wg (s.rdK t f.b 0) (s.rdK t f.b 1) m.aSlabs m.rows (aRowSize m.ak))

/-- The FP32 code of cell (i, n) of a tile, row i and column n (R154). -/
def cellOf (m : Mem) (i n : Nat) : Nat := leNat (Mem.rdN m (512 * i + 4 * n) 4)

/-- Two states of a core that differ at most in its kiln lease. -/
def SameButLease (a b : Core) : Prop := { a with lease := b.lease, leaseC := b.leaseC } = b

/-- The completion word of an engine command is written, as a release: nothing where its scope is 0, else SEQ at its place (R53, R101). -/
def Signals (s z : State) (d ctx : Nat) (w : Option Nat) (cluster : Bool) (cw seq : DWord) (scope : Nat) : Prop :=
  (scope = 0 → z = s)
    ∧ (scope ≠ 0 → cluster = true → ∃ u q o, MemoryOnly s u ∧ w.bind (fun w => s.place w .cluster cw 8) = some (.spad q o)
        ∧ z = u.spadWrite q o (leBytes 8 seq.toNat))
    ∧ (scope ≠ 0 → cluster = false → MemoryOnly s z ∧ ∀ x, (s.xlate d ctx (cw.toNat % 2 ^ 60) { w := true }).2 = .ok x → x.attr.s = false →
        ∀ k < 8, Mem.rd z.mem (x.pa + k) = BitVec.ofNat 8 (seq.toNat / 256 ^ k))

/-- Reads of the addresses A are served with bytes m, in whatever order they come: the states that they pass through hold the same memory. -/
def Served (s : State) (rd : Rd) (m : Nat → Byte) (A : Nat → Prop) (I : State → Prop) : Prop :=
  I s ∧ ∀ v, I v → MemoryOnly s v ∧ v.mem = s.mem
    ∧ ∀ va n, 0 < n → (∀ k < n, A (va + k) ∧ va + k < 2 ^ 60 ∧ (va + k) / 16 = va / 16) →
        ∃ v', rd va n v = (v', .ok ((List.range n).map (fun k => m (va + k)))) ∧ I v'

/-- Bytes served from an address on. -/
def bytesAt (m : Nat → Byte) (va n : Nat) : List Byte := (List.range n).map (fun k => m (va + k))

/-- A block of a plane tensor whose bytes are m, read at k planes (R133, R136, R137). -/
def blockOf (m : Nat → Byte) (h : Handle) (k : Nat) (rnd : Bool) (b : Nat) : MxVec :=
  let e := (m (h.expAddr b)).toNat
  ⟨e, (List.range 16).map (mantRnd k h.pcnt e rnd ((List.range (planesRead k h.pcnt rnd)).map (fun j => leNat (bytesAt m (h.planeAddr b j) 2)))), 0⟩

/-- The cord that a participant sends to a rank (R187, R189). -/
def cordOf (m : Coll) (t : List Byte) (rank k phase : Nat) (v : CordVal) : Cord :=
  let p := fld t (8 + rank) 1
  { toPkg := p / 32, toDie := p % 4
    header := leBytes 4 m.cid ++ leBytes 4 k ++ leBytes 1 m.rank ++ leBytes 1 v.p ++ leBytes 1 phase ++ leBytes 1 m.cop ++ leBytes 4 m.nelem ++ sha3_256 t ++ List.replicate 16 0
    body := v.payload }

/-- The elements of cord k in a buffer whose bytes are m; those at NELEM or above are zero (R189). -/
def cordElems (c : Coll) (m : Nat → Byte) (base k : Nat) : List Nat :=
  (List.range 1024).map (fun i => if 1024 * k + i < c.nelem then leNat (bytesAt m (base + 4 * (1024 * k + i)) 4) else 0)

/-- A command of a die's engine completes: its completion word is written, HEAD moves past its entry, and its chain has no command taken. -/
def CommandEnds (s : State) (i : Instr) (e : EngRef) (h : Chain) (n : Nat) (owner : Option Nat) (cluster : Bool) (cw seq : DWord) (scope : Nat) (late : Bool) : Prop :=
  ∀ u v, s.storeDone e.die h.ctx owner cluster cw seq scope late = (u, .ok ()) → u.descPut e.die h.ctx (h.desc.toNat + 32) (n + 1) = (v, .ok ()) →
    ∃ z, exec i s = .next z ∧ Signals s u e.die h.ctx owner cluster cw seq scope ∧ MemoryOnly u v ∧ z = { v with dies := z.dies }
      ∧ z.chainsOf e = (s.chainsOf e).map (fun y => if y.is h.desc h.ctx then
          { y with cur := none, coll := [], part := [], fault := false, pubs := y.pubs.filter (fun p => n + 1 < p.1) } else y)

/-- What a die d takes by the rule of R229: list e, from its front or its back, and the bucket k of it. -/
def TakenBy (nbx nby : Nat) (heads tails : List Nat) (d e : Nat) (front : Bool) (b : Nat) : Prop :=
  let len := fun e => (homeList nbx nby e).length
  let more := fun e => heads.getD e 0 + tails.getD e 0 < len e
  let back := fun e => front = false ∧ (homeList nbx nby e)[len e - 1 - tails.getD e 0]? = some b
  (e = d ∧ more d ∧ front = true ∧ (homeList nbx nby d)[heads.getD d 0]? = some b)
    ∨ (¬ more d ∧ e = (d + 1) % 4 ∧ more e ∧ back e) ∨ (¬ more d ∧ ¬ more ((d + 1) % 4) ∧ e = (d + 3) % 4 ∧ more e ∧ back e)

/-- No list that die d may take from has a bucket left. -/
def NoneLeft (nbx nby : Nat) (heads tails : List Nat) (d : Nat) : Prop :=
  ∀ e ∈ [d, (d + 1) % 4, (d + 3) % 4], (homeList nbx nby e).length ≤ heads.getD e 0 + tails.getD e 0

/-- The next command of a queue may start (R236): it is announced, its queue is bound and without error, its predecessor has ended unless it may
overlap it, and it is none of R237's fates; u is the state once its 64 bytes b are read. -/
def CommandDue (s : State) (q : Nat) (k : Queue) (u : State) (b : List Byte) : Prop :=
  s.queue q = some k ∧ s.mayStart q k = true ∧ k.head.toNat < k.tail.toNat
    ∧ rdBytes (hubRead k.ctx) (k.ring.toNat + 64 * (k.head.toNat % 2 ^ k.lsize)) 64 s = (u, .ok b)
    ∧ ((fld b 1 1).testBit 0 = true ∨ ∀ r ∈ k.running, r.idx + 1 ≠ k.head.toNat) ∧ qcmdOk b = true

/-- HEAD counts one more command started, in the queue and in its descriptor (R235, R236); commands `run` go on running. -/
def HeadMoves (u z : State) (q : Nat) (k : Queue) (run : List RunCmd) : Prop :=
  (∃ y, MemoryOnly u y ∧ z = { y with queues := z.queues }) ∧ z.queue q = some { k with head := k.head + 1, running := k.running ++ run }
    ∧ (∀ p, p ≠ q → z.queue p = u.queue p)
    ∧ (inMap (k.desc.toNat + 32) = true → ∀ a, Mem.rd z.mem a = placed (k.desc.toNat + 32) (leBytes 8 (k.head + 1).toNat) (Mem.rd u.mem) a)

/-- A command of a queue has ended; a completion of that scope, and all those before it, order what follows: at the strongest scope of them, DIE at
least, and DEV where there is no word (R81, R93). -/
def CommandGone (u z : State) (q idx : Nat) (scope : Option Nat) : Prop :=
  z.queue q = (u.queue q).map (fun k => { k with
      running := k.running.filter (fun r => r.idx != idx)
      lastScope := scope.elim k.lastScope (fun n => some (max (k.lastScope.getD 0) (if n = 0 then 5 else max n 4))) })
    ∧ ∀ p, p ≠ q → z.queue p = u.queue p

/-- No slot is to be released now: a bound slot has a queue with work, and its save is not asked for (R240, R249). -/
def SlotsKept (s : State) : Prop := ∀ n q, (s.slot n).queue = some q → ∃ k, s.queue q = some k ∧ k.hasWork = true ∧ (s.slot n).asked = false

/-- At its turn a quarter comes to entry e: it is not frozen, no thread of it stands at a header, e is the oldest of its entries and holds
threads that may go on, and the word at the entry's PC is w. The fetch leaves u (R17, R246, R265). -/
def Fetches (s : State) (c q : Nat) (e : PcEntry) (w : DWord) (u : State) : Prop :=
  (s.core c).frozen.getD q none = none ∧ s.headerGroup c q = [] ∧ (∃ es, s.byAge c q = e :: es) ∧ s.candidates c e ≠ []
    ∧ s.fetchWord c e.ctx e.pc = (u, .word w)

/-- The state in which the agent that `turn` names moves. -/
def Moving (s : State) : State := { s with turn := none, tick := s.tick + 1 }

/-- The state in which a quarter chooses: the groups of threads that a page fault stops before a clause are marked (R256). -/
def Standing (s : State) (c q : Nat) : State := (Moving s).markHeld ((Moving s).waitStops c q)

/-- A quarter that moves in s finds, in state m, that a page fault stops thread t: before its clause, or at the word its entry fetches (R256). -/
def Stops (s : State) (c q : Nat) (t : ThreadId) (m : State) : Prop :=
  ((Moving s).core c).frozen.getD q none = none
    ∧ ((m = Moving s ∧ (Moving s).waitStops c q = [t])
      ∨ (Moving s).waitStops c q = [] ∧ ∃ e w i, Fetches (Moving s) c q e w m ∧ decode w = .ok i ∧ (∀ h, i ≠ .clauseStart h)
          ∧ (Moving s).candidates c e = [t] ∧ m.unheld i t = false)

end Machine
end Sys2Proof
end

