-- ==== Sys2Proof/Certificates/Slice0/Obligations.lean ====
section
/-! DEFINITION. The statements about the model. -/
open Sys2Proof Sys2Proof.Machine

/-- R358, R359, R361, R362: the results of the integer arithmetic words, for every type, immediate and negation they accept. R359: a
result without SAT is the exact result modulo 2^n, and with SAT the exact result clamped to the range of the element type; so the
absolute value of the most negative number stays unchanged, or becomes the largest. -/
def Obligations.IntegerResults : Prop :=
  (∀ (s : State) (f : ArithF),
  GivesT s (.iadd f) f.t f.d (perElem s f (fun x y => x + y))
  ∧ GivesT s (.isub f) f.t f.d (perElem s f (fun x y => x - y))
  ∧ GivesT s (.imul f) f.t f.d (perElem s f (fun x y => x * y))
  ∧ GivesT s (.imulhi f) f.t f.d (perElem s f (fun x y => x * y / (2 ^ tyBits f.t : Nat)))
  ∧ GivesT s (.imin f) f.t f.d (perElem s f (fun x y => if x ≤ y then x else y))
  ∧ GivesT s (.imax f) f.t f.d (perElem s f (fun x y => if x ≤ y then y else x))
  ∧ GivesT s (.iabs f) f.t f.d (fun t => (srcA s f t).map (fun x =>
      resElem f.t f.sat (if elemVal f.t x < 0 then - elemVal f.t x else elemVal f.t x)))
  ∧ GivesT s (.imad f) f.t f.d (fun t => List.zipWith (fun (ab : Nat × Nat) c =>
      resElem f.t f.sat (elemVal f.t ab.1 * elemVal f.t ab.2 + elemVal f.t c))
      ((srcA s f t).zip (negElems f.t f.nb (s.rdT t f.t f.b))) (s.rdLast t f.t f.c.opnd f.c))
  ∧ GivesT s (.imadw f) (if f.t = .i32 then .i64 else .u64) f.d (fun t =>
      let ty : Ty := if f.t = .i32 then .i64 else .u64
      [resElem ty f.sat (elemVal f.t ((srcA s f t).headD 0) * elemVal f.t ((negElems f.t f.nb (s.rdT t f.t f.b)).headD 0)
        + elemVal ty (match f.c with | .imm b => b.signExtend 64 | .op o => s.rd64 t o : DWord).toNat)])
  ∧ GivesT s (.idot4 f) (if f.t = .i8x4 then .i32 else .u32) f.d (fun t =>
      let ty : Ty := if f.t = .i8x4 then .i32 else .u32
      let a := (elems f.t ((s.rd t f.a).setWidth 64)).map (elemVal f.t)
      let b := (elems f.t ((s.rd t f.b).setWidth 64)).map (elemVal (if f.sub = 1 then .u8x4 else f.t))
      let c : Int := elemVal ty (match f.c with | .imm k => k.signExtend 32 | .op o => s.rd t o : Word).toNat
      [resElem ty f.sat (c + (List.zipWith (fun x y => x * y) a b).sum)]))
  ∧ (∀ (ty : Ty) (x : Int), ty ∈ elemTs →
  let n := tyBits ty
  let lo : Int := if tySigned ty then -(2 ^ (n - 1) : Nat) else 0
  let hi : Int := if tySigned ty then (2 ^ (n - 1) : Nat) - 1 else (2 ^ n : Nat) - 1
  resElem ty false x < 2 ^ n ∧ ((resElem ty false x : Int) - x) % (2 ^ n : Nat) = 0
    ∧ lo ≤ elemVal ty (resElem ty true x) ∧ elemVal ty (resElem ty true x) ≤ hi
    ∧ (x < lo → elemVal ty (resElem ty true x) = lo) ∧ (hi < x → elemVal ty (resElem ty true x) = hi)
    ∧ (lo ≤ x → x ≤ hi → elemVal ty (resElem ty true x) = x ∧ elemVal ty (resElem ty false x) = x)
    ∧ (tySigned ty → elemVal ty (resElem ty false (-lo)) = lo ∧ elemVal ty (resElem ty true (-lo)) = hi))

/-- R360: the sum or difference with carry, and the predicate of its carry or borrow. R353, R370, R373, R398: address sums,
selection, integer comparison and moves. R379, R380: PLOP gives bit 4a + 2b + c of its table; PMOV reads p0 to p6 with bit 7 set, and
writes those that its mask names. -/
def Obligations.CarryMoveAndPredicateResults : Prop :=
  (∀ (s : State) (f : ArithF),
  let cin := fun t => if f.hi3 = 7 then 0 else bitN (s.pred t f.hi3.val)
  let b := fun t => (match f.c with | .imm k => k.signExtend 32 | .op _ => s.rd t f.b : Word)
  Gives s (.iaddx f) f.d (fun t => [s.rd t f.a + b t + BitVec.ofNat 32 (cin t)])
      (fun t => predOf f.lo3 (decide (2 ^ 32 ≤ (s.rd t f.a).toNat + (b t).toNat + cin t)))
  ∧ Gives s (.isubx f) f.d (fun t => [s.rd t f.a - b t - BitVec.ofNat 32 (cin t)])
      (fun t => predOf f.lo3 (decide ((s.rd t f.a).toNat < (b t).toNat + cin t))))
  ∧ (∀ (s : State) (f : ArithF),
  let c := fun t => (match f.c with | .imm k => k.signExtend 32 | .op o => s.rd t o : Word)
  Gives s (.lea f) f.d (fun t => [s.rd t f.a + (s.rd t f.b <<< f.lo3.val) + c t])
  ∧ Gives s (.lea64 f) f.d (fun t =>
      let x : DWord := if f.sub.getLsbD 3 then (s.rd t f.b).signExtend 64 else (s.rd t f.b).setWidth 64
      let r := s.rd64 t f.a + (x <<< f.lo3.val) + (c t).signExtend 64
      [loW r, hiW r])
  ∧ GivesT s (.sel f) f.t f.d (fun t =>
      if s.pred t f.lo3.val = !f.sub.getLsbD 3 then s.rdT t f.t f.a else s.rdLast t f.t f.b f.c)
  ∧ (let cmp := fun t =>
        let x := elemVal f.t ((srcA s f t).headD 0)
        let y := elemVal f.t ((srcB s f t).headD 0)
        match f.hi3.val with
        | 0 => decide (x = y)
        | 1 => decide (x ≠ y)
        | 2 => decide (x < y)
        | 3 => decide (x ≤ y)
        | 4 => decide (x > y)
        | _ => decide (x ≥ y)
    Gives s (.iset f) f.d (fun t => maskWord (cmp t)) (fun t => predOf f.lo3 (cmp t)))
  ∧ GivesT s (.mov f) f.t f.d (fun t => s.rdT t f.t f.a)
  ∧ (∀ g d imm, Gives s (.movi g d imm) d (fun _ => [imm])))
  ∧ (∀ (s : State) (f : OwnF),
  (∀ lut pd pa pb pc, Gives s (.plop f lut pd pa pb pc) .z (fun _ => []) (fun t =>
      predOf pd (lut.getLsbD (4 * bitN (s.pred t pa.val) + 2 * bitN (s.pred t pb.val) + bitN (s.pred t pc.val)))))
  ∧ Gives s (.pmov f) f.d (fun t => [BitVec.ofNat 32 (128 + (List.range 7).foldr (fun k n => bitN (s.pred t k) * 2 ^ k + n) 0)])
  ∧ (∀ mask, Gives s (.pmovSet f mask) .z (fun _ => []) (fun t =>
      ((List.range 7).filter (fun k => mask.getLsbD k)).map (fun k => (k, (s.rd t f.a).getLsbD k)))))

/-- R320, R376, R397, R327, R328, R332, R381: bitwise words, shifts by any count, bit fields, counts and reversal. A shift of the width or
more gives zero, or the sign for SAR; ROTL turns by the count modulo the width. -/
def Obligations.BitResults : Prop := ∀ (s : State) (f : ArithF),
  let w := tyBits f.t
  let x := fun t => (s.rdT t f.t f.a).headD 0
  let y := fun t => (s.rdLast t f.t f.b f.c).headD 0
  let n := fun t => (match f.c with | .imm k => k.signExtend 32 | .op _ => s.rd t f.b : Word).toNat
  let pos := fun t => min ((s.rd t f.b).toNat % 256) w
  let len := fun t => min ((match f.c with | .imm k => k.signExtend 32 | .op o => s.rd t o : Word).toNat % 256) (w - pos t)
  GivesT s (.and f) f.t f.d (fun t => [x t &&& y t])
  ∧ GivesT s (.or f) f.t f.d (fun t => [x t ||| y t])
  ∧ GivesT s (.xor f) f.t f.d (fun t => [x t ^^^ y t])
  ∧ GivesT s (.shl f) f.t f.d (fun t => [if w ≤ n t then 0 else x t * 2 ^ n t % 2 ^ w])
  ∧ GivesT s (.shr f) f.t f.d (fun t => [if w ≤ n t then 0 else x t / 2 ^ n t])
  ∧ GivesT s (.sar f) f.t f.d (fun t => [(sgn w (x t) / (2 ^ min (n t) w : Nat) % (2 ^ w : Nat)).toNat])
  ∧ GivesT s (.rotl f) f.t f.d (fun t => [(x t * 2 ^ (n t % w) + x t / 2 ^ (w - n t % w)) % 2 ^ w])
  ∧ GivesT s (.bfe f) f.t f.d (fun t =>
      let v := x t / 2 ^ pos t % 2 ^ len t
      [if tySigned f.t ∧ 0 < len t then (sgn (len t) v % (2 ^ w : Nat)).toNat else v])
  ∧ GivesT s (.bfi f) f.t f.d (fun t =>
      let c := (match f.c with | .imm k => k.signExtend 32 | .op o => s.rd t o : Word).toNat
      let p := min (c % 256) w
      let l := min (c / 256 % 256) (w - p)
      [x t % 2 ^ p + (s.rdT t f.t f.b).headD 0 % 2 ^ l * 2 ^ p + x t / 2 ^ (p + l) * 2 ^ (p + l)])
  ∧ Gives s (.popc f) f.d (fun t => [BitVec.ofNat 32 ((List.range w).countP (fun i => (x t).testBit i))])
  ∧ Gives s (.clz f) f.d (fun t => [BitVec.ofNat 32 (if x t = 0 then w else w - 1 - (x t).log2)])
  ∧ GivesT s (.brev f) f.t f.d (fun t => [(List.range w).foldl (fun acc i => 2 * acc + bitN ((x t).testBit i)) 0])

/-- R344, R346, R353: the floating-point and packed sums, products, fused products, minima and maxima, rounded once per element by the
word's own RM and SAT, and FSET's comparison, with the flags of each. R343: a word with an s-register destination executes once for its group,
and its flags and predicate are set in every executing thread; the %fcr is that of one lane (log 59: the highest). -/
def Obligations.FloatResults : Prop := ∀ (s : State) (f : ArithF),
  let g := fmtOf f.t
  let a := fun t => s.rdF t f.t f.na f.a
  let b := fun t => s.rdF t f.t f.nb f.b
  let c := fun t => s.rdF t f.t (f.sub.getLsbD 5) f.c.opnd
  let rnd := fun t r => roundRes g (s.ftz t) f.rm f.sat r
  let two := fun (op : Val → Val → Val × Fl) t => List.zipWith (fun x y => rnd t (op (decodeF g x) (decodeF g y))) (a t) (b t)
  let fma := fun t => List.zipWith (fun (xy : Nat × Nat) z =>
    rnd t (fmaV f.rm (decodeF g xy.1) (decodeF g xy.2) (decodeF g z))) ((a t).zip (b t)) (c t)
  GivesOnce s (.fadd f) f.t f.d (two (addV f.rm))
  ∧ GivesOnce s (.fmul f) f.t f.d (two mulV)
  ∧ GivesOnce s (.ffma f) f.t f.d fma
  ∧ GivesOnce s (.fmin f) f.t f.d (fun t => List.zipWith (minMaxF g false) (a t) (b t))
  ∧ GivesOnce s (.fmax f) f.t f.d (fun t => List.zipWith (minMaxF g true) (a t) (b t))
  ∧ GivesOnce s (.fpadd f) f.t f.d (two (addV f.rm))
  ∧ GivesOnce s (.fpmul f) f.t f.d (two mulV)
  ∧ GivesOnce s (.fpmad f) f.t f.d fma
  ∧ (let x := fun t => decodeF fp32 ((s.rdF t .f32 f.na f.a).headD 0)
     let y := fun t => decodeF fp32 ((s.rdF t .f32 f.nb f.b).headD 0)
     let cmp := fun t => fcmp f.hi3.val (x t) (y t)
     let v := speaks f.d (s.executing (.fset f))
     Gives s (.fset f) f.d (fun t => maskWord (cmp (v t))) (fun t => predOf f.lo3 (cmp (v t))) (fun t =>
       if (x (v t)).isSig ∨ (y (v t)).isSig ∨ (2 ≤ f.hi3.val ∧ f.hi3.val ≤ 5 ∧ ((x (v t)).isNan ∨ (y (v t)).isNan)) then flNV else 0))

/-- R345, R347 to R350, R352: the special functions, rounding, fraction, class and conversions, with their flags. R343: a word with an s-register
destination executes once for its group, with the %fcr of one lane (log 59: the highest). -/
def Obligations.FunctionResults : Prop := ∀ (s : State) (f : ArithF),
  let a := fun t => s.rdF t .f32 f.na f.a
  let fn := fun (op : Val → Val × Fl) t => (a t).map (fun x => roundRes fp32 (s.ftz t) f.rm f.sat (op (decodeF fp32 x)))
  GivesOnce s (.fdiv f) f.t f.d (fun t => List.zipWith (fun x y =>
      roundRes fp32 (s.ftz t) f.rm f.sat (divV (decodeF fp32 x) (decodeF fp32 y))) (a t) (s.rdF t .f32 f.nb f.b))
  ∧ GivesOnce s (.frcp f) .f32 f.d (fn (divV (.fin false 1 0)))
  ∧ GivesOnce s (.frsq f) .f32 f.d (fn rsqrtV)
  ∧ GivesOnce s (.fsqrt f) .f32 f.d (fn sqrtV)
  ∧ GivesOnce s (.fexp2 f) .f32 f.d (fn exp2V)
  ∧ GivesOnce s (.flog2 f) .f32 f.d (fn lg2V)
  ∧ GivesOnce s (.fsinp f) .f32 f.d (fn sinpV)
  ∧ GivesOnce s (.fcosp f) .f32 f.d (fn cospV)
  ∧ GivesOnce s (.frnd f) .f32 f.d (fun t => (a t).map (fun x => frndVal f.rm (decodeF fp32 x)))
  ∧ GivesOnce s (.ffrac f) .f32 f.d (fn ffracVal)
  ∧ Gives s (.fclass f) f.d (fun t => [1 <<< fclassBit (s.rd t f.a).toNat])
  ∧ (let r := fun t => f2iVal f.t f.rm (decodeF fp32 ((a t).headD 0))
     let v := speaks f.d (s.executing (.f2i f))
     Gives s (.f2i f) f.d (fun t => wordsOf f.t [(r (v t)).1]) (fun _ => []) (fun t => (r (v t)).2))
  ∧ GivesF s (.i2f f) .f32 f.d (fun t => [encode fp32 (Val.ofInt (elemVal f.t ((srcA s f t).headD 0))) f.rm false])
  ∧ (let src := cvtFmt f.lo3.val
     let dst := cvtFmt f.hi3.val
     let ftz := fun t => s.ftz t && (src.map Fmt.width).getD 8 != 8 && (dst.map Fmt.width).getD 8 != 8
     let x := fun t => match src with
       | some g => decodeF g (flush g (ftz t) ((s.rd t f.a).toNat % 2 ^ g.width))
       | none => ofE8M0 ((s.rd t f.a).toNat % 256)
     let r := fun t => match dst with
       | some g => dstCode g (ftz t) (encode g (x t) f.rm f.sat)
       | none => toE8M0 (x t) f.rm
     let v := speaks f.d (s.executing (.fcvt f))
     Gives s (.fcvt f) f.d (fun t => [BitVec.ofNat 32 (r (v t)).1]) (fun _ => []) (fun t => (r (v t)).2))

/-- R336, R337, R384 to R386, R389: the narrow words. A scale byte is read in the first lane of the thread's run of eight lanes (E4M3,
E5M2) or four (BFP8, ternary); DQ words give the four or five elements as FP32, QC words four codes in the bytes of one register, QSCL
one scale byte in place, and QD words the block's exact sum of products, scaled and added to d with one rounding. -/
def Obligations.NarrowResults : Prop := ∀ (s : State) (f : ArithF),
  let bs := (f.sub.extractLsb' 0 2).toNat
  let union := fun (fs : List Fl) => fs.foldl (fun a x => a ||| x) 0
  let dq := fun (i : Instr) (fm : EFmt) n =>
    let rs := fun t => (List.range 4).map (fun k => dequantElem fm (byteCode fm (byteOf (s.rd t f.a) k)) (s.scaleByte t n f.b 0 bs))
    Gives s i f.d (fun t => (rs t).map Prod.fst) (fun _ => []) (fun t => union ((rs t).map Prod.snd))
  let qc := fun (i : Instr) (fm : EFmt) n =>
    let rs := fun t => (List.range 4).map (fun k =>
      quantElem fm (decodeF fp32 (s.rdK t f.a k).toNat) (s.scaleByte t n f.b 0 bs) f.rm f.sat)
    Gives s i f.d (fun t => [BitVec.ofNat 32 (leNat ((rs t).map (fun r => BitVec.ofInt 8 r.1)))]) (fun _ => [])
      (fun t => union ((rs t).map Prod.snd))
  let block := fun (i : Instr) n t =>
    (s.executing i).filter (fun u => u.group == t.group && s.scaleThread u n == s.scaleThread t n)
  let qd := fun (i : Instr) (fm : EFmt) n =>
    let sum := fun t => s.dotBlock fm f (block i n t)
    let ea := fun t => s.scaleByte t n f.c.opnd 0 bs
    let eb := fun t => s.scaleByte t n f.c.opnd 1 bs
    let prod := fun t =>
      let v := if ea t = 255 ∨ eb t = 255 then Val.canon else (sum t).1.scale ((ea t : Int) + eb t - 254)
      if v.isZero then Val.zero else v
    let r := fun t => addV f.rm (decodeF fp32 (s.rd t f.d).toNat) (prod t)
    let c := fun t => encode fp32 (r t).1 f.rm f.sat
    Gives s i f.d (fun t => [BitVec.ofNat 32 (c t).1]) (fun _ => []) (fun t => (sum t).2 ||| (r t).2 ||| (c t).2)
  dq (.dqe4 f) (.flt e4m3) 8 ∧ dq (.dqe5 f) (.flt e5m2) 8 ∧ dq (.dqb f) (.bfp 8) 4
  ∧ (let digits := fun t => ternDigits (byteOf (s.rd t f.a) (f.sub.extractLsb' 2 3).toNat)
     let rs := fun t => ((digits t).getD [0, 0, 0, 0, 0]).map (fun q => dequantElem .tern q (s.scaleByte t 4 f.b 0 bs))
     Gives s (.dqt f) f.d (fun t => (rs t).map Prod.fst) (fun _ => [])
       (fun t => (rs t).foldl (fun a r => a ||| r.2) (if (digits t).isNone then flFMT else 0)))
  ∧ qc (.qce4 f) (.flt e4m3) 8 ∧ qc (.qce5 f) (.flt e5m2) 8 ∧ qc (.qcb f) (.bfp 8) 4
  ∧ (let k := (f.sub.extractLsb' 2 2).toNat
     let n := if k = 2 then 4 else 8
     let emax : Int := match k with | 0 => 8 | 1 => 15 | _ => -1
     let xs := fun t => (block (.qscl f) n t).flatMap (fun u => (List.range 4).map (fun j => decodeF fp32 (s.rdK u f.a j).toNat))
     Gives s (.qscl f) f.d (fun t =>
       [(s.rd t f.d &&& ~~~((0xFF : Word) <<< (8 * bs))) ||| (BitVec.ofNat 32 (scaleCode emax (xs t)) <<< (8 * bs))]))
  ∧ qd (.qde4 f) (.flt e4m3) 8 ∧ qd (.qde5 f) (.flt e5m2) 8 ∧ qd (.qdb f) (.bfp 8) 4 ∧ qd (.qdt f) .tern 4

/-- R22, R339, R371, R391, R394, R395, R400, R410: the lane operations, each over the executing threads of the thread's own group. RDLANE
of an index past the group's width is no result but a trap, so it is stated where every index lies below the width. -/
def Obligations.LaneResults : Prop := ∀ (s : State) (f : ArithF),
  let peers := fun (i : Instr) (t : ThreadId) => (s.executing i).filter (fun u => u.group == t.group)
  let mask := fun (ts : List ThreadId) => ts.foldl (fun (m : DWord) u => m ||| (1 <<< u.ix)) 0
  let n := fun t => (match f.c with | .imm k => k.signExtend 32 | .op _ => s.rd t f.b : Word).toNat
  (let src : ThreadId → Int := fun t => match f.lo3.val with
      | 0 => (n t : Int)
      | 1 => (t.ix : Int) - n t
      | 2 => (t.ix : Int) + n t
      | 3 => (t.ix ^^^ n t : Nat)
      | _ => ((t.ix + n t) % 2 ^ 32 % max (s.widthOf t) 1 : Nat)
   let valid := fun (t : ThreadId) =>
      decide (0 ≤ src t ∧ src t < s.widthOf t ∧ { t with ix := (src t).toNat } ∈ s.executing (.share f))
   Gives s (.share f) f.d
     (fun t => wordsOf f.t (s.rdT (if valid t then { t with ix := (src t).toNat } else t) f.t f.a)) (fun t => predOf f.hi3 (valid t)))
  ∧ (let all := peers (.vmask f)
     let yes := fun t => (all t).filter (fun u => s.pred u (f.sub.extractLsb' 2 3).toNat != f.sub.getLsbD 5)
     Gives s (.vmask f) f.d (fun t => match (f.sub.extractLsb' 0 2).toNat with
       | 0 => maskWord (decide (yes t ≠ []))
       | 1 => maskWord (decide ((yes t).length = (all t).length))
       | 2 => [loW (mask (yes t)), hiW (mask (yes t))]
       | _ => [BitVec.ofNat 32 (yes t).length]))
  ∧ (let e := fun t => (peers (.elect f) t).headD t
     Gives s (.elect f) (if f.d.isS then f.d else .z) (fun t => [s.rd (e t) f.a]) (fun t => predOf f.lo3 (decide (t = e t))))
  ∧ ((∀ t ∈ s.executing (.rdlane f), n t < s.widthOf t) →
      GivesT s (.rdlane f) f.t f.d (fun t => s.rdT { t with ix := n t } f.t f.a))
  ∧ (let op := (f.sub.extractLsb' 0 4).toNat
     let run := fun i t => scanAll op (tySigned f.t) ((peers i t).map (fun u => s.rd u f.a))
     Gives s (.scan f) f.d
       (fun t =>
         let k := (peers (.scan f) t).idxOf t
         [if f.sub.getLsbD 4 then (if k = 0 then scanIdent op (tySigned f.t) else (run (.scan f) t).1.getD (k - 1) 0)
          else (run (.scan f) t).1.getD k 0])
       (fun _ => []) (fun t => (run (.scan f) t).2)
     ∧ Gives s (.redux f) f.d (fun t => [(run (.redux f) t).1.getLastD 0]) (fun _ => []) (fun t => (run (.redux f) t).2))
  ∧ (let all := peers (.matchLanes f)
     let same := fun t => (all t).filter (fun u => s.rdT u f.t f.a == s.rdT t f.t f.a)
     let m := fun t => if f.sub.getLsbD 0 then (if (same t).length = (all t).length then mask (all t) else 0) else mask (same t)
     Gives s (.matchLanes f) f.d (fun t => [loW (m t), hiW (m t)]))

/-- R276 to R278: a Format D word reads all its operands, writes both destinations and raises both slots' flags; nothing else changes.
R277: the results of the integer operations of Format D, and the moves. -/
def Obligations.FormatDResults : Prop :=
  (∀ (s : State) (a b : DSlot), (Instr.formatD a b).wf = true → Ready s (.formatD a b) →
  ∃ z, exec (.formatD a b) s = .next z ∧ z = { s with threads := z.threads }
    ∧ (∀ t ∈ s.executing (.formatD a b), ∀ x, s.thr t = some x → ∃ y, z.thr t = some y
        ∧ { y with regs := x.regs, fsr := x.fsr } = x.advance
        ∧ y.fsr = x.fsr ||| (slotResult s t a).2 ||| (slotResult s t b).2
        ∧ ∀ k, y.regs.getD k 0
          = afterV a.d [(slotResult s t a).1] (afterV b.d [(slotResult s t b).1] (fun k => x.regs.getD k 0)) k)
    ∧ ∀ t, t ∉ s.executing (.formatD a b) → z.thr t = s.thr t)
  ∧ (∀ (s : State) (t : ThreadId) (d : Opnd) (c : CField),
  let x := s.rd t d
  let y : Word := match c with | .imm k => k.signExtend 32 | .op o => s.rd t o
  let r := fun op => slotResult s t ⟨op, d, c⟩
  r .iadd = (x + y, 0) ∧ r .isub = (x - y, 0) ∧ r .imul = (x * y, 0) ∧ r .mov = (y, 0)
    ∧ r .and = (x &&& y, 0) ∧ r .or = (x ||| y, 0) ∧ r .xor = (x ^^^ y, 0)
    ∧ r .shl = (x <<< y.toNat, 0) ∧ r .shr = (x >>> y.toNat, 0) ∧ r .sar = (x.sshiftRight y.toNat, 0)
    ∧ r .imin = (if x.toInt < y.toInt then x else y, 0) ∧ r .imax = (if x.toInt < y.toInt then y else x, 0))

/-- R355 to R357: GETSR writes the register as it stands, 64 bits wide where the register is; before a register that counts time is read,
time may pass on the core (a free amount, log 4), which changes its counters only, as it may before a write that changes what a counter
counts. R399, R259: SETSR writes the register its number names: bits 5:0 of %fsr, 2:0
of %fcr, the fields of the trap registers (in system mode), bits 8:0 of %evsel, bits 47:0 of %evcnt, where the last lane's write stands;
a write to any other register is ignored. -/
def Obligations.SystemRegisters : Prop :=
  (∀ (s : State) (f : OwnF) (sr : Byte),
  (Instr.getsr f sr).wf = true → Ready s (.getsr f sr) →
  ∃ u z, exec (.getsr f sr) s = .next z
    ∧ Elapsed s u (timedReg sr.toNat)
    ∧ LaneWord u z (.getsr f sr) f.d
        (fun t => if srWide sr.toNat then [loW (u.sysReg t sr.toNat), hiW (u.sysReg t sr.toNat)] else [loW (u.sysReg t sr.toNat)])
        (fun _ => []) (fun _ => 0)
    ∧ (∀ t x, s.thr t = some x → sr = 0x02 → (u.sysReg t 0x02).toNat = x.fsr.toNat)
    ∧ (∀ t x, s.thr t = some x → sr = 0x03 → (u.sysReg t 0x03).toNat = x.fcr.toNat)
    ∧ (∀ t x, s.thr t = some x → sr = 0x18 → (u.sysReg t 0x18).toNat = x.trapcause.toNat)
    ∧ (∀ t x, s.thr t = some x → sr = 0x19 → u.sysReg t 0x19 = x.trapaddr)
    ∧ (∀ t x, s.thr t = some x → sr = 0x1A → u.sysReg t 0x1A = x.epc)
    ∧ (∀ t n, n < 8 → (u.sysReg t (0x08 + n)).toNat = ((u.core (u.coreOf t)).evsel.getD n 0).toNat
        ∧ u.sysReg t (0x10 + n) = (u.core (u.coreOf t)).evcnt.getD n 0))
  ∧ (∀ (s : State) (f : OwnF) (sr : Byte),
  let i := Instr.setsr f sr
  let v : ThreadId → DWord := fun t => if srWide sr.toNat then s.rd64 t f.a else (s.rd t f.a).setWidth 64
  i.wf = true → Ready s i →
  ((0x18 ≤ sr.toNat ∧ sr.toNat ≤ 0x1A) → ∀ t ∈ s.executing i, ∀ x, s.thr t = some x → x.sys = true) →
  ∃ u z, exec i s = .next z ∧ Elapsed s u (counterReg sr.toNat) ∧ z = { u with threads := z.threads, cores := z.cores }
    ∧ (∀ t ∈ s.executing i, ∀ x, s.thr t = some x → z.thr t = some (match sr.toNat with
        | 0x02 => { x.advance with fsr := (v t).setWidth 6 }
        | 0x03 => { x.advance with fcr := (v t).setWidth 3 }
        | 0x18 => { x.advance with trapcause := (v t).setWidth 32 &&& 0x80FFFFFF }
        | 0x19 => { x.advance with trapaddr := v t }
        | 0x1A => { x.advance with epc := v t }
        | _ => x.advance))
    ∧ (∀ t, t ∉ s.executing i → z.thr t = if t ∈ s.issuing i then (s.thr t).map Thread.advance else s.thr t)
    ∧ (∀ c, (∀ t ∈ s.executing i, s.coreOf t = c) → ∀ t, (s.executing i).getLast? = some t →
        (∀ d, d ≠ c → z.core d = u.core d)
        ∧ z.core c = (if 0x08 ≤ sr.toNat ∧ sr.toNat ≤ 0x0F then
            { u.core c with evsel := (u.core c).evsel.set (sr.toNat - 0x08) ((v t).setWidth 32 &&& 0x1FF) }
          else if 0x10 ≤ sr.toNat ∧ sr.toNat ≤ 0x17 then
            { u.core c with evcnt := (u.core c).evcnt.set (sr.toNat - 0x10) (v t &&& 0xFFFFFFFFFFFF) }
          else u.core c)))

/-- R331, R333, R396, R268: a branch, call or return takes every thread whose predicate holds to its target, in header position, and the
others to the next word; a call writes the address of the header after its clause to its pair. -/
def Obligations.Branches : Prop := ∀ (s : State) (g : Guard) (d : Opnd) (imm : Word) (f : OwnF),
  let rel := fun (x : Thread) => pcBits (x.pc + (imm.signExtend 64 <<< 3))
  let at' := fun (t : ThreadId) => s.rd64 t f.a
  ((Instr.br g imm).wf = true → Ready s (.br g imm) → ∃ z, exec (.br g imm) s = .next z ∧ z = { s with threads := z.threads }
    ∧ ThreadsGo s z (.br g imm) (fun _ x => { x with pc := rel x, clause := none }))
  ∧ ((Instr.call g d imm).wf = true → Ready s (.call g d imm) → ∃ z, exec (.call g d imm) s = .next z ∧ z = { s with threads := z.threads }
    ∧ ThreadsGo s z (.call g d imm) (fun _ x => { x with regs := withPair d x.afterClause x.regs, pc := rel x, clause := none }))
  ∧ ((Instr.brx f).wf = true → Ready s (.brx f) → (∀ t ∈ s.executing (.brx f), GoodTarget (at' t)) →
    ∃ z, exec (.brx f) s = .next z ∧ z = { s with threads := z.threads }
      ∧ ThreadsGo s z (.brx f) (fun t x => { x with pc := at' t, clause := none }))
  ∧ ((Instr.ret f).wf = true → Ready s (.ret f) → (∀ t ∈ s.executing (.ret f), GoodTarget (at' t)) →
    ∃ z, exec (.ret f) s = .next z ∧ z = { s with threads := z.threads }
      ∧ ThreadsGo s z (.ret f) (fun t x => { x with pc := at' t, clause := none }))
  ∧ ((Instr.callx f).wf = true → Ready s (.callx f) → (∀ t ∈ s.executing (.callx f), GoodTarget (at' t)) →
    ∃ z, exec (.callx f) s = .next z ∧ z = { s with threads := z.threads }
      ∧ ThreadsGo s z (.callx f) (fun t x => { x with regs := withPair f.d x.afterClause x.regs, pc := at' t, clause := none }))

/-- R331, R258 to R260: where a register target is refused, the threads that hold it take an illegal-state trap with the target in
%trapaddr, the rest of the issue group stops unexecuted, and the workgroup halts. R330, R409, R258 to R260: BKPT and TRAP complete and
then take their trap, cause 4 or cause 5 with the immediate as INFO, so that %epc holds the next word or header. -/
def Obligations.WordsThatTrap : Prop :=
  (∀ (s : State) (f : OwnF) (w : Nat), ∀ i ∈ [Instr.brx f, .callx f, .ret f],
  let bad := (s.executing i).filter (fun t => decide ((s.rd64 t f.a).toNat % 8 ≠ 0 ∨ 2 ^ 60 ≤ (s.rd64 t f.a).toNat))
  i.wf = true → Ready s i → bad ≠ [] → UserTrap s w bad →
  ∃ z, exec i s = .next z
    ∧ TrapsTaken s z w (bad.map (fun t => (t, { cause := 2, addr := s.rd64 t f.a })))
        ((s.issuing i).filter (fun t => !bad.contains t && t.wg == w)) Thread.pc)
  ∧ (∀ (s : State) (f : OwnF) (n : Byte) (w : Nat),
  ∀ p ∈ [(Instr.bkpt f, ({ cause := 4 } : TrapInfo)), (Instr.trap f n, { cause := 5, info := n.toNat })],
  p.1.wf = true → Ready s p.1 → s.executing p.1 ≠ [] → UserTrap s w (s.executing p.1) →
  ∃ u z, exec p.1 s = .next z ∧ u = { s with threads := u.threads } ∧ ThreadsGo s u p.1 (fun _ => Thread.advance)
    ∧ TrapsTaken u z w ((s.executing p.1).map (fun t => (t, p.2))) [] Thread.pc)

/-- R260, R340: ERET returns each thread to user mode at its %epc and clears %trapcause. While another thread is in the handler the
workgroup stays halted and the thread waits; with the last one the halt ends and every thread goes on. -/
def Obligations.EretReturns : Prop := ∀ (s : State) (f : OwnF) (w : Nat),
  let i := Instr.eret f
  i.wf = true → Ready s i → s.executing i ≠ [] → (∃ g, s.wg w = some g ∧ g.halt = .handler) → Undisturbed s w →
  (∀ t ∈ s.executing i, t.wg = w ∧ ∀ x, s.thr t = some x → x.sys = true ∧ x.exited = false ∧ GoodTarget x.epc ∧ x.trapcause.getLsbD 31 = false) →
  ((∃ t x, t ∉ s.executing i ∧ t.wg = w ∧ s.thr t = some x ∧ x.sys = true ∧ x.exited = false) →
    ∃ z, exec i s = .next z ∧ z = { s with threads := z.threads }
      ∧ ThreadsGo s z i (fun _ x =>
          { x with sys := false, pc := x.epc, clause := none, resume := true, stopped := true, wait := .none, trapcause := 0 }))
  ∧ (∀ t, s.executing i = [t] → s.issuing i = [t] → (∀ u x, u ≠ t → u.wg = w → s.thr u = some x → x.sys = false ∨ x.exited = true) →
    ∃ z, exec i s = .next z ∧ (∃ g, z.wg w = some g ∧ g.halt = .running ∧ g.firstTrap = none)
      ∧ (∀ x, s.thr t = some x → ∃ y, z.thr t = some y ∧ y.sys = false ∧ y.pc = x.epc ∧ y.trapcause = 0 ∧ y.regs = x.regs
          ∧ y.preds = x.preds ∧ y.trapped = false ∧ y.stopped = false)
      ∧ (∀ u x, u ≠ t → u.wg = w → s.thr u = some x → ∃ y, z.thr u = some y ∧ y.pc = x.pc ∧ y.regs = x.regs ∧ y.trapped = false
          ∧ y.stopped = false)
      ∧ z.mem = s.mem)

/-- R341, R84, R85: EXIT ends each thread whose predicate holds, as a release: what its workgroup has dirtied in its core's L1 is written back, and
memory changes only so. Threads that end with the rest of their group still running, or with all of it, leave every other thread as it was; a group that
ends with the baton passes it on (R159). R260: when the last thread that runs the handler exits, the halt ends, and the threads that it stopped go on. Stated where
no thread waits at a barrier of the cluster. -/
def Obligations.ExitEndsThreads : Prop := ∀ (s : State) (f : OwnF) (c : Nat), Canonical s →
  let i := Instr.exit f
  let ex := s.executing i
  let out := fun (x : Thread) => { x.advance with exited := true, clause := none, wait := .none }
  let released := fun (z : State) => Released s z c (fun w => ∃ t ∈ ex, t.wg = w) ∧ KeepsBytes s z (fun d => d = c)
  let lastOfAll := fun (t : ThreadId) => ∀ u x, u.group = t.group → s.thr u = some x → x.exited = false → u ∈ ex
  i.wf = true → Ready s i → (∀ t ∈ ex, s.coreOf t = c ∧ Undisturbed s t.wg) →
  ((∀ t ∈ ex, (SomeRuns s t.group ex ∨ lastOfAll t ∧ s.holdsBaton t.group = false) ∧ ∃ g, s.wg t.wg = some g ∧ g.halt = .running) →
    ∃ z, exec i s = .next z ∧ ThreadsAndMemory s z ∧ ThreadsGo s z i (fun _ => out) ∧ released z)
  ∧ (∀ g w k, ReadyIn s i g → (∀ t ∈ ex, lastOfAll t) → s.wg g.wg = some w → w.halt = .running → w.baton = some g.gid → s.nextHolder g.wg g.gid = some k →
    ∃ u z, exec i s = .next z ∧ MemoryOnly s u ∧ z = { u with threads := z.threads, wgs := z.wgs } ∧ released z
      ∧ z.wg g.wg = some { w with baton := some k } ∧ (∀ v, v ≠ g.wg → z.wg v = s.wg v)
      ∧ ∀ t, z.thr t = (s.thr t).map (fun x => let y := if t ∈ ex then out x else if t ∈ s.issuing i then x.advance else x
          if t.group = ⟨g.wg, k⟩ then { y with wait := if y.wait = .etake then .none else y.wait } else y))
  ∧ (∀ t w, ex = [t] → s.issuing i = [t] → SomeRuns s t.group [t] → s.wg t.wg = some w → w.halt ≠ .running → w.halt ≠ .skidding true →
    (∀ u x, u ≠ t → u.wg = t.wg → s.thr u = some x → x.sys = false ∨ x.exited = true) →
    ∃ z, exec i s = .next z ∧ released z ∧ (∃ g, z.wg t.wg = some g ∧ g.halt = .running ∧ g.firstTrap = none)
      ∧ ∀ u x, u.wg = t.wg → s.thr u = some x → ∃ y, z.thr u = some y ∧ y.regs = x.regs ∧ y.preds = x.preds ∧ y.trapped = false ∧ y.stopped = false
          ∧ y.exited = (x.exited || decide (u = t)) ∧ (u ≠ t → y.pc = x.pc))

/-- R21, R364: at JOIN a thread waits while another thread of its group still runs elsewhere; when every thread of its group is there, all
go on; and a waiting thread goes on when its time is up (JOIN_TIMEOUT). -/
def Obligations.JoinWaits : Prop := ∀ (s : State) (f : OwnF),
  let i := Instr.join f
  i.wf = true → Ready s i →
  ((∀ t ∈ s.executing i, SomeRuns s t.group (s.executing i)) →
    ∃ z, exec i s = .next z ∧ z = { s with threads := z.threads } ∧ ThreadsGo s z i (fun _ x => { x with wait := .join }))
  ∧ (∀ g a, ReadyIn s i g → (∀ t x, t.group = g → s.thr t = some x → x.exited = false → t ∈ s.executing i ∧ x.pc = a) →
    (∀ t ∈ s.executing i, ∀ x, s.thr t = some x → x.exited = false) → Keyed s →
    ∃ z, exec i s = .next z ∧ z = { s with threads := z.threads }
      ∧ ThreadsGo s z i (fun _ x => { x.advance with wait := .none }))
  ∧ (∀ t x, s.thr t = some x → x.wait = .join → exec (.joinTimeout t) s = .next (s.updThr t (fun x => { x.advance with wait := .none })))

/-- R414, R46: at YIELD a thread waits for the rest of its group; when the whole group has yielded, its phase ends: its phase record holds the
next header and CAUSE 1, only the carry set, the predicates and the float state survive, and it joins its core's phase queue. -/
def Obligations.YieldEndsPhase : Prop := ∀ (s : State) (f : OwnF),
  let i := Instr.yield f
  i.wf = true → Ready s i → (∀ t ∈ s.executing i, Undisturbed s t.wg) →
  ((∀ t ∈ s.executing i, SomeRuns s t.group (s.executing i)) →
    ∃ z, exec i s = .next z ∧ z = { s with threads := z.threads } ∧ ThreadsGo s z i (fun _ x => { x with wait := .yielding }))
  ∧ (∀ g k w a n lr, ReadyIn s i g → s.grp g = some k → s.wg g.wg = some w → s.lrOf g.wg = some lr → k.preq = false →
    (∀ t x, t.group = g → s.thr t = some x → t ∈ s.executing i ∧ x.exited = false ∧ x.pc = a ∧ x.afterClause = n ∧ x.clause.isSome) →
    ∃ z, exec i s = .next z ∧ z = { s with threads := z.threads, groups := z.groups, cores := z.cores }
      ∧ (∀ h, h ≠ g → z.grp h = s.grp h)
      ∧ z.grp g = some { k with status := .queued, npc := n, cause := 1, waitBar := none, fullSave := false }
      ∧ (z.core w.coreIx).phaseQ = (s.core w.coreIx).phaseQ ++ [(g.wg, g.gid, w.wslot)]
      ∧ ∀ t x, t.group = g → s.thr t = some x → ∃ y, z.thr t = some y ∧ y.pc = n ∧ y.clause = none ∧ y.wait = .none
          ∧ y.preds = x.preds ∧ y.fsr = x.fsr ∧ y.fcr = x.fcr ∧ y.flags = x.flags ∧ y.regs.length = x.regs.length
          ∧ ∀ r, y.regs.getD r 0 = if lr.cfirst ≤ r ∧ r < lr.cfirst + lr.ccount then x.regs.getD r 0 else 0)

/-- R324 to R326, R34, R84 to R87: a thread that arrives at a barrier waits past the BAR until every member has arrived; BAR.CL is a release first (BAR.WG
goes by the accesses performed past the core, log 67); the last arrival
releases all the members at once, and for BAR.CL that is an acquire on each of their cores; in a phased run a group all of whose threads have arrived
ends its phase when the barrier is not complete: its record holds the word after the BAR, its carry set, predicates and float state (R41, R43); stated
for threads of member groups outside the handler. R181, R403:
STAGE adds one to the stage count of each group that executes it, STAGE.REL to its release count of entry e, both saturating at 65,535;
every thread goes on to the next word. -/
def Obligations.BarriersAndStages : Prop :=
  (∀ (s : State) (f : OwnF) (n : Fin 16), Canonical s →
  let arrives := fun (i : Instr) (l : BarLevel) (z : State) =>
    (l = .grp → z = { s with threads := z.threads }) ∧ (l = .wg → z = { s.goBy (s.executing i) with threads := z.threads })
      ∧ (l = .cl → ThreadsAndMemory s z ∧ ∀ c, (∀ t ∈ s.executing i, s.coreOf t = c) → KeepsBytes s z (fun d => d = c)
        ∧ ∀ w, (∃ t ∈ s.executing i, t.wg = w) → ∀ l ∈ (z.core c).l1, ¬ DirtyFor s w l)
  let all := fun (i : Instr) (l : BarLevel) (g : GroupId) (w : Workgroup) =>
    i.wf = true ∧ ReadyIn s i g ∧ Keyed s ∧ s.preempting w.disp = false ∧ s.wg g.wg = some w ∧ s.barMember g l n.val = true ∧ g ∈ s.barGroups g l n.val
      ∧ ∀ t x, t.group = g → s.thr t = some x → t ∈ s.executing i ∧ x.exited = false ∧ x.sys = false
  let last := fun (i : Instr) (l : BarLevel) => ∀ g w, all i l g w → s.phased g.wg = false →
    (∀ v ∈ s.barWgs g.wg l, ∃ x, s.wg v = some x ∧ x.resident = true ∧ x.halt = .running) →
    (∀ h ∈ s.barGroups g l n.val, ∀ k, s.grp h = some k → k.status = .running) →
    (∀ t x, t.group ∈ s.barGroups g l n.val → t.group ≠ g → s.thr t = some x → x.exited = false → x.wait = .bar l n.val) →
    ∃ z, exec i s = .next z ∧ arrives i l z
      ∧ (l = .cl → ∀ v ∈ s.barWgs g.wg l, ∀ x, s.wg v = some x → ∀ y ∈ (z.core x.coreIx).l1, y.inj = false → y.valid = 0)
      ∧ ∀ t, z.thr t = (s.thr t).map (fun x => let y := if t ∈ s.issuing i then x.advance else x
          if t.group ∈ s.barGroups g l n.val ∧ x.exited = false then { y with wait := .none } else y)
  let phase := fun (i : Instr) (l : BarLevel) => ∀ g w lr a m k, all i l g w → s.phased g.wg = true → s.lrOf g.wg = some lr → s.grp g = some k →
    (∀ t x, t.group = g → s.thr t = some x → x.pc = a ∧ x.advance.pc = m) →
    (∃ t x, t.group ∈ s.barGroups g l n.val ∧ t.group ≠ g ∧ s.thr t = some x ∧ x.exited = false ∧ x.wait ≠ .bar l n.val) →
    ∃ z, exec i s = .next z ∧ arrives i l { z with groups := s.groups }
      ∧ z.grp g = some { k with status := .between, npc := m, cause := 0, waitBar := some (l, n.val), fullSave := false }
      ∧ (∀ h, h ≠ g → z.grp h = s.grp h)
      ∧ (∀ t, t.group ≠ g → z.thr t = if t ∈ s.issuing i then (s.thr t).map Thread.advance else s.thr t)
      ∧ ∀ t x, t.group = g → s.thr t = some x → ∃ y, z.thr t = some y ∧ y.pc = m ∧ y.clause = none ∧ y.wait = .bar l n.val
          ∧ y.preds = x.preds ∧ y.fsr = x.fsr ∧ y.fcr = x.fcr ∧ y.regs.length = x.regs.length
          ∧ ∀ r, y.regs.getD r 0 = if lr.cfirst ≤ r ∧ r < lr.cfirst + lr.ccount then x.regs.getD r 0 else 0
  let place := fun (p : Instr × BarLevel) =>
    p.1.wf = true → Ready s p.1 →
    (∀ t ∈ s.executing p.1, SomeRuns s t.group (s.executing p.1) ∧ Undisturbed s t.wg ∧ s.barMember t.group p.2 n.val = true
      ∧ t.gid < (((s.wg t.wg).map Workgroup.ngrp).getD 0) ∧ t.wg ∈ s.barWgs t.wg p.2 ∧ ∀ x, s.thr t = some x → x.sys = false) →
    ∃ z, exec p.1 s = .next z ∧ arrives p.1 p.2 z
      ∧ ThreadsGo s z p.1 (fun _ x => { x.advance with wait := .bar p.2 n.val })
  place (.barGrp f n, .grp) ∧ place (.barWg f n, .wg) ∧ place (.barCl f n, .cl)
    ∧ last (.barGrp f n) .grp ∧ last (.barWg f n) .wg ∧ last (.barCl f n) .cl ∧ phase (.barWg f n) .wg ∧ phase (.barCl f n) .cl)
  ∧ (∀ (s : State) (f : OwnF) (e : Byte),
  let has := fun (i : Instr) (g : GroupId) => ∃ t ∈ s.executing i, t.group = g
  ((Instr.stage f).wf = true → Ready s (.stage f) →
    ∃ z, exec (.stage f) s = .next z ∧ z = { s with threads := z.threads, groups := z.groups }
      ∧ ThreadsGo s z (.stage f) (fun _ => Thread.advance)
      ∧ (∀ g, has (.stage f) g → z.grp g = (s.grp g).map (fun k => { k with stage := min 65535 (k.stage + 1) }))
      ∧ ∀ g, ¬ has (.stage f) g → z.grp g = s.grp g)
  ∧ ((Instr.stageRel f e).wf = true → Ready s (.stageRel f e) →
    (∀ t ∈ s.executing (.stageRel f e), ∃ lr, s.lrOf t.wg = some lr ∧ e.toNat < lr.nsched) →
    ∃ z, exec (.stageRel f e) s = .next z ∧ z = { s with threads := z.threads, groups := z.groups }
      ∧ ThreadsGo s z (.stageRel f e) (fun _ => Thread.advance)
      ∧ (∀ g, has (.stageRel f e) g → z.grp g = (s.grp g).map (fun k => { k with rels := lmod k.rels e.toNat (fun n => min 65535 (n + 1)) }))
      ∧ ∀ g, ¬ has (.stageRel f e) g → z.grp g = s.grp g))

/-- R157 to R159, R338: ETAKE lets the holder of the baton go on and holds the threads of any other group of the ring; EGIVE passes the
baton to the next group of the ring that has a live thread, and wakes its threads, or keeps it when there is none. -/
def Obligations.EmberBaton : Prop := ∀ (s : State) (f : OwnF) (g : GroupId) (w : Workgroup),
  s.wg g.wg = some w → s.ringMember g = true →
  ((Instr.etake f).wf = true → ReadyIn s (.etake f) g →
    (w.baton = some g.gid → ∃ z, exec (.etake f) s = .next z ∧ z = { s with threads := z.threads }
      ∧ ThreadsGo s z (.etake f) (fun _ => Thread.advance))
    ∧ (w.baton ≠ some g.gid → ∃ z, exec (.etake f) s = .next z ∧ z = { s with threads := z.threads }
      ∧ ThreadsGo s z (.etake f) (fun _ x => { x with wait := .etake })))
  ∧ ((Instr.egive f).wf = true → ReadyIn s (.egive f) g → w.baton = some g.gid →
    (s.nextHolder g.wg g.gid = none → ∃ z, exec (.egive f) s = .next z ∧ z = { s with threads := z.threads }
      ∧ ThreadsGo s z (.egive f) (fun _ => Thread.advance))
    ∧ (∀ k, s.nextHolder g.wg g.gid = some k → Keyed s → ∃ z, exec (.egive f) s = .next z
      ∧ z = { s with threads := z.threads, wgs := z.wgs } ∧ z.wg g.wg = some { w with baton := some k }
      ∧ ∀ t, z.thr t = if t ∈ s.executing (.egive f) then (s.thr t).map Thread.advance
          else if t ∈ s.issuing (.egive f) ∧ t.group ≠ ⟨g.wg, k⟩ then (s.thr t).map Thread.advance
          else if t.group = ⟨g.wg, k⟩ then
            (s.thr t).map (fun x => { (if t ∈ s.issuing (.egive f) then x.advance else x) with wait := if x.wait = .etake then .none else x.wait })
          else s.thr t))

/-- R264 to R266: in header position the threads of the issue group pass a literal pool, or enter the clause that the header names: its flags,
its wait mask, and the first word. Nothing that a program reads changes beside. -/
def Obligations.ClauseEntered : Prop := ∀ (s : State) (h : Header), (Instr.clauseStart h).wf = true → s.issue.threads.Nodup →
  ∃ z, exec (.clauseStart h) s = .next z ∧ z.mem = s.mem ∧ z.wgs = s.wgs ∧ z.accs = s.accs ∧ z.disps = s.disps
    ∧ (∀ g k, s.grp g = some k → ∃ n, z.grp g = some { k with skid := n })
    ∧ ∀ t, z.thr t = (s.thr t).map (fun x =>
        if t ∈ s.issue.threads ∧ x.clause = none then
          (if h.pool then { x with pc := pcBits (x.pc + BitVec.ofNat 64 (8 * (h.len.val + 1))), resume := false }
           else { x with pc := pcBits (x.pc + 8), resume := false,
                         clause := some { hdr := x.pc, len := h.len.val, seta := h.seta.val, setb := h.setb.val, wait := h.wait } })
        else x)

/-- R365, R366, R367, R401, R402, R363, R413, R270, R271: a load, store or range word makes each thread's access pending at the address of
R287 (LDL: at the word's own address plus its displacement), with what it will write or store, and counts it on SETA or SETB (INVR on
none). A load to s-registers is one access of its group. -/
def Obligations.AccessesIssue : Prop := ∀ (s : State) (f : MemF) (g : Guard) (d : Opnd) (w : Bool) (imm : Word),
  let n := szBytes f.sz
  let a := memAddr s f.sp f.a f.b f.idx f.c f.sz
  let pc := fun t => ((s.thr t).map Thread.pc).getD 0 + imm.signExtend 64
  let range := fun (i : Instr) (op : Nat → AccOp) (flag : ThreadId → Option Nat) =>
    i.wf = true → Ready s i → (∀ t ∈ s.executing i, (s.rd t f.b).toNat ≤ 2 ^ 24
        ∧ ((s.rd t f.b).toNat = 0 ∨ (s.rd64 t f.a).toNat + (s.rd t f.b).toNat ≤ 2 ^ 60)) →
      Issues s i ((s.executing i).map (fun t =>
        { t := t, owners := [t], op := op (s.rd t f.b).toNat, exec := s.fresh, space := .global, sc := .none, ord := .plain, ch := .normal
          va := s.rd64 t f.a, size := (s.rd t f.b).toNat, flag := flag t, fault := none, passed := false, leaf := none }))
  let first := fun (i : Instr) (d : Opnd) => (s.executing i).filter (fun t => decide ((ownersOf s i d t).headD t = t))
  ((Instr.ld f).wf = true → Ready s (.ld f) → (∀ t ∈ s.executing (.ld f), Reaches s t f.sp (a t) n false) →
    Issues s (.ld f) ((first (.ld f) f.d).map (fun t =>
      { t := t, owners := ownersOf s (.ld f) f.d t, op := .load f.d f.sz f.sx, exec := s.fresh, space := f.sp, sc := f.sc, ord := f.ord
        ch := f.ch, va := a t, size := n, flag := flagA s t, fault := none, passed := false, leaf := none })))
  ∧ ((Instr.ldl g d w imm).wf = true → Ready s (.ldl g d w imm) →
    (∀ t ∈ s.executing (.ldl g d w imm), (pc t).toNat % (if w then 8 else 4) = 0 ∧ (pc t).toNat < 2 ^ 60) →
    Issues s (.ldl g d w imm) ((first (.ldl g d w imm) d).map (fun t =>
      { t := t, owners := ownersOf s (.ldl g d w imm) d t, op := .ldl d w, exec := s.fresh, space := .global, sc := .none, ord := .plain
        ch := .normal, va := pc t, size := if w then 8 else 4, flag := flagA s t, fault := none, passed := false, leaf := none })))
  ∧ ((Instr.st f).wf = true → Ready s (.st f) → (∀ t ∈ s.executing (.st f), Reaches s t f.sp (a t) n true) →
    Issues s (.st f) ((s.executing (.st f)).map (fun t =>
      { t := t, owners := [t], op := .store (s.storeData t f.d f.sz), exec := s.fresh, space := f.sp, sc := f.sc, ord := f.ord, ch := f.ch
        va := a t, size := n, flag := flagB s t, fault := none, passed := false, leaf := none })))
  ∧ range (.wbr f) .wbr (flagB s) ∧ range (.invr f) .invr (fun _ => none)

/-- R315, R316, R317, R320, R321, R390, R404, R405: the lanes of one atomic or injecting execution are performed together, so they form one
access: each lane with its address and operands, its destination, or its bytes and core mask; STI has no scope of its own. -/
def Obligations.LanesIssueTogether : Prop := ∀ (s : State) (f : MemF) (q : StiF),
  let a := fun t => (if f.sp = .global then s.rd64 t f.a else (s.rd t f.a).setWidth 64) + ((s.rd t f.b).setWidth 64 <<< f.idx.toNat)
  let goes := fun t => Reaches s t f.sp (a t) (szBytes f.sz) true ∧ (f.sp = .bucket → f.sc ≠ .dev ∧ f.sc ≠ .sys)
    ∧ (f.sp = .global → ∀ x, (s.xlate (s.coreOf t / 32) (s.ctxOf t.wg) (a t).toNat { r := true, w := true }).2 = .ok x → inSystem x.pa = false)
  let atomic := fun (i : Instr) (k : AtKind) (ret : Bool) (flag : ThreadId → Option Nat) (x y : ThreadId → DWord) =>
    i.wf = true → Ready s i → (∀ t ∈ s.executing i, goes t) → ∀ t0 ts, s.executing i = t0 :: ts →
      Issues s i [{ t := t0, owners := t0 :: ts
                    op := .atoms k ret f.sz ((t0 :: ts).map (fun t => { t := t, va := a t, d := f.d, x := x t, y := y t })), exec := s.fresh
                    space := f.sp, sc := f.sc, ord := f.ord, ch := f.ch, va := a t0, size := szBytes f.sz, flag := flag t0, fault := none, passed := false, leaf := none }]
  let v := fun t => if f.sz = .b64 then s.rd64 t f.d else (s.rd t f.d).setWidth 64
  let cmp := fun t => if f.sz = .b64 then pairVal (s.rdK t f.d 0) (s.rdK t f.d 1) else (s.rdK t f.d 0).setWidth 64
  let new := fun t => if f.sz = .b64 then pairVal (s.rdK t f.d 2) (s.rdK t f.d 3) else (s.rdK t f.d 1).setWidth 64
  atomic (.atom f) (.rmw f.c) true (flagA s) v (fun _ => 0)
    ∧ atomic (.acas f) .cas true (flagA s) cmp new
    ∧ atomic (.red f) (.rmw f.c) false (flagB s) v (fun _ => 0)
    ∧ ((Instr.sti q).wf = true → Ready s (.sti q) →
      let b := memAddr s .global q.a q.b q.idx q.c q.sz
      (∀ t ∈ s.executing (.sti q), Reaches s t .global (b t) (szBytes q.sz) true) → ∀ t0 ts, s.executing (.sti q) = t0 :: ts →
      Issues s (.sti q) [{ t := t0, owners := t0 :: ts
                           op := .stis ((t0 :: ts).map (fun t => (t, b t, s.storeData t q.d q.sz, s.rd t (.s q.m)))), exec := s.fresh
                           space := .global, sc := .die, ord := q.ord, ch := .normal, va := b t0, size := szBytes q.sz
                           flag := flagB s t0, fault := none, passed := false, leaf := none }])

/-- R59, R109, R258 to R260: a load, store or atomic whose address is not a multiple of its size, or lies outside its space, is an illegal-state
trap with the address in %trapaddr; no thread of the issue group executes the word. So is an atomic on the bucket memory at DEV or SYS, and one on
an address whose translation lies in the system range. -/
def Obligations.BadAddressTraps : Prop := ∀ (s : State) (f : MemF) (w : Nat),
  let n := szBytes f.sz
  let one := fun (i : Instr) (a : ThreadId → DWord) (store : Bool) (more : ThreadId → Bool) =>
    let bad := (s.executing i).filter (fun t => (a t).toNat % n != 0 || (s.place t.wg f.sp (a t) n).isNone || (f.sp == .bucket && store && s.isGfx t.wg)
      || more t)
    i.wf = true → Ready s i → bad ≠ [] → UserTrap s w bad →
    ∃ z, exec i s = .next z ∧ TrapsTaken s z w (bad.map (fun t => (t, { cause := 2, addr := a t })))
      ((s.issuing i).filter (fun t => !bad.contains t && t.wg == w)) Thread.pc
  let a := memAddr s f.sp f.a f.b f.idx f.c f.sz
  let b := fun t => (if f.sp = .global then s.rd64 t f.a else (s.rd t f.a).setWidth 64) + ((s.rd t f.b).setWidth 64 <<< f.idx.toNat)
  let far := fun t => (f.sp == .bucket && (f.sc == .dev || f.sc == .sys))
    || (f.sp == .global && match (s.xlate (s.coreOf t / 32) (s.ctxOf t.wg) (b t).toNat { r := true, w := true }).2 with
      | .ok x => inSystem x.pa
      | .error _ => false)
  one (.ld f) a false (fun _ => false) ∧ one (.st f) a true (fun _ => false) ∧ one (.atom f) b true far ∧ one (.acas f) b true far ∧ one (.red f) b true far

/-- R369, R378, R406, R135, R270: where the tensor handle of each executing thread has been read without a fault, LDP, STP and PLADD make
one access per thread (PLADD: per group) pending, with the handle, the block, and what they will store; reading the handles changes only
what the memory system holds. R216, R217, R219, R222, R407, R390: where its records have been read without a fault and hold no fate, TEX,
TEXG and RAYQ make one access per executing thread pending, with the records and the registers they take; reading the records changes
only what the memory system holds. -/
def Obligations.PlaneAndSamplingWordsIssue : Prop :=
  (∀ (s : State) (f : MemF) (hb : ThreadId → List Byte) (h : ThreadId → Handle) (b : ThreadId → Nat),
  let records := fun (i : Instr) (planes : Handle → Nat) =>
    let r := s.readRecords i 0 (handleReq f.a)
    i.wf = true ∧ Ready s i ∧ r.1.issue = s.issue ∧ ∀ t ∈ s.executing i, r.1.handleFor r.2 f.a f.b planes t = .ok (hb t, h t, b t)
  let goes := fun (i : Instr) (as : State → List Acc) =>
    let u := (s.readRecords i 0 (handleReq f.a)).1
    MemoryOnly s u ∧ ∃ z, exec i s = .next z ∧ Pends s u z i (as u)
  let access := fun (u : State) (t : ThreadId) (own : List ThreadId) (op : AccOp) (ch : Hint) (flag : Option Nat) =>
    ({ t := t, owners := own, op := op, exec := u.fresh, space := .global, sc := f.sc, ord := f.ord, ch := ch, va := 0, size := 0
       flag := flag, fault := none, passed := false, leaf := none } : Acc)
  (records (.ldp f) (fun h => planesRead (f.c.toNat % 32) h.pcnt (f.c.getLsbD 7)) → goes (.ldp f) (fun u => (s.executing (.ldp f)).map (fun t => access u t [t]
      (.ldp f.d (hb t) (b t) (f.c.toNat % 32) (f.c.getLsbD 7) (if f.idx = 1 then some (s.laneOf t % 4) else none)) f.ch (flagA s t))))
  ∧ (records (.stp f) Handle.pcnt → (∀ t ∈ s.executing (.stp f), ∀ n, f.d = .v n → n.val + ((h t).pcnt + 1) / 2 < s.nregOf t.wg) →
      goes (.stp f) (fun u => (s.executing (.stp f)).map (fun t => access u t [t]
        (.stp (hb t) (b t) ((List.range (h t).pcnt).map (fun j => ((s.rdK t f.d (j / 2)) >>> (16 * (j % 2))).setWidth 16))
          ((s.rdK t f.d (((h t).pcnt + 1) / 2)).setWidth 8)) f.ch (flagB s t))))
  ∧ (records (.pladd f) Handle.pcnt → (∀ t ∈ s.executing (.pladd f), (s.readRecords (.pladd f) 0 (handleReq f.a)).1.blockInSystem t (h t) (b t) = none) →
      goes (.pladd f) (fun u =>
      ((s.executing (.pladd f)).filter (fun t => decide ((groupOf s (.pladd f) t).headD t = t))).map (fun t =>
        access u t (groupOf s (.pladd f) t) (.pladd (hb t) (s.pladdUps f (groupOf s (.pladd f) t))) .normal (flagB s t)))))
  ∧ (∀ (s : State) (f : OwnF) (nc : Fin 4) (any : Bool),
  let access := fun (u : State) (t : ThreadId) (op : AccOp) =>
    ({ t := t, owners := [t], op := op, exec := u.fresh, space := .global, sc := .grp, ord := .plain, ch := .normal, va := 0, size := 0
       flag := flagA s t, fault := none, passed := false, leaf := none } : Acc)
  let tex := fun (i : Instr) (grad : Bool) =>
    let r := s.texRecords i f
    let of := fun (xs : List (ThreadId × List Byte)) t => (mget xs t).getD []
    let d := of r.2.1
    let hd := of r.2.2.1
    let hp := of r.2.2.2.1
    let taps := of r.2.2.2.2
    let n := fun t => (if grad then 6 else 2) + (if usesRef (hp t) (taps t) then 1 else 0)
    let args := fun t => (List.range (n t)).map (fun k => s.rdK t f.a k)
    i.wf = true → Ready s i → r.1.issue = s.issue →
    (∀ t ∈ s.executing i, (mget r.2.1 t).isSome = true ∧ descOk (d t) = true ∧ descPlanesOk (d t) (hd t) = true ∧ progOk (hp t) (taps t) = true
      ∧ (∀ v, f.a = .v v → v.val + n t ≤ s.nregOf t.wg)
      ∧ ∀ x, (filterRun (coreRead (s.coreOf t) (s.ctxOf t.wg)) (d t ++ hd t) (hp t ++ taps t) grad (s.ftz t) (args t) r.1).2 ≠ .error (.fate x)) →
    MemoryOnly s r.1 ∧ ∃ z, exec i s = .next z ∧ Pends s r.1 z i ((s.executing i).map (fun t =>
      access r.1 t (.tex f.d nc.val grad (d t ++ hd t) (hp t ++ taps t) (args t) (s.ftz t))))
  tex (.tex f nc) false ∧ tex (.texg f nc) true
    ∧ (let i := Instr.rayq f any
       let r := s.readRecords i 6 (sceneReq f)
       let sc := fun t => (mget r.2 t).getD []
       let args := fun t => (List.range 9).map (fun k => s.rdK t f.a k)
       i.wf = true → Ready s i → r.1.issue = s.issue →
       (∀ t ∈ s.executing i, (mget r.2 t).isSome = true ∧ sceneOk (sc t) = true
         ∧ ∀ x, (rayRun (coreRead (s.coreOf t) (s.ctxOf t.wg)) (sc t) any (args t) r.1).2 ≠ .error (.fate x)) →
       MemoryOnly s r.1 ∧ ∃ z, exec i s = .next z ∧ Pends s r.1 z i ((s.executing i).map (fun t =>
         access r.1 t (.rayq f.d any (sc t) (args t))))))

/-- R85, R94, R351: FENCE.REL at CL or wider writes back what its workgroup has dirtied: no line of its core's L1 holds such a dirty byte
afterwards, and every such byte is in memory, or for a remote S page in the die's L2. Threads go on, and the rest of memory reads as before; at GRP
and WG the release goes by the accesses that are performed past the core (log 67). R95, R408: after TFENCE every store of its threads stands
at its home: no line of the core's L1 is dirty for their workgroups, no line that the die's L2 holds for another home is dirty, and the bytes that
were are in memory. A line reached through C and S pages alike is left out, since its contents are unspecified (R69). -/
def Obligations.ReleasesAndTranslationFence : Prop :=
  (∀ (s : State) (f : MemF) (c : Nat), Canonical s →
  let i := Instr.fenceRel f
  let ex := s.executing i
  i.wf = true → Ready s i → (∀ t ∈ ex, s.coreOf t = c) →
  ∃ z, exec i s = .next z ∧ ThreadsAndMemory (if Scope.wide f.sc then s else s.goBy ex) z ∧ ThreadsGo s z i (fun _ => Thread.advance)
    ∧ (Scope.wide f.sc = true → Released s z c (fun w => ∃ t ∈ ex, t.wg = w))
    ∧ KeepsBytes s z (fun d => d = c))
  ∧ (∀ (s : State) (f : MemF) (c : Nat), Canonical s →
  let i := Instr.tfence f
  i.wf = true → Ready s i → (∀ t ∈ s.executing i, s.coreOf t = c) → s.executing i ≠ [] →
  ∃ z, exec i s = .next z ∧ ThreadsAndMemory s z ∧ ThreadsGo s z i (fun _ => Thread.advance)
    ∧ Released s z c (fun w => ∃ t ∈ s.executing i, t.wg = w)
    ∧ (∀ n l, mget (z.die (c / 32)).l2 n = some l → l.dirty = 0)
    ∧ (∀ n l, mget (s.die (c / 32)).l2 n = some l → ∀ k < 128, l.dirty.getLsbD k = true → OneKind z (128 * n + k) →
        (∀ y ∈ (s.core c).l1, y.line = n → y.dirty.getLsbD k = false) → Mem.rd z.mem (128 * n + k) = lineGet l.data k)
    ∧ (((s.core c).l1.map L1Line.line).Nodup → ∀ t ∈ s.executing i, ∀ l ∈ (s.core c).l1, DirtyFor s t.wg l → heldApart (c / 32) (128 * l.line) l.attr = true → c < 128 →
        ∀ k < 128, l.dirty.getLsbD k = true → OneKind z (128 * l.line + k) → Mem.rd z.mem (128 * l.line + k) = lineGet l.data k)
    ∧ KeepsBytes s z (fun d => d = c))

/-- R86, R94: FENCE.ACQ at CL or wider leaves no clean byte valid in a line of its core's L1 whose INJ bit is clear, and keeps every dirty
byte and every injected line; memory is as it was. -/
def Obligations.AcquireDropsClean : Prop := ∀ (s : State) (f : MemF) (c : Nat),
  let i := Instr.fenceAcq f
  i.wf = true → Ready s i → (∀ t ∈ s.executing i, s.coreOf t = c) → s.executing i ≠ [] →
  ∃ z, exec i s = .next z ∧ ThreadsGo s z i (fun _ => Thread.advance)
    ∧ z = { s with threads := z.threads, cores := z.cores, dies := z.dies }
    ∧ (Scope.wide f.sc = false → z.cores = s.cores ∧ z.dies = s.dies)
    ∧ (Scope.wide f.sc = true → ∀ l ∈ (z.core c).l1, l.inj = false → l.valid = 0)
    ∧ (∀ l ∈ (s.core c).l1, l.inj = true → l ∈ (z.core c).l1)
    ∧ (∀ l ∈ (s.core c).l1, l.dirty ≠ 0 → ∃ l' ∈ (z.core c).l1, l'.line = l.line ∧ l'.dirty = l.dirty ∧ l'.data = l.data)
    ∧ (f.sc ≠ .sys → z.dies = s.dies)

/-- R382, R103, R104, R383, R79: PREF always completes. It stores nothing: memory changes only where a cache of its core or die wrote back a byte
that it held dirty. PUBLISH, whose index names a region of its context, flips the live bit of the region, once per group, when no L1 and no L2
holds a line of the region any more, whatever mapping the line was reached through; memory changes only by the bytes so written back. -/
def Obligations.PrefetchAndPublish : Prop := ∀ (s : State) (f : MemF) (g : GroupId) (r : Region), Canonical s →
  ((Instr.pref f).wf = true → Ready s (.pref f) →
    ∃ z, exec (.pref f) s = .next z ∧ ThreadsAndMemory s z ∧ ThreadsGo s z (.pref f) (fun _ => Thread.advance)
      ∧ KeepsBytes s z (fun c => ∃ t ∈ s.executing (.pref f), s.coreOf t = c))
  ∧ (let i := Instr.publish f
     let t := (s.executing i).headD ⟨0, 0, 0⟩
     let k := (s.rd t f.a).toNat
     let v := s.release (s.coreOf t) (s.tagOf g.wg) f.sc
     i.wf = true → ReadyIn s i g → mget s.regions k = some r → r.ctx = s.ctxOf g.wg →
     ∃ u z, exec i s = .next z ∧ MemoryOnly s u
       ∧ z = { u with threads := z.threads, regions := z.regions } ∧ ThreadsGo s z i (fun _ => Thread.advance)
       ∧ mget z.regions k = some { r with live := !r.live } ∧ (∀ j, j ≠ k → mget z.regions j = mget s.regions j)
       ∧ (∀ c, ∀ l ∈ (z.core c).l1, l.attr.rg ≠ some k ∧ v.inRegion k l.line = false)
       ∧ (∀ d < 4, ∀ e ∈ (z.die d).l2, e.2.rg ≠ some k ∧ v.inRegion k e.1 = false)
       ∧ KeepsBytes s z (fun _ => True))

/-- R411, R412: at WAITA a thread waits with the word it watches and its target. When a read of the word gives the target or more, it wakes:
it goes on past the WAITA, and the wake is an acquire; a smaller value leaves it waiting. -/
def Obligations.WatchedWord : Prop := ∀ (s : State) (f : MemF),
  let i := Instr.waita f
  let a := fun t => (if f.sp = .global then s.rd64 t f.a else (s.rd t f.a).setWidth 64) + BitVec.ofInt 64 (f.c.toInt * 8)
  (i.wf = true → Ready s i → (∀ t ∈ s.executing i, Reaches s t f.sp (a t) 8 false) →
    ∃ z, exec i s = .next z ∧ z = { s with threads := z.threads }
      ∧ ThreadsGo s z i (fun t x => { x with wait := .waita, watch := some (f.sc, f.sp, a t, s.rd64 t f.b) }))
  ∧ (∀ t x sc sp b target u v, s.thr t = some x → x.wait = .waita → x.watch = some (sc, sp, b, target) → WatchClear s t sp b →
    watched s t sc sp b = some (u, v) → MemoryOnly s u ∧
      (v < target.toNat → exec (.waitaWake t) s = .next u)
      ∧ (target.toNat ≤ v → ∃ y z, exec (.waitaWake t) s = .next z ∧ MemoryOnly u y
          ∧ z = y.updThr t (fun x => ({ x with wait := .none, watch := none } : Thread).advance)
          ∧ (Scope.wide sc = true → ∀ l ∈ (z.core (s.coreOf t)).l1, l.inj = false → l.valid = 0)))

/-- R47 to R50, R387, R388: QSEND appends the words of its group's threads to the channel, lowest lane first, when all find room (.NB: as many
as do), as a release; QRECV takes the oldest words; else the threads wait (.NB: their predicate is set). CHANNEL_WAKE lets waiting
threads try again when the count has changed. -/
def Obligations.ChannelTransfers : Prop := ∀ (s : State) (f : MemF) (g : GroupId) (lr : Launch) (c : Cluster),
  let ch := f.c.toNat % 16
  let nb := f.c.getLsbD 7
  let k := ((s.wg g.wg).map Workgroup.cluster).getD 0
  let core := ((s.wg g.wg).map Workgroup.coreIx).getD 0
  let words := c.chans.getD ch []
  let go := fun (ex : List ThreadId) (n : Nat) (t : ThreadId) (x : Thread) =>
    if nb then { x.advance with preds := setPred x.preds f.idx.toNat (decide (n ≤ ex.idxOf t)) }
    else if n < ex.length then { x with wait := .chan k ch } else x.advance
  let holds := fun (z : State) (ws : List Word) => (∃ c', mget z.clusters k = some c' ∧ { c' with stirred := c.stirred } = { c with chans := c.chans.set ch ws })
    ∧ ∀ j, j ≠ k → mget z.clusters j = mget s.clusters j
  s.lrOf g.wg = some lr → lr.chen = true → mget s.clusters k = some c → ch < c.chans.length →
  (let i := Instr.qsend f
   let ex := s.executing i
   let room := 256 - words.length
   let n := if nb then min room ex.length else if ex.length ≤ room then ex.length else 0
   i.wf = true → ReadyIn s i g →
   ∃ u z, exec i s = .next z ∧ MemoryOnly s u ∧ z = { u with threads := z.threads, clusters := z.clusters } ∧ ThreadsGo s z i (go ex n)
     ∧ holds z (words ++ (ex.take n).map (fun t => s.rd t f.d))
     ∧ (n ≠ 0 ∨ nb = true → ∀ l ∈ (z.core core).l1, ¬ DirtyFor s g.wg l))
  ∧ (let i := Instr.qrecv f
     let ex := s.executing i
     let n := if nb then min words.length ex.length else if ex.length ≤ words.length then ex.length else 0
     i.wf = true → ReadyIn s i g →
     ∃ u z, exec i s = .next z ∧ MemoryOnly s u ∧ z = { u with threads := z.threads, clusters := z.clusters } ∧ z.mem = s.mem
       ∧ (∀ t, t ∉ ex → z.thr t = if t ∈ s.issuing i then (s.thr t).map Thread.advance else s.thr t)
       ∧ (∀ t ∈ ex, ∀ x, s.thr t = some x → ∃ y, z.thr t = some y ∧ { y with regs := x.regs } = go ex n t x
           ∧ ∀ r, y.regs.getD r 0 = if ex.idxOf t < n then afterV f.d [words.getD (ex.idxOf t) 0] (fun r => x.regs.getD r 0) r else x.regs.getD r 0)
       ∧ holds z (words.drop n)
       ∧ (n ≠ 0 → ∀ l ∈ (z.core core).l1, l.inj = false → l.valid = 0))
  ∧ (ch ∈ c.stirred → ∃ z, exec (.channelWake k ch) s = .next z ∧ z = { s with threads := z.threads, clusters := z.clusters }
      ∧ mget z.clusters k = some { c with stirred := c.stirred.erase ch } ∧ (∀ j, j ≠ k → mget z.clusters j = mget s.clusters j)
      ∧ ∀ t, z.thr t = (s.thr t).map (fun x => { x with wait := if x.wait = .chan k ch then .none else x.wait }))

/-- R366, R402, R73, R270, R82, R83: LOAD_COMPLETE and STORE_COMPLETE perform an access and the lanes that the coalescer takes with it, one after
another; a lane of the page may take the translation just made. When a load is performed its registers hold the bytes at its place; an acquire load
then acquires. When a store is performed, a release store first releases; then its bytes stand at its place: dirty in the core's L1 for a plain
store or one at GRP or WG, dirty in the die's L2 for a remote S page, else in memory. Memory changes beside only by bytes that caches held dirty.
The access is complete, and its threads' flag counts it no more; of a 16-byte access either half may be performed first, and then the other
remains. -/
def Obligations.LoadsAndStoresComplete : Prop := ∀ (s : State) (id : Nat) (a : Acc), Canonical s → Due s id a →
  let c := s.coreOf a.t
  let v := if a.halved false = none then s else s.bump
  let b := ((s.halfOf a).map Prod.fst).getD a
  let rest := (s.halfOf a).map Prod.snd
  let z := s.completeOne id
  let acq := fun (u : State) => if b.ord = .sync then u.acquire c b.sc else u
  let rel := fun (u : State) => if b.ord = .sync then u.release c (s.tagOf a.t.wg) b.sc else u
  (∃ u, exec (if loadClass a then .loadComplete id else .storeComplete id) s
        = .next (((s.accs.filter (fun e => e.1 == id || lineMate a e.2)).map Prod.fst).foldl State.completeOne u)
      ∧ u = { s with accs := u.accs } ∧ u.accs.map Prod.fst = s.accs.map Prod.fst
      ∧ ∀ n y, mget s.accs n = some y → ∃ lf, mget u.accs n = some { y with leaf := lf } ∧ (lf = y.leaf ∨ y.leaf = none ∧ y.exec = a.exec
        ∧ ∃ x, (s.xlateAcc a (accNeeds a).1).2 = .ok x ∧ x.base ≤ y.va.toNat ∧ y.va.toNat < x.base + x.size
          ∧ lf = some ⟨s.ctxOf a.t.wg, x.base, x.size, BitVec.ofNat 64 x.pte⟩))
  ∧ (∀ r, rest = some r → ∃ hi : Bool, b.va = (if hi then a.va + 8 else a.va) ∧ r.va = (if hi then a.va else a.va + 8)
      ∧ b.size = 8 ∧ r.size = 8 ∧ ((∃ d sx, a.op = .load d .b128 sx ∧ b.op = .load (if hi then upper2 d else d) .b64 sx
          ∧ r.op = .load (if hi then d else upper2 d) .b64 sx ∧ r.ord = a.ord)
        ∨ ∃ bs, a.op = .store bs ∧ bs.length = 16 ∧ b.op = .store (if hi then bs.drop 8 else bs.take 8)
          ∧ r.op = .store (if hi then bs.take 8 else bs.drop 8) ∧ b.ord = a.ord))
  ∧ (∀ d sz sx, b.op = .load d sz sx → b.size = szBytes sz → Fits s a.t d ((szBytes sz + 3) / 4) →
    (∀ w off, b.space ≠ .global → s.place a.t.wg b.space b.va b.size = some (.spad w off) →
      Performed (acq v) z id b rest d (loadWords sz sx (s.spadRead w off b.size)))
    ∧ (∀ e off, b.space ≠ .global → s.place a.t.wg b.space b.va b.size = some (.bk e off) →
      Performed (acq v) z id b rest d (loadWords sz sx ((List.range b.size).map (fun k => (s.die e).bkByte e (off + k)))))
    ∧ (∀ u x, b.space = .global → v.xlateAcc b { r := true } = (u, .ok x) →
      let r := levelRead b.sc b.ord b.ch c u x.pa b.size x.attr
      Performed (acq r.1) z id b rest d (loadWords sz sx r.2)))
  ∧ (∀ bs, b.op = .store bs → b.size = bs.length →
    (∀ w off x, b.space ≠ .global → s.place a.t.wg b.space b.va b.size = some (.spad w off) → s.wg w = some x →
      ∃ y : State, y = { rel v with wgs := y.wgs } ∧ Performed (y.passBy b) z id b rest .z []
        ∧ (∃ x', y.wg w = some x' ∧ { x' with spad := x.spad } = x ∧ ∀ k, Mem.rd x'.spad k = placed off bs (Mem.rd x.spad) k)
        ∧ ∀ w', w' ≠ w → y.wg w' = s.wg w')
    ∧ (∀ e off, b.space ≠ .global → s.place a.t.wg b.space b.va b.size = some (.bk e off) → e < 4 →
      ∃ y : State, y = { rel v with dies := y.dies } ∧ Performed (y.passBy b) z id b rest .z []
        ∧ (∀ k, (y.die e).bkByte e k = placed off bs ((s.die e).bkByte e) k) ∧ ∀ e', e' ≠ e → y.die e' = (rel v).die e')
    ∧ (∀ u x, b.space = .global → v.xlateAcc b { w := true } = (u, .ok x) → x.pa % 128 + bs.length ≤ 128 →
      let past := (b.ord ≠ .plain ∧ Scope.wide b.sc = true) ∨ x.attr.l2Only = true ∨ b.ch = .bypass
      ∃ y, MemoryOnly (rel u) y ∧ Performed (y.passBy b) z id b rest .z []
        ∧ (∀ k, ¬ (x.pa ≤ k ∧ k < x.pa + bs.length) → CleanAt (rel u) (fun d => d = c) k → OneKind y k → Mem.rd y.mem k = Mem.rd (rel u).mem k)
        ∧ (¬ past → ∃ l ∈ (y.core c).l1, l.line = x.pa / 128 ∧ (l.tag = s.tagOf a.t.wg ∨ l.tag = 63)
          ∧ ∀ k < bs.length, l.dirty.getLsbD (x.pa % 128 + k) = true ∧ lineGet l.data (x.pa % 128 + k) = bs.getD k 0)
        ∧ (past → inSystem x.pa = true ∨ heldApart (c / 32) x.pa x.attr = false → ∀ k, OneKind y k →
          Mem.rd y.mem k = placed x.pa bs (Mem.rd (rel u).mem) k)
        ∧ (past → inSystem x.pa = false → heldApart (c / 32) x.pa x.attr = true → c < 128 →
          ∃ l, mget (y.die (c / 32)).l2 (x.pa / 128) = some l
            ∧ ∀ k < bs.length, l.dirty.getLsbD (x.pa % 128 + k) = true ∧ lineGet l.data (x.pa % 128 + k) = bs.getD k 0)))

/-- R87, R69: what is stored is what is loaded. Bytes that a core stores at CL or wider to a page that is not S are read at CL or wider by any
core whose L1 holds none of those bytes dirty (unless the line has also been reached through an S page); bytes that a core stores plainly are read by
its own plain loads. -/
def Obligations.StoredBytesAreRead : Prop := ∀ (s : State) (a : PageAttr) (c e pa : Nat) (bs : List Byte), Canonical s → pa % 128 + bs.length ≤ 128 →
  (∀ sc sc' ord ord' ch ch', Scope.wide sc = true → Scope.wide sc' = true → ord ≠ .plain → ord' ≠ .plain → a.s = false → inSystem pa = false →
    (∀ l ∈ (s.core e).l1, l.line = pa / 128 → ∀ k, k < bs.length → l.dirty.getLsbD (pa % 128 + k) = false) →
    ∀ tag, OneKind (levelWrite sc ord ch c tag s pa a bs) pa → (levelRead sc' ord' ch' e (levelWrite sc ord ch c tag s pa a bs) pa bs.length a).2 = bs)
  ∧ (∀ sc ch ch' tag, a.l2Only = false → ch ≠ .bypass → ch' ≠ .bypass → pa % 32 + bs.length ≤ 32 →
    (levelRead sc .plain ch' c (levelWrite sc .plain ch c tag s pa a bs) pa bs.length a).2 = bs)

/-- R109, R113, R316, R317, R322, R393: an atomic is performed lane by lane: each lane reads its place, and leaves there the new value of R113 (a compare
and swap that does not match leaves the old one). A returning atomic gives each lane's register the old value it read and its flags; RED raises its
flags in DASR of the die that performs it (R114). The place is the scratchpad, or for a global address the home at DEV and SYS, the die's L2 at CL
and DIE, the L1 at GRP and WG, once the issuing core's own bytes are there; other bytes are as they were. It releases before and acquires after
when it is ordered so (R85, R86). An address of the system range is an illegal-state trap (R109). R115, R378: PLADD at DEV and SYS leaves at home the
exponent and the planes of R378's sum. Stated for REDs into which no other one merges (R112). -/
def Obligations.AtomicsComplete : Prop := ∀ (s : State) (id : Nat) (a : Acc), Canonical s → Due s id a → (s.accs.map Prod.fst).Nodup →
  let c := s.coreOf a.t
  let ctx := s.ctxOf a.t.wg
  let ev := if loadClass a then Instr.loadComplete id else Instr.storeComplete id
  (∀ (k : AtKind) (ret : Bool) (sz : Sz) (ls : List AtLane) (d : Opnd), a.op = .atoms k ret sz ls → ls ≠ [] → a.owners = ls.map AtLane.t →
  (∀ l ∈ ls, s.coreOf l.t = c) → sz = .b32 ∨ sz = .b64 → (ret = true → ∀ l ∈ ls, l.d = d ∧ d.isS = false ∧ Fits s l.t d (szBytes sz / 4)) →
  s.redMates id a = [] → (ret = true ∨ (∀ l ∈ ls, s.native l.t = false) ∨ (ls.map AtLane.va).Nodup) →
  let n := szBytes sz
  let w := 8 * n
  let rel := fun (u : State) => if a.ord = .sync then u.releaseTags c (ls.map (fun l => s.tagOf l.t.wg)) a.sc else u
  let result := fun (l : AtLane) (m : Nat) =>
    let v := l.x.toNat % 2 ^ w
    (match k with
    | .cas => ((if m = v then l.y.toNat % 2 ^ w else m), (0 : Fl))
    | .rmw op => match op.toNat with
      | 0 => ((m + v) % 2 ^ w, 0)
      | 1 => ((if sgn w m ≤ sgn w v then m else v), 0)
      | 2 => ((if sgn w v ≤ sgn w m then m else v), 0)
      | 3 => (min m v, 0)
      | 4 => (max m v, 0)
      | 5 => (m &&& v, 0)
      | 6 => (m ||| v, 0)
      | 7 => (m ^^^ v, 0)
      | 8 => (v, 0)
      | 9 => fpOp (addV .rne) (m, 0) (v, 0)
      | 10 => minMaxF fp32 false m v
      | _ => minMaxF fp32 true m v)
  let new := fun l m => (result l m).1
  let words := fun (m : Nat) => if sz = .b64 then [BitVec.ofNat 32 m, BitVec.ofNat 32 (m / 2 ^ 32)] else [BitVec.ofNat 32 m]
  let ends := fun (y z : State) (rs : List (AtLane × Nat)) =>
    if ret then LanesComplete (y.passBy a) z id a d (rs.map (fun p => (p.1.t, words p.2, (result p.1 p.2).2))) else Completes (y.passBy a) z id a .z []
  let flags := fun (rs : List (AtLane × Nat)) => rs.foldl (fun (b : BitVec 5) p => b ||| dasrOf (result p.1 p.2).2) 0
  let raised := fun (h z : State) (at' : Nat → BitVec 5) => ret = false → ∀ e < 4, (z.die e).dasr = (h.die e).dasr ||| at' e
  (∀ pos : AtLane → Nat, a.space ≠ .global → (∀ l ∈ ls, pos l % 2 ^ 32 + n ≤ 2 ^ 32 ∧ (s.wg (pos l / 2 ^ 32)).isSome = true
      ∧ s.place l.t.wg a.space l.va n = some (.spad (pos l / 2 ^ 32) (pos l % 2 ^ 32))) →
    let pads := fun (u : State) (k : Nat) => Mem.rd (((u.wg (k / 2 ^ 32)).map Workgroup.spad).getD []) (k % 2 ^ 32)
    let r := inOrder n new (pads s) (ls.map (fun l => (l, pos l)))
    ∃ v y z, exec ev s = .next z ∧ MemoryOnly s v ∧ (a.ord ≠ .sync → v.mem = s.mem) ∧ y = { v with wgs := y.wgs } ∧ ends y z r.2
      ∧ (∀ k, pads z k = r.1 k) ∧ raised s z (fun e => if e = c / 32 then flags r.2 else 0)
      ∧ ∀ w, (s.wg w = none → z.wg w = none) ∧ ∀ x, s.wg w = some x → ∃ x', z.wg w = some x' ∧ { x' with spad := x.spad } = x)
  ∧ (∀ u xs, a.space = .global → a.sc = .dev ∨ a.sc = .sys → s.xlateAll (c / 32) ctx { r := true, w := true } (ls.map AtLane.va) = (u, .ok xs) →
    (∀ x ∈ xs, inSystem x.pa = false ∧ CleanLine u c x.pa) →
    let h := rel u
    let r := inOrder n new (Mem.rd h.mem) (ls.zip (xs.map Xl.pa))
    ∃ y z, exec ev s = .next z ∧ MemoryOnly h y ∧ ends y z r.2 ∧ (∀ k, Mem.rd z.mem k = r.1 k)
      ∧ raised h z (fun e => flags (((r.2.zip xs).filter (fun p => decide (atDie c p.2.pa p.2.attr .home = e))).map Prod.fst)))
  ∧ (∀ l u x, a.space = .global → ls = [l] → s.xlateAll (c / 32) ctx { r := true, w := true } [l.va] = (u, .ok [x]) → inSystem x.pa = false →
    let p := atPlace a.sc x.attr
    let r := (rel u).atRead c x.pa n x.attr p
    let m := leNat r.2
    ∃ y z, exec ev s = .next z ∧ MemoryOnly r.1 y ∧ ends y z [(l, m)]
      ∧ (p = .home → ∀ k, Mem.rd z.mem k = placed x.pa (leBytes n (new l m)) (Mem.rd r.1.mem) k)
      ∧ (p ≠ .home → x.pa % 32 + n ≤ 32 → OneKind z x.pa → c < 128 → (z.atRead c x.pa n x.attr p).2 = leBytes n (new l m)
        ∧ ∀ k, ¬ (x.pa ≤ k ∧ k < x.pa + n) → CleanAt r.1 (fun d => d = c) k → OneKind z k → Mem.rd z.mem k = Mem.rd r.1.mem k)
      ∧ (c < 128 → raised r.1 z (fun e => if e = atDie c x.pa x.attr p then dasrOf (result l m).2 else 0)))
  ∧ (∀ l u x, a.space = .global → ls = [l] → s.xlateAll (c / 32) ctx { r := true, w := true } [l.va] = (u, .ok [x]) → inSystem x.pa = true →
    Keyed s → UserTrap s l.t.wg [l.t] → (∀ y, s.thr l.t = some y → y.exited = false) → a.t = l.t →
    ∃ y z, exec ev s = .next z ∧ y = { u with threads := y.threads, accs := mdel s.accs id }
      ∧ (∀ t, y.thr t = (s.thr t).map (fun x => if t = l.t then x.uncount a.flag else x))
      ∧ TrapsTaken y z l.t.wg [(l.t, { cause := 2, addr := l.va })] [] Thread.savedPc))
  ∧ (∀ hb b us h u xs, a.op = .pladd hb [(b, us)] → handleOf hb = some h → a.sc = .dev ∨ a.sc = .sys →
    s.xlateAll (c / 32) ctx { r := true, w := true } ((blockAddrs h b h.pcnt).map (fun p => BitVec.ofNat 64 p.1)) = (u, .ok xs) →
    (∀ x ∈ xs, inSystem x.pa = false ∧ CleanLine u c x.pa) →
    let g := if a.ord = .sync then u.release c (s.tagOf a.t.wg) a.sc else u
    let pas := xs.map Xl.pa
    let planes := (pas.drop 1).map (fun pa => valueAt (Mem.rd g.mem) pa 2)
    let r := pladdApply h.pcnt (valueAt (Mem.rd g.mem) (pas.headD 0) 1) ((List.range 16).map (fun i => mant h.pcnt planes i))
      (us.map (fun w => decodeF fp32 w.toNat))
    let bytes := [BitVec.ofNat 8 r.1] :: ((r.2.1.map (planesOf h.pcnt)).getD planes).map (leBytes 2)
    ∃ y z, exec ev s = .next z ∧ MemoryOnly g y ∧ Completes (y.passBy a) z id a .z []
      ∧ (∀ k, Mem.rd z.mem k = placedAll (pas.zip bytes) (Mem.rd g.mem) k)
      ∧ ∀ e < 4, (z.die e).dasr = (g.die e).dasr ||| (if (xs.head?).map (fun x => atDie c x.pa x.attr .home) = some e then r.2.2 else 0))

/-- R73, R256, R257, R423: a load or store whose translation fails is held by a page fault that names it, with the instruction's other
accesses to that page (the record gives the address of the first: log 63); a fault that a unit has met is
noted. The hub writes the oldest noted fault of a function to its ring, with the record number as TAG, FTAIL after it, and raises vector
1; while the ring is full it writes nothing. R257, R258, R300, R423: an answer names a pending fault of its function by TAG. Replay lets
the held accesses be performed again, a thread held at a record or a fetch go on when nothing else holds its group, and an engine's
command go on at COMMAND_RESUME; another TAG is refused. A cancelled access is dropped, and its thread traps with cause 7 and the R76 cause
as INFO, when the thread has stopped at a word or before a clause (log 62). Rings are registered and removed. -/
def Obligations.PageFaultsAreRecordedAndAnswered : Prop :=
  (∀ (s : State), Canonical s →
  (∀ id a f u, Due s id a → a.space = .global → (∀ e ∈ s.accs, e.2.exec = a.exec → e.2.fault = none) →
    (∀ t ∈ a.owners, ∀ x, s.thr t = some x → x.sys = false) →
    ((∃ d sz sx, a.op = .load d sz sx) ∧ s.xlateAcc a { r := true } = (u, .error f) ∨ (∃ bs, a.op = .store bs) ∧ s.xlateAcc a { w := true } = (u, .error f)) →
    f.cause ≠ lostCause →
    let mates := (s.accs.filter (fun e => e.1 == id || (e.2.exec == a.exec && e.2.t.wg == a.t.wg && e.2.fault.isNone && e.2.space == .global
      && (f.page ≤ e.2.va.toNat && e.2.va.toNat < f.page + f.size) && e.2.owners.all (fun t => !((s.thr t).map Thread.sys).getD false)))).map Prod.fst
    ∃ p, exec (.pageFault (.access id)) s = .next { s with
        accs := s.accs.map (fun e => (e.1, if mates.contains e.1 then { e.2 with fault := some s.fresh, leaf := none } else e.2))
        faults := s.faults ++ [(s.fresh, p)], fresh := s.fresh + 1 }
      ∧ p.site = .access id ∧ some p.va = ((mates.head?).bind (mget s.accs)).map Acc.va ∧ p.cause = f.cause ∧ p.acc = (if accReads a.op then 0 else 1) ∧ p.unit = 0
      ∧ p.ctx = s.ctxOf a.t.wg ∧ p.page = f.page ∧ p.size = f.size ∧ p.noted = true ∧ p.tag = none ∧ p.replayed = false
      ∧ (∀ w, s.wg a.t.wg = some w → p.die = w.die ∧ p.core = w.core))
  ∧ (∀ site, (∀ id, site ≠ .access id) → ∃ z, exec (.pageFault site) s = .next z ∧ z = { s with faults := z.faults }
      ∧ ∀ k p, mget s.faults k = some p → mget z.faults k = some (if p.site = site then { p with noted := true } else p))
  ∧ (∀ fn r k p, mget s.rings fn = some r →
      s.faults.find? (fun e => decide (e.2.fn = fn ∧ e.2.noted = true ∧ e.2.tag = none)) = some (k, p) →
      let n := r.ftail
      let at' := r.base.toNat + 64 + 32 * (n % 2 ^ r.flsize)
      let free := BitVec.ofNat 64 n - BitVec.ofNat 64 (leNat (Mem.rdN s.mem (r.base.toNat + 8) 8)) ≠ BitVec.ofNat 64 (2 ^ r.flsize)
      let record := leBytes 8 (p.va.toNat % 2 ^ 60) ++ leBytes 1 p.cause ++ leBytes 1 p.acc ++ leBytes 1 p.unit ++ leBytes 1 p.die
        ++ leBytes 1 p.core ++ leBytes 1 p.slot ++ leBytes 2 p.queue ++ leBytes 2 p.ctx ++ List.replicate 6 0 ++ leBytes 8 n
      (¬ free → exec (.faultRecordWrite fn) s = .next s)
      ∧ (free → inMap r.base.toNat = true → inMap at' = true → ∃ u z, exec (.faultRecordWrite fn) s = .next z
          ∧ Stored { s with rings := mput s.rings fn { r with ftail := n + 1 }, faults := mupd s.faults k (fun x => { x with tag := some n })
                            msix := mput s.msix fn (((mget s.msix fn).getD 0) + 1) } u at' record
          ∧ Stored u z r.base.toNat (leBytes 8 (n + 1)))))
  ∧ (∀ (s : State) (r : MailReq), Canonical s → Accepts s r false →
  let named := fun (tag : DWord) => s.faults.find? (fun e => decide (e.2.fn = r.fn ∧ e.2.tag = some tag.toNat ∧ e.2.replayed = false ∧ e.2.cancelled = false))
  let waits := fun (x : Thread) => x.wait = .record ∨ x.wait = .fetch
  let woken := fun (u : State) => (∀ t, ∃ w : Thread → Wait, u.thr t = (s.thr t).map (fun x => { x with wait := w x })
        ∧ ∀ x, w x = x.wait ∨ (waits x ∧ w x = .none))
    ∧ ∀ g, ∃ h : Group → Bool, u.grp g = (s.grp g).map (fun x => { x with held := h x }) ∧ ∀ x, h x = x.held ∨ h x = false
  (∀ tag, named tag = none → (∃ u, Answers (.faultReplay r tag) s u r 0xFFFFFFFFFFFFFFFE ∧ u = { s with errlog := u.errlog })
    ∧ ∃ u, Answers (.faultCancel r tag) s u r 0xFFFFFFFFFFFFFFFE ∧ u = { s with errlog := u.errlog })
  ∧ (∀ tag k p id, named tag = some (k, p) → p.site = .access id →
      ∃ u, Answers (.faultReplay r tag) s u r 1
        ∧ u = { s with threads := u.threads, groups := u.groups, faults := mdel s.faults k
                       accs := s.accs.map (fun e => (e.1, if e.2.fault = some k then { e.2 with fault := none } else e.2)) }
        ∧ woken u)
  ∧ (∀ tag k p t, named tag = some (k, p) → p.site = .record t ∨ p.site = .fetch t → (∀ e ∈ s.accs, e.2.fault = none) →
      (∀ e ∈ s.faults, e.1 ≠ k → ∀ v, (e.2.site = .record v ∨ e.2.site = .fetch v) → v.group ≠ t.group) →
      ∃ u, Answers (.faultReplay r tag) s u r 1 ∧ u = { s with threads := u.threads, groups := u.groups, faults := mdel s.faults k }
        ∧ (∀ v, u.thr v = (s.thr v).map (fun x =>
            if v.group = t.group ∧ (x.wait = .record ∨ x.wait = .fetch) then { x with wait := .none } else x))
        ∧ ∀ g, u.grp g = (s.grp g).map (fun x => if g = t.group then { x with held := false } else x))
  ∧ (∀ tag k p c w, named tag = some (k, p) → p.site = .matrix c w →
      Answers (.faultReplay r tag) s { s with faults := mupd s.faults k (fun x => { x with replayed := true }) } r 1)
  ∧ (∀ c w k p, (k, p) ∈ s.faults → p.site = .matrix c w → p.replayed = true →
      ∃ z, exec (.commandResume (.matrix c w)) s = .next z ∧ z = { s with faults := z.faults, cores := z.cores }
        ∧ z.faults = s.faults.filter (fun e => decide (e.2.site ≠ .matrix c w)) ∧ (∀ d, d ≠ c → z.core d = s.core d)
        ∧ z.core c = { s.core c with chain := (s.core c).chain.map (fun e => if e.wg = w then { e with fault := false } else e) })
  ∧ (∀ tag k p id, named tag = some (k, p) → p.site = .access id →
      ∃ u, Answers (.faultCancel r tag) s u r 1 ∧ woken u
        ∧ u = { s with threads := u.threads, groups := u.groups, faults := mupd s.faults k (fun x => { x with cancelled := true }) })
  ∧ (∀ base n, base ≠ 0 → 4 ≤ n → n ≤ 16 → GoodBuffer base (64 + 32 * 2 ^ n) 4096 →
      ∃ u, Stored { s with rings := mput s.rings r.fn ⟨base, n, 0⟩ } u base.toNat (List.replicate 64 0)
        ∧ Answers (.faultRingRegister r base n) s u r 1)
  ∧ Answers (.faultRingRemove r) s { s with rings := mdel s.rings r.fn } r 1)
  ∧ ∀ (s : State) (c q id k : Nat) (t : ThreadId) (a : Acc) (p : PFault) (m : State), Keyed s → s.turn = some (.quarter c q) →
    s.accs.filter (fun e => e.2.fault.isSome) = [(id, a)] → a.fault = some k → mget s.faults k = some p → p.cancelled = true →
    (∃ d sz sx, a.op = .load d sz sx) → a.t = t → a.owners = [t] → (∀ e ∈ s.accs, (e.2.t = t ∨ t ∈ e.2.owners) → e = (id, a)) →
    UserTrap s t.wg [t] → Stops s c q t m →
    ∃ u z, step s = .next z.endStep ∧ u = { m with threads := u.threads, accs := mdel s.accs id, faults := u.faults }
      ∧ u.faults = s.faults.filter (fun e => decide (e.2.cancelled = false))
      ∧ (∀ v, u.thr v = (s.thr v).map (fun x => if v = t then x.uncount a.flag else x))
      ∧ TrapsTaken u z t.wg [(t, { cause := 7, info := p.cause, addr := a.va })] [] Thread.savedPc

/-- R235, R263, R300, R422: a queue is created from its descriptor, empty, with HEAD and TAIL zero there too; it is destroyed while it
holds no slot and no work; a reset ends its error state and keeps HEAD and TAIL. A request with a bad argument is refused and changes
nothing but the error log. R74, R77, R78, R79, R260, R300, R422: contexts are defined, keep their handler under a new root, and are
deleted while no queue names them; an invalidation drops every matching entry of every die, leaf or not, and the instruction lines of those pages, and
completes once no access that such an entry has translated is pending;
handlers are registered and removed; regions are created with live bit 0, and deleted. -/
def Obligations.QueueAndContextRequests : Prop :=
  (∀ (s : State) (r : MailReq), Canonical s → Accepts s r false →
  (∀ q n desc, s.queueNo r.fn q = some n → s.queue n = none → desc.toNat % 64 = 0 → inDevice desc.toNat = true →
    let b := Mem.rdN s.mem desc.toNat 64
    s.queueDescOk r.fn b = true →
    ∃ k u, Stored { s with queues := mput s.queues n k } u (desc.toNat + 32) (List.replicate 16 0) ∧ Answers (.queueCreate r q desc) s u r 1
      ∧ k.fn = r.fn ∧ k.desc = desc ∧ k.ring = BitVec.ofNat 64 (fld b 0 8) ∧ k.lsize = fld b 8 1 ∧ k.cls = fld b 9 1 ∧ k.ctx = fld b 10 2
      ∧ k.dlmax = fld b 12 4 ∧ k.csab = BitVec.ofNat 64 (fld b 16 8) ∧ k.csas = BitVec.ofNat 64 (fld b 24 8)
      ∧ k.errb = BitVec.ofNat 64 (fld b 48 8) ∧ k.head = 0 ∧ k.tail = 0 ∧ k.err = false ∧ k.running = [] ∧ k.slot = none)
  ∧ (∀ q n k, s.queueNo r.fn q = some n → s.queue n = some k →
    (∀ desc, ∃ u, Answers (.queueCreate r q desc) s u r 0xFFFFFFFFFFFFFFFE ∧ u = { s with errlog := u.errlog })
    ∧ (s.queueAtRest n k = true → Answers (.queueDestroy r q) s
        { s with queues := mdel s.queues n, faults := s.faults.filter (fun e => decide (e.2.queue ≠ n)) } r 1)
    ∧ (s.queueAtRest n k = false → ∃ u, Answers (.queueDestroy r q) s u r 0xFFFFFFFFFFFFFFFE ∧ u = { s with errlog := u.errlog })
    ∧ ∃ u, Answers (.queueReset r q) s u r 1 ∧ u = { s with queues := u.queues } ∧ (∀ m, m ≠ n → u.queue m = s.queue m)
        ∧ ∃ k', u.queue n = some k' ∧ k'.err = false ∧ { k' with err := k.err, csaUsed := k.csaUsed, csaBlks := k.csaBlks, waitStart := k.waitStart } = k
          ∧ (k.err = false → k' = k))
  ∧ (∀ q, s.queueNo r.fn q = none ∨ (∃ n, s.queueNo r.fn q = some n ∧ s.queue n = none) → ∀ i ∈ [Instr.queueDestroy r q, .queueReset r q],
    ∃ u, Answers i s u r 0xFFFFFFFFFFFFFFFE ∧ u = { s with errlog := u.errlog }))
  ∧ (∀ (s : State) (r : MailReq), Canonical s → Accepts s r false →
  (∀ ctx root, root ≠ 0 → s.ctxAllowed r.fn ctx = true → root.toNat % 32768 = 0 → inDevice root.toNat = true →
    Answers (.contextDefine r ctx root) s { s with
      contexts := mput s.contexts ctx { root := root, handler := ((mget s.contexts ctx).map Context.handler).getD 0, fn := r.fn } } r 1)
  ∧ (∀ ctx, s.ownCtx r.fn ctx = true →
    ((∀ e ∈ s.queues, e.2.ctx ≠ ctx) → Answers (.contextDelete r ctx) s { s with contexts := mdel s.contexts ctx } r 1)
    ∧ (∀ e ∈ s.queues, e.2.ctx = ctx → ∃ u, Answers (.contextDelete r ctx) s u r 0xFFFFFFFFFFFFFFFE ∧ u = { s with errlog := u.errlog })
    ∧ (∀ flags start len, let whole := flags = 1
        let hit := fun (e : TlbEntry) => e.ctx = ctx ∧ (whole ∨ (e.va < start.toNat + len.toNat ∧ start.toNat < e.va + e.size))
        let via := fun (w : WalkEntry) => let n := 2 ^ (12 + 9 * (5 - w.lvl))
          w.ctx = ctx ∧ (whole ∨ (w.key * n < start.toNat + len.toNat ∧ start.toNat < w.key * n + n))
        (whole ∨ (flags = 0 ∧ start.toNat % 4096 = 0 ∧ start.toNat < 2 ^ 60 ∧ len ≠ 0 ∧ len.toNat % 4096 = 0)) → s.injMsgs = [] →
        let waits := ∃ e ∈ s.accs, ∃ h, e.2.leaf = some h ∧ hit h
        let i := Instr.translationInvalidate r ctx flags start len
        ∃ u, (¬ waits → Answers i s u r 1) ∧ (waits → exec i s = .next { u with inputs := s.inputs ++ [i] })
          ∧ u = { s with dies := u.dies, cores := u.cores, kinds := u.kinds } ∧ (∀ k ∈ u.kinds, k ∈ s.kinds)
          ∧ u.dies.length = s.dies.length
          ∧ (∀ d, d < s.dies.length → { u.die d with tlb := (s.die d).tlb, walk := (s.die d).walk } = s.die d
              ∧ (∀ e, e ∈ (u.die d).tlb ↔ e ∈ (s.die d).tlb ∧ ¬ hit e) ∧ ∀ w, w ∈ (u.die d).walk ↔ w ∈ (s.die d).walk ∧ ¬ via w)
          ∧ (∀ c, { u.core c with icache := (s.core c).icache, frozen := (s.core c).frozen, prefetch := (s.core c).prefetch } = s.core c
              ∧ ∀ l ∈ (u.core c).icache, l ∈ (s.core c).icache ∧ ∀ d, d < s.dies.length → ∀ e ∈ (s.die d).tlb, hit e → e.covers l.1 = false))
    ∧ (∀ entry, entry.toNat % 8 = 0 → entry.toNat < 2 ^ 60 →
        Answers (.handlerRegister r ctx entry) s { s with contexts := mupd s.contexts ctx (fun c => { c with handler := entry }) } r 1)
    ∧ Answers (.handlerRemove r ctx) s { s with contexts := mupd s.contexts ctx (fun c => { c with handler := 0 }) } r 1
    ∧ (∀ n, n < 1024 → mget s.regions n = none →
        Answers (.regionCreate r n ctx) s { s with regions := mput s.regions n { ctx := ctx, live := false } } r 1))
  ∧ (∀ n g, mget s.regions n = some g → s.ctxAllowed r.fn g.ctx = true → Answers (.regionDelete r n) s { s with regions := mdel s.regions n } r 1))

/-- R70, R114, R191, R239, R301, R305, R308, R310, R300, R422: what the other requests do. A pinned region is added within its limits and taken
off; DASR is read and those bits cleared; AGE and QUANTUM, a peer's address, a counter's event are set; the report, the error log and
the counters (those of timed events first advance by a free amount, as they do before a counter's event is set anew) go to their buffers; counters are cleared. The bytes of an error record are
laid out as log 12 says. -/
def Obligations.RegisterRequests : Prop := ∀ (s : State) (r : MailReq), Canonical s →
  (Accepts s r true →
    (∀ d base size, d < 4 → base.toNat % 65536 = 0 → size.toNat % 65536 = 0 → size ≠ 0 → homeDie base.toNat = some d →
      homeDie (base.toNat + size.toNat - 1) = some d → (s.die d).pins.length < 8 → ((s.die d).pins.map Prod.snd).sum + size.toNat ≤ 8388608 →
      Answers (.l2Pin r d base size) s (s.updDie d (fun x => { x with pins := x.pins ++ [(base.toNat, size.toNat)] })) r 1)
    ∧ (∀ d base n, d < 4 → (s.die d).pins.find? (fun p => p.1 == base.toNat) = some n →
      Answers (.l2Unpin r d base) s (s.updDie d (fun x => { x with pins := x.pins.erase n })) r 1)
    ∧ (∀ d buf, d < 4 → GoodBuffer buf 4 4 → ∃ u, Stored s u buf.toNat (leBytes 4 (s.die d).dasr.toNat)
      ∧ Answers (.dasrReadClear r d buf) s (u.updDie d (fun x => { x with dasr := x.dasr &&& ~~~(s.die d).dasr })) r 1)
    ∧ (∀ a q, 1 ≤ a → a ≤ 10000000 → 1 ≤ q → q ≤ 10000000 → Answers (.setAgeQuantum r a q) s { s with age := a, quantum := q } r 1)
    ∧ (∀ p addr, p < 8 → addr = 0 ∨ inSystem addr.toNat = true → Answers (.peerTableWrite r p addr) s { s with peers := s.peers.set p addr } r 1)
    ∧ (∀ buf, GoodBuffer buf 8192 64 → s.errlog.length ≤ 256 →
      let log := s.errlog.flatMap (fun e => leBytes 8 e.time ++ leBytes 1 e.kind ++ leBytes 1 e.die ++ leBytes 1 e.unit ++ List.replicate 5 0
        ++ leBytes 8 e.addr.toNat ++ leBytes 8 e.rep)
      ∃ u, Stored s u buf.toNat (log ++ List.replicate (8192 - log.length) 0) ∧ Answers (.errorLogRead r buf) s u r 1)
    ∧ (∀ d buf, d < 4 → d < s.dies.length → GoodBuffer buf 128 8 → ∃ vs u, Stored ({ s with fresh := s.fresh + 1 }.updDie d (fun x => { x with ctrVal := vs })) u buf.toNat
        (vs.flatMap (fun v => leBytes 8 v.toNat))
      ∧ Answers (.dieCountersRead r d buf) s u r 1
      ∧ vs.length = 16 ∧ ∀ k < 16, ((s.die d).ctrSel.getD k 0).toNat ∉ timedDieEvents → vs.getD k 0 = (s.die d).ctrVal.getD k 0)
    ∧ (∀ d k ev, d < 4 → d < s.dies.length → k < 16 → ∃ vs, Answers (.dieCounterSelect r d k ev) s
        ({ s with fresh := s.fresh + 1 }.updDie d (fun x => { x with ctrVal := vs, ctrSel := x.ctrSel.set k ev })) r 1
      ∧ vs.length = 16 ∧ ∀ j < 16, ((s.die d).ctrSel.getD j 0).toNat ∉ timedDieEvents → vs.getD j 0 = (s.die d).ctrVal.getD j 0)
    ∧ (∀ d, d < 4 → Answers (.dieCountersClear r d) s (s.updDie d (fun x => { x with ctrVal := List.replicate 16 0 })) r 1))
  ∧ (Accepts s r false → ∀ nonce buf, nonce.length = 32 → s.boot.digest.length = 64 → GoodBuffer buf 4819 64 →
      let body := nonce ++ (List.range 64).map Config.bootRomDigest ++ s.boot.digest ++ leBytes 4 s.boot.version ++ leBytes 4 1
        ++ leBytes 8 s.profNative.toNat ++ leBytes 8 s.profDbp.toNat ++ leBytes 8 Config.serial.toNat
      ∃ u, Stored s u buf.toNat (body ++ (List.range 4627).map (Config.signature (sha3_512 body)))
        ∧ Answers (.attestationRequest r nonce buf) s u r 1)
  ∧ (Accepts s r false → ∀ e h ctx d desc ix n b, d < 4 → s.ownCtx r.fn ctx = true → e = .layout d ∨ e = .collective d →
      s.dieCommand d ctx desc ix = some (e, h) → h.cur = some (n, b) → (∃ x, s.chain e desc ctx = some x) →
      (∃ k, s.queue h.queue = some k ∧ k.err = false) →
      ∃ u, Answers (.engineCommandAbort r ctx d desc ix) s u r 1 ∧ ((u.queue h.queue).map Queue.err) = some true
        ∧ (∀ y, u.chain e desc ctx = some y → y.cur = none) ∧ u.threads = s.threads ∧ u.wgs = s.wgs)

/-- R300, R308: a request that its function may not make, and an unlisted opcode, complete with all ones; one whose reserved bytes are not zero
completes with all ones but bit 0. Each is counted in the error log (its record's kind is the model's, log 12) and has no other effect. -/
def Obligations.RefusedRequests : Prop := ∀ (s : State) (r : MailReq), Canonical s → r.fn ≤ 16 → r.cw.toNat % 8 = 0 → inMap r.cw.toNat = true →
  let refused := fun (i : Instr) (op v : Nat) => ∃ u, Answers i s u r v ∧ u = { s with errlog := u.errlog }
    ∧ ∃ e, u.errlog.getLast? = some e ∧ e.kind = kindRefused ∧ e.unit = op ∧ e.addr = r.cw
  (∀ op : Byte, refused (.mailboxOpcodeUnlisted r op) op.toNat 0xFFFFFFFFFFFFFFFF)
  ∧ (s.boot.verified = true → r.fn ≠ 0 → ∀ a q d p base size buf addr,
      refused (.setAgeQuantum r a q) 13 0xFFFFFFFFFFFFFFFF ∧ refused (.peerTableWrite r p addr) 14 0xFFFFFFFFFFFFFFFF
        ∧ refused (.l2Pin r d base size) 10 0xFFFFFFFFFFFFFFFF ∧ refused (.dasrReadClear r d buf) 12 0xFFFFFFFFFFFFFFFF
        ∧ refused (.errorLogRead r buf) 16 0xFFFFFFFFFFFFFFFF ∧ refused (.dieCountersClear r d) 17 0xFFFFFFFFFFFFFFFF)
  ∧ (s.boot.verified = true → r.fn = 0 → r.bad = true → ∀ a q n ctx root base fl,
      refused (.setAgeQuantum r a q) 13 0xFFFFFFFFFFFFFFFE ∧ refused (.regionDelete r n) 9 0xFFFFFFFFFFFFFFFE
        ∧ refused (.contextDefine r ctx root) 4 0xFFFFFFFFFFFFFFFE ∧ refused (.faultRingRegister r base fl) 18 0xFFFFFFFFFFFFFFFE)

/-- R143, R144, R147, R148, R159, R160, R318, R319, R372: MMA, ACCLD, ACCST and ACCZ append one entry per group to their core's matrix chain, with
what they captured, and count it on SETB; while the chain holds 64 their threads wait, and MATRIX_CHAIN_ROOM lets them try again. An MMA
that comes first on a core without a lease holder gets the lease for its slot. -/
def Obligations.MatrixWordsAppend : Prop := ∀ (s : State) (f : OwnF) (k : Fin 4) (g : GroupId) (w : Workgroup), s.wg g.wg = some w →
  let c := w.coreIx
  let appends := fun (i : Instr) (op : ThreadId → MxOp) => ∀ t ts, s.executing i = t :: ts →
    let e : MxEntry := { wg := g.wg, gid := g.gid, op := op t, issuers := t :: ts, flag := flagB s t, seq := s.fresh, slab := 0, flags := 0
                         started := false, finished := false, fault := false, handle := none, late := false }
    ((s.core c).chain.length < 64 → ∃ z, exec i s = .next z ∧ z = { s with threads := z.threads, cores := z.cores, fresh := s.fresh + 1 }
      ∧ ThreadsGo s z i (fun t x => (x.count (flagB s t)).advance)
      ∧ (∀ d, d ≠ c → z.core d = s.core d)
      ∧ SameButLease (z.core c) { s.core c with chain := (s.core c).chain ++ [e] }
      ∧ ((∃ x ∈ (s.core c).chain, x.wg = g.wg) → (z.core c).lease = (s.core c).lease ∧ (z.core c).leaseC = (s.core c).leaseC)
      ∧ ((s.core c).chain = [] → (s.core c).lease = none → e.isMma = true → ∀ lr, s.lrOf g.wg = some lr →
          (z.core c).lease = some (s.slotOfWg g.wg) ∧ (z.core c).leaseC = lr.lease))
    ∧ (64 ≤ (s.core c).chain.length → ∃ z, exec i s = .next z ∧ z = { s with threads := z.threads }
      ∧ ThreadsGo s z i (fun _ x => { x with wait := .chain }))
  let ready := fun (i : Instr) (can : ThreadId → Prop) => i.wf = true ∧ ReadyIn s i g ∧ ∀ t, (s.executing i).head? = some t → can t
  let rows := fun t => k.val < s.accwOf g.wg ∧ RowsReach s g.wg (s.rdK t f.a 0) (s.rdK t f.a 1) 1 128 512
  (ready (.mma f) (MmaMayIssue s f g) → appends (.mma f) (fun t =>
      let b := s.spadRead g.wg (s.rd t f.a).toNat 64
      .mma b (s.rdK t f.b 0) (s.rdK t f.b 1) (s.rdK t f.c 0) (s.rdK t f.c 1)
        (if fld b 1 1 = 0 then (s.groupThreads g).map (fun u => (List.range 9).map (fun n => s.rdK u f.d n)) else [])))
  ∧ (ready (.accld f k) rows → appends (.accld f k) (fun t => .accld (s.rdK t f.a 0) (s.rdK t f.a 1) k.val))
  ∧ (ready (.accst f k) rows → appends (.accst f k) (fun t => .accst (s.rdK t f.a 0) (s.rdK t f.a 1) k.val))
  ∧ (ready (.accz f k) (fun _ => k.val < s.accwOf g.wg) → appends (.accz f k) (fun _ => .accz k.val))
  ∧ ∀ c, (s.core c).chain.length < 64 → ∃ z, exec (.matrixChainRoom c) s = .next z ∧ z = { s with threads := z.threads }
      ∧ ∀ t, z.thr t = (s.thr t).map (fun x => if s.coreOf t = c ∧ x.wait = .chain then { x with wait := .none } else x)

/-- R152, R154, R155, R160: the oldest entry of a workgroup runs. ACCZ zeroes its tile, ACCLD loads it row by row from the cluster
scratchpad, ACCST stores it there, bit for bit; an MMA of one slab, whose slot holds the lease, adds to each cell (i, n) the block sum
rounded to FP32, with one rounding of the addition, from +0 where OVW is set; it reads the handle of a plane-tensor A once, when it starts (R135, R149). Other cells and other tiles stay. R153, R156, R160: when an
entry completes, it leaves the chain and its threads' flags count it no more; an MMA first ORs its flags into its status word and writes
SEQ to its completion word, by a release at its scope. -/
def Obligations.MatrixEntriesComplete : Prop :=
  (∀ (s : State) (c v : Nat) (w : Workgroup) (e : MxEntry), Canonical s →
  s.wg v = some w → w.resident = true → w.ended = false → w.halt = .running → s.mxHead c v = some e → e.fault = false → e.finished = false →
  let run := exec (.matrixEntryStart c v) s
  let tiles := fun (z : State) (k : Nat) (t : Mem) => z = { s with wgs := z.wgs, cores := z.cores } ∧ z.wg v = some { w with tiles := w.tiles.set k t }
    ∧ (∀ u, u ≠ v → z.wg u = s.wg u) ∧ (∀ d, d ≠ c → z.core d = s.core d)
    ∧ z.core c = { s.core c with chain := (s.core c).chain.map (fun x => if x.seq = e.seq then { x with started := true, finished := true } else x) }
  (∀ k, e.op = .accz k → ∃ z, run = .next z ∧ tiles z k [])
  ∧ (∀ b p k, e.op = .accld b p k → ∃ z t, run = .next z ∧ tiles z k t ∧ t.wf = true
      ∧ ∀ i < 128, ∀ x < 512, Mem.rd t (512 * i + x) = s.clByte v (rowAddr b p 0 i x))
  ∧ (∀ b p k, e.op = .accst b p k →
      (∀ i < 128, ∀ x < 512, (s.clPlace v (rowAddr b p 0 i x)).isSome = true ∧ ∀ i' < 128, ∀ x' < 512,
        s.clPlace v (rowAddr b p 0 i x) = s.clPlace v (rowAddr b p 0 i' x') → i = i' ∧ x = x') →
      (∀ i < 128, ∀ x < 512, ∀ q, s.clPlace v (rowAddr b p 0 i x) = some q → (s.wg q.1).isSome = true) →
      ∃ z, run = .next z ∧ z = { s with wgs := z.wgs, cores := z.cores }
        ∧ (∀ i < 128, ∀ x < 512, ∀ u o, s.clPlace v (rowAddr b p 0 i x) = some (u, o) →
            Mem.rd (((z.wg u).map Workgroup.spad).getD []) o = Mem.rd (w.tiles.getD k []) (512 * i + x))
        ∧ ∀ u y, s.wg u = some y → ∃ y', z.wg u = some y' ∧ { y' with spad := y.spad } = y
            ∧ ∀ o, (∀ i < 128, ∀ x < 512, s.clPlace v (rowAddr b p 0 i x) ≠ some (u, o)) → Mem.rd y'.spad o = Mem.rd y.spad o)
  ∧ (∀ b xa xb ya yb rb hb h as u u', e.op = .mma b xa xb ya yb rb → (s.core c).lease = some (s.slotOfWg v) →
      let m := mxBlockOf b
      let d := c / 32
      let s1 := s.updMx c e.seq (fun x => { x with started := true, late := if e.started then e.late else s.cwLate d (s.ctxOf v) (m.cwsp == 1) m.cw m.cwsc })
      let s2 := u.updMx c e.seq (fun x => { x with handle := some hb })
      m.tile < w.tiles.length → m.mr < 128 → m.nc < 128 → e.slab + 1 = m.kblk →
      (e.started = false → s.cwBad d (s.ctxOf v) (some v) (m.cwsp == 1) m.cw m.cwsc = false) →
      (e.handle = some hb ∧ u = s1) ∨ (e.handle = none ∧ m.readHandle (engRead d (s.ctxOf v)) (pairVal xa xb) none s1 = (u, .ok hb)) →
      m.handle hb = some h →
      (Ev.list (fun i => m.aBlock s2 v (engRead d (s.ctxOf v)) h xa xb e.slab i) (List.range m.rows)) s2 = (u', .ok as) →
      let old := w.tiles.getD m.tile []
      let bs := fun n => m.bBlock s2 v ya yb rb e.slab n
      let sh : Int := (if m.ak = 2 then 0 else (m.aBits : Int) - 1) + ((m.bBits : Int) - 1)
      let cell := fun i n =>
        let a := as.getD i ⟨0, [], 0⟩
        let p : Val := if a.e = 255 ∨ (bs n).e = 255 then Val.canon
          else decodeF fp32 (encode fp32 ((Val.ofInt (List.zipWith (fun x y => x * y) a.ms (bs n).ms).sum).scale
            ((a.e : Int) - 127 + (((bs n).e : Int) - 127) - sh)) .rne false).1
        let acc := if m.ovw = true ∧ e.slab = 0 then 0 else cellOf old i n
        (encode fp32 (addV .rne (decodeF fp32 acc) p).1 .rne false).1
      ∃ z t, run = .next z ∧ z.wg v = some { w with tiles := w.tiles.set m.tile t } ∧ (∀ x, x ≠ v → z.wg x = s.wg x)
        ∧ z.threads = s.threads ∧ z.groups = s.groups ∧ z.accs = s.accs
        ∧ (∀ i < 128, ∀ n < 128, cellOf t i n = if i ≤ m.mr ∧ n ≤ m.nc then cell i n else cellOf old i n)
        ∧ ∃ y ∈ (z.core c).chain, y.seq = e.seq ∧ y.finished = true ∧ y.slab = m.kblk ∧ y.handle = some hb))
  ∧ (∀ (s : State) (c v : Nat) (w : Workgroup) (e : MxEntry), Canonical s →
  s.wg v = some w → w.resident = true → w.ended = false → w.halt = .running → s.mxHead c v = some e → e.fault = false → e.finished = true →
  e.issuers.Nodup →
  let retired := fun (u z : State) => z = { u with threads := z.threads, cores := z.cores } ∧ (∀ d, d ≠ c → z.core d = u.core d)
    ∧ SameButLease (z.core c) { u.core c with chain := (s.core c).chain.filter (fun x => decide (x.seq ≠ e.seq)) }
    ∧ ∀ t, z.thr t = if t ∈ e.issuers then (s.thr t).map (fun x => x.uncount e.flag) else s.thr t
  (e.isMma = false → ∃ z, exec (.matrixEntryComplete c v) s = .next z ∧ retired s z)
  ∧ (∀ b xa xb ya yb rb, e.op = .mma b xa xb ya yb rb →
      let m := mxBlockOf b
      let s1 := if m.stat = 0xFFFFFFFF then s else s.spadWrite v m.stat (leBytes 4 (leNat (s.spadRead v m.stat 4) ||| e.flags.toNat))
      (m.cwsc = 0 → ∃ z, exec (.matrixEntryComplete c v) s = .next z ∧ retired s1 z)
      ∧ (∀ q o, m.cwsc ≠ 0 → m.cwsp = 1 → m.cw.toNat % 8 = 0 → s.place v .cluster m.cw 8 = some (.spad q o) →
          ∃ u z, exec (.matrixEntryComplete c v) s = .next z ∧ MemoryOnly s1 u ∧ retired (u.spadWrite q o (leBytes 8 m.seq.toNat)) z
            ∧ (Scope.wide (scopeOf m.cwsc) = true → ∀ l ∈ (u.core w.coreIx).l1, ¬ DirtyFor s v l))
      ∧ (∀ u x, m.cwsc ≠ 0 → m.cwsp = 0 → m.cw.toNat % 8 = 0 → m.cw.toNat < 2 ^ 60 →
          s1.xlate (c / 32) (s.ctxOf v) m.cw.toNat { w := true } = (u, .ok x) → inSystem x.pa = false → x.attr.s = false →
          ∃ y z, exec (.matrixEntryComplete c v) s = .next z ∧ MemoryOnly s1 y ∧ retired y z
            ∧ ∀ n, x.pa ≤ n → n < x.pa + 8 → Mem.rd z.mem n = BitVec.ofNat 8 (m.seq.toNat / 256 ^ (n - x.pa)))))

/-- R165 to R168, R170, R334, R335: CPY appends the 64 bytes at its offset to the core's CPY queue and counts on SETB. CHAPP takes index
WTAIL, increments it, copies its entry to the ring and gives the index; CHADV, a release at DEV, sets TAIL and has its chain listed. A
full queue, ring or list makes the threads wait; the room steps let them try again. -/
def Obligations.EngineWordsAppend : Prop := ∀ (s : State) (f : OwnF) (g : GroupId) (w : Workgroup) (t : ThreadId) (ts : List ThreadId), Canonical s →
  s.wg g.wg = some w →
  let c := w.coreIx
  let ctx := s.ctxOf g.wg
  let a := s.rd64 t f.a
  let waits := fun (i : Instr) (u : State) (k : Wait) => ∃ z, exec i s = .next z ∧ MemoryOnly s u ∧ z = { u with threads := z.threads }
    ∧ ThreadsGo s z i (fun _ x => { x with wait := k })
  (let i := Instr.cpy f
   let p := (s.rd t f.a).toNat
   i.wf = true → ReadyIn s i g → s.executing i = t :: ts → p % 64 = 0 → p + 64 ≤ s.spbOf g.wg →
   let b := s.spadRead g.wg p 64
   let run : CopyRun := { cmd := b, addr := BitVec.ofNat 64 p, iter := fld b 36 2, elem := fld b 32 4, flags := BitVec.ofNat 4 (fld b 39 1 / 16)
                          fault := false, lives := none, shape := none, late := false, native := false }
   ((s.core c).cpyq.length < 16 → ∃ z, exec i s = .next z ∧ z = { s with threads := z.threads, cores := z.cores }
     ∧ ThreadsGo s z i (fun t x => (x.count (flagB s t)).advance) ∧ (∀ d, d ≠ c → z.core d = s.core d)
     ∧ z.core c = { s.core c with cpyq := (s.core c).cpyq ++ [⟨g.wg, g.gid, t :: ts, flagB s t, run⟩] })
   ∧ (16 ≤ (s.core c).cpyq.length → waits i s .cpyq))
  ∧ (∀ u b v b', a.toNat % 64 = 0 → a.toNat < 2 ^ 60 → rdBytes (descRead c ctx) a.toNat 64 s = (u, .ok b) → (chainDescOf b).ok c = true →
    rdBytes (descRead c ctx) a.toNat 64 u = (v, .ok b') → (chainDescOf b').ok c = true →
    let d := chainDescOf b'
    (let i := Instr.chapp f
     let p := (s.rd t f.b).toNat
     i.wf = true → ReadyIn s i g → s.executing i = t :: ts → p % 64 = 0 → p + 64 ≤ s.spbOf g.wg →
     (∀ q ∈ t :: ts, ∀ x, s.thr q = some x → x.reserved = none) →
     ((d.wtail + 2 ^ 64 - d.head) % 2 ^ 64 = 2 ^ d.lsize → waits i u (.chapp ctx a))
     ∧ (∀ u1 u2 x, (d.wtail + 2 ^ 64 - d.head) % 2 ^ 64 ≠ 2 ^ d.lsize → u.descPut (c / 32) ctx (a.toNat + 16) (d.wtail + 1) = (u1, .ok ()) →
       u1.xlate (c / 32) ctx (d.entry d.wtail) { w := true } = (u2, .ok x) → inSystem x.pa = false → x.attr.s = false →
       ∃ y z, exec i s = .next z ∧ MemoryOnly s y ∧ z = { y with threads := z.threads, groups := z.groups }
         ∧ ThreadsGo s z i (fun _ => Thread.advance)
         ∧ (∀ k, OneKind z k → Mem.rd z.mem k = placed x.pa (s.spadRead g.wg p 64) (Mem.rd u1.mem) k)
         ∧ (∀ r, (u.xlate (c / 32) ctx (a.toNat + 16) { w := true }).2 = .ok r → ∀ k < 8,
             Mem.rd u1.mem (r.pa + k) = BitVec.ofNat 8 ((d.wtail + 1) / 256 ^ k))
         ∧ (∀ h, h ≠ g → z.grp h = s.grp h)
         ∧ ∀ x, s.grp g = some x → ∃ y, z.grp g = some y ∧ { y with sregs := x.sregs } = x
             ∧ ∀ k, y.sregs.getD k 0 = afterS f.d [BitVec.ofNat 32 d.wtail] (fun k => x.sregs.getD k 0) k))
    ∧ (let i := Instr.chadv f
       let sn := s.rd t f.b
       let e := d.ref c
       let n := d.upTo sn
       let tail := max d.tail (n + 1)
       let listed := (s.chain e a ctx).isSome
       i.wf = true → ReadyIn s i g → s.executing i = t :: ts → (chainDescOf b).upTo sn < (chainDescOf b).wtail → c / 32 < s.dies.length →
       (listed = false → d.head < tail → e.room ≤ (s.chainsOf e).length → waits i u (.chadv e))
       ∧ (∀ v, listed = true ∨ tail ≤ d.head ∨ (s.chainsOf e).length < e.room →
         (u.release c (s.tagOf g.wg) .dev).descPut (c / 32) ctx (a.toNat + 24) tail = (v, .ok ()) →
         ∃ z, exec i s = .next z ∧ MemoryOnly s v ∧ z = { v with threads := z.threads, cores := z.cores, dies := z.dies }
           ∧ ThreadsGo s z i (fun _ => Thread.advance) ∧ (∀ l ∈ (z.core c).l1, ¬ DirtyFor s g.wg l)
           ∧ (∀ r, ((u.release c (s.tagOf g.wg) .dev).xlate (c / 32) ctx (a.toNat + 24) { w := true }).2 = .ok r → ∀ k < 8,
               Mem.rd z.mem (r.pa + k) = BitVec.ofNat 8 (tail / 256 ^ k))
           ∧ z.chainsOf e = (s.chainsOf e ++ (if listed = true ∨ tail ≤ d.head then [] else
               [(⟨a, ctx, s.queueOfWg g.wg, [], none, [], [], false⟩ : Chain)])).map (fun h : Chain => if d.tail < tail ∧ h.is a ctx = true then { h with pubs := h.pubs ++ [(tail, g.wg)] } else h)
           ∧ ∀ e', e' ≠ e → z.chainsOf e' = s.chainsOf e')))
  ∧ ((s.core c).cpyq.length < 16 → ∃ z, exec (.cpyQueueRoom c) s = .next z ∧ z = { s with threads := z.threads }
      ∧ ∀ u, z.thr u = (s.thr u).map (fun x => if s.coreOf u = c ∧ x.wait = .cpyq then { x with wait := .none } else x))
  ∧ ∀ x, s.thr t = some x →
      let woken := fun (u z : State) => z = { u with threads := z.threads }
        ∧ ∀ q, z.thr q = (s.thr q).map (fun y => if q.group = t.group ∧ y.wait = x.wait ∧ y.pc = x.pc then { y with wait := .none } else y)
      (∀ k desc u b, x.wait = .chapp k desc → rdBytes (descRead (s.coreOf t) k) desc.toNat 64 s = (u, .ok b) →
        ((chainDescOf b).wtail + 2 ^ 64 - (chainDescOf b).head) % 2 ^ 64 ≠ 2 ^ (chainDescOf b).lsize →
        ∃ z, exec (.chappRoom t) s = .next z ∧ MemoryOnly s u ∧ woken u z)
      ∧ (∀ e, x.wait = .chadv e → (s.chainsOf e).length < e.room → ∃ z, exec (.chadvListRoom t) s = .next z ∧ woken s z)

/-- R53, R101, R168, R169, R171, R173 to R178: a listed chain gives its next published entry or leaves the list. A NOP writes its
completion word and HEAD moves on. A CPY command of raw elements copies its element, or writes zero where a coordinate is out of bounds;
when its iterations are done its flags go to PROG and it completes. R53, R180, R182, R246, R342: iteration i of a schedule entry, read through the core's instruction cache, starts when the
conditions of R182 hold while a thread of the workgroup is left, and when its command has run, i + 1 goes to completion word i mod DRING of the workgroup by a release, and the
next iteration may start. -/
def Obligations.EngineCommandsRun : Prop :=
  (∀ (s : State), Canonical s →
  (∀ e ix h u d, (s.chainsOf e)[ix]? = some h → h.fault = false → h.cur = none → engDesc e.die h.ctx h.desc.toNat s = (u, .ok d) →
    (d.tail ≤ d.head → exec (.chainEntryTake e ix) s = .next (u.dropChain e h.desc h.ctx))
    ∧ ∀ w v b, d.head < d.tail → pubOf h.pubs d.head = some w → s.pubRuns e w = true → s.pubSaved e w = false →
      rdBytes (engRead e.die h.ctx) (d.entry d.head) 64 u = (v, .ok b) →
      MemoryOnly s v ∧ exec (.chainEntryTake e ix) s = .next (v.updChain e h.desc h.ctx (fun y => { y with cur := some (d.head,
        { cmd := b, addr := BitVec.ofNat 64 (d.entry d.head), iter := fld b 36 2, elem := fld b 32 4, flags := BitVec.ofNat 4 (fld b 39 1 / 16)
          fault := false, lives := none, shape := none, late := false, native := false }) })))
  ∧ (∀ e desc ctx h n r w u v, s.chain e desc ctx = some h → h.cur = some (n, r) → h.fault = false → r.fault = false → h.owner = some w →
    s.pubRuns e w = true → fld r.cmd 0 1 = 0 → cwcOk (fld r.cmd 7 1) = true →
    let m := copyCmdOf r.cmd
    let core := match e with | .copy c => some c | _ => none
    let late := if r.lives.isSome then r.late else s.cwLate e.die ctx m.cwsp m.cw m.scope
    let s1 := s.updChain e desc ctx (fun y => { y with cur := y.cur.map (fun p => (p.1,
      { r with lives := some (if core.isSome then r.lives.getD [] else []), late := late })) })
    s.cwBad e.die ctx (some w) m.cwsp m.cw m.scope = false → s1.storeDone e.die ctx (some w) m.cwsp m.cw m.seq m.scope late core = (u, .ok ()) →
    u.descPut e.die ctx (desc.toNat + 32) (n + 1) = (v, .ok ()) →
    ∃ z, exec (.engineNop e (.chain desc ctx)) s = .next z ∧ Signals s1 u e.die ctx (some w) m.cwsp m.cw m.seq m.scope ∧ MemoryOnly u v
      ∧ z = { v with cores := z.cores, dies := z.dies }
      ∧ z.chainsOf e = (s.chainsOf e).map (fun y => if y.is desc ctx then
          { y with cur := none, coll := [], part := [], fault := false, pubs := y.pubs.filter (fun p => n + 1 < p.1) } else y)
      ∧ ∀ x, (u.xlate e.die ctx ((desc.toNat + 32) % 2 ^ 60) { w := true }).2 = .ok x → ∀ k < 8,
          Mem.rd z.mem (x.pa + k) = BitVec.ofNat 8 ((n + 1) / 256 ^ k))
  ∧ (∀ c h, s.cpyHead c = some h → h.run.fault = false →
    let r := h.run
    let m := copyCmdOf r.cmd
    let d := c / 32
    let ctx := s.ctxOf h.wg
    let moved := fun (u : State) (f : CopyRun → CopyRun) => u.updCore c (fun k => { k with cpyq := lmod k.cpyq (s.cpyIx c) (fun y => { y with run := f y.run }) })
    let retired := fun (u z : State) => z = { u with threads := z.threads, cores := z.cores } ∧ (∀ k, k ≠ c → z.core k = u.core k)
      ∧ z.core c = { u.core c with cpyq := (s.core c).cpyq.eraseIdx (s.cpyIx c) } ∧ ∀ t, z.thr t = if t ∈ h.issuers then (s.thr t).map (fun x => x.uncount h.flag) else s.thr t
    (∀ u, fld r.cmd 0 1 = 0 → cwcOk (fld r.cmd 7 1) = true → h.issuers.Nodup → s.cwBad d ctx (some h.wg) m.cwsp m.cw m.scope = false →
      let late := if r.lives.isSome then r.late else s.cwLate d ctx m.cwsp m.cw m.scope
      let s1 := moved s (fun _ => { r with lives := some (r.lives.getD []), late := late })
      s1.storeDone d ctx (some h.wg) m.cwsp m.cw m.seq m.scope late (some c) = (u, .ok ()) →
      ∃ z, exec (.engineNop (.copy c) .cpy) s = .next z ∧ Signals s1 u d ctx (some h.wg) m.cwsp m.cw m.seq m.scope ∧ retired u z)
    ∧ (∀ u, fld r.cmd 0 1 = 1 → r.shape.isSome = true → m.loop ≤ r.iter → h.issuers.Nodup →
      let s1 := s.spadWrite h.wg (r.addr.toNat + 32) (leBytes 8 (r.flags.toNat * 2 ^ 60))
      s1.storeDone d ctx (some h.wg) m.cwsp m.cw m.seq m.scope r.late (some c) = (u, .ok ()) →
      ∃ z, exec (.copyCommandComplete c .cpy) s = .next z ∧ Signals s1 u d ctx (some h.wg) m.cwsp m.cw m.seq m.scope ∧ retired u z)
    ∧ (∀ sh v off, fld r.cmd 0 1 = 1 → r.shape = some sh → r.iter < m.loop → m.tr = false → m.shadow = false → m.rm = 0 → m.sfmt = m.dfmt → 5 ≤ m.sfmt →
      m.sfmt ≤ 7 → m.ndim = 1 → m.space 0 = 1 → m.space 1 = 1 → shDim sh = 0 → shRing sh ≠ 0 → fld sh 0 2 = r.elem + 1 →
      let n := copySize m.sfmt
      let x : Int := (r.elem : Int) + r.iter * sgn 16 (fld sh 48 2)
      let sa := wrap 64 (m.src + n * (x * sgn 32 (fld sh 4 4)))
      let da := wrap 64 (m.dst + (r.iter % shRing sh) * fld sh 52 4 + n * (r.elem * sgn 32 (fld sh 8 4)))
      let goes := fun (bs : List Byte) => exec (.copyCommand c .cpy) s = .next
        (moved (s.spadWrite v off bs) (fun y => { y with iter := r.iter + 1, elem := 0 }))
      da % n = 0 → s.place h.wg .scratch (BitVec.ofNat 64 da) n = some (.spad v off) →
      (x < 0 ∨ (fld sh 2 2 : Int) ≤ x → goes (List.replicate n 0))
      ∧ ∀ v' off', 0 ≤ x → x < fld sh 2 2 → sa % n = 0 → s.place h.wg .scratch (BitVec.ofNat 64 sa) n = some (.spad v' off') →
          goes (s.spadRead v' off' n))))
  ∧ (∀ (s : State) (w e : Nat) (g : Workgroup) (x : SchedSt) (lr : Launch) (dring : Nat), Canonical s →
  s.wg w = some g → g.resident = true → g.ended = false → g.halt = .running → g.sched[e]? = some x → s.lrOf w = some lr → x.dring = some dring →
  let m := copyCmdOf x.cmd
  let nop := fld x.cmd 0 1 = 0
  let i := x.next
  let becomes := fun (u z : State) (y : SchedSt) => z = { u with wgs := z.wgs } ∧ (∀ v, v ≠ w → z.wg v = u.wg v)
    ∧ z.wg w = (u.wg w).map (fun k => { k with sched := g.sched.set e y })
  let k := i % dring
  let word : DWord := if m.cwsp then BitVec.ofNat 64 (g.rank * pow2Up (s.spbOf w) + m.cw.toNat % pow2Up (s.spbOf w) + 8 * k)
    else m.cw + BitVec.ofNat 64 (8 * dring * (g.x + lr.dimx * (g.y + lr.dimy * g.z)) + 8 * k)
  (∀ u, x.failed = false → x.run = none → lr.nbind ≤ g.nextBind → (∃ h ∈ s.wgGroups w, s.liveThreads h ≠ []) →
    m.seq.toNat % 2 ^ 16 ≤ s.stageOf w → i < dring ∨ i + 1 ≤ s.minOver w (fun y => y.rels.getD e 0) + dring →
    i < (if fld x.cmd 0 1 = 1 then max 1 m.loop else 1) → s.schedRead w e = (u, .ok x.cmd) → (nop → cwcOk m.cwc = true) → u.schedCwBad w m dring = false →
    let run : CopyRun := { cmd := x.cmd, addr := 0, iter := i, elem := fld x.cmd 32 4, flags := BitVec.ofNat 4 (fld x.cmd 39 1 / 16), fault := false
                           lives := none, shape := none, late := u.cwLate (g.coreIx / 32) (s.ctxOf w) m.cwsp word m.scope, native := false }
    ∃ z, exec (.scheduleIterationStart w e) s = .next z ∧ MemoryOnly s u ∧ becomes u z { x with run := some run })
  ∧ (∀ r u, x.run = some r → r.fault = false → nop ∨ (r.shape.isSome = true ∧ r.iter ≠ i) →
    s.storeDone (g.coreIx / 32) (s.ctxOf w) (some w) m.cwsp word (BitVec.ofNat 64 (i + 1)) m.scope r.late (some g.coreIx) = (u, .ok ()) →
    ∃ z, exec (.scheduleIterationComplete w e) s = .next z
      ∧ Signals s u (g.coreIx / 32) (s.ctxOf w) (some w) m.cwsp word (BitVec.ofNat 64 (i + 1)) m.scope ∧ becomes u z { x with run := none, next := i + 1 }))

/-- R183, R184, R246: the next binding of a workgroup, read through the core's instruction cache, is run: its window is read and what the kind
makes of it is written into the workgroup's scratchpad; then the next binding is due. Blocks beyond the tensor are zero. R185, R186,
R169: an im2col command whose output is pinned writes its 128-byte output lines and completes; at a page fault it stops at the line it
came to, which it starts with once the fault is answered. Column (kh x KW + kw) x C + ch of output row oh x OW + ow holds the bytes of input element (oh x SH - PH +
kh, ow x SW - PW + kw, ch), or zero bytes outside the input. -/
def Obligations.PrologueAndIm2colRun : Prop :=
  (∀ (s s1 : State) (w : Nat) (g : Workgroup) (lr : Launch) (bs : List Byte) (m : Nat → Byte) (A : Nat → Prop)
    (I : State → Prop), s.wg w = some g → g.resident = true → g.ended = false → g.halt = .running → g.bindFault = false →
  s.lrOf w = some lr → g.nextBind < lr.nbind → icData g.coreIx (s.ctxOf w) (lr.bindA.toNat + 64 * g.nextBind) 64 s = (s1, .ok bs) →
  bindOk bs lr.spb = true → Served s1 (engRead g.die (s.ctxOf w)) m A I →
  let b := bindOf bs
  let row := fun i => b.ystep * g.y + i
  let col := fun c => b.xstep * g.x + c
  let writes := fun (i : Instr) (outs : List (Nat × List Byte)) => ∃ u z, exec i s = .next z ∧ MemoryOnly s u ∧ u.mem = s1.mem
    ∧ z = { u with wgs := z.wgs } ∧ (∀ v, v ≠ w → z.wg v = s.wg v)
    ∧ z.wg w = some { g with spad := outs.foldl (fun sp p => Mem.wrN sp p.1 p.2) g.spad, nextBind := g.nextBind + 1 }
  let size := copySize b.sfmt
  let elem := fun i c => bytesAt m (b.src + (row i * b.spitch + col c) * size) size
  let window := ∀ i < b.rows, ∀ c < b.cols, ∀ k < size,
    A (b.src + (row i * b.spitch + col c) * size + k) ∧ b.src + (row i * b.spitch + col c) * size + k < 2 ^ 60
  (b.kind = 2 → window → writes (.prologueTranspose w) ((List.range b.cols).map (fun c =>
      (b.dst + c * b.dpitch, (List.range b.rows).flatMap (fun i => elem i c)))))
  ∧ (∀ f d, b.kind = 3 → b.had ≠ 0 → window → copyFmt b.sfmt = some f → copyFmt b.dfmt = some d →
      writes (.prologueHadamard w) ((List.range b.rows).map (fun i =>
        let xs := (List.range b.cols).map (fun c => decodeF f (leNat (elem i c)))
        (b.dst + i * b.dpitch, ((List.range (b.cols / b.had)).flatMap (fun r => hadFloat ((xs.drop (r * b.had)).take b.had))).flatMap (fun y =>
          leBytes (copySize b.dfmt) (encode d (decodeF fp32 y.1) .rne false).1)))))
  ∧ ∀ h, b.src % 32 = 0 → handleOf (bytesAt m b.src 32) = some h → (∀ k < 32, A (b.src + k) ∧ b.src + k < 2 ^ 60) →
      let n := fun i j => row i * h.bpr + (b.xstep * g.x / 16 + j)
      let out := fun i j => h.bpr ≤ b.xstep * g.x / 16 + j ∨ h.nblk ≤ n i j
      let blk := fun i j => if out i j then ⟨0, List.replicate 16 0, 0⟩ else blockOf m h b.kpl b.rnd (n i j)
      (∀ i < b.rows, ∀ j < b.cols / 16, ¬ out i j → ∀ p ∈ blockAddrs h (n i j) (planesRead b.kpl h.pcnt b.rnd), p.1 % p.2 = 0 ∧ p.1 < 2 ^ 60 ∧ ∀ k < p.2, A (p.1 + k)) →
      (∀ d, b.kind = 1 → copyFmt b.dfmt = some d → writes (.prologueDequantise w) ((List.range b.rows).map (fun i =>
        (b.dst + i * b.dpitch, (List.range (b.cols / 16)).flatMap (fun j => ((blk i j).vals b.kpl).flatMap (fun v =>
          leBytes (copySize b.dfmt) (encode d v .rne false).1))))))
      ∧ (b.kind = 4 → b.kpl ≤ 16 → writes (.prologuePlaneReduction w) ((List.range b.rows).flatMap (fun i => (List.range (b.cols / 16)).map (fun j =>
        (b.dst + j * b.spitch + i * b.dpitch, (List.range 16).flatMap (fun p => leBytes 2 (if p < b.kpl then (planesOf b.kpl (blk i j).ms).getD p 0 else 0))
          ++ leBytes 1 (blk i j).e))))))
  ∧ (∀ (s : State) (d n : Nat) (h : Chain) (r : CopyRun), Canonical s →
  firstCmd (s.die d).layout (fun b => fld b 0 1 != 0) = some (h, r) → h.cur = some (n, r) → fld r.cmd 0 1 = 2 → im2colOk r.cmd = true →
  let m := im2colOf r.cmd
  let cp := copyCmdOf r.cmd
  let first := r.lives.isNone
  let at0 := if first then 0 else r.elem
  (first = true → s.cwBad d h.ctx none false cp.cw cp.scope = false) →
  (∀ u v k, (if first then im2colPinned d h.ctx m s else (s, .ok ())) = (u, .ok ()) →
    let run := { r with lives := some [], late := if first then u.cwLate d h.ctx cp.cwsp cp.cw cp.scope else r.late, elem := at0 }
    (∀ y z, im2colGo d h.ctx m (m.lines.drop at0) at0 u = (v, k, .ok ()) →
      let v1 := v.updCur (.layout d) h (fun _ => { run with elem := k })
      v1.storeDone d h.ctx h.owner cp.cwsp cp.cw cp.seq cp.scope run.late = (y, .ok ()) → y.descPut d h.ctx (h.desc.toNat + 32) (n + 1) = (z, .ok ()) →
      m.lines.length ≤ k ∧ MemoryOnly s v ∧ Signals v1 y d h.ctx h.owner cp.cwsp cp.cw cp.seq cp.scope ∧ MemoryOnly y z
        ∧ ∃ z', exec (.im2col d) s = .next z' ∧ z' = { z with dies := z'.dies } ∧ z'.chainsOf (.layout d) = (s.chainsOf (.layout d)).map (fun y =>
            if y.is h.desc h.ctx then
              { y with cur := none, coll := [], part := [], fault := false, pubs := y.pubs.filter (fun p => n + 1 < p.1) } else y))
    ∧ ∀ f va, im2colGo d h.ctx m (m.lines.drop at0) at0 u = (v, k, .error (.fault f va)) → MemoryOnly s v ∧ k < m.lines.length
        ∧ exec (.im2col d) s = .next ((v.updCur (.layout d) h (fun _ => { run with elem := k })).dieCmdFault (.layout d) h (f, va)))
  ∧ ∀ oh ow lo hi x src A I, oh < m.oh → ow < m.ow → (oh * m.ow + ow, lo, hi) ∈ m.lines → Served s (engRead d h.ctx) src A I →
      let va := m.dst + (oh * m.ow + ow) * m.dpitch + lo
      (∀ v, I v → ∃ v', v.xlate d h.ctx va { w := true } = (v', .ok x) ∧ MemoryOnly s v' ∧ v'.mem = s.mem) → x.attr.s = false → va < 2 ^ 60 →
      let tap := fun (q : Nat) => ((oh * m.sh - m.ph + (q / m.c / m.kw : Nat) : Int), (ow * m.sw - m.pw + (q / m.c % m.kw : Nat) : Int))
      let inside := fun q => 0 ≤ (tap q).1 ∧ (tap q).1 < m.h ∧ 0 ≤ (tap q).2 ∧ (tap q).2 < m.w
      let addr := fun (q : Nat) => m.src + (((tap q).1.toNat * m.w + (tap q).2.toNat) * m.c + q % m.c) * m.size
      (∀ q < m.kh * m.kw * m.c, inside q → ∀ k < m.size, A (addr q + k) ∧ addr q + k < 2 ^ 60) →
      let row := (List.range (m.kh * m.kw * m.c)).flatMap (fun q => if inside q then bytesAt src (addr q) m.size else List.replicate m.size 0)
      ∃ u, im2colLine d h.ctx m (oh * m.ow + ow, lo, hi) s = (u, .ok ()) ∧ MemoryOnly s u
        ∧ ∀ a, OneKind u a → Mem.rd u.mem a = placed x.pa ((row.drop lo).take (hi - lo)) (Mem.rd s.mem) a)

/-- R187 to R192: a collective command that starts reads its table and does its part for each cord: without error feedback the rank after a
cord's owner sends its quantised elements to the next rank, or the owner, for all-gather and broadcast, writes and sends them. A page
fault stops it at the cord it came to. A cord that arrives in the reduce phase is added to the own elements and sent on; one of the
gather phase is written and forwarded. When every cord is handled, the command completes. R10: under the native profile two ranks begin
a cord, one for each way round the ring, and the owner adds the two partial sums as they come; where the ring splits is the model's free
choice (log 60). -/
def Obligations.CollectivesRun : Prop := ∀ (s : State) (d n cop : Nat) (h : Chain) (r : CopyRun) (i : Instr), Canonical s →
  (i, cop) ∈ [(.allReduce d, 0), (.reduceScatter d, 1), (.allGather d, 2), (.broadcast d, 3)] → h.cur = some (n, r) → h.fault = false →
  let m := collOf r.cmd
  let cp := copyCmdOf r.cmd
  let e : EngRef := .collective d
  let ctx := h.ctx
  let begins := fun (y : CopyRun) (t : List Byte) (u z : State) => ∀ v k hs x, collBegins d ctx m t y.native (m.cords - y.elem) y.elem u [] = (v, k, hs, x) →
    let v1 := v.updChain e h.desc ctx (fun c => { c with coll := c.coll ++ hs, cur := c.cur.map (fun p => (p.1, { y with elem := k })) })
    (x = .ok () → m.cords ≤ k ∧ z = v1) ∧ ∀ f va, x = .error (.fault f va) → k < m.cords ∧ z = v1.dieCmdFault e h (f, va)
  fld r.cmd 0 1 = 3 → collOk r.cmd = true → m.cop = cop → m.ef = false →
  (∀ u t, collNow (s.die d).coll = none → firstCmd (s.die d).coll (fun b => fld b 0 1 != 0 && collKind b == cop) = some (h, r) →
    (r.lives = none → s.cwBad d ctx h.owner cp.cwsp cp.cw cp.scope = false) →
    let y := { r with lives := some [], elem := 0, native := (h.owner.bind s.dispOf).any (fun x => !x.lr.dbp)
                      late := if r.lives.isSome then r.late else s.cwLate d ctx cp.cwsp cp.cw cp.scope }
    rdBytes (engRead d ctx) m.ptab 64 (s.updCur e h (fun _ => y)) = (u, .ok t) → ptabOk t m s.pkg d s.peers = true →
    ∃ z, exec i s = .next z ∧ begins { y with shape := some t } t u z)
  ∧ (∀ t, collNow (s.die d).coll = some (h, r, t) → r.elem < m.cords → ∃ z, exec i s = .next z ∧ begins r t s z)
  ∧ (∀ t, collNow (s.die d).coll = some (h, r, t) → m.cords ≤ r.elem → collDone m h.coll = true →
      CommandEnds s i e h n h.owner cp.cwsp cp.cw cp.seq cp.scope r.late)
  ∧ ∀ t k native src A I, ptabOk t m s.pkg d s.peers = true → k < m.cords →
      let np := npart t
      let o := if cop = 3 then m.root else k % np
      let after := (m.rank + np - o) % np
      let split := if native then Config.ringSplit m.cid k % np else 0
      let back := (m.rank + np - 1) % np
      let next := (m.rank + 1) % np
      let sends := fun (peer : Nat) (u z : State) (phase : Nat) (v : CordVal) => z = { u with cords := u.cords ++ [cordOf m t peer k phase v] }
      (∀ j < 4 * m.live k, A (m.src + 4096 * k + j) ∧ m.src + 4096 * k + j < 2 ^ 60) →
      let xs := cordElems m src m.src k
      let q := (quantCord m.qpl xs).1
      let starts := (native = false ∧ m.rank = (o + 1) % np) ∨ (native = true ∧ (after = split + 1 ∨ after = split ∧ after ≠ 0))
      (Served s (engRead d ctx) src A I →
        (cop ≤ 1 → ¬ starts → collBegin d ctx m t native k s = (s, .ok []))
        ∧ (cop ≤ 1 → starts → ∃ u z, collBegin d ctx m t native k s = (z, .ok [(k, 0)]) ∧ MemoryOnly s u ∧ u.mem = s.mem
            ∧ sends (if after ≤ split then back else next) u z 0 q)
        ∧ (2 ≤ cop → m.rank ≠ o → collBegin d ctx m t native k s = (s, .ok []))
        ∧ (2 ≤ cop → m.rank = o → ∃ u, MemoryOnly s u ∧ u.mem = s.mem ∧ ∀ v, cordWrite d ctx m.dst m k (dequantCord q).1 u = (v, .ok ()) →
            ∃ z, collBegin d ctx m t native k s = (z, .ok [(k, 1)]) ∧ sends next v z 1 q))
      ∧ ∀ x, s.cords.find? (fun x => x.isFor s.pkg d) = some x → collNow (s.die d).coll = some (h, r, t) → r.native = native → m.cords ≤ r.elem →
          collDone m h.coll = false →
          let s1 := { s with cords := dropCord s.pkg d s.cords }
          let phase := fld x.header 10 1
          let v := cordValOf (fld x.header 9 1) x.body
          let dq := (dequantCord v).1
          let held := mget h.part k
          let sum := List.zipWith (fun a b => (encode fp32 (addV .rne (decodeF fp32 a) (decodeF fp32 b)).1 .rne false).1) dq (held.getD xs)
          let handled := fun (u : State) (ps : List (Nat × Nat)) (kept : List (Nat × List Nat)) => exec (.cordReceive d []) s = .next (u.updChain e h.desc ctx
            (fun y => { y with coll := y.coll ++ ps, part := y.part.filter (fun p => p.1 != k) ++ kept }))
          fld x.header 0 4 = m.cid → fld x.header 4 4 = k → fld x.header 11 1 = cop → fld x.header 12 4 = m.nelem → (x.header.drop 16).take 32 = sha3_256 t →
          let s2 := s1.raiseDasr d (dasrOf (dequantCord v).2)
          let two := 1 ≤ split ∧ split + 2 ≤ np ∧ held = none
          (k, phase) ∉ h.coll → Served s2 (engRead d ctx) src A I →
          (phase = 0 → cop ≤ 1 → m.rank ≠ o → ∃ u z, MemoryOnly s1 u ∧ u.mem = s.mem
            ∧ sends (if after ≤ split then back else next) u z 0 (quantCord m.qpl sum).1 ∧ handled z [(k, 0)] [])
          ∧ (phase = 0 → cop ≤ 1 → m.rank = o → two → ∃ u, MemoryOnly s1 u ∧ u.mem = s.mem ∧ handled u [] [(k, sum)])
          ∧ (phase = 0 → cop = 1 → m.rank = o → ¬ two → ∃ u, MemoryOnly s1 u ∧ u.mem = s.mem ∧ ∀ v, cordWrite d ctx m.dst m k sum u = (v, .ok ()) →
              handled v [(k, 0)] [])
          ∧ (phase = 0 → cop = 0 → m.rank = o → ¬ two → ∃ u, MemoryOnly s1 u ∧ u.mem = s.mem ∧
              let c := (quantCord m.qpl sum).1
              ∀ v, cordWrite d ctx m.dst m k (dequantCord c).1 u = (v, .ok ()) → ∃ z, sends next v z 1 c ∧ handled z [(k, 0), (k, 1)] [])
          ∧ (phase = 1 → cop ≠ 1 → ∃ u, MemoryOnly s1 u ∧ u.mem = s.mem ∧ ∀ w, cordWrite d ctx m.dst m k dq u = (w, .ok ()) →
              (next = o → handled w [(k, 1)] []) ∧ (next ≠ o → ∃ z, sends next w z 1 (v.truncate m.fpl) ∧ handled z [(k, 1)] []))

/-- R229, R232 to R234: BKGET takes a bucket by the rule of R229 on its descriptor: its counter goes up by 1 and sD holds the bucket, or
0xFFFF_FFFF when none is left and nothing changes. BKDONE adds 1 to DONE. R200 to R202, R205: GBIN of a position task culls its grid or
hands it on for shading, and sets its predicate where the grid is culled; GSUB of a surface task hands the grid to the binner of its
anchor's home die and counts on SETB. Either marks the task as done. -/
def Obligations.BucketAndGridWords : Prop :=
  (∀ (s : State) (f : OwnF) (g : GroupId) (w : Workgroup) (t : ThreadId) (ts : List ThreadId) (u v : State)
    (b b' : List Byte), Canonical s → s.wg g.wg = some w →
  let c := w.coreIx
  let ctx := s.ctxOf g.wg
  let a := (s.rd64 t f.a).toNat
  a % 64 = 0 → a < 2 ^ 60 → rdBytes (descRead c ctx) a 64 s = (u, .ok b) → bucketDescOk b = true → rdBytes (descRead c ctx) a 64 u = (v, .ok b') →
  let adds := fun (z : State) (off : Nat) => ∃ y x, MemoryOnly s y ∧ (u.xlate (c / 32) ctx (a + off) { r := true, w := true }).2 = .ok x
    ∧ (∀ k, Mem.rd z.mem k = placed x.pa (leBytes 4 (fld b' off 4 + 1)) (Mem.rd u.mem) k) ∧ z = { y with threads := z.threads, groups := z.groups }
  let gives := fun (z : State) (k : Nat) => (∀ h, h ≠ g → z.grp h = s.grp h) ∧ ∀ x, s.grp g = some x → ∃ y, z.grp g = some y
    ∧ { y with sregs := x.sregs } = x ∧ ∀ r, y.sregs.getD r 0 = afterS f.d [BitVec.ofNat 32 k] (fun r => x.sregs.getD r 0) r
  let heads := (List.range 4).map (fun e => fld b' (8 + 8 * e) 4)
  let tails := (List.range 4).map (fun e => fld b' (12 + 8 * e) 4)
  (let i := Instr.bkget f
   i.wf = true → ReadyIn s i g → s.executing i = t :: ts →
   (NoneLeft (fld b' 0 2) (fld b' 2 2) heads tails (c / 32) → ∃ z, exec i s = .next z ∧ MemoryOnly s u
     ∧ z = { u with threads := z.threads, groups := z.groups } ∧ ThreadsGo s z i (fun _ => Thread.advance) ∧ gives z 0xFFFFFFFF)
   ∧ ∀ e front k, c / 32 < 4 → TakenBy (fld b' 0 2) (fld b' 2 2) heads tails (c / 32) e front k →
     let off := 8 + 8 * e + if front then 0 else 4
     (∃ x, (u.xlate (c / 32) ctx (a + off) { r := true, w := true }).2 = .ok x) →
     ∃ z, exec i s = .next z ∧ adds z off ∧ ThreadsGo s z i (fun _ => Thread.advance) ∧ gives z k)
  ∧ (let i := Instr.bkdone f
     i.wf = true → ReadyIn s i g → s.executing i = t :: ts → (s.rd t f.b).toNat < fld b 0 2 * fld b 2 2 →
     (∃ x, (u.xlate (c / 32) ctx (a + 40) { r := true, w := true }).2 = .ok x) → (∀ x, s.grp g = some x → x.preq = false) →
     ∃ z, exec i s = .next z ∧ adds z 40 ∧ ThreadsGo s z i (fun _ => Thread.advance) ∧ z.groups = s.groups))
  ∧ (∀ (s : State) (f : OwnF) (pd : Fin 8) (g : GroupId) (w : Workgroup) (k : GridTask) (t : ThreadId) (ts : List ThreadId),
  s.wg g.wg = some w → w.task = some k → k.done = false →
  let ctx := s.ctxOf g.wg
  let marks := fun (z : State) => z.wg g.wg = some { w with task := some { k with done := true } } ∧ ∀ v, v ≠ g.wg → z.wg v = s.wg v
  (let i := Instr.gbin f pd
   ∀ x gx u culled, i.wf = true → ReadyIn s i g → k.surface = false → s.disp w.disp = some x → x.gfx = some gx →
   gbinEv w.die ctx gx.rr k.recAddr.toNat s.fresh { s with fresh := s.fresh + 4 } = (u, .ok culled) →
   ∃ z, exec i s = .next z ∧ MemoryOnly s u ∧ z = { u with threads := z.threads, wgs := z.wgs, disps := z.disps } ∧ marks z
     ∧ ThreadsGo s z i (fun _ x => { x.advance with preds := if pd = 7 then x.preds else setPred x.preds pd.val culled })
     ∧ z.disp w.disp = some { x with gfx := some { gx with surfQ := gx.surfQ ++ if culled then [] else [(w.die, k.grid, k.recAddr)] } }
     ∧ ∀ n, n ≠ w.disp → z.disp n = s.disp n)
  ∧ (let i := Instr.gsub f
     ∀ u hb, i.wf = true → ReadyIn s i g → s.executing i = t :: ts → k.surface = true →
     rdBytes (engRead w.die ctx) k.recAddr.toNat 64 s = (u, .ok hb) →
     let d := (fld hb 40 2 + 2 * (fld hb 42 2 % 2)) % 4
     ∃ z, exec i s = .next z ∧ MemoryOnly s u ∧ z = { u with threads := z.threads, wgs := z.wgs, dies := z.dies } ∧ marks z
       ∧ ThreadsGo s z i (fun t x => (x.count (flagB s t)).advance)
       ∧ z.die d = { u.die d with toBin := (u.die d).toBin ++ if d < u.dies.length then [⟨w.disp, k.recAddr, t :: ts, flagB s t, none⟩] else [] }
       ∧ ∀ e, e ≠ d → z.die e = u.die e))

/-- R193, R197, R198, R203 to R207, R215, R229, R230: a graphics dispatch takes the idle bucket memory of all dies with every slot free; its
dicers take every fourth patch and hand over position tasks; its binners place grids, and read a record before its GSUB is counted no
longer; binning completes when nothing is left to place, and zeroes heads and tails; an idle rasteriser takes a bucket, and one that has
a bucket writes it and is idle. A unit that a page fault stops keeps what it has done, and goes on from there. -/
def Obligations.GraphicsSteps : Prop := ∀ (s : State) (n : Nat) (x : Dispatch) (g : Gfx), Canonical s → s.disp n = some x → x.gfx = some g → x.fin = .running →
  s.preempting n = false → s.dies.length = 4 →
  let ctx := x.ctx
  let r := renderOf g.rr
  let gfx := fun (u z : State) (g' : Gfx) => z.disp n = some { x with gfx := some g' } ∧ (∀ k, k ≠ n → z.disp k = s.disp k)
    ∧ z = { u with disps := z.disps, dies := z.dies, threads := z.threads }
  let die := fun (u z : State) (d : Nat) (f : Die → Die) => z.die d = f (u.die d) ∧ ∀ e, e ≠ d → z.die e = u.die e
  let works := fun (v : State) (g' : Gfx) => ∃ y, MemoryOnly s y ∧ gfx y v g' ∧ v.dies = y.dies
  (∀ u v w b pat, g.taken = false → g.bks = [] → x.fault = false → (∀ d < 4, (s.die d).bkState = .idle) → (s.slot x.slot).queue = some x.queue →
    readRender ctx x.lr.args.toNat s = (u, .ok b) → readEntries ctx b u = (w, .ok ()) → readPattern ctx b w = (v, .ok pat) →
    ∃ z, exec (.graphicsDispatchStart n) s = .next z ∧ MemoryOnly s v ∧ gfx v z { g with rr := b, pattern := pat, taken := true } ∧ z.threads = s.threads
      ∧ ∀ d < 4, { z.die d with bk := (v.die d).bk } = { v.die d with
            bkState := .graphics n, dicing := (v.die d).dicing ++ (if d < (renderOf b).npatch then [⟨n, d, none⟩] else [])
            rasters := (v.die d).rasters.map (fun _ => .idle) }
          ∧ ∀ a, (z.die d).bkByte d a = if a < 64 * (renderOf b).nslot then (if a % 64 < 4 then 255 else 0) else (v.die d).bkByte d a)
  ∧ (g.taken = true →
    (∀ d i e u v w k o, d < 4 → (s.die d).dicing.findIdx (fun e => (s.gfxOf e.disp).isSome) = i → (s.die d).dicing[i]? = some e → e.disp = n →
      (s.die d).diceFault = false → diceBegin d ctx g.rr e s = (u, .ok w) → diceGo d n ctx g.rr e.patch w u = (v, k, o) →
      let gs := (dicePatch g.rr w.patch).1
      (o = none → v.threads = s.threads ∧ works v { g with posQ := g.posQ ++ ((List.range gs.length).drop (w.stage - 3)).map (fun j =>
            (d, e.patch * 2 ^ 20 + j, BitVec.ofNat 64 (r.arena + r.rs * (k.first + j)))) }
        ∧ ∃ z, exec (.dicePatch d) s = .next z ∧ z = { v with dies := z.dies } ∧ die v z d (fun y => { y with
            dicing := if e.patch + 4 < r.npatch then y.dicing.set i { e with patch := e.patch + 4, work := none } else y.dicing.eraseIdx i }))
      ∧ ∀ f va, o = some (.fault f va) → exec (.dicePatch d) s = .next
          ((v.updDie d (fun y => { y with dicing := y.dicing.set i { e with work := some k }, diceFault := true })).gfxFault (.dicer d) n d f va))
    ∧ (∀ d i e u v w k o, d < 4 → (s.die d).toBin.findIdx (fun e => (s.gfxOf e.disp).isSome) = i → (s.die d).toBin[i]? = some e → e.disp = n →
      (s.die d).binFault = false → e.issuers.Nodup → binBegin d ctx r i e s = (u, .ok w) → binGo d ctx n r w u = (v, k, o) →
      (∃ g', works v g') ∧ (∀ t, v.thr t = if e.work = none ∧ t ∈ e.issuers then (s.thr t).map (fun y => y.uncount e.flag) else s.thr t)
      ∧ (o = none → ∃ z, exec (.binGrid d) s = .next z ∧ z = { v with dies := z.dies } ∧ die v z d (fun y => { y with toBin := y.toBin.eraseIdx i }))
      ∧ ∀ f va, o = some (.fault f va) → ∃ e', { e' with issuers := e.issuers, work := e.work } = e ∧ e'.work = some k
          ∧ (e.work = none → e'.issuers = []) ∧ exec (.binGrid d) s = .next
            ((v.updDie d (fun y => { y with toBin := y.toBin.set i e', binFault := true })).gfxFault (.binner d) n d f va))
    ∧ (∀ u, s.binDone n = true → writeHeads ctx r g s = (u, .ok ()) →
      ∃ z, exec (.binningComplete n) s = .next z ∧ MemoryOnly s u ∧ gfx u z { g with binned := true, heads := [0, 0, 0, 0], tails := [0, 0, 0, 0] }
        ∧ z.threads = s.threads ∧ z.dies = u.dies)
    ∧ (∀ d k e front b, d < 4 → k < (s.die d).rasters.length → (s.die d).bkState = .graphics n → g.binned = true → (s.rasterOf d k).bucket = none →
      g.heads.length = 4 → g.tails.length = 4 → TakenBy r.nbx r.nby g.heads g.tails d e front b →
      ∃ z, exec (.takeBucket d k) s = .next z ∧ z.threads = s.threads
        ∧ gfx s z (if front then { g with heads := g.heads.set e (g.heads.getD e 0 + 1) } else { g with tails := g.tails.set e (g.tails.getD e 0 + 1) })
        ∧ die s z d (fun y => { y with rasters := y.rasters.set k { Raster.idle with bucket := some b }, ctrVal := (z.die d).ctrVal }))
    ∧ ∀ d k b u y o, d < 4 → k < (s.die d).rasters.length → (s.die d).bkState = .graphics n → (s.rasterOf d k).bucket = some b →
      (s.rasterOf d k).fault = false → rasterGo d ctx n k g b (s.rasterOf d k) s = (u, y, o) →
      MemoryOnly s u ∧ (∀ a, ¬ (0x1000000 - 2 * r.ra + k * r.ra ≤ a ∧ a < 0x1000000 - 2 * r.ra + (k + 1) * r.ra) → (u.die d).bkByte d a = (s.die d).bkByte d a)
      ∧ (o = none → ∃ z, exec (.rasteriseBucket d k) s = .next z ∧ z.threads = s.threads
          ∧ gfx u z (if y.bucket = none then { g with written := g.written + 1 } else g) ∧ die u z d (fun c => { c with rasters := c.rasters.set k y }))
      ∧ ∀ f va, o = some (.fault f va) →
          exec (.rasteriseBucket d k) s = .next ((u.updRaster d k (fun _ => { y with fault := true })).gfxFault (.raster d k) n d f va))

/-- R81, R236 to R238, R242 to R244: the next command of a queue starts and HEAD counts it. A NOP is complete at once; a launch whose record has no fate
starts its dispatch; a graph launch copies its graph and starts an instance; a wait goes on until a read of its word gives its value or more; a signal stores its
value and is complete; a copy goes to the engine of a core of its dies. -/
def Obligations.QueueCommandsStart : Prop := ∀ (s : State) (q : Nat) (k : Queue) (u : State) (b : List Byte), Canonical s →
  let addr := fld b 8 8
  let head := k.head.toNat
  let dies : BitVec 4 := if fld b 2 1 = 0 then 15 else BitVec.ofNat 4 (fld b 2 1)
  let starts := fun (i : Instr) (v : State) (obj core : Option Nat) => ∃ z, exec i s = .next z ∧ HeadMoves v z q k [⟨head, b, obj, core, none, false, false⟩]
  (CommandDue s q k u b → MemoryOnly s u
    ∧ (fld b 0 1 = 0 → ∃ z, exec (.queueNop q) s = .next z ∧ HeadMoves u z q k [])
    ∧ (fld b 0 1 = 3 → starts (.queueWait q) u none none)
    ∧ (∀ w lb, fld b 0 1 = 1 → readLaunch k.ctx addr u = (w, .ok lb) →
      let l := launchOf lb
      let d : Dispatch := { queue := q, slot := k.slot.getD 0, cmd := head, lrec := BitVec.ofNat 64 addr, lr := l, dies := dies, node := none
                            ctx := k.ctx, nextCl := 0, live := 0, late := w.cwLate 0 k.ctx false l.cw l.cwsc, gfx := if l.mode = 2 then some noGfx else none
                            acqScope := k.lastScope, fin := .running, fault := false }
      MemoryOnly s w ∧ launchOk lb = true ∧ w.cwBad 0 k.ctx none false l.cw l.cwsc = false ∧ starts (.queueLaunch q) { w with
        disps := w.disps ++ [(w.fresh, d)], fresh := w.fresh + 1, profNative := if l.dbp then w.profNative else w.profNative + 1
        profDbp := if l.dbp then w.profDbp + 1 else w.profDbp } (some w.fresh) none)
    ∧ (∀ v h ns ls w, fld b 0 1 = 2 → readGraph k.ctx addr u = (v, .ok (h, ns, ls)) →
      ((fld h 2 1).testBit 0 = true → ∀ e ∈ s.graphs, e.2.graph.toNat ≠ addr ∨ e.2.ctx ≠ k.ctx) →
      v.cwBad 0 k.ctx none false (BitVec.ofNat 64 (fld h 16 8)) (fld h 3 1) = false →
      hubWrite k.ctx (fld b 24 8) (h ++ ns.flatten ++ ls.flatten) v = (w, .ok ()) →
      let g : GraphInst := { queue := q, slot := k.slot.getD 0, cmd := head, ctx := k.ctx, graph := BitVec.ofNat 64 addr
                             buf := BitVec.ofNat 64 (fld b 24 8), serial := (fld h 2 1).testBit 0, gsc := fld h 3 1
                             gcw := BitVec.ofNat 64 (fld h 16 8), gseq := BitVec.ofNat 64 (fld h 24 8), dies := dies
                             nodes := (ns.zip ls).map (fun p => (nodeDeps p.1, fld p.2 71 1, none)), failed := false, fault := false
                             late := v.cwLate 0 k.ctx false (BitVec.ofNat 64 (fld h 16 8)) (fld h 3 1) }
      MemoryOnly s w ∧ starts (.queueGraphLaunch q) { w with graphs := w.graphs ++ [(w.fresh, g)], fresh := w.fresh + 1 } (some w.fresh) none)
    ∧ (∀ v y, fld b 0 1 = 4 → (∀ r ∈ k.running, fld r.bytes 0 1 = 4 → r.fault = true) → let cw : DWord := BitVec.ofNat 64 addr
      let late := u.cwLate 0 k.ctx false cw (fld b 3 1)
      v = u.runCmd q b none none late → u.cwBad 0 k.ctx none false cw (fld b 3 1) = false →
      v.hubDoneStore k.ctx cw (BitVec.ofNat 64 (fld b 16 8)) (fld b 3 1) late = (y, .ok ()) →
      ∃ z, exec (.queueSignal q) s = .next z ∧ HeadMoves u v q k [⟨head, b, none, none, none, false, late⟩] ∧ Signals v y 0 k.ctx none false (BitVec.ofNat 64 addr) (BitVec.ofNat 64 (fld b 16 8)) (fld b 3 1)
        ∧ z = { y with queues := z.queues } ∧ CommandGone y z q head (some (fld b 3 1)))
    ∧ (let cs := u.copyCores q dies
       fld b 0 1 = 5 → cs ≠ [] → (∀ c ∈ cs, ∃ v cmd, rdBytes (engRead (c / 32) k.ctx) addr 64 u.bump = (v, .ok cmd)) →
       ∃ c ∈ cs, dies.getLsbD (c / 32) = true ∧ ∃ v cmd, rdBytes (engRead (c / 32) k.ctx) addr 64 u.bump = (v, .ok cmd) ∧ MemoryOnly s v
         ∧ starts (.queueCopy q) (v.updCore c (fun x => { x with qcopy := mput x.qcopy q (copyRunOf cmd (BitVec.ofNat 64 addr)) })) none (some c)))
  ∧ ∀ n r v w, s.queue q = some k → k.slot = some n → (s.slot n).preempt = false → k.running.filter (fun r => fld r.bytes 0 1 == 3 && !r.fault) = [r] →
      rdBytes (hubRead k.ctx) (fld r.bytes 8 8) 8 s = (v, .ok w) → MemoryOnly s v
        ∧ (leNat w < fld r.bytes 16 8 → exec (.queueWaitWake q) s = .next v)
        ∧ (fld r.bytes 16 8 ≤ leNat w → ∃ z, exec (.queueWaitWake q) s = .next z ∧ z = { v with queues := z.queues }
            ∧ CommandGone v z q r.idx (some (fld r.bytes 3 1)))

/-- R54, R93, R207, R214, R243 to R245, R342: a graph node whose predecessors are complete starts its dispatch; an instance whose nodes are complete, and a
dispatch that has nothing left to do, write their completion words and end their command, and bucket memory that a
dispatch held then has free contents; a workgroup that has nothing left to do ends, and
its threads, groups and space are gone. -/
def Obligations.GraphsAndDispatchesComplete : Prop := ∀ (s : State), Canonical s →
  (∀ i n g deps sc slot u d, mget s.graphs i = some g → g.nodes[n]? = some (deps, sc, none) → s.boundSlot g.queue = some slot → g.failed = false →
    g.fault = false → (∀ p ∈ deps, ∃ ds c, g.nodes[p]? = some (ds, c, some none)) →
    let before := (s.queue g.queue).bind Queue.lastScope
    let acq := deps.foldl (fun a p => wider a ((g.nodes[p]?).map (fun x => x.2.1))) before
    launchEv g.queue slot g.cmd g.ctx (g.buf.toNat + 64 + 64 * g.nodes.length + 256 * n) g.dies (some (i, n)) acq s = (u, .ok d) →
    ∃ z, exec (.graphNodeStart i n) s = .next z ∧ MemoryOnly s u ∧ d.node = some (i, n) ∧ d.queue = g.queue ∧ d.slot = slot ∧ d.acqScope = acq
      ∧ (∀ k, before = some k → ∃ a, acq = some a ∧ k ≤ a) ∧ (∀ p ∈ deps, ∃ a, acq = some a ∧ orderScope (((g.nodes[p]?).map (fun x => x.2.1)).getD 0) ≤ a)
      ∧ z = { u with disps := u.disps ++ [(u.fresh, d)], fresh := u.fresh + 1, graphs := z.graphs, profNative := z.profNative, profDbp := z.profDbp }
      ∧ z.profNative + z.profDbp = s.profNative + s.profDbp + 1 ∧ (d.lr.dbp = true → z.profNative = s.profNative)
      ∧ (d.lr.dbp = false → z.profDbp = s.profDbp) ∧ mget z.graphs i = some { g with nodes := g.nodes.set n (deps, sc, some (some u.fresh)) }
      ∧ ∀ j, j ≠ i → mget z.graphs j = mget s.graphs j)
  ∧ (∀ i g u, mget s.graphs i = some g → g.failed = false → g.fault = false → (∀ x ∈ g.nodes, x.2.2 = some none) →
    s.hubDoneStore g.ctx g.gcw g.gseq g.gsc g.late = (u, .ok ()) →
    ∃ z, exec (.graphInstanceComplete i) s = .next z ∧ Signals s u 0 g.ctx none false g.gcw g.gseq g.gsc
      ∧ z = { u with graphs := mdel u.graphs i, queues := z.queues } ∧ CommandGone u z g.queue g.cmd (some g.gsc))
  ∧ (∀ n d u, s.disp n = some d → d.fin = .running → d.fault = false → d.live = 0 →
    (match d.gfx with
      | none => d.lr.dimx * d.lr.dimy * d.lr.dimz / d.lr.csize ≤ d.nextCl
      | some g => g.binned = true ∧ (renderOf g.rr).buckets ≤ g.written) →
    s.hubDoneStore d.ctx d.lr.cw d.lr.seq d.lr.cwsc d.late = (u, .ok ()) →
    ∃ z, exec (.dispatchComplete n) s = .next z ∧ Signals s u 0 d.ctx none false d.lr.cw d.lr.seq d.lr.cwsc
      ∧ z = { u with disps := mdel u.disps n, dies := z.dies, faults := z.faults, queues := z.queues, graphs := z.graphs, fresh := u.fresh + 1 }
      ∧ (∀ e < 4, (((u.die e).bkState = .graphics n ∨ ∃ l, (u.die e).bkState = .window n l) → (z.die e).bkState = .idle
            ∧ ∀ a, (z.die e).bkByte e a = Config.freeByte u.fresh (0x1000000 * e + a))
          ∧ ((u.die e).bkState ≠ .graphics n → (∀ l, (u.die e).bkState ≠ .window n l) → (z.die e).bkState = (u.die e).bkState
            ∧ ∀ a, (z.die e).bkByte e a = (u.die e).bkByte e a))
      ∧ (d.node = none → z.graphs = s.graphs ∧ CommandGone u z d.queue d.cmd (some d.lr.cwsc))
      ∧ ∀ i k g x, d.node = some (i, k) → mget s.graphs i = some g → g.failed = false → g.nodes[k]? = some x → z.queues = u.queues
          ∧ mget z.graphs i = some { g with nodes := g.nodes.set k (x.1, x.2.1, some none) })
  ∧ ∀ w g d, s.wg w = some g → g.task = none → s.canEnd w = true → s.disp g.disp = some d → d.fin = .running →
      ∃ z, exec (.workgroupEnd w) s = .next z ∧ z.mem = s.mem ∧ z.disp g.disp = some { d with live := d.live - 1 }
        ∧ (∀ t, z.thr t = if t.wg = w then none else s.thr t) ∧ (∀ h, z.grp h = if h.wg = w then none else s.grp h)
        ∧ (∀ y, z.wg w = some y → y.ended = true ∧ y.tileNos = [] ∧ y.phrOffs = [] ∧ y.spad = g.spad)
        ∧ ∀ v y, v ≠ w → (s.wg v = some y → y.ended = false → z.wg v = some y)
            ∧ (z.wg v = some y → s.wg v = some y)

/-- R235, R236, R239, R240, R298: a notify write raises TAIL, and one past the ring makes a queue error. Every 10 us a waiting queue gets the idle slot
that was used longest ago, the lowest of equals; with none idle, a slot that R240 lets it take is asked to give way. A slot whose queue has
no work becomes idle, and its queue's wait counts from then. -/
def Obligations.QueuesAreMapped : Prop := (∀ (s : State) (q : Nat) (k : Queue), Canonical s → s.queue q = some k → SlotsKept s →
  let now := (s.hubTime / 10000 + 1) * 10000
  (∀ v : DWord, q < 4096 → k.slot.isSome = true → (∀ e ∈ s.queues, e.2.slot = none → e.2.hasWork = false) →
    let run := exec (.notifyWrite 0 (0x01000000 + 4096 * q) 8 v) s
    (k.head.toNat + 2 ^ k.lsize < v.toNat → ∃ z, run = .next z ∧ (z.queue q).map Queue.err = some true)
    ∧ (v.toNat ≤ k.head.toNat + 2 ^ k.lsize → v.toNat ≤ k.tail.toNat → run = .next s)
    ∧ (v.toNat ≤ k.head.toNat + 2 ^ k.lsize → k.tail.toNat < v.toNat → ∃ y z, run = .next z ∧ MemoryOnly s y ∧ z = { y with queues := z.queues }
        ∧ z.queue q = some { k with tail := v, waitStart := if k.hasWork then k.waitStart else s.hubTime } ∧ (∀ p, p ≠ q → z.queue p = s.queue p)
        ∧ (inMap (k.desc.toNat + 40) = true → ∀ a, Mem.rd z.mem a = placed (k.desc.toNat + 40) (leBytes 8 v.toNat) (Mem.rd s.mem) a)))
  ∧ ((∀ e ∈ s.queues, e.2.slot = none → e.2.hasWork = false) → exec .mapperTimer s = .next { s with hubTime := now })
  ∧ (s.queues.filter (fun e => e.2.slot.isNone && e.2.hasWork) = [(q, k)] → k.err = false → s.underCap k.fn = true →
    let gone := fun (z : State) (n : Nat) (x : Slot) => z.slot n = x ∧ ∀ m, m ≠ n → z.slot m = s.slot m
    (∀ n, n < s.slots.length → (s.slot n).queue = none →
      (∀ m, m < s.slots.length → (s.slot m).queue = none → (s.slot n).lastUsed < (s.slot m).lastUsed ∨ ((s.slot n).lastUsed = (s.slot m).lastUsed ∧ n ≤ m)) →
      ∃ z, exec .mapperTimer s = .next z ∧ z = { s with hubTime := now, slots := z.slots, queues := z.queues, disps := z.disps, graphs := z.graphs }
        ∧ gone z n { s.slot n with queue := some q, lastUsed := now, boundAt := now } ∧ z.queue q = some { k with slot := some n, victim := none }
        ∧ (∀ p, p ≠ q → z.queue p = s.queue p) ∧ (∀ d, z.disp d = (s.disp d).map (fun x => if x.queue = q then { x with slot := n } else x))
        ∧ ∀ i, mget z.graphs i = (mget s.graphs i).map (fun x => if x.queue = q then { x with slot := n } else x))
    ∧ ((∀ n, n < s.slots.length → (s.slot n).queue ≠ none) → k.victim = none →
      (({ s with hubTime := now } : State).victimFor k = none → exec .mapperTimer s = .next { s with hubTime := now })
      ∧ ∀ n, ({ s with hubTime := now } : State).victimFor k = some n → ∃ z, exec .mapperTimer s = .next z
          ∧ z = { s with hubTime := now, slots := z.slots, queues := z.queues } ∧ gone z n { s.slot n with preempt := true }
          ∧ z.queue q = some { k with victim := some n } ∧ ∀ p, p ≠ q → z.queue p = s.queue p)))
  ∧ ∀ (s : State) (n q : Nat) (k : Queue), n < s.slots.length → (s.slot n).queue = some q → s.queue q = some k → k.hasWork = false →
    (∀ m p, m ≠ n → (s.slot m).queue = some p → p ≠ q ∧ ∃ x, s.queue p = some x ∧ x.hasWork = true) → (∀ m, (s.slot m).asked = false) →
    (∀ e ∈ s.queues, e.2.slot = none → e.2.hasWork = false) →
    let after := fun (x : Queue) => if x.victim = some n then { x with victim := none } else x
    ∃ z, s.mapperLook = z ∧ z = { s with slots := z.slots, queues := z.queues } ∧ z.slot n = { s.slot n with queue := none, preempt := false, deadlines := [] }
      ∧ (∀ m, m ≠ n → z.slot m = s.slot m) ∧ z.queue q = some (after { k with slot := none, waitStart := s.hubTime })
      ∧ ∀ p, p ≠ q → z.queue p = (s.queue p).map after

/-- R14, R23, R29, R42, R241, R248, R249: a dispatcher's turn admits the next cluster of the slot whose turn it is: its threads stand at the entry with
zero registers, the first four s-registers of each group hold the arguments and the launch record's address. A request sets REQ in every
group of its slot and starts the deadlines of its cores; when a deadline expires the workgroup there is saved by force. A core places the
groups of its phase queue that find room. -/
def Obligations.WorkgroupsComeAndGo : Prop := ∀ (s : State), Canonical s →
  (∀ e c p n d x f set, e < 4 → s.victimsOn e = [] → bestTurn (s.turns e) = some (c, p, n, .launchOn d [f] set) → s.disp d = some x → x.lr.csize = 1 → x.gfx = none →
    f.spots.length = x.lr.ngrp → (∀ w, s.fresh ≤ w → s.wg w = none ∧ (∀ t : ThreadId, t.wg = w → s.thr t = none) ∧ ∀ g : GroupId, g.wg = w → s.grp g = none) →
    let w := s.fresh + 1
    ∃ z y, exec (.dispatcherTurn e) s = .next z ∧ z.wg w = some y ∧ y.disp = d ∧ y.x = x.nextCl % (x.lr.dimx / x.lr.cx)
      ∧ y.y = x.nextCl / (x.lr.dimx / x.lr.cx) % (x.lr.dimy / x.lr.cy) ∧ y.z = x.nextCl / (x.lr.dimx / x.lr.cx * (x.lr.dimy / x.lr.cy))
      ∧ y.resident = true ∧ y.ended = false ∧ y.halt = .running ∧ 32 * y.die + y.core = f.core ∧ y.spad = [] ∧ (∀ v, v ≠ w → z.wg v = s.wg v)
      ∧ z.disp d = some { x with live := x.live + 1, nextCl := x.nextCl + 1 } ∧ (∀ k, k ≠ d → z.disp k = s.disp k)
      ∧ (∀ g k, g < x.lr.ngrp → f.spots[g]? = some k → (∃ h, z.grp ⟨w, g⟩ = some h ∧ h.width = k.width ∧ h.status = .running ∧ h.preq = false ∧ h.stage = 0
            ∧ h.sregs = [x.lr.args.setWidth 32, (x.lr.args >>> 32).setWidth 32, x.lrec.setWidth 32, (x.lrec >>> 32).setWidth 32] ++ List.replicate 28 0)
          ∧ ∀ i, i < k.width → ∃ t, z.thr ⟨w, g, i⟩ = some t ∧ t.pc = x.lr.entry ∧ t.clause = none ∧ t.regs = List.replicate x.lr.nreg 0 ∧ t.preds = 0
              ∧ t.fsr = 0 ∧ t.fcr = 0 ∧ t.sys = false ∧ t.exited = false ∧ t.wait = .none)
      ∧ (∀ t : ThreadId, t.wg ≠ w → z.thr t = s.thr t) ∧ ∀ g : GroupId, g.wg ≠ w → z.grp g = s.grp g)
  ∧ (∀ n, n < s.slots.length → (s.slot n).preempt = true → (s.slot n).asked = false →
    let mine := fun (w : Nat) => ∃ e ∈ s.wgs, e.1 = w ∧ ((s.disp e.2.disp).map Dispatch.slot) = some n
    ∃ u : State, exec (.preemptionRequest n) s = .next (u.saveSlot n) ∧ u = { s with slots := u.slots, groups := u.groups, cores := u.cores }
      ∧ u.slot n = { s.slot n with asked := true, deadlines := s.slotCores n } ∧ (∀ m, m ≠ n → u.slot m = s.slot m)
      ∧ ∀ g x, s.grp g = some x → ∃ y, u.grp g = some y ∧ { y with preq := x.preq } = x ∧ (mine g.wg → y.preq = true) ∧ (¬ mine g.wg → y.preq = x.preq))
  ∧ (∀ c n w g d u, c % 32 ≠ 0 → n < s.slots.length → (s.slot n).asked = true → c ∈ (s.slot n).deadlines →
    (s.wgs.filter (fun e => e.2.coreIx == c && e.2.resident && !e.2.ended && ((s.disp e.2.disp).map (fun d => d.slot == n)).getD false)).map Prod.fst = [w] →
    s.wg w = some g → g.coreIx = c → g.resident = true → g.ended = false → g.halt = .running → s.dispOf w = some d → d.slot = n → s.settled w = true →
    (∀ q, (s.slot n).queue = some q → mget (s.core c).qcopy q = none) → s.saveWg w = (u, true) →
    ∃ z y, exec (.preemptionDeadline c n) s = .next z ∧ z = { u with slots := z.slots } ∧ z.wg w = some y ∧ y.resident = false
      ∧ z.slot n = { u.slot n with deadlines := (u.slot n).deadlines.filter (fun k => decide (k ≠ c)) } ∧ ∀ m, m ≠ n → z.slot m = u.slot m)
  ∧ (∀ c w k tick g lr, (s.core c).phaseQ = [(w, k, tick)] → s.grp ⟨w, k⟩ = some g → s.lrOf w = some lr →
    (placeGroup (s.spots c) (columnWords lr.part) g.width lr.nreg = none → exec (.phaseQueueScan c) s = .next s)
    ∧ ∀ p, placeGroup (s.spots c) (columnWords lr.part) g.width lr.nreg = some p →
      ∃ z, exec (.phaseQueueScan c) s = .next z ∧ z = { s with groups := z.groups, cores := z.cores, queues := z.queues }
        ∧ z.core c = { s.core c with phaseQ := [] } ∧ (∀ d, d ≠ c → z.core d = s.core d)
        ∧ z.grp ⟨w, k⟩ = some { g with status := .running, quarter := p.quarter, row := p.row, off := p.off, base := p.base, waitBar := none, fullSave := false }
        ∧ (∀ h, h ≠ ⟨w, k⟩ → z.grp h = s.grp h)
        ∧ ∀ q, (z.queue q).map (fun k => { k with csaUsed := 0, csaBlks := 0 }) = (s.queue q).map (fun k => { k with csaUsed := 0, csaBlks := 0 }))

/-- R65, R66, R70, R80, R97, R105, R246: a line that a fetch awaits arrives in the instruction cache. An injected line merges into a resident one but
for its dirty bytes, takes a free quota way, or is refused where every quota way holds an injected line. One that an invalidation has overtaken leaves
no clean copy (log 64). An invalidation leaves dirty bytes alone. A die's L2 evicts an unpinned line: its dirty bytes stand at home. -/
def Obligations.LinesMove : Prop := ∀ (s : State) (c d line : Nat), Canonical s →
  let k := s.core c
  let fs := k.frozen.filterMap id ++ k.prefetch
  (∀ a, fs.find? (fun p => p.1 == line) = some (line, a) → ∃ z, exec (.icacheMissFill c line) s = .next z ∧ MemoryOnly s z
    ∧ mget (z.core c).icache line = some (s.l2Whole (c / 32) line a).2 ∧ (∀ p, some p ∈ (z.core c).frozen → p.1 ≠ line)
    ∧ ∀ p ∈ (z.core c).prefetch, p.1 ≠ line)
  ∧ (∀ m, s.injMsgs.find? (fun m => m.core == c && m.line == line) = some m → m.stale = false →
    let data := m.data
    let z' := fun (z : State) => exec (.injectedLineReceive c line) s = .next z
      ∧ z = { s with injMsgs := s.injMsgs.erase m, cores := z.cores, dies := z.dies, mem := z.mem, invMsgs := z.invMsgs, fresh := z.fresh }
    let known := fun (z : State) => c / 32 < 4 → ∃ x, mget (z.die (c / 32)).injMask line = some x ∧ x.getLsbD (c % 32) = true
    (∀ l, s.l1Find c line = some l → ∃ z l', z' z ∧ known z ∧ z.mem = s.mem ∧ z.l1Find c line = some l' ∧ l'.inj = true ∧ l'.valid = 15 ∧ l'.dirty = l.dirty
      ∧ ∀ n < 128, lineGet l'.data n = if l.dirty.getLsbD n then lineGet l.data n else lineGet data n)
    ∧ (s.l1Find c line = none → (∃ w, 8 - s.quota c ≤ w ∧ w < 8 ∧ s.quota c ≤ 2 ∧ ∀ l ∈ k.l1, l.line % 256 = line % 256 → l.way ≠ w) →
      ∃ z l', z' z ∧ known z ∧ z.mem = s.mem ∧ z.l1Find c line = some l' ∧ l'.inj = true ∧ l'.valid = 15 ∧ l'.dirty = 0 ∧ l'.data = data ∧ 8 - s.quota c ≤ l'.way)
    ∧ (s.l1Find c line = none → s.quota c ≤ 2 → (∀ w, 8 - s.quota c ≤ w → w < 8 → ∃ l ∈ k.l1, l.line % 256 = line % 256 ∧ l.way = w) →
      (∀ l ∈ k.l1, l.line % 256 = line % 256 → 8 - s.quota c ≤ l.way → l.way < 8 → l.inj = true) →
      ∃ z, z' z ∧ z.mem = s.mem ∧ z.dies = s.dies ∧ (z.core c).l1 = k.l1))
  ∧ (∀ m, s.injMsgs.find? (fun m => m.core == c && m.line == line) = some m → m.stale = true → ∃ z, exec (.injectedLineReceive c line) s = .next z
      ∧ z.injMsgs = s.injMsgs.erase m ∧ (∀ l ∈ (z.core c).l1, l.line = line → l.inj = false ∧ l.valid = 0)
      ∧ ∀ l, s.l1Find c line = some l → l.dirty ≠ 0 → z.mem = s.mem ∧ ∃ l', z.l1Find c line = some l' ∧ l'.dirty = l.dirty
          ∧ ∀ n < 128, l.dirty.getLsbD n = true → lineGet l'.data n = lineGet l.data n)
  ∧ ((c, line) ∈ s.invMsgs → ∃ z, exec (.injectedCopyInvalidate c line) s = .next z ∧ z = { s with cores := z.cores, invMsgs := s.invMsgs.erase (c, line) }
      ∧ (∀ l ∈ (z.core c).l1, l.line = line → l.inj = false ∧ l.valid = 0)
      ∧ (∀ l ∈ k.l1, l.dirty ≠ 0 ∨ l.line ≠ line → ∃ l' ∈ (z.core c).l1, l'.line = l.line ∧ l'.dirty = l.dirty ∧ l'.data = l.data)
      ∧ ∀ e, e ≠ c → z.core e = s.core e)
  ∧ (d < 4 → let pinned := ∃ p ∈ (s.die d).pins, p.1 ≤ 128 * line ∧ 128 * line < p.1 + p.2
      (pinned → exec (.l2Eviction d line) s = .next s)
      ∧ (¬ pinned → ∃ z, exec (.l2Eviction d line) s = .next z ∧ MemoryOnly s z ∧ mget (z.die d).l2 line = none ∧ mget (z.die d).injMask line = none
          ∧ ∀ a, Mem.rd z.mem a = (match mget (s.die d).l2 line with
            | some l => if a / 128 = line ∧ l.dirty.getLsbD (a % 128) = true then lineGet l.data (a % 128) else Mem.rd s.mem a
            | none => Mem.rd s.mem a)))

/-- R71, R297 to R299, R302, R303, R307, R309: what reaches the part from outside. The host writes and reads its own memory (log 46) and, through BAR2,
device memory; a reserved range drops what is written and reads zero. A read of a notify register gives TAIL. At 110 C, and where a link
of the package or the host's link fails, every queue takes a fatal error; corrected errors are counted and logged; an uncorrectable one
traps its thread with cause 6, or is a fatal error of the queue whose work is being saved or restored. A scrub leaves all stored data. Reset
leaves the state after reset with the boot's outcome, and host memory as it was; an image that verifies and is not older than the
rollback counter gives its digest. A queue that is assigned to a function belongs to it (log 53). The kinds of the error records (log 12) and the form of a stop on a host link failure (log 55) are the model's. -/
def Obligations.OutsideEvents : Prop := ∀ (s : State), Canonical s →
  let allFatal := fun (z : State) => ∀ q k, s.queue q = some k → ∃ y, z.queue q = some y ∧ y.err = true ∧ y.head = k.tail ∧ y.running = []
  let counted := fun (u : State) (d code n kind : Nat) => u = { s with dies := u.dies, errlog := u.errlog }
    ∧ (d < 4 → ∀ k < 16, (u.die d).ctrVal.getD k 0 = if ((s.die d).ctrSel.getD k 0).toNat = code
        then ((s.die d).ctrVal.getD k 0 + BitVec.ofNat 64 n) &&& 0xFFFFFFFFFFFF else (s.die d).ctrVal.getD k 0)
    ∧ ∃ e, u.errlog.getLast? = some e ∧ e.kind = kind ∧ e.die = d
  (∀ addr bs n, ∃ u z, exec (.hostBar2Access addr bs n) s = .next z ∧ MemoryOnly s u ∧ z = { u with reply := z.reply }
    ∧ (∀ a, Mem.rd z.mem a = if addr ≤ a ∧ a < addr + bs.length ∧ (inSystem a = true ∨ s.boot.verified = true ∧ a < 2 ^ 38 ∧ (homeDie a).isSome = true)
        then bs.getD (a - addr) 0 else Mem.rd s.mem a)
    ∧ z.reply = if n = 0 then s.reply else (List.range n).flatMap (fun i => let a := addr + i
        if inSystem a = true then [Mem.rd z.mem a] else if s.boot.verified = false ∨ 2 ^ 38 ≤ a then []
        else [if (homeDie a).isSome = true then Mem.rd z.mem a else 0]))
  ∧ (∀ img, let b := img.bytes
      let key := (b.drop 16).take 2592
      let body := (b.drop 7296).take (fld b 8 8)
      let verified := fld b 0 4 = 0x4E4B4231 ∧ body.length = fld b 8 8 ∧ (∀ k < 61, b.getD (7235 + k) 0 = 0) ∧ sha3_512 key = (List.range 64).map Config.fusedKey
        ∧ Config.verifies key (sha3_512 body) ((b.drop 2608).take 4627) = true
      ∃ boot, exec (.partReset img) s = .next { State.reset with mem := s.mem.filter (fun c => inSystem c.1), pkg := s.pkg, fresh := s.fresh, tick := s.tick, boot := boot }
        ∧ (verified → Config.rollback ≤ fld b 4 4 → boot = ⟨true, fld b 4 4, sha3_512 body⟩)
        ∧ (¬ (verified ∧ Config.rollback ≤ fld b 4 4) → boot = ⟨false, 0, List.replicate 64 0⟩))
  ∧ (∀ temps, let t := temps.foldl max 0
      let entry := fun (k : Nat) => if k = 1 then 95 else if k = 2 then 100 else 105
      (110 ≤ t → ∃ z, exec (.thermalSensorRead temps) s = .next z ∧ z.stopped = true ∧ z.thermal = 4 ∧ allFatal z)
      ∧ (∀ k, 1 ≤ k → k ≤ 3 → s.thermal < k → entry k ≤ t → t < 110 → (k < 3 → t < entry (k + 1)) →
          exec (.thermalSensorRead temps) s = .next { s with thermal := k })
      ∧ (1 ≤ s.thermal → s.thermal ≤ 3 → t + 5 ≤ entry s.thermal → (s.powers = [] ∨ s.powers.sum < 780 * s.powers.length) →
          exec (.thermalSensorRead temps) s = .next { s with thermal := s.thermal - 1 })
      ∧ (s.thermal ≤ 3 → t < 110 → (∀ k, s.thermal < k → k ≤ 3 → t < entry k) → (s.thermal = 0 ∨ entry s.thermal < t + 5 ∨ (s.powers ≠ []
          ∧ 780 * s.powers.length ≤ s.powers.sum)) → exec (.thermalSensorRead temps) s = .next s))
  ∧ (∀ w, ∃ z, exec (.powerRead w) s = .next z ∧ z = { s with powers := (s.powers ++ [w]).drop (s.powers.length + 1 - 10), thermal := z.thermal }
      ∧ z.thermal = if 800 * z.powers.length < z.powers.sum ∧ s.thermal < 3 then s.thermal + 1 else s.thermal)
  ∧ (∀ d, let fixed := Config.scrubbed s.fresh
      (fixed = [] → exec (.gddr7Scrub d) s = .next s.bump) ∧ (fixed ≠ [] → ∃ z, exec (.gddr7Scrub d) s = .next z.bump ∧ counted z d 8 fixed.length kindData))
  ∧ (∀ d unit a, counted (s.outsideStep (.corrected d unit a)) d 8 1 kindData)
  ∧ (∀ q k, s.queue q = some k → ∃ y, (s.outsideStep (.hit (.area q))).queue q = some y ∧ y.err = true ∧ y.head = k.tail ∧ y.running = [])
  ∧ (∀ q k, q < 4096 → s.queue q = some k → s.outsideStep (.notifyRead 0 (0x01000000 + 4096 * q) 8) = { s with reply := leBytes 8 k.tail.toNat })
  ∧ (∀ d site n, n ≤ 8 → ∃ z, exec (.gddr7LinkCrcError d site n) s = .next z ∧ counted z d 7 n kindLink)
  ∧ (∀ d site n, 8 < n → ∃ u, exec (.gddr7LinkCrcError d site n) s = .next (u.outsideStep (.hit site)) ∧ counted u d 7 8 kindLink)
  ∧ (∀ d id a w n, 8 < n → mget s.accs id = some a → a.owners = [a.t] → a.t.wg = w → UserTrap s w [a.t] → (∀ x, s.thr a.t = some x → x.exited = false) →
      ∃ u v z, exec (.gddr7LinkCrcError d (.access id) n) s = .next z ∧ counted u d 7 8 kindLink ∧ v = { u with threads := v.threads, accs := mdel s.accs id }
        ∧ (∀ t, v.thr t = if t = a.t then (s.thr t).map (fun x => x.uncount a.flag) else s.thr t)
        ∧ TrapsTaken v z w [(a.t, { cause := 6, addr := a.va })] [] Thread.savedPc)
  ∧ (∀ link n, (n ≤ 8 → ∃ z, exec (.ucieCrcError link n) s = .next z ∧ counted z (link % 4) 4 n kindLink)
      ∧ (8 < n → ∃ z, exec (.ucieCrcError link n) s = .next z ∧ allFatal z))
  ∧ (∃ z, exec .pcieLinkFailure s = .next z ∧ z.stopped = true ∧ allFatal z)
  ∧ ∀ vf queues contexts slots,
      let free := fun (q : Nat) (of : VfRes → List Nat) => ∀ e ∈ s.vfs, e.1 ≠ vf → q ∉ of e.2
      let may := 1 ≤ vf ∧ vf ≤ 16 ∧ slots ≤ 128 ∧ (∀ q ∈ queues, q < 4096 ∧ free q VfRes.queues) ∧ ∀ c ∈ contexts, c < 65536 ∧ free c VfRes.ctxs
      let owner := fun (mine : List Nat) (n fn : Nat) => if n ∈ mine then vf else if fn = vf then 0 else fn
      (may → exec (.vfResourceAssign vf queues contexts slots) s = .next { s with
          vfs := mput s.vfs vf ⟨queues, contexts, slots⟩
          queues := s.queues.map (fun e => (e.1, { e.2 with fn := owner queues e.1 e.2.fn }))
          contexts := s.contexts.map (fun e => (e.1, { e.2 with fn := owner contexts e.1 e.2.fn })) })
        ∧ (¬ may → exec (.vfResourceAssign vf queues contexts slots) s = .next s)

/-- R273, R288, R258 to R260: bits 63:62 select the format: 00 one instruction, 01 a pair, 10 an instruction with a 32-bit immediate, and
no instruction word has 11; an LD or ST is plain exactly when it names no scope, and its other words are rejected. A rejected word in
instruction position, or a header there, traps every thread that would issue it. -/
def Obligations.WordsAreChecked : Prop :=
  (∀ (w : DWord) (i : Instr), decode w = .ok i →
    match (w.extractLsb' 62 2).toNat with
    | 0 => (∀ a b, i ≠ .formatD a b) ∧ (∀ g x, i ≠ .br g x) ∧ (∀ g d x, i ≠ .call g d x ∧ i ≠ .movi g d x)
        ∧ (∀ g d l x, i ≠ .ldl g d l x) ∧ ∀ h, i ≠ .clauseStart h
    | 1 => ∃ a b, i = .formatD a b
    | 2 => (∃ g x, i = .br g x) ∨ (∃ g d x, i = .call g d x ∨ i = .movi g d x) ∨ ∃ g d l x, i = .ldl g d l x
    | _ => ∃ h, i = .clauseStart h)
  ∧ (∀ (w : DWord) (f : MemF), decode w = .ok (.ld f) ∨ decode w = .ok (.st f) → (f.ord = .plain ↔ f.sc = .none))
  ∧ (∀ (w : DWord) (f : MemF), encode (.ld f) = some w ∨ encode (.st f) = some w → ¬ (f.ord = .plain ↔ f.sc = .none) →
      ∃ x, decode w = .error x)
  ∧ (∀ (s : State) (c q : Nat) (e : PcEntry) (w : DWord) (u : State) (g : Nat), s.turn = some (.quarter c q) → Keyed s →
      (∀ e ∈ s.faults, e.2.cancelled = false) → Fetches (Standing s c q) c q e w u → (∀ i, decode w = .ok i → ∃ h, i = .clauseStart h) →
      UserTrap u g ((Standing s c q).candidates c e) →
      ∃ z, step s = .next z.endStep ∧ TrapsTaken u z g (((Standing s c q).candidates c e).map (fun t => (t, { cause := 1 }))) [] Thread.pc)

/-- R375: NOP is the word 0 and nothing else, and has no effect: its threads go on to the next word. -/
def Obligations.NopWord : Prop :=
  (∀ w : DWord, decode w = .ok .nop ↔ w = 0)
  ∧ (∀ w : DWord, w.extractLsb' 62 2 = 0 → w.extractLsb' 52 10 = 0 → w ≠ 0 → ∃ x, decode w = .error x)
  ∧ ∀ s, Ready s .nop → ∃ z, exec .nop s = .next z ∧ z = { s with threads := z.threads } ∧ ThreadsGo s z .nop (fun _ => Thread.advance)

/-- R161: the fields of %lease, their values on a core as reset leaves it, and that a write is ignored. -/
def Obligations.LeaseRegister : Prop :=
  (∀ (s : State) (t : ThreadId),
    let k := s.core (s.coreOf t)
    let v := (s.sysReg t 0x05).toNat
    (∀ h, k.lease = some h → h < 128) → k.leaseC ≤ 4096 →
    v / 2 ^ 31 = (if k.lease = some (s.slotOfWg t.wg) then 1 else 0) ∧ v / 2 ^ 24 % 2 ^ 7 = 0
      ∧ v / 2 ^ 16 % 2 ^ 8 = (match k.lease with | some h => h | none => 0xFF) ∧ v / 2 ^ 13 % 2 ^ 3 = 0 ∧ v % 2 ^ 13 = k.leaseC
      ∧ (k = Core.reset → v = 0xFF0000))
  ∧ ∀ (s : State) (f : OwnF), (Instr.setsr f 0x05).wf = true → Ready s (.setsr f 0x05) →
    ∃ z, exec (.setsr f 0x05) s = .next z ∧ z = { s with threads := z.threads } ∧ ThreadsGo s z (.setsr f 0x05) (fun _ => Thread.advance)

/-- R228: the home die of a bucket, which differs between horizontal neighbours and is two apart between vertical ones, and the home list of
a die: its buckets in ascending index, each bucket in the list of one die. -/
def Obligations.HomeDies : Prop := ∀ (nbx nby : Nat), 0 < nbx →
  (∀ bx bY, homeOf bx bY = (bx + 2 * (bY % 2)) % 4 ∧ homeOf bx bY < 4 ∧ homeOf (bx + 1) bY ≠ homeOf bx bY
    ∧ homeOf bx (bY + 1) = (homeOf bx bY + 2) % 4)
  ∧ (∀ (r : Render) b, r.home b = homeOf (b % r.nbx) (b / r.nbx))
  ∧ (∀ e, (homeList nbx nby e).Pairwise (fun a b => a < b)
    ∧ ∀ b, b ∈ homeList nbx nby e ↔ b < nbx * nby ∧ homeOf (b % nbx) (b / nbx) = e)

/-- R136, R137: reading k of P planes gives the floor of the stored mantissa, P planes or more give it exactly; rounding adds one where
plane k has a bit, saturates, and does nothing in a NaN block or for k of P or more. The exponent is written as it was read. -/
def Obligations.PlaneReads : Prop := ∀ (ws : List Nat) (k i : Nat), (∀ w ∈ ws, w < 2 ^ 16) → 1 ≤ k → k ≤ 16 → ws ≠ [] → i < 16 →
  let p := ws.length
  planesRead k p false = min k p
  ∧ (k ≤ p → mant k ws i = mant p ws i / (2 ^ (p - k) : Nat))
  ∧ (p ≤ k → mant k ws i = mant p ws i * (2 ^ (k - p) : Nat))
  ∧ (∀ n, min k p ≤ n → mant k (ws.take n) i = mant k ws i)
  ∧ (∀ d h q e, ∃ m, ldpRegs d h k false q e ws = regWrites d (m ++ [BitVec.ofNat 32 e]))
  ∧ (∀ e, mantRnd k p e false ws i = mant k ws i ∧ (p ≤ k → mantRnd k p e true ws i = mant k ws i)
    ∧ (k < p → planesRead k p true = k + 1 ∧ mantRnd k p 255 true ws i = mant k ws i
      ∧ (e ≠ 255 → mantRnd k p e true ws i
          = min (mant k ws i + bitN ((ws.getD k 0).testBit i)) ((2 ^ (k - 1) : Nat) - 1))))

/-- R264, R273 to R289: encoding and decoding agree. The decoder reads back every accepted instruction from the word the encoder gives it,
and the encoder gives back every word that the decoder accepts: no bit of a word is dropped. -/
def Obligations.EncodeDecodeAgree : Prop :=
  (∀ (i : Instr) (w : DWord), i.wf = true → encode i = some w → decode w = .ok i)
  ∧ ∀ (w : DWord) (i : Instr), decode w = .ok i → encode i = some w ∧ i.wf = true

/-- Words that the spec writes out, with the instructions it says they are (R292, R321, R326, R344, R369, R404). -/
def Obligations.WordsOfTheSpec : Prop :=
  decode 0x8101_FFFF_0000_0005 = .ok (.br ⟨false, 1⟩ 5)
  ∧ decode 0x0157_FFFF_FFFF_0000 = .ok (.exit ⟨⟨false, 7⟩, .z, .z, .z, .z⟩)
  ∧ decode 0x0E07_FFFF_FFFF_0001 = .ok (.barWg ⟨⟨false, 7⟩, .z, .z, .z, .z⟩ 0)
  ∧ decode 0x0627_0401_0203_4440 = .ok (.ffma ⟨⟨false, 7⟩, .v 4, .v 1, .v 2, .op (.v 3), .f32, .rtz, false, false, true, 0⟩)
  ∧ decode 0x0C0A_08C0_0510_42A0 = .ok (.ld ⟨⟨true, 2⟩, .v 8, .s 0, .v 5, 0x10, .b32, false, .global, .dev, .sync, .normal, 0⟩)
  ∧ decode 0x0CB7_06C2_0100_4282 = .ok (.atom ⟨⟨false, 7⟩, .v 6, .s 2, .v 1, 0, .b32, false, .global, .dev, .plain, .normal, 2⟩)
  ∧ decode 0x0C27_06C2_0102_44A2 = .ok (.sti ⟨⟨false, 7⟩, .v 6, .s 2, .v 1, 2, .b32, 9, .sync, .normal, 2⟩)
  ∧ decode 0x0C37_08C4_F084_4000 = .ok (.ldp ⟨⟨false, 7⟩, .v 8, .s 4, .k .zero, 0x84, .b32, false, .global, .none, .plain, .normal, 0⟩)
  ∧ decode 0x4005_0880_1618_1000 = .ok (.formatD ⟨.iadd, .v 5, .imm 8⟩ ⟨.fadd, .v 12, .op (.v 8)⟩)
  ∧ decode 0xF300_007A_0001_0000 = .ok (.clauseStart ⟨3, false, 0, 0, 15, false, true, 8⟩)

/-- R16 to R18, R246, R264 to R268: a step runs the decoded instruction. The agent that `turn` names moves: a quarter executes the word at its
oldest entry's PC on the entry's threads that may issue it (a word that a group executes once, when all its ready threads may), WAIT passed, or the header where its threads stand (the groups of threads that
a page fault stops are marked; a thread with a cancelled access has its trap first: PageFaultsAreRecordedAndAnswered); a step of another unit, or
what waits first in the inputs or at the host's side, is executed as such. A word comes through the instruction cache; a miss freezes the quarter. With no agent
named, one of those who may move does, freely chosen (log 1); a part that has stopped moves only by its reset. -/
def Obligations.StepRunsTheDecodedInstruction : Prop := ∀ (s : State),
  let uncut := ∀ e ∈ s.faults, e.2.cancelled = false
  (∀ i, s.turn = some (.event i) → step s = finishEvent (exec i { Moving s with inputs := s.inputs.erase i }))
  ∧ (∀ i rest, s.turn = some .input → s.inputs = i :: rest → step s = finishEvent (exec i { Moving s with inputs := rest }))
  ∧ (∀ o rest, s.turn = some .outside → s.outside = o :: rest →
      (∀ i, outsideInstr o = some i → step s = finishEvent (exec i { Moving s with outside := rest }))
      ∧ (outsideInstr o = none → step s = .next ({ Moving s with outside := rest }.outsideStep o).endStep))
  ∧ (∀ c q e w m i, s.turn = some (.quarter c q) → uncut → Fetches (Standing s c q) c q e w m → decode w = .ok i → (∀ h, i ≠ .clauseStart h) →
      let ts := (Standing s c q).candidates c e
      let u := m.markHeld (ts.filter (m.stopsHere i))
      let g := ts.filter (fun t => u.issuable i t && u.together i ts t)
      g ≠ [] →
      ∃ v : State, step s = finishTurn v i (exec i v) ∧ v = { u with threads := v.threads, cores := v.cores, issue := ⟨c, q, g⟩ }
        ∧ (∀ t, v.thr t = if t ∈ g then
            (u.thr t).map (fun x => { x with clause := x.clause.map (fun k => { k with wait := 0 }) }) else u.thr t)
        ∧ (∀ d, d ≠ c → v.core d = u.core d) ∧ v.core c = { u.core c with evcnt := (v.core c).evcnt })
  ∧ (∀ c q t ts x u w h, s.turn = some (.quarter c q) → uncut → ((Standing s c q).core c).frozen.getD q none = none →
      (Standing s c q).headerGroup c q = t :: ts → (Standing s c q).thr t = some x → x.resume = false →
      (Standing s c q).fetchWord c ((Standing s c q).ctxOf t.wg) x.pc = (u, .word w) → decode w = .ok (.clauseStart h) →
      ∃ v : State, v = { u with issue := ⟨c, q, t :: ts⟩ } ∧ step s = finishTurn v (.clauseStart h) (exec (.clauseStart h) v))
  ∧ (∀ c ctx a u x, s.xlate (c / 32) ctx (pcBits a).toNat { x := true } = (u, .ok x) →
      (∀ l, mget (u.core c).icache (lineOf x.pa) = some l →
        s.fetchWord c ctx a = (u, .word (BitVec.ofNat 64 (leNat ((List.range 8).map (fun k => lineGet l (x.pa % 128 + k)))))))
      ∧ (mget (u.core c).icache (lineOf x.pa) = none → s.fetchWord c ctx a = (u, .miss (lineOf x.pa) x.attr)))
  ∧ (∀ c q t ts x u l a, s.turn = some (.quarter c q) → uncut → ((Standing s c q).core c).frozen.getD q none = none →
      (Standing s c q).headerGroup c q = t :: ts → (Standing s c q).thr t = some x → x.resume = false →
      (Standing s c q).fetchWord c ((Standing s c q).ctxOf t.wg) x.pc = (u, .miss l a) →
      ∃ v : State, step s = .next v.endStep ∧ v = { u with cores := v.cores } ∧ (∀ d, d ≠ c → v.core d = u.core d)
        ∧ v.core c = { u.core c with frozen := (u.core c).frozen.set q (some (l, a)), evcnt := (v.core c).evcnt })
  ∧ (s.turn = none → (s.arrive.agentsNow = [] ∧ step s = .next { s.arrive with tick := s.tick + 1 })
      ∨ ∃ a ∈ s.arrive.agentsNow, step s = act a { s.arrive with tick := s.tick + 1 })
  ∧ (s.stopped = true → ∀ a ∈ s.agentsNow, ∃ n, a = .event (.partReset n))

/-- R306, R307, R308, R160, R422 and log 3: the part after reset: no work, no queue, no context; all memory zero and every memory in its
canonical form; the counters and leases of every core, the fault bits, pins and bucket memory of every die clear; AGE 2,000 and QUANTUM
8,000. The values that the spec does not state are the model's (log 3). -/
def Obligations.ResetState : Prop :=
  let s := State.reset
  Canonical s ∧ (∀ a, Mem.rd s.mem a = 0) ∧ s.threads = [] ∧ s.groups = [] ∧ s.wgs = [] ∧ s.disps = [] ∧ s.graphs = [] ∧ s.queues = []
    ∧ s.contexts = [] ∧ s.regions = [] ∧ s.rings = [] ∧ s.accs = [] ∧ s.faults = [] ∧ s.errlog = [] ∧ s.stopped = false
    ∧ s.injMsgs = [] ∧ s.invMsgs = [] ∧ s.cords = [] ∧ s.lost = [] ∧ s.kinds = [] ∧ s.told = [] ∧ s.reply = []
    ∧ s.age = 2000 ∧ s.quantum = 8000 ∧ s.profNative = 0 ∧ s.profDbp = 0
    ∧ (∀ n, (s.slot n).queue = none ∧ (s.slot n).lastUsed = 0)
    ∧ (∀ c, (s.core c).cycle = 0 ∧ (s.core c).lease = none ∧ (s.core c).leaseC = 0 ∧ (s.core c).conf = none ∧ (s.core c).l1 = []
      ∧ ∀ n, (s.core c).evcnt.getD n 0 = 0 ∧ (s.core c).evsel.getD n 0 = 0)
    ∧ (∀ d, (s.die d).bkState = .idle ∧ (s.die d).dasr = 0 ∧ (s.die d).pins = [] ∧ (s.die d).l2 = [] ∧ (s.die d).tlb = [] ∧ (s.die d).walk = []
      ∧ ∀ a, (s.die d).bkByte d a = 0)

/-- The canonical form of every memory of the part is an invariant: every step that answers a next state keeps it. -/
def Obligations.StepKeepsCanonicalMemory : Prop := Kept Canonical

/-- R367, R80, R270: a performed LDL gives its registers the bytes of its line of code, from the core's instruction cache where it holds the line.
R369, R133: LDP gives the planes of the block's mantissas at k planes, two to a register, and then its exponent, or for a quad four mantissas as
signed bytes; LDP.ACQ then acquires. R217 to R221, R390, R407: TEX and TEXG give the first components and the flags of the filter's run on
their records, RAYQ the words of its traversal. -/
def Obligations.OtherLoadsComplete : Prop := ∀ (s : State) (id : Nat) (a : Acc), Canonical s → Due s id a →
  let c := s.coreOf a.t
  let ctx := s.ctxOf a.t.wg
  let z := s.completeOne id
  let acq := fun (u : State) => if a.ord = .sync then u.acquire c a.sc else u
  (∀ d w u x, a.op = .ldl d w → a.size = (if w then 8 else 4) → s.xlateAcc a { x := true } = (u, .ok x) → Fits s a.t d (if w then 2 else 1) →
    let r := u.icRead c x.pa a.size x.attr
    Completes r.1 z id a d (loadWords (if w then .b64 else .b32) false r.2)
      ∧ ∀ l, mget (u.core c).icache (x.pa / 128) = some l → r = (u, (List.range a.size).map (fun k => lineGet l (x.pa % 128 + k))))
  ∧ (∀ d hb b k rnd quad h m I, a.op = .ldp d hb b k rnd quad → handleOf hb = some h → (∀ j, h.planeAddr b j % 2 = 0) →
    Served s (planeRead s a) m (fun va => va = h.expAddr b ∨ ∃ j < planesRead k h.pcnt rnd, va = h.planeAddr b j ∨ va = h.planeAddr b j + 1) I → h.expAddr b < 2 ^ 60 → (∀ j < planesRead k h.pcnt rnd, h.planeAddr b j + 2 ≤ 2 ^ 60) →
    let v := blockOf m h k rnd b
    let pl := planesOf k v.ms
    let byte := fun i => BitVec.ofInt 8 (v.ms.getD i 0 * (2 ^ (8 - k) : Nat))
    let ws : List Word := match quad with
      | none => (List.range ((k + 1) / 2)).map (fun j => BitVec.ofNat 32 (pl.getD (2 * j) 0 + 2 ^ 16 * pl.getD (2 * j + 1) 0))
      | some q => [byte (4 * q + 3) ++ byte (4 * q + 2) ++ byte (4 * q + 1) ++ byte (4 * q)]
    Fits s a.t d (ws.length + 1) → (∀ q, quad = some q → q < 4) →
    ∃ u, I u ∧ Completes (acq u) z id a d (ws ++ [BitVec.ofNat 32 v.e]))
  ∧ (∀ d nc grad desc prog args ftz u ws fl, a.op = .tex d nc grad desc prog args ftz →
    filterRun (coreRead c ctx) desc prog grad ftz args s = (u, .ok (ws, fl)) → Fits s a.t d (ws.take (nc + 1)).length →
    Completes u z id a d (ws.take (nc + 1)) fl)
  ∧ (∀ d any scene args u ws, a.op = .rayq d any scene args → rayRun (coreRead c ctx) scene any args s = (u, .ok ws) → Fits s a.t d ws.length →
    Completes u z id a d ws)

/-- R406: a performed STP puts the exponent byte and the planes at their addresses, as a release when it is one. R96, R405: STI stores past the
core and sends the line to each core that its mask names on the issuing die; it is pending until every line has been received. R106,
R107, R363, R413: WBR and INVR go over the lines of their range. WBR leaves no byte of it dirty in the core's L1, nor in the die's L2 for a
remote S page, and the bytes that were stand at home; INVR leaves no clean byte of the sectors it touches in either and keeps every dirty
byte. -/
def Obligations.OtherAccessesComplete : Prop :=
  (∀ (s : State) (id : Nat) (a : Acc), Canonical s → Due s id a →
  let c := s.coreOf a.t
  let ctx := s.ctxOf a.t.wg
  let z := s.completeOne id
  let rel := fun (u : State) => if a.ord = .sync then u.release c (s.tagOf a.t.wg) a.sc else u
  (∀ hb b pl e h u xs, a.op = .stp hb b pl e → handleOf hb = some h →
    s.xlateAll (c / 32) ctx { w := true } ((blockAddrs h b h.pcnt).map (fun p => BitVec.ofNat 64 p.1)) = (u, .ok xs) →
    let bytes := xs.zip ([e] :: pl.map (fun w => leBytes 2 w.toNat))
    ∃ y, y = bytes.foldl (fun y p => levelWrite a.sc a.ord a.ch c (s.tagOf a.t.wg) y p.1.pa p.1.attr p.2) (rel u)
      ∧ Completes (y.passBy a) z id a .z []
      ∧ ((a.ord ≠ .plain ∧ Scope.wide a.sc = true) ∨ a.ch = .bypass → (∀ x ∈ xs, heldApart (c / 32) x.pa x.attr = false) →
        ∀ k, OneKind y k → Mem.rd y.mem k = placedAll (bytes.map (fun p => (p.1.pa, p.2))) (Mem.rd (rel u).mem) k))
  ∧ (∀ t va bs mask u x, a.op = .stis [(t, va, bs, mask)] → s.xlateAll (c / 32) ctx { w := true } [va] = (u, .ok [x]) →
    x.pa % 128 + bs.length ≤ 128 → inSystem x.pa = false → c < 128 →
    let may := (homeDie x.pa = some (c / 32) ∨ x.attr.c = true ∨ x.attr.s = true) ∧ x.attr.l2Only = false
    let h := if a.ord = .sync then u.releaseTags c [s.tagOf t.wg] .die else u
    ∃ y, MemoryOnly h y
      ∧ (may ∧ mask ≠ 0 → z = { y with accs := mupd s.accs id (fun b => { b with op := .stis [] }) })
      ∧ (¬ (may ∧ mask ≠ 0) → Completes (y.passBy a) z id a .z [])
      ∧ (heldApart (c / 32) x.pa x.attr = false → ∀ k, OneKind z k → Mem.rd z.mem k = placed x.pa bs (Mem.rd h.mem) k)
      ∧ (heldApart (c / 32) x.pa x.attr = true → ∃ l, mget (z.die (c / 32)).l2 (x.pa / 128) = some l
        ∧ ∀ k < bs.length, l.dirty.getLsbD (x.pa % 128 + k) = true ∧ lineGet l.data (x.pa % 128 + k) = bs.getD k 0)
      ∧ (∀ m ∈ z.injMsgs, m.sti = id → may ∧ m.line = x.pa / 128 ∧ m.stale = false ∧ m.core / 32 = c / 32 ∧ mask.getLsbD (m.core % 32) = true
        ∧ (OneKind z x.pa → ∀ k < bs.length, lineGet m.data (x.pa % 128 + k) = bs.getD k 0))
      ∧ (may → ∀ k < 32, mask.getLsbD k = true → ∃ m ∈ z.injMsgs, m.sti = id ∧ m.core = 32 * (c / 32) + k))
  ∧ (a.op = .stis [] → Completes (s.passBy a) z id a .z [])
  ∧ (∀ len u xs, a.op = .wbr len → s.xlateAll (c / 32) ctx {} ((linesOf a.va.toNat len).map (fun l => BitVec.ofNat 64 l.1)) = (u, .ok xs) →
    Completes (((linesOf a.va.toNat len).zip xs).foldl (fun u p => u.wbrLine c p.2 p.1.1 p.1.2) u) z id a .z [])
  ∧ (∀ len u xs, a.op = .invr len → s.xlateAll (c / 32) ctx {} ((linesOf a.va.toNat len).map (fun l => BitVec.ofNat 64 l.1)) = (u, .ok xs) →
    Completes (((linesOf a.va.toNat len).zip xs).foldl (fun u p => u.invrLine c p.2 p.1.1 p.1.2) u) z id a .z []))
  ∧ (∀ (s : State) (c lo hi : Nat) (x : Xl), Canonical s → c < 128 → lo < hi → lo % 128 + (hi - lo) ≤ 128 →
  let line := x.pa / 128
  let part := fun k => lo % 128 ≤ k ∧ k < lo % 128 + (hi - lo)
  let remote := x.attr.s = true ∧ homeDie x.pa ≠ some (c / 32) ∧ inDevice x.pa = true
  (let z := s.wbrLine c x lo hi
   MemoryOnly s z ∧ KeepsBytes s z (fun d => d = c)
    ∧ (∀ l ∈ (z.core c).l1, l.line = line → ∀ k < 128, part k → l.dirty.getLsbD k = false)
    ∧ (remote → ∀ l, mget (z.die (c / 32)).l2 line = some l → ∀ k < 128, part k → l.dirty.getLsbD k = false)
    ∧ (((s.core c).l1.map L1Line.line).Nodup → ∀ l ∈ (s.core c).l1, l.line = line → (heldApart (c / 32) (128 * line) l.attr = true ↔ remote) →
      ∀ k < 128, part k → l.dirty.getLsbD k = true → OneKind z (128 * line + k) → Mem.rd z.mem (128 * line + k) = lineGet l.data k)
    ∧ (remote → ∀ l, mget (s.die (c / 32)).l2 line = some l → ∀ k < 128, part k → l.dirty.getLsbD k = true → OneKind z (128 * line + k) →
      (∀ y ∈ (s.core c).l1, y.line = line → y.dirty.getLsbD k = false) → Mem.rd z.mem (128 * line + k) = lineGet l.data k))
  ∧ (let z := s.invrLine c x lo hi
     let hit := fun k => lo % 128 < 32 * k + 32 ∧ 32 * k < lo % 128 + (hi - lo)
     MemoryOnly s z ∧ z.mem = s.mem ∧ (¬ remote → z = s)
      ∧ (remote → (∀ l ∈ (z.core c).l1, l.line = line → l.inj = false ∧ ∀ k < 4, hit k → l.valid.getLsbD k = false)
        ∧ (∀ l ∈ (s.core c).l1, l.line = line → l.dirty ≠ 0 → ∃ y ∈ (z.core c).l1, y.line = line ∧ y.dirty = l.dirty ∧ y.data = l.data)
        ∧ ∀ l, mget (s.die (c / 32)).l2 line = some l → ∃ y, mget (z.die (c / 32)).l2 line = some y ∧ y.dirty = l.dirty ∧ y.data = l.data
          ∧ ∀ k < 4, y.valid.getLsbD k = (l.valid.getLsbD k && !decide (hit k)))))
end

