-- ==== Sys2Proof/Laws/State.lean ====
section
/-! SUPPORT. What the updates of State leave alone, one lemma for each field and update, and what they change. -/
namespace Sys2Proof.Machine

@[simp] theorem State.updThr_threads (s : State) (x : ThreadId) (f : Thread → Thread) : (s.updThr x f).threads = mupd s.threads x f := rfl
@[simp] theorem State.updThr_groups (s : State) (x : ThreadId) (f : Thread → Thread) : (s.updThr x f).groups = s.groups := rfl
@[simp] theorem State.updThr_wgs (s : State) (x : ThreadId) (f : Thread → Thread) : (s.updThr x f).wgs = s.wgs := rfl
@[simp] theorem State.updThr_clusters (s : State) (x : ThreadId) (f : Thread → Thread) : (s.updThr x f).clusters = s.clusters := rfl
@[simp] theorem State.updThr_disps (s : State) (x : ThreadId) (f : Thread → Thread) : (s.updThr x f).disps = s.disps := rfl
@[simp] theorem State.updThr_graphs (s : State) (x : ThreadId) (f : Thread → Thread) : (s.updThr x f).graphs = s.graphs := rfl
@[simp] theorem State.updThr_queues (s : State) (x : ThreadId) (f : Thread → Thread) : (s.updThr x f).queues = s.queues := rfl
@[simp] theorem State.updThr_slots (s : State) (x : ThreadId) (f : Thread → Thread) : (s.updThr x f).slots = s.slots := rfl
@[simp] theorem State.updThr_cores (s : State) (x : ThreadId) (f : Thread → Thread) : (s.updThr x f).cores = s.cores := rfl
@[simp] theorem State.updThr_dies (s : State) (x : ThreadId) (f : Thread → Thread) : (s.updThr x f).dies = s.dies := rfl
@[simp] theorem State.updThr_mem (s : State) (x : ThreadId) (f : Thread → Thread) : (s.updThr x f).mem = s.mem := rfl
@[simp] theorem State.updThr_lost (s : State) (x : ThreadId) (f : Thread → Thread) : (s.updThr x f).lost = s.lost := rfl
@[simp] theorem State.updThr_accs (s : State) (x : ThreadId) (f : Thread → Thread) : (s.updThr x f).accs = s.accs := rfl
@[simp] theorem State.updThr_faults (s : State) (x : ThreadId) (f : Thread → Thread) : (s.updThr x f).faults = s.faults := rfl
@[simp] theorem State.updThr_injMsgs (s : State) (x : ThreadId) (f : Thread → Thread) : (s.updThr x f).injMsgs = s.injMsgs := rfl
@[simp] theorem State.updThr_invMsgs (s : State) (x : ThreadId) (f : Thread → Thread) : (s.updThr x f).invMsgs = s.invMsgs := rfl
@[simp] theorem State.updThr_kinds (s : State) (x : ThreadId) (f : Thread → Thread) : (s.updThr x f).kinds = s.kinds := rfl
@[simp] theorem State.updThr_cords (s : State) (x : ThreadId) (f : Thread → Thread) : (s.updThr x f).cords = s.cords := rfl
@[simp] theorem State.updThr_contexts (s : State) (x : ThreadId) (f : Thread → Thread) : (s.updThr x f).contexts = s.contexts := rfl
@[simp] theorem State.updThr_regions (s : State) (x : ThreadId) (f : Thread → Thread) : (s.updThr x f).regions = s.regions := rfl
@[simp] theorem State.updThr_rings (s : State) (x : ThreadId) (f : Thread → Thread) : (s.updThr x f).rings = s.rings := rfl
@[simp] theorem State.updThr_vfs (s : State) (x : ThreadId) (f : Thread → Thread) : (s.updThr x f).vfs = s.vfs := rfl
@[simp] theorem State.updThr_peers (s : State) (x : ThreadId) (f : Thread → Thread) : (s.updThr x f).peers = s.peers := rfl
@[simp] theorem State.updThr_pkg (s : State) (x : ThreadId) (f : Thread → Thread) : (s.updThr x f).pkg = s.pkg := rfl
@[simp] theorem State.updThr_age (s : State) (x : ThreadId) (f : Thread → Thread) : (s.updThr x f).age = s.age := rfl
@[simp] theorem State.updThr_quantum (s : State) (x : ThreadId) (f : Thread → Thread) : (s.updThr x f).quantum = s.quantum := rfl
@[simp] theorem State.updThr_hubTime (s : State) (x : ThreadId) (f : Thread → Thread) : (s.updThr x f).hubTime = s.hubTime := rfl
@[simp] theorem State.updThr_errlog (s : State) (x : ThreadId) (f : Thread → Thread) : (s.updThr x f).errlog = s.errlog := rfl
@[simp] theorem State.updThr_msix (s : State) (x : ThreadId) (f : Thread → Thread) : (s.updThr x f).msix = s.msix := rfl
@[simp] theorem State.updThr_told (s : State) (x : ThreadId) (f : Thread → Thread) : (s.updThr x f).told = s.told := rfl
@[simp] theorem State.updThr_reply (s : State) (x : ThreadId) (f : Thread → Thread) : (s.updThr x f).reply = s.reply := rfl
@[simp] theorem State.updThr_profNative (s : State) (x : ThreadId) (f : Thread → Thread) : (s.updThr x f).profNative = s.profNative := rfl
@[simp] theorem State.updThr_profDbp (s : State) (x : ThreadId) (f : Thread → Thread) : (s.updThr x f).profDbp = s.profDbp := rfl
@[simp] theorem State.updThr_thermal (s : State) (x : ThreadId) (f : Thread → Thread) : (s.updThr x f).thermal = s.thermal := rfl
@[simp] theorem State.updThr_powers (s : State) (x : ThreadId) (f : Thread → Thread) : (s.updThr x f).powers = s.powers := rfl
@[simp] theorem State.updThr_stopped (s : State) (x : ThreadId) (f : Thread → Thread) : (s.updThr x f).stopped = s.stopped := rfl
@[simp] theorem State.updThr_boot (s : State) (x : ThreadId) (f : Thread → Thread) : (s.updThr x f).boot = s.boot := rfl
@[simp] theorem State.updThr_inputs (s : State) (x : ThreadId) (f : Thread → Thread) : (s.updThr x f).inputs = s.inputs := rfl
@[simp] theorem State.updThr_outside (s : State) (x : ThreadId) (f : Thread → Thread) : (s.updThr x f).outside = s.outside := rfl
@[simp] theorem State.updThr_tick (s : State) (x : ThreadId) (f : Thread → Thread) : (s.updThr x f).tick = s.tick := rfl
@[simp] theorem State.updThr_fresh (s : State) (x : ThreadId) (f : Thread → Thread) : (s.updThr x f).fresh = s.fresh := rfl
@[simp] theorem State.updThr_issue (s : State) (x : ThreadId) (f : Thread → Thread) : (s.updThr x f).issue = s.issue := rfl
@[simp] theorem State.updThr_turn (s : State) (x : ThreadId) (f : Thread → Thread) : (s.updThr x f).turn = s.turn := rfl
@[simp] theorem State.updGrp_threads (s : State) (x : GroupId) (f : Group → Group) : (s.updGrp x f).threads = s.threads := rfl
@[simp] theorem State.updGrp_groups (s : State) (x : GroupId) (f : Group → Group) : (s.updGrp x f).groups = mupd s.groups x f := rfl
@[simp] theorem State.updGrp_wgs (s : State) (x : GroupId) (f : Group → Group) : (s.updGrp x f).wgs = s.wgs := rfl
@[simp] theorem State.updGrp_clusters (s : State) (x : GroupId) (f : Group → Group) : (s.updGrp x f).clusters = s.clusters := rfl
@[simp] theorem State.updGrp_disps (s : State) (x : GroupId) (f : Group → Group) : (s.updGrp x f).disps = s.disps := rfl
@[simp] theorem State.updGrp_graphs (s : State) (x : GroupId) (f : Group → Group) : (s.updGrp x f).graphs = s.graphs := rfl
@[simp] theorem State.updGrp_queues (s : State) (x : GroupId) (f : Group → Group) : (s.updGrp x f).queues = s.queues := rfl
@[simp] theorem State.updGrp_slots (s : State) (x : GroupId) (f : Group → Group) : (s.updGrp x f).slots = s.slots := rfl
@[simp] theorem State.updGrp_cores (s : State) (x : GroupId) (f : Group → Group) : (s.updGrp x f).cores = s.cores := rfl
@[simp] theorem State.updGrp_dies (s : State) (x : GroupId) (f : Group → Group) : (s.updGrp x f).dies = s.dies := rfl
@[simp] theorem State.updGrp_mem (s : State) (x : GroupId) (f : Group → Group) : (s.updGrp x f).mem = s.mem := rfl
@[simp] theorem State.updGrp_lost (s : State) (x : GroupId) (f : Group → Group) : (s.updGrp x f).lost = s.lost := rfl
@[simp] theorem State.updGrp_accs (s : State) (x : GroupId) (f : Group → Group) : (s.updGrp x f).accs = s.accs := rfl
@[simp] theorem State.updGrp_faults (s : State) (x : GroupId) (f : Group → Group) : (s.updGrp x f).faults = s.faults := rfl
@[simp] theorem State.updGrp_injMsgs (s : State) (x : GroupId) (f : Group → Group) : (s.updGrp x f).injMsgs = s.injMsgs := rfl
@[simp] theorem State.updGrp_invMsgs (s : State) (x : GroupId) (f : Group → Group) : (s.updGrp x f).invMsgs = s.invMsgs := rfl
@[simp] theorem State.updGrp_kinds (s : State) (x : GroupId) (f : Group → Group) : (s.updGrp x f).kinds = s.kinds := rfl
@[simp] theorem State.updGrp_cords (s : State) (x : GroupId) (f : Group → Group) : (s.updGrp x f).cords = s.cords := rfl
@[simp] theorem State.updGrp_contexts (s : State) (x : GroupId) (f : Group → Group) : (s.updGrp x f).contexts = s.contexts := rfl
@[simp] theorem State.updGrp_regions (s : State) (x : GroupId) (f : Group → Group) : (s.updGrp x f).regions = s.regions := rfl
@[simp] theorem State.updGrp_rings (s : State) (x : GroupId) (f : Group → Group) : (s.updGrp x f).rings = s.rings := rfl
@[simp] theorem State.updGrp_vfs (s : State) (x : GroupId) (f : Group → Group) : (s.updGrp x f).vfs = s.vfs := rfl
@[simp] theorem State.updGrp_peers (s : State) (x : GroupId) (f : Group → Group) : (s.updGrp x f).peers = s.peers := rfl
@[simp] theorem State.updGrp_pkg (s : State) (x : GroupId) (f : Group → Group) : (s.updGrp x f).pkg = s.pkg := rfl
@[simp] theorem State.updGrp_age (s : State) (x : GroupId) (f : Group → Group) : (s.updGrp x f).age = s.age := rfl
@[simp] theorem State.updGrp_quantum (s : State) (x : GroupId) (f : Group → Group) : (s.updGrp x f).quantum = s.quantum := rfl
@[simp] theorem State.updGrp_hubTime (s : State) (x : GroupId) (f : Group → Group) : (s.updGrp x f).hubTime = s.hubTime := rfl
@[simp] theorem State.updGrp_errlog (s : State) (x : GroupId) (f : Group → Group) : (s.updGrp x f).errlog = s.errlog := rfl
@[simp] theorem State.updGrp_msix (s : State) (x : GroupId) (f : Group → Group) : (s.updGrp x f).msix = s.msix := rfl
@[simp] theorem State.updGrp_told (s : State) (x : GroupId) (f : Group → Group) : (s.updGrp x f).told = s.told := rfl
@[simp] theorem State.updGrp_reply (s : State) (x : GroupId) (f : Group → Group) : (s.updGrp x f).reply = s.reply := rfl
@[simp] theorem State.updGrp_profNative (s : State) (x : GroupId) (f : Group → Group) : (s.updGrp x f).profNative = s.profNative := rfl
@[simp] theorem State.updGrp_profDbp (s : State) (x : GroupId) (f : Group → Group) : (s.updGrp x f).profDbp = s.profDbp := rfl
@[simp] theorem State.updGrp_thermal (s : State) (x : GroupId) (f : Group → Group) : (s.updGrp x f).thermal = s.thermal := rfl
@[simp] theorem State.updGrp_powers (s : State) (x : GroupId) (f : Group → Group) : (s.updGrp x f).powers = s.powers := rfl
@[simp] theorem State.updGrp_stopped (s : State) (x : GroupId) (f : Group → Group) : (s.updGrp x f).stopped = s.stopped := rfl
@[simp] theorem State.updGrp_boot (s : State) (x : GroupId) (f : Group → Group) : (s.updGrp x f).boot = s.boot := rfl
@[simp] theorem State.updGrp_inputs (s : State) (x : GroupId) (f : Group → Group) : (s.updGrp x f).inputs = s.inputs := rfl
@[simp] theorem State.updGrp_outside (s : State) (x : GroupId) (f : Group → Group) : (s.updGrp x f).outside = s.outside := rfl
@[simp] theorem State.updGrp_tick (s : State) (x : GroupId) (f : Group → Group) : (s.updGrp x f).tick = s.tick := rfl
@[simp] theorem State.updGrp_fresh (s : State) (x : GroupId) (f : Group → Group) : (s.updGrp x f).fresh = s.fresh := rfl
@[simp] theorem State.updGrp_issue (s : State) (x : GroupId) (f : Group → Group) : (s.updGrp x f).issue = s.issue := rfl
@[simp] theorem State.updGrp_turn (s : State) (x : GroupId) (f : Group → Group) : (s.updGrp x f).turn = s.turn := rfl
@[simp] theorem State.updWg_threads (s : State) (x : Nat) (f : Workgroup → Workgroup) : (s.updWg x f).threads = s.threads := rfl
@[simp] theorem State.updWg_groups (s : State) (x : Nat) (f : Workgroup → Workgroup) : (s.updWg x f).groups = s.groups := rfl
@[simp] theorem State.updWg_wgs (s : State) (x : Nat) (f : Workgroup → Workgroup) : (s.updWg x f).wgs = mupd s.wgs x f := rfl
@[simp] theorem State.updWg_clusters (s : State) (x : Nat) (f : Workgroup → Workgroup) : (s.updWg x f).clusters = s.clusters := rfl
@[simp] theorem State.updWg_disps (s : State) (x : Nat) (f : Workgroup → Workgroup) : (s.updWg x f).disps = s.disps := rfl
@[simp] theorem State.updWg_graphs (s : State) (x : Nat) (f : Workgroup → Workgroup) : (s.updWg x f).graphs = s.graphs := rfl
@[simp] theorem State.updWg_queues (s : State) (x : Nat) (f : Workgroup → Workgroup) : (s.updWg x f).queues = s.queues := rfl
@[simp] theorem State.updWg_slots (s : State) (x : Nat) (f : Workgroup → Workgroup) : (s.updWg x f).slots = s.slots := rfl
@[simp] theorem State.updWg_cores (s : State) (x : Nat) (f : Workgroup → Workgroup) : (s.updWg x f).cores = s.cores := rfl
@[simp] theorem State.updWg_dies (s : State) (x : Nat) (f : Workgroup → Workgroup) : (s.updWg x f).dies = s.dies := rfl
@[simp] theorem State.updWg_mem (s : State) (x : Nat) (f : Workgroup → Workgroup) : (s.updWg x f).mem = s.mem := rfl
@[simp] theorem State.updWg_lost (s : State) (x : Nat) (f : Workgroup → Workgroup) : (s.updWg x f).lost = s.lost := rfl
@[simp] theorem State.updWg_accs (s : State) (x : Nat) (f : Workgroup → Workgroup) : (s.updWg x f).accs = s.accs := rfl
@[simp] theorem State.updWg_faults (s : State) (x : Nat) (f : Workgroup → Workgroup) : (s.updWg x f).faults = s.faults := rfl
@[simp] theorem State.updWg_injMsgs (s : State) (x : Nat) (f : Workgroup → Workgroup) : (s.updWg x f).injMsgs = s.injMsgs := rfl
@[simp] theorem State.updWg_invMsgs (s : State) (x : Nat) (f : Workgroup → Workgroup) : (s.updWg x f).invMsgs = s.invMsgs := rfl
@[simp] theorem State.updWg_kinds (s : State) (x : Nat) (f : Workgroup → Workgroup) : (s.updWg x f).kinds = s.kinds := rfl
@[simp] theorem State.updWg_cords (s : State) (x : Nat) (f : Workgroup → Workgroup) : (s.updWg x f).cords = s.cords := rfl
@[simp] theorem State.updWg_contexts (s : State) (x : Nat) (f : Workgroup → Workgroup) : (s.updWg x f).contexts = s.contexts := rfl
@[simp] theorem State.updWg_regions (s : State) (x : Nat) (f : Workgroup → Workgroup) : (s.updWg x f).regions = s.regions := rfl
@[simp] theorem State.updWg_rings (s : State) (x : Nat) (f : Workgroup → Workgroup) : (s.updWg x f).rings = s.rings := rfl
@[simp] theorem State.updWg_vfs (s : State) (x : Nat) (f : Workgroup → Workgroup) : (s.updWg x f).vfs = s.vfs := rfl
@[simp] theorem State.updWg_peers (s : State) (x : Nat) (f : Workgroup → Workgroup) : (s.updWg x f).peers = s.peers := rfl
@[simp] theorem State.updWg_pkg (s : State) (x : Nat) (f : Workgroup → Workgroup) : (s.updWg x f).pkg = s.pkg := rfl
@[simp] theorem State.updWg_age (s : State) (x : Nat) (f : Workgroup → Workgroup) : (s.updWg x f).age = s.age := rfl
@[simp] theorem State.updWg_quantum (s : State) (x : Nat) (f : Workgroup → Workgroup) : (s.updWg x f).quantum = s.quantum := rfl
@[simp] theorem State.updWg_hubTime (s : State) (x : Nat) (f : Workgroup → Workgroup) : (s.updWg x f).hubTime = s.hubTime := rfl
@[simp] theorem State.updWg_errlog (s : State) (x : Nat) (f : Workgroup → Workgroup) : (s.updWg x f).errlog = s.errlog := rfl
@[simp] theorem State.updWg_msix (s : State) (x : Nat) (f : Workgroup → Workgroup) : (s.updWg x f).msix = s.msix := rfl
@[simp] theorem State.updWg_told (s : State) (x : Nat) (f : Workgroup → Workgroup) : (s.updWg x f).told = s.told := rfl
@[simp] theorem State.updWg_reply (s : State) (x : Nat) (f : Workgroup → Workgroup) : (s.updWg x f).reply = s.reply := rfl
@[simp] theorem State.updWg_profNative (s : State) (x : Nat) (f : Workgroup → Workgroup) : (s.updWg x f).profNative = s.profNative := rfl
@[simp] theorem State.updWg_profDbp (s : State) (x : Nat) (f : Workgroup → Workgroup) : (s.updWg x f).profDbp = s.profDbp := rfl
@[simp] theorem State.updWg_thermal (s : State) (x : Nat) (f : Workgroup → Workgroup) : (s.updWg x f).thermal = s.thermal := rfl
@[simp] theorem State.updWg_powers (s : State) (x : Nat) (f : Workgroup → Workgroup) : (s.updWg x f).powers = s.powers := rfl
@[simp] theorem State.updWg_stopped (s : State) (x : Nat) (f : Workgroup → Workgroup) : (s.updWg x f).stopped = s.stopped := rfl
@[simp] theorem State.updWg_boot (s : State) (x : Nat) (f : Workgroup → Workgroup) : (s.updWg x f).boot = s.boot := rfl
@[simp] theorem State.updWg_inputs (s : State) (x : Nat) (f : Workgroup → Workgroup) : (s.updWg x f).inputs = s.inputs := rfl
@[simp] theorem State.updWg_outside (s : State) (x : Nat) (f : Workgroup → Workgroup) : (s.updWg x f).outside = s.outside := rfl
@[simp] theorem State.updWg_tick (s : State) (x : Nat) (f : Workgroup → Workgroup) : (s.updWg x f).tick = s.tick := rfl
@[simp] theorem State.updWg_fresh (s : State) (x : Nat) (f : Workgroup → Workgroup) : (s.updWg x f).fresh = s.fresh := rfl
@[simp] theorem State.updWg_issue (s : State) (x : Nat) (f : Workgroup → Workgroup) : (s.updWg x f).issue = s.issue := rfl
@[simp] theorem State.updWg_turn (s : State) (x : Nat) (f : Workgroup → Workgroup) : (s.updWg x f).turn = s.turn := rfl
@[simp] theorem State.updDisp_threads (s : State) (x : Nat) (f : Dispatch → Dispatch) : (s.updDisp x f).threads = s.threads := rfl
@[simp] theorem State.updDisp_groups (s : State) (x : Nat) (f : Dispatch → Dispatch) : (s.updDisp x f).groups = s.groups := rfl
@[simp] theorem State.updDisp_wgs (s : State) (x : Nat) (f : Dispatch → Dispatch) : (s.updDisp x f).wgs = s.wgs := rfl
@[simp] theorem State.updDisp_clusters (s : State) (x : Nat) (f : Dispatch → Dispatch) : (s.updDisp x f).clusters = s.clusters := rfl
@[simp] theorem State.updDisp_disps (s : State) (x : Nat) (f : Dispatch → Dispatch) : (s.updDisp x f).disps = mupd s.disps x f := rfl
@[simp] theorem State.updDisp_graphs (s : State) (x : Nat) (f : Dispatch → Dispatch) : (s.updDisp x f).graphs = s.graphs := rfl
@[simp] theorem State.updDisp_queues (s : State) (x : Nat) (f : Dispatch → Dispatch) : (s.updDisp x f).queues = s.queues := rfl
@[simp] theorem State.updDisp_slots (s : State) (x : Nat) (f : Dispatch → Dispatch) : (s.updDisp x f).slots = s.slots := rfl
@[simp] theorem State.updDisp_cores (s : State) (x : Nat) (f : Dispatch → Dispatch) : (s.updDisp x f).cores = s.cores := rfl
@[simp] theorem State.updDisp_dies (s : State) (x : Nat) (f : Dispatch → Dispatch) : (s.updDisp x f).dies = s.dies := rfl
@[simp] theorem State.updDisp_mem (s : State) (x : Nat) (f : Dispatch → Dispatch) : (s.updDisp x f).mem = s.mem := rfl
@[simp] theorem State.updDisp_lost (s : State) (x : Nat) (f : Dispatch → Dispatch) : (s.updDisp x f).lost = s.lost := rfl
@[simp] theorem State.updDisp_accs (s : State) (x : Nat) (f : Dispatch → Dispatch) : (s.updDisp x f).accs = s.accs := rfl
@[simp] theorem State.updDisp_faults (s : State) (x : Nat) (f : Dispatch → Dispatch) : (s.updDisp x f).faults = s.faults := rfl
@[simp] theorem State.updDisp_injMsgs (s : State) (x : Nat) (f : Dispatch → Dispatch) : (s.updDisp x f).injMsgs = s.injMsgs := rfl
@[simp] theorem State.updDisp_invMsgs (s : State) (x : Nat) (f : Dispatch → Dispatch) : (s.updDisp x f).invMsgs = s.invMsgs := rfl
@[simp] theorem State.updDisp_kinds (s : State) (x : Nat) (f : Dispatch → Dispatch) : (s.updDisp x f).kinds = s.kinds := rfl
@[simp] theorem State.updDisp_cords (s : State) (x : Nat) (f : Dispatch → Dispatch) : (s.updDisp x f).cords = s.cords := rfl
@[simp] theorem State.updDisp_contexts (s : State) (x : Nat) (f : Dispatch → Dispatch) : (s.updDisp x f).contexts = s.contexts := rfl
@[simp] theorem State.updDisp_regions (s : State) (x : Nat) (f : Dispatch → Dispatch) : (s.updDisp x f).regions = s.regions := rfl
@[simp] theorem State.updDisp_rings (s : State) (x : Nat) (f : Dispatch → Dispatch) : (s.updDisp x f).rings = s.rings := rfl
@[simp] theorem State.updDisp_vfs (s : State) (x : Nat) (f : Dispatch → Dispatch) : (s.updDisp x f).vfs = s.vfs := rfl
@[simp] theorem State.updDisp_peers (s : State) (x : Nat) (f : Dispatch → Dispatch) : (s.updDisp x f).peers = s.peers := rfl
@[simp] theorem State.updDisp_pkg (s : State) (x : Nat) (f : Dispatch → Dispatch) : (s.updDisp x f).pkg = s.pkg := rfl
@[simp] theorem State.updDisp_age (s : State) (x : Nat) (f : Dispatch → Dispatch) : (s.updDisp x f).age = s.age := rfl
@[simp] theorem State.updDisp_quantum (s : State) (x : Nat) (f : Dispatch → Dispatch) : (s.updDisp x f).quantum = s.quantum := rfl
@[simp] theorem State.updDisp_hubTime (s : State) (x : Nat) (f : Dispatch → Dispatch) : (s.updDisp x f).hubTime = s.hubTime := rfl
@[simp] theorem State.updDisp_errlog (s : State) (x : Nat) (f : Dispatch → Dispatch) : (s.updDisp x f).errlog = s.errlog := rfl
@[simp] theorem State.updDisp_msix (s : State) (x : Nat) (f : Dispatch → Dispatch) : (s.updDisp x f).msix = s.msix := rfl
@[simp] theorem State.updDisp_told (s : State) (x : Nat) (f : Dispatch → Dispatch) : (s.updDisp x f).told = s.told := rfl
@[simp] theorem State.updDisp_reply (s : State) (x : Nat) (f : Dispatch → Dispatch) : (s.updDisp x f).reply = s.reply := rfl
@[simp] theorem State.updDisp_profNative (s : State) (x : Nat) (f : Dispatch → Dispatch) : (s.updDisp x f).profNative = s.profNative := rfl
@[simp] theorem State.updDisp_profDbp (s : State) (x : Nat) (f : Dispatch → Dispatch) : (s.updDisp x f).profDbp = s.profDbp := rfl
@[simp] theorem State.updDisp_thermal (s : State) (x : Nat) (f : Dispatch → Dispatch) : (s.updDisp x f).thermal = s.thermal := rfl
@[simp] theorem State.updDisp_powers (s : State) (x : Nat) (f : Dispatch → Dispatch) : (s.updDisp x f).powers = s.powers := rfl
@[simp] theorem State.updDisp_stopped (s : State) (x : Nat) (f : Dispatch → Dispatch) : (s.updDisp x f).stopped = s.stopped := rfl
@[simp] theorem State.updDisp_boot (s : State) (x : Nat) (f : Dispatch → Dispatch) : (s.updDisp x f).boot = s.boot := rfl
@[simp] theorem State.updDisp_inputs (s : State) (x : Nat) (f : Dispatch → Dispatch) : (s.updDisp x f).inputs = s.inputs := rfl
@[simp] theorem State.updDisp_outside (s : State) (x : Nat) (f : Dispatch → Dispatch) : (s.updDisp x f).outside = s.outside := rfl
@[simp] theorem State.updDisp_tick (s : State) (x : Nat) (f : Dispatch → Dispatch) : (s.updDisp x f).tick = s.tick := rfl
@[simp] theorem State.updDisp_fresh (s : State) (x : Nat) (f : Dispatch → Dispatch) : (s.updDisp x f).fresh = s.fresh := rfl
@[simp] theorem State.updDisp_issue (s : State) (x : Nat) (f : Dispatch → Dispatch) : (s.updDisp x f).issue = s.issue := rfl
@[simp] theorem State.updDisp_turn (s : State) (x : Nat) (f : Dispatch → Dispatch) : (s.updDisp x f).turn = s.turn := rfl
@[simp] theorem State.updCore_threads (s : State) (x : Nat) (f : Core → Core) : (s.updCore x f).threads = s.threads := rfl
@[simp] theorem State.updCore_groups (s : State) (x : Nat) (f : Core → Core) : (s.updCore x f).groups = s.groups := rfl
@[simp] theorem State.updCore_wgs (s : State) (x : Nat) (f : Core → Core) : (s.updCore x f).wgs = s.wgs := rfl
@[simp] theorem State.updCore_clusters (s : State) (x : Nat) (f : Core → Core) : (s.updCore x f).clusters = s.clusters := rfl
@[simp] theorem State.updCore_disps (s : State) (x : Nat) (f : Core → Core) : (s.updCore x f).disps = s.disps := rfl
@[simp] theorem State.updCore_graphs (s : State) (x : Nat) (f : Core → Core) : (s.updCore x f).graphs = s.graphs := rfl
@[simp] theorem State.updCore_queues (s : State) (x : Nat) (f : Core → Core) : (s.updCore x f).queues = s.queues := rfl
@[simp] theorem State.updCore_slots (s : State) (x : Nat) (f : Core → Core) : (s.updCore x f).slots = s.slots := rfl
@[simp] theorem State.updCore_cores (s : State) (x : Nat) (f : Core → Core) : (s.updCore x f).cores = mput s.cores x (f (s.core x)) := rfl
@[simp] theorem State.updCore_dies (s : State) (x : Nat) (f : Core → Core) : (s.updCore x f).dies = s.dies := rfl
@[simp] theorem State.updCore_mem (s : State) (x : Nat) (f : Core → Core) : (s.updCore x f).mem = s.mem := rfl
@[simp] theorem State.updCore_lost (s : State) (x : Nat) (f : Core → Core) : (s.updCore x f).lost = s.lost := rfl
@[simp] theorem State.updCore_accs (s : State) (x : Nat) (f : Core → Core) : (s.updCore x f).accs = s.accs := rfl
@[simp] theorem State.updCore_faults (s : State) (x : Nat) (f : Core → Core) : (s.updCore x f).faults = s.faults := rfl
@[simp] theorem State.updCore_injMsgs (s : State) (x : Nat) (f : Core → Core) : (s.updCore x f).injMsgs = s.injMsgs := rfl
@[simp] theorem State.updCore_invMsgs (s : State) (x : Nat) (f : Core → Core) : (s.updCore x f).invMsgs = s.invMsgs := rfl
@[simp] theorem State.updCore_kinds (s : State) (x : Nat) (f : Core → Core) : (s.updCore x f).kinds = s.kinds := rfl
@[simp] theorem State.updCore_cords (s : State) (x : Nat) (f : Core → Core) : (s.updCore x f).cords = s.cords := rfl
@[simp] theorem State.updCore_contexts (s : State) (x : Nat) (f : Core → Core) : (s.updCore x f).contexts = s.contexts := rfl
@[simp] theorem State.updCore_regions (s : State) (x : Nat) (f : Core → Core) : (s.updCore x f).regions = s.regions := rfl
@[simp] theorem State.updCore_rings (s : State) (x : Nat) (f : Core → Core) : (s.updCore x f).rings = s.rings := rfl
@[simp] theorem State.updCore_vfs (s : State) (x : Nat) (f : Core → Core) : (s.updCore x f).vfs = s.vfs := rfl
@[simp] theorem State.updCore_peers (s : State) (x : Nat) (f : Core → Core) : (s.updCore x f).peers = s.peers := rfl
@[simp] theorem State.updCore_pkg (s : State) (x : Nat) (f : Core → Core) : (s.updCore x f).pkg = s.pkg := rfl
@[simp] theorem State.updCore_age (s : State) (x : Nat) (f : Core → Core) : (s.updCore x f).age = s.age := rfl
@[simp] theorem State.updCore_quantum (s : State) (x : Nat) (f : Core → Core) : (s.updCore x f).quantum = s.quantum := rfl
@[simp] theorem State.updCore_hubTime (s : State) (x : Nat) (f : Core → Core) : (s.updCore x f).hubTime = s.hubTime := rfl
@[simp] theorem State.updCore_errlog (s : State) (x : Nat) (f : Core → Core) : (s.updCore x f).errlog = s.errlog := rfl
@[simp] theorem State.updCore_msix (s : State) (x : Nat) (f : Core → Core) : (s.updCore x f).msix = s.msix := rfl
@[simp] theorem State.updCore_told (s : State) (x : Nat) (f : Core → Core) : (s.updCore x f).told = s.told := rfl
@[simp] theorem State.updCore_reply (s : State) (x : Nat) (f : Core → Core) : (s.updCore x f).reply = s.reply := rfl
@[simp] theorem State.updCore_profNative (s : State) (x : Nat) (f : Core → Core) : (s.updCore x f).profNative = s.profNative := rfl
@[simp] theorem State.updCore_profDbp (s : State) (x : Nat) (f : Core → Core) : (s.updCore x f).profDbp = s.profDbp := rfl
@[simp] theorem State.updCore_thermal (s : State) (x : Nat) (f : Core → Core) : (s.updCore x f).thermal = s.thermal := rfl
@[simp] theorem State.updCore_powers (s : State) (x : Nat) (f : Core → Core) : (s.updCore x f).powers = s.powers := rfl
@[simp] theorem State.updCore_stopped (s : State) (x : Nat) (f : Core → Core) : (s.updCore x f).stopped = s.stopped := rfl
@[simp] theorem State.updCore_boot (s : State) (x : Nat) (f : Core → Core) : (s.updCore x f).boot = s.boot := rfl
@[simp] theorem State.updCore_inputs (s : State) (x : Nat) (f : Core → Core) : (s.updCore x f).inputs = s.inputs := rfl
@[simp] theorem State.updCore_outside (s : State) (x : Nat) (f : Core → Core) : (s.updCore x f).outside = s.outside := rfl
@[simp] theorem State.updCore_tick (s : State) (x : Nat) (f : Core → Core) : (s.updCore x f).tick = s.tick := rfl
@[simp] theorem State.updCore_fresh (s : State) (x : Nat) (f : Core → Core) : (s.updCore x f).fresh = s.fresh := rfl
@[simp] theorem State.updCore_issue (s : State) (x : Nat) (f : Core → Core) : (s.updCore x f).issue = s.issue := rfl
@[simp] theorem State.updCore_turn (s : State) (x : Nat) (f : Core → Core) : (s.updCore x f).turn = s.turn := rfl
@[simp] theorem State.updDie_threads (s : State) (x : Nat) (f : Die → Die) : (s.updDie x f).threads = s.threads := rfl
@[simp] theorem State.updDie_groups (s : State) (x : Nat) (f : Die → Die) : (s.updDie x f).groups = s.groups := rfl
@[simp] theorem State.updDie_wgs (s : State) (x : Nat) (f : Die → Die) : (s.updDie x f).wgs = s.wgs := rfl
@[simp] theorem State.updDie_clusters (s : State) (x : Nat) (f : Die → Die) : (s.updDie x f).clusters = s.clusters := rfl
@[simp] theorem State.updDie_disps (s : State) (x : Nat) (f : Die → Die) : (s.updDie x f).disps = s.disps := rfl
@[simp] theorem State.updDie_graphs (s : State) (x : Nat) (f : Die → Die) : (s.updDie x f).graphs = s.graphs := rfl
@[simp] theorem State.updDie_queues (s : State) (x : Nat) (f : Die → Die) : (s.updDie x f).queues = s.queues := rfl
@[simp] theorem State.updDie_slots (s : State) (x : Nat) (f : Die → Die) : (s.updDie x f).slots = s.slots := rfl
@[simp] theorem State.updDie_cores (s : State) (x : Nat) (f : Die → Die) : (s.updDie x f).cores = s.cores := rfl
@[simp] theorem State.updDie_dies (s : State) (x : Nat) (f : Die → Die) : (s.updDie x f).dies = lmod s.dies x f := rfl
@[simp] theorem State.updDie_mem (s : State) (x : Nat) (f : Die → Die) : (s.updDie x f).mem = s.mem := rfl
@[simp] theorem State.updDie_lost (s : State) (x : Nat) (f : Die → Die) : (s.updDie x f).lost = s.lost := rfl
@[simp] theorem State.updDie_accs (s : State) (x : Nat) (f : Die → Die) : (s.updDie x f).accs = s.accs := rfl
@[simp] theorem State.updDie_faults (s : State) (x : Nat) (f : Die → Die) : (s.updDie x f).faults = s.faults := rfl
@[simp] theorem State.updDie_injMsgs (s : State) (x : Nat) (f : Die → Die) : (s.updDie x f).injMsgs = s.injMsgs := rfl
@[simp] theorem State.updDie_invMsgs (s : State) (x : Nat) (f : Die → Die) : (s.updDie x f).invMsgs = s.invMsgs := rfl
@[simp] theorem State.updDie_kinds (s : State) (x : Nat) (f : Die → Die) : (s.updDie x f).kinds = s.kinds := rfl
@[simp] theorem State.updDie_cords (s : State) (x : Nat) (f : Die → Die) : (s.updDie x f).cords = s.cords := rfl
@[simp] theorem State.updDie_contexts (s : State) (x : Nat) (f : Die → Die) : (s.updDie x f).contexts = s.contexts := rfl
@[simp] theorem State.updDie_regions (s : State) (x : Nat) (f : Die → Die) : (s.updDie x f).regions = s.regions := rfl
@[simp] theorem State.updDie_rings (s : State) (x : Nat) (f : Die → Die) : (s.updDie x f).rings = s.rings := rfl
@[simp] theorem State.updDie_vfs (s : State) (x : Nat) (f : Die → Die) : (s.updDie x f).vfs = s.vfs := rfl
@[simp] theorem State.updDie_peers (s : State) (x : Nat) (f : Die → Die) : (s.updDie x f).peers = s.peers := rfl
@[simp] theorem State.updDie_pkg (s : State) (x : Nat) (f : Die → Die) : (s.updDie x f).pkg = s.pkg := rfl
@[simp] theorem State.updDie_age (s : State) (x : Nat) (f : Die → Die) : (s.updDie x f).age = s.age := rfl
@[simp] theorem State.updDie_quantum (s : State) (x : Nat) (f : Die → Die) : (s.updDie x f).quantum = s.quantum := rfl
@[simp] theorem State.updDie_hubTime (s : State) (x : Nat) (f : Die → Die) : (s.updDie x f).hubTime = s.hubTime := rfl
@[simp] theorem State.updDie_errlog (s : State) (x : Nat) (f : Die → Die) : (s.updDie x f).errlog = s.errlog := rfl
@[simp] theorem State.updDie_msix (s : State) (x : Nat) (f : Die → Die) : (s.updDie x f).msix = s.msix := rfl
@[simp] theorem State.updDie_told (s : State) (x : Nat) (f : Die → Die) : (s.updDie x f).told = s.told := rfl
@[simp] theorem State.updDie_reply (s : State) (x : Nat) (f : Die → Die) : (s.updDie x f).reply = s.reply := rfl
@[simp] theorem State.updDie_profNative (s : State) (x : Nat) (f : Die → Die) : (s.updDie x f).profNative = s.profNative := rfl
@[simp] theorem State.updDie_profDbp (s : State) (x : Nat) (f : Die → Die) : (s.updDie x f).profDbp = s.profDbp := rfl
@[simp] theorem State.updDie_thermal (s : State) (x : Nat) (f : Die → Die) : (s.updDie x f).thermal = s.thermal := rfl
@[simp] theorem State.updDie_powers (s : State) (x : Nat) (f : Die → Die) : (s.updDie x f).powers = s.powers := rfl
@[simp] theorem State.updDie_stopped (s : State) (x : Nat) (f : Die → Die) : (s.updDie x f).stopped = s.stopped := rfl
@[simp] theorem State.updDie_boot (s : State) (x : Nat) (f : Die → Die) : (s.updDie x f).boot = s.boot := rfl
@[simp] theorem State.updDie_inputs (s : State) (x : Nat) (f : Die → Die) : (s.updDie x f).inputs = s.inputs := rfl
@[simp] theorem State.updDie_outside (s : State) (x : Nat) (f : Die → Die) : (s.updDie x f).outside = s.outside := rfl
@[simp] theorem State.updDie_tick (s : State) (x : Nat) (f : Die → Die) : (s.updDie x f).tick = s.tick := rfl
@[simp] theorem State.updDie_fresh (s : State) (x : Nat) (f : Die → Die) : (s.updDie x f).fresh = s.fresh := rfl
@[simp] theorem State.updDie_issue (s : State) (x : Nat) (f : Die → Die) : (s.updDie x f).issue = s.issue := rfl
@[simp] theorem State.updDie_turn (s : State) (x : Nat) (f : Die → Die) : (s.updDie x f).turn = s.turn := rfl
@[simp] theorem State.updQueue_threads (s : State) (x : Nat) (f : Queue → Queue) : (s.updQueue x f).threads = s.threads := rfl
@[simp] theorem State.updQueue_groups (s : State) (x : Nat) (f : Queue → Queue) : (s.updQueue x f).groups = s.groups := rfl
@[simp] theorem State.updQueue_wgs (s : State) (x : Nat) (f : Queue → Queue) : (s.updQueue x f).wgs = s.wgs := rfl
@[simp] theorem State.updQueue_clusters (s : State) (x : Nat) (f : Queue → Queue) : (s.updQueue x f).clusters = s.clusters := rfl
@[simp] theorem State.updQueue_disps (s : State) (x : Nat) (f : Queue → Queue) : (s.updQueue x f).disps = s.disps := rfl
@[simp] theorem State.updQueue_graphs (s : State) (x : Nat) (f : Queue → Queue) : (s.updQueue x f).graphs = s.graphs := rfl
@[simp] theorem State.updQueue_queues (s : State) (x : Nat) (f : Queue → Queue) : (s.updQueue x f).queues = mupd s.queues x f := rfl
@[simp] theorem State.updQueue_slots (s : State) (x : Nat) (f : Queue → Queue) : (s.updQueue x f).slots = s.slots := rfl
@[simp] theorem State.updQueue_cores (s : State) (x : Nat) (f : Queue → Queue) : (s.updQueue x f).cores = s.cores := rfl
@[simp] theorem State.updQueue_dies (s : State) (x : Nat) (f : Queue → Queue) : (s.updQueue x f).dies = s.dies := rfl
@[simp] theorem State.updQueue_mem (s : State) (x : Nat) (f : Queue → Queue) : (s.updQueue x f).mem = s.mem := rfl
@[simp] theorem State.updQueue_lost (s : State) (x : Nat) (f : Queue → Queue) : (s.updQueue x f).lost = s.lost := rfl
@[simp] theorem State.updQueue_accs (s : State) (x : Nat) (f : Queue → Queue) : (s.updQueue x f).accs = s.accs := rfl
@[simp] theorem State.updQueue_faults (s : State) (x : Nat) (f : Queue → Queue) : (s.updQueue x f).faults = s.faults := rfl
@[simp] theorem State.updQueue_injMsgs (s : State) (x : Nat) (f : Queue → Queue) : (s.updQueue x f).injMsgs = s.injMsgs := rfl
@[simp] theorem State.updQueue_invMsgs (s : State) (x : Nat) (f : Queue → Queue) : (s.updQueue x f).invMsgs = s.invMsgs := rfl
@[simp] theorem State.updQueue_kinds (s : State) (x : Nat) (f : Queue → Queue) : (s.updQueue x f).kinds = s.kinds := rfl
@[simp] theorem State.updQueue_cords (s : State) (x : Nat) (f : Queue → Queue) : (s.updQueue x f).cords = s.cords := rfl
@[simp] theorem State.updQueue_contexts (s : State) (x : Nat) (f : Queue → Queue) : (s.updQueue x f).contexts = s.contexts := rfl
@[simp] theorem State.updQueue_regions (s : State) (x : Nat) (f : Queue → Queue) : (s.updQueue x f).regions = s.regions := rfl
@[simp] theorem State.updQueue_rings (s : State) (x : Nat) (f : Queue → Queue) : (s.updQueue x f).rings = s.rings := rfl
@[simp] theorem State.updQueue_vfs (s : State) (x : Nat) (f : Queue → Queue) : (s.updQueue x f).vfs = s.vfs := rfl
@[simp] theorem State.updQueue_peers (s : State) (x : Nat) (f : Queue → Queue) : (s.updQueue x f).peers = s.peers := rfl
@[simp] theorem State.updQueue_pkg (s : State) (x : Nat) (f : Queue → Queue) : (s.updQueue x f).pkg = s.pkg := rfl
@[simp] theorem State.updQueue_age (s : State) (x : Nat) (f : Queue → Queue) : (s.updQueue x f).age = s.age := rfl
@[simp] theorem State.updQueue_quantum (s : State) (x : Nat) (f : Queue → Queue) : (s.updQueue x f).quantum = s.quantum := rfl
@[simp] theorem State.updQueue_hubTime (s : State) (x : Nat) (f : Queue → Queue) : (s.updQueue x f).hubTime = s.hubTime := rfl
@[simp] theorem State.updQueue_errlog (s : State) (x : Nat) (f : Queue → Queue) : (s.updQueue x f).errlog = s.errlog := rfl
@[simp] theorem State.updQueue_msix (s : State) (x : Nat) (f : Queue → Queue) : (s.updQueue x f).msix = s.msix := rfl
@[simp] theorem State.updQueue_told (s : State) (x : Nat) (f : Queue → Queue) : (s.updQueue x f).told = s.told := rfl
@[simp] theorem State.updQueue_reply (s : State) (x : Nat) (f : Queue → Queue) : (s.updQueue x f).reply = s.reply := rfl
@[simp] theorem State.updQueue_profNative (s : State) (x : Nat) (f : Queue → Queue) : (s.updQueue x f).profNative = s.profNative := rfl
@[simp] theorem State.updQueue_profDbp (s : State) (x : Nat) (f : Queue → Queue) : (s.updQueue x f).profDbp = s.profDbp := rfl
@[simp] theorem State.updQueue_thermal (s : State) (x : Nat) (f : Queue → Queue) : (s.updQueue x f).thermal = s.thermal := rfl
@[simp] theorem State.updQueue_powers (s : State) (x : Nat) (f : Queue → Queue) : (s.updQueue x f).powers = s.powers := rfl
@[simp] theorem State.updQueue_stopped (s : State) (x : Nat) (f : Queue → Queue) : (s.updQueue x f).stopped = s.stopped := rfl
@[simp] theorem State.updQueue_boot (s : State) (x : Nat) (f : Queue → Queue) : (s.updQueue x f).boot = s.boot := rfl
@[simp] theorem State.updQueue_inputs (s : State) (x : Nat) (f : Queue → Queue) : (s.updQueue x f).inputs = s.inputs := rfl
@[simp] theorem State.updQueue_outside (s : State) (x : Nat) (f : Queue → Queue) : (s.updQueue x f).outside = s.outside := rfl
@[simp] theorem State.updQueue_tick (s : State) (x : Nat) (f : Queue → Queue) : (s.updQueue x f).tick = s.tick := rfl
@[simp] theorem State.updQueue_fresh (s : State) (x : Nat) (f : Queue → Queue) : (s.updQueue x f).fresh = s.fresh := rfl
@[simp] theorem State.updQueue_issue (s : State) (x : Nat) (f : Queue → Queue) : (s.updQueue x f).issue = s.issue := rfl
@[simp] theorem State.updQueue_turn (s : State) (x : Nat) (f : Queue → Queue) : (s.updQueue x f).turn = s.turn := rfl
@[simp] theorem State.updSlot_threads (s : State) (x : Nat) (f : Slot → Slot) : (s.updSlot x f).threads = s.threads := rfl
@[simp] theorem State.updSlot_groups (s : State) (x : Nat) (f : Slot → Slot) : (s.updSlot x f).groups = s.groups := rfl
@[simp] theorem State.updSlot_wgs (s : State) (x : Nat) (f : Slot → Slot) : (s.updSlot x f).wgs = s.wgs := rfl
@[simp] theorem State.updSlot_clusters (s : State) (x : Nat) (f : Slot → Slot) : (s.updSlot x f).clusters = s.clusters := rfl
@[simp] theorem State.updSlot_disps (s : State) (x : Nat) (f : Slot → Slot) : (s.updSlot x f).disps = s.disps := rfl
@[simp] theorem State.updSlot_graphs (s : State) (x : Nat) (f : Slot → Slot) : (s.updSlot x f).graphs = s.graphs := rfl
@[simp] theorem State.updSlot_queues (s : State) (x : Nat) (f : Slot → Slot) : (s.updSlot x f).queues = s.queues := rfl
@[simp] theorem State.updSlot_slots (s : State) (x : Nat) (f : Slot → Slot) : (s.updSlot x f).slots = lmod s.slots x f := rfl
@[simp] theorem State.updSlot_cores (s : State) (x : Nat) (f : Slot → Slot) : (s.updSlot x f).cores = s.cores := rfl
@[simp] theorem State.updSlot_dies (s : State) (x : Nat) (f : Slot → Slot) : (s.updSlot x f).dies = s.dies := rfl
@[simp] theorem State.updSlot_mem (s : State) (x : Nat) (f : Slot → Slot) : (s.updSlot x f).mem = s.mem := rfl
@[simp] theorem State.updSlot_lost (s : State) (x : Nat) (f : Slot → Slot) : (s.updSlot x f).lost = s.lost := rfl
@[simp] theorem State.updSlot_accs (s : State) (x : Nat) (f : Slot → Slot) : (s.updSlot x f).accs = s.accs := rfl
@[simp] theorem State.updSlot_faults (s : State) (x : Nat) (f : Slot → Slot) : (s.updSlot x f).faults = s.faults := rfl
@[simp] theorem State.updSlot_injMsgs (s : State) (x : Nat) (f : Slot → Slot) : (s.updSlot x f).injMsgs = s.injMsgs := rfl
@[simp] theorem State.updSlot_invMsgs (s : State) (x : Nat) (f : Slot → Slot) : (s.updSlot x f).invMsgs = s.invMsgs := rfl
@[simp] theorem State.updSlot_kinds (s : State) (x : Nat) (f : Slot → Slot) : (s.updSlot x f).kinds = s.kinds := rfl
@[simp] theorem State.updSlot_cords (s : State) (x : Nat) (f : Slot → Slot) : (s.updSlot x f).cords = s.cords := rfl
@[simp] theorem State.updSlot_contexts (s : State) (x : Nat) (f : Slot → Slot) : (s.updSlot x f).contexts = s.contexts := rfl
@[simp] theorem State.updSlot_regions (s : State) (x : Nat) (f : Slot → Slot) : (s.updSlot x f).regions = s.regions := rfl
@[simp] theorem State.updSlot_rings (s : State) (x : Nat) (f : Slot → Slot) : (s.updSlot x f).rings = s.rings := rfl
@[simp] theorem State.updSlot_vfs (s : State) (x : Nat) (f : Slot → Slot) : (s.updSlot x f).vfs = s.vfs := rfl
@[simp] theorem State.updSlot_peers (s : State) (x : Nat) (f : Slot → Slot) : (s.updSlot x f).peers = s.peers := rfl
@[simp] theorem State.updSlot_pkg (s : State) (x : Nat) (f : Slot → Slot) : (s.updSlot x f).pkg = s.pkg := rfl
@[simp] theorem State.updSlot_age (s : State) (x : Nat) (f : Slot → Slot) : (s.updSlot x f).age = s.age := rfl
@[simp] theorem State.updSlot_quantum (s : State) (x : Nat) (f : Slot → Slot) : (s.updSlot x f).quantum = s.quantum := rfl
@[simp] theorem State.updSlot_hubTime (s : State) (x : Nat) (f : Slot → Slot) : (s.updSlot x f).hubTime = s.hubTime := rfl
@[simp] theorem State.updSlot_errlog (s : State) (x : Nat) (f : Slot → Slot) : (s.updSlot x f).errlog = s.errlog := rfl
@[simp] theorem State.updSlot_msix (s : State) (x : Nat) (f : Slot → Slot) : (s.updSlot x f).msix = s.msix := rfl
@[simp] theorem State.updSlot_told (s : State) (x : Nat) (f : Slot → Slot) : (s.updSlot x f).told = s.told := rfl
@[simp] theorem State.updSlot_reply (s : State) (x : Nat) (f : Slot → Slot) : (s.updSlot x f).reply = s.reply := rfl
@[simp] theorem State.updSlot_profNative (s : State) (x : Nat) (f : Slot → Slot) : (s.updSlot x f).profNative = s.profNative := rfl
@[simp] theorem State.updSlot_profDbp (s : State) (x : Nat) (f : Slot → Slot) : (s.updSlot x f).profDbp = s.profDbp := rfl
@[simp] theorem State.updSlot_thermal (s : State) (x : Nat) (f : Slot → Slot) : (s.updSlot x f).thermal = s.thermal := rfl
@[simp] theorem State.updSlot_powers (s : State) (x : Nat) (f : Slot → Slot) : (s.updSlot x f).powers = s.powers := rfl
@[simp] theorem State.updSlot_stopped (s : State) (x : Nat) (f : Slot → Slot) : (s.updSlot x f).stopped = s.stopped := rfl
@[simp] theorem State.updSlot_boot (s : State) (x : Nat) (f : Slot → Slot) : (s.updSlot x f).boot = s.boot := rfl
@[simp] theorem State.updSlot_inputs (s : State) (x : Nat) (f : Slot → Slot) : (s.updSlot x f).inputs = s.inputs := rfl
@[simp] theorem State.updSlot_outside (s : State) (x : Nat) (f : Slot → Slot) : (s.updSlot x f).outside = s.outside := rfl
@[simp] theorem State.updSlot_tick (s : State) (x : Nat) (f : Slot → Slot) : (s.updSlot x f).tick = s.tick := rfl
@[simp] theorem State.updSlot_fresh (s : State) (x : Nat) (f : Slot → Slot) : (s.updSlot x f).fresh = s.fresh := rfl
@[simp] theorem State.updSlot_issue (s : State) (x : Nat) (f : Slot → Slot) : (s.updSlot x f).issue = s.issue := rfl
@[simp] theorem State.updSlot_turn (s : State) (x : Nat) (f : Slot → Slot) : (s.updSlot x f).turn = s.turn := rfl
@[simp] theorem State.bump_threads (s : State) : s.bump.threads = s.threads := rfl
@[simp] theorem State.bump_groups (s : State) : s.bump.groups = s.groups := rfl
@[simp] theorem State.bump_wgs (s : State) : s.bump.wgs = s.wgs := rfl
@[simp] theorem State.bump_clusters (s : State) : s.bump.clusters = s.clusters := rfl
@[simp] theorem State.bump_disps (s : State) : s.bump.disps = s.disps := rfl
@[simp] theorem State.bump_graphs (s : State) : s.bump.graphs = s.graphs := rfl
@[simp] theorem State.bump_queues (s : State) : s.bump.queues = s.queues := rfl
@[simp] theorem State.bump_slots (s : State) : s.bump.slots = s.slots := rfl
@[simp] theorem State.bump_cores (s : State) : s.bump.cores = s.cores := rfl
@[simp] theorem State.bump_dies (s : State) : s.bump.dies = s.dies := rfl
@[simp] theorem State.bump_mem (s : State) : s.bump.mem = s.mem := rfl
@[simp] theorem State.bump_lost (s : State) : s.bump.lost = s.lost := rfl
@[simp] theorem State.bump_accs (s : State) : s.bump.accs = s.accs := rfl
@[simp] theorem State.bump_faults (s : State) : s.bump.faults = s.faults := rfl
@[simp] theorem State.bump_injMsgs (s : State) : s.bump.injMsgs = s.injMsgs := rfl
@[simp] theorem State.bump_invMsgs (s : State) : s.bump.invMsgs = s.invMsgs := rfl
@[simp] theorem State.bump_kinds (s : State) : s.bump.kinds = s.kinds := rfl
@[simp] theorem State.bump_cords (s : State) : s.bump.cords = s.cords := rfl
@[simp] theorem State.bump_contexts (s : State) : s.bump.contexts = s.contexts := rfl
@[simp] theorem State.bump_regions (s : State) : s.bump.regions = s.regions := rfl
@[simp] theorem State.bump_rings (s : State) : s.bump.rings = s.rings := rfl
@[simp] theorem State.bump_vfs (s : State) : s.bump.vfs = s.vfs := rfl
@[simp] theorem State.bump_peers (s : State) : s.bump.peers = s.peers := rfl
@[simp] theorem State.bump_pkg (s : State) : s.bump.pkg = s.pkg := rfl
@[simp] theorem State.bump_age (s : State) : s.bump.age = s.age := rfl
@[simp] theorem State.bump_quantum (s : State) : s.bump.quantum = s.quantum := rfl
@[simp] theorem State.bump_hubTime (s : State) : s.bump.hubTime = s.hubTime := rfl
@[simp] theorem State.bump_errlog (s : State) : s.bump.errlog = s.errlog := rfl
@[simp] theorem State.bump_msix (s : State) : s.bump.msix = s.msix := rfl
@[simp] theorem State.bump_told (s : State) : s.bump.told = s.told := rfl
@[simp] theorem State.bump_reply (s : State) : s.bump.reply = s.reply := rfl
@[simp] theorem State.bump_profNative (s : State) : s.bump.profNative = s.profNative := rfl
@[simp] theorem State.bump_profDbp (s : State) : s.bump.profDbp = s.profDbp := rfl
@[simp] theorem State.bump_thermal (s : State) : s.bump.thermal = s.thermal := rfl
@[simp] theorem State.bump_powers (s : State) : s.bump.powers = s.powers := rfl
@[simp] theorem State.bump_stopped (s : State) : s.bump.stopped = s.stopped := rfl
@[simp] theorem State.bump_boot (s : State) : s.bump.boot = s.boot := rfl
@[simp] theorem State.bump_inputs (s : State) : s.bump.inputs = s.inputs := rfl
@[simp] theorem State.bump_outside (s : State) : s.bump.outside = s.outside := rfl
@[simp] theorem State.bump_tick (s : State) : s.bump.tick = s.tick := rfl
@[simp] theorem State.bump_fresh (s : State) : s.bump.fresh = s.fresh + 1 := rfl
@[simp] theorem State.bump_issue (s : State) : s.bump.issue = s.issue := rfl
@[simp] theorem State.bump_turn (s : State) : s.bump.turn = s.turn := rfl

end Sys2Proof.Machine
end

