-- ==== Sys2Proof/Laws/Maps.lean ====
section
/-! SUPPORT. Association lists, positions of lists, and reading parts of the state after an update. -/
namespace Sys2Proof.Machine

section maps
variable {κ ν : Type} [DecidableEq κ]

@[simp] theorem mget_nil (x : κ) : mget ([] : Map κ ν) x = none := rfl

theorem mget_mput (m : Map κ ν) (x y : κ) (w : ν) : mget (mput m x w) y = if x = y then some w else mget m y := by
  induction m with
  | nil => simp [mput, mget]
  | cons e m ih =>
    obtain ⟨k, v⟩ := e
    by_cases h : k = x
    · subst h; by_cases h' : k = y <;> simp [mput, mget, h']
    · by_cases h' : k = y
      · subst h'; simp [mput, mget, h, Ne.symm h]
      · simp [mput, mget, h, h', ih]

@[simp] theorem mget_mput_self (m : Map κ ν) (x : κ) (w : ν) : mget (mput m x w) x = some w := by simp [mget_mput]

theorem mget_mupd (m : Map κ ν) (x y : κ) (f : ν → ν) : mget (mupd m x f) y = if x = y then (mget m y).map f else mget m y := by
  induction m with
  | nil => simp [mupd]
  | cons e m ih =>
    obtain ⟨k, v⟩ := e
    by_cases h : k = x
    · subst h; by_cases h' : k = y <;> simp [mupd, mget, h']
    · by_cases h' : k = y
      · subst h'; simp [mupd, mget, h, Ne.symm h]
      · simp [mupd, mget, h, h', ih]

@[simp] theorem mget_mupd_self (m : Map κ ν) (x : κ) (f : ν → ν) : mget (mupd m x f) x = (mget m x).map f := by simp [mget_mupd]

theorem mget_mupd_ne (m : Map κ ν) {x y : κ} (h : x ≠ y) (f : ν → ν) : mget (mupd m x f) y = mget m y := by simp [mget_mupd, h]

theorem mget_mdel (m : Map κ ν) (x y : κ) : mget (mdel m x) y = if x = y then none else mget m y := by
  induction m with
  | nil => simp [mdel]
  | cons e m ih =>
    obtain ⟨k, v⟩ := e
    unfold mdel at ih ⊢
    by_cases h : k = x
    · subst h
      by_cases h' : k = y
      · subst h'; simpa using ih
      · simpa [mget, h'] using ih
    · by_cases h' : k = y
      · subst h'; simp [h, mget, Ne.symm h]
      · simpa [h, mget, h'] using ih

@[simp] theorem mupd_keys (m : Map κ ν) (x : κ) (f : ν → ν) : (mupd m x f).map Prod.fst = m.map Prod.fst := by
  induction m with
  | nil => rfl
  | cons e m ih => obtain ⟨k, v⟩ := e; by_cases h : k = x <;> simp [mupd, h, ih]

end maps

theorem lmod_length {α : Type} (l : List α) (n : Nat) (f : α → α) : (lmod l n f).length = l.length := by
  induction l generalizing n with
  | nil => rfl
  | cons a l ih => cases n <;> simp [lmod, ih]

theorem lmod_getElem? {α : Type} (l : List α) (n k : Nat) (f : α → α) :
    (lmod l n f)[k]? = if n = k then l[k]?.map f else l[k]? := by
  induction l generalizing n k with
  | nil => simp [lmod]
  | cons a l ih => cases n <;> cases k <;> simp [lmod, ih]

-- Threads and groups

theorem thr_updThr (s : State) (t u : ThreadId) (f : Thread → Thread) :
    (s.updThr t f).thr u = if t = u then (s.thr u).map f else s.thr u := mget_mupd _ _ _ _

@[simp] theorem thr_updThr_self (s : State) (t : ThreadId) (f : Thread → Thread) : (s.updThr t f).thr t = (s.thr t).map f := by
  simp [thr_updThr]

theorem thr_updThr_ne (s : State) {t u : ThreadId} (h : t ≠ u) (f : Thread → Thread) : (s.updThr t f).thr u = s.thr u := by
  simp [thr_updThr, h]

@[simp] theorem thr_updGrp (s : State) (g : GroupId) (f : Group → Group) (u : ThreadId) : (s.updGrp g f).thr u = s.thr u := rfl
@[simp] theorem grp_updThr (s : State) (t : ThreadId) (f : Thread → Thread) (g : GroupId) : (s.updThr t f).grp g = s.grp g := rfl

theorem grp_updGrp (s : State) (g h : GroupId) (f : Group → Group) :
    (s.updGrp g f).grp h = if g = h then (s.grp h).map f else s.grp h := mget_mupd _ _ _ _

theorem wg_updWg (s : State) (w v : Nat) (f : Workgroup → Workgroup) :
    (s.updWg w f).wg v = if w = v then (s.wg v).map f else s.wg v := mget_mupd _ _ _ _

theorem core_updCore (s : State) (c d : Nat) (f : Core → Core) :
    (s.updCore c f).core d = if c = d then f (s.core c) else s.core d := by
  unfold State.core; simp only [State.updCore_cores, mget_mput]
  by_cases h : c = d
  · subst h; simp [State.core]
  · simp [h]

theorem queue_updQueue (s : State) (q r : Nat) (f : Queue → Queue) :
    (s.updQueue q f).queue r = if q = r then (s.queue r).map f else s.queue r := mget_mupd _ _ _ _

/-- A fold over threads that each change only themselves. -/
theorem thr_foldl_updThr (f : ThreadId → Thread → Thread) (ts : List ThreadId) (s : State) (u : ThreadId) (nd : ts.Nodup) :
    (ts.foldl (fun s t => s.updThr t (f t)) s).thr u = if u ∈ ts then (s.thr u).map (f u) else s.thr u := by
  induction ts generalizing s with
  | nil => simp
  | cons t ts ih =>
    obtain ⟨hn, nd⟩ := List.nodup_cons.mp nd
    rw [List.foldl_cons, ih _ nd]
    by_cases h : u = t
    · subst h; simp [hn]
    · simp [h, thr_updThr_ne s (Ne.symm h)]

/-- Such a fold changes nothing but threads. -/
theorem rest_foldl_updThr (f : ThreadId → Thread → Thread) (ts : List ThreadId) (s : State) :
    ts.foldl (fun s t => s.updThr t (f t)) s = { s with threads := (ts.foldl (fun s t => s.updThr t (f t)) s).threads } := by
  induction ts generalizing s with
  | nil => rfl
  | cons t ts ih => exact ih (s.updThr t (f t))

end Sys2Proof.Machine
end

