-- ==== Sys2Proof/Laws/Lanes.lean ====
section
/-! SUPPORT. What an execution once per thread can do: when no lane traps, every executing thread's own effect, the threads whose
predicate is false, the groups' uniform registers, and nothing else; when a lane traps, the traps alone. -/
namespace Sys2Proof.Machine

/-- The effect of a lane that does not trap. -/
def laneFx : LaneRes → LaneFx
  | .fx e => e
  | .trap _ => {}

/-- What an effect without accesses does to its thread. -/
def LaneFx.onThread (e : LaneFx) (x : Thread) : Thread :=
  match e.jump with
  | none => (x.apply e).advance
  | some a => (x.apply e).goto a

theorem trapsOf_nil {rs : List (ThreadId × LaneRes)} (h : ∀ r ∈ rs, ∃ e, r.2 = .fx e) : trapsOf rs = [] := by
  induction rs with
  | nil => rfl
  | cons r rs ih =>
    obtain ⟨t, x⟩ := r
    obtain ⟨e, rfl⟩ := h (t, x) (List.mem_cons_self ..)
    exact ih (fun r hr => h r (List.mem_cons_of_mem _ hr))

theorem foldl_fx (lane : ThreadId → LaneRes) (ts : List ThreadId) (h : ∀ t ∈ ts, ∃ e, lane t = .fx e) (s : State) :
    (ts.map (fun t => (t, lane t))).foldl State.applyRes s
      = ts.foldl (fun s t => s.applyFx t (laneFx (lane t))) s := by
  induction ts generalizing s with
  | nil => rfl
  | cons t ts ih =>
    obtain ⟨e, he⟩ := h t (List.mem_cons_self ..)
    simp only [List.map_cons, List.foldl_cons, he, laneFx, State.applyRes]
    exact ih (fun u hu => h u (List.mem_cons_of_mem _ hu)) _

/-- An execution in which no lane traps. -/
theorem lanesThen_ok (s : State) (i : Instr) (lane : State → List ThreadId → ThreadId → LaneRes) (post : State → List ThreadId → State)
    (hm : s.misplaced i = false) (h : ∀ t ∈ s.executing i, s.regsOk t i = true ∧ ∃ e, lane s (s.executing i) t = .fx e) :
    s.lanesThen i lane post
      = post (((s.executing i).foldl (fun z t => z.applyFx t (laneFx (lane s (s.executing i) t))) s).skipFalse (s.issuing i) (s.executing i))
          (s.executing i) := by
  have hr : (s.executing i).map (fun t => (t, if s.regsOk t i then lane s (s.executing i) t else .trap illegalInstr))
      = (s.executing i).map (fun t => (t, lane s (s.executing i) t)) :=
    List.map_congr_left (fun t ht => by simp [(h t ht).1])
  have ht : trapsOf ((s.executing i).map (fun t => (t, lane s (s.executing i) t))) = [] := by
    refine trapsOf_nil (fun r hr => ?_)
    obtain ⟨t, ht, rfl⟩ := List.mem_map.mp hr
    exact (h t ht).2
  simp only [State.lanesThen, hm, hr, ht, Bool.false_eq_true, if_false]
  rw [foldl_fx _ _ (fun t ht => (h t ht).2)]

/-- What an execution does beside is done after its lanes. -/
theorem lanesThen_lanes (s : State) (i : Instr) (lane : State → List ThreadId → ThreadId → LaneRes) (post : State → List ThreadId → State)
    (hm : s.misplaced i = false) (h : ∀ t ∈ s.executing i, s.regsOk t i = true ∧ ∃ e, lane s (s.executing i) t = .fx e) :
    s.lanesThen i lane post = post (s.lanes i lane) (s.executing i) := by
  rw [State.lanes, lanesThen_ok s i lane post hm h, lanesThen_ok s i lane _ hm h]

/-- An execution in which a lane traps does nothing else. -/
theorem lanesThen_trap (s : State) (i : Instr) (lane : State → List ThreadId → ThreadId → LaneRes) (post : State → List ThreadId → State)
    (hm : s.misplaced i = false) {f : ThreadId × TrapInfo} {fs : List (ThreadId × TrapInfo)}
    (h : trapsOf ((s.executing i).map (fun t => (t, if s.regsOk t i then lane s (s.executing i) t else .trap illegalInstr))) = f :: fs) :
    s.lanesThen i lane post = s.takeTraps (s.issuing i) (f :: fs) Thread.pc := by
  simp only [State.lanesThen, hm, h, Bool.false_eq_true, if_false]

-- One lane

theorem applyFx_eq (s : State) (t : ThreadId) (e : LaneFx) (ha : e.accs = []) :
    s.applyFx t e = { s with threads := (s.applyFx t e).threads, groups := (s.applyFx t e).groups } := by
  unfold State.applyFx
  cases hj : e.jump <;> by_cases hs : e.ss.isEmpty = true <;> simp [hs, ha, State.updThr, State.updGrp]

theorem thr_applyFx (s : State) (t u : ThreadId) (e : LaneFx) (ha : e.accs = []) :
    (s.applyFx t e).thr u = if t = u then (s.thr u).map e.onThread else s.thr u := by
  unfold State.applyFx LaneFx.onThread
  by_cases h : t = u
  · subst h
    cases hj : e.jump <;> by_cases hs : e.ss.isEmpty = true <;> simp [hs, ha, Function.comp_def]
  · cases hj : e.jump <;> by_cases hs : e.ss.isEmpty = true <;> simp [hs, ha, h, thr_updThr]

theorem writeS_nil (g : Group) : g.writeS [] = g := rfl

theorem grp_applyFx (s : State) (t : ThreadId) (g : GroupId) (e : LaneFx) (ha : e.accs = []) :
    (s.applyFx t e).grp g = if t.group = g then (s.grp g).map (fun x => x.writeS e.ss) else s.grp g := by
  unfold State.applyFx
  by_cases h : t.group = g
  · subst h
    cases hj : e.jump <;> by_cases hs : e.ss.isEmpty = true
    all_goals first
      | (have hn : e.ss = [] := by simpa using hs
         simp [hn, ha, writeS_nil])
      | simp [hs, ha, grp_updGrp]
  · cases hj : e.jump <;> by_cases hs : e.ss.isEmpty = true <;> simp [hs, ha, h, grp_updGrp]

-- All lanes

/-- The effects of a group's threads on its uniform registers, in order. -/
def Group.writeAll (x : Group) (g : GroupId) (fx : ThreadId → LaneFx) (ts : List ThreadId) : Group :=
  ts.foldl (fun y t => if t.group = g then y.writeS (fx t).ss else y) x

theorem lanes_fold (fx : ThreadId → LaneFx) (ts : List ThreadId) (ha : ∀ t ∈ ts, (fx t).accs = []) (nd : ts.Nodup) (s : State) :
    let z := ts.foldl (fun z t => z.applyFx t (fx t)) s
    z = { s with threads := z.threads, groups := z.groups }
      ∧ (∀ u, z.thr u = if u ∈ ts then (s.thr u).map (fx u).onThread else s.thr u)
      ∧ (∀ g, z.grp g = (s.grp g).map (fun x => x.writeAll g fx ts)) := by
  induction ts generalizing s with
  | nil => exact ⟨rfl, fun u => by simp, fun g => by simp [Group.writeAll]⟩
  | cons t ts ih =>
    obtain ⟨hn, nd⟩ := List.nodup_cons.mp nd
    have ht := ha t (List.mem_cons_self ..)
    obtain ⟨h1, h2, h3⟩ := ih (fun u hu => ha u (List.mem_cons_of_mem _ hu)) nd (s.applyFx t (fx t))
    refine ⟨?_, fun u => ?_, fun g => ?_⟩
    · simp only [List.foldl_cons]
      rw [h1, applyFx_eq s t (fx t) ht]
    · simp only [List.foldl_cons, h2, thr_applyFx s t u (fx t) ht, List.mem_cons]
      by_cases hu : u = t
      · subst hu; simp [hn]
      · simp [hu, Ne.symm hu]
    · simp only [List.foldl_cons, h3, grp_applyFx s t g (fx t) ht, Group.writeAll]
      by_cases hg : t.group = g <;> simp [hg, Function.comp_def]

/-- What a word executed once per thread does, when no lane traps and it makes no access: each executing thread takes its effect, each other
issuing thread goes on to the next word, the uniform registers take the effects in lane order, and nothing else changes. -/
theorem lanes_effect (s : State) (i : Instr) (lane : State → List ThreadId → ThreadId → LaneRes) (nd : s.issue.threads.Nodup)
    (hm : s.misplaced i = false) (fx : ThreadId → LaneFx)
    (h : ∀ t ∈ s.executing i, s.regsOk t i = true ∧ lane s (s.executing i) t = .fx (fx t) ∧ (fx t).accs = []) :
    let z := s.lanes i lane
    z = { s with threads := z.threads, groups := z.groups }
      ∧ (∀ u, z.thr u = if u ∈ s.executing i then (s.thr u).map (fx u).onThread
          else if u ∈ s.issuing i then (s.thr u).map Thread.advance else s.thr u)
      ∧ (∀ g, z.grp g = (s.grp g).map (fun x => x.writeAll g fx (s.executing i))) := by
  have hg : (s.issuing i).Nodup := nd.filter _
  have he : (s.executing i).Nodup := hg.filter _
  have hz : s.lanes i lane = ((s.executing i).foldl (fun z t => z.applyFx t (fx t)) s).skipFalse (s.issuing i) (s.executing i) := by
    rw [State.lanes, lanesThen_ok s i lane _ hm (fun t ht => ⟨(h t ht).1, _, (h t ht).2.1⟩)]
    congr 1
    exact List.foldl_ext _ _ _ (fun z t ht => by rw [(h t ht).2.1]; rfl)
  obtain ⟨h1, h2, h3⟩ := lanes_fold fx (s.executing i) (fun t ht => (h t ht).2.2) he s
  have hsub : ∀ u, u ∈ s.executing i → u ∈ s.issuing i := fun u hu => List.mem_of_mem_filter hu
  simp only [hz, State.skipFalse]
  refine ⟨?_, fun u => ?_, fun g => ?_⟩
  · rw [rest_foldl_updThr (fun _ => Thread.advance)]
    rw [h1]
  · rw [thr_foldl_updThr (fun _ => Thread.advance) _ _ _ (hg.filter _), h2]
    by_cases hu : u ∈ s.executing i
    · simp [hu, hsub u hu]
    · simp [hu]
  · rw [rest_foldl_updThr (fun _ => Thread.advance)]
    exact h3 g

theorem applyFx_groups (s : State) (t : ThreadId) (e : LaneFx) (ha : e.accs = []) (hs : e.ss = []) : (s.applyFx t e).groups = s.groups := by
  unfold State.applyFx
  cases hj : e.jump <;> simp [hs, ha, State.updThr]

theorem foldl_keeps {α β : Type} (f : State → α → State) (g : State → β) (xs : List α) (h : ∀ z, ∀ x ∈ xs, g (f z x) = g z) (s : State) :
    g (xs.foldl f s) = g s := by
  induction xs generalizing s with
  | nil => rfl
  | cons x xs ih => rw [List.foldl_cons, ih (fun z y hy => h z y (List.mem_cons_of_mem _ hy)), h s x (List.mem_cons_self ..)]

/-- Groups are as before where no lane writes a uniform register. -/
theorem lanes_groups (s : State) (i : Instr) (lane : State → List ThreadId → ThreadId → LaneRes) (hm : s.misplaced i = false)
    (fx : ThreadId → LaneFx)
    (h : ∀ t ∈ s.executing i, s.regsOk t i = true ∧ lane s (s.executing i) t = .fx (fx t) ∧ (fx t).accs = [] ∧ (fx t).ss = []) :
    (s.lanes i lane).groups = s.groups := by
  rw [State.lanes, lanesThen_ok s i lane _ hm (fun t ht => ⟨(h t ht).1, _, (h t ht).2.1⟩)]
  unfold State.skipFalse
  rw [foldl_keeps (fun z t => z.updThr t Thread.advance) State.groups _ (fun z t _ => rfl)]
  refine foldl_keeps _ State.groups _ (fun z t ht => ?_) s
  rw [(h t ht).2.1]
  exact applyFx_groups z t _ (h t ht).2.2.1 (h t ht).2.2.2

end Sys2Proof.Machine
end

