-- ==== Sys2Proof/Laws/Accesses.lean ====
section
/-! SUPPORT. What an execution that makes accesses does: the accesses become pending in lane order and are counted on their owners' flags. -/
namespace Sys2Proof.Machine

theorem apply_empty (x : Thread) (l : List Acc) : x.apply { accs := l } = x := by simp [Thread.apply]

theorem count_advance (x : Thread) (f : Option Nat) : (x.advance).count f = (x.count f).advance := by
  cases f with
  | none => rfl
  | some k =>
    cases h : x.clause
    · simp [Thread.count, Thread.advance, h]
    · simp only [Thread.count, Thread.advance, h]
      split <;> rfl

/-- One new access: where it stands, and its owners' flags. -/
theorem addAcc_fx (s : State) (a : Acc) (nd : a.owners.Nodup) :
    s.addAcc a = { s with threads := (s.addAcc a).threads, accs := s.accs ++ [(s.fresh, a)], fresh := s.fresh + 1 }
      ∧ ∀ u, (s.addAcc a).thr u = if u ∈ a.owners then (s.thr u).map (fun x => x.count a.flag) else s.thr u := by
  unfold State.addAcc
  refine ⟨?_, fun u => ?_⟩
  · dsimp only
    rw [rest_foldl_updThr (fun _ x => x.count a.flag)]
    rfl
  · dsimp only
    rw [thr_foldl_updThr (fun _ x => x.count a.flag) _ _ _ nd]
    rfl

theorem applyFx_def (s : State) (t : ThreadId) (l : List Acc) :
    s.applyFx t { accs := l } = (l.foldl State.addAcc (s.updThr t (fun x => x.apply { accs := l }))).updThr t Thread.advance := rfl

theorem thr_apply_empty (s : State) (t u : ThreadId) (l : List Acc) : (s.updThr t (fun x => x.apply { accs := l })).thr u = s.thr u := by
  rw [thr_updThr]
  by_cases h : t = u
  · subst h
    rw [if_pos rfl]
    cases s.thr t with
    | none => rfl
    | some x => exact congrArg some (apply_empty x l)
  · simp [h]

/-- What a thread counts for an access. -/
def Acc.counts (a : Acc) (u : ThreadId) : Option Nat := if u ∈ a.owners then a.flag else none

/-- A lane that makes at most one access. -/
theorem applyFx_acc (s : State) (t : ThreadId) (a : Option Acc) (nd : ∀ b, a = some b → b.owners.Nodup) :
    let z := s.applyFx t { accs := a.toList }
    z = { s with threads := z.threads, accs := s.accs ++ a.toList.map (fun b => (s.fresh, b)), fresh := s.fresh + a.toList.length }
      ∧ ∀ u, z.thr u = (s.thr u).map (fun x => (if t = u then Thread.advance else id) (x.count (a.bind (fun b => b.counts u)))) := by
  dsimp only
  rw [applyFx_def]
  cases a with
  | none =>
    refine ⟨by simp [State.updThr], fun u => ?_⟩
    simp only [Option.toList_none, List.foldl_nil]
    rw [thr_updThr, thr_apply_empty]
    by_cases h : t = u <;> simp [h, Thread.count]
  | some a =>
    obtain ⟨h1, h2⟩ := addAcc_fx (s.updThr t (fun x => x.apply { accs := [a] })) a (nd a rfl)
    refine ⟨?_, fun u => ?_⟩
    · simp only [Option.toList_some, List.foldl_cons, List.foldl_nil, List.map_cons, List.map_nil, List.length_cons, List.length_nil]
      rw [h1]
      rfl
    · simp only [Option.toList_some, List.foldl_cons, List.foldl_nil, Option.bind_some, Acc.counts]
      rw [thr_updThr, h2, thr_apply_empty]
      by_cases h : t = u <;> by_cases hu : u ∈ a.owners <;> simp [h, hu, Thread.count, Function.comp_def]

/-- What a fold of such lanes does to a thread. -/
def laneCount (acc : ThreadId → Option Acc) (ts : List ThreadId) (u : ThreadId) (x : Thread) : Thread :=
  ts.foldl (fun x t => (if t = u then Thread.advance else id) (x.count ((acc t).bind (fun b => b.counts u)))) x

theorem accs_fold (acc : ThreadId → Option Acc) (ts : List ThreadId) (nd : ∀ t ∈ ts, ∀ b, acc t = some b → b.owners.Nodup) (s : State) :
    let z := ts.foldl (fun z t => z.applyFx t { accs := (acc t).toList }) s
    z = { s with threads := z.threads, accs := s.accs ++ (ts.filterMap acc).zipIdx.map (fun p => (s.fresh + p.2, p.1))
                 fresh := s.fresh + (ts.filterMap acc).length }
      ∧ ∀ u, z.thr u = (s.thr u).map (laneCount acc ts u) := by
  induction ts generalizing s with
  | nil =>
    refine ⟨by simp, fun u => ?_⟩
    show s.thr u = (s.thr u).map (fun x => x)
    cases s.thr u <;> rfl
  | cons t ts ih =>
    obtain ⟨h1, h2⟩ := applyFx_acc s t (acc t) (nd t (List.mem_cons_self ..))
    obtain ⟨h3, h4⟩ := ih (fun u hu => nd u (List.mem_cons_of_mem _ hu)) (s.applyFx t { accs := (acc t).toList })
    have ha : (s.applyFx t { accs := (acc t).toList }).accs = s.accs ++ (acc t).toList.map (fun b => (s.fresh, b)) := by rw [h1]
    have hf : (s.applyFx t { accs := (acc t).toList }).fresh = s.fresh + (acc t).toList.length := by rw [h1]
    refine ⟨?_, fun u => ?_⟩
    · simp only [List.foldl_cons]
      rw [h3, ha, hf, h1]
      cases he : acc t with
      | none => simp [he]
      | some b =>
        simp only [List.filterMap_cons, he, Option.toList_some, List.map_cons, List.map_nil, List.length_cons, List.length_nil]
        rw [List.zipIdx_cons', List.map_cons, List.map_map]
        simp only [Nat.add_zero, List.append_assoc, List.singleton_append, Nat.zero_add, Nat.add_assoc, Nat.add_comm 1, Function.comp_def, Prod.map]
        rfl
    · simp only [List.foldl_cons]
      rw [h4, h2, Option.map_map]
      rfl

/-- A thread counts the one access that has it as an owner, and advances where it executes. -/
theorem laneCount_eq (acc : ThreadId → Option Acc) (u : ThreadId) (ts : List ThreadId) (nd : ts.Nodup)
    (one : ∀ t ∈ ts, ∀ t' ∈ ts, ∀ b b', acc t = some b → acc t' = some b' → u ∈ b.owners → u ∈ b'.owners → t = t') (x : Thread) :
    laneCount acc ts u x
      = (if u ∈ ts then Thread.advance else id) (x.count (((ts.filterMap acc).find? (fun a => a.owners.contains u)).bind Acc.flag)) := by
  induction ts generalizing x with
  | nil => simp [laneCount, Thread.count]
  | cons t ts ih =>
    obtain ⟨hn, nd⟩ := List.nodup_cons.mp nd
    have ih := ih nd (fun a ha b hb => one a (List.mem_cons_of_mem _ ha) b (List.mem_cons_of_mem _ hb))
    have hs : laneCount acc (t :: ts) u x
        = laneCount acc ts u ((if t = u then Thread.advance else id) (x.count ((acc t).bind (fun b => b.counts u)))) := rfl
    rw [hs, ih]
    have none_later : ∀ b, acc t = some b → u ∈ b.owners → (ts.filterMap acc).find? (fun a => a.owners.contains u) = none := by
      intro b hb hu
      rw [List.find?_eq_none]
      intro c hc hcu
      obtain ⟨t', ht', e⟩ := List.mem_filterMap.mp hc
      have := one t (List.mem_cons_self ..) t' (List.mem_cons_of_mem _ ht') b c hb e hu (by simpa using hcu)
      exact hn (this ▸ ht')
    have hc : ∀ (x : Thread), (((x.count none : Thread))) = x := fun _ => rfl
    cases he : acc t with
    | none =>
      simp only [Option.bind_none, hc, List.filterMap_cons, he]
      by_cases h : t = u
      · subst h; simp [hn, count_advance]
      · simp [h, Ne.symm h]
    | some b =>
      by_cases hu : u ∈ b.owners
      · rw [none_later b he hu]
        have hf : ((t :: ts).filterMap acc).find? (fun a => a.owners.contains u) = some b := by
          simp [he, hu]
        rw [hf]
        simp only [Option.bind_some, Option.bind_none, Acc.counts, hu, if_true, hc]
        by_cases h : t = u
        · subst h; simp [hn]
        · simp [h, Ne.symm h]
      · have hf : ((t :: ts).filterMap acc).find? (fun a => a.owners.contains u) = (ts.filterMap acc).find? (fun a => a.owners.contains u) := by
          simp [he, hu]
        rw [hf]
        simp only [Option.bind_some, Acc.counts, hu, if_false, hc]
        by_cases h : t = u
        · subst h; simp [hn, count_advance]
        · simp [h, Ne.symm h]

/-- What a word executed once per thread does when no lane traps and its lanes make accesses, each thread the owner of at most one. -/
theorem lanes_pend {s : State} {i : Instr} (lane : State → List ThreadId → ThreadId → LaneRes) (acc : ThreadId → Option Acc) (hr : Ready s i)
    (hl : ∀ t ∈ s.executing i, lane s (s.executing i) t = .fx { accs := (acc t).toList })
    (own : ∀ t ∈ s.executing i, ∀ b, acc t = some b → b.owners.Nodup ∧ ∀ u ∈ b.owners, u ∈ s.executing i)
    (one : ∀ t ∈ s.executing i, ∀ t' ∈ s.executing i, ∀ b b' u, acc t = some b → acc t' = some b' → u ∈ b.owners → u ∈ b'.owners → t = t') :
    Pends s s (s.lanes i lane) i ((s.executing i).filterMap acc) := by
  obtain ⟨nd, hm, hx⟩ := hr
  have hg : (s.issuing i).Nodup := nd.filter _
  have he : (s.executing i).Nodup := hg.filter _
  have hz : s.lanes i lane
      = ((s.executing i).foldl (fun z t => z.applyFx t { accs := (acc t).toList }) s).skipFalse (s.issuing i) (s.executing i) := by
    rw [State.lanes, lanesThen_ok s i lane _ hm (fun t ht => ⟨(hx t ht).1, _, hl t ht⟩)]
    congr 1
    exact List.foldl_ext _ _ _ (fun z t ht => by rw [hl t ht]; rfl)
  obtain ⟨h1, h2⟩ := accs_fold acc (s.executing i) (fun t ht b hb => (own t ht b hb).1) s
  simp only [Pends, ThreadsGo, hz, State.skipFalse]
  refine ⟨?_, fun u => ?_⟩
  · rw [rest_foldl_updThr (fun _ => Thread.advance)]
    rw [h1]
  · rw [thr_foldl_updThr (fun _ => Thread.advance) _ _ _ (hg.filter _), h2]
    have hsub : ∀ u, u ∈ s.executing i → u ∈ s.issuing i := fun u hu => List.mem_of_mem_filter hu
    have hq : (s.thr u).map (laneCount acc (s.executing i) u) = (s.thr u).map (fun x => (if u ∈ s.executing i then Thread.advance else id)
        (x.count ((((s.executing i).filterMap acc).find? (fun a => a.owners.contains u)).bind Acc.flag))) := by
      congr 1
      funext x
      exact laneCount_eq acc u _ he (fun t ht t' ht' b b' h h' hu hu' => one t ht t' ht' b b' u h h' hu hu') x
    rw [hq]
    by_cases hu : u ∈ s.executing i
    · simp [hu, hsub u hu]
    · have hn : ((s.executing i).filterMap acc).find? (fun a => a.owners.contains u) = none := by
        rw [List.find?_eq_none]
        intro c hc hcu
        obtain ⟨t, ht, e⟩ := List.mem_filterMap.mp hc
        exact hu ((own t ht c e).2 u (by simpa using hcu))
      have hid : (s.thr u).map (fun x : Thread => x) = s.thr u := by cases s.thr u <;> rfl
      simp only [hu, hn, Option.bind_none, if_false, List.mem_filter]
      by_cases hi : u ∈ s.issuing i <;> simp [hi, hu, Thread.count]

theorem memAddr_eff (s : State) (t : ThreadId) (sp : Space) (a b : Opnd) (idx : BitVec 3) (c : Byte) (sz : Sz) :
    memAddr s sp a b idx c sz t = s.effAddr t sp a b idx.toNat (memOff sz c) := by
  have : sgn 8 c.toNat = c.toInt := by revert c; decide
  simp only [memAddr, State.effAddr, memOff, this]
  cases sp <;> rfl

theorem reaches_check {s : State} {t : ThreadId} {sp : Space} {a : DWord} {n : Nat} {st : Bool} (h : Reaches s t sp a n st) :
    s.checkAccess t.wg sp a n st = none := by
  obtain ⟨h1, h2, h3⟩ := h
  obtain ⟨p, hp⟩ := Option.isSome_iff_exists.mp h2
  unfold State.checkAccess
  simp only [h1, bne_self_eq_false, Bool.false_eq_true, if_false, hp]
  split
  · rename_i h; simp at h; exact absurd ⟨h.1.1, h.1.2, h.2⟩ h3
  · rfl

theorem filterMap_if {α β : Type} (p : α → Bool) (f : α → β) (l : List α) :
    l.filterMap (fun t => if p t then some (f t) else none) = (l.filter p).map f := by
  induction l with
  | nil => rfl
  | cons a l ih => by_cases h : p a = true <;> simp [h, ih]

theorem flagA_eq (s : State) (t : ThreadId) (i : Instr) (h : flagClass i = .a) : ((s.thr t).map (fun x => x.flagOf i)).getD none = flagA s t := by
  unfold flagA Thread.flagOf; rw [h]; cases s.thr t <;> rfl

theorem flagB_eq (s : State) (t : ThreadId) (i : Instr) (h : flagClass i = .b) : ((s.thr t).map (fun x => x.flagOf i)).getD none = flagB s t := by
  unfold flagB Thread.flagOf; rw [h]; cases s.thr t <;> rfl

end Sys2Proof.Machine
end

