-- ==== Sys2Proof/Laws/Traps.lean ====
section
/-! SUPPORT. All that taking traps does, in a workgroup that runs (R258, R260): `TrapsTaken`. -/
namespace Sys2Proof.Machine

theorem broadcast_thr (s : State) (g : GroupId) (u : ThreadId) : (s.broadcast g).thr u = s.thr u := rfl

theorem broadcast_fold (gs : List GroupId) (s : State) :
    let z := gs.foldl State.broadcast s
    z = { s with groups := z.groups, fresh := z.fresh } := by
  induction gs generalizing s with
  | nil => rfl
  | cons g gs ih => exact (ih (s.broadcast g)).trans rfl

/-- The halt of a workgroup that runs. -/
theorem haltWg_running (s : State) (w : Nat) (t0 : ThreadId) (ts : List ThreadId) (x : Workgroup) (hw : s.wg w = some x) (hh : x.halt = .running)
    (nd : (t0 :: ts).Nodup) :
    let z := s.haltWg w (t0 :: ts)
    z = { s with threads := z.threads, groups := z.groups, wgs := z.wgs, fresh := z.fresh }
      ∧ z.wg w = some { x with halt := .skidding (s.handlerOf w == 0), firstTrap := some (s.firstTrapOf t0) }
      ∧ (∀ v, v ≠ w → z.wg v = s.wg v)
      ∧ (∀ u, z.thr u = if s.handlerOf w ≠ 0 ∧ u ∈ t0 :: ts ∧ u.gid = t0.gid then
          (s.thr u).map (fun y => { (y.goto (s.handlerOf w)) with sys := true, trapped := false, wait := .none }) else s.thr u) := by
  have hm : (s.wg w).map Workgroup.halt = some .running := by rw [hw, Option.map_some, hh]
  have hb := broadcast_fold ((s.updWg w (fun x => { x with halt := .skidding (s.handlerOf w == 0), firstTrap := some (s.firstTrapOf t0) })).wgGroups w)
    (s.updWg w (fun x => { x with halt := .skidding (s.handlerOf w == 0), firstTrap := some (s.firstTrapOf t0) }))
  simp only [State.haltWg, hm]
  dsimp only at hb
  generalize hq : ((s.updWg w (fun x => { x with halt := .skidding (s.handlerOf w == 0), firstTrap := some (s.firstTrapOf t0) })).wgGroups w).foldl
    State.broadcast (s.updWg w (fun x => { x with halt := .skidding (s.handlerOf w == 0), firstTrap := some (s.firstTrapOf t0) })) = q at hb
  have hqw : ∀ v, q.wg v = if v = w then some { x with halt := .skidding (s.handlerOf w == 0), firstTrap := some (s.firstTrapOf t0) } else s.wg v := by
    intro v; rw [hb]; show State.wg (s.updWg w _) v = _
    rw [wg_updWg]; by_cases h : w = v
    · subst h; simp [hw]
    · simp [h, Ne.symm h]
  have hqt : ∀ u, q.thr u = s.thr u := by intro u; rw [hb]; rfl
  by_cases h : s.handlerOf w = 0
  · rw [if_pos h]
    refine ⟨by rw [hb]; rfl, by rw [hqw, if_pos rfl], fun v hv => by rw [hqw, if_neg hv], fun u => ?_⟩
    simp [h, hqt]
  · rw [if_neg h]
    have nd2 : ((t0 :: ts).filter (fun t => t.gid == t0.gid)).Nodup := nd.filter _
    rw [rest_foldl_updThr (fun _ x => { (x.goto (s.handlerOf w)) with sys := true, trapped := false, wait := .none })]
    refine ⟨by rw [hb]; rfl, ?_, fun v hv => ?_, fun u => ?_⟩
    · show q.wg w = _
      rw [hqw, if_pos rfl]
    · show q.wg v = _
      rw [hqw, if_neg hv]
    · have := thr_foldl_updThr (fun _ x => ({ (x.goto (s.handlerOf w)) with sys := true, trapped := false, wait := .none } : Thread))
        ((t0 :: ts).filter (fun t => t.gid == t0.gid)) q u nd2
      show State.thr (List.foldl _ q _) u = _
      rw [this, hqt]
      simp only [List.mem_filter, beq_iff_eq, ne_eq, h, not_false_eq_true, true_and]

theorem taken_fold (fails : List (ThreadId × TrapInfo)) (epc : Thread → DWord) (nd : (fails.map Prod.fst).Nodup) (s : State) :
    let z := fails.foldl (fun s f => s.updThr f.1 (fun x => x.takeTrap f.2 (epc x))) s
    z = { s with threads := z.threads }
      ∧ (∀ f ∈ fails, z.thr f.1 = (s.thr f.1).map (fun x => x.takeTrap f.2 (epc x)))
      ∧ ∀ t, t ∉ fails.map Prod.fst → z.thr t = s.thr t := by
  induction fails generalizing s with
  | nil => exact ⟨rfl, fun f hf => by simp at hf, fun t _ => rfl⟩
  | cons g fs ih =>
    rw [List.map_cons, List.nodup_cons] at nd
    obtain ⟨h1, h2, h3⟩ := ih nd.2 (s.updThr g.1 (fun x => x.takeTrap g.2 (epc x)))
    refine ⟨by rw [List.foldl_cons]; exact h1, fun f hf => ?_, fun t ht => ?_⟩
    · rw [List.foldl_cons]
      rcases List.mem_cons.mp hf with rfl | hf
      · rw [h3 _ nd.1, thr_updThr_self]
      · have : g.1 ≠ f.1 := fun e => nd.1 (e ▸ List.mem_map.mpr ⟨f, hf, rfl⟩)
        rw [h2 f hf, thr_updThr_ne _ this]
    · rw [List.map_cons, List.mem_cons, not_or] at ht
      rw [List.foldl_cons, h3 t ht.2, thr_updThr_ne _ (Ne.symm ht.1)]

theorem eraseDups_const {α : Type} [BEq α] [LawfulBEq α] (a : α) (l : List α) (h : ∀ x ∈ l, x = a) (hl : l ≠ []) : l.eraseDups = [a] := by
  cases l with
  | nil => exact absurd rfl hl
  | cons b l =>
    have hb := h b (List.mem_cons_self ..)
    subst hb
    rw [List.eraseDups_cons]
    have : l.filter (fun x => !x == b) = [] := by
      rw [List.filter_eq_nil_iff]
      intro x hx; simp [h x (List.mem_cons_of_mem _ hx)]
    rw [this]; rfl

/-- Taking traps at a word, in one running workgroup and in user mode. -/
theorem takeTraps_user (s : State) (issue : List ThreadId) (fails : List (ThreadId × TrapInfo)) (epc : Thread → DWord) (w : Nat)
    (ne : fails ≠ []) (nd : (fails.map Prod.fst).Nodup) (ni : issue.Nodup) (hu : UserTrap s w (fails.map Prod.fst)) :
    TrapsTaken s (s.takeTraps issue fails epc) w fails (issue.filter (fun t => !(fails.map Prod.fst).contains t && t.wg == w)) epc := by
  obtain ⟨⟨x, hx, hh⟩, hts⟩ := hu
  obtain ⟨f0, fs, rfl⟩ := List.exists_cons_of_ne_nil ne
  generalize hfails : f0 :: fs = fails at *
  have hwas : (fails.map Prod.fst).filter (fun t => ((s.thr t).map Thread.sys).getD false) = [] := by
    rw [List.filter_eq_nil_iff]
    intro t ht
    obtain ⟨-, y, hy, hs⟩ := hts t ht
    simp [hy, hs]
  have hws : ((fails.map Prod.fst).map ThreadId.wg).eraseDups = [w] := by
    refine eraseDups_const w _ (fun v hv => ?_) (by simp [← hfails])
    obtain ⟨t, ht, rfl⟩ := List.mem_map.mp hv
    exact (hts t ht).1
  obtain ⟨a1, a2, a3⟩ := taken_fold fails epc nd s
  generalize hA : fails.foldl (fun s f => s.updThr f.1 (fun x => x.takeTrap f.2 (epc x))) s = A at a1 a2 a3
  generalize hrest : issue.filter (fun t => !(fails.map Prod.fst).contains t && t.wg == w) = rest
  have hrest' : issue.filter (fun t => !(fails.map Prod.fst).contains t && [w].contains t.wg) = rest := by
    rw [← hrest]; congr 1; funext t; simp [List.contains_cons]; rfl
  have ndr : rest.Nodup := hrest ▸ ni.filter _
  have hB1 := rest_foldl_updThr (fun _ x => ({ x with stopped := true } : Thread)) rest A
  have hB2 := fun u => thr_foldl_updThr (fun _ x => ({ x with stopped := true } : Thread)) rest A u ndr
  generalize hB : rest.foldl (fun s t => s.updThr t (fun x => ({ x with stopped := true } : Thread))) A = B at hB1 hB2
  have hBw : B.wg w = some x := by rw [hB1, a1]; exact hx
  have hBh : B.handlerOf w = s.handlerOf w := by rw [hB1, a1]; rfl
  have hts2 : (fails.map Prod.fst).filter (fun t => t.wg == w && !([] : List ThreadId).contains t) = f0.1 :: fs.map Prod.fst := by
    rw [← hfails, List.map_cons, List.filter_eq_self.mpr]
    intro t ht
    have := (hts t (by rw [← hfails]; exact ht)).1
    simp [this]
  have ndf : (f0.1 :: fs.map Prod.fst).Nodup := by rw [← hfails] at nd; exact nd
  obtain ⟨c1, c2, c3, c4⟩ := haltWg_running B w f0.1 (fs.map Prod.fst) x hBw hh ndf
  have hz : s.takeTraps issue fails epc = B.haltWg w (f0.1 :: fs.map Prod.fst) := by
    unfold State.takeTraps
    simp only [hwas, hws, hA, hrest', hB, List.foldl_cons, List.foldl_nil, hts2]
  rw [hz]
  generalize B.haltWg w (f0.1 :: fs.map Prod.fst) = z at c1 c2 c3 c4
  have hmem : ∀ t, t ∈ fails.map Prod.fst ↔ t ∈ f0.1 :: fs.map Prod.fst := by intro t; rw [← hfails]; rfl
  have hnr : ∀ t ∈ rest, t ∉ fails.map Prod.fst := by
    intro t ht; rw [← hrest] at ht
    have := List.of_mem_filter ht; simp at this
    intro h; obtain ⟨f, hf, rfl⟩ := List.mem_map.mp h
    exact this.1 f.2 hf
  refine ⟨by rw [c1, hB1, a1], ?_, ?_, ?_, ?_, ?_⟩
  · intro f hf y hy
    have hft : f.1 ∈ fails.map Prod.fst := List.mem_map.mpr ⟨f, hf, rfl⟩
    obtain ⟨-, y', hy', hsys⟩ := hts f.1 hft
    rw [hy] at hy'; cases hy'
    have hb : B.thr f.1 = some { y with trapcause := trapWord f.2, epc := epc y, trapaddr := f.2.addr, trapped := true, reserved := none } := by
      rw [hB2, if_neg (fun h => hnr _ h hft), a2 f hf, hy]
      simp [Thread.takeTrap, hsys]
    rw [c4, hb, hBh]
    have hhead : (fails.head?).map (fun g => g.1.gid) = some f0.1.gid := by rw [← hfails]; rfl
    have hin := (hmem f.1).mp hft
    by_cases hc : s.handlerOf w ≠ 0 ∧ f.1.gid = f0.1.gid
    · dsimp only
      rw [if_pos ⟨hc.1, hin, hc.2⟩, hhead, if_pos ⟨hc.1, by rw [hc.2]⟩]; rfl
    · dsimp only
      rw [if_neg (fun h => hc ⟨h.1, h.2.2⟩), hhead, if_neg (fun h => hc ⟨h.1, Option.some.inj h.2⟩)]; rfl
  · intro t ht
    have hn := hnr t ht
    rw [c4, if_neg (fun h => hn ((hmem t).mpr h.2.1)), hB2, if_pos ht, a3 t hn]
  · intro t h1 h2
    rw [c4, if_neg (fun h => h1 ((hmem t).mpr h.2.1)), hB2, if_neg h2, a3 t h1]
  · intro v hv; rw [c3 v hv, hB1, a1]; rfl
  · intro y hy
    rw [hx] at hy; cases hy
    refine ⟨_, by rw [c2, hBh], fun f hf => ?_⟩
    rw [← hfails] at hf; cases hf
    have hf0 : f0.1 ∈ fails.map Prod.fst := (hmem _).mpr (List.mem_cons_self ..)
    obtain ⟨-, y', hy', hsys⟩ := hts f0.1 hf0
    have hb : B.thr f0.1 = some { y' with trapcause := trapWord f0.2, epc := epc y', trapaddr := f0.2.addr, trapped := true, reserved := none } := by
      rw [hB2, if_neg (fun h => hnr _ h hf0), a2 f0 (by rw [← hfails]; exact List.mem_cons_self ..), hy']
      simp [Thread.takeTrap, hsys]
    unfold State.firstTrapOf
    rw [hb]
    dsimp only [trapWord]
    refine ⟨rfl, ?_, ?_, rfl⟩
    · rw [BitVec.toNat_ofNat]; omega
    · rw [BitVec.toNat_ofNat]; omega

end Sys2Proof.Machine
end

