-- ==== Sys2Proof/Laws/Groups.lean ====
section
/-! SUPPORT. What an execution once per group does, in an issue group that executes it in threads of one group (R19). -/
namespace Sys2Proof.Machine

theorem executing_nodup {s : State} {i : Instr} (h : s.issue.threads.Nodup) : (s.executing i).Nodup := (h.filter _).filter _

theorem executing_issuing {s : State} {i : Instr} {t : ThreadId} (h : t ∈ s.executing i) : t ∈ s.issuing i := List.mem_of_mem_filter h

theorem groupsOf_one {ts : List ThreadId} {g : GroupId} (h : ∀ t ∈ ts, t.group = g) (ne : ts ≠ []) : groupsOf ts = [g] := by
  refine eraseDups_const g _ (fun k hk => ?_) (by simpa using ne)
  obtain ⟨t, ht, rfl⟩ := List.mem_map.mp hk
  exact h t ht

/-- How the executing threads of a group go on: past the word, or waiting at it. -/
def GroupFx.go : Option Wait → Thread → Thread
  | none => Thread.advance
  | some w => fun x => { x with wait := w }

/-- No check fails: the group acts, its executing threads go on, the other issuing threads pass. -/
theorem perGroup_one {s : State} {i : Instr} {g : GroupId} (chk : State → GroupId → List ThreadId → Option TrapInfo)
    (eff : State → GroupId → List ThreadId → GroupFx) (hr : ReadyIn s i g) (hc : chk s g (s.executing i) = none) :
    let u := (eff s g (s.executing i)).1
    let z := s.perGroup i chk eff
    z = { u with threads := z.threads } ∧ ∀ t, z.thr t = if t ∈ s.executing i then (u.thr t).map (GroupFx.go (eff s g (s.executing i)).2)
      else if t ∈ s.issuing i then (u.thr t).map Thread.advance else u.thr t := by
  obtain ⟨⟨nd, hm, hx⟩, ne, hg⟩ := hr
  have hex := executing_nodup (i := i) nd
  have hf : (s.executing i).filter (fun t => t.group == g) = s.executing i := List.filter_eq_self.mpr (fun t ht => by simp [hg t ht])
  have hreg : (s.executing i).all (fun t => s.regsOk t i) = true := List.all_eq_true.mpr (fun t ht => (hx t ht).1)
  have hz : s.perGroup i chk eff = ((s.executing i).foldl (fun (z : State) t => z.updThr t (GroupFx.go (eff s g (s.executing i)).2))
      (eff s g (s.executing i)).1).skipFalse (s.issuing i) (s.executing i) := by
    unfold State.perGroup
    simp only [hm, Bool.false_eq_true, if_false, groupsOf_one hg ne, List.flatMap_cons, List.flatMap_nil, hf, hreg, if_true, hc, List.append_nil,
      List.foldl_cons, List.foldl_nil]
    congr 1
    cases (eff s g (s.executing i)).2 <;> rfl
  dsimp only
  rw [hz]
  unfold State.skipFalse
  generalize (eff s g (s.executing i)).2 = w
  generalize (eff s g (s.executing i)).1 = u
  refine ⟨?_, fun t => ?_⟩
  · rw [rest_foldl_updThr (fun _ => Thread.advance)]
    rw [rest_foldl_updThr (fun _ => GroupFx.go w)]
  · rw [thr_foldl_updThr (fun _ => Thread.advance) _ _ _ (List.Nodup.filter _ (show (s.issuing i).Nodup from nd.filter _)), thr_foldl_updThr (fun _ => GroupFx.go w) _ _ _ hex]
    by_cases ht : t ∈ s.executing i
    · simp [ht]
    · simp [ht]

end Sys2Proof.Machine
end

