-- ==== Sys2Proof/Laws/Memory.lean ====
section
/-! SUPPORT. Memory: a read after a write, and the canonical form, which every memory operation keeps. -/
namespace Sys2Proof.Machine

/-- Every address listed is above a bound. -/
def Mem.above (n : Nat) (m : Mem) : Prop := ∀ e ∈ m, n < e.1

theorem wf_cons (a : Nat) (b : Byte) (m : Mem) :
    Mem.wf ((a, b) :: m) = true ↔ b ≠ 0 ∧ Mem.above a m ∧ Mem.wf m = true := by
  induction m generalizing a b with
  | nil => simp [Mem.wf, Mem.above]
  | cons e m ih =>
    obtain ⟨a', b'⟩ := e
    simp only [Mem.wf, Bool.and_eq_true, bne_iff_ne, ne_eq, decide_eq_true_eq]
    rw [ih]
    constructor
    · rintro ⟨⟨h1, h2⟩, h3, h4, h5⟩
      refine ⟨h1, ?_, h3, h4, h5⟩
      intro e he
      rcases List.mem_cons.mp he with h | h
      · subst h; exact h2
      · exact lt_trans h2 (h4 e h)
    · rintro ⟨h1, h2, h3, h4, h5⟩
      exact ⟨⟨h1, h2 _ (List.mem_cons_self ..)⟩, h3, h4, h5⟩

theorem rd_above {n : Nat} {m : Mem} (h : Mem.above n m) {x : Nat} (hx : x ≤ n) : Mem.rd m x = 0 := by
  induction m with
  | nil => rfl
  | cons e m ih =>
    obtain ⟨a, b⟩ := e
    have ha := h (a, b) (List.mem_cons_self ..)
    have : a ≠ x := by simp only at ha; omega
    simp only [Mem.rd, this, if_false]
    exact ih (fun e he => h e (List.mem_cons_of_mem _ he))

theorem above_wr {n : Nat} {m : Mem} (h : Mem.above n m) {x : Nat} (hx : n < x) (v : Byte) : Mem.above n (Mem.wr m x v) := by
  induction m with
  | nil =>
    simp only [Mem.wr]; split
    · exact h
    · intro e he; simp at he; subst he; exact hx
  | cons e m ih =>
    obtain ⟨a, b⟩ := e
    have ht : Mem.above n m := fun e he => h e (List.mem_cons_of_mem _ he)
    have ha : n < a := h (a, b) (List.mem_cons_self ..)
    simp only [Mem.wr]
    intro e he
    split_ifs at he
    · exact h e he
    · rcases List.mem_cons.mp he with h' | h'
      · subst h'; exact hx
      · exact h e h'
    · exact ht e he
    · rcases List.mem_cons.mp he with h' | h'
      · subst h'; exact ha
      · exact ht e h'
    · rcases List.mem_cons.mp he with h' | h'
      · subst h'; exact ha
      · exact ih ht e h'

/-- Writing a byte keeps the canonical form. -/
theorem wf_wr {m : Mem} (h : Mem.wf m = true) (x : Nat) (v : Byte) : Mem.wf (Mem.wr m x v) = true := by
  induction m with
  | nil =>
    simp only [Mem.wr]; split
    · rfl
    · rename_i hv; simpa [Mem.wf] using hv
  | cons e m ih =>
    obtain ⟨a, b⟩ := e
    obtain ⟨hb, hab, hm⟩ := (wf_cons a b m).mp h
    simp only [Mem.wr]
    split_ifs with h1 h2 h3 h4
    · exact h
    · refine (wf_cons _ _ _).mpr ⟨h2, ?_, h⟩
      intro e he
      rcases List.mem_cons.mp he with h' | h'
      · subst h'; exact h1
      · exact lt_trans h1 (hab e h')
    · exact hm
    · exact (wf_cons _ _ _).mpr ⟨h4, hab, hm⟩
    · exact (wf_cons _ _ _).mpr ⟨hb, above_wr hab (by omega) v, ih hm⟩

/-- Writing bytes keeps the canonical form. -/
theorem wf_wrN {m : Mem} (h : Mem.wf m = true) (x : Nat) (bs : List Byte) : Mem.wf (Mem.wrN m x bs) = true := by
  induction bs generalizing m x with
  | nil => exact h
  | cons b bs ih => exact ih (wf_wr h x b) _

/-- A byte written is read back, and every other byte is as before. -/
theorem rd_wr {m : Mem} (h : Mem.wf m = true) (x : Nat) (v : Byte) (y : Nat) :
    Mem.rd (Mem.wr m x v) y = if y = x then v else Mem.rd m y := by
  induction m with
  | nil =>
    rcases eq_or_ne v 0 with hv | hv
    · rw [Mem.wr, if_pos hv]; split <;> simp_all [Mem.rd]
    · rw [Mem.wr, if_neg hv]; simp only [Mem.rd, eq_comm]
  | cons e m ih =>
    obtain ⟨a, b⟩ := e
    obtain ⟨hb, hab, hm⟩ := (wf_cons a b m).mp h
    rw [Mem.wr]
    rcases lt_trichotomy x a with h1 | h1 | h1
    · have hx : Mem.rd ((a, b) :: m) x = 0 := by
        rw [Mem.rd, if_neg (by omega)]; exact rd_above hab (by omega)
      rw [if_pos h1]
      rcases eq_or_ne v 0 with hv | hv
      · rw [if_pos hv]; split
        · rename_i hy; rw [hy, hx, hv]
        · rfl
      · rw [if_neg hv, Mem.rd]; simp only [eq_comm]
    · subst h1
      rw [if_neg (lt_irrefl _), if_pos rfl]
      rcases eq_or_ne v 0 with hv | hv
      · rw [if_pos hv, Mem.rd]; split
        · rename_i hy; rw [hy, hv]; exact rd_above hab le_rfl
        · rename_i hy; rw [if_neg (Ne.symm hy)]
      · rw [if_neg hv, Mem.rd, Mem.rd]; split <;> split <;> first | rfl | omega
    · rw [if_neg (by omega), if_neg (by omega), Mem.rd, Mem.rd, ih hm]
      split <;> split <;> first | rfl | omega

/-- Bytes written are read back; the others are as before. -/
theorem rd_wrN {m : Mem} (h : Mem.wf m = true) (x : Nat) (bs : List Byte) (y : Nat) :
    Mem.rd (Mem.wrN m x bs) y = if x ≤ y ∧ y < x + bs.length then bs.getD (y - x) 0 else Mem.rd m y := by
  induction bs generalizing m x with
  | nil => simp [Mem.wrN]
  | cons b bs ih =>
    simp only [Mem.wrN, ih (wf_wr h x b), rd_wr h, List.length_cons]
    by_cases h1 : y = x
    · subst h1; simp
    · by_cases h2 : x + 1 ≤ y ∧ y < x + 1 + bs.length
      · have h3 : x ≤ y ∧ y < x + (bs.length + 1) := by omega
        have h4 : y - x = (y - (x + 1)) + 1 := by omega
        simp only [h2, h3, and_self, if_true, h4, List.getD_cons_succ]
      · have h3 : ¬(x ≤ y ∧ y < x + (bs.length + 1)) := by omega
        simp only [h2, h3, h1, if_false]

/-- Two memories in canonical form that read alike are equal. -/
theorem mem_ext {m m' : Mem} (h : Mem.wf m = true) (h' : Mem.wf m' = true) (e : ∀ x, Mem.rd m x = Mem.rd m' x) : m = m' := by
  induction m generalizing m' with
  | nil =>
    cases m' with
    | nil => rfl
    | cons p m' =>
      obtain ⟨a, b⟩ := p
      obtain ⟨hb, -, -⟩ := (wf_cons a b m').mp h'
      have := e a; simp [Mem.rd] at this; exact absurd this.symm hb
  | cons p m ih =>
    obtain ⟨a, b⟩ := p
    obtain ⟨hb, hab, hm⟩ := (wf_cons a b m).mp h
    cases m' with
    | nil => have := e a; simp [Mem.rd] at this; exact absurd this hb
    | cons p' m' =>
      obtain ⟨a', b'⟩ := p'
      obtain ⟨hb', hab', hm'⟩ := (wf_cons a' b' m').mp h'
      have haa : a = a' := by
        rcases lt_trichotomy a a' with hl | hl | hl
        · have := e a
          have hne : a' ≠ a := by omega
          simp only [Mem.rd, if_true, hne, if_false, rd_above hab' (le_of_lt hl)] at this
          exact absurd this hb
        · exact hl
        · have := e a'
          have hne : a ≠ a' := by omega
          simp only [Mem.rd, if_true, hne, if_false, rd_above hab (le_of_lt hl)] at this
          exact absurd this.symm hb'
      subst haa
      have hbb : b = b' := by have := e a; simpa [Mem.rd] using this
      subst hbb
      congr 1
      refine ih hm hm' (fun x => ?_)
      by_cases hx : x ≤ a
      · rw [rd_above hab hx, rd_above hab' hx]
      · have := e x
        have hne : a ≠ x := by omega
        simpa [Mem.rd, hne] using this

theorem above_ofBytes (a k : Nat) (bs : List Byte) :
    ∀ e ∈ ((bs.zipIdx k).filter (fun p => p.1 != 0)).map (fun p => (a + p.2, p.1)), a + k ≤ e.1 := by
  intro e he
  simp only [List.mem_map, List.mem_filter] at he
  obtain ⟨p, ⟨hp, -⟩, rfl⟩ := he
  have := List.le_snd_of_mem_zipIdx hp
  simp only; omega

/-- The canonical form of a run of bytes. -/
theorem wf_ofBytes (a : Nat) (bs : List Byte) : Mem.wf (Mem.ofBytes a bs) = true := by
  unfold Mem.ofBytes
  suffices h : ∀ k, Mem.wf (((bs.zipIdx k).filter (fun p => p.1 != 0)).map (fun p => (a + p.2, p.1))) = true from h 0
  induction bs with
  | nil => intro k; rfl
  | cons b bs ih =>
    intro k
    simp only [List.zipIdx_cons, List.filter_cons]
    split
    · rename_i hb
      simp only [List.map_cons]
      refine (wf_cons _ _ _).mpr ⟨by simpa using hb, ?_, ih (k + 1)⟩
      intro e he
      have := above_ofBytes a (k + 1) bs e he
      omega
    · exact ih (k + 1)

theorem reset_mem_wf : Mem.wf State.reset.mem = true := rfl

end Sys2Proof.Machine
end

