-- ==== Sys2Proof/Laws/MemorySystem.lean ====
section
/-! SUPPORT. What the operations of the memory system can change: the caches, the dies and memory, and no other part of the state; memory
keeps its canonical form (`MemoryOnly`). -/
namespace Sys2Proof.Machine

theorem MemoryOnly.refl (s : State) : MemoryOnly s s := ⟨rfl, id⟩

theorem MemoryOnly.trans {a b c : State} (h : MemoryOnly a b) (g : MemoryOnly b c) : MemoryOnly a c := by
  obtain ⟨h1, h2⟩ := h
  obtain ⟨g1, g2⟩ := g
  exact ⟨by rw [g1, h1], fun w => g2 (h2 w)⟩

theorem MemoryOnly.foldl {α : Type} (f : State → α → State) (h : ∀ s x, MemoryOnly s (f s x)) (xs : List α) (s : State) :
    MemoryOnly s (xs.foldl f s) := by
  induction xs generalizing s with
  | nil => exact .refl s
  | cons x xs ih => exact (h s x).trans (ih _)

theorem MemoryOnly.updCore (s : State) (c : Nat) (f : Core → Core) : MemoryOnly s (s.updCore c f) := ⟨rfl, id⟩
theorem MemoryOnly.updDie (s : State) (d : Nat) (f : Die → Die) : MemoryOnly s (s.updDie d f) := ⟨rfl, id⟩
theorem MemoryOnly.bump (s : State) : MemoryOnly s s.bump := ⟨rfl, id⟩
theorem MemoryOnly.wrN (s : State) (a : Nat) (bs : List Byte) : MemoryOnly s { s with mem := Mem.wrN s.mem a bs } := ⟨rfl, fun h => wf_wrN h _ _⟩
theorem MemoryOnly.inv (s : State) (l : List (Nat × Nat)) : MemoryOnly s { s with invMsgs := l } := ⟨rfl, id⟩
theorem MemoryOnly.inj (s : State) (l : List InjMsg) : MemoryOnly s { s with injMsgs := l } := ⟨rfl, id⟩
theorem MemoryOnly.kind (s : State) (l : List (Nat × (Bool × Bool))) : MemoryOnly s { s with kinds := l } := ⟨rfl, id⟩
theorem MemoryOnly.found (s : State) (l : List Nat) : MemoryOnly s { s with lost := l } := ⟨rfl, id⟩

theorem l1Put_only (s : State) (c : Nat) (l : L1Line) : MemoryOnly s (s.l1Put c l) := .updCore ..
theorem l1Del_only (s : State) (c line : Nat) : MemoryOnly s (s.l1Del c line) := .updCore ..

theorem dropCopy_only (s : State) (c line : Nat) : MemoryOnly s (s.dropCopy c line) := by
  unfold State.dropCopy; split
  · exact .updCore ..
  · exact .refl s

theorem deliverInv_only (s : State) (d line : Nat) : MemoryOnly s (s.deliverInv d line) := by
  unfold State.deliverInv
  exact (MemoryOnly.foldl (fun s (m : Nat × Nat) => s.dropCopy m.1 m.2) (fun s m => dropCopy_only s _ _) _ s).trans (.inv _ _)

theorem invalCopies_only (s : State) (d line : Nat) (keep : BitVec 32) : MemoryOnly s (s.invalCopies d line keep) := by
  unfold State.invalCopies
  refine (deliverInv_only s d line).trans ?_
  dsimp only
  split
  · exact .inj _ _
  · refine (MemoryOnly.inj _ _).trans (MemoryOnly.trans (MemoryOnly.foldl _ (fun s k => ?_) _ _) (.updDie ..))
    split
    · exact dropCopy_only ..
    · exact .refl _

theorem homeWrite_only (s : State) (pa : Nat) (bs : List Byte) (d : Nat) (keep : BitVec 32) : MemoryOnly s (s.homeWrite pa bs d keep) := by
  unfold State.homeWrite
  refine MemoryOnly.trans ?_ (.wrN _ _ _)
  split
  · refine MemoryOnly.foldl _ (fun s k => ?_) _ _
    split
    · exact invalCopies_only ..
    · exact .refl _
  · exact .refl _

theorem dirTouch_only (s : State) (d pa : Nat) (w : Bool) : MemoryOnly s (s.dirTouch d pa w) := by
  unfold State.dirTouch
  split
  · exact .refl s
  · dsimp only
    split
    · refine MemoryOnly.trans (b := (List.range 4).foldl (fun s k => if k = d then s else s.invalCopies k (lineOf pa)) s)
        (MemoryOnly.foldl _ (fun s k => ?_) _ _) ?_
      · split
        · exact .refl _
        · exact invalCopies_only ..
      · split <;> exact .updDie ..
    · split
      · split
        · exact .updDie ..
        · exact .refl s
      · exact .updDie ..

theorem scramble_only (s : State) (line : Nat) : MemoryOnly s (s.scramble line) :=
  ((MemoryOnly.foldl _ (fun s _ => MemoryOnly.updDie s _ _) _ s).trans (.wrN ..)).trans (.bump _)

theorem meetKinds_only (s : State) (pa : Nat) (a : PageAttr) : MemoryOnly s (s.meetKinds pa a) := by
  unfold State.meetKinds
  dsimp only
  split
  · exact .refl s
  · split
    · exact (MemoryOnly.kind ..).trans (scramble_only ..)
    · exact .kind ..

theorem maskedWrite_only (wr : State → Nat → List Byte → State) (h : ∀ s a b, MemoryOnly s (wr s a b)) (s : State) (line : Nat) (x : BitVec 1024)
    (m : BitVec 128) : MemoryOnly s (State.maskedWrite wr s line x m) := by
  unfold State.maskedWrite
  refine MemoryOnly.foldl _ (fun s i => ?_) _ _
  split
  · exact h ..
  · exact .refl s

theorem l2WriteBack_only (s : State) (d line : Nat) (m : BitVec 128) : MemoryOnly s (s.l2WriteBack d line m) := by
  unfold State.l2WriteBack
  split
  · exact .refl s
  · exact (maskedWrite_only _ (fun s a b => homeWrite_only s a b _ _) ..).trans (.updDie ..)

theorem evict_only (s : State) (d line : Nat) : MemoryOnly s (s.evict d line) := by
  unfold State.evict
  split
  · exact .refl s
  · exact ((MemoryOnly.inv ..).trans (.updDie ..)).trans ((l2WriteBack_only ..).trans (.updDie ..))

theorem l2Room_only (s : State) (d line : Nat) : MemoryOnly s (s.l2Room d line) := by
  unfold State.l2Room
  dsimp only
  split
  · exact .refl s
  · split
    · exact .refl s
    · exact (MemoryOnly.bump s).trans (evict_only ..)

theorem l2Fill_only (s : State) (d pa : Nat) (rg : Option Nat) : MemoryOnly s (s.l2Fill d pa rg) := by
  unfold State.l2Fill
  dsimp only
  split
  · exact l2Room_only ..
  · exact (l2Room_only ..).trans (.updDie ..)

theorem l2Read_only (s : State) (d pa n : Nat) (a : PageAttr) : MemoryOnly s (s.l2Read d pa n a).1 := by
  unfold State.l2Read
  refine (meetKinds_only s pa a).trans ?_
  dsimp only
  split
  · exact l2Fill_only ..
  · dsimp only; split
    · exact dirTouch_only ..
    · exact .refl _

theorem l2Write_only (s : State) (d pa : Nat) (a : PageAttr) (bs : List Byte) (keep : BitVec 32) : MemoryOnly s (s.l2Write d pa a bs keep) := by
  unfold State.l2Write
  refine (meetKinds_only s pa a).trans ?_
  dsimp only
  split
  · exact ((MemoryOnly.wrN _ pa bs).trans (invalCopies_only ..)).trans (.updDie ..)
  · split
    · exact ((invalCopies_only ..).trans (l2Room_only ..)).trans (.updDie ..)
    · refine MemoryOnly.trans ?_ (homeWrite_only ..)
      split
      · exact dirTouch_only ..
      · exact .refl _

theorem l1WriteBack_only (s : State) (c : Nat) (l : L1Line) : MemoryOnly s (s.l1WriteBack c l) := by
  unfold State.l1WriteBack
  split
  · exact .refl s
  · dsimp only
    refine MemoryOnly.trans (maskedWrite_only (fun s a b => s.l2Write (c / 32) a l.attr b) (fun s a b => l2Write_only s _ a _ b 0) s l.line l.data l.dirty) ?_
    split
    · exact .refl _
    · exact .updCore ..

theorem l1Pass_only (s : State) (c line k : Nat) : MemoryOnly s (s.l1Pass c line k).1 := by
  induction k generalizing s with
  | zero => exact .bump s
  | succ k ih =>
    unfold State.l1Pass
    dsimp only
    split
    · exact ((MemoryOnly.bump s).trans (l1Put_only ..)).trans (ih _)
    · exact .bump s

theorem l1Way_only (s : State) (c line : Nat) : MemoryOnly s (s.l1Way c line).1 := by
  unfold State.l1Way
  split
  · exact .refl s
  · have hr : MemoryOnly s (match (s.l1Set c line).find? (fun (l : L1Line) => l.rank == Hint.stream) with
        | some l => (s, l.way)
        | none => s.l1Pass c line (8 - s.quota c)).1 := by
      split
      · exact .refl s
      · exact l1Pass_only ..
    dsimp only
    split
    · exact hr
    · exact hr.trans ((l1WriteBack_only ..).trans (l1Del_only ..))

theorem l1Alloc_only (s : State) (c line : Nat) (a : PageAttr) (ch : Hint) : MemoryOnly s (s.l1Alloc c line a ch).1 := by
  unfold State.l1Alloc
  split
  · exact .refl s
  · exact l1Way_only ..

theorem l1Refresh_only (s : State) (c pa : Nat) (bs : List Byte) : MemoryOnly s (s.l1Refresh c pa bs) := by
  unfold State.l1Refresh
  split
  · exact .refl s
  · exact l1Put_only ..

theorem bypassRead_only (s : State) (c pa n : Nat) (a : PageAttr) : MemoryOnly s (s.bypassRead c pa n a).1 :=
  (l2Read_only ..).trans (l1Refresh_only ..)

theorem l1Read_only (s : State) (c pa n : Nat) (a : PageAttr) (ch : Hint) : MemoryOnly s (s.l1Read c pa n a ch).1 := by
  unfold State.l1Read
  split
  · exact bypassRead_only ..
  · dsimp only
    refine (l1Alloc_only s c (lineOf pa) a ch).trans ?_
    split
    · exact l1Put_only ..
    · exact (l2Read_only ..).trans (l1Put_only ..)

theorem l1Update_only (s : State) (c pa : Nat) (bs : List Byte) : MemoryOnly s (s.l1Update c pa bs) := by
  unfold State.l1Update
  split
  · exact .refl s
  · exact .updCore ..

theorem bypassWrite_only (s : State) (c pa : Nat) (a : PageAttr) (bs : List Byte) (keep : BitVec 32) :
    MemoryOnly s (s.bypassWrite c pa a bs keep) := (l2Write_only ..).trans (l1Update_only ..)

theorem l1Write_only (s : State) (c tag pa : Nat) (a : PageAttr) (ch : Hint) (bs : List Byte) : MemoryOnly s (s.l1Write c tag pa a ch bs) := by
  unfold State.l1Write
  split
  · exact bypassWrite_only ..
  · exact (l1Alloc_only ..).trans (l1Put_only ..)

theorem writeBackTag_only (s : State) (c tag : Nat) : MemoryOnly s (s.writeBackTag c tag) := by
  unfold State.writeBackTag
  exact MemoryOnly.foldl _ (fun s l => l1WriteBack_only s c l) _ _

/-- A release writes back and does nothing else. -/
theorem release_only (s : State) (c tag : Nat) (sc : Scope) : MemoryOnly s (s.release c tag sc) := by
  unfold State.release
  split
  · exact writeBackTag_only ..
  · exact .refl s

theorem releaseTags_only (s : State) (c : Nat) (tags : List Nat) (sc : Scope) : MemoryOnly s (s.releaseTags c tags sc) :=
  MemoryOnly.foldl _ (fun s t => release_only s c t sc) _ _

/-- An acquire drops clean copies and does nothing else. -/
theorem acquire_only (s : State) (c : Nat) (sc : Scope) : MemoryOnly s (s.acquire c sc) := by
  unfold State.acquire
  split
  · dsimp only
    split
    · exact (MemoryOnly.updCore ..).trans (.updDie ..)
    · exact .updCore ..
  · exact .refl s

/-- A walk may cache what it passes and does nothing else. -/
theorem walkTo_only (s : State) (d ctx va : Nat) (nd : Need) : MemoryOnly s (s.walkTo d ctx va nd).1 := by
  unfold State.walkTo
  dsimp only
  split
  · exact .bump s
  · split
    · exact .bump s
    · split <;> exact (MemoryOnly.bump s).trans (.updDie ..)

theorem meetSector_only (s : State) (va : Nat) (nd : Need) (x : Xl) : MemoryOnly s (s.meetSector va nd x).1 := by
  unfold State.meetSector
  split
  · exact .refl s
  · split
    · exact .refl s
    · exact .found ..

theorem meet_only {s : State} {r : State × Except XFault Xl} (h : MemoryOnly s r.1) (va : Nat) (nd : Need) : MemoryOnly s (State.meet r va nd).1 := by
  obtain ⟨u, e | x⟩ := r
  · exact h
  · exact h.trans (meetSector_only ..)

/-- A translation may cache entries and meet a lost sector, and does nothing else. -/
theorem xlate_only (s : State) (d ctx va : Nat) (nd : Need) : MemoryOnly s (s.xlate d ctx va nd).1 := meet_only (walkTo_only s d ctx va nd) va nd

theorem l1Flush_only (s : State) (c line : Nat) : MemoryOnly s (s.l1Flush c line) := by
  unfold State.l1Flush
  split
  · exact .refl s
  · exact (l1WriteBack_only ..).trans (l1Del_only ..)

theorem levelRead_only (sc : Scope) (ord : Ord3) (ch : Hint) (c : Nat) (s : State) (pa n : Nat) (a : PageAttr) :
    MemoryOnly s (levelRead sc ord ch c s pa n a).1 := by
  unfold levelRead
  split
  · exact l1Read_only ..
  · split
    · exact (MemoryOnly.updDie ..).trans (l1Refresh_only ..)
    · exact bypassRead_only ..

theorem levelWrite_only (sc : Scope) (ord : Ord3) (ch : Hint) (c tag : Nat) (s : State) (pa : Nat) (a : PageAttr) (bs : List Byte) :
    MemoryOnly s (levelWrite sc ord ch c tag s pa a bs) := by
  unfold levelWrite
  split
  · exact l1Write_only ..
  · exact bypassWrite_only ..

theorem physWrite_only (s : State) (pa : Nat) (bs : List Byte) : MemoryOnly s (s.physWrite pa bs) := by
  unfold State.physWrite
  exact MemoryOnly.foldl _ (fun s i => homeWrite_only s _ _ _ _) _ _

theorem globRead_only (s : State) (d ctx va : Nat) (nd : Need) (n : Nat) : MemoryOnly s (s.globRead d ctx va nd n).1 := by
  induction n generalizing s va with
  | zero => exact .refl s
  | succ n ih =>
    have hx := xlate_only s d ctx va nd
    rw [State.globRead]
    generalize s.xlate d ctx va nd = p at hx ⊢
    obtain ⟨u, r⟩ := p
    cases r with
    | error f => exact hx
    | ok x =>
      dsimp only at hx ⊢
      have hl := l2Read_only u d x.pa 1 x.attr
      have hi := ih (u.l2Read d x.pa 1 x.attr).1 (va + 1)
      generalize (u.l2Read d x.pa 1 x.attr).1.globRead d ctx (va + 1) nd n = q at hi ⊢
      obtain ⟨v, e⟩ := q
      cases e <;> exact (hx.trans hl).trans hi

theorem globWrite_only (s : State) (d ctx va : Nat) (nd : Need) (bs : List Byte) : MemoryOnly s (s.globWrite d ctx va nd bs).1 := by
  induction bs generalizing s va with
  | nil => exact .refl s
  | cons b bs ih =>
    have hx := xlate_only s d ctx va nd
    rw [State.globWrite]
    generalize s.xlate d ctx va nd = p at hx ⊢
    obtain ⟨u, r⟩ := p
    cases r with
    | error f => exact hx
    | ok x => exact (hx.trans (l2Write_only ..)).trans (ih ..)

end Sys2Proof.Machine
end

