-- ==== Sys2Proof/Laws/Threads.lean ====
section
/-! SUPPORT. Words that only move threads, and words that trap. -/
namespace Sys2Proof.Machine

/-- A word whose lanes change their own threads only. -/
theorem lanes_go {s : State} {i : Instr} (lane : State → List ThreadId → ThreadId → LaneRes) (f : ThreadId → Thread → Thread)
    (fx : ThreadId → LaneFx) (hr : Ready s i)
    (hl : ∀ t ∈ s.executing i, lane s (s.executing i) t = .fx (fx t) ∧ (fx t).accs = [] ∧ (fx t).ss = [])
    (hf : ∀ t ∈ s.executing i, ∀ x, s.thr t = some x → (fx t).onThread x = f t x) :
    s.lanes i lane = { s with threads := (s.lanes i lane).threads } ∧ ThreadsGo s (s.lanes i lane) i f := by
  obtain ⟨nd, hm, hx⟩ := hr
  obtain ⟨h1, h2, -⟩ := lanes_effect s i lane nd hm fx (fun t ht => ⟨(hx t ht).1, (hl t ht).1, (hl t ht).2.1⟩)
  have h4 := lanes_groups s i lane hm fx (fun t ht => ⟨(hx t ht).1, (hl t ht).1, (hl t ht).2.1, (hl t ht).2.2⟩)
  refine ⟨by rw [h1, h4], fun t => ?_⟩
  rw [h2]
  split
  · rename_i ht
    obtain ⟨-, ⟨x, hx1, -⟩, -⟩ := hx t ht
    rw [hx1, Option.map_some, Option.map_some, hf t ht x hx1]
  · rfl

theorem trapsOf_filter (ex : List ThreadId) (lane : ThreadId → LaneRes) (p : ThreadId → Bool) (tr : ThreadId → TrapInfo)
    (h : ∀ t ∈ ex, if p t then lane t = .trap (tr t) else ∃ e, lane t = .fx e) :
    trapsOf (ex.map (fun t => (t, lane t))) = (ex.filter p).map (fun t => (t, tr t)) := by
  induction ex with
  | nil => rfl
  | cons t ts ih =>
    have h0 := h t (List.mem_cons_self ..)
    have := ih (fun u hu => h u (List.mem_cons_of_mem _ hu))
    rw [List.map_cons, List.filter_cons]
    by_cases hp : p t = true
    · rw [if_pos hp] at h0; simp [hp, h0, trapsOf, this]
    · rw [if_neg hp] at h0; obtain ⟨e, he⟩ := h0; simp [hp, he, trapsOf, this]

/-- A word on some lanes of which a check fails: those trap, the rest of the issue group stops. -/
theorem trap_word {s : State} {i : Instr} {w : Nat} (lane : State → List ThreadId → ThreadId → LaneRes) (post : State → List ThreadId → State)
    (p : ThreadId → Bool) (tr : ThreadId → TrapInfo) (hr : Ready s i)
    (h : ∀ t ∈ s.executing i, if p t then lane s (s.executing i) t = .trap (tr t) else ∃ e, lane s (s.executing i) t = .fx e)
    (ne : (s.executing i).filter p ≠ []) (hu : UserTrap s w ((s.executing i).filter p)) :
    TrapsTaken s (s.lanesThen i lane post) w (((s.executing i).filter p).map (fun t => (t, tr t)))
      ((s.issuing i).filter (fun t => !((s.executing i).filter p).contains t && t.wg == w)) Thread.pc := by
  obtain ⟨nd, hm, hx⟩ := hr
  have e1 : trapsOf ((s.executing i).map (fun t => (t, if s.regsOk t i then lane s (s.executing i) t else .trap illegalInstr)))
      = ((s.executing i).filter p).map (fun t => (t, tr t)) := by
    refine trapsOf_filter _ _ p tr (fun t ht => ?_)
    simp only [(hx t ht).1, if_true]; exact h t ht
  obtain ⟨t0, ts, e2⟩ := List.exists_cons_of_ne_nil ne
  have e3 : ((s.executing i).filter p).map (fun t => (t, tr t)) = (t0, tr t0) :: ts.map (fun t => (t, tr t)) := by rw [e2]; rfl
  rw [lanesThen_trap s i lane post hm (e1.trans e3), ← e3]
  have e4 : (((s.executing i).filter p).map (fun t => (t, tr t))).map Prod.fst = (s.executing i).filter p := by
    simp [List.map_map, Function.comp_def]
  have := takeTraps_user s (s.issuing i) (((s.executing i).filter p).map (fun t => (t, tr t))) Thread.pc w (by simpa using ne)
    (by rw [e4]; exact (executing_nodup nd).filter _) (nd.filter _) (by rw [e4]; exact hu)
  rw [e4] at this
  exact this

end Sys2Proof.Machine
end

