-- ==== Sys2Proof/Laws/Translation.lean ====
section
/-! SUPPORT. What translation does where a context maps the first GiB to itself, and what reads then give. -/
namespace Sys2Proof.Machine

/-- The one leaf of that map: R, W and X, 1 GiB, at frame 0. -/
def gibLeaf : TlbEntry := ⟨0, 0, 2 ^ 30, 0x8F⟩

/-- Its two non-leaf entries. -/
def gibPath : List WalkEntry := [⟨0, 1, 0, 0x9001⟩, ⟨0, 2, 0, 0xA001⟩]

/-- Context 0 maps the first GiB to itself through tables at 0x8000, 0x9000 and 0xA000, no other translation is cached, and no sector is lost. -/
def Identity (s : State) : Prop :=
  (∃ c, mget s.contexts 0 = some c ∧ c.root = 0x8000) ∧ leNat (Mem.rdN s.mem 0x8000 8) = 0x9001 ∧ leNat (Mem.rdN s.mem 0x9000 8) = 0xA001
    ∧ leNat (Mem.rdN s.mem 0xA000 8) = 0x8F ∧ (∀ d, ∀ e ∈ (s.die d).tlb, e = gibLeaf) ∧ (∀ d, ∀ w ∈ (s.die d).walk, w ∈ gibPath) ∧ s.lost = []

theorem walkEntry_path {s : State} {wc : List WalkEntry} (hw : ∀ w ∈ wc, w ∈ gibPath) {va lvl shift at' v : Nat} (hm : leNat (Mem.rdN s.mem at' 8) = v)
    (hv : ∀ w ∈ gibPath, w.lvl = lvl → w.pte = v) : walkEntry s wc va lvl shift at' = v := by
  unfold walkEntry
  split
  · rename_i w h
    have := List.find?_some h
    simp only [Bool.and_eq_true, beq_iff_eq] at this
    exact hv w (hw w (List.mem_of_find?_eq_some h)) this.1
  · exact hm

theorem walk_identity {s : State} (h1 : leNat (Mem.rdN s.mem 0x8000 8) = 0x9001) (h2 : leNat (Mem.rdN s.mem 0x9000 8) = 0xA001)
    (h3 : leNat (Mem.rdN s.mem 0xA000 8) = 0x8F) {wc : List WalkEntry} (hw : ∀ w ∈ wc, w ∈ gibPath) (va : Nat) (h : va < 2 ^ 30) :
    walkGo s wc va walkLevels 0x8000 = .ok (0x8F, 0, 2 ^ 30) ∧ walkPath s wc 0 va walkLevels 0x8000 = gibPath := by
  have a1 : va / 2 ^ 48 % 2 ^ 12 = 0 := by omega
  have a2 : va / 2 ^ 39 % 2 ^ 9 = 0 := by omega
  have a3 : va / 2 ^ 30 % 2 ^ 9 = 0 := by omega
  have a4 : va / 2 ^ 30 * 2 ^ 30 = 0 := by omega
  have b1 : (0x9001 : Nat).testBit 0 = true ∧ (0x9001 : Nat).testBit 7 = false ∧ isTable 0x9001 = true ∧ pteFrame 0x9001 = 0x9000 := by decide
  have b2 : (0xA001 : Nat).testBit 0 = true ∧ (0xA001 : Nat).testBit 7 = false ∧ isTable 0xA001 = true ∧ pteFrame 0xA001 = 0xA000 := by decide
  have b3 : (0x8F : Nat).testBit 0 = true ∧ (0x8F : Nat).testBit 7 = true ∧ leafBad 0x8F (2 ^ 30) = false ∧ isTable 0x8F = false := by decide
  obtain ⟨b11, b12, b13, b14⟩ := b1
  obtain ⟨b21, b22, b23, b24⟩ := b2
  obtain ⟨b31, b32, b33, b34⟩ := b3
  have e1 : walkEntry s wc va 1 48 0x8000 = 0x9001 := walkEntry_path hw h1 (by decide)
  have e2 : walkEntry s wc va 2 39 0x9000 = 0xA001 := walkEntry_path hw h2 (by decide)
  have e3 : walkEntry s wc va 3 30 0xA000 = 0x8F := walkEntry_path hw h3 (by decide)
  have k1 : va / 2 ^ 48 = 0 := by omega
  have k2 : va / 2 ^ 39 = 0 := by omega
  constructor
  · simp only [walkLevels, walkGo, a1, a2, a3, a4, Nat.mul_zero, Nat.add_zero, e1, b11, b12, b13, b14, e2, b21, b22, b23, b24, e3, b31, b32, b33]
    rfl
  · simp only [walkLevels, walkPath, a3, Nat.mul_zero, Nat.add_zero, Nat.zero_mod, e1, b13, b14, e2, b23, b24, e3, b34, k1, k2]
    rfl

/-- The state differs only in cached translations and the draw counter. -/
def Cached (s u : State) : Prop :=
  u = { s with dies := u.dies, fresh := u.fresh } ∧ u.dies.length = s.dies.length ∧ ∀ d, ∃ l w, u.die d = { s.die d with tlb := l, walk := w }

theorem Cached.refl (s : State) : Cached s s := ⟨rfl, rfl, fun _ => ⟨_, _, rfl⟩⟩
theorem Cached.trans {a b c : State} (h : Cached a b) (g : Cached b c) : Cached a c := by
  obtain ⟨h1, h2, h3⟩ := h
  obtain ⟨g1, g2, g3⟩ := g
  refine ⟨by rw [g1, h1], by rw [g2, h2], fun d => ?_⟩
  obtain ⟨_, _, e⟩ := h3 d
  obtain ⟨m, n, f⟩ := g3 d
  exact ⟨m, n, by rw [f, e]⟩

theorem die_updDie (s : State) (d k : Nat) (f : Die → Die) : (s.updDie d f).die k = if d = k ∧ k < s.dies.length then f (s.die k) else s.die k := by
  simp only [State.die, State.updDie, List.getD_eq_getElem?_getD, lmod_getElem?]
  by_cases h : d = k
  · subst h
    by_cases g : d < s.dies.length
    · simp [g]
    · simp [g]
  · simp [h]

/-- Translation under the map. -/
theorem xlate_identity {s : State} (h : Identity s) (d va : Nat) (hv : va < 2 ^ 30) (nd : Need) :
    ∃ u, s.xlate d 0 va nd = (u, .ok ⟨va, ⟨false, false, 0, none⟩, 0, 2 ^ 30, 0x8F⟩) ∧ Cached s u ∧ Identity u ∧ u.mem = s.mem := by
  obtain ⟨⟨c, hc, hr⟩, h1, h2, h3, ht, hwk, hlost⟩ := h
  have leaf : ∀ v : State, useLeaf v 0 va nd 0x8F 0 (2 ^ 30) = .ok ⟨va, ⟨false, false, 0, none⟩, 0, 2 ^ 30, 0x8F⟩ := by
    intro v
    have hm : inMap va = true := by
      have g1 : va / dieStride < 4 := by have : va / dieStride = 0 := Nat.div_eq_of_lt (by unfold dieStride; omega); omega
      have g2 : va % dieStride < dieBytes := by rw [Nat.mod_eq_of_lt (by unfold dieStride; omega)]; unfold dieBytes; omega
      simp [inMap, inDevice, homeDie, g1, g2]
    have f0 : pteFrame 0x8F = 0 := by decide
    have b : (0x8F : Nat).testBit 1 = true ∧ (0x8F : Nat).testBit 2 = true ∧ (0x8F : Nat).testBit 3 = true ∧ (0x8F : Nat).testBit 10 = false
        ∧ (0x8F : Nat).testBit 11 = false ∧ (0x8F : Nat).testBit 8 = false ∧ (0x8F : Nat).testBit 9 = false := by decide
    obtain ⟨b1, b2, b3, b4, b5, b6, b7⟩ := b
    simp only [useLeaf, b1, b2, b3, b4, b5, b6, b7, f0, Bool.not_true, Bool.and_false, Nat.sub_zero, Nat.zero_add, hm]
    rfl
  have hits : ∀ w ∈ s.bump.walkHits d 0, w ∈ gibPath := by
    intro w hw
    simp only [State.walkHits, List.mem_filterMap] at hw
    obtain ⟨p, hp, e⟩ := hw
    split at e
    · have hm := List.mem_of_mem_filter (List.fst_mem_of_mem_zipIdx hp)
      rw [← Option.some.inj e]
      exact hwk d _ hm
    · cases e
  obtain ⟨hw, hpath⟩ := walk_identity (s := s.bump) h1 h2 h3 hits va hv
  have hro : c.root.toNat = 0x8000 := by rw [hr]; decide
  have hcb : mget s.bump.contexts 0 = some c := hc
  have keep : Identity s.bump := ⟨⟨c, hc, hr⟩, h1, h2, h3, ht, hwk, hlost⟩
  have cb : Cached s s.bump := ⟨rfl, rfl, fun _ => ⟨_, _, rfl⟩⟩
  have meet : ∀ (v : State) (x : Xl), v.lost = [] → v.meetSector va nd x = (v, .ok x) := by
    intro v x hv
    simp [State.meetSector, hv]
  suffices H : ∃ u, s.walkTo d 0 va nd = (u, .ok ⟨va, ⟨false, false, 0, none⟩, 0, 2 ^ 30, 0x8F⟩) ∧ Cached s u ∧ Identity u ∧ u.mem = s.mem by
    obtain ⟨u, hu, r1, r2, r3⟩ := H
    refine ⟨u, ?_, r1, r2, r3⟩
    unfold State.xlate State.meet
    rw [hu]
    exact meet u _ r2.2.2.2.2.2.2
  unfold State.walkTo
  dsimp only
  generalize hh : (s.die d).tlb.filter (fun e => e.ctx == 0 && decide (e.va ≤ va) && decide (va < e.va + e.size)) = hits
  have hl : ∀ e ∈ hits, e = gibLeaf := fun e he => ht d e (by rw [← hh] at he; exact List.mem_of_mem_filter he)
  split
  · rename_i k hk
    have := hl k (List.mem_of_getElem? hk)
    subst this
    refine ⟨s.bump, ?_, cb, keep, rfl⟩
    rw [show gibLeaf.pte.toNat = 0x8F from rfl, show gibLeaf.va = 0 from rfl, show gibLeaf.size = 2 ^ 30 from rfl, leaf]
  · simp only [hcb, hro, hw, hpath]
    refine ⟨s.bump.updDie d (fun x => x.learn gibPath (some gibLeaf)), by rw [leaf]; rfl, ⟨rfl, ?_, fun k => ?_⟩,
      ⟨⟨c, hc, hr⟩, h1, h2, h3, fun k e he => ?_, fun k w hw => ?_, hlost⟩, rfl⟩
    · simp [State.updDie, lmod_length, State.bump]
    · rw [die_updDie]
      split <;> exact ⟨_, _, rfl⟩
    · rw [die_updDie] at he
      split at he
      · simp only [Die.learn] at he
        split at he
        · exact ht k e he
        · have := List.mem_of_mem_drop he
          simp only [List.mem_append, List.mem_singleton] at this
          rcases this with this | this
          · exact ht k e this
          · exact this
      · exact ht k e he
    · rw [die_updDie] at hw
      split at hw
      · simp only [Die.learn] at hw
        split at hw
        · exact hwk k w hw
        · have := List.mem_of_mem_drop hw
          simp only [List.mem_append, List.mem_filter] at this
          rcases this with this | this
          · exact hwk k w this.1
          · exact this.1
      · exact hwk k w hw

theorem Cached.mem {s u : State} (h : Cached s u) : u.mem = s.mem := by rw [h.1]
theorem Cached.only {s u : State} (h : Cached s u) : MemoryOnly s u := by
  obtain ⟨h, -, -⟩ := h
  exact ⟨by rw [h], fun g => by rw [h]; exact g⟩

/-- The translations of several addresses under the map. -/
theorem xlateAll_identity (d : Nat) (nd : Need) : ∀ (vs : List DWord) {s : State}, Identity s → (∀ v ∈ vs, v.toNat < 2 ^ 30) →
    ∃ u, s.xlateAll d 0 nd vs = (u, .ok (vs.map (fun v => ⟨v.toNat, ⟨false, false, 0, none⟩, 0, 2 ^ 30, 0x8F⟩))) ∧ Cached s u ∧ Identity u := by
  intro vs
  induction vs with
  | nil => exact fun h _ => ⟨_, rfl, .refl _, h⟩
  | cons v vs ih =>
    intro s h hv
    obtain ⟨u, e, c, i, -⟩ := xlate_identity h d v.toNat (hv v (by simp)) nd
    obtain ⟨w, e', c', i'⟩ := ih i (fun x hx => hv x (by simp [hx]))
    exact ⟨w, by simp [State.xlateAll, e, e'], c.trans c', i'⟩

theorem homeDie_low {pa : Nat} (h : pa < 2 ^ 30) : homeDie pa = some 0 := by
  have g1 : pa / dieStride = 0 := Nat.div_eq_of_lt (by unfold dieStride; omega)
  have g2 : pa % dieStride < dieBytes := by rw [Nat.mod_eq_of_lt (by unfold dieStride; omega)]; unfold dieBytes; omega
  simp [homeDie, g1, g2]
theorem inSystem_low {pa : Nat} (h : pa < 2 ^ 30) : inSystem pa = false := by
  have : ¬ sysBase ≤ pa := by unfold sysBase; omega
  simp [inSystem, this]

/-- A reader that serves the bytes of memory and changes nothing but cached translations. -/
def Reads (rd : Rd) (P : State → Prop) : Prop := ∀ s va n, Identity s → P s → va + n ≤ 2 ^ 30 → 0 < n →
  ∃ u, rd va n s = (u, .ok (Mem.rdN s.mem va n)) ∧ Cached s u ∧ Identity u ∧ P u

theorem reads_at (d : Nat) (nd : Need) (lvl : State → Nat → Nat → PageAttr → State × List Byte)
    (h : ∀ s pa n, pa < 2 ^ 30 → lvl s pa n ⟨false, false, 0, none⟩ = (s, Mem.rdN s.mem pa n)) : Reads (readAt d 0 nd lvl) (fun _ => True) := by
  intro s va n hi _ hv hn
  obtain ⟨u, hu, hc, hi', hm⟩ := xlate_identity hi d va (by omega) nd
  refine ⟨u, ?_, hc, hi', trivial⟩
  have : ¬ 2 ^ 60 ≤ va := by omega
  simp only [readAt, if_neg this, hu, h _ _ _ (show va < 2 ^ 30 by omega), hm]

theorem reads_hub : Reads (hubRead 0) (fun _ => True) := reads_at 0 _ _ (fun _ _ _ _ => rfl)
theorem reads_fetch : Reads (hubFetch 0) (fun _ => True) := reads_at 0 _ _ (fun _ _ _ _ => rfl)
theorem reads_eng (d : Nat) : Reads (engRead d 0) (fun _ => True) := reads_at d _ _ (fun s pa n h => by
  simp [State.l2Read, State.meetKinds, heldApart, inSystem_low h])

theorem reads_desc (c : Nat) : Reads (descRead c 0) (fun s => (s.core c).l1 = []) := by
  intro s va n hi hp hv hn
  obtain ⟨u, hu, hc, hi', hm⟩ := xlate_identity hi (c / 32) va (by omega) { r := true, w := true }
  have hp' : (u.core c).l1 = [] := by rw [hc.1]; exact hp
  refine ⟨u, ?_, hc, hi', hp'⟩
  have : ¬ 2 ^ 60 ≤ va := by omega
  simp only [descRead, if_neg this, hu, inSystem_low (show va < 2 ^ 30 by omega), State.atRead, State.l1Flush, State.l1Find, hp', List.find?_nil, hm, heldApart, Bool.false_and, Bool.or_false, Bool.false_eq_true, if_false]

theorem rdN_append (m : Mem) (a n k : Nat) : Mem.rdN m a n ++ Mem.rdN m (a + n) k = Mem.rdN m a (n + k) := by
  apply List.ext_getElem
  · simp [Mem.rdN]
  · intro i h1 h2
    simp only [Mem.rdN, List.length_append, List.length_map, List.length_range] at h1 h2
    by_cases hi : i < n
    · rw [List.getElem_append_left (by simpa [Mem.rdN] using hi)]; simp [Mem.rdN]
    · rw [List.getElem_append_right (by simpa [Mem.rdN] using hi)]
      simp only [Mem.rdN, List.getElem_map, List.getElem_range, List.length_map, List.length_range]
      congr 1; omega

theorem reads_run {rd : Rd} {P : State → Prop} (h : Reads rd P) : ∀ fuel s va n, Identity s → P s → va + n ≤ 2 ^ 30 → n ≤ 16 * fuel - va % 16 → n = 0 ∨ 0 < fuel →
    ∃ u, rdRun rd fuel va n s = (u, .ok (Mem.rdN s.mem va n)) ∧ Cached s u ∧ Identity u ∧ P u := by
  intro fuel
  induction fuel with
  | zero => intro s va n hi hp hv hf h0; have : n = 0 := by omega
            subst this; exact ⟨s, rfl, .refl s, hi, hp⟩
  | succ k ih =>
    intro s va n hi hp hv hf h0
    by_cases hn : n = 0
    · subst hn; exact ⟨s, by simp [rdRun, Ev.ret, Mem.rdN], .refl s, hi, hp⟩
    · obtain ⟨u, e, c, i, p⟩ := h s va (min n (16 - va % 16)) hi hp (by omega) (by omega)
      obtain ⟨w, e', c', i', p'⟩ := ih u (va + min n (16 - va % 16)) (n - min n (16 - va % 16)) i p (by omega) (by omega) (by omega)
      refine ⟨w, ?_, c.trans c', i', p'⟩
      simp only [rdRun, if_neg hn, Ev.and, e, e', Ev.ret, c.mem, rdN_append]
      rw [show min n (16 - va % 16) + (n - min n (16 - va % 16)) = n by omega]

theorem reads_bytes {rd : Rd} {P : State → Prop} (h : Reads rd P) {s : State} {va n : Nat} (hi : Identity s) (hp : P s) (hv : va + n ≤ 2 ^ 30) :
    ∃ u, rdBytes rd va n s = (u, .ok (Mem.rdN s.mem va n)) ∧ Cached s u ∧ Identity u ∧ P u :=
  reads_run h _ s va n hi hp hv (by omega) (.inr (by omega))

/-- Reads of an engine are served with the bytes of memory. -/
theorem served_eng {s : State} (h : Identity s) (d : Nat) :
    Served s (engRead d 0) (Mem.rd s.mem) (fun a => a < 2 ^ 30) (fun v => Cached s v ∧ Identity v) := by
  refine ⟨⟨.refl s, h⟩, fun v ⟨hc, hi⟩ => ⟨hc.only, hc.mem, fun va n hn hA => ?_⟩⟩
  obtain ⟨u, e, c, i, -⟩ := reads_eng d v va n hi trivial (by have := (hA (n - 1) (by omega)).1; omega) hn
  exact ⟨u, by rw [e, hc.mem]; rfl, hc.trans c, i⟩

/-- No injected copy is on record or on its way. -/
def Quiet (s : State) : Prop := (∀ d, (s.die d).injMask = []) ∧ s.invMsgs = [] ∧ s.injMsgs = []

theorem Cached.quiet {s u : State} (h : Cached s u) (q : Quiet s) : Quiet u := by
  obtain ⟨h1, -, h3⟩ := h
  refine ⟨fun d => ?_, by rw [h1]; exact q.2⟩
  obtain ⟨_, _, e⟩ := h3 d
  rw [e]; exact q.1 d

theorem homeWrite_quiet {s : State} (q : Quiet s) (pa : Nat) (bs : List Byte) {d : Nat} {keep : BitVec 32} :
    s.homeWrite pa bs d keep = { s with mem := Mem.wrN s.mem pa bs } := by
  have hd : ∀ d line, s.deliverInv d line = s := by
    intro d line
    have e : ({ s with invMsgs := [] } : State) = s := by rw [← q.2.1]
    simp only [State.deliverInv, q.2.1, List.filter_nil, List.foldl_nil]
    exact e
  have hi : ∀ d line keep, s.invalCopies d line keep = s := by
    intro d line keep
    have e : ({ s with injMsgs := [] } : State) = s := by rw [← q.2.2]
    simp only [State.invalCopies, hd, q.2.2, List.map_nil, e, q.1 d]
    rfl
  have hf : ∀ (l : List Nat) (f : Nat → Bool) (line : Nat) (g : Nat → BitVec 32),
      l.foldl (fun (s : State) k => if f k then s.invalCopies k line (g k) else s) s = s := by
    intro l f line g
    induction l with
    | nil => rfl
    | cons k l ih => simp only [List.foldl_cons, hi, ite_self, ih]
  unfold State.homeWrite
  cases homeDie pa with
  | none => rfl
  | some h => dsimp only; rw [hf]

/-- Bytes written outside the page tables. -/
theorem Identity.write {s : State} (h : Identity s) (w : s.mem.wf = true) {pa : Nat} (hp : 0xB000 ≤ pa) (bs : List Byte) :
    Identity { s with mem := Mem.wrN s.mem pa bs } := by
  obtain ⟨hc, h1, h2, h3, ht, hw, hl⟩ := h
  have e : ∀ a, a + 8 ≤ 0xB000 → Mem.rdN (Mem.wrN s.mem pa bs) a 8 = Mem.rdN s.mem a 8 := by
    intro a ha
    simp only [Mem.rdN]
    apply List.map_congr_left
    intro i hi
    rw [rd_wrN w, if_neg (by simp at hi; omega)]
  exact ⟨hc, by rw [e _ (by omega)]; exact h1, by rw [e _ (by omega)]; exact h2, by rw [e _ (by omega)]; exact h3, ht, hw, hl⟩

/-- A word of a descriptor is written. -/
theorem descPut_identity {s : State} (h : Identity s) (q : Quiet s) (w : s.mem.wf = true) (d : Nat) {va : Nat} (v : Nat) (hp : 0xB000 ≤ va) (hv : va < 2 ^ 30) :
    ∃ u, s.descPut d 0 va v = ({ u with mem := Mem.wrN s.mem va (leBytes 8 v) }, .ok ()) ∧ Cached s u
      ∧ Identity { u with mem := Mem.wrN s.mem va (leBytes 8 v) } := by
  have e60 : va % 2 ^ 60 = va := Nat.mod_eq_of_lt (by omega)
  obtain ⟨u, hu, hc, hi', hm⟩ := xlate_identity h d va hv { w := true }
  refine ⟨u, ?_, hc, ?_⟩
  · unfold State.descPut
    rw [e60, hu]
    simp only [homeWrite_quiet (hc.quiet q), hm, Bool.false_eq_true, if_false]
  · have := hi'.write (by rw [hm]; exact w) hp (leBytes 8 v)
    rw [hm] at this
    exact this

end Sys2Proof.Machine
end

