-- ==== Sys2Proof/Laws/Words.lean ====
section
/-! SUPPORT. A word that only writes registers: from its lane function to all it leaves (`LaneWord`). -/
namespace Sys2Proof.Machine

theorem set_run_getD (ws : List Word) (n : Nat) (r : List Word) (k : Nat) (h : n + ws.length ≤ r.length) :
    (((List.range ws.length).map (fun i => (n + i, ws.getD i 0))).foldl (fun r w => r.set w.1 w.2) r).getD k 0
      = if n ≤ k ∧ k < n + ws.length then ws.getD (k - n) 0 else r.getD k 0 := by
  suffices H : ∀ m, m ≤ ws.length →
      (((List.range m).map (fun i => (n + i, ws.getD i 0))).foldl (fun r w => r.set w.1 w.2) r).length = r.length ∧
      ∀ k, (((List.range m).map (fun i => (n + i, ws.getD i 0))).foldl (fun r w => r.set w.1 w.2) r).getD k 0
        = if n ≤ k ∧ k < n + m then ws.getD (k - n) 0 else r.getD k 0 from (H _ le_rfl).2 k
  intro m hm
  induction m with
  | zero => exact ⟨rfl, fun k => by rw [if_neg (by omega)]; rfl⟩
  | succ m ih =>
    obtain ⟨h1, h2⟩ := ih (by omega)
    simp only [List.range_succ, List.map_append, List.map_cons, List.map_nil, List.foldl_append, List.foldl_cons, List.foldl_nil]
    generalize ((List.range m).map (fun i => (n + i, ws.getD i 0))).foldl (fun r w => r.set w.1 w.2) r = q at h1 h2 ⊢
    refine ⟨by simpa using h1, fun k => ?_⟩
    have h2k := h2 k
    simp only [List.getD_eq_getElem?_getD, List.getElem?_set] at h2k ⊢
    by_cases hk : n + m = k
    · subst hk
      have : n + m < q.length := by omega
      simp [this]
    · rw [if_neg hk, h2k]
      by_cases h3 : n ≤ k ∧ k < n + m
      · rw [if_pos h3, if_pos (by omega)]
      · rw [if_neg h3, if_neg (by omega)]

theorem setPred_get (p : BitVec 7) (n k : Nat) (v : Bool) (hn : n < 7) (hk : k < 7) :
    (setPred p n v).getLsbD k = if n = k then v else p.getLsbD k := by
  unfold setPred
  interval_cases n <;> interval_cases k <;> cases v <;> simp

theorem foldl_setPred (ps : List (Nat × Bool)) (hn : ∀ p ∈ ps, p.1 < 7) (nd : (ps.map Prod.fst).Nodup) (p : BitVec 7) (k : Nat) (hk : k < 7) :
    (ps.foldl (fun p w => setPred p w.1 w.2) p).getLsbD k = afterP ps (p.getLsbD k) k := by
  induction ps generalizing p with
  | nil => rfl
  | cons q ps ih =>
    rw [List.map_cons, List.nodup_cons] at nd
    rw [List.foldl_cons, ih (fun p hp => hn p (List.mem_cons_of_mem _ hp)) nd.2, setPred_get _ _ _ _ (hn q (List.mem_cons_self ..)) hk]
    unfold afterP
    rw [List.find?_cons]
    by_cases h : q.1 = k
    · have : ps.find? (fun p => p.1 == k) = none := by
        rw [List.find?_eq_none]
        intro p hp hpk
        exact nd.1 (List.mem_map.mpr ⟨p, hp, by simp at hpk; omega⟩)
      simp [h, this]
    · have : (q.1 == k) = false := by simpa using h
      simp [h, this]

theorem advance_with (x : Thread) (r : List Word) (p : BitVec 7) (f : BitVec 6) :
    ({ x with regs := r, preds := p, fsr := f } : Thread).advance = { x.advance with regs := r, preds := p, fsr := f } := by
  unfold Thread.advance
  cases x.clause with
  | none => rfl
  | some c => dsimp only; split <;> rfl

theorem writeAll_last (x : Group) (g : GroupId) (d : Opnd) (ws : ThreadId → List Word) (fx : ThreadId → LaneFx) (N : Nat) (ts : List ThreadId)
    (h : ∀ t ∈ ts, (fx t).ss = (regWrites d (ws t)).ss ∧ (ws t).length = N) (hx : x.sregs.length = 32) (hs : ∀ n, d = .s n → n.val + N ≤ 32) :
    { x.writeAll g fx ts with sregs := x.sregs } = x ∧ (x.writeAll g fx ts).sregs.length = 32
      ∧ ∀ k, (x.writeAll g fx ts).sregs.getD k 0 = (match (ts.filter (fun t => decide (t.group = g))).getLast? with
          | some t => afterS d (ws t) (fun k => x.sregs.getD k 0) k
          | none => x.sregs.getD k 0) := by
  induction ts using List.reverseRecOn with
  | nil => exact ⟨rfl, hx, fun k => rfl⟩
  | append_singleton ts t ih =>
    obtain ⟨h1, h2, h3⟩ := ih (fun u hu => h u (List.mem_append_left _ hu))
    have ht := h t (List.mem_append_right _ (List.mem_singleton.mpr rfl))
    have hw : x.writeAll g fx (ts ++ [t]) = if t.group = g then (x.writeAll g fx ts).writeS (fx t).ss else x.writeAll g fx ts := by
      simp [Group.writeAll, List.foldl_append]
    rw [hw]
    by_cases hg : t.group = g
    · rw [if_pos hg, ht.1]
      have hl : ((ts ++ [t]).filter (fun t => decide (t.group = g))).getLast? = some t := by simp [List.filter_append, hg]
      rw [hl]
      dsimp only
      cases d with
      | s n =>
        have hb := hs n rfl
        refine ⟨?_, ?_, fun k => ?_⟩
        · exact h1
        · have : ∀ (l : List (Nat × Word)) (r : List Word), (l.foldl (fun r w => r.set w.1 w.2) r).length = r.length := by
            intro l; induction l with
            | nil => intro r; rfl
            | cons a l ih => intro r; rw [List.foldl_cons, ih]; simp
          simp only [Group.writeS, regWrites]
          rw [this, h2]
        · simp only [Group.writeS, regWrites, afterS]
          rw [set_run_getD (ws t) n.val _ k (by rw [h2, ht.2]; exact hb)]
          by_cases hk : n.val ≤ k ∧ k < n.val + (ws t).length
          · rw [if_pos hk, if_pos hk]
          · rw [if_neg hk, if_neg hk, h3 k]
            cases hq : (ts.filter (fun t => decide (t.group = g))).getLast? with
            | none => rfl
            | some u =>
              have hu : u ∈ ts := List.mem_of_mem_filter (List.mem_of_getLast? hq)
              have hlu := (h u (List.mem_append_left _ hu)).2
              dsimp only
              simp only [afterS]
              rw [if_neg (by rw [hlu, ← ht.2]; exact hk)]
      | _ =>
        refine ⟨?_, ?_, fun k => ?_⟩
        · simpa [Group.writeS, regWrites] using h1
        · simpa [Group.writeS, regWrites] using h2
        · have := h3 k
          simp only [Group.writeS, regWrites, List.foldl_nil, afterS] at this ⊢
          rw [this]; cases (ts.filter (fun t => decide (t.group = g))).getLast? <;> rfl
    · have hl : ((ts ++ [t]).filter (fun t => decide (t.group = g))) = ts.filter (fun t => decide (t.group = g)) := by simp [List.filter_append, hg]
      rw [if_neg hg, hl]
      exact ⟨h1, h2, h3⟩

/-- The lane function of a word that only writes registers gives `LaneWord`. -/
theorem lane_word {s : State} {i : Instr} (lane : State → List ThreadId → ThreadId → LaneRes) (d : Opnd) (ws : ThreadId → List Word)
    (ps : ThreadId → List (Nat × Bool)) (fl : ThreadId → BitVec 6) (N : Nat) (hr : Ready s i)
    (hl : ∀ t ∈ s.executing i, lane s (s.executing i) t = .fx { regWrites d (ws t) with ps := ps t, fsr := fl t } ∧ (ws t).length = N)
    (hreg : ∀ r ∈ run d N, r ∈ wordRegs i) (hs : ∀ n, d = .s n → n.val + N ≤ 32)
    (hp : ∀ t ∈ s.executing i, (∀ p ∈ ps t, p.1 < 7) ∧ ((ps t).map Prod.fst).Nodup) (hpf : trapless i = false := by rfl) :
    LaneWord s (s.lanes i lane) i d ws ps fl := by
  obtain ⟨nd, hm, hx⟩ := hr
  have hacc : ∀ t, ({ regWrites d (ws t) with ps := ps t, fsr := fl t } : LaneFx).accs = [] := by intro t; cases d <;> rfl
  obtain ⟨h1, h2, h3⟩ := lanes_effect s i lane nd hm (fun t => { regWrites d (ws t) with ps := ps t, fsr := fl t })
    (fun t ht => ⟨(hx t ht).1, (hl t ht).1, hacc t⟩)
  refine ⟨h1, ?_, ?_, ?_, ?_⟩
  · intro t ht x hx'
    obtain ⟨hok, ⟨x', hx2, hlen⟩, -⟩ := hx t ht
    rw [hx'] at hx2; obtain rfl := Option.some.inj hx2
    refine ⟨LaneFx.onThread { regWrites d (ws t) with ps := ps t, fsr := fl t } x, by rw [h2, if_pos ht, hx']; rfl, ?_⟩
    have hj : (regWrites d (ws t)).jump = none := by cases d <;> rfl
    simp only [LaneFx.onThread, hj]
    have ha : ∀ e : LaneFx, x.apply e = { x with
      regs := e.vs.foldl (fun r w => r.set w.1 w.2) x.regs
      preds := e.ps.foldl (fun p w => setPred p w.1 w.2) x.preds
      fsr := x.fsr ||| e.fsr } := fun _ => rfl
    simp only [ha, advance_with]
    refine ⟨?_, trivial, fun k => ?_, fun k hk => foldl_setPred _ (hp t ht).1 (hp t ht).2 _ k hk⟩
    · unfold Thread.advance; cases x.clause with
      | none => rfl
      | some c => dsimp only; split <;> rfl
    · cases d with
      | v n =>
        have hN := (hl t ht).2
        simp only [regWrites, afterV]
        cases N with
        | zero =>
          rw [hN, if_neg (by omega)]; rfl
        | succ N =>
          rw [set_run_getD (ws t) n.val x.regs k]
          rw [hlen, hN]
          have := hreg (.v (n.val + N)) (by simp only [run, List.mem_map, List.mem_range]; exact ⟨N, by omega, rfl⟩)
          have := (List.all_eq_true.mp (by simpa only [State.regsOk, hpf, Bool.false_or, State.regsBelow] using hok)) _ this
          simp only [decide_eq_true_eq] at this
          omega
      | _ => rfl
  · intro t ht
    rw [h2, if_neg ht]
  · intro g hg
    rw [h3, hg]; rfl
  · intro g x hg
    rw [h3, hg]
    refine ⟨_, rfl, ?_⟩
    by_cases he : ∃ t ∈ s.executing i, t.group = g
    · obtain ⟨t, ht, rfl⟩ := he
      obtain ⟨-, -, g', hg', hlen⟩ := hx t ht
      rw [hg] at hg'; obtain rfl := Option.some.inj hg'
      obtain ⟨a, -, c⟩ := writeAll_last x t.group d ws (fun t => { regWrites d (ws t) with ps := ps t, fsr := fl t }) N (s.executing i)
        (fun u hu => ⟨by cases d <;> rfl, (hl u hu).2⟩) hlen hs
      exact ⟨a, c⟩
    · have hnone : ∀ t ∈ s.executing i, t.group ≠ g := fun t ht h => he ⟨t, ht, h⟩
      have hw : ∀ ts : List ThreadId, (∀ t ∈ ts, t.group ≠ g) →
          x.writeAll g (fun t => { regWrites d (ws t) with ps := ps t, fsr := fl t }) ts = x := by
        intro ts h
        unfold Group.writeAll
        induction ts with
        | nil => rfl
        | cons t ts ih => rw [List.foldl_cons, if_neg (h t (List.mem_cons_self ..))]; exact ih (fun u hu => h u (List.mem_cons_of_mem _ hu))
      have hf : lastOf s i g = none := by
        unfold lastOf
        rw [List.filter_eq_nil_iff.mpr (fun t ht => by simpa using hnone t ht)]; rfl
      dsimp only
      rw [hw _ hnone, hf]
      exact ⟨rfl, fun k => rfl⟩

-- Forms of destination

theorem wordsOf_length (ty : Ty) (xs : List Nat) : (wordsOf ty xs).length = wd ty.wide := by
  unfold wordsOf wd; split <;> rfl

theorem wrT_eq (ty : Ty) (d : Opnd) (xs : List Nat) : wrT ty d xs = regWrites d (wordsOf ty xs) := by
  unfold wrT wordsOf wr64 wr32
  cases ty.wide <;> rfl

theorem srcOk_s {w : Bool} {d : Opnd} (h : d.srcOk w = true) (n : Fin 32) (hd : d = .s n) : n.val + wd w ≤ 32 := by
  subst hd
  have := n.isLt
  cases w
  · simp [wd]
  · simp [Opnd.srcOk, Opnd.isV, Opnd.isS, Opnd.isEvenReg] at h; simp only [wd, if_true]; omega

theorem dstOk_s {w : Bool} {d : Opnd} (h : d.dstOk w = true) (n : Fin 32) (hd : d = .s n) : n.val + wd w ≤ 32 := by
  simp only [Opnd.dstOk, Bool.and_eq_true] at h
  exact srcOk_s h.2 n hd

theorem predOf_ok (p : Fin 8) (c : Bool) : (∀ q ∈ predOf p c, q.1 < 7) ∧ ((predOf p c).map Prod.fst).Nodup := by
  unfold predOf
  by_cases h : p = 7
  · simp [h]
  · simp only [if_neg h, List.mem_singleton, List.map_cons, List.map_nil, List.nodup_singleton, and_true]
    rintro q rfl
    have := p.isLt; have : p.val ≠ 7 := fun e => h (Fin.ext e)
    dsimp only; omega

/-- `Gives` from the lane function of a word. -/
theorem gives_of {s : State} {i : Instr} {d : Opnd} {ws : ThreadId → List Word} {ps : ThreadId → List (Nat × Bool)} {fl : ThreadId → BitVec 6}
    (lane : LaneFn) (N : Nat) (he : exec i s = .next (s.lanes i lane))
    (hl : ∀ t ∈ s.executing i, lane s (s.executing i) t = .fx { regWrites d (ws t) with ps := ps t, fsr := fl t })
    (hn : ∀ t, (ws t).length = N) (hreg : ∀ r ∈ run d N, r ∈ wordRegs i) (hs : i.wf = true → ∀ n, d = .s n → n.val + N ≤ 32)
    (hp : ∀ t, (∀ p ∈ ps t, p.1 < 7) ∧ ((ps t).map Prod.fst).Nodup := by exact fun _ => ⟨by simp, by simp⟩)
    (hpf : trapless i = false := by rfl) : Gives s i d ws ps fl :=
  fun hw hr => ⟨_, he, lane_word lane d ws ps fl N hr (fun t ht => ⟨hl t ht, hn t⟩) hreg (hs hw) (fun t _ => hp t) hpf⟩

/-- The same for a typed result. -/
theorem givesT_of {s : State} {i : Instr} {d : Opnd} {ty : Ty} {xs : ThreadId → List Nat} (lane : LaneFn)
    (he : exec i s = .next (s.lanes i lane)) (hl : ∀ t ∈ s.executing i, lane s (s.executing i) t = .fx (wrT ty d (xs t)))
    (hreg : ∀ r ∈ run d (wd ty.wide), r ∈ wordRegs i) (hs : i.wf = true → d.dstOk ty.wide = true)
    (hpf : trapless i = false := by rfl) : GivesT s i ty d xs :=
  gives_of lane (wd ty.wide) he (fun t ht => by rw [hl t ht, wrT_eq]; cases d <;> rfl) (fun t => wordsOf_length _ _) hreg
    (fun h => dstOk_s (hs h)) (hpf := hpf)

/-- The same for a floating-point result and its flags. -/
theorem givesF_of {s : State} {i : Instr} {d : Opnd} {ty : Ty} {rs : ThreadId → List (Nat × Fl)} (lane : LaneFn)
    (he : exec i s = .next (s.lanes i lane)) (hl : ∀ t ∈ s.executing i, lane s (s.executing i) t = .fx (wrF ty d (rs t)))
    (hreg : ∀ r ∈ run d (wd ty.wide), r ∈ wordRegs i) (hs : i.wf = true → d.dstOk ty.wide = true)
    (hpf : trapless i = false := by rfl) : GivesF s i ty d rs :=
  gives_of lane (wd ty.wide) he (fun t ht => by rw [hl t ht, wrF, wrT_eq]; cases d <;> rfl) (fun t => wordsOf_length _ _) hreg
    (fun h => dstOk_s (hs h)) (hpf := hpf)

end Sys2Proof.Machine
end

