-- ==== Sys2Proof/Tests/Slice0.lean ====
section
/-! SUPPORT. Words and results that the spec writes out, and states that meet the hypotheses of the statements. -/
namespace Sys2Proof.Tests
set_option Elab.async false
open Sys2Proof.Machine

/-- The one thread of State.placeWord, and its issue group about to execute a word that ends its clause. -/
def t0 : ThreadId := ⟨0, 0, 0⟩
def one : State := { State.reset.withFetchWord 64 0 with turn := none, issue := ⟨0, 0, [t0]⟩ }

/-- Ready, computed. -/
def readyB (s : State) (i : Instr) : Bool :=
  decide s.issue.threads.Nodup && !s.misplaced i && (s.executing i).all (fun t =>
    s.regsOk t i && (match s.thr t with | some x => decide (x.regs.length = s.nregOf t.wg) | none => false)
      && (match s.grp t.group with | some g => decide (g.sregs.length = 32) | none => false))

theorem ready_of {s : State} {i : Instr} (h : readyB s i = true) : Ready s i := by
  simp only [readyB, Bool.and_eq_true, List.all_eq_true, decide_eq_true_eq] at h
  obtain ⟨⟨h1, h2⟩, h3⟩ := h
  refine ⟨h1, by simpa using h2, fun t ht => ?_⟩
  obtain ⟨⟨a, b⟩, c⟩ := h3 t ht
  refine ⟨a, ?_, ?_⟩
  · cases hx : s.thr t with
    | none => rw [hx] at b; simp at b
    | some x => rw [hx] at b; exact ⟨x, rfl, by simpa using b⟩
  · cases hx : s.grp t.group with
    | none => rw [hx] at c; simp at c
    | some x => rw [hx] at c; exact ⟨x, rfl, by simpa using c⟩

def g0 : Guard := ⟨false, 7⟩
/-- An arithmetic word of type t over v1, v2 and v3, with its C field and sub-field. -/
def ari (t : Ty) (d a b : Opnd) (c : CField) (sub : BitVec 6 := 0) : ArithF := ⟨g0, d, a, b, c, t, .rne, false, false, false, sub⟩
def bin (t : Ty) : ArithF := ari t (.v 4) (.v 2) (.v 6) (.op .z)
def tern (t : Ty) : ArithF := ari t (.v 4) (.v 2) (.v 6) (.op (.v 8))
def un (t : Ty) : ArithF := ari t (.v 4) (.v 2) .z (.op .z)
def own (d a b c : Opnd) : OwnF := ⟨g0, d, a, b, c⟩
def zs : OwnF := own .z .z .z .z
def memf (d a b : Opnd) (c : Byte) (sz : Sz) (sp : Space) (sc : Scope) (o : Ord3) (idx : BitVec 3 := 0) : MemF :=
  ⟨g0, d, a, b, c, sz, false, sp, sc, o, .normal, idx⟩

-- One accepted word for each instruction whose statement asks for no more than that and an issue group.
def intWords : List Instr :=
  [.iadd (bin .i32), .isub (bin .i16x2), .imul (bin .u64), .imulhi (bin .i64), .imin (bin .u8x4), .imax (bin .i8x4), .iabs (un .i32),
   .imad (tern .i64), .imadw (tern .i32), .idot4 (tern .u8x4), .iaddx (ari .u32 (.v 4) (.v 2) .z (.imm 1) 0x3F),
   .isubx (ari .u32 (.v 4) (.v 2) (.v 3) (.op .z) 0x08), .and (bin .i32), .or (bin .u64), .xor (bin .i32), .shl (bin .i64), .shr (bin .u32),
   .sar (bin .i32), .rotl (bin .u32), .bfe (tern .i32), .bfi (tern .u32), .popc (un .u64), .clz (un .i32), .brev (un .u32)]
def moveWords : List Instr :=
  [.lea (tern .i32), .lea64 (ari .i32 (.v 4) (.v 2) (.v 7) (.imm 4) 0xB), .sel (bin .i32), .iset (bin .i64), .mov (un .i64), .movi g0 (.v 191) 7,
   .plop zs 0x88 1 2 3 4, .pmov (own (.v 1) .z .z .z), .pmovSet (own .z (.v 1) .z .z) 0x7F, .nop]
def floatWords : List Instr :=
  [.fadd (bin .f32), .fmul (bin .f32), .ffma (tern .f32), .fmin (bin .f32), .fmax (bin .f32), .fset (bin .f32), .fpadd (bin .f16x2),
   .fpmul (bin .bf16x2), .fpmad (tern .f16x2), .fdiv (bin .f32), .frcp (un .f32), .frsq (un .f32), .fsqrt (un .f32), .fexp2 (un .f32),
   .flog2 (un .f32), .fsinp (un .f32), .fcosp (un .f32), .frnd (un .f32), .ffrac (un .f32), .fclass (un .f32), .f2i (un .u64), .i2f (un .i64),
   .fcvt (ari .i32 (.v 4) (.v 2) .z (.op .z) 0x19)]
def narrowWords : List Instr :=
  [.dqe4 (bin .i32), .dqe5 (bin .i32), .dqb (bin .i32), .dqt (bin .i32), .qce4 (bin .f32), .qce5 (bin .f32), .qcb (bin .f32), .qscl (un .f32),
   .qde4 (tern .f32), .qde5 (tern .f32), .qdb (tern .f32), .qdt (tern .f32)]
def laneWords : List Instr :=
  [.share (bin .i64), .vmask (ari .i32 (.v 4) .z .z (.op .z) 2), .elect (ari .i32 (.s 4) (.v 2) .z (.op .z) 7),
   .scan (un .i32), .redux (ari .f32 (.v 4) (.v 2) .z (.op .z) 6), .matchLanes (un .i32), .rdlane (ari .i32 (.v 4) (.v 2) .z (.imm 0)),
   .formatD ⟨.iadd, .v 5, .imm 8⟩ ⟨.fadd, .v 12, .op (.v 8)⟩]
def controlWords : List Instr :=
  [.getsr (own (.v 2) .z .z .z) 0x10, .setsr (own .z (.v 2) .z .z) 5, .br g0 5, .call g0 (.v 2) 5, .brx (own .z (.v 2) .z .z),
   .callx (own (.v 2) (.s 2) .z .z), .ret (own .z (.s 30) .z .z), .exit zs, .join zs, .yield zs, .bkpt zs, .trap zs 9,
   .barGrp zs 3, .barWg zs 15, .barCl zs 7, .stage zs, .stageRel zs 0]
def memoryWords : List Instr :=
  [.ld (memf (.v 4) (.s 0) .z 0 .b32 .global .none .plain), .ldl g0 (.v 4) true 0, .st (memf (.v 4) (.s 0) .z 0 .b128 .global .sys .rlx 4),
   .wbr (memf .z (.s 0) .z 0xFF .b32 .global .none .plain), .invr (memf .z (.s 0) .z 0xFF .b32 .global .none .plain),
   .atom (memf (.v 4) (.s 0) .z 9 .b32 .global .dev .rlx), .acas (memf (.v 4) (.s 0) .z 0 .b64 .global .sys .plain),
   .red (memf (.v 4) (.s 0) .z 9 .b32 .global .cl .sync), .sti ⟨g0, .v 6, .s 2, .v 1, 2, .b32, 9, .sync, .normal, 2⟩,
   .fenceRel (memf .z .z .z 0xFF .b32 .global .wg .sync 1), .fenceAcq (memf .z .z .z 0xFF .b32 .global .sys .sync 2),
   .tfence (memf .z .z .z 0xFF .b32 .global .none .plain), .pref (memf .z (.s 0) .z 0 .b32 .global .none .plain),
   .waita (memf .z .z (.k .one) 0 .b64 .scratch .wg .sync), .accz zs 0, .gsub zs, .gbin zs 7]

theorem witness_intWords : intWords.all (fun i => i.wf && readyB one i) = true := by decide +kernel
theorem witness_moveWords : moveWords.all (fun i => i.wf && readyB one i) = true := by decide +kernel
theorem witness_floatWords : floatWords.all (fun i => i.wf && readyB one i) = true := by decide +kernel
theorem witness_narrowWords : narrowWords.all (fun i => i.wf && readyB one i) = true := by decide +kernel
theorem witness_laneWords : laneWords.all (fun i => i.wf && readyB one i) = true := by decide +kernel
theorem witness_controlWords : controlWords.all (fun i => i.wf && readyB one i) = true := by decide +kernel
theorem witness_memoryWords : memoryWords.all (fun i => i.wf && readyB one i) = true := by decide +kernel

/-! ### States that meet the hypotheses of the statements -/

theorem mem_of_mget {κ ν : Type} [DecidableEq κ] {m : Map κ ν} {k : κ} {v : ν} (h : mget m k = some v) : (k, v) ∈ m := by
  induction m with
  | nil => simp [mget] at h
  | cons e m ih =>
    obtain ⟨a, b⟩ := e
    simp only [mget] at h
    split at h
    · rename_i e; cases e; cases h; simp
    · exact List.mem_cons_of_mem _ (ih h)

theorem thr_all {s : State} {p : ThreadId → Thread → Prop} (h : ∀ e ∈ s.threads, p e.1 e.2) (t : ThreadId) (x : Thread)
    (hx : s.thr t = some x) : p t x := h (t, x) (mem_of_mget hx)

def userTrapB (s : State) (w : Nat) (ts : List ThreadId) : Bool :=
  (match s.wg w with | some x => x.halt == .running | none => false)
    && ts.all (fun t => t.wg == w && (match s.thr t with | some x => !x.sys | none => false))

theorem userTrap_of {s : State} {w : Nat} {ts : List ThreadId} (h : userTrapB s w ts = true) : UserTrap s w ts := by
  simp only [userTrapB, Bool.and_eq_true, List.all_eq_true] at h
  obtain ⟨h1, h2⟩ := h
  refine ⟨?_, fun t ht => ?_⟩
  · cases hx : s.wg w with
    | none => rw [hx] at h1; simp at h1
    | some x => rw [hx] at h1; exact ⟨x, rfl, by simpa using h1⟩
  · obtain ⟨a, b⟩ := h2 t ht
    refine ⟨by simpa using a, ?_⟩
    cases hx : s.thr t with
    | none => rw [hx] at b; simp at b
    | some x => rw [hx] at b; exact ⟨x, rfl, by simpa using b⟩

def isBarWait : Wait → Bool | .bar _ _ => true | _ => false

def undisturbedB (s : State) (w : Nat) : Bool :=
  decide (s.threads.map Prod.fst).Nodup && ((s.wg w).all (fun x => !s.preempting x.disp))
    && s.threads.all (fun e => !(s.barWgs w .cl).contains e.1.wg || e.2.exited || !isBarWait e.2.wait)

theorem undisturbed_of {s : State} {w : Nat} (h : undisturbedB s w = true) : Undisturbed s w := by
  simp only [undisturbedB, Bool.and_eq_true, List.all_eq_true, decide_eq_true_eq] at h
  obtain ⟨⟨h1, h2⟩, h3⟩ := h
  refine ⟨h1, fun x hx => by rw [hx] at h2; simpa using h2, fun t x hx hm he l n hw => ?_⟩
  have := h3 _ (mem_of_mget hx)
  simp [he, hw, isBarWait, hm] at this

/-- A second thread, in the next lane of the same group, and the issue group of both. -/
def t1 : ThreadId := ⟨0, 0, 1⟩
def two : State := { one with threads := [(t0, probeThread false), (t1, probeThread false)], issue := ⟨0, 0, [t0, t1]⟩ }
/-- The same two threads, of which only the first is in the issue group. -/
def half : State := { two with issue := ⟨0, 0, [t0]⟩ }
/-- A state with some of the registers of its threads set. -/
def vset (s : State) (rs : List (Nat × Word)) : State :=
  { s with threads := s.threads.map (fun e => (e.1, { e.2 with regs := rs.foldl (fun r p => r.set p.1 p.2) e.2.regs })) }
def sset (s : State) (rs : List (Nat × Word)) : State :=
  { s with groups := s.groups.map (fun e => (e.1, { e.2 with sregs := rs.foldl (fun r p => r.set p.1 p.2) e.2.sregs })) }
def mapT (s : State) (f : Thread → Thread) : State := { s with threads := s.threads.map (fun e => (e.1, f e.2)) }

theorem someRuns_half : SomeRuns half ⟨0, 0⟩ [t0] := ⟨t1, probeThread false, rfl, by decide, rfl, rfl, rfl⟩

/-- SystemRegisters: a thread in the handler writes %epc. -/
theorem witness_SystemRegisters : readyB (mapT one (fun x => { x with sys := true })) (.setsr (own .z (.v 2) .z .z) 0x1A) = true
    ∧ (Instr.setsr (own .z (.v 2) .z .z) 0x1A).wf = true
    ∧ ∀ e ∈ (mapT one (fun x => { x with sys := true })).threads, e.2.sys = true := by decide +kernel

/-- Branches: the target in a register pair is 0x10008. -/
theorem witness_Branches : ∀ i ∈ [Instr.brx (own .z (.v 2) .z .z), .callx (own (.v 2) (.v 2) .z .z), .ret (own .z (.v 2) .z .z)],
    i.wf = true ∧ readyB (vset two [(2, 0x10008)]) i = true
      ∧ ∀ t ∈ (vset two [(2, 0x10008)]).executing i, ((vset two [(2, 0x10008)]).rd64 t (.v 2)).toNat % 8 = 0
        ∧ ((vset two [(2, 0x10008)]).rd64 t (.v 2)).toNat < 2 ^ 60 := by decide +kernel

/-- WordsThatTrap: the target is no multiple of 8, or 2^60; both words that trap complete first. -/
theorem witness_WordsThatTrap : (∀ v ∈ [(2, (4 : Word)), (3, 0x10000000)], ∀ i ∈ [Instr.brx (own .z (.v 2) .z .z), .callx (own (.v 2) (.v 2) .z .z), .ret (own .z (.v 2) .z .z)],
      i.wf = true ∧ readyB (vset half [v]) i = true
        ∧ (vset half [v]).executing i = [t0] ∧ ((vset half [v]).rd64 t0 (.v 2)).toNat % 8 + ((vset half [v]).rd64 t0 (.v 2)).toNat / 2 ^ 60 ≠ 0
        ∧ userTrapB (vset half [v]) 0 [t0] = true)
    ∧ ∀ i ∈ [Instr.bkpt zs, .trap zs 255], i.wf = true ∧ readyB half i = true ∧ half.executing i = [t0] ∧ userTrapB half 0 [t0] = true := by
  decide +kernel

/-- EretReturns: threads in the handler of a halted workgroup, with another there and without. -/
def handling : State :=
  { half with
    wgs := half.wgs.map (fun e => (e.1, { e.2 with halt := .handler }))
    threads := [(t0, { probeThread false with sys := true, trapped := true }), (t1, { probeThread false with sys := true, trapped := true })] }
def handlingOne : State := { handling with threads := [(t0, { probeThread false with sys := true, trapped := true }), (t1, { probeThread false with stopped := true })] }
theorem witness_EretReturns : (Instr.eret zs).wf = true
    ∧ ∀ s ∈ [handling, handlingOne], readyB s (.eret zs) = true ∧ s.executing (.eret zs) = [t0] ∧ s.issuing (.eret zs) = [t0]
      ∧ (s.wg 0).map Workgroup.halt = some .handler ∧ undisturbedB s 0 = true
      ∧ (s.thr t0).all (fun x => x.sys && !x.exited && x.epc == 0 && !x.trapcause.getLsbD 31) = true := by decide +kernel
theorem witness_EretReturns_last : (handling.thr t1).all (fun x => x.sys && !x.exited) = true
    ∧ (handlingOne.thr t1).all (fun x => !x.sys) = true := by decide +kernel

/-- ExitEndsThreads, JoinWaits and YieldEndsPhase: another thread of the group runs, or all of it is there. -/
theorem witness_group_goes_on : ∀ i ∈ [Instr.exit zs, .join zs, .yield zs], i.wf = true ∧ readyB half i = true ∧ half.executing i = [t0]
    ∧ undisturbedB half 0 = true ∧ (half.wg 0).map Workgroup.halt = some .running := by decide +kernel
theorem witness_group_is_there : ∀ i ∈ [Instr.join zs, .yield zs, .barGrp zs 3], i.wf = true ∧ readyB two i = true ∧ two.executing i = [t0, t1]
    ∧ undisturbedB two 0 = true ∧ (two.grp ⟨0, 0⟩).map (fun g => (g.preq, g.status)) = some (false, .running) ∧ (two.lrOf 0).isSome = true
    ∧ (∀ e ∈ two.threads, e.2.exited = false ∧ e.2.sys = false ∧ e.2.pc = 0x10008 ∧ e.2.clause.isSome = true) := by decide +kernel
theorem witness_JoinTimeout : ((mapT two (fun x => { x with wait := .join })).thr t1).map Thread.wait = some .join := by decide +kernel

/-- BarriersAndStages: the group is a member of every barrier that a mask names, and the record has a schedule entry. -/
def barred : State := { half with disps := half.disps.map (fun e => (e.1, { e.2 with lr := { e.2.lr with wgsel := 0x55555555, clsel := 0x5555, m0 := 1, nsched := 1 } })) }
theorem witness_BarriersAndStages : (∀ p ∈ [(Instr.barGrp zs 3, BarLevel.grp, 3), (.barWg zs 15, .wg, 15), (.barCl zs 7, .cl, 7)],
      p.1.wf = true ∧ readyB barred p.1 = true ∧ barred.executing p.1 = [t0] ∧ undisturbedB barred 0 = true
        ∧ barred.barMember ⟨0, 0⟩ p.2.1 p.2.2 = true ∧ 0 ∈ barred.barWgs 0 p.2.1)
    ∧ (∀ i ∈ [Instr.stage zs, .stageRel zs 0], i.wf = true ∧ readyB barred i = true) ∧ (barred.lrOf 0).map Launch.nsched = some 1 := by
  decide +kernel

/-- EmberBaton: two groups in the ring; the second waits at its ETAKE. -/
def t2 : ThreadId := ⟨0, 1, 0⟩
def ring (holder : Nat) : State :=
  { one with
    disps := one.disps.map (fun e => (e.1, { e.2 with lr := { e.2.lr with batonSel := 1, ngrp := 2 } }))
    wgs := one.wgs.map (fun e => (e.1, { e.2 with ngrp := 2, baton := some holder, phrOffs := [0, 64] }))
    groups := [(⟨0, 0⟩, probeGroup), (⟨0, 1⟩, { probeGroup with off := 8 })]
    threads := [(t0, probeThread false), (t2, { probeThread false with wait := .etake })] }
theorem witness_EmberBaton : (∀ i ∈ [Instr.etake zs, .egive zs], i.wf = true ∧ ∀ h ∈ [0, 1], readyB (ring h) i = true ∧ (ring h).executing i = [t0]
      ∧ (ring h).ringMember ⟨0, 0⟩ = true ∧ ((ring h).wg 0).map Workgroup.baton = some (some h))
    ∧ (ring 0).nextHolder 0 0 = some 1 ∧ (ring 0).nextHolder 0 1 = some 0 ∧ ((ring 0).threads.map Prod.fst).Nodup := by decide +kernel
theorem witness_EmberBaton_alone : { ring 0 with threads := [(t0, probeThread false)] }.nextHolder 0 0 = none := by decide +kernel

/-- ClauseEntered: the longest clause with every field in use, and a literal pool. -/
theorem witness_ClauseEntered : (Instr.clauseStart ⟨15, false, 0xFFF, 11, 15, true, true, 0xFFFFF⟩).wf = true
    ∧ (Instr.clauseStart ⟨1, true, 0, 0, 0, false, false, 0⟩).wf = true := by decide

/-- A load, a store and an atomic of a memory form, as bad addresses and pending accesses want them. -/
def ldS : MemF := memf (.s 4) (.s 0) .z 0 .b32 .global .none .plain
def ldG : MemF := memf (.v 4) (.s 0) .z 0 .b128 .global .sys .sync
def stL : MemF := memf (.v 4) (.s 0) .z 0x7F .b64 .scratch .none .plain
def atG (sc : Scope) : MemF := memf (.v 4) (.s 0) (.v 2) 0 .b32 .global sc .rlx 2

/-- AccessesIssue and LanesIssueTogether: both threads' addresses lie in their space. -/
theorem witness_accesses_reach : (∀ p ∈ [(Instr.ld ldS, ldS), (.ld ldG, ldG), (.st stL, stL), (.atom (atG .dev), atG .dev), (.acas (atG .cl), atG .cl), (.red (atG .sys), atG .sys)],
      p.1.wf = true ∧ readyB two p.1 = true ∧ two.executing p.1 = [t0, t1] ∧ ∀ t ∈ [t0, t1],
        (memAddr two p.2.sp p.2.a p.2.b p.2.idx p.2.c p.2.sz t).toNat % szBytes p.2.sz = 0
        ∧ (two.place t.wg p.2.sp (memAddr two p.2.sp p.2.a p.2.b p.2.idx p.2.c p.2.sz t) (szBytes p.2.sz)).isSome = true)
    ∧ two.isGfx 0 = false := by decide +kernel
theorem witness_LanesIssueTogether (x : Xl) (h : (two.xlate 0 0 0 { r := true, w := true }).2 = .ok x) : inSystem x.pa = false := by
  have e : (two.xlate 0 0 0 { r := true, w := true }).2 = .ok ⟨0, ⟨false, false, 0, none⟩, 0, 2 ^ 30, 0x8F⟩ := by decide +kernel
  rw [e] at h
  cases h
  decide
theorem witness_range_and_sti : (∀ i ∈ [Instr.wbr (memf .z (.s 0) (.v 2) 0xFF .b32 .global .none .plain), .invr (memf .z (.s 0) (.v 2) 0xFF .b32 .global .none .plain)],
      i.wf = true ∧ readyB (vset two [(2, 0x1000000)]) i = true ∧ ((vset two [(2, 0x1000000)]).rd t1 (.v 2)).toNat = 2 ^ 24)
    ∧ (Instr.sti ⟨g0, .v 4, .s 0, .v 2, 0, .b128, 31, .plain, .normal, 0⟩).wf = true
    ∧ readyB two (.sti ⟨g0, .v 4, .s 0, .v 2, 0, .b128, 31, .plain, .normal, 0⟩) = true
    ∧ (∀ t ∈ [t0, t1], (memAddr two .global (.s 0) (.v 2) 0 0 .b128 t).toNat = 0) ∧ (two.place 0 .global 0 16).isSome = true
    ∧ ∀ w ∈ [false, true], (Instr.ldl g0 (.v 4) w 8).wf = true ∧ readyB two (.ldl g0 (.v 4) w 8) = true
      ∧ ∀ e ∈ two.threads, (e.2.pc + (8 : Word).signExtend 64).toNat = 0x10010 := by decide +kernel

/-- BadAddressTraps: an address that is no multiple of the size, one past the scratchpad, and one of 2^60. -/
theorem witness_BadAddressTraps :
    (∀ p ∈ [([((0 : Nat), (2 : Word))], ldG), ([(0, 0x400)], { stL with c := 0 }), ([(1, 0x10000000)], ldG)], ∀ i ∈ [Instr.ld p.2, .st { p.2 with d := .v 4 }],
      i.wf = true ∧ readyB (sset half p.1) i = true ∧ (sset half p.1).executing i = [t0] ∧ userTrapB (sset half p.1) 0 [t0] = true
        ∧ ((memAddr (sset half p.1) p.2.sp p.2.a p.2.b p.2.idx p.2.c p.2.sz t0).toNat % szBytes p.2.sz != 0
          || ((sset half p.1).place 0 p.2.sp (memAddr (sset half p.1) p.2.sp p.2.a p.2.b p.2.idx p.2.c p.2.sz t0) (szBytes p.2.sz)).isNone) = true) := by
  decide +kernel

/-- A state whose core holds an L1 line with a dirty byte of the thread's workgroup, and a clean injected line. -/
def ord : PageAttr := ⟨false, false, 0, none⟩
def dirty : State :=
  { half with cores := half.cores.map (fun e => (e.1, { e.2 with
      l1 := [⟨3, 15, 1 <<< 127, 0xFF <<< 1016, false, 0, ord, 0, .normal⟩, ⟨5, 1, 0, 0, true, 63, ord, 7, .normal⟩] })) }
theorem witness_fences : (∀ i ∈ [Instr.fenceRel (memf .z .z .z 0xFF .b32 .global .cl .sync 1), .fenceAcq (memf .z .z .z 0xFF .b32 .global .sys .sync 2),
      .tfence (memf .z .z .z 0xFF .b32 .global .none .plain)], i.wf = true ∧ readyB dirty i = true ∧ dirty.executing i = [t0])
    ∧ dirty.coreOf t0 = 0 ∧ dirty.tagOf 0 = 0 ∧ ((dirty.core 0).l1.map L1Line.line).Nodup
    ∧ ∀ l ∈ (dirty.core 0).l1, l.line = 3 → l.dirty ≠ 0 ∧ l.tag = 0 ∧ l.attr.s = false ∧ l.dirty.getLsbD 127 = true := by decide +kernel
/-- Canonical, computed. -/
def canonicalB (s : State) : Bool :=
  s.mem.wf && s.wgs.all (fun e => e.2.spad.wf && e.2.tiles.all Mem.wf) && s.dies.all (fun d => d.bk.wf)
    && s.disps.all (fun e => e.2.gfx.all (fun g => g.bks.all (fun b => b.1.wf))) && decide (s.dies.length = 4)
theorem canonical_of {s : State} (h : canonicalB s = true) : Canonical s := by
  simp only [canonicalB, Bool.and_eq_true, List.all_eq_true, decide_eq_true_eq] at h
  obtain ⟨⟨⟨⟨h1, h2⟩, h3⟩, h4⟩, h5⟩ := h
  exact ⟨h1, h2, h3, fun e he g hg b hb => by have := h4 e he; rw [hg] at this; simp only [Option.all_some, List.all_eq_true] at this; exact this b hb, h5⟩
theorem witness_Canonical : canonicalB dirty = true ∧ canonicalB one = true := by decide +kernel

/-- ExitEndsThreads: the last thread of a group; the holder of the baton, with another group in the ring; the last thread in the handler. -/
theorem witness_exit_last : readyB one (.exit zs) = true ∧ one.executing (.exit zs) = [t0] ∧ one.holdsBaton ⟨0, 0⟩ = false
    ∧ (one.wg 0).map Workgroup.halt = some .running ∧ undisturbedB one 0 = true ∧ one.threads.map Prod.fst = [t0] ∧ canonicalB one = true := by decide +kernel
theorem witness_exit_baton : readyB (ring 0) (.exit zs) = true ∧ (ring 0).executing (.exit zs) = [t0] ∧ undisturbedB (ring 0) 0 = true
    ∧ ((ring 0).wg 0).map (fun w => (w.halt, w.baton)) = some (.running, some 0) ∧ (ring 0).nextHolder 0 0 = some 1 ∧ canonicalB (ring 0) = true := by
  decide +kernel
theorem witness_exit_handler : readyB handlingOne (.exit zs) = true ∧ handlingOne.executing (.exit zs) = [t0] ∧ handlingOne.issuing (.exit zs) = [t0]
    ∧ (handlingOne.wg 0).map Workgroup.halt = some .handler ∧ undisturbedB handlingOne 0 = true ∧ canonicalB handlingOne = true
    ∧ handlingOne.coreOf t0 = 0 ∧ (handlingOne.thr t1).all (fun x => !x.sys && !x.exited && x.wait == .none) = true := by decide +kernel

/-- BarriersAndStages: two groups, the second already at the barrier (all arrive) or running (the phase of a phased run ends). -/
def barring (l : BarLevel) (n : Nat) (waits phased : Bool) : State :=
  { ring 0 with
    disps := (ring 0).disps.map (fun e => (e.1, { e.2 with lr := { e.2.lr with wgsel := 0x55555555, clsel := 0x5555, m0 := 3, m1 := 0, mode := if phased then 1 else 0, cfirst := 8, ccount := 4 } }))
    threads := [(t0, probeThread false), (t2, { probeThread false with wait := if waits then .bar l n else .none })] }
/-- Every thread of the group executes the BAR, in user mode, and no slot is pre-empted. -/
def arrivesB (i : Instr) (l : BarLevel) (n : Nat) (s : State) : Bool :=
  i.wf && readyB s i && s.executing i == [t0] && decide (s.threads.map Prod.fst).Nodup && !s.preempting 0 && (s.wg 0).any (fun w => w.halt == .running && w.resident)
    && s.barMember ⟨0, 0⟩ l n && (s.barGroups ⟨0, 0⟩ l n).contains ⟨0, 0⟩ && s.barWgs 0 l == [0]
    && (s.thr t0).any (fun x => x.pc == 0x10008 && !x.exited && !x.sys) && s.groups.all (fun g => g.2.status == .running) && canonicalB s && s.coreOf t0 == 0
theorem witness_barriers_complete : [(Instr.barGrp zs 3, BarLevel.grp, 3), (.barWg zs 15, .wg, 15), (.barCl zs 7, .cl, 7)].all (fun p =>
    let s := barring p.2.1 p.2.2 true false
    arrivesB p.1 p.2.1 p.2.2 s && !s.phased 0 && (s.barGroups ⟨0, 0⟩ p.2.1 p.2.2).contains ⟨0, 1⟩ != (p.2.1 == .grp)
      && (s.thr t2).any (fun x => x.wait == .bar p.2.1 p.2.2)) = true := by decide +kernel
theorem witness_barriers_phase : [(Instr.barWg zs 15, BarLevel.wg, 15), (.barCl zs 7, .cl, 7)].all (fun p =>
    let s := barring p.2.1 p.2.2 false true
    arrivesB p.1 p.2.1 p.2.2 s && s.phased 0 && (s.barGroups ⟨0, 0⟩ p.2.1 p.2.2).contains ⟨0, 1⟩ && (s.thr t2).any (fun x => x.wait == .none && !x.exited)) = true := by
  decide +kernel

/-- BadAddressTraps: an atomic of a bucket at DEV, and one of a page of the system range, the context's second GiB here. -/
def sysPage : State := let s := sset half [(0, 0x40000000)]; { s with mem := Mem.wrN s.mem 0xA008 (leBytes 8 (sysBase + 0x8F)) }
theorem witness_atomic_traps : (let i := Instr.atom { atG .dev with sp := .bucket }; i.wf = true ∧ readyB half i = true ∧ half.executing i = [t0])
    ∧ (∀ i ∈ [Instr.atom (atG .dev), .acas (atG .sys), .red (atG .cl)], i.wf = true ∧ readyB sysPage i = true ∧ sysPage.executing i = [t0])
    ∧ sysPage.coreOf t0 / 32 = 0 ∧ sysPage.ctxOf 0 = 0 ∧ userTrapB sysPage 0 [t0] = true ∧ userTrapB half 0 [t0] = true
    ∧ (memAddr sysPage .global (.s 0) .z 0 0 .b32 t0).toNat = 0x40000000
    ∧ (match (sysPage.xlate 0 0 0x40000000 { r := true, w := true }).2 with | .ok x => inSystem x.pa | .error _ => false) = true := by
  decide +kernel

/-- PrefetchAndPublish: region 1023 of the group's context. -/
def region : State := sset { half with regions := [(1023, ⟨0, true⟩)] } [(4, 1023)]
theorem witness_PrefetchAndPublish : ∀ i ∈ [Instr.publish (memf .z (.s 4) .z 0xFF .b32 .global .dev .sync)],
    i.wf = true ∧ readyB region i = true ∧ region.executing i = [t0] ∧ (region.rd t0 (.s 4)).toNat = 1023
      ∧ mget region.regions 1023 = some ⟨region.ctxOf 0, true⟩ := by decide +kernel

/-- WatchedWord: two threads at a WAITA on the first word of the scratchpad, which is zero; one wants 0, the other 1. -/
def watching (target : Nat) : State := mapT half (fun x => { x with wait := .waita, watch := some (.wg, .scratch, 0, BitVec.ofNat 64 target) })
theorem witness_WatchedWord : (Instr.waita (memf .z (.s 0) (.k .one) 0 .b64 .global .sys .sync)).wf = true
    ∧ (two.executing (.waita (memf .z (.s 0) (.k .one) 0 .b64 .global .sys .sync))) = [t0, t1]
    ∧ readyB two (.waita (memf .z (.s 0) (.k .one) 0 .b64 .global .sys .sync)) = true ∧ (two.place 0 .global 0 8).isSome = true
    ∧ [0, 1].all (fun v => (watching v).accs.isEmpty && (watched (watching v) t0 .wg .scratch 0).map Prod.snd == some 0
      && ((watching v).thr t0).all (fun x => x.wait == .waita && x.watch == some (.wg, .scratch, 0, BitVec.ofNat 64 v))) = true := by
  decide +kernel

/-- ChannelTransfers: channel 15 of the cluster holds n words. -/
def channel (n : Nat) : State :=
  { two with
    disps := two.disps.map (fun e => (e.1, { e.2 with lr := { e.2.lr with chen := true } }))
    clusters := [(0, ⟨0, 0, 0, [0], none, List.replicate 15 [] ++ [List.replicate n 7], [15]⟩)] }
def chF (c : Byte) (p : BitVec 3) : MemF := memf (.v 4) .z .z c .b32 .global .cl .sync p
theorem witness_ChannelTransfers : ∀ n ∈ [0, 1, 2, 254, 255, 256], ((channel n).lrOf 0).map Launch.chen = some true
    ∧ (mget (channel n).clusters 0).map (fun c => (c.chans.length, c.stirred, (c.chans.getD 15 []).length)) = some (16, [15], n)
    ∧ ∀ i ∈ [Instr.qsend (chF 0x0F 7), .qsend (chF 0x8F 6), .qrecv (chF 0x0F 7), .qrecv (chF 0x8F 0)],
      i.wf = true ∧ readyB (channel n) i = true ∧ (channel n).executing i = [t0, t1] := by decide +kernel

/-- LoadsAndStoresComplete and AtomicsComplete: an access that may be performed. -/
def pendOf (op : AccOp) (sp : Space) (sc : Scope) (o : Ord3) (va : DWord) (n : Nat) (ts : List ThreadId) : State :=
  { mapT half (fun x => { x with flags := 0x41 }) with accs := [(7, ⟨t0, ts, op, 3, sp, sc, o, .normal, va, n, some 0, none, false, none⟩)], fresh := 8 }
def pend (op : AccOp) (sp : Space) (sc : Scope) (o : Ord3) (va : DWord) (n : Nat) : State := pendOf op sp sc o va n [t0]
def accesses : List State :=
  [pend (.load (.v 190) .b64 false) .scratch .none .plain 1016 8, pend (.load (.s 31) .b8 true) .global .none .plain 0x10007 1,
   pend (.load (.v 4) .b128 false) .global .sys .sync 0x20000 16, pend (.store [1, 2, 3, 4]) .scratch .none .plain 0 4,
   pend (.store [1, 2]) .global .dev .rlx 0x2007E 2, pend (.atoms (.rmw 9) true .b32 [⟨t0, 0, .v 4, 0x3F800000, 0⟩]) .scratch .wg .rlx 0 4,
   pend (.atoms .cas true .b64 [⟨t0, 0x20000, .v 4, 0, 5⟩]) .global .dev .rlx 0x20000 8]
theorem witness_accesses_due : ∀ s ∈ accesses, canonicalB s = true ∧ s.injMsgs = [] ∧ ∀ e ∈ s.accs, mget s.accs e.1 = some e.2 ∧ s.canPerform e.1 e.2 = true
    ∧ e.2.owners.Nodup ∧ (s.place 0 e.2.space e.2.va e.2.size).isSome = true := by decide +kernel
theorem witness_accesses_translate : ∀ s ∈ accesses, ∀ e ∈ s.accs, e.2.space ≠ .global ∨
    (s.xlate (s.coreOf t0 / 32) (s.ctxOf 0) e.2.va.toNat { r := true, w := true }).2
      = .ok ⟨e.2.va.toNat, ord, 0, 2 ^ 30, 0x8F⟩ ∧ inSystem e.2.va.toNat = false := by decide +kernel

/-- StoredBytesAreRead: a core whose L1 holds no dirty byte of the line, and one whose L1 holds the line. -/
theorem witness_StoredBytesAreRead : ord.s = false ∧ ord.l2Only = false ∧ inSystem 0x2007F = false ∧ 0x2007F % 128 + 1 ≤ 128
    ∧ 0x2007F % 32 + 1 ≤ 32 ∧ ∀ l ∈ (one.core 0).l1, l.line ≠ 0x2007F / 128 := by decide +kernel

/-- A parameter block of one slab: kinds, columns and rows from 0, tile 0, one block, status word at 960, completion word. -/
def block (ak bk : Byte) (cw : List Byte) (scope cluster : Byte) : List Byte :=
  [ak, bk, 0, 0, 0, 0, 0, 0, 1, 0, 0, 0] ++ List.replicate 8 0 ++ [0xC0, 3, 0, 0] ++ cw ++ [9, 0, 0, 0, 0, 0, 0, 0] ++ [scope, cluster] ++ List.replicate 22 0
/-- A core whose matrix chain holds `es`, and a workgroup with the block at 0 of a scratchpad of `spb` bytes, one tile and s-registers set for it. -/
def matrix (spb width : Nat) (blk : List Byte) (es : List MxEntry) : State :=
  sset { half with
    disps := half.disps.map (fun e => (e.1, { e.2 with lr := { e.2.lr with spb := spb, lease := 3 } }))
    wgs := half.wgs.map (fun e => (e.1, { e.2 with spad := Mem.ofBytes 0 blk, baton := some 0 }))
    groups := [(⟨0, 0⟩, { probeGroup with width := width })]
    cores := half.cores.map (fun e => (e.1, { e.2 with chain := es })) } [(2, 64), (3, 0x00200000), (4, 128), (5, 0x00200000), (6, 0), (7, 0x02000000)]
def entry (op : MxOp) (fin : Bool) : MxEntry := ⟨0, 0, op, [t0], some 0, 9, 0, 1, fin, fin, false, none, false⟩

def blkS := block 4 5 (List.replicate 8 0) 0 0
def blkR := block 4 0 (List.replicate 8 0) 0 0
def mmaS : OwnF := own .z (.s 0) (.s 2) (.s 4)
def mmaR : OwnF := own (.v 4) (.s 0) (.s 2) .z
theorem witness_MMA : (∀ n ∈ [0, 63, 64], ∀ p ∈ [(matrix 1024 8 blkS (List.replicate n (entry (.accz 0) false)), Instr.mma mmaS),
      (matrix 1024 64 blkR (List.replicate n (entry (.accz 0) false)), .mma mmaR)],
      p.2.wf = true ∧ readyB p.1 p.2 = true ∧ p.1.executing p.2 = [t0] ∧ (p.1.core 0).chain.length = n ∧ (p.1.wg 0).isSome = true
        ∧ mxBlockOk (p.1.spadRead 0 0 64) (p.1.accwOf 0) (p.1.spbOf 0) = true ∧ p.1.spbOf 0 = 1024 ∧ (p.1.rd t0 (.s 0)).toNat = 0
        ∧ ((p.1.lrOf 0).map (fun lr => lr.batonSel != 0)) = some false ∧ (p.1.core 0).lease = none)
    ∧ (matrix 1024 64 blkR []).widthOf t0 = 64 ∧ fld blkR 1 1 = 0 ∧ fld blkS 1 1 = 5 := by decide +kernel
theorem witness_MMA_rows : ∀ s ∈ [matrix 1024 8 blkS [], matrix 1024 64 blkR []], RowsReach s 0 (s.rdK t0 (.s 2) 0) (s.rdK t0 (.s 2) 1) 1 1 (aRowSize 4)
    ∧ RowsReach s 0 (s.rdK t0 (.s 4) 0) (s.rdK t0 (.s 4) 1) 1 1 (bRowSize 5) := by unfold RowsReach; decide +kernel

def big : State := matrix 65536 8 [] []
theorem clPlace_big (es : List MxEntry) (a : Nat) (h : a < 65536) : (matrix 65536 8 [] es).clPlace 0 a = some (0, a) := by
  have h1 : (matrix 65536 8 [] es).spbOf 0 = 65536 := rfl
  have h2 : ((((matrix 65536 8 [] es).wg 0).bind (fun g => mget (matrix 65536 8 [] es).clusters g.cluster)).map Cluster.members).getD [] = [0] := rfl
  have h3 : pow2Up 65536 = 65536 := by decide
  have h4 : (BitVec.ofNat 64 a).toNat = a := by simp; omega
  have h5 : a / 65536 = 0 := by omega
  have h6 : a % 65536 = a := by omega
  have h7 : ¬ 4294967296 ≤ a := by omega
  have h8 : a < 4294967296 ∧ a + 1 ≤ 65536 := by omega
  simp only [State.clPlace, State.place, h1, h2, h3, h4, h5, h6]
  simp [h7, h8]
theorem witness_tile_rows (es : List MxEntry) : RowsReach (matrix 65536 8 [] es) 0 ((matrix 65536 8 [] es).rdK t0 (.s 6) 0) ((matrix 65536 8 [] es).rdK t0 (.s 6) 1) 1 128 512 := by
  have e0 : (matrix 65536 8 [] es).rdK t0 (.s 6) 0 = 0 := rfl
  have e1 : (matrix 65536 8 [] es).rdK t0 (.s 6) 1 = 0x02000000 := rfl
  rw [e0, e1]
  refine ⟨by decide, by decide, fun j hj i hi x hx => ?_⟩
  have ha : rowAddr 0 0x02000000 j i x = 512 * i + x := by
    have : j = 0 := by omega
    subst this
    have hr : pitchRot 33554432#32 = 0 := by decide
    simp [rowAddr, pitchRow, pitchTile, hr, rotateOffset]; omega
  rw [ha, clPlace_big _ _ (by omega)]; rfl
theorem witness_ACC : ∀ n ∈ [0, 64], ∀ i ∈ [Instr.accld (own .z (.s 6) .z .z) 0, .accst (own .z (.s 6) .z .z) 0, .accz zs 0],
    i.wf = true ∧ readyB (matrix 65536 8 [] (List.replicate n (entry (.accz 0) false))) i = true
      ∧ (matrix 65536 8 [] (List.replicate n (entry (.accz 0) false))).executing i = [t0]
      ∧ (matrix 65536 8 [] (List.replicate n (entry (.accz 0) false))).accwOf 0 = 1 := by decide +kernel


/-- MatrixEntriesComplete: one entry of the workgroup, the lease with its slot. -/
def running (spb : Nat) (blk : List Byte) (op : MxOp) (fin : Bool) : State :=
  { matrix spb 8 blk [] with cores := (matrix spb 8 blk []).cores.map (fun e => (e.1, { e.2 with chain := [entry op fin], lease := some 0, leaseC := 1 })) }
def mmaOp (blk : List Byte) : MxOp := .mma blk 64 0x00200000 128 0x00200000 []
def blkCl := block 4 5 [0, 2, 0, 0, 0, 0, 0, 0] 6 1
def blkGl := block 4 5 [0, 0, 2, 0, 0, 0, 0, 0] 5 0
theorem witness_entries : ∀ s ∈ [running 65536 [] (.accz 0) false, running 65536 [] (.accld 0 0x02000000 0) false, running 65536 [] (.accst 0 0x02000000 0) false,
      running 1024 blkS (mmaOp blkS) false, running 65536 [] (.accst 0 0x02000000 0) true, running 1024 blkS (mmaOp blkS) true,
      running 1024 blkCl (mmaOp blkCl) true, running 1024 blkGl (mmaOp blkGl) true],
    canonicalB s = true ∧ (s.wg 0).all (fun w => w.resident && !w.ended && w.halt == .running && w.tiles.length == 1) = true
      ∧ (s.mxHead 0 0).all (fun e => !e.fault && e.slab == 0 && e.issuers == [t0]) = true ∧ (s.mxHead 0 0).isSome = true
      ∧ (s.core 0).lease = some (s.slotOfWg 0) := by decide +kernel
theorem witness_entry_mma : (mxBlockOf blkS).tile = 0 ∧ (mxBlockOf blkS).mr = 0 ∧ (mxBlockOf blkS).kblk = 1 ∧ (mxBlockOf blkS).cwsc = 0
    ∧ ((mxBlockOf blkS).readHandle (engRead 0 0) 64 none (running 1024 blkS (mmaOp blkS) false)).2 = .ok [] ∧ (mxBlockOf blkS).handle [] = some none
    ∧ ((Ev.list (fun i => (mxBlockOf blkS).aBlock (running 1024 blkS (mmaOp blkS) false) 0 (engRead 0 0) none 64 0x00200000 0 i) (List.range 1))
        (running 1024 blkS (mmaOp blkS) false)).2 = .ok [⟨0, List.replicate 16 0, 0⟩] := by decide +kernel
theorem witness_entry_words : (mxBlockOf blkCl).cwsp = 1 ∧ (mxBlockOf blkCl).cw.toNat % 8 = 0 ∧ (mxBlockOf blkCl).cwsc = 6
    ∧ (running 1024 blkCl (mmaOp blkCl) true).place 0 .cluster (mxBlockOf blkCl).cw 8 = some (.spad 0 512)
    ∧ (mxBlockOf blkGl).cwsp = 0 ∧ (mxBlockOf blkGl).cw.toNat = 0x20000 ∧ (mxBlockOf blkGl).cwsc = 5
    ∧ ((running 1024 blkGl (mmaOp blkGl) true).xlate 0 0 0x20000 { w := true }).2 = .ok ⟨0x20000, ord, 0, 2 ^ 30, 0x8F⟩ ∧ inSystem 0x20000 = false
    ∧ (running 1024 blkGl (mmaOp blkGl) true).cwBad 0 0 (some 0) false (mxBlockOf blkGl).cw 5 = false := by decide +kernel
theorem witness_entry_accst (i x i' x' : Nat) (hi : i < 128) (hx : x < 512) (hi' : i' < 128) (hx' : x' < 512)
    (h : (matrix 65536 8 [] []).clPlace 0 (512 * i + x) = (matrix 65536 8 [] []).clPlace 0 (512 * i' + x')) : i = i' ∧ x = x' := by
  rw [clPlace_big _ _ (by omega), clPlace_big _ _ (by omega)] at h
  simp at h; omega


/-! ### Words and results that the spec writes out -/

/-- The state after an instruction, and what its first thread's registers and status then hold. -/
def after (i : Instr) (s : State) : State := match exec i s with | .next z => z | _ => s
def regsOf (s : State) (t : ThreadId) (ks : List Nat) : List Nat := ks.map (fun k => (((s.thr t).map (fun x : Thread => x.regs.getD k 0)).getD 0).toNat)
def fsrOf (s : State) (t : ThreadId) : Nat := ((s.thr t).map (fun x => x.fsr.toNat)).getD 0

/-- Words of R292, R296, R321, R323, R341, R346, R369, R404, R405, R417 and of the encoding tables, one family after another: each decodes to
its instruction, which encodes to it. -/
def spelled : List (DWord × Instr) :=
  [(0, .nop), (0x8101_FFFF_0000_0005, .br ⟨false, 1⟩ 5), (0x0157_FFFF_FFFF_0000, .exit zs), (0x0E07_FFFF_FFFF_0001, .barWg zs 0),
   (0x0207_0402_06FF_0000, .iadd (bin .i32)), (0x0337_0402_FF03_1100, .shl (ari .u32 (.v 4) (.v 2) .z (.imm 3))),
   (0x0477_FFFF_FF88_1298, .plop zs 0x88 1 1 2 3), (0x8457_BFFF_8000_0001, .movi g0 (.v 191) 0x8000_0001),
   (0x0627_0401_0203_4440, .ffma ⟨g0, .v 4, .v 1, .v 2, .op (.v 3), .f32, .rtz, false, false, true, 0⟩), (0x0647_0402_06FF_4000, .fmax (bin .f32)),
   (0x08A7_0402_06FF_0003, .dqb (ari .i32 (.v 4) (.v 2) (.v 6) (.op .z) 3)), (0x1207_02FF_FFFF_0010, .getsr (own (.v 2) .z .z .z) 0x10),
   (0x4005_0880_1618_1000, .formatD ⟨.iadd, .v 5, .imm 8⟩ ⟨.fadd, .v 12, .op (.v 8)⟩)]
def spelledMemory : List (DWord × Instr) :=
  [(0x0C0A_08C0_0510_42A0, .ld ⟨⟨true, 2⟩, .v 8, .s 0, .v 5, 0x10, .b32, false, .global, .dev, .sync, .normal, 0⟩),
   (0x0CB7_06C2_0100_4282, .atom ⟨g0, .v 6, .s 2, .v 1, 0, .b32, false, .global, .dev, .plain, .normal, 2⟩),
   (0x0C27_06C2_0102_44A2, .sti ⟨g0, .v 6, .s 2, .v 1, 2, .b32, 9, .sync, .normal, 2⟩),
   (0x0C37_08C4_F084_4000, .ldp ⟨g0, .v 8, .s 4, .k .zero, 0x84, .b32, false, .global, .none, .plain, .normal, 0⟩),
   (0x0CF7_04FF_FF8F_41A6, .qsend ⟨g0, .v 4, .z, .z, 0x8F, .b32, false, .global, .cl, .sync, .normal, 6⟩)]
def spelledUnits : List (DWord × Instr) :=
  [(0x0E37_FFC2_C4FF_0000, .chadv (own .z (.s 2) (.s 4) .z)), (0x0E17_FFFF_FF07_0001, .stageRel zs 7), (0x0EA7_FFC4_FFFF_0000, .cpy (own .z (.s 4) .z .z)),
   (0x0E47_FFC8_C0C6_0000, .mma (own .z (.s 8) (.s 0) (.s 6))), (0x1007_0402_C0C2_0003, .tex (own (.v 4) (.v 2) (.s 0) (.s 2)) 3),
   (0x1037_FFFF_FFFF_0002, .gbin zs 2), (0x1057_C4C2_FFFF_0000, .bkget (own (.s 4) (.s 2) .z .z)),
   (0xF300_007A_0001_0000, .clauseStart ⟨3, false, 0, 0, 15, false, true, 8⟩)]
def wordIs (p : DWord × Instr) : Bool := (match decode p.1 with | .ok i => i == p.2 | _ => false) && encode p.2 == some p.1
theorem test_words_of_the_tables : spelled.all wordIs = true := by decide +kernel
theorem test_memory_words : spelledMemory.all wordIs = true := by decide +kernel
theorem test_unit_words : spelledUnits.all wordIs = true := by decide +kernel
/-- Refused words: NOP with a predicate, an unlisted opcode, a Format X opcode in Format F, and a header whose LEN is 0. -/
theorem test_refused_words : [(0x0007_0000_0000_0000 : DWord), 0x0507_FFFF_FFFF_0000, 0x0457_04FF_FFFF_0000, 0xF000_07F8_0000_0000].all (fun w =>
    match decode w with | .ok _ => false | _ => true) = true := by decide +kernel

/-- One refused instruction for each check of WellFormed, beside the accepted lists above. -/
def refusedForms : List Instr :=
  [.br ⟨true, 7⟩ 0, .brx (own .z (.v 3) .z .z), .call g0 (.s 2) 0, .callx (own (.v 3) (.v 2) .z .z), .exit (own .z .z (.v 1) .z),
   .iadd (ari .f32 (.v 4) (.v 2) (.v 6) (.op .z)), .iadd (ari .i64 (.v 5) (.v 2) (.v 6) (.op .z)), .iadd (ari .i32 (.sp .tid) (.v 2) (.v 6) (.op .z)),
   .iadd (ari .i32 (.s 4) (.v 2) (.s 6) (.op .z)), .iadd (ari .i32 (.v 4) (.v 2) (.v 6) (.imm 1)), .iadd { bin .i32 with rm := .rtz },
   .iaddx (ari .u32 (.s 4) (.s 2) (.s 3) (.op .z) 0), .imul { bin .i32 with sub := 1 }, .imulhi { bin .i32 with sat := true }, .iabs (un .u32),
   .iabs { un .i32 with b := .v 1 }, .idot4 { tern .u8x4 with sub := 1 }, .imadw (ari .i32 (.v 4) (.v 2) (.v 6) (.op (.v 9))),
   .fadd (ari .f32 (.v 4) (.v 2) .z (.imm 1)), .fmin { bin .f32 with sat := true }, .fset { bin .f32 with rm := .rdn }, .frcp { un .f32 with nb := true },
   .iset { bin .i32 with sub := 0x30 }, .fcvt (ari .i32 (.v 4) (.v 2) .z (.op .z) 6), .sel { ari .i32 (.s 4) (.s 2) (.s 6) (.op .z) with sub := 0 },
   .qde4 (ari .f32 (.v 4) (.v 2) (.v 6) (.op (.v 9))), .qce4 (ari .f32 (.s 4) (.v 2) (.v 6) (.op .z)), .qscl { un .f32 with sub := 0xC }, .dqe4 { bin .i32 with sub := 4 },
   .share { bin .i32 with sub := 5 }, .vmask (ari .i32 (.v 5) .z .z (.op .z) 2), .elect (ari .i32 (.v 4) (.v 2) .z (.op .z)), .scan (ari .i32 (.v 4) (.v 2) .z (.op .z) 6),
   .rdlane (ari .i32 (.v 4) (.v 2) (.v 1) (.op .z)), .matchLanes (ari .i32 (.v 5) (.v 2) .z (.op .z))]
def refusedMemory : List Instr :=
  [.ld (memf (.v 4) (.s 1) .z 0 .b32 .global .none .plain), .ld (memf (.v 4) (.s 0) .z 0 .b32 .global .dev .plain), .ld (memf (.v 4) (.s 0) .z 0 .b32 .global .none .rlx),
   .ld { memf (.v 4) (.s 0) .z 0 .b32 .global .none .plain with sx := true }, .ld (memf (.v 5) (.s 0) .z 0 .b64 .global .none .plain), .ld (memf (.s 30) (.s 0) .z 0 .b128 .global .none .plain),
   .ld (memf (.s 4) (.v 0) .z 0 .b32 .scratch .none .plain), .ld (memf (.v 4) (.s 0) .z 0 .b32 .global .none .plain 5), .st (memf (.s 4) (.s 0) .z 0 .b128 .global .none .plain),
   .ldl g0 (.v 3) true 0, .sti ⟨g0, .v 6, .s 2, .v 1, 2, .b32, 9, .rlx, .normal, 2⟩, .ldp (memf (.v 8) (.s 4) .z 0x11 .b32 .global .none .plain),
   .ldp (memf (.v 8) (.s 4) .z 9 .b32 .global .none .plain 1), .stp (memf (.v 8) (.s 4) .z 0 .b32 .global .none .plain), .pref (memf (.v 4) (.s 0) .z 0 .b32 .global .none .plain),
   .wbr (memf .z (.s 0) .z 0 .b32 .global .none .plain), .fenceRel (memf .z .z .z 0xFF .b32 .global .none .sync 1), .tfence (memf .z .z .z 0xFF .b32 .global .sys .plain),
   .waita (memf .z .z .z 0 .b64 .bucket .wg .sync), .atom (memf (.v 4) (.s 0) .z 0 .b32 .global .none .plain), .atom (memf (.v 4) (.s 0) .z 9 .b64 .global .dev .plain),
   .acas (memf (.v 6) (.s 0) .z 0 .b64 .global .dev .plain), .red (memf (.v 4) (.s 0) .z 8 .b32 .global .dev .plain), .pladd (memf (.v 4) (.s 0) .z 0xFF .b32 .global .wg .plain),
   .qsend (memf (.v 4) .z .z 0x80 .b32 .global .cl .sync 7), .qrecv (memf (.s 4) .z .z 0 .b32 .global .cl .sync 7), .publish (memf .z (.v 4) .z 0xFF .b32 .global .dev .sync)]
def refusedUnits : List Instr :=
  [.barGrp zs 4, .barCl zs 8, .chapp (own (.v 4) (.s 2) (.s 6) .z), .chadv (own .z (.s 3) (.s 6) .z), .mma (own (.s 4) (.s 0) .z .z), .accld (own .z (.s 1) .z .z) 0, .accz (own .z (.s 0) .z .z) 0,
   .cpy (own .z (.k .one) .z .z), .tex (own (.v 4) (.v 2) .z (.s 2)) 0, .rayq (own (.v 4) (.s 2) .z (.s 2)) false, .bkget (own .z (.s 2) .z .z), .bkdone (own .z (.s 2) (.k .one) .z),
   .getsr (own (.v 3) .z .z .z) 0, .getsr (own (.s 4) .z .z .z) 2, .getsr (own (.v 4) .z .z .z) 0x1B, .setsr (own .z (.v 3) .z .z) 0x10, .pmov (own (.s 4) .z .z .z),
   .formatD ⟨.iadd, .v 4, .imm 8⟩ ⟨.iadd, .v 8, .imm 8⟩, .formatD ⟨.fadd, .v 4, .imm 8⟩ ⟨.iadd, .v 5, .imm 8⟩, .formatD ⟨.iadd, .v 4, .op (.v 5)⟩ ⟨.iadd, .v 5, .imm 8⟩,
   .formatD ⟨.iadd, .v 4, .op (.v 2)⟩ ⟨.iadd, .v 5, .op (.v 6)⟩, .clauseStart ⟨0, false, 0, 15, 15, false, false, 0⟩, .clauseStart ⟨1, false, 0, 12, 15, false, false, 0⟩,
   .clauseStart ⟨1, true, 1, 0, 0, false, false, 0⟩]
theorem test_wellFormed_refuses : refusedForms.all (fun i => !i.wf) = true := by decide +kernel
theorem test_wellFormed_refuses_memory : refusedMemory.all (fun i => !i.wf) = true := by decide +kernel
theorem test_wellFormed_refuses_units : refusedUnits.all (fun i => !i.wf) = true := by decide +kernel

/-- R346: the product is not rounded before the sum; without fusing it is, and the sum is then zero. -/
theorem test_ffma_fuses : let s := vset one [(1, 0x3F80_0800), (2, 0x3F80_0800), (3, 0x3F80_1000)]
    let z := after (.ffma ⟨g0, .v 4, .v 1, .v 2, .op (.v 3), .f32, .rtz, false, false, true, 0⟩) s
    regsOf z t0 [4] = [0xB380_0000] ∧ fsrOf z t0 = 0 := by decide +kernel
theorem test_fmul_rounds : let s := vset one [(1, 0x3F80_0800), (2, 0x3F80_0800)]
    let z := after (.fmul ⟨g0, .v 5, .v 1, .v 2, .op .z, .f32, .rtz, false, false, true, 0⟩) s
    regsOf z t0 [5] = [0xBF80_1000] ∧ fsrOf z t0 = flNX.toNat := by decide +kernel
/-- R327, R328: the four rows of the example. -/
theorem test_bfe_bfi :
    regsOf (after (.bfe (ari .i32 (.v 4) (.v 1) (.v 2) (.imm 8))) (vset one [(1, 0xF0A0), (2, 8)])) t0 [4] = [0xFFFF_FFF0]
    ∧ regsOf (after (.bfe (ari .u32 (.v 4) (.v 1) (.v 2) (.imm 8))) (vset one [(1, 0xF0A0), (2, 8)])) t0 [4] = [0xF0]
    ∧ regsOf (after (.bfe (ari .i32 (.v 4) (.v 1) (.v 2) (.imm 8))) (vset one [(1, 0xF0A0), (2, 28)])) t0 [4] = [0]
    ∧ regsOf (after (.bfi (ari .u32 (.v 4) (.v 1) (.v 2) (.op (.v 3)))) (vset one [(1, 0xFFFF_FFFF), (2, 5), (3, 0x304)])) t0 [4] = [0xFFFF_FFDF] := by
  decide +kernel
/-- R359: the absolute value of the most negative number, without and with SAT. -/
theorem test_iabs : regsOf (after (.iabs (un .i32)) (vset one [(2, 0x8000_0000)])) t0 [4] = [0x8000_0000]
    ∧ regsOf (after (.iabs { un .i32 with sat := true }) (vset one [(2, 0x8000_0000)])) t0 [4] = [0x7FFF_FFFF] := by decide +kernel
/-- R361: with c an immediate of U8X4, the 32-bit pattern of -1 is the largest unsigned value. -/
theorem test_idot4_imm : regsOf (after (.idot4 { ari .u8x4 (.v 4) .z .z (.imm 0xFF) with sat := true }) one) t0 [4] = [0xFFFF_FFFF]
    ∧ regsOf (after (.idot4 (ari .i8x4 (.v 4) .z .z (.imm 0xFF))) one) t0 [4] = [0xFFFF_FFFF] := by decide +kernel
/-- R337: five ternary digits at scale 2, and a reserved byte. -/
def lane6 : State := { one with threads := [(⟨0, 0, 4⟩, { probeThread false with regs := (probeThread false).regs.set 6 0x80 }), (⟨0, 0, 6⟩, { probeThread false with regs := (probeThread false).regs.set 2 0xF358 })], issue := ⟨0, 0, [⟨0, 0, 6⟩]⟩ }
theorem test_dqt : regsOf (after (.dqt (ari .i32 (.v 10) (.v 2) (.v 6) (.op .z))) lane6) ⟨0, 0, 6⟩ [10, 11, 12, 13, 14] = [0x4000_0000, 0xC000_0000, 0, 0, 0x4000_0000]
    ∧ regsOf (after (.dqt (ari .i32 (.v 10) (.v 2) (.v 6) (.op .z) 4)) lane6) ⟨0, 0, 6⟩ [10, 11, 12, 13, 14] = [0, 0, 0, 0, 0]
    ∧ fsrOf (after (.dqt (ari .i32 (.v 10) (.v 2) (.v 6) (.op .z) 4)) lane6) ⟨0, 0, 6⟩ = flFMT.toNat := by decide +kernel
/-- R386: four lanes that take part, and three. -/
def quad (r1 r2 : Nat → Word) (n : Nat) : State :=
  { one with
    threads := (List.range 4).map (fun k => (⟨0, 0, k⟩, { probeThread false with regs := (((((probeThread false).regs.set 1 (r1 k)).set 2 (r2 k)).set 4 0x3F80_0000).set 10 (if k = 0 then 0x81 else 0)).set 11 (if k = 0 then 0x7F else 0) }))
    issue := ⟨0, 0, ((List.range 4).map (fun k => (⟨0, 0, k⟩ : ThreadId))).filter (fun t => t.ix != n)⟩ }
def qdbI : Instr := .qdb (ari .f32 (.v 4) (.v 1) (.v 2) (.op (.v 10)))
def quadAB (n : Nat) : State := quad (fun k => if k = 0 then 0x40 else if k = 1 then 0xFF else 0) (fun k => if k = 0 then 0x40 else if k = 1 then 0x7F else 0) n
theorem test_qdb : ([0, 1, 3].map (fun k => regsOf (after qdbI (quadAB 9)) ⟨0, 0, k⟩ [4])) = [[0x3FFC_0800], [0x3FFC_0800], [0x3FFC_0800]]
    ∧ ([0, 1, 3].map (fun k => regsOf (after qdbI (quadAB 1)) ⟨0, 0, k⟩ [4])) = [[0x4000_0000], [0x3F80_0000], [0x4000_0000]] := by decide +kernel
/-- R400: a group of 16 lanes whose registers hold 10 times their index. -/
def sixteen : State :=
  { one with
    groups := [(⟨0, 0⟩, { probeGroup with width := 16 })]
    threads := (List.range 16).map (fun k => (⟨0, 0, k⟩, { probeThread false with regs := (probeThread false).regs.set 2 (BitVec.ofNat 32 (10 * k)) }))
    issue := ⟨0, 0, (List.range 16).map (fun k => (⟨0, 0, k⟩ : ThreadId))⟩ }
def shareI (mode : BitVec 3) (n : Byte) : Instr := .share { ari .i32 (.v 4) (.v 2) .z (.imm n) with sub := 8 ||| mode.setWidth 6 }
def shared (mode : BitVec 3) (n : Byte) : List Nat × Option Bool :=
  let z := after (shareI mode n) sixteen
  ([0, 5, 15].flatMap (fun k => regsOf z ⟨0, 0, k⟩ [4]), (z.thr ⟨0, 0, 0⟩).map (fun x => x.preds.getLsbD 1))
theorem test_share : shared 1 1 = ([0, 40, 140], some false) ∧ shared 2 1 = ([10, 60, 150], some true) ∧ shared 4 0xFF = ([150, 40, 140], some true)
    ∧ shared 3 3 = ([30, 60, 120], some true) := by decide +kernel
/-- R125: conversions to E4M3 under RNE. -/
theorem test_e4m3 : [(e5m2, 0x7C, false), (e5m2, 0x7C, true), (e5m2, 0xFC, true), (fp32, 0x43E6_0000, false), (fp32, 0x43EB_0000, false), (fp32, 0x43EB_0000, true), (fp32, 0x3A80_0000, false),
      (fp32, 0x3B40_0000, false)].map (fun p => Machine.encode e4m3 (Machine.decodeF p.1 p.2.1) .rne p.2.2)
    = [(0x7F, flNV), (0x7E, flNX), (0xFE, flNX), (0x7E, flNX), (0x7F, flOF ||| flNX), (0x7E, flOF ||| flNX), (0, flUF ||| flNX), (2, flUF ||| flNX)] := by decide +kernel
/-- R136, R137: the plane words of the example, read at four and two planes. -/
def planeWords : List Nat := [0x2A, 0x1B, 0x1D, 0x18, 0x18, 0x1C, 0x1C, 0x1C]
theorem test_plane_reads : (List.range 6).map (mantRnd 4 8 127 false planeWords) = [6, -4, 2, -1, 7, -8] ∧ (List.range 6).map (mantRnd 4 8 127 true planeWords) = [6, -4, 2, 0, 7, -8]
    ∧ (List.range 6).map (mantRnd 2 8 127 false planeWords) = [1, -1, 0, -1, 1, -2] ∧ (List.range 6).map (mantRnd 2 8 127 true planeWords) = [1, -1, 1, 0, 1, -2] := by decide +kernel
/-- R138: the sums 4, 10, -3 and 1, with the exponent raised. -/
theorem test_pladd : (pladdApply 4 127 [3, 6, -3, 1, 0, 0, 0, 0, 0, 0, 0, 0, 0, 0, 0, 0]
      ([0x3E00_0000, 0x3F00_0000, 0, 0x3D80_0000].map (Machine.decodeF fp32) ++ List.replicate 12 Val.zero)) = (128, some ([2, 5, -2] ++ List.replicate 13 0), 1) := by decide +kernel
/-- R369: the four planes of the example as registers, with and without rounding. -/
def handle8 : Handle := ⟨0x4000, 0x4100, 0x100, 1, 1, 1, 8⟩
theorem test_ldp_registers : (ldpRegs (.v 8) handle8 4 false none 0x7F planeWords).vs = [(8, 0x001B_002A), (9, 0x0018_001D), (10, 0x7F)]
    ∧ (ldpRegs (.v 8) handle8 4 true none 0x7F planeWords).vs = [(8, 0x0013_0022), (9, 0x0010_0015), (10, 0x7F)]
    ∧ (ldpRegs (.v 8) handle8 4 false (some 0) 0x7F planeWords).vs = [(8, 0xF020_C060), (9, 0x7F)]
    ∧ (ldpRegs (.v 8) handle8 4 true (some 0) 0x7F planeWords).vs = [(8, 0x0020_C060), (9, 0x7F)]
    ∧ (ldpRegs (.v 8) handle8 4 false (some 1) 0x7F planeWords).vs = [(8, 0x0000_8070), (9, 0x7F)] := by decide +kernel
/-- R139, R140: the transform of (1, 0, ...) and of sixteen ones. -/
theorem test_hadamard : (hadFloat ([0x3F80_0000, 0, 0, 0, 0, 0, 0, 0, 0, 0, 0, 0, 0, 0, 0, 0].map (Machine.decodeF fp32))).map Prod.fst = List.replicate 16 0x3E80_0000
    ∧ (hadFloat (List.replicate 16 (Machine.decodeF fp32 0x3F80_0000))).map Prod.fst = 0x4080_0000 :: List.replicate 15 0 := by decide +kernel
/-- R229, R234: the nine steps of the example on a screen of 4 x 2 buckets. -/
def takes : List Nat → List Nat → List Nat → List (Option Nat) × List Nat × List Nat
  | h, t, [] => ([], h, t)
  | h, t, d :: ds =>
    match takeFrom 4 2 h t d with
    | none => let r := takes h t ds; (none :: r.1, r.2)
    | some (e, front, b) => let r := takes (if front then lmod h e (fun n => n + 1) else h) (if front then t else lmod t e (fun n => n + 1)) ds; (some b :: r.1, r.2)
theorem test_take_bucket : takes [0, 0, 0, 0] [0, 0, 0, 0] [2, 1, 1, 1, 2, 3, 3, 0, 0]
    = ([some 2, some 1, some 7, some 4, some 5, some 3, some 6, some 0, none], [1, 2, 1, 1], [1, 0, 1, 1]) := by decide +kernel


/-- PlaneAndSamplingWordsIssue: a tensor handle, a texture of one texel with a filter of one tap, and an empty scene. No cached translation is kept. -/
def records : List (Nat × List Byte) :=
  [(0x20000, leBytes 8 0x21000 ++ leBytes 8 0x22000 ++ leBytes 4 0x100 ++ leBytes 4 1 ++ leBytes 4 1 ++ leBytes 2 1 ++ [8, 0]),
   (0x20040, leBytes 8 0x23000 ++ leBytes 4 0 ++ leBytes 2 1 ++ leBytes 2 1 ++ leBytes 8 1 ++ leBytes 8 0x24000 ++ zeros 32), (0x24000, [1])]
def sampling : State :=
  { sset half [(2, 0x20040), (4, 0x20000), (6, 0x25000)] with mem := records.foldl (fun m r => Mem.wrN m r.1 r.2) half.mem, dies := [] }
def planeF (c : Byte) (sc : Scope) : MemF := memf (.v 8) (.s 4) (.k .zero) c .b32 .global sc .plain
theorem witness_planes : ∀ i ∈ [(Instr.ldp (planeF 0x84 .none), planeF 0x84 .none, fun h : Handle => planesRead 4 h.pcnt true), (.stp (planeF 0xFF .none), planeF 0xFF .none, Handle.pcnt),
      (.pladd (planeF 0xFF .dev), planeF 0xFF .dev, Handle.pcnt)],
    i.1.wf = true ∧ readyB sampling i.1 = true ∧ sampling.executing i.1 = [t0] ∧ (sampling.readRecords i.1 0 (handleReq i.2.1.a)).1.issue = sampling.issue
      ∧ (match (sampling.readRecords i.1 0 (handleReq i.2.1.a)).1.handleFor (sampling.readRecords i.1 0 (handleReq i.2.1.a)).2 i.2.1.a i.2.1.b i.2.2 t0 with
        | .ok r => r.2.1.pcnt == 8 && r.2.2 == 0 && decide (8 + (r.2.1.pcnt + 1) / 2 < sampling.nregOf 0)
          && ((sampling.readRecords i.1 0 (handleReq i.2.1.a)).1.blockInSystem t0 r.2.1 r.2.2).isNone
        | .error _ => false) = true := by decide +kernel
def texF : OwnF := own (.v 4) (.v 2) (.k .zero) (.s 2)
theorem witness_textures : ∀ i ∈ [(Instr.tex texF 3, false), (.texg texF 0, true)],
    i.1.wf = true ∧ readyB sampling i.1 = true ∧ sampling.executing i.1 = [t0] ∧ (sampling.texRecords i.1 texF).1.issue = sampling.issue
      ∧ (let r := sampling.texRecords i.1 texF
         let d := (mget r.2.1 t0).getD []
         let hp := (mget r.2.2.2.1 t0).getD []
         let taps := (mget r.2.2.2.2 t0).getD []
         (mget r.2.1 t0).isSome && descOk d && descPlanesOk d [] && progOk hp taps && !usesRef hp taps
           && (match (filterRun (coreRead 0 0) d (hp ++ taps) i.2 false (List.replicate (if i.2 then 6 else 2) 0) r.1).2 with | .ok _ => true | .error _ => false)) = true := by
  decide +kernel
theorem witness_rays : ∀ any ∈ [false, true], let i := Instr.rayq (own (.v 4) (.v 10) .z (.s 6)) any
    i.wf = true ∧ readyB sampling i = true ∧ sampling.executing i = [t0] ∧ (sampling.readRecords i 6 (sceneReq (own (.v 4) (.v 10) .z (.s 6)))).1.issue = sampling.issue
      ∧ (let r := sampling.readRecords i 6 (sceneReq (own (.v 4) (.v 10) .z (.s 6)))
         let sc := (mget r.2 t0).getD []
         (mget r.2 t0).isSome && sceneOk sc
           && (match (rayRun (coreRead 0 0) sc any (List.replicate 9 0) r.1).2 with | .ok _ => true | .error _ => false)) = true := by decide +kernel

/-- Mailbox requests: the physical function, with its completion word in device memory. -/
def pf : MailReq := ⟨0, 0x30000, false⟩
theorem accepts_pf {s : State} (h : s.boot.verified = true) (b : Bool) : Machine.Accepts s pf b := ⟨by decide, by decide, by decide, h, fun _ => rfl, rfl⟩
/-- A part with page faults of an access, a record, a matrix entry and a word of an engine, and a fault ring with room for them. -/
def faultOf (site : FaultSite) (tag : Option Nat) (replayed : Bool) : PFault :=
  { site := site, va := 0x40000000, cause := 0, acc := 0, unit := 0, die := 0, core := 0, slot := 0, queue := 0, ctx := 0, fn := 0, page := 0x40000000, size := 4096
    noted := true, tag := tag, replayed := replayed, cancelled := false }
def faulted (site : FaultSite) (tag : Option Nat) (replayed : Bool) : State :=
  { pend (.load (.v 4) .b32 false) .global .none .plain 0x40000000 4 with
    accs := [(7, ⟨t0, [t0], .load (.v 4) .b32 false, 3, .global, .none, .plain, .normal, 0x40000000, 4, some 0, if site = .access 7 then some 1 else none, false, none⟩)]
    faults := [(1, faultOf site tag replayed)], rings := [(0, ⟨0x50000, 4, 0⟩)] }
theorem witness_access_fault : canonicalB (pend (.load (.v 4) .b32 false) .global .none .plain 0x40000000 4) = true
    ∧ ((pend (.load (.v 4) .b32 false) .global .none .plain 0x40000000 4).xlate 0 0 0x40000000 { r := true }).2 matches .error _
    ∧ ((pend (.store [1]) .global .none .plain 0x40000000 1).xlate 0 0 0x40000000 { w := true }).2 matches .error _
    ∧ ∀ e ∈ (pend (.load (.v 4) .b32 false) .global .none .plain 0x40000000 4).accs,
        (pend (.load (.v 4) .b32 false) .global .none .plain 0x40000000 4).canPerform e.1 e.2 = true ∧ e.2.fault = none := by decide +kernel
theorem witness_fault_ring : canonicalB (faulted (.access 7) none false) = true ∧ mget (faulted (.access 7) none false).rings 0 = some ⟨0x50000, 4, 0⟩
    ∧ (faulted (.access 7) none false).faults.find? (fun e => decide (e.2.fn = 0 ∧ e.2.noted = true ∧ e.2.tag = none)) = some (1, faultOf (.access 7) none false)
    ∧ inMap 0x50000 = true ∧ BitVec.ofNat 64 0 - BitVec.ofNat 64 (leNat (Mem.rdN (faulted (.access 7) none false).mem 0x50008 8)) ≠ BitVec.ofNat 64 (2 ^ 4) := by decide +kernel
theorem witness_fault_answers : ∀ site ∈ [FaultSite.access 7, .record t0, .fetch t0, .matrix 0 0], (faulted site (some 5) false).boot.verified = true
    ∧ (faulted site (some 5) false).faults.find? (fun e => decide (e.2.fn = 0 ∧ e.2.tag = some 5 ∧ e.2.replayed = false ∧ e.2.cancelled = false)) = some (1, faultOf site (some 5) false)
    ∧ (faulted site (some 5) false).faults.find? (fun e => decide (e.2.fn = 0 ∧ e.2.tag = some 6 ∧ e.2.replayed = false ∧ e.2.cancelled = false)) = none
    ∧ canonicalB (faulted site (some 5) false) = true
    ∧ (site ≠ .access 7 → ∀ e ∈ (faulted site (some 5) false).accs, e.2.fault = none) := by decide +kernel
theorem witness_fault_resume : (1, faultOf (.matrix 0 0) (some 5) true) ∈ (faulted (.matrix 0 0) (some 5) true).faults
    ∧ (0x60000 % 4096 = 0 ∧ inMap 0x60000 = true ∧ inMap (0x60000 + (64 + 32 * 2 ^ 16) - 1) = true) := by decide +kernel

/-- Requests on queues, contexts and regions: a queue descriptor at 0x60000, queue 3 with an error and queue 4 at rest, region 5. -/
def descB : List Byte := leBytes 8 0x40000 ++ [4, 0] ++ leBytes 2 0 ++ leBytes 4 4096 ++ leBytes 8 0x70000 ++ leBytes 8 4096 ++ zeros 16 ++ leBytes 8 0x61000 ++ zeros 8
def queue0 : Queue := newQueue 0 0 0x60000 descB
def desk : State :=
  { one with mem := Mem.wrN one.mem 0x60000 descB, disps := [], regions := [(5, ⟨0, true⟩)], queues := [(3, { queue0 with err := true, slot := some 1 }), (4, queue0)]
             rings := [(0, ⟨0x50000, 4, 0⟩)] }
theorem witness_QueueRequests : canonicalB desk = true ∧ desk.boot.verified = true ∧ desk.queueNo 0 2 = some 2 ∧ (desk.queue 2).isNone = true ∧ inDevice 0x60000 = true
    ∧ desk.queueDescOk 0 (Mem.rdN desk.mem 0x60000 64) = true ∧ desk.queueNo 0 3 = some 3 ∧ desk.queueAtRest 3 { queue0 with err := true, slot := some 1 } = false
    ∧ desk.queue 4 = some queue0 ∧ desk.queueAtRest 4 queue0 = true ∧ desk.queueNo 0 4096 = none := by decide +kernel
theorem witness_ContextRequests : desk.ctxAllowed 0 9 = true ∧ inDevice 0x8000 = true ∧ desk.ownCtx 0 0 = true ∧ (∀ e ∈ one.queues, e.2.ctx ≠ 0) ∧ one.ownCtx 0 0 = true
    ∧ one.boot.verified = true ∧ (∃ e ∈ desk.queues, e.2.ctx = 0) ∧ desk.injMsgs = [] ∧ mget desk.regions 6 = none ∧ mget desk.regions 5 = some ⟨0, true⟩ := by decide +kernel

/-- RegisterRequests: a pinned region, full pins of another die, an error log and a chain of the layout engine with a command taken. -/
def chain0 (cmd : List Byte) : Chain := ⟨0x62000, 0, 4, [(1, 0)], some (0, copyRunOf cmd 0x63000), [], [], false⟩
def registers : State :=
  { desk with dies := [{ Die.reset with pins := [(0x10000, 0x10000)], dasr := 31, layout := [chain0 (2 :: List.replicate 63 0)] }, Die.reset, Die.reset, Die.reset]
              errlog := List.replicate 256 ⟨1, 2, 3, 4, 5, 6⟩ }
theorem witness_RegisterRequests : canonicalB registers = true ∧ registers.boot.verified = true ∧ homeDie 0x20000 = some 0 ∧ homeDie (0x20000 + 0x7F0000 - 1) = some 0
    ∧ ((registers.die 0).pins.map Prod.snd).sum + 0x7F0000 ≤ 8388608 ∧ (registers.die 0).pins.length < 8
    ∧ (registers.die 0).pins.find? (fun p => p.1 == 0x10000) = some (0x10000, 0x10000) ∧ registers.errlog.length ≤ 256 ∧ registers.dies.length = 4
    ∧ inMap 0x80000 = true ∧ inMap (0x80000 + 8192 - 1) = true ∧ registers.boot.digest.length = 64 ∧ registers.ownCtx 0 0 = true := by decide +kernel
theorem witness_abort : (registers.dieCommand 0 0 0x62000 0).map Prod.fst = some (.layout 0) ∧ (registers.dieCommand 0 0 0x62000 0).all (fun p => p.2.queue == 4 && p.2.cur.isSome) = true
    ∧ (registers.chain (.layout 0) 0x62000 0).isSome = true ∧ (registers.queue 4).map Queue.err = some false := by decide +kernel
/-- RefusedRequests: another function, and reserved bytes that are not zero. -/
theorem witness_RefusedRequests : canonicalB desk = true ∧ (16 : Nat) ≤ 16 ∧ (0x30000 : DWord).toNat % 8 = 0 ∧ inMap 0x30000 = true ∧ desk.boot.verified = true
    ∧ (⟨16, 0x30000, false⟩ : MailReq).fn ≠ 0 ∧ (⟨0, 0x30000, true⟩ : MailReq).bad = true := by decide +kernel

/-- Identity and Quiet, computed. -/
def identityB (s : State) : Bool :=
  (mget s.contexts 0).any (fun c => c.root == 0x8000) && leNat (Mem.rdN s.mem 0x8000 8) == 0x9001 && leNat (Mem.rdN s.mem 0x9000 8) == 0xA001
    && leNat (Mem.rdN s.mem 0xA000 8) == 0x8F && s.dies.all (fun d => d.tlb.isEmpty && d.walk.isEmpty) && s.lost.isEmpty
theorem identity_of {s : State} (h : identityB s = true) : Identity s := by
  simp only [identityB, Bool.and_eq_true, beq_iff_eq, Option.any_eq_true, List.all_eq_true, List.isEmpty_iff] at h
  obtain ⟨⟨⟨⟨⟨h1, h2⟩, h3⟩, h4⟩, h5⟩, h6⟩ := h
  have k : ∀ d, (s.die d).tlb = [] ∧ (s.die d).walk = [] := by
    intro d
    simp only [State.die, List.getD_eq_getElem?_getD]
    cases hd : s.dies[d]? with
    | none => simp [Die.reset]
    | some x => simpa using h5 x (List.mem_of_getElem? hd)
  exact ⟨h1, h2, h3, h4, fun d e he => by simp [(k d).1] at he, fun d e he => by simp [(k d).2] at he, h6⟩
def quietB (s : State) : Bool := s.dies.all (fun d => d.injMask.isEmpty) && s.invMsgs.isEmpty && s.injMsgs.isEmpty
theorem quiet_of {s : State} (h : quietB s = true) : Quiet s := by
  simp only [quietB, Bool.and_eq_true, List.all_eq_true, List.isEmpty_iff] at h
  refine ⟨fun d => ?_, h.1.2, h.2⟩
  simp only [State.die, List.getD_eq_getElem?_getD]
  cases hd : s.dies[d]? with
  | none => simp [Die.reset]
  | some x => simpa using h.1.1 x (List.mem_of_getElem? hd)

/-- AtomicsComplete: atomics of one and of two lanes at every scope, and one of a page of the system range. -/
def lanesAt (d : Opnd) (va : DWord) (vb : DWord := va) : List AtLane := [⟨t0, va, d, 0x3F800000, 0⟩, ⟨t1, vb, d, 0x40000000, 5⟩]
def atomicOf (k : AtKind) (ret : Bool) (sz : Sz) (sp : Space) (sc : Scope) (o : Ord3) (ls : List AtLane) : State × AtKind × Bool × Sz × List AtLane :=
  (pendOf (.atoms k ret sz ls) sp sc o ((ls.map AtLane.va).headD 0) (szBytes sz) (ls.map AtLane.t), k, ret, sz, ls)
def atomics : List (State × AtKind × Bool × Sz × List AtLane) :=
  [atomicOf (.rmw 9) true .b32 .global .sys .sync (lanesAt (.v 4) 0x20000), atomicOf (.rmw 0) false .b64 .global .dev .rlx (lanesAt .z 0x20040 0x20080),
    atomicOf .cas true .b64 .global .dev .rlx (lanesAt (.v 190) 0x20048), atomicOf (.rmw 4) false .b32 .scratch .wg .rlx (lanesAt .z 8 1016)]
  ++ [Scope.grp, .wg, .cl, .die, .dev, .sys].map (fun sc => atomicOf (.rmw 10) true .b32 .global sc .sync ((lanesAt (.v 4) 0x20000).take 1))
def cleanB (s : State) : Bool := (s.core 0).l1.isEmpty && (s.die 0).l2.isEmpty
def dueB (s : State) : Bool :=
  canonicalB s && s.injMsgs.isEmpty && decide (s.accs.map Prod.fst).Nodup && s.accs.all (fun e => mget s.accs e.1 == some e.2 && s.canPerform e.1 e.2 && decide e.2.owners.Nodup
    && e.2.owners.all (fun t => s.coreOf t == 0))
theorem witness_atomics : atomics.all (fun p =>
    let (s, k, r, sz, ls) := p
    dueB s && identityB s && quietB s && cleanB s && decide (ls ≠ []) && ls.all (fun l => s.coreOf l.t == 0) && (r || decide (ls.map AtLane.va).Nodup)
      && ls.all (fun l => decide (l.va.toNat % szBytes sz = 0 ∧ l.va.toNat < 2 ^ 30) && (!r || decide ((match l.d with | .v k => k.val | _ => 256) + szBytes sz / 4 ≤ 192)))
      && s.accs.all (fun e => e.2.op == .atoms k r sz ls && e.2.owners == ls.map AtLane.t && (s.redMates e.1 e.2).isEmpty
        && (e.2.space == .global || ls.all (fun l => s.place l.t.wg e.2.space l.va (szBytes sz) == some (.spad 0 l.va.toNat))))) = true := by decide +kernel

/-- After translations nothing is dirty where nothing was. -/
theorem clean_of {s u : State} (h : Cached s u) (hc : (s.core 0).l1 = [] ∧ (s.die 0).l2 = []) (pa : Nat) : CleanLine u 0 pa := by
  obtain ⟨h1, -, h3⟩ := h
  obtain ⟨_, _, e⟩ := h3 0
  intro k _ c hc0
  subst hc0
  refine ⟨fun l hl => ?_, fun l hl => ?_⟩
  · rw [show (u.core 0).l1 = (s.core 0).l1 by rw [h1]; rfl, hc.1] at hl; simp at hl
  · rw [e] at hl; simp [hc.2] at hl
theorem witness_atomics_reach (p : State × AtKind × Bool × Sz × List AtLane) (h : p ∈ atomics) (nd : Need) : ∃ u,
    p.1.xlateAll 0 0 nd (p.2.2.2.2.map AtLane.va) = (u, .ok ((p.2.2.2.2.map AtLane.va).map (fun v => ⟨v.toNat, ord, 0, 2 ^ 30, 0x8F⟩)))
      ∧ ∀ v ∈ p.2.2.2.2.map AtLane.va, inSystem v.toNat = false ∧ CleanLine u 0 v.toNat := by
  have := List.all_eq_true.mp witness_atomics p h
  obtain ⟨s, k, r, sz, ls⟩ := p
  simp only [Bool.and_eq_true, List.all_eq_true, decide_eq_true_eq, cleanB, List.isEmpty_iff] at this
  obtain ⟨⟨⟨⟨⟨⟨⟨⟨-, hi⟩, -⟩, hc⟩, -⟩, -⟩, -⟩, hv⟩, -⟩ := this
  have lt : ∀ v ∈ ls.map AtLane.va, v.toNat < 2 ^ 30 := by
    intro v hm
    obtain ⟨l, hl, rfl⟩ := List.mem_map.mp hm
    exact (hv l hl).1.2
  obtain ⟨u, e, c, -⟩ := xlateAll_identity 0 nd (ls.map AtLane.va) (identity_of hi) lt
  exact ⟨u, e, fun v hm => ⟨inSystem_low (lt v hm), clean_of c hc _⟩⟩

/-- An atomic of a page of the system range. -/
def atSystem : State := { pendOf (.atoms (.rmw 0) true .b32 [⟨t0, 0x40000000, .v 4, 0, 0⟩]) .global .sys .rlx 0x40000000 4 [t0] with mem := sysPage.mem }
theorem witness_atomic_system : dueB atSystem = true ∧ userTrapB atSystem 0 [t0] = true ∧ atSystem.accs.all (fun e => (atSystem.redMates e.1 e.2).isEmpty) = true
    ∧ (atSystem.threads.map Prod.fst).Nodup ∧ (atSystem.thr t0).map Thread.exited = some false
    ∧ (match (atSystem.xlateAll 0 0 { r := true, w := true } [0x40000000]).2 with | .ok [x] => inSystem x.pa | _ => false) = true := by decide +kernel

/-- OtherLoadsComplete and OtherAccessesComplete: the records of a plane tensor, a texture and a scene. -/
def handleB : List Byte := leBytes 8 0x21000 ++ leBytes 8 0x22000 ++ leBytes 4 0x100 ++ leBytes 4 1 ++ leBytes 4 1 ++ leBytes 2 1 ++ [8, 0]
def textureB : List Byte := leBytes 8 0x23000 ++ leBytes 4 0 ++ leBytes 2 1 ++ leBytes 2 1 ++ leBytes 8 1 ++ leBytes 8 0x24000 ++ zeros 32
def others : List State :=
  [pendOf (.ldl (.v 4) true) .global .none .plain 0x10008 8 [t0], pendOf (.ldl (.s 30) false) .global .none .plain 0x10010 4 [t0],
   pendOf (.ldp (.v 8) handleB 0 4 true none) .global .dev .sync 0x20000 32 [t0], pendOf (.ldp (.v 8) handleB 0 8 false (some 3)) .global .dev .rlx 0x20000 32 [t0],
   pendOf (.tex (.v 4) 3 false textureB ([1] ++ zeros 71) [0, 0] false) .global .none .plain 0x20040 64 [t0], pendOf (.rayq (.v 4) false (leBytes 8 0x25000 ++ zeros 24) (List.replicate 9 0)) .global .none .plain 0x25000 32 [t0],
   pendOf (.pladd handleB [(0, List.replicate 16 0x3F800000)]) .global .dev .sync 0x20000 32 [t0],
   pendOf (.stp handleB 0 (List.replicate 8 7) 3) .global .dev .rlx 0x20000 32 [t0], pendOf (.stp handleB 0 (List.replicate 8 7) 3) .global .none .plain 0x20000 32 [t0],
   pendOf (.stis [(t0, 0x20010, zeros 16, 5)]) .global .die .sync 0x20010 16 [t0], pendOf (.stis []) .global .die .rlx 0x20010 16 [t0],
   pendOf (.wbr 300) .global .none .plain 0x20070 300 [t0], pendOf (.invr 300) .global .none .plain 0x20070 300 [t0]]
theorem witness_others : others.all (fun s => dueB s && identityB s && quietB s) = true := by decide +kernel
theorem witness_tex : (match (filterRun (coreRead 0 0) textureB ([1] ++ zeros 71) false false [0, 0] others[4]).2 with | .ok r => r.1.length | .error _ => 0) = 4 := by decide +kernel
theorem witness_rayq : (match (rayRun (coreRead 0 0) (leBytes 8 0x25000 ++ zeros 24) false (List.replicate 9 0) others[5]).2 with | .ok r => r.length | .error _ => 0) = 4 := by decide +kernel
theorem witness_ldp (k : Nat) (h : k = 2 ∨ k = 3) : ∃ hd op sc o, (others.getD k half).accs.map (fun e => (e.2.op, e.2.sc, e.2.ord)) = [(op, sc, o)]
    ∧ (∃ d b j rnd q, op = .ldp d handleB b j rnd q) ∧ handleOf handleB = some hd ∧ hd.expAddr 0 < 2 ^ 30 ∧ (∀ j < 16, hd.planeAddr 0 j % 2 = 0 ∧ hd.planeAddr 0 j + 2 ≤ 2 ^ 30)
    ∧ sc = .dev ∧ o ≠ .plain := by
  rcases h with rfl | rfl <;> exact ⟨_, _, _, _, rfl, ⟨_, _, _, _, _, rfl⟩, rfl, by decide +kernel, by decide +kernel, rfl, by decide⟩
theorem witness_ldp_served {s : State} (hi : Identity s) (h1 : (s.core 0).l1 = []) (A : Nat → Prop) (hA : ∀ a, A a → a < 2 ^ 30) {o : Ord3} (ho : o ≠ .plain) :
    Served s (readAt 0 0 { r := true } (levelRead .dev o .normal 0)) (Mem.rd s.mem) A (fun v => Cached s v ∧ Identity v) := by
  refine ⟨⟨.refl s, hi⟩, fun v ⟨hc, hv⟩ => ⟨hc.only, hc.mem, fun va n hn ha => ?_⟩⟩
  have low : va < 2 ^ 30 := hA _ (ha 0 hn).1
  obtain ⟨u, e, c, i, m⟩ := xlate_identity hv 0 va low { r := true }
  refine ⟨u, ?_, hc.trans c, i⟩
  have g : ¬ 2 ^ 60 ≤ va := by have := (ha 0 hn).2.1; omega
  have l : (u.core 0).l1 = [] := by rw [(hc.trans c).1]; exact h1
  simp only [readAt, if_neg g, e, levelRead, ho, decide_false, Scope.wide, Bool.not_true, Bool.false_eq_true, if_false, reduceCtorEq, Bool.false_and,
    State.bypassRead, State.l2Read, State.meetKinds, heldApart, inSystem_low low, Bool.or_self, Bool.not_false, if_true,
    State.l1Refresh, State.overlay, State.l1Find, l, List.find?_nil, m, hc.mem]
  rfl
/-- The leaf of an access of one address. -/
theorem witness_ldl : [0, 1].all (fun k => (others.getD k half).accs.all (fun e => match ((others.getD k half).xlateAcc e.2 { x := true }).2 with
    | .ok x => x.pa == e.2.va.toNat | .error _ => false)) = true := by decide +kernel
theorem witness_range_reach (k : Nat) (h : k ∈ [6, 7, 8, 9, 11, 12]) (nd : Need) (vs : List DWord) (hv : ∀ v ∈ vs, v.toNat < 2 ^ 30) : ∃ u,
    (others.getD k half).xlateAll 0 0 nd vs = (u, .ok (vs.map (fun v => ⟨v.toNat, ord, 0, 2 ^ 30, 0x8F⟩))) ∧ ∀ pa, CleanLine u 0 pa := by
  have hk : others.getD k half ∈ others := by
    simp only [List.mem_cons, List.not_mem_nil, or_false] at h
    rcases h with rfl | rfl | rfl | rfl | rfl | rfl <;> simp [others]
  have := List.all_eq_true.mp witness_others _ hk
  simp only [Bool.and_eq_true] at this
  obtain ⟨u, e, c, -⟩ := xlateAll_identity 0 nd vs (identity_of this.1.2) hv
  refine ⟨u, e, clean_of c ?_⟩
  simp only [List.mem_cons, List.not_mem_nil, or_false] at h
  rcases h with rfl | rfl | rfl | rfl | rfl | rfl <;> exact ⟨rfl, rfl⟩
/-- StoredBytesAreRead and the range words: a line of another die on an S page, dirty in an L1 and in the die's L2. -/
def remoteX : Xl := ⟨dieStride, ⟨false, true, 0, none⟩, dieStride, 4096, 0⟩
def remoteDirty : State :=
  { half with
    cores := half.cores.map (fun e => (e.1, { e.2 with l1 := [⟨dieStride / 128, 15, 1 <<< 5, 0xFF <<< 40, false, 0, remoteX.attr, 0, .normal⟩] }))
    dies := [{ Die.reset with l2 := [(dieStride / 128, ⟨15, 1 <<< 9, 0, none⟩)] }, Die.reset, Die.reset, Die.reset] }
theorem witness_range_lines : canonicalB remoteDirty = true ∧ homeDie dieStride = some 1 ∧ inDevice dieStride = true
    ∧ (∀ p ∈ [(0, 128), (5, 6), (32, 128)], p.1 < p.2 ∧ p.1 % 128 + (p.2 - p.1) ≤ 128)
    ∧ (((remoteDirty.core 0).l1.map L1Line.line).Nodup ∧ ∀ l ∈ (remoteDirty.core 0).l1, heldApart 0 (128 * l.line) l.attr = true)
    ∧ mget remoteDirty.kinds (dieStride / 128) ≠ some (true, true) := by decide +kernel

/-- EngineWordsAppend: a chain descriptor of a copy engine at 0x20000, with its ring at 0x21000 and a head, tail and reserve tail. -/
def chainB (wtail tail head : Nat) : List Byte := leBytes 8 0x21000 ++ [4, 0, 0, 0] ++ zeros 4 ++ leBytes 8 wtail ++ leBytes 8 tail ++ leBytes 8 head ++ zeros 24
def eng (b : List Byte) (w : Wait) : State :=
  sset { mapT half (fun x => { x with wait := w }) with mem := Mem.wrN half.mem 0x20000 b } [(2, 0x20000), (6, 3)]
def chappF : OwnF := own (.s 8) (.s 2) (.s 4) .z
def chadvF : OwnF := own .z (.s 2) (.s 6) .z
theorem eng_desc (b : List Byte) (w : Wait) (h : identityB (eng b w) = true) : ∃ u, rdBytes (descRead 0 0) 0x20000 64 (eng b w) = (u, .ok (Mem.rdN (eng b w).mem 0x20000 64))
    ∧ Cached (eng b w) u ∧ Identity u ∧ (u.core 0).l1 = [] :=
  reads_bytes (reads_desc 0) (identity_of h) rfl (by omega)
theorem witness_EngineWordsAppend (b : List Byte) (h : b = chainB 5 2 0 ∨ b = chainB 16 2 0) :
    ∃ u v u1 u2, rdBytes (descRead 0 0) 0x20000 64 (eng b .none) = (u, .ok b) ∧ rdBytes (descRead 0 0) 0x20000 64 u = (v, .ok b)
      ∧ u.descPut 0 0 0x20010 ((chainDescOf b).wtail + 1) = (u1, .ok ())
      ∧ u1.xlate 0 0 ((chainDescOf b).entry (chainDescOf b).wtail) { w := true } = (u2, .ok ⟨(chainDescOf b).entry (chainDescOf b).wtail, ord, 0, 2 ^ 30, 0x8F⟩)
      ∧ ∃ w, (u.release 0 0 .dev).descPut 0 0 0x20018 4 = (w, .ok ()) := by
  have hb : Mem.rdN (eng b .none).mem 0x20000 64 = b ∧ identityB (eng b .none) = true ∧ quietB (eng b .none) = true ∧ (eng b .none).mem.wf = true
      ∧ (chainDescOf b).entry (chainDescOf b).wtail < 2 ^ 30 := by
    rcases h with h | h <;> subst h <;> decide +kernel
  obtain ⟨h1, h2, h3, h4, h5⟩ := hb
  obtain ⟨u, e, c, i, p⟩ := eng_desc b .none h2
  obtain ⟨v, e', -, -, -⟩ := reads_bytes (reads_desc 0) i p (show 0x20000 + 64 ≤ 2 ^ 30 by omega)
  obtain ⟨u', e1, -, i1⟩ := descPut_identity (va := 0x20010) i (c.quiet (quiet_of h3)) (by rw [c.mem]; exact h4) 0 ((chainDescOf b).wtail + 1) (by omega) (by omega)
  obtain ⟨u2, e2, -, -, -⟩ := xlate_identity i1 0 _ h5 { w := true }
  rw [h1] at e
  rw [c.mem, h1] at e'
  have r : u.release 0 0 .dev = u := by simp [State.release, Scope.wide, State.writeBackTag, p]
  obtain ⟨w, e3, -, -⟩ := descPut_identity (va := 0x20018) i (c.quiet (quiet_of h3)) (by rw [c.mem]; exact h4) 0 4 (by omega) (by omega)
  exact ⟨u, v, _, u2, e, e', e1, e2, _, by rw [r]; exact e3⟩
theorem witness_engine_words : ∀ b ∈ [chainB 5 2 0, chainB 16 2 0], canonicalB (eng b .none) = true ∧ (chainDescOf b).ok 0 = true
    ∧ (∀ i ∈ [Instr.chapp chappF, .chadv chadvF, .cpy (own .z (.s 4) .z .z)], i.wf = true ∧ readyB (eng b .none) i = true ∧ (eng b .none).executing i = [t0])
    ∧ (∀ e ∈ (eng b .none).threads, e.2.reserved = none) ∧ (chainDescOf b).upTo 3 < (chainDescOf b).wtail ∧ ((eng b .none).core 0).chains = []
    ∧ (max (chainDescOf b).tail 4 = 4 ∧ (chainDescOf b).head = 0) ∧ (eng b .none).spbOf 0 = 1024 ∧ ((eng b .none).core 0).cpyq.length = 0 := by decide +kernel
theorem witness_engine_waits : ((eng (chainB 5 2 0) (.chapp 0 0x20000)).thr t0).map Thread.wait = some (.chapp 0 0x20000)
    ∧ ((eng (chainB 5 2 0) (.chadv (.layout 0))).thr t0).map Thread.wait = some (.chadv (.layout 0)) ∧ identityB (eng (chainB 5 2 0) (.chapp 0 0x20000)) = true
    ∧ ((eng (chainB 5 2 0) (.chadv (.layout 0))).chainsOf (.layout 0)).length = 0 := by decide +kernel

/-- EngineCommandsRun: the chain of a copy engine whose entry 0 is published, before and after it is taken. -/
def copyB (opc fmt cwc : Byte) (src dst shp prog cw : Nat) (loop : Byte) : List Byte :=
  [opc, 0, fmt, fmt, 0, 1, 0x15, cwc] ++ leBytes 8 src ++ leBytes 8 dst ++ leBytes 8 shp ++ leBytes 8 prog ++ leBytes 8 cw ++ leBytes 8 9 ++ leBytes 4 0x3F800000
    ++ [loop, 0, 0, 0]
def listed (tail : Nat) (cur : Option (Nat × CopyRun)) (d : Nat) : State :=
  let h : Chain := ⟨0x20000, 0, 0, [(1, 0)], cur, [], [], false⟩
  { eng (chainB 5 tail 0) .none with
    cores := half.cores.map (fun e => (e.1, { e.2 with chains := if d = 0 then [h] else [] }))
    dies := [{ Die.reset with layout := if d = 1 then [h] else [], coll := if d = 2 then [h] else [] }, Die.reset, Die.reset, Die.reset] }
def refs : Nat → EngRef | 0 => .copy 0 | 1 => .layout 0 | _ => .collective 0
theorem engDesc_listed {s : State} (h : identityB s = true) : ∃ u, engDesc 0 0 0x20000 s = (u, .ok (chainDescOf (Mem.rdN s.mem 0x20000 64))) ∧ Cached s u ∧ Identity u := by
  obtain ⟨u, e, c, i, -⟩ := reads_bytes (reads_at 0 { r := true } (fun s pa n _ => (s, Mem.rdN s.mem pa n)) (fun _ _ _ _ => rfl)) (identity_of h) trivial
    (show 0x20000 + 64 ≤ 2 ^ 30 by omega)
  exact ⟨u, by simp only [engDesc, Ev.and, e, Ev.ret], c, i⟩
theorem witness_chain_entry (k : Nat) (hk : k < 3) : ∃ u v b, engDesc 0 0 0x20000 (listed 1 none k) = (u, .ok (chainDescOf (chainB 5 1 0)))
    ∧ rdBytes (engRead 0 0) ((chainDescOf (chainB 5 1 0)).entry 0) 64 u = (v, .ok b) := by
  have h : identityB (listed 1 none k) = true ∧ Mem.rdN (listed 1 none k).mem 0x20000 64 = chainB 5 1 0 := by
    match k, hk with
    | 0, _ => decide +kernel
    | 1, _ => decide +kernel
    | 2, _ => decide +kernel
  obtain ⟨u, e, -, i⟩ := engDesc_listed h.1
  obtain ⟨v, e', -⟩ := reads_bytes (reads_eng 0) i trivial (show (chainDescOf (chainB 5 1 0)).entry 0 + 64 ≤ 2 ^ 30 by decide)
  rw [h.2] at e
  exact ⟨u, v, _, e, e'⟩
theorem witness_chain_listed : ∀ k ∈ [0, 1, 2], ∀ t ∈ [0, 1], canonicalB (listed t none k) = true ∧ (chainDescOf (Mem.rdN (listed t none k).mem 0x20000 64)).tail = t
    ∧ (chainDescOf (Mem.rdN (listed t none k).mem 0x20000 64)).head = 0 ∧ identityB (listed t none k) = true
    ∧ ((listed t none k).chainsOf (refs k))[0]?.any (fun h => !h.fault && h.cur.isNone && h.desc == 0x20000 && h.ctx == 0 && pubOf h.pubs 0 == some 0) = true
    ∧ (listed t none k).pubRuns (refs k) 0 = true ∧ (listed t none k).pubSaved (refs k) 0 = false := by decide +kernel
/-- Completion words of scope 0, in the cluster scratchpad, and in device memory. -/
def nops : List (List Byte) := [copyB 0 7 0 0 0 0 0 0 1, copyB 0 7 0xA 0 0 0 0 512 1, copyB 0 7 5 0 0 0 0 0x22000 1]
def isOk {ε α : Type} : Except ε α → Bool | .ok _ => true | .error _ => false
theorem witness_chain_nop : ∀ k ∈ [0, 1, 2], ∀ b ∈ nops, let s := listed 1 (some (0, copyRunOf b 0x21000)) k
    let m := copyCmdOf b
    fld b 0 1 = 0 ∧ cwcOk (fld b 7 1) = true ∧ s.cwBad 0 0 (some 0) m.cwsp m.cw m.scope = false ∧ isOk (s.storeDone 0 0 (some 0) m.cwsp m.cw m.seq m.scope).2 = true
      ∧ (s.chain (refs k) 0x20000 0).map (fun h => (h.cur, h.fault, h.owner)) = some (some (0, copyRunOf b 0x21000), false, some 0) ∧ canonicalB s = true
      ∧ (k = 0 → ∀ a ∈ nops.take 2, let s := listed 1 (some (0, copyRunOf a 0x21000)) k; let m := copyCmdOf a
        isOk ((s.storeDone 0 0 (some 0) m.cwsp m.cw m.seq m.scope).1.descPut 0 0 0x20020 1).2 = true) := by decide +kernel
/-- The CPY queue: a NOP, and a copy of two elements of four bytes along one dimension, at its first element, out of bounds, or done. -/
def shape1 (bound : Byte) : List Byte := leBytes 2 2 ++ [bound, 0] ++ leBytes 4 1 ++ leBytes 4 1 ++ zeros 36 ++ leBytes 2 1 ++ [0, 1] ++ zeros 12
def cpyQ (b : List Byte) (shape : Option (List Byte)) (iter elem : Nat) : State :=
  { half with cores := half.cores.map (fun e => (e.1, { e.2 with
      cpyq := [⟨0, 0, [t0], some 0, { copyRunOf b 64 with shape := shape, iter := iter, elem := elem }⟩] })) }
def cpyB : List Byte := copyB 1 7 0 0 256 128 0 0 1
theorem witness_cpy_nop : ∀ b ∈ nops, let s := cpyQ b none 0 0; let m := copyCmdOf b
      s.cwBad 0 0 (some 0) m.cwsp m.cw m.scope = false ∧ isOk (s.storeDone 0 0 (some 0) m.cwsp m.cw m.seq m.scope).2 = true
        ∧ (s.cpyHead 0).map (fun h => (h.wg, h.issuers, h.run.fault)) = some (0, [t0], false) := by decide +kernel
theorem witness_cpy_done : (let s := (cpyQ cpyB (some (shape1 2)) 1 0).spadWrite 0 96 (leBytes 8 0)
       (copyCmdOf cpyB).loop = 1 ∧ fld cpyB 0 1 = 1 ∧ s.cwBad 0 0 (some 0) false 0 0 = false ∧ isOk (s.storeDone 0 0 (some 0) false 0 9 0).2 = true) := by decide +kernel
theorem witness_cpy_element : (∀ bnd ∈ [(1 : Byte), 2], let s := cpyQ cpyB (some (shape1 bnd)) 0 1; let m := copyCmdOf cpyB
        m.tr = false ∧ m.shadow = false ∧ m.rm = 0 ∧ m.sfmt = 7 ∧ m.dfmt = 7 ∧ m.ndim = 1 ∧ m.space 0 = 1 ∧ m.space 1 = 1 ∧ shDim (shape1 bnd) = 0
        ∧ shRing (shape1 bnd) = 1 ∧ fld (shape1 bnd) 0 2 = 1 + 1 ∧ m.loop = 1
        ∧ wrap 64 (m.dst + 0 + 4 * (1 * sgn 32 (fld (shape1 bnd) 8 4))) = 260 ∧ s.place 0 .scratch 260 4 = some (.spad 0 260)
        ∧ wrap 64 (m.src + 4 * (1 * sgn 32 (fld (shape1 bnd) 4 4))) = 4 ∧ s.place 0 .scratch 4 4 = some (.spad 0 4) ∧ (fld (shape1 bnd) 2 2 = bnd.toNat)) := by decide +kernel
/-- A schedule entry at the start of its first iteration, and one whose command has run. -/
def sched (b : List Byte) (run : Option CopyRun) : State :=
  { half with
    disps := half.disps.map (fun e => (e.1, { e.2 with lr := { e.2.lr with nsched := 1 } }))
    wgs := half.wgs.map (fun e => (e.1, { e.2 with sched := [⟨b, 0, run, some 1, false⟩] })) }
def schedB (opc cwc : Byte) (cw : Nat) : List Byte := (copyB opc 7 cwc 0 256 128 0 cw 1).take 48 ++ zeros 8 ++ (copyB opc 7 cwc 0 256 128 0 cw 1).drop 56
theorem witness_schedules : ∀ b ∈ [schedB 0 0 0, schedB 1 0 0, schedB 0 0xB 512, schedB 1 5 0x22000], let s := sched b none; let m := copyCmdOf b
    canonicalB s = true ∧ s.enginesRun 0 = true ∧ m.seq.toNat % 2 ^ 16 ≤ s.stageOf 0 ∧ 0 < m.loop ∧ cwcOk m.cwc = true ∧ s.schedCwBad 0 m 1 = false
      ∧ (let z := sched b (some { copyRunOf b 0 with iter := 1, shape := some (shape1 2) })
         let w : DWord := if m.cwsp then BitVec.ofNat 64 (m.cw.toNat % 1024) else m.cw
         z.cwBad 0 0 (some 0) m.cwsp w m.scope = false ∧ isOk (z.storeDone 0 0 (some 0) m.cwsp w 1 m.scope).2 = true) := by decide +kernel

/-- PrologueAndIm2colRun: a workgroup whose next binding is of each kind, with a tensor handle and the elements in memory. -/
def bindB (kind flg kpl : Byte) (src : Nat) (rows cols : Byte) : List Byte :=
  [kind, flg, 0, 0, kpl, 0, 0, 0] ++ leBytes 8 src ++ leBytes 4 0 ++ leBytes 4 64 ++ leBytes 4 64 ++ [rows, 0, cols, 0] ++ zeros 32
def bound (b : List Byte) : State :=
  { half with
    mem := Mem.wrN (Mem.wrN half.mem 0x20000 (leBytes 8 0x21000 ++ leBytes 8 0x22000 ++ leBytes 4 0x100 ++ leBytes 4 1 ++ leBytes 4 1 ++ leBytes 2 1 ++ [8, 0])) 0x26000 b
    disps := half.disps.map (fun e => (e.1, { e.2 with lr := { e.2.lr with nbind := 1, bindA := 0x26000 } })), dies := [] }
def okIs {ε α : Type} [DecidableEq α] (x : Except ε α) (a : α) : Bool := match x with | .ok y => decide (y = a) | _ => false
def bindRead (b : List Byte) : State × Except XErr (List Byte) := icData 0 0 0x26000 64 (bound b)
theorem served_bound (b : List Byte) (h : identityB (bindRead b).1 = true) : Served (bindRead b).1 (engRead 0 0) (Mem.rd (bindRead b).1.mem) (fun a => a < 2 ^ 30)
    (fun v => Cached (bindRead b).1 v ∧ Identity v) := served_eng (identity_of h) 0
theorem witness_bindings : ∀ b ∈ [bindB 1 0 4 0x20000 2 32, bindB 2 0 0 0x20000 2 3, bindB 3 2 0 0x20000 1 16, bindB 4 1 4 0x20000 2 32],
    identityB (bindRead b).1 = true ∧ ((bound b).wg 0).map (fun g => (g.resident, g.ended, g.bindFault, g.nextBind, g.die)) = some (true, false, false, 0, 0)
      ∧ ((bound b).wg 0).map Workgroup.halt = some .running ∧ ((bound b).lrOf 0).map (fun l => (l.nbind, l.bindA)) = some (1, 0x26000) ∧ (bound b).ctxOf 0 = 0
      ∧ okIs (bindRead b).2 b = true ∧ bindOk b (((bound b).lrOf 0).map Launch.spb |>.getD 0) = true
      ∧ (∀ i < (bindOf b).rows, ∀ c < (bindOf b).cols, (bindOf b).src + (i * (bindOf b).spitch + c) * 4 + 3 < 2 ^ 30) := by decide +kernel
theorem witness_binding_kinds : (bindOf (bindB 2 0 0 0x20000 2 3)).kind = 2 ∧ (bindOf (bindB 3 2 0 0x20000 1 16)).had = 16 ∧ copyFmt 0 = some fp32
    ∧ handleOf (bytesAt (Mem.rd (bindRead (bindB 1 0 4 0x20000 2 32)).1.mem) 0x20000 32) = some ⟨0x21000, 0x22000, 0x100, 1, 1, 1, 8⟩
    ∧ ∀ p ∈ blockAddrs ⟨0x21000, 0x22000, 0x100, 1, 1, 1, 8⟩ 0 8, p.1 % p.2 = 0 ∧ p.1 + p.2 < 2 ^ 30 := by decide +kernel

/-- Translation holds, no injected copy is about, and memory is in its form. -/
def Plain (s : State) : Prop := Identity s ∧ Quiet s ∧ s.mem.wf = true
theorem plain_of {s : State} (h : (identityB s && quietB s && s.mem.wf) = true) : Plain s := by
  simp only [Bool.and_eq_true] at h
  exact ⟨identity_of h.1.1, quiet_of h.1.2, h.2⟩
theorem Plain.cached {s u : State} (h : Plain s) (c : Cached s u) (i : Identity u) : Plain u := ⟨i, c.quiet h.2.1, by rw [c.mem]; exact h.2.2⟩
theorem Plain.write {s : State} (h : Plain s) (d : Nat) {va : Nat} (hp : 0xB000 ≤ va) (hv : va < 2 ^ 30) (bs : List Byte) :
    ∃ u v, s.xlate d 0 va { w := true } = (u, .ok ⟨va, ord, 0, 2 ^ 30, 0x8F⟩) ∧ Cached s u ∧ u.l2Write d va ord bs = v ∧ Plain v := by
  obtain ⟨u, e, c, i, m⟩ := xlate_identity h.1 d va hv { w := true }
  have p := h.cached c i
  refine ⟨u, _, e, c, rfl, ?_⟩
  have : u.l2Write d va ord bs = { u with mem := Mem.wrN u.mem va bs } := by
    have hi : inSystem va = false := inSystem_low hv
    have ha : heldApart d va ord = false := by simp [heldApart, hi, ord]
    simp only [State.l2Write, hi, ha, State.meetKinds, show ord.c = false from rfl, show ord.s = false from rfl, Bool.or_self, Bool.not_false, if_true, Bool.false_eq_true, if_false]
    exact homeWrite_quiet p.2.1 va bs
  rw [this]
  exact ⟨p.1.write p.2.2 hp bs, p.2.1, wf_wrN p.2.2 _ _⟩
theorem Plain.descPut {s : State} (h : Plain s) (d : Nat) {va : Nat} (v : Nat) (hv : va < 2 ^ 30) : ∃ u, s.descPut d 0 va v = (u, .ok ()) := by
  obtain ⟨u, e, -, -, -⟩ := xlate_identity h.1 d va hv { w := true }
  exact ⟨_, by unfold State.descPut; rw [Nat.mod_eq_of_lt (show va < 2 ^ 60 by omega), e]⟩
theorem Plain.engWrite {s : State} (h : Plain s) (d : Nat) {va : Nat} (bs : List Byte) (hl : linesOf va bs.length = [(va, va + bs.length)]) (hp : 0xB000 ≤ va)
    (hv : va < 2 ^ 30) : ∃ v, engWrite d 0 va bs s = (v, .ok ()) ∧ Plain v := by
  obtain ⟨u, v, e, -, e2, p⟩ := h.write d hp hv bs
  have : ¬ 2 ^ 60 ≤ va := by omega
  refine ⟨v, ?_, p⟩
  unfold Machine.engWrite
  rw [hl]
  simp only [Ev.foldl, Ev.and, if_neg this, e, Nat.sub_self, List.drop_zero, Nat.add_sub_cancel_left, List.take_length, Ev.ret, e2]

/-- An im2col command with a 1 x 1 kernel over one element, whose output is pinned. -/
def im2colB : List Byte := [2, 0, 1, 1, 1, 1, 0, 0] ++ leBytes 8 0x20000 ++ leBytes 8 0x24000 ++ [1, 0, 1, 0, 1, 0, 0, 0] ++ leBytes 4 128 ++ zeros 28
def pinChain : Chain := ⟨0x20000, 0, 0, [(1, 0)], some (0, copyRunOf im2colB 0), [], [], false⟩
def pinning : State :=
  { half with dies := [{ Die.reset with layout := [pinChain], pins := [(0x20000, 0x10000)] }, Die.reset, Die.reset, Die.reset] }
/-- Chains of a die are listed anew: translations and copies stay as they were. -/
theorem Plain.chains {s : State} (h : Plain s) (d : Nat) (g : Die → Die) (hg : ∀ x : Die, (g x).tlb = x.tlb ∧ (g x).walk = x.walk ∧ (g x).injMask = x.injMask) :
    Plain (s.updDie d g) := by
  have k : ∀ e, ((s.updDie d g).die e).tlb = (s.die e).tlb ∧ ((s.updDie d g).die e).walk = (s.die e).walk ∧ ((s.updDie d g).die e).injMask = (s.die e).injMask := by
    intro e
    rw [die_updDie]
    split
    · exact hg _
    · exact ⟨rfl, rfl, rfl⟩
  obtain ⟨⟨h0, h1, h2, h3, h4, h5, h6⟩, ⟨q1, q2⟩, w⟩ := h
  exact ⟨⟨h0, h1, h2, h3, fun e => by rw [(k e).1]; exact h4 e, fun e => by rw [(k e).2.1]; exact h5 e, h6⟩, ⟨fun e => by rw [(k e).2.2]; exact q1 e, q2⟩, w⟩
def im2colRun : CopyRun := { copyRunOf im2colB 0 with lives := some [], elem := 1 }
theorem witness_im2col : ∃ u v y z, im2colPinned 0 0 (im2colOf im2colB) pinning = (u, .ok ())
    ∧ im2colGo 0 0 (im2colOf im2colB) ((im2colOf im2colB).lines.drop 0) 0 u = (v, 1, .ok ())
    ∧ (v.updCur (.layout 0) pinChain (fun _ => im2colRun)).storeDone 0 0 (some 0) false (copyCmdOf im2colB).cw (copyCmdOf im2colB).seq
        (copyCmdOf im2colB).scope = (y, .ok ())
    ∧ y.descPut 0 0 0x20020 1 = (z, .ok ()) := by
  have hp : Plain pinning := plain_of (by decide +kernel)
  obtain ⟨u, e, c, i, -⟩ := xlate_identity hp.1 0 0x24000 (by omega) { w := true }
  have pu := hp.cached c i
  obtain ⟨v0, e1, c1, i1, -⟩ := reads_bytes (reads_eng 0) i trivial (show 0x20000 + 1 ≤ 2 ^ 30 by omega)
  have p1 := pu.cached c1 i1
  obtain ⟨v, e2, p2⟩ := p1.engWrite 0 (va := 0x24000) (Mem.rdN u.mem 0x20000 1) (by simp [Mem.rdN]; decide) (by omega) (by omega)
  have p3 : Plain (v.updCur (.layout 0) pinChain (fun _ => im2colRun)) := p2.chains 0 _ (fun _ => ⟨rfl, rfl, rfl⟩)
  obtain ⟨z, e3⟩ := p3.descPut 0 (va := 0x20020) 1 (by omega)
  refine ⟨u, v, _, z, ?_, ?_, ?_, e3⟩
  · have hl : linesOf ((im2colOf im2colB).dst + 0 * (im2colOf im2colB).dpitch) (im2colOf im2colB).rowLen = [(0x24000, 0x24001)] := by decide
    have hr : List.range ((im2colOf im2colB).oh * (im2colOf im2colB).ow) = [0] := by decide
    have hn : ¬ 2 ^ 60 ≤ 0x24000 := by omega
    have hpin : (u.die 0).pinned 0x24000 (0x24001 - 0x24000) = true := by
      obtain ⟨l, w, h⟩ := c.2.2 0
      have : (pinning.die 0).pinned 0x24000 (0x24001 - 0x24000) = true := by decide +kernel
      rw [h]
      exact this
    unfold im2colPinned
    rw [hr]
    simp only [Ev.foldl, Ev.and, hl, if_neg hn, e, hpin, Ev.ret, if_true]
  · have hl : (im2colOf im2colB).lines.drop 0 = [(0, 0, 1)] := by decide
    have hel : im2colElem (engRead 0 0) (im2colOf im2colB) 0 0 = rdBytes (engRead 0 0) 0x20000 1 := rfl
    have hs : (im2colOf im2colB).size = 1 := by decide
    have hd : (im2colOf im2colB).dst = 0x24000 := by decide
    have ht : ((Mem.rdN u.mem 0x20000 1)).take 1 = Mem.rdN u.mem 0x20000 1 := by simp [Mem.rdN]
    have r1 : List.range ((1 - 1) / 1 + 1 - 0) = [0] := by decide
    have one : im2colLine 0 0 (im2colOf im2colB) (0, 0, 1) u = (v, .ok ()) := by
      unfold im2colLine
      simp only [hs, Nat.zero_div, r1, Ev.list, Ev.foldl, Ev.and, Nat.zero_add, hel, e1, Ev.ret, hd, List.nil_append, List.flatten_cons, List.flatten_nil, List.append_nil,
        Nat.zero_mul, Nat.sub_self, List.drop_zero, Nat.sub_zero, Nat.add_zero, ht, e2]
    rw [hl]
    simp only [im2colGo, one]
  · simp [State.storeDone, show (copyCmdOf im2colB).scope = 0 from by decide]
/-- A command that has begun and whose source page is not mapped stops at its line. -/
def im2colFar : List Byte := [2, 0, 1, 1, 1, 1, 0, 0] ++ leBytes 8 0x40000000 ++ leBytes 8 0x24000 ++ [1, 0, 1, 0, 1, 0, 0, 0] ++ leBytes 4 128 ++ zeros 28
theorem witness_im2col_fault : im2colOk im2colFar = true ∧ (match im2colGo 0 0 (im2colOf im2colFar) (im2colOf im2colFar).lines 0 half with
    | (_, k, .error (.fault _ va)) => k == 0 && va == 0x40000000
    | _ => false) = true := by decide +kernel
theorem witness_im2col_cmd : canonicalB pinning = true ∧ im2colOk im2colB = true ∧ fld im2colB 0 1 = 2
    ∧ (firstCmd (pinning.die 0).layout (fun b => fld b 0 1 != 0)).map (fun p => (p.1.owner, p.2.cmd)) = some (some 0, im2colB)
    ∧ pinning.cwBad 0 0 none false (copyCmdOf im2colB).cw (copyCmdOf im2colB).scope = false ∧ 0 < (im2colOf im2colB).oh ∧ 0 < (im2colOf im2colB).ow
    ∧ (0, 0, 1) ∈ (im2colOf im2colB).lines := by decide +kernel

/-- CollectivesRun: one cord of one element for two participants, this die at a rank and the die 1 at the other. -/
def collB (cop rank : Byte) (src : Nat := 0x24000) : List Byte :=
  [3, cop, 4, 2, 0, rank, 0, 0] ++ leBytes 8 src ++ leBytes 8 0x25000 ++ leBytes 8 0 ++ leBytes 8 0x20000 ++ zeros 16 ++ leBytes 4 1 ++ leBytes 4 77
def ptabB (rank : Byte) : List Byte := [2, 0, 0, 0, 0, 0, 0, 0] ++ (if rank = 0 then [0, 1] else [1, 0]) ++ zeros 54
def collRun0 (cmd : List Byte) (t : Option (List Byte)) (elem : Nat) : CopyRun := { copyRunOf cmd 0 with shape := t, lives := t.map (fun _ => []), elem := elem }
def collective (cop rank : Byte) (now : Option Nat) (hs : List (Nat × Nat)) (cords : List Cord) : State :=
  { half with
    mem := Mem.wrN half.mem 0x20000 (ptabB rank), peers := List.replicate 8 1, cords := cords
    dies := [{ Die.reset with coll := [⟨0x26000, 0, 0, [(1, 0)], some (0, collRun0 (collB cop rank) (now.map (fun _ => ptabB rank)) (now.getD 0)), hs, [], false⟩] },
      Die.reset, Die.reset, Die.reset] }
/-- The command starts: it is not running yet, its word is good, and its table, once read, is too. -/
def startsOk (cop rank : Byte) : Bool :=
  let s := collective cop rank none [] []
  canonicalB s && identityB s && quietB s && fld (collB cop rank) 0 1 == 3 && collOk (collB cop rank) && collKind (collB cop rank) == cop.toNat
    && (collOf (collB cop rank)).cop == cop.toNat && !(collOf (collB cop rank)).ef
    && (collNow (s.die 0).coll).isNone && (firstCmd (s.die 0).coll (fun b => fld b 0 1 != 0 && collKind b == cop.toNat)).any (fun q => q.2.cmd == collB cop rank)
    && !s.cwBad 0 0 (some 0) false 0 0 && Mem.rdN s.mem 0x20000 64 == ptabB rank && ptabOk (ptabB rank) (collOf (collB cop rank)) s.pkg 0 s.peers
    && (collOf (collB cop rank)).cords == 1
theorem witness_collective : startsOk 0 0 = true ∧ startsOk 1 0 = true ∧ startsOk 2 1 = true ∧ startsOk 3 1 = true := by decide +kernel
/-- Its table is read, whatever it has been marked with, and its cords are begun: this participant's part is none. -/
def tableOk (cop rank : Byte) : Bool :=
  let s := collective cop rank none [] []
  identityB s && quietB s && s.mem.wf && Mem.rdN s.mem 0x20000 64 == ptabB rank
theorem witness_collective_start {s : State} (hp : Plain s) {cop rank : Byte} (hm : Mem.rdN s.mem 0x20000 64 = ptabB rank)
    (hb : collBegin 0 0 (collOf (collB cop rank)) (ptabB rank) false 0 = Ev.ret []) (c : Chain) (f : CopyRun → CopyRun) :
    ∃ u, rdBytes (engRead 0 0) 0x20000 64 (s.updCur (.collective 0) c f) = (u, .ok (ptabB rank))
      ∧ collBegins 0 0 (collOf (collB cop rank)) (ptabB rank) false 1 0 u [] = (u, 1, [], .ok ()) := by
  have p1 : Plain (s.updCur (.collective 0) c f) := hp.chains 0 _ (fun _ => ⟨rfl, rfl, rfl⟩)
  obtain ⟨u, e, -⟩ := reads_bytes (reads_eng 0) p1.1 trivial (show 0x20000 + 64 ≤ 2 ^ 30 by omega)
  rw [show Mem.rdN (s.updCur (.collective 0) c f).mem 0x20000 64 = ptabB rank from hm] at e
  exact ⟨u, e, by simp only [collBegins, hb, Ev.ret, List.nil_append]⟩
theorem witness_collective_tables : tableOk 0 0 = true ∧ tableOk 1 0 = true ∧ tableOk 2 1 = true ∧ tableOk 3 1 = true := by decide +kernel
theorem witness_collective_parts : (collBegin 0 0 (collOf (collB 0 0)) (ptabB 0) false 0 = Ev.ret []) ∧ (collBegin 0 0 (collOf (collB 1 0)) (ptabB 0) false 0 = Ev.ret [])
    ∧ (collBegin 0 0 (collOf (collB 2 1)) (ptabB 1) false 0 = Ev.ret []) ∧ (collBegin 0 0 (collOf (collB 3 1)) (ptabB 1) false 0 = Ev.ret []) := ⟨rfl, rfl, rfl, rfl⟩
/-- The rank that begins the cord stops when its source is not mapped; a command that has stopped is running, and goes on. -/
theorem witness_collective_fault : (match collBegins 0 0 (collOf (collB 0 1 0x40000000)) (ptabB 1) false 1 0 half [] with
      | (_, k, hs, .error (.fault _ va)) => k == 0 && hs.isEmpty && va == 0x40000000
      | _ => false) = true
    ∧ (collNow ((collective 0 1 (some 0) [] []).die 0).coll).any (fun q => q.2.1.elem < (collOf q.2.1.cmd).cords && q.2.2 == ptabB 1) = true := by decide +kernel
/-- The command completes. -/
def doneOk (cop rank : Byte) : Bool :=
  let s := collective cop rank (some 1) [(0, 0), (0, 1)] []
  (collNow (s.die 0).coll).any (fun q => collDone (collOf q.2.1.cmd) q.1.coll && q.2.2 == ptabB rank && (collOf q.2.1.cmd).cords == q.2.1.elem)
    && (match s.descPut 0 0 0x26020 1 with | (_, .ok _) => true | _ => false)
theorem witness_collective_done : doneOk 0 0 = true ∧ doneOk 1 0 = true ∧ doneOk 2 1 = true ∧ doneOk 3 1 = true := by decide +kernel
/-- A cord arrives that is added, written, or forwarded. -/
def cordFor (cop rank : Byte) (phase : Nat) : Cord :=
  cordOf (collOf (collB cop (1 - rank))) (ptabB rank) rank.toNat 0 phase (quantCord 4 (List.replicate 1024 0)).1
def cordOk (cop rank : Byte) (phase : Nat) : Bool :=
  let s := collective cop rank (some 1) [] [cordFor cop rank phase]
  let x := cordFor cop rank phase
  s.cords.any (fun x => x.isFor s.pkg 0) && fld x.header 10 1 == phase && fld x.header 0 4 == 77 && fld x.header 4 4 == 0
    && fld x.header 11 1 == cop.toNat && fld x.header 12 4 == 1 && (x.header.drop 16).take 32 == sha3_256 (ptabB rank) && identityB s
    && !collDone (collOf (collB cop rank)) []
theorem witness_cord : cordOk 0 1 0 = true ∧ cordOk 1 0 0 = true ∧ cordOk 0 0 0 = true := by decide +kernel
theorem witness_cord_gather : cordOk 0 1 1 = true ∧ cordOk 3 1 1 = true := by decide +kernel
theorem witness_cord_write {s : State} (h : Plain s) (m : Coll) (hm : m.nelem = 1) (x : Nat) : ∃ v, cordWrite 0 0 0x25000 m 0 [x] s = (v, .ok ()) := by
  have : ([x].take (m.live 0)).flatMap (leBytes 4) = leBytes 4 x := by simp [Coll.live, hm, cordLen]
  obtain ⟨v, e, -⟩ := h.engWrite 0 (va := 0x25000) (leBytes 4 x) (by simp [leBytes]; decide) (by omega) (by omega)
  exact ⟨v, by unfold cordWrite; rw [this]; exact e⟩

theorem and_ok {α β : Type} {x : Ev α} {f : α → Ev β} {s u : State} {a : α} (h : x s = (u, .ok a)) : (x.and f) s = f a u := by simp only [Ev.and, h]
theorem need_ok {c : Bool} {a : Nat} {s : State} (h : c = true) : Ev.need c a s = (s, .ok ()) := by simp [Ev.need, h, Ev.ret]

/-- BucketAndGridWords: a queue of 4 x 2 buckets on die 0, with its own list begun, and its own and its neighbours' lists taken. -/
def bucketB (hs ts : List Nat) : List Byte :=
  [4, 0, 2, 0, 0, 0, 0, 0] ++ (List.range 4).flatMap (fun e => leBytes 4 (hs.getD e 0) ++ leBytes 4 (ts.getD e 0)) ++ zeros 24
def bkF : OwnF := own (.s 8) (.s 2) .z .z
def bkdF : OwnF := own .z (.s 2) (.s 4) .z
theorem witness_bucket_reads (b : List Byte) (h : Mem.rdN (eng b .none).mem 0x20000 64 = b ∧ identityB (eng b .none) = true) (off : Nat) (ho : off < 64) :
    ∃ u v, rdBytes (descRead 0 0) 0x20000 64 (eng b .none) = (u, .ok b) ∧ rdBytes (descRead 0 0) 0x20000 64 u = (v, .ok b)
      ∧ ∃ x, (u.xlate 0 0 (0x20000 + off) { r := true, w := true }).2 = .ok x := by
  obtain ⟨u, e, c, i, p⟩ := eng_desc b .none h.2
  obtain ⟨v, e', -⟩ := reads_bytes (reads_desc 0) i p (show 0x20000 + 64 ≤ 2 ^ 30 by omega)
  obtain ⟨w, e2, -⟩ := xlate_identity i 0 (0x20000 + off) (by omega) { r := true, w := true }
  rw [c.mem, h.1] at e'
  rw [h.1] at e
  exact ⟨u, v, e, e', _, by rw [e2]⟩
theorem witness_buckets : [bucketB [1, 0, 0, 0] [0, 0, 0, 0], bucketB [2, 2, 2, 2] [0, 0, 0, 0], bucketB [2, 0, 0, 0] [0, 0, 0, 0], bucketB [2, 2, 0, 0] [0, 0, 0, 1]].all
      (fun b => Mem.rdN (eng b .none).mem 0x20000 64 == b && identityB (eng b .none) && canonicalB (eng b .none) && bucketDescOk b
        && [Instr.bkget bkF, .bkdone bkdF].all (fun i => i.wf && readyB (eng b .none) i && (eng b .none).executing i == [t0])) = true
    ∧ homeList 4 2 0 = [0, 6] ∧ homeList 4 2 1 = [1, 7] ∧ homeList 4 2 3 = [3, 5] ∧ ((eng (bucketB [] []) .none).rd t0 (.s 4)).toNat < 8
    ∧ (∀ e ∈ (eng (bucketB [] []) .none).groups, e.2.preq = false) := by decide +kernel

/-- A render record of one sample, for a screen of one pixel, with its task entries at the header of State.placeWord. -/
def renderB : List Byte :=
  leBytes 8 0x30000 ++ leBytes 4 1 ++ leBytes 2 1 ++ leBytes 2 1 ++ [0, 0, 1, 0, 0, 0, 0, 0] ++ leBytes 4 0 ++ leBytes 4 16 ++ leBytes 8 0x31000 ++ leBytes 8 0x32000
    ++ leBytes 8 0x33000 ++ leBytes 8 0x34000 ++ leBytes 8 0x50000 ++ leBytes 4 1 ++ leBytes 4 1 ++ leBytes 8 0x35000 ++ leBytes 8 0x36000 ++ leBytes 8 0x37000
    ++ leBytes 8 0x38000 ++ leBytes 8 0x10000 ++ leBytes 8 0x10000
    ++ [0x3F800000, 0x3F800000, 0, 0, 0x3F800000, 0x42000000, 0, 0x3F800000].flatMap (leBytes 4) ++ zeros 96
/-- A grid task's workgroup, with a grid record of one vertex at 0x31000. -/
def gridTask (surface : Bool) : State :=
  { half with
    disps := half.disps.map (fun e => (e.1, { e.2 with gfx := some { noGfx with rr := renderB } }))
    wgs := half.wgs.map (fun e => (e.1, { e.2 with task := some ⟨surface, 5, 0x31000, false⟩ })) }
theorem witness_grid_words : ∀ b ∈ [false, true], (((gridTask b).wg 0).bind Workgroup.task).map (fun k => (k.surface, k.done, k.recAddr)) = some (b, false, 0x31000)
    ∧ (∀ i ∈ [Instr.gbin zs 3, .gsub zs], i.wf = true ∧ readyB (gridTask b) i = true ∧ (gridTask b).executing i = [t0]) ∧ identityB (gridTask b) = true
    ∧ quietB (gridTask b) = true ∧ (gridTask b).mem.wf = true := by decide +kernel
theorem witness_gsub : ∃ u hb, rdBytes (engRead 0 0) 0x31000 64 (gridTask true) = (u, .ok hb) := by
  obtain ⟨u, e, -⟩ := reads_bytes (reads_eng 0) (identity_of (witness_grid_words true (by decide)).2.2.1) trivial (show 0x31000 + 64 ≤ 2 ^ 30 by omega)
  exact ⟨u, _, e⟩
theorem rsbAdd_ok {s : State} (h : Plain s) (d n v : Nat) {va : Nat} (hv : va < 2 ^ 30) : ∃ u, rsbAdd d 0 va n v s = (u, .ok ()) := by
  obtain ⟨u, e, -⟩ := xlate_identity h.1 d va hv { r := true, w := true }
  have : ¬ 2 ^ 60 ≤ va := by omega
  by_cases h0 : v = 0
  · exact ⟨s, by simp [rsbAdd, h0, Ev.ret]⟩
  · have k : ∃ w, rsbRmw d 0 va n (fun old => some (old + v)) s = (w, .ok (leNat (Mem.rdN u.mem va n))) :=
      ⟨_, by simp only [rsbRmw, if_neg this, e]; rfl⟩
    obtain ⟨w, k⟩ := k
    exact ⟨w, by simp only [rsbAdd, if_neg h0]; rw [and_ok k]; rfl⟩
theorem witness_gbin : ∃ u, gbinEv 0 0 renderB 0x31000 (gridTask false).fresh { gridTask false with fresh := (gridTask false).fresh + 4 } = (u, .ok true) := by
  obtain ⟨-, -, hi, hq, hw⟩ := witness_grid_words false (by decide)
  have p : Plain { gridTask false with fresh := (gridTask false).fresh + 4 } := ⟨identity_of hi, quiet_of hq, hw⟩
  obtain ⟨u, e, c, i, -⟩ := reads_bytes (reads_eng 0) p.1 trivial (show 0x31000 + 64 ≤ 2 ^ 30 by omega)
  have pu := p.cached c i
  obtain ⟨v, e1, c1, i1, -⟩ := reads_bytes (reads_eng 0) i trivial (show 0x31040 + 24 ≤ 2 ^ 30 by omega)
  have pv := pu.cached c1 i1
  have hb : Mem.rdN (gridTask false).mem 0x31000 64 = zeros 64 := by decide +kernel
  have hv : Mem.rdN (gridTask false).mem 0x31040 24 = zeros 24 := by decide +kernel
  have hc : u.mem = (gridTask false).mem := c.mem
  have hp : gridVerts (engRead 0 0) 0x31000 (gheadOf (zeros 64)) u = (v, .ok [(fpZero, fpZero, fpZero), (fpZero, fpZero, fpZero)]) := by
    rw [hc, hv] at e1
    have : (List.range ((gheadOf (zeros 64)).nv + 1)).flatMap (fun j => (List.range ((gheadOf (zeros 64)).nu + 1)).map (fun i => (i, j))) = [(0, 0)] := by decide
    have ha : (0x31000 + (gheadOf (zeros 64)).vertOff 0 0) = 0x31040 := by decide
    unfold gridVerts
    simp only [this, Ev.list, Ev.foldl, ha]
    simp only [Ev.and, e1, Ev.ret]
    rfl
  have hr : gbinRect renderB (gridTask false).fresh [(fpZero, fpZero, fpZero), (fpZero, fpZero, fpZero)] = none := by decide +kernel
  obtain ⟨a, e2, pa⟩ := pv.engWrite 0 (va := 0x31028) ([0xFFFF, 0xFFFF, 0xFFFF, 0xFFFF].flatMap (leBytes 2)) (by decide) (by omega) (by omega)
  obtain ⟨b, e3, pb⟩ := pa.engWrite 0 (va := 0x3100E) (leBytes 1 4) (by decide) (by omega) (by omega)
  obtain ⟨z, e4⟩ := rsbAdd_ok pb 0 8 1 (va := 0x38018) (by omega)
  refine ⟨z, ?_⟩
  rw [hb] at e
  unfold gbinEv
  rw [and_ok e]
  simp only []
  rw [and_ok hp, hr]
  have f : (gheadOf (zeros 64)).gflg / 8 * 8 + (gheadOf (zeros 64)).gflg % 4 + 4 = 4 := by decide
  have g : (renderOf renderB).rsb + 24 = 0x38018 := by decide
  simp only [Option.getD_none, Option.isNone_none, if_true, g, f]
  rw [and_ok e2, and_ok e3, and_ok e4]
  rfl

/-- GraphicsSteps: a dispatch that may start, and one that holds the bucket memory and is at each of its steps. -/
def graphics (taken binned : Bool) (g : Gfx → Gfx) (d : Die → Die) : State :=
  let st : BkState := if taken then .graphics 0 else .idle
  let die := { Die.reset with bkState := st, rasters := [.idle, .idle] }
  { half with
    mem := Mem.wrN half.mem 0x40000 renderB
    disps := half.disps.map (fun e => (e.1, { e.2 with live := 0, lr := { e.2.lr with args := 0x40000, mode := 2 }, gfx := some (g { noGfx with rr := if taken then renderB else [], taken := taken, binned := binned }) }))
    dies := [d die, die, die, die], slots := [{ half.slot 0 with queue := some 0 }] }
def gridB : List Byte := zeros 8 ++ [0, 0, 0, 0, 0, 0] ++ zeros 26 ++ zeros 24
def graphicsStates : List State :=
  [graphics false false id id, graphics true false id (fun d => { d with dicing := [⟨0, 0, none⟩] }), graphics true false id id,
   graphics true true id id, graphics true true id (fun d => { d with rasters := [{ Raster.idle with bucket := some 0 }, .idle] }),
   graphics true false id (fun d => { d with bk := Mem.wrN [] 0 (leBytes 4 0xFFFFFFFF), toBin := [⟨0, 0x48000, [t0], some 0, none⟩] })]
theorem witness_GraphicsSteps : graphicsStates.all (fun s => canonicalB s && identityB s && quietB s && (s.disp 0).any (fun x => x.fin == .running && !x.fault
    && x.gfx.any (fun g => g.bks.isEmpty && g.heads.length == 4 && g.tails.length == 4)) && !s.preempting 0 && (s.slot 0).queue == some 0) = true := by decide +kernel
theorem plain_graphics {s : State} (h : s ∈ graphicsStates) : Plain s := by
  have := List.all_eq_true.mp witness_GraphicsSteps s h
  simp only [Bool.and_eq_true] at this
  exact ⟨identity_of this.1.1.1.1.2, quiet_of this.1.1.1.2, by have := canonical_of this.1.1.1.1.1; exact this.1⟩
theorem goOn_step {σ : Type} {next : σ → Option (Ev σ)} {n : Nat} {x y : σ} {s u : State} {f : Ev σ} (hn : 0 < n) (hx : next x = some f) (hf : f s = (u, .ok y)) :
    goOn next n x s = goOn next (n - 1) y u := by
  obtain ⟨k, rfl⟩ : ∃ k, n = k + 1 := ⟨n - 1, by omega⟩
  simp only [goOn, hx, hf, Nat.add_sub_cancel]
theorem goOn_end {σ : Type} {next : σ → Option (Ev σ)} {n : Nat} {x : σ} {s : State} (hx : next x = none) : goOn next n x s = (s, x, none) := by
  cases n <;> simp only [goOn, hx]
theorem witness_gfx_start : ∃ u w v pat, readRender 0 0x40000 (graphics false false id id) = (u, .ok renderB) ∧ readEntries 0 renderB u = (w, .ok ())
    ∧ readPattern 0 renderB w = (v, .ok pat) := by
  have p := plain_graphics (s := graphics false false id id) (by simp [graphicsStates])
  have hr : Mem.rdN (graphics false false id id).mem 0x40000 256 = renderB ∧ renderOk renderB = true
      ∧ headerWord (Mem.rdN (graphics false false id id).mem 0x10000 8) = true := by decide +kernel
  obtain ⟨a, e1, c1, i1, -⟩ := reads_bytes reads_hub p.1 trivial (show 0x40000 + 256 ≤ 2 ^ 30 by omega)
  obtain ⟨b, e2, c2, i2, -⟩ := reads_bytes reads_fetch i1 trivial (show 0x10000 + 8 ≤ 2 ^ 30 by omega)
  obtain ⟨c, e3, c3, i3, -⟩ := reads_bytes reads_fetch i2 trivial (show 0x10000 + 8 ≤ 2 ^ 30 by omega)
  obtain ⟨d, e4, -⟩ := reads_bytes (reads_eng 0) i3 trivial (show 0x33000 + 128 ≤ 2 ^ 30 by omega)
  rw [hr.1] at e1
  rw [c1.mem] at e2
  rw [c2.mem, c1.mem] at e3
  refine ⟨a, c, d, _, ?_, ?_, e4⟩
  · have n0 : Ev.need ((0x40000 : Nat) % 64 == 0) 0x40000 (graphics false false id id) = (graphics false false id id, .ok ()) := need_ok (by decide)
    unfold readRender
    rw [and_ok n0, and_ok e1, and_ok (need_ok hr.2.1)]
    rfl
  · have h1 : (renderOf renderB).pose = 0x10000 := by decide
    have h2 : (renderOf renderB).surfe = 0x10000 := by decide
    unfold readEntries
    rw [h1, h2, and_ok e2, and_ok (need_ok hr.2.2), and_ok e3, need_ok hr.2.2]
/-- A dicer reads its patch; its work ends where no grid is left, and stops where the map cannot be written. -/
theorem witness_dice : ∃ u, diceBegin 0 0 renderB ⟨0, 0, none⟩ graphicsStates[1] = (u, .ok ⟨zeros 448, 0, 0⟩) := by
  have p := plain_graphics (s := graphicsStates[1]) (by simp)
  have hp : Mem.rdN graphicsStates[1].mem 0x30000 448 = zeros 448 := by decide +kernel
  obtain ⟨a, e1, -⟩ := reads_bytes (reads_eng 0) p.1 trivial (show 0x30000 + 448 ≤ 2 ^ 30 by omega)
  rw [hp] at e1
  have f : (renderOf renderB).patchb + 448 * 0 = 0x30000 := by decide
  exact ⟨a, by simp only [diceBegin, f]; rw [and_ok e1]; rfl⟩
def renderFar : List Byte := (renderB.zipIdx.map (fun p => if p.2 = 43 ∨ p.2 = 59 ∨ p.2 = 67 then (0x40 : Byte) else p.1))
theorem witness_dice_ends : (diceGo 0 0 0 renderB 0 ⟨zeros 448, 0, 3⟩ half).2.2 = none
    ∧ ((diceGo 0 0 0 renderFar 0 ⟨zeros 448, 0, 2⟩ half).2.2.elim false (fun e => match e with | .fault _ _ => true | _ => false)) = true := by decide +kernel
theorem witness_heads : ∃ u, writeHeads 0 (renderOf renderB) { noGfx with rr := renderB, taken := true } (graphics true false id id) = (u, .ok ()) := by
  have p := plain_graphics (s := graphics true false id id) (by simp [graphicsStates])
  obtain ⟨b, e2, -⟩ := p.engWrite 0 (va := 0x35000) (leBytes 8 (2 ^ 64 - 1)) (by decide) (by omega) (by omega)
  refine ⟨b, ?_⟩
  have f : List.range (renderOf renderB).buckets = [0] := by decide
  have g : (renderOf renderB).sphead + 8 * 0 = 0x35000 := by decide
  have h : (renderOf renderB).home 0 = 0 := by decide
  unfold writeHeads
  simp only [f, Ev.foldl, g, h, noGfx, mget, Option.map_none, Option.getD_none]
  rw [and_ok e2]
  rfl
/-- A rasteriser goes over an empty bucket and writes its one sample; it stops where the visibility buffer cannot be written. -/
theorem witness_raster (g : Gfx) (hg : g = { noGfx with rr := renderB, taken := true, binned := true }) : ∃ u, rasterGo 0 0 0 0 g 0 { Raster.idle with bucket := some 0 } graphicsStates[4]
    = (u, .idle, none) := by
  have p := plain_graphics (s := graphicsStates[4]) (by simp)
  have hslot : graphicsStates[4].slotOf 0 0 = none := by decide +kernel
  have hb : ∃ q, bucketSamples (renderOf renderB) [] 0 = [q] ∧ (renderOf renderB).vbuf + ((q.py * (renderOf renderB).width + q.px) * (renderOf renderB).samples + q.s) * 16 = 0x34000 := by
    exact ⟨⟨0, 0, 0, 0, 0, fpZero, fpZero, fpZero⟩, by decide +kernel⟩
  obtain ⟨q, hq, hv⟩ := hb
  generalize graphicsStates[4] = s at p hslot
  have h1 : bucketItems 0 0 0 (renderOf renderB) g 0 s = (s, .ok []) := by
    have : ringItems 0 0 (renderOf renderB) ((renderOf renderB).spilln + 1) 0xFFFFFFFF = Ev.ret [] := by simp [ringItems]
    subst hg
    simp [bucketItems, State.slotItems, hslot, noGfx, this, Ev.and, Ev.ret]
  have p1 : Plain (s.clearArea 0 0 (renderOf renderB)) := p.chains 0 _ (fun _ => ⟨rfl, rfl, rfl⟩)
  obtain ⟨a, e1, pa⟩ := p1.engWrite 0 (va := 0x34000) (pairBytes ((s.clearArea 0 0 (renderOf renderB)).areaPair 0 0 (renderOf renderB) q)) (by
    simp [pairBytes, leBytes, fpBytes, zeros]; decide) (by omega) (by omega)
  obtain ⟨b, e2, -⟩ := pa.engWrite 0 (va := 0x37000) (leBytes 4 0xFFFFFFFF) (by decide) (by omega) (by omega)
  have hw : writeBucket 0 0 0 (renderOf renderB) [q] 0 0xFFFFFFFF (s.clearArea 0 0 (renderOf renderB)) = (b, .ok ()) := by
    have k : (renderOf renderB).fhead + 4 * 0 = 0x37000 := by decide
    unfold writeBucket
    simp only [Ev.foldl, hv, k]
    rw [and_ok (u := a) (a := ()) (by rw [and_ok e1]; rfl), e2]
  have hr : g.rr = renderB ∧ g.pattern = [] := by subst hg; exact ⟨rfl, rfl⟩
  refine ⟨b, ?_⟩
  unfold rasterGo
  rw [hr.1, hr.2, hq]
  rw [goOn_step (u := s.clearArea 0 0 (renderOf renderB)) (y := { Raster.idle with bucket := some 0, pass := 1 }) (by omega) (by simp [rasterNext, Raster.idle]; rfl)
    (by rw [hr.1, and_ok h1]; rfl)]
  rw [goOn_step (u := s.clearArea 0 0 (renderOf renderB)) (y := { Raster.idle with bucket := some 0, pass := 2 }) (by omega) (by simp [rasterNext, Raster.idle]; rfl) rfl]
  rw [goOn_step (u := s.clearArea 0 0 (renderOf renderB)) (y := { Raster.idle with bucket := some 0, pass := 3 }) (by omega) (by simp [rasterNext, Raster.idle]; rfl) rfl]
  rw [goOn_step (u := b) (y := .idle) (by omega) (by simp [rasterNext, Raster.idle]; rfl) (by rw [hr.1, and_ok hw]; rfl)]
  exact goOn_end rfl
theorem witness_raster_fault : ((rasterGo 0 0 0 0 { noGfx with rr := renderFar } 0 { Raster.idle with bucket := some 0, pass := 3 } half).2.2.elim false
    (fun e => match e with | .fault _ _ => true | _ => false)) = true := by decide +kernel
/-- A binner reads its grid; its work ends where nothing is left to place. -/
theorem witness_bin : ∃ u w, binBegin 0 0 (renderOf renderB) 0 ⟨0, 0x48000, [t0], some 0, none⟩ graphicsStates[5] = (u, .ok w) := by
  have p := plain_graphics (s := graphicsStates[5]) (by simp)
  have hg : Mem.rdN graphicsStates[5].mem 0x48000 64 = zeros 64 ∧ Mem.rdN graphicsStates[5].mem 0x48000 88 = zeros 88 := by decide +kernel
  generalize graphicsStates[5] = s at p hg ⊢
  obtain ⟨u, e1, c1, i1, -⟩ := reads_bytes (reads_eng 0) p.1 trivial (show 0x48000 + 64 ≤ 2 ^ 30 by omega)
  obtain ⟨v, e2, -⟩ := reads_bytes (reads_eng 0) i1 trivial (show 0x48000 + 88 ≤ 2 ^ 30 by omega)
  rw [hg.1] at e1
  rw [c1.mem, hg.2] at e2
  have n : 64 + (fld (zeros 64) 8 1 + 1) * (fld (zeros 64) 9 1 + 1) * (renderOf renderB).stride = 88 := by decide
  have k : readGrid 0 0 (renderOf renderB) 0x48000 s = (v, .ok (zeros 88)) := by
    unfold readGrid
    rw [and_ok e1]
    simp only [n]
    exact e2
  exact ⟨(v.updDie 0 (fun y => { y with toBin := lmod y.toBin 0 (fun z => { z with issuers := [] }) })).uncountAll [t0] (some 0), binStart (zeros 88), and_ok k⟩
def binDone0 : BinWork := ⟨zeros 88, none, [.slot 0 0 64], 0, none⟩
def binSpill : BinWork := ⟨zeros 88, some ⟨0, 0, 0, 0⟩, [], 0, some 0⟩
theorem witness_bin_ends : (binNext 0 0 0 (renderOf renderB) binDone0).isNone = true ∧ (binBegin 0 0 (renderOf renderB) 0 ⟨0, 0x48000, [], some 0, some binDone0⟩ half).2.isOk = true
    ∧ (match (spillPiece 0 0 0 (renderOf renderFar) 0 binSpill (zeros 88) half).2 with | .error (.fault _ _) => true | _ => false) = true := by decide +kernel

theorem Plain.store {s : State} (h : Plain s) {pa : Nat} (hp : 0xB000 ≤ pa) (bs : List Byte) : Plain (s.homeWrite pa bs) := by
  rw [homeWrite_quiet h.2.1]
  exact ⟨h.1.write h.2.2 hp bs, h.2.1, wf_wrN h.2.2 _ _⟩
theorem Plain.hubStore {s : State} (h : Plain s) {va : Nat} (hp : 0xB000 ≤ va) (hv : va < 2 ^ 30) (bs : List Byte) : ∃ u, s.hubStore 0 va bs = (u, .ok ()) ∧ Plain u := by
  obtain ⟨u, e, c, i, -⟩ := xlate_identity h.1 0 va hv { w := true }
  have : ¬ 2 ^ 60 ≤ va := by omega
  refine ⟨u.homeWrite va bs, ?_, (h.cached c i).store hp bs⟩
  simp only [State.hubStore, if_neg this, e, Bool.false_eq_true, if_false]
theorem hubWrite_ok (va : Nat) (bs : List Byte) (hp : 0xB000 ≤ va) (ks : List Nat) (hv : ∀ k ∈ ks, va + 64 * k < 2 ^ 30) {s : State} (h : Plain s) :
    ∃ u, Ev.foldl (fun (_ : Unit) k => fun s => s.hubStore 0 (va + 64 * k) ((bs.drop (64 * k)).take 64)) () ks s = (u, .ok ()) := by
  induction ks generalizing s with
  | nil => exact ⟨s, rfl⟩
  | cons k ks ih =>
    obtain ⟨u, e, p⟩ := h.hubStore (va := va + 64 * k) (by omega) (hv k (by simp)) ((bs.drop (64 * k)).take 64)
    obtain ⟨w, e'⟩ := ih (fun k hk => hv k (by simp [hk])) p
    refine ⟨w, ?_⟩
    simp only [Ev.foldl]
    rw [and_ok e]
    exact e'

/-- QueueCommandsStart: a bound queue with one command announced, and the records that its commands name. -/
def launchB : List Byte :=
  leBytes 8 0x10000 ++ zeros 8 ++ [0, 0, 192, 1, 0, 0, 0, 0] ++ leBytes 4 0x80411100 ++ leBytes 4 1024 ++ leBytes 4 1 ++ leBytes 4 1 ++ leBytes 4 1 ++ zeros 24
    ++ [1, 0] ++ zeros 186
def graphB : List Byte := [1, 0, 0, 0, 0, 0, 0, 0] ++ leBytes 8 0x4B000 ++ zeros 48
def nodeB : List Byte := leBytes 8 0x48000 ++ zeros 56
def qcmdB (opc qsc : Byte) (addr value inst : Nat) : List Byte := [opc, 0, 0, qsc, 0, 0, 0, 0] ++ leBytes 8 addr ++ leBytes 8 value ++ leBytes 8 inst ++ zeros 32
def queueCmds : List (List Byte) := [qcmdB 0 0 0 0 0, qcmdB 1 0 0x48000 0 0, qcmdB 2 0 0x49000 0 0x4A000, qcmdB 3 5 0x4C000 1 0, qcmdB 4 5 0x4C000 1 0, qcmdB 5 0 0x4D000 0 0]
/-- The queue's next command is the n-th. -/
def hubS (n : Nat) (run : List RunCmd) : State :=
  { one with
    mem := (queueCmds.zipIdx.map (fun (c : List Byte × Nat) => (0x40000 + 64 * c.2, c.1.take 28)) ++ [(0x48000, launchB.take 69), (0x49000, graphB.take 16), (0x4B000, nodeB.take 8)]).foldl (fun m (r : Nat × List Byte) => Mem.wrN m r.1 r.2) one.mem
    queues := [(0, { queue0 with slot := some 0, head := BitVec.ofNat 64 n, tail := BitVec.ofNat 64 (n + 1), running := run })], slots := [{ half.slot 0 with queue := some 0 }], disps := [] }
theorem witness_queue_states : canonicalB (hubS 0 []) = true ∧ identityB (hubS 0 []) = true ∧ quietB (hubS 0 []) = true ∧ Mem.rdN (hubS 0 []).mem 0x48000 256 = launchB
    ∧ Mem.rdN (hubS 0 []).mem 0x49000 64 = graphB ∧ Mem.rdN (hubS 0 []).mem 0x4B000 64 = nodeB ∧ launchOk launchB = true ∧ graphNodeOk 0 nodeB = true ∧ graphOk graphB = true := by
  decide +kernel
theorem witness_queue_commands : ∀ n < 6, Mem.rdN (hubS 0 []).mem (0x40000 + 64 * n) 64 = queueCmds.getD n [] ∧ qcmdOk (queueCmds.getD n []) = true
    ∧ ((hubS n []).queue 0).any (fun k => (hubS n []).mayStart 0 k && k.running.isEmpty && k.head.toNat == n && k.ctx == 0 && k.ring == 0x40000 && k.lsize == 4) = true := by
  decide +kernel
theorem plain_hub (n : Nat) (run : List RunCmd) : Plain (hubS n run) := by
  obtain ⟨h1, h2, h3, -⟩ := witness_queue_states
  exact ⟨identity_of h2, quiet_of h3, (canonical_of h1).1⟩
/-- The state once the command is read: its memory is the same, and translation goes on as before. -/
theorem queue_read (n : Nat) (h : n < 6) : ∃ u, rdBytes (hubRead 0) (0x40000 + 64 * n) 64 (hubS n []) = (u, .ok (queueCmds.getD n [])) ∧ Cached (hubS n []) u ∧ Plain u := by
  obtain ⟨u, e, c, i, -⟩ := reads_bytes reads_hub (plain_hub n []).1 trivial (show 0x40000 + 64 * n + 64 ≤ 2 ^ 30 by omega)
  rw [show Mem.rdN (hubS n []).mem (0x40000 + 64 * n) 64 = queueCmds.getD n [] from (witness_queue_commands n h).1] at e
  exact ⟨u, e, c, (plain_hub n []).cached c i⟩
theorem launch_ok {s v : State} (e : rdBytes (hubRead 0) 0x48000 256 s = (v, .ok launchB)) : readLaunch 0 0x48000 s = (v, .ok launchB) := by
  have n1 : (launchOf launchB).nsched = 0 := by decide
  have n2 : (launchOf launchB).nbind = 0 := by decide
  have n3 : (launchOf launchB).cwsc = 0 := by decide
  have q : launchParts 0 (launchOf launchB) v = (v, .ok ()) := by
    unfold launchParts
    simp only [n1, n2, List.range_zero, Ev.list, Ev.foldl]
    rfl
  unfold readLaunch
  rw [and_ok e, and_ok (need_ok witness_queue_states.2.2.2.2.2.2.1), and_ok q]
  simp only [State.cwBad, n3, bne_self_eq_false, Bool.false_and, Bool.false_eq_true, if_false]
theorem record_read {n : Nat} {u : State} (hc : Cached (hubS n []) u) (i : Identity u) :
    ∃ v, readLaunch 0 0x48000 u = (v, .ok launchB) ∧ Cached u v ∧ Identity v := by
  obtain ⟨-, -, -, h8, -, -, h7, -, -⟩ := witness_queue_states
  obtain ⟨v, e, c, j, -⟩ := reads_bytes reads_hub i trivial (show 0x48000 + 256 ≤ 2 ^ 30 by omega)
  rw [hc.mem, show Mem.rdN (hubS n []).mem 0x48000 256 = launchB from h8] at e
  exact ⟨v, launch_ok e, c, j⟩
theorem witness_queue_launch : ∃ u v, rdBytes (hubRead 0) (0x40000 + 64 * 1) 64 (hubS 1 []) = (u, .ok (qcmdB 1 0 0x48000 0 0))
    ∧ readLaunch 0 0x48000 u = (v, .ok launchB) ∧ (launchOf launchB).cwsc = 0 := by
  obtain ⟨u, e, c, p⟩ := queue_read 1 (by omega)
  obtain ⟨v, e1, -⟩ := record_read c p.1
  exact ⟨u, v, e, e1, by decide⟩
theorem witness_queue_graph : ∃ u v w, rdBytes (hubRead 0) (0x40000 + 64 * 2) 64 (hubS 2 []) = (u, .ok (qcmdB 2 0 0x49000 0 0x4A000))
    ∧ readGraph 0 0x49000 u = (v, .ok (graphB, [nodeB], [launchB])) ∧ hubWrite 0 0x4A000 (graphB ++ [nodeB].flatten ++ [launchB].flatten) v = (w, .ok ())
    ∧ fld graphB 3 1 = 0 ∧ (fld graphB 2 1).testBit 0 = false := by
  obtain ⟨-, -, -, -, h9, h10, -, h11, h12⟩ := witness_queue_states
  obtain ⟨u, e, c, p⟩ := queue_read 2 (by omega)
  obtain ⟨u1, e1, c1, i1, -⟩ := reads_bytes reads_hub p.1 trivial (show 0x49000 + 64 ≤ 2 ^ 30 by omega)
  obtain ⟨u2, e2, c2, i2, -⟩ := reads_bytes reads_hub i1 trivial (show 0x4B000 + 64 ≤ 2 ^ 30 by omega)
  have c12 := (c.trans c1).trans c2
  obtain ⟨v, e3, c3, i3⟩ := record_read c12 i2
  rw [c.mem, show Mem.rdN (hubS 2 []).mem 0x49000 64 = graphB from h9] at e1
  rw [(c.trans c1).mem, show Mem.rdN (hubS 2 []).mem 0x4B000 64 = nodeB from h10] at e2
  have pv : Plain v := p.cached ((c1.trans c2).trans c3) i3
  obtain ⟨w, e4⟩ := hubWrite_ok 0x4A000 (graphB ++ [nodeB].flatten ++ [launchB].flatten) (by omega) (List.range 6) (fun k hk => by simp at hk; omega) pv
  refine ⟨u, v, w, e, ?_, ?_, by decide, by decide⟩
  · have n : List.range (fld graphB 0 2) = [0] := by decide
    have a : fld graphB 8 8 + 64 * 0 = 0x4B000 := by decide
    have d : fld nodeB 0 8 = 0x48000 := by decide
    unfold readGraph
    rw [and_ok e1, and_ok (need_ok h12)]
    have k : (Ev.list (fun i => (rdBytes (hubRead 0) (fld graphB 8 8 + 64 * i) 64).and (fun n => (Ev.need (graphNodeOk i n) 0x49000).and (fun _ => Ev.ret n))) [0]) u1
        = (u2, .ok [nodeB]) := by
      simp only [Ev.list, Ev.foldl, a]
      have : (((rdBytes (hubRead 0) 0x4B000 64).and (fun n => (Ev.need (graphNodeOk 0 n) 0x49000).and (fun _ => Ev.ret n))).and fun b => Ev.ret ([] ++ [b])) u1 = (u2, .ok [nodeB]) := by
        rw [and_ok (a := nodeB) (u := u2)]
        · rfl
        · rw [and_ok e2, and_ok (need_ok h11)]; rfl
      rw [and_ok this]
      rfl
    rw [n, and_ok k]
    have m : (Ev.list (fun (n : List Byte) => readLaunch 0 (fld n 0 8)) [nodeB]) u2 = (v, .ok [launchB]) := by
      simp only [Ev.list, Ev.foldl, d]
      have : ((readLaunch 0 0x48000).and fun b => Ev.ret ([] ++ [b])) u2 = (v, .ok [launchB]) := by rw [and_ok e3]; rfl
      rw [and_ok this]
      rfl
    rw [and_ok m]
    rfl
  · have : (graphB ++ [nodeB].flatten ++ [launchB].flatten).length = 384 := by decide +kernel
    unfold hubWrite
    rw [this]
    exact e4
theorem witness_queue_signal : ∃ u y, rdBytes (hubRead 0) (0x40000 + 64 * 4) 64 (hubS 4 []) = (u, .ok (qcmdB 4 5 0x4C000 1 0))
    ∧ u.cwLate 0 0 false 0x4C000 5 = false ∧ u.cwBad 0 0 none false 0x4C000 5 = false
    ∧ (u.runCmd 0 (qcmdB 4 5 0x4C000 1 0) none none false).hubDoneStore 0 0x4C000 1 5 false = (y, .ok ()) := by
  obtain ⟨u, e, c, p⟩ := queue_read 4 (by omega)
  have phys : ∀ ks : List Nat, ∀ (bs : List Byte) (s : State), Plain s → Plain (ks.foldl (fun s i => s.homeWrite (0x60020 + i) [bs.getD i 0]) s) := by
    intro ks bs
    induction ks with
    | nil => intro s h; exact h
    | cons k ks ih => intro s h; exact ih _ (h.store (by omega) _)
  have pv : Plain (u.runCmd 0 (qcmdB 4 5 0x4C000 1 0) none none) := by
    have q0 : ∀ (s : State) (l : Map Nat Queue), Plain s → Plain { s with queues := l } := fun s l h => h
    have qu : ∀ (s : State) (f : Queue → Queue), Plain s → Plain (s.updQueue 0 f) := fun s f h => q0 s _ h
    have uq : u.queue 0 = some { queue0 with slot := some 0, head := 4, tail := 5 } := by
      have : u.queues = (hubS 4 []).queues := by rw [c.1]
      unfold State.queue
      rw [this]
      rfl
    have w : ∀ s : State, s.queue 0 = some { queue0 with slot := some 0, head := 4, tail := 5, running := [⟨4, qcmdB 4 5 0x4C000 1 0, none, none, none, false, false⟩] } → Plain s → Plain (s.advanceHead 0) := by
      intro s h p
      have d : inMap (({ queue0 with slot := some 0, head := 4, tail := 5, running := [⟨4, qcmdB 4 5 0x4C000 1 0, none, none, none, false, false⟩] } : Queue).desc.toNat + 32) = true := by decide +kernel
      simp only [State.advanceHead, h, State.physStore, d, if_true, State.physWrite]
      exact phys _ _ _ (qu s _ p)
    simp only [State.runCmd, uq]
    refine w _ ?_ (qu u _ p)
    have : (u.updQueue 0 (fun x => { x with running := x.running ++ [⟨4, qcmdB 4 5 0x4C000 1 0, none, none, none, false, false⟩] })).queue 0 = (u.queue 0).map (fun x => { x with running := x.running ++ [⟨4, qcmdB 4 5 0x4C000 1 0, none, none, none, false, false⟩] }) := by
      simp only [State.queue, State.updQueue, mget_mupd]
      simp
    exact this.trans (by rw [uq]; rfl)
  have a : (0x4C000 : DWord).toNat % 2 ^ 60 = 0x4C000 := by decide
  obtain ⟨x, e2, -⟩ := xlate_identity p.1 0 0x4C000 (by omega) {}
  refine ⟨u, ?_⟩
  generalize u.runCmd 0 (qcmdB 4 5 0x4C000 1 0) none none = v at pv ⊢
  obtain ⟨y, e1, -⟩ := pv.hubStore (va := 0x4C000) (by omega) (by omega) (leBytes 8 1)
  refine ⟨y, e, ?_, ?_, ?_⟩
  · simp only [State.cwLate, a, e2, Bool.and_false]
  · simp only [State.cwBad, a, e2, inSystem_low (show 0x4C000 < 2 ^ 30 by omega)]
    decide
  · simp only [State.hubDoneStore]
    exact e1
theorem witness_queue_copy (c : Nat) : ∃ u v cmd, rdBytes (hubRead 0) (0x40000 + 64 * 5) 64 (hubS 5 []) = (u, .ok (qcmdB 5 0 0x4D000 0 0))
    ∧ rdBytes (engRead (c / 32) 0) 0x4D000 64 u.bump = (v, .ok cmd) := by
  obtain ⟨u, e, -, p⟩ := queue_read 5 (by omega)
  obtain ⟨v, e1, -⟩ := reads_bytes (reads_eng (c / 32)) (s := u.bump) p.1 trivial (show 0x4D000 + 64 ≤ 2 ^ 30 by omega)
  exact ⟨u, v, _, e, e1⟩
theorem witness_queue_wake : ∃ v w, rdBytes (hubRead 0) 0x4C000 8 (hubS 0 [⟨0, qcmdB 3 5 0x4C000 1 0, none, none, none, false, false⟩]) = (v, .ok w) := by
  obtain ⟨v, e, -⟩ := reads_bytes reads_hub (plain_hub 0 [⟨0, qcmdB 3 5 0x4C000 1 0, none, none, none, false, false⟩]).1 trivial (show 0x4C000 + 8 ≤ 2 ^ 30 by omega)
  exact ⟨v, _, e⟩

/-- GraphsAndDispatchesComplete: a node whose launch record is at 0x48000, instances and dispatches with nothing left, a workgroup that has exited. -/
def inst (st : Option (Option Nat)) (sc : Nat) : GraphInst :=
  ⟨0, 0, 0, 0, 0x49000, 0x47F80, false, sc, 0x4C000, 9, 15, [([], 0, st)], false, false, false⟩
theorem witness_node : ∃ u d, launchEv 0 0 0 0 0x48000 15 (some (3, 0)) none { hubS 0 [] with graphs := [(3, inst none 0)] } = (u, .ok d) := by
  have h : ∀ s : State, Plain s → Mem.rdN s.mem 0x48000 256 = launchB → ∃ u d, launchEv 0 0 0 0 0x48000 15 (some (3, 0)) none s = (u, .ok d) := by
    intro s p hm
    obtain ⟨v, e, -⟩ := reads_bytes reads_hub p.1 trivial (show 0x48000 + 256 ≤ 2 ^ 30 by omega)
    rw [hm] at e
    unfold launchEv
    rw [and_ok (launch_ok e)]
    exact ⟨_, _, rfl⟩
  have k : ∀ (s : State) (g : Map Nat GraphInst), Plain s → Mem.rdN s.mem 0x48000 256 = launchB → Plain { s with graphs := g } ∧ Mem.rdN ({ s with graphs := g } : State).mem 0x48000 256 = launchB :=
    fun s g a b => ⟨a, b⟩
  obtain ⟨a, b⟩ := k (hubS 0 []) [(3, inst none 0)] (plain_hub 0 []) witness_queue_states.2.2.2.1
  exact h _ a b
theorem witness_graphs : (∀ c ∈ [(none, 0), (some none, 0), (some none, 5)], canonicalB { hubS 0 [] with graphs := [(3, inst c.1 c.2)] } = true
      ∧ ({ hubS 0 [] with graphs := [(3, inst c.1 c.2)] } : State).boundSlot 0 = some 0 ∧ (inst c.1 c.2).buf.toNat + 64 + 64 * 1 + 256 * 0 = 0x48000)
    ∧ ∀ sc ∈ [0, 5], isOk (State.hubDoneStore { hubS 0 [] with graphs := [(3, inst (some none) sc)] } 0 0x4C000 9 sc false).2 = true
        ∧ isOk (State.hubDoneStore { one with disps := one.disps.map (fun e => (e.1, { e.2 with live := 0, lr := { e.2.lr with cw := 0x4C000, cwsc := sc } })) } 0 0x4C000 0 sc false).2 = true := by
  decide +kernel
def exited : State := { mapT one (fun x => { x with exited := true }) with accs := [] }
theorem witness_WorkgroupEnd : (exited.wg 0).map Workgroup.task = some none ∧ exited.canEnd 0 = true ∧ (exited.disp 0).map Dispatch.fin = some .running
    ∧ canonicalB exited = true ∧ (one.disp 0).map (fun d => (d.live, d.nextCl, d.fault)) = some (1, 1, false) := by decide +kernel

/-- QueuesAreMapped: a bound queue and its doorbell; a waiting queue with an idle slot, and one whose slots are all taken by another class. -/
def mapped (tail : Nat) : State := { one with queues := [(0, { queue0 with slot := some 0, tail := BitVec.ofNat 64 tail })], slots := [{ half.slot 0 with queue := some 0 }], disps := [] }
def slotsKeptB (s : State) : Bool :=
  (List.range s.slots.length).all (fun n => (s.slot n).queue.all (fun q => (s.queue q).any (fun k => k.hasWork) && !(s.slot n).asked))
def waiting (slots : List Slot) (cls : Nat) : State :=
  { one with queues := [(0, { queue0 with tail := 1 }), (1, { queue0 with slot := some 0, tail := 1, cls := cls })], slots := slots, disps := [], hubTime := 100000000 }
theorem witness_QueuesAreMapped : (canonicalB (mapped 3) = true ∧ slotsKeptB (mapped 3) = true ∧ ((mapped 3).queue 0).map (fun k => (k.slot, k.head, k.lsize, k.tail)) = some (some 0, 0, 4, 3))
    ∧ ∀ p ∈ [([{ half.slot 0 with queue := some 1 }, { half.slot 0 with lastUsed := 9 }, half.slot 0, half.slot 0], 0), ([{ half.slot 0 with queue := some 1 }], 0), ([{ half.slot 0 with queue := some 1 }], 2)],
      slotsKeptB (waiting p.1 p.2) = true ∧ ((waiting p.1 p.2).queues.filter (fun e => e.2.slot.isNone && e.2.hasWork)).map Prod.fst = [0] ∧ (waiting p.1 p.2).underCap 0 = true
        ∧ (({ waiting p.1 p.2 with hubTime := 100010000 } : State).victimFor { queue0 with tail := 1 }) = if p.2 = 2 then some 0 else none := by decide +kernel
theorem witness_idle_slot : ∀ m, m < 4 → ((waiting [{ half.slot 0 with queue := some 1 }, { half.slot 0 with lastUsed := 9 }, half.slot 0, half.slot 0] 0).slot m).queue = none →
    ((half.slot 0).lastUsed < ((waiting [{ half.slot 0 with queue := some 1 }, { half.slot 0 with lastUsed := 9 }, half.slot 0, half.slot 0] 0).slot m).lastUsed ∨ 2 ≤ m) := by decide +kernel

/-- WorkgroupsComeAndGo: a dispatch with a cluster to admit; a slot to be pre-empted; a workgroup at its deadline; a group in the phase queue. -/
def admitting : State :=
  { State.reset with queues := [(0, { queue0 with slot := some 0, tail := 1, csas := 0x100000 })], slots := [{ half.slot 0 with queue := some 0 }]
                     disps := [(0, { probeDisp with dies := 1, nextCl := 0, live := 0 })], fresh := 5 }
theorem witness_admission : (match bestTurn (admitting.turns 0) with
      | some (_, _, n, .launchOn d [f] set) => n == 0 && d == 0 && set.isNone && f.core == 0 && f.spots.length == 1
      | _ => false) = true ∧ admitting.threads = [] ∧ admitting.groups = [] ∧ admitting.wgs = [] ∧ canonicalB admitting = true := by decide +kernel
def leaving (asked : Bool) : State :=
  { one with
    queues := [(0, { queue0 with slot := some 0, tail := 1, csab := 0x200000, csas := 0x100000 })]
    slots := [{ half.slot 0 with queue := some 0, preempt := true, asked := asked, deadlines := if asked then [1] else [] }]
    disps := one.disps.map (fun e => (e.1, { e.2 with lr := { e.2.lr with nreg := 8, spb := 64 } }))
    threads := [(t0, { probeThread false with regs := List.replicate 8 0 })]
    wgs := one.wgs.map (fun e => (e.1, { e.2 with core := 1, tiles := [], tileNos := [] })) }
theorem witness_leaving : (leaving false).slots.length = 1 ∧ ((leaving false).slot 0).asked = false
    ∧ ((leaving true).wgs.filter (fun e => e.2.coreIx == 1 && e.2.resident && !e.2.ended && (((leaving true).disp e.2.disp).map (fun d => d.slot == 0)).getD false)).map Prod.fst = [0]
    ∧ (leaving true).settled 0 = true ∧ mget ((leaving true).core 1).qcopy 0 = none ∧ ((leaving true).saveWg 0).2 = true ∧ ((leaving true).dispOf 0).map Dispatch.slot = some 0 := by decide +kernel
def queued (full : Bool) : State :=
  { one with
    groups := (if full then (List.range 64).map (fun k => (⟨1, k⟩, { probeGroup with width := 64, quarter := k % 4, row := k / 4 })) else []) ++ [(⟨0, 0⟩, { probeGroup with status := .queued })]
    threads := (if full then (List.range 64).map (fun k => (⟨1, k, 0⟩, probeThread false)) else []) ++ one.threads
    wgs := one.wgs.flatMap (fun e => [e, (1, e.2)])
    cores := one.cores.map (fun e => (e.1, { e.2 with phaseQ := [(0, 0, 0)] })) }
theorem witness_phase_queue : ∀ f ∈ [false, true], (placeGroup ((queued f).spots 0) (columnWords 0x80411100) 8 192).isSome = !f ∧ ((queued f).core 0).phaseQ = [(0, 0, 0)]
    ∧ ((queued f).grp ⟨0, 0⟩).map Group.width = some 8 ∧ ((queued f).lrOf 0).map (fun l => (l.part, l.nreg)) = some (0x80411100, 192) := by decide +kernel

/-- LinesMove: a line that a fetch awaits, an injected line on its way, an invalidation, lines of a die's L2. -/
def moving (q : Nat) (l1 : List L1Line) : State :=
  { one with
    cores := one.cores.map (fun e => (e.1, { e.2 with conf := some (0x80411100, q), frozen := [some (9, ord), none, none, none], l1 := l1 }))
    injMsgs := [⟨0, 3, 0, 7, ord, false⟩], invMsgs := [(0, 3)]
    dies := [{ Die.reset with pins := [(0x20000, 0x10000)], l2 := [(0x300, ⟨1, 1, 0, none⟩), (0x400, ⟨1, 0, 0, none⟩)] }, Die.reset, Die.reset, Die.reset] }
def cached1 (way : Nat) (inj : Bool) (line : Nat) : L1Line := ⟨line, 15, if inj then 0 else 1, 0, inj, 0, ord, way, .normal⟩
theorem witness_LinesMove : (∀ p ∈ [(0, [cached1 0 false 3]), (1, []), (1, [cached1 7 true 259]), (0, [])], canonicalB (moving p.1 p.2) = true ∧ (moving p.1 p.2).quota 0 = p.1
      ∧ ((moving p.1 p.2).injMsgs.find? (fun m => m.core == 0 && m.line == 3)).isSome = true ∧ (0, 3) ∈ (moving p.1 p.2).invMsgs
      ∧ (((moving p.1 p.2).core 0).frozen.filterMap id ++ ((moving p.1 p.2).core 0).prefetch).find? (fun f => f.1 == 9) = some (9, ord))
    ∧ ((moving 0 [cached1 0 false 3]).l1Find 0 3).isSome = true ∧ ((moving 1 [cached1 7 true 259]).l1Find 0 3).isNone = true ∧ ((moving 1 []).core 0).l1 = []
    ∧ (0x20000 ≤ 128 * 0x400 ∧ 128 * 0x400 < 0x20000 + 0x10000) ∧ ¬ 0x20000 ≤ 128 * 0x300 := by decide +kernel

/-- OutsideEvents: an access that meets an uncorrectable error, and the limits of the temperatures. -/
theorem witness_OutsideEvents : (∀ s ∈ accesses, canonicalB s = true ∧ userTrapB s 0 [t0] = true ∧ ∀ e ∈ s.accs, e.1 = 7 ∧ e.2.t = t0 ∧ e.2.owners = [t0])
    ∧ (∀ e ∈ (pend (.store [1]) .scratch .none .plain 0 1).threads, e.2.exited = false)
    ∧ [109, 95].foldl max 0 = 109 ∧ [100, 110].foldl max 0 = 110 ∧ (one.thermal = 0 ∧ one.powers = [])
    ∧ 1 ≤ 16 ∧ (∀ e ∈ ({ one with vfs := [(2, ⟨[7], [8], 1⟩)] } : State).vfs, e.1 ≠ 1 → 9 ∉ e.2.queues ∧ 9 ∉ e.2.ctxs) := by decide +kernel

/-- QueuesAreMapped: the queue of the bound slot has no work. -/
theorem witness_slot_released : ((mapped 0).slot 0).queue = some 0 ∧ (mapped 0).slots.length = 1 ∧ ((mapped 0).queue 0).map Queue.hasWork = some false
    ∧ ((mapped 0).slot 0).asked = false ∧ (∀ m, 1 ≤ m → (mapped 0).slot m = Slot.reset) ∧ Slot.reset.queue = none ∧ Slot.reset.asked = false
    ∧ ∀ e ∈ (mapped 0).queues, e.2.slot ≠ none := by
  refine ⟨by decide +kernel, by decide +kernel, by decide +kernel, by decide +kernel, fun m hm => ?_, rfl, rfl, by decide +kernel⟩
  simp only [State.slot, List.getD_eq_getElem?_getD]
  rw [List.getElem?_eq_none (by simpa [mapped] using hm)]
  rfl
theorem witness_no_victims : admitting.victimsOn 0 = [] := by decide +kernel
/-- LinesMove: a line whose invalidation has overtaken it, with a clean and with a dirty copy there. -/
theorem witness_overtaken : ∀ l ∈ [[cached1 0 false 3], [], [cached1 7 true 3]], let s := { moving 1 l with injMsgs := [⟨0, 3, 0, 7, ord, true⟩] }
    canonicalB s = true ∧ (s.injMsgs.find? (fun m => m.core == 0 && m.line == 3)).map InjMsg.stale = some true ∧ (s.l1Find 0 3).isSome = !l.isEmpty := by decide +kernel
/-- OutsideEvents: reads of the host, and a firmware image. -/
def image (body : List Byte) (v : Nat) : FirmwareImage := ⟨leBytes 4 0x4E4B4231 ++ leBytes 4 v ++ leBytes 8 body.length ++ zeros 7280 ++ body⟩
theorem witness_image : fld (image [1, 2, 3] 7).bytes 0 4 = 0x4E4B4231 ∧ ((image [1, 2, 3] 7).bytes.drop 7296).take (fld (image [1, 2, 3] 7).bytes 8 8) = [1, 2, 3]
    ∧ fld (image [1, 2, 3] 7).bytes 4 4 = 7 ∧ (∀ k < 61, (image [1, 2, 3] 7).bytes.getD (7235 + k) 0 = 0) := by decide +kernel
theorem witness_outside : ((mapped 3).queue 0).map (fun k => (k.tail, k.err)) = some (3, false) ∧ one.boot.verified = true ∧ homeDie 0x20000 = some 0 ∧ homeDie dieBytes = none
    ∧ dieBytes < 2 ^ 38 ∧ inSystem sysBase = true := by decide +kernel

/-- WordsAreChecked and StepRunsTheDecodedInstruction: the word of State.withFetchWord is the one fetched; a header is met in header position;
a line that is not cached is awaited. -/
def fetching (w : Nat) : State := Moving (State.reset.withFetchWord 64 w)
def entry0 : PcEntry := ⟨0, 0x10008, 0, 0, 0⟩
def fetchesB (s : State) (w : DWord) : Bool :=
  ((s.core 0).frozen.getD 0 none).isNone && (s.headerGroup 0 0).isEmpty && (s.byAge 0 0).head? == some entry0 && s.candidates 0 entry0 == [t0]
    && (s.fetchWord 0 entry0.ctx entry0.pc).2 == .word w
theorem fetches_of {s : State} {w : DWord} (h : fetchesB s w = true) : Fetches s 0 0 entry0 w (s.fetchWord 0 entry0.ctx entry0.pc).1 := by
  simp only [fetchesB, Bool.and_eq_true, beq_iff_eq, List.isEmpty_iff] at h
  obtain ⟨⟨⟨⟨h1, h2⟩, h3⟩, h4⟩, h5⟩ := h
  refine ⟨by simpa using h1, h2, ?_, by rw [h4]; simp, by rw [← h5]⟩
  cases he : s.byAge 0 0 with
  | nil => rw [he] at h3; simp at h3
  | cons a l => rw [he] at h3; simp at h3; exact ⟨l, by rw [h3]⟩
theorem witness_fetch : ∀ w ∈ [0x8457_04FF_0000_002A, 0, 3, 0xC000_0000_0000_0000], fetchesB (fetching w) (BitVec.ofNat 64 w) = true
    ∧ (State.reset.withFetchWord 64 w).turn = some (.quarter 0 0)
    ∧ (State.reset.withFetchWord 64 w).faults = [] ∧ (fetching w).waitStops 0 0 = [] ∧ ((fetching w).threads.map Prod.fst).Nodup := by decide +kernel
/-- PageFaultsAreRecordedAndAnswered: a thread with a cancelled load stops at a word that names the load's destination, or at WAIT. -/
def cut (wait : BitVec 12) : State :=
  { mapT (State.reset.withFetchWord 64 0x8457_04FF_0000_002A) (fun x => { x with flags := 1, clause := x.clause.map (fun k => { k with wait := wait }) }) with
    accs := [(7, ⟨t0, [t0], .load (.v 4) .b32 false, 3, .global, .none, .plain, .normal, 0x40000000, 4, some 0, some 1, false, none⟩)]
    faults := [(1, { faultOf (.access 7) (some 5) false with cancelled := true })] }
theorem witness_fault_cancel : (∀ w ∈ [0, 1], (cut w).turn = some (.quarter 0 0) ∧ ((cut w).threads.map Prod.fst).Nodup ∧ ((Moving (cut w)).core 0).frozen.getD 0 none = none
      ∧ (cut w).accs.filter (fun e => e.2.fault.isSome) = (cut w).accs ∧ (mget (cut w).faults 1).map PFault.cancelled = some true ∧ userTrapB (cut w) 0 [t0] = true)
    ∧ (Moving (cut 1)).waitStops 0 0 = [t0] ∧ (Moving (cut 0)).waitStops 0 0 = [] ∧ fetchesB (Moving (cut 0)) 0x8457_04FF_0000_002A = true
    ∧ (match decode 0x8457_04FF_0000_002A with
      | .ok i => !((Moving (cut 0)).fetchWord 0 entry0.ctx entry0.pc).1.unheld i t0
      | .error _ => false) = true := by decide +kernel
theorem witness_fetch_rejected : isOk (decode 3) = false ∧ isOk (decode 0xC000_0000_0000_0000) = false
    ∧ userTrapB ((fetching 3).fetchWord 0 0 0x10008).1 0 ((fetching 3).candidates 0 entry0) = true := by decide +kernel
theorem witness_fetch_header : (fetching 0xF100_07F8_0000_0000).headerGroup 0 0 = [t0] ∧ ((fetching 0xF100_07F8_0000_0000).thr t0).map (fun x => (x.resume, x.pc)) = some (false, 0x10008)
    ∧ ((fetching 0xF100_07F8_0000_0000).fetchWord 0 0 0x10008).2 = .word 0xF100_07F8_0000_0000
    ∧ (let s := { fetching 0xF100_07F8_0000_0000 with cores := (fetching 0).cores.map (fun (e : Nat × Core) => (e.1, { e.2 with icache := [], pct := [] })) }
       (s.fetchWord 0 0 0x10008).2 = .miss 0x200 ord ∧ s.headerGroup 0 0 = [t0]) := by decide +kernel
/-- A step runs the word: MOVI writes its immediate, and the thread stands at the next header. -/
theorem test_step : (match step (State.reset.withFetchWord 64 0x8457_04FF_0000_002A) with
      | .next z => (z.thr t0).map (fun x => ((x.regs.getD 4 0).toNat, x.pc.toNat, x.clause.isNone))
      | _ => none) = some (42, 0x10010, true) := by decide +kernel

end Sys2Proof.Tests
end

section
/-! Lane operations (R22, R339, R371, R391, R394, R395, R400, R410). -/
namespace Sys2Proof.Machine

/-- An effect that writes registers and, unless p is 7, a predicate. -/
theorem regWrites_predOf (d : Opnd) (ws : List Word) (p : Fin 8) (c : Bool) :
    (if p = 7 then regWrites d ws else { regWrites d ws with ps := [(p.val, c)] })
      = { regWrites d ws with ps := predOf p c, fsr := 0 } := by
  unfold predOf
  split <;> cases d <;> rfl

theorem regWrites_only (d : Opnd) (ws : List Word) : regWrites d ws = { regWrites d ws with ps := [], fsr := 0 } := by
  cases d <;> rfl

theorem mem_aregs_of_run {f : ArithF} {d a b c : Nat} {r : Reg} (h : r ∈ run f.d d) : r ∈ aregs f d a b c := by
  simp [aregs, h]

theorem isV_ne_s {d : Opnd} (h : d.isV = true) (n : Fin 32) : d ≠ .s n := by rintro rfl; exact Bool.false_ne_true h

theorem fits_of_isV {d : Opnd} {N : Nat} (h : d.isV = true) (n : Fin 32) (hd : d = .s n) : n.val + N ≤ 32 := absurd hd (isV_ne_s h n)

theorem binary_dstOk {f : ArithF} {dw aw bw : Bool} (h : f.binary dw aw bw = true) : f.d.dstOk dw = true := by
  simp only [ArithF.binary, Bool.and_eq_true] at h
  obtain ⟨⟨⟨⟨hd, -⟩, -⟩, -⟩, -⟩ := h
  exact hd

/-- SHARE of a value that the thread itself keeps where the lane it names takes no part (R400). -/
theorem share_gives (s : State) (f : ArithF) :
    let src : ThreadId → Int := fun t => match f.lo3.val with
      | 0 => ((s.rdB t f).toNat : Int)
      | 1 => (t.ix : Int) - (s.rdB t f).toNat
      | 2 => (t.ix : Int) + (s.rdB t f).toNat
      | 3 => (t.ix ^^^ (s.rdB t f).toNat : Nat)
      | _ => ((t.ix + (s.rdB t f).toNat) % 2 ^ 32 % max (s.widthOf t) 1 : Nat)
    let valid := fun (t : ThreadId) =>
      decide (0 ≤ src t ∧ src t < s.widthOf t ∧ { t with ix := (src t).toNat } ∈ s.executing (.share f))
    Gives s (.share f) f.d
     (fun t => wordsOf f.t (s.rdT (if valid t then { t with ix := (src t).toNat } else t) f.t f.a)) (fun t => predOf f.hi3 (valid t)) := by
  intro src valid
  refine gives_of (shareLane f) (wd f.t.wide) rfl (fun t _ => ?_) (fun t => wordsOf_length _ _) (fun r hr => mem_aregs_of_run hr)
    (fun h => ?_) (fun t => predOf_ok _ _)
  · have hv : (decide (0 ≤ src t) && decide (src t < s.widthOf t) && (s.executing (.share f)).contains { t with ix := (src t).toNat })
        = valid t := by
      simp [valid, Bool.and_assoc]
    rw [← regWrites_predOf, ← wrT_eq, ← hv]
    rfl
  · simp only [Instr.wf, Bool.and_eq_true] at h
    exact dstOk_s (binary_dstOk h.1.2)

/-- VMASK: some, all, which or how many of the group's executing threads hold the predicate (R410). -/
theorem vmask_gives (s : State) (f : ArithF) :
    let all := fun t => peersOf (s.executing (.vmask f)) t
    let yes := fun t => (all t).filter (fun u => s.pred u (f.sub.extractLsb' 2 3).toNat != f.sub.getLsbD 5)
    Gives s (.vmask f) f.d (fun t => match (f.sub.extractLsb' 0 2).toNat with
      | 0 => maskWord (decide (yes t ≠ []))
      | 1 => maskWord (decide ((yes t).length = (all t).length))
      | 2 => [loW (maskOf (yes t)), hiW (maskOf (yes t))]
      | _ => [BitVec.ofNat 32 (yes t).length]) := by
  intro all yes
  have hpair : f.sub.extractLsb' 0 2 = 2 ↔ (f.sub.extractLsb' 0 2).toNat = 2 := BitVec.toNat_inj.symm
  refine gives_of (vmaskLane f) (if (f.sub.extractLsb' 0 2).toNat = 2 then 2 else 1) rfl (fun t _ => ?_) (fun t => ?_)
    (fun r hr => mem_aregs_of_run (by simpa only [hpair] using hr)) (fun h => ?_)
  · rw [← regWrites_only]
    have he : vmaskLane f s (s.executing (.vmask f)) t = .fx (match (f.sub.extractLsb' 0 2).toNat with
      | 0 => wr32 f.d (if (yes t).isEmpty then 0 else 0xFFFFFFFF)
      | 1 => wr32 f.d (if (yes t).length = (all t).length then 0xFFFFFFFF else 0)
      | 2 => wr64 f.d (maskOf (yes t))
      | _ => wr32 f.d (BitVec.ofNat 32 (yes t).length)) := rfl
    rw [he]
    split
    · cases h : yes t <;> simp [wr32, maskWord]
    · simp [wr32, maskWord]
    · rfl
    · rfl
  · split
    · rename_i h; rw [h]; rfl
    · rename_i h; rw [h]; rfl
    · rename_i h; rw [h]; rfl
    · rename_i h; rw [if_neg h]; rfl
  · simp only [Instr.wf, Bool.and_eq_true] at h
    obtain ⟨⟨⟨⟨⟨-, hd⟩, -⟩, -⟩, -⟩, -⟩ := h
    exact fits_of_isV hd

/-- ELECT: the first executing thread of the group (R339). -/
theorem elect_gives (s : State) (f : ArithF) :
    let e := fun t => (peersOf (s.executing (.elect f)) t).headD t
    Gives s (.elect f) (if f.d.isS then f.d else .z) (fun t => [s.rd (e t) f.a]) (fun t => predOf f.lo3 (decide (t = e t))) := by
  intro e
  refine gives_of (electLane f) 1 rfl (fun t _ => ?_) (fun _ => rfl) (fun r hr => ?_) (fun _ n hd => ?_) (fun t => predOf_ok _ _)
  · rw [← regWrites_predOf]
    have hw : (if f.d.isS then wr32 f.d (s.rd (e t) f.a) else {}) = regWrites (if f.d.isS then f.d else .z) [s.rd (e t) f.a] := by
      cases f.d.isS <;> rfl
    rw [← hw, ← beq_eq_decide]
    rfl
  · refine mem_aregs_of_run (f := f) ?_
    cases hs : f.d.isS
    · rw [hs] at hr; exact absurd hr (by simp [run])
    · rwa [hs] at hr
  · have := n.isLt; omega

/-- RDLANE of lanes below the width (R391). -/
theorem rdlane_gives (s : State) (f : ArithF) (h : ∀ t ∈ s.executing (.rdlane f), (s.rdB t f).toNat < s.widthOf t) :
    GivesT s (.rdlane f) f.t f.d (fun t => s.rdT { t with ix := (s.rdB t f).toNat } f.t f.a) := by
  refine gives_of (rdlaneLane f) (wd f.t.wide) rfl (fun t ht => ?_) (fun t => wordsOf_length _ _) (fun r hr => mem_aregs_of_run hr) (fun h => ?_)
  · rw [← regWrites_only, ← wrT_eq]
    exact if_neg (Nat.not_le.mpr (h t ht))
  · simp only [Instr.wf, Bool.and_eq_true] at h
    obtain ⟨⟨⟨⟨-, hd⟩, -⟩, -⟩, -⟩ := h
    exact srcOk_s hd

theorem scanOk_isV {f : ArithF} {excl : Bool} (h : f.scanOk excl = true) : f.d.isV = true := by
  simp only [ArithF.scanOk, Bool.and_eq_true] at h
  obtain ⟨⟨⟨-, hd⟩, -⟩, -⟩ := h
  exact hd

/-- SCAN: the combination up to the thread, itself left out or not (R394, R395). -/
theorem scan_gives (s : State) (f : ArithF) :
    let op := (f.sub.extractLsb' 0 4).toNat
    let run := fun t => s.scanOf f (s.executing (.scan f)) t
    Gives s (.scan f) f.d
      (fun t =>
        let k := (peersOf (s.executing (.scan f)) t).idxOf t
        [if f.sub.getLsbD 4 then (if k = 0 then scanIdent op (tySigned f.t) else (run t).1.getD (k - 1) 0) else (run t).1.getD k 0])
      (fun _ => []) (fun t => (run t).2) :=
  gives_of (scanLane f) 1 rfl (fun t _ => by cases hd : f.d <;> simp [scanLane, wr32, regWrites, hd]) (fun _ => rfl) (fun r hr => mem_aregs_of_run hr)
    (fun h => fits_of_isV (scanOk_isV h))

/-- REDUX: the combination over all of them (R394, R395). -/
theorem redux_gives (s : State) (f : ArithF) :
    let run := fun t => s.scanOf f (s.executing (.redux f)) t
    Gives s (.redux f) f.d (fun t => [(run t).1.getLastD 0]) (fun _ => []) (fun t => (run t).2) :=
  gives_of (reduxLane f) 1 rfl (fun t _ => by cases hd : f.d <;> simp [reduxLane, wr32, regWrites, hd]) (fun _ => rfl) (fun r hr => mem_aregs_of_run hr)
    (fun h => fits_of_isV (scanOk_isV h))

/-- MATCH: which executing threads of the group hold the same value (R371). -/
theorem match_gives (s : State) (f : ArithF) :
    let all := fun t => peersOf (s.executing (.matchLanes f)) t
    let same := fun t => (all t).filter (fun u => s.rdT u f.t f.a == s.rdT t f.t f.a)
    let m := fun t => if f.sub.getLsbD 0 then (if (same t).length = (all t).length then maskOf (all t) else 0) else maskOf (same t)
    Gives s (.matchLanes f) f.d (fun t => [loW (m t), hiW (m t)]) := by
  intro all same m
  refine gives_of (matchLane f) 2 rfl (fun t _ => ?_) (fun _ => rfl) (fun r hr => mem_aregs_of_run hr) (fun h => ?_)
  · rw [← regWrites_only]
    rfl
  · simp only [Instr.wf, Bool.and_eq_true] at h
    obtain ⟨⟨⟨⟨-, hv⟩, -⟩, -⟩, -⟩ := h
    simp only [Opnd.isEvenV, Bool.and_eq_true] at hv
    exact fits_of_isV hv.1

/-- Settles O7: each lane operation writes what its lane function gives. -/
theorem laneResults : Obligations.LaneResults := by
  intro s f
  exact ⟨share_gives s f, vmask_gives s f, elect_gives s f, rdlane_gives s f, ⟨scan_gives s f, redux_gives s f⟩, match_gives s f⟩

end Sys2Proof.Machine
end

section
/-! JOIN (R21, R364). -/
namespace Sys2Proof.Machine

/-- Keeping threads at the word that they have executed. -/
theorem thr_hold (s0 : State) (w : Wait) (ts : List ThreadId) (nd : ts.Nodup) (s : State) (u : ThreadId) :
    (ts.foldl (fun z t => State.holdAt s0 z t w) s).thr u = if u ∈ ts then (s.thr u).map (fun x => { x with
      pc := ((s0.thr u).map Thread.pc).getD x.pc
      clause := ((s0.thr u).map Thread.clause).getD x.clause
      wait := w }) else s.thr u :=
  thr_foldl_updThr (fun t x => { x with
      pc := ((s0.thr t).map Thread.pc).getD x.pc
      clause := ((s0.thr t).map Thread.clause).getD x.clause
      wait := w }) ts s u nd

theorem hold_rest (s0 : State) (w : Wait) (ts : List ThreadId) (s : State) :
    ts.foldl (fun z t => State.holdAt s0 z t w) s = { s with threads := (ts.foldl (fun z t => State.holdAt s0 z t w) s).threads } :=
  rest_foldl_updThr (fun t x => { x with
      pc := ((s0.thr t).map Thread.pc).getD x.pc
      clause := ((s0.thr t).map Thread.clause).getD x.clause
      wait := w }) ts s

/-- A thread that its word has moved on stands, when kept there, as it stood before. -/
theorem hold_advance (x : Thread) (w : Wait) : ({ x.advance with pc := x.pc, clause := x.clause, wait := w } : Thread) = { x with wait := w } := by
  unfold Thread.advance
  cases h : x.clause with
  | none => simp
  | some c => dsimp only; split <;> simp

theorem advance_wait (x : Thread) (w : Wait) : ({ x with wait := w } : Thread).advance = { x.advance with wait := w } := by
  unfold Thread.advance
  cases x.clause with
  | none => rfl
  | some c => dsimp only; split <;> rfl

@[simp] theorem advance_exited (x : Thread) : x.advance.exited = x.exited := by
  unfold Thread.advance
  cases x.clause with
  | none => rfl
  | some c => dsimp only; split <;> rfl

@[simp] theorem advance_waits (x : Thread) : x.advance.wait = x.wait := by
  unfold Thread.advance
  cases x.clause with
  | none => rfl
  | some c => dsimp only; split <;> rfl

theorem mem_keys_of_mget {κ ν : Type} [DecidableEq κ] {m : Map κ ν} {k : κ} {v : ν} (h : mget m k = some v) : k ∈ m.map Prod.fst := by
  induction m with
  | nil => simp [mget] at h
  | cons e m ih =>
    obtain ⟨j, w⟩ := e
    by_cases hj : j = k
    · simp [hj]
    · rw [mget, if_neg hj] at h; exact List.mem_cons_of_mem _ (ih h)

theorem mget_of_mem_keys {κ ν : Type} [DecidableEq κ] {m : Map κ ν} {k : κ} (h : k ∈ m.map Prod.fst) : ∃ v, mget m k = some v := by
  induction m with
  | nil => simp at h
  | cons e m ih =>
    obtain ⟨j, w⟩ := e
    by_cases hj : j = k
    · exact ⟨w, by rw [mget, if_pos hj]⟩
    · rw [mget, if_neg hj]
      exact ih (by simpa [Ne.symm hj] using h)

/-- The threads of a group that have not exited. -/
theorem mem_liveThreads {s : State} {g : GroupId} {t : ThreadId} : t ∈ s.liveThreads g ↔ t.group = g ∧ ∃ x, s.thr t = some x ∧ x.exited = false := by
  simp only [State.liveThreads, State.groupThreads, List.mem_filter, decide_eq_true_eq]
  constructor
  · rintro ⟨⟨-, hg⟩, hx⟩
    cases h : s.thr t with
    | none => simp [h] at hx
    | some x => exact ⟨hg, x, rfl, by simpa [h] using hx⟩
  · rintro ⟨hg, x, hx, he⟩
    exact ⟨⟨mem_keys_of_mget hx, hg⟩, by simp [hx, he]⟩

/-- A group with a thread that still runs elsewhere waits. -/
theorem tryJoin_waits {s : State} {g : GroupId} {u : ThreadId} {x : Thread} (hg : u.group = g) (hx : s.thr u = some x) (he : x.exited = false)
    (hw : x.wait = .none) : s.tryJoin g = s := by
  have hu : u ∈ s.liveThreads g := mem_liveThreads.mpr ⟨hg, x, hx, he⟩
  unfold State.tryJoin
  cases h : s.liveThreads g with
  | nil => rfl
  | cons t0 ts =>
    dsimp only
    rw [if_neg]
    intro hall
    have := List.all_eq_true.mp hall u (h ▸ hu)
    simp [hx, hw] at this

theorem keys_foldl_updThr (f : ThreadId → Thread → Thread) (ts : List ThreadId) (s : State) :
    (ts.foldl (fun s t => s.updThr t (f t)) s).threads.map Prod.fst = s.threads.map Prod.fst := by
  induction ts generalizing s with
  | nil => rfl
  | cons t ts ih => rw [List.foldl_cons, ih]; exact mupd_keys ..

/-- A group all of whose threads stand at one JOIN goes on. -/
theorem tryJoin_goes {s : State} {g : GroupId} {a : DWord} (hk : Keyed s) (h : ∀ t ∈ s.liveThreads g, ∀ x, s.thr t = some x → x.wait = .join ∧ x.pc = a) :
    s.tryJoin g = { s with threads := (s.tryJoin g).threads }
      ∧ ∀ t, (s.tryJoin g).thr t = if t ∈ s.liveThreads g then (s.thr t).map (fun x => { x.advance with wait := .none }) else s.thr t := by
  have nd : (s.liveThreads g).Nodup := (hk.filter _).filter _
  unfold State.tryJoin
  cases hl : s.liveThreads g with
  | nil => exact ⟨rfl, fun t => by simp⟩
  | cons t0 ts =>
    have hstand : ∀ t ∈ s.liveThreads g, ∃ x, s.thr t = some x ∧ x.wait = .join ∧ x.pc = a := fun t ht => by
      obtain ⟨-, x, hx, -⟩ := mem_liveThreads.mp ht
      exact ⟨x, hx, h t ht x hx⟩
    have hall : (t0 :: ts).all (fun t => ((s.thr t).map (fun x => x.wait == .join && some x.pc == (s.thr t0).map Thread.pc)).getD false) = true := by
      rw [List.all_eq_true]
      intro t ht
      obtain ⟨x, hx, hw, hp⟩ := hstand t (hl ▸ ht)
      obtain ⟨x0, hx0, -, hp0⟩ := hstand t0 (hl ▸ List.mem_cons_self ..)
      simp [hx, hx0, hw, hp, hp0]
    dsimp only
    rw [if_pos hall]
    refine ⟨rest_foldl_updThr (fun _ x => ({ x with wait := .none } : Thread).advance) _ _, fun t => ?_⟩
    rw [thr_foldl_updThr (fun _ x => ({ x with wait := .none } : Thread).advance) _ _ _ (hl ▸ nd)]
    simp only [advance_wait]

theorem keys_lanes {s : State} {i : Instr} (lane : State → List ThreadId → ThreadId → LaneRes) (hm : s.misplaced i = false)
    (h : ∀ t ∈ s.executing i, s.regsOk t i = true ∧ lane s (s.executing i) t = .fx {}) :
    (s.lanes i lane).threads.map Prod.fst = s.threads.map Prod.fst := by
  rw [State.lanes, lanesThen_ok s i lane _ hm (fun t ht => ⟨(h t ht).1, _, (h t ht).2⟩), State.skipFalse, keys_foldl_updThr]
  refine foldl_keeps _ (fun z => z.threads.map Prod.fst) _ (fun z t ht => ?_) s
  rw [(h t ht).2]
  exact (mupd_keys _ _ _).trans (mupd_keys _ _ _)

/-- At JOIN the executing threads of every group wait, and then each group looks whether all of it is there. -/
theorem join_arrives {s : State} {f : OwnF} (hr : Ready s (.join f)) :
    ∃ u, exec (.join f) s = .next ((groupsOf (s.executing (.join f))).foldl State.tryJoin u) ∧ u = { s with threads := u.threads }
      ∧ ThreadsGo s u (.join f) (fun _ x => { x with wait := .join }) ∧ u.threads.map Prod.fst = s.threads.map Prod.fst := by
  have ⟨nd, hm, hx⟩ := hr
  obtain ⟨h1, h2⟩ := lanes_go (fun _ _ _ => .fx {}) (fun _ => Thread.advance) (fun _ => {}) hr (fun _ _ => ⟨rfl, rfl, rfl⟩) (fun _ _ x _ =>
      congrArg Thread.advance (apply_empty x []))
  have hj : exec (.join f) s = .next (joinPost s (s.lanes (.join f) (fun _ _ _ => .fx {})) (s.executing (.join f))) :=
    congrArg Host.Outcome.next (lanesThen_lanes s _ _ _ hm (fun t ht => ⟨(hx t ht).1, _, rfl⟩))
  refine ⟨_, hj, ?_, fun t => ?_, ?_⟩
  · rw [hold_rest, h1]
  · rw [thr_hold _ _ _ (executing_nodup nd), h2]
    by_cases ht : t ∈ s.executing (.join f)
    · obtain ⟨-, ⟨x, hx1, -⟩, -⟩ := hx t ht
      rw [if_pos ht, if_pos ht, if_pos ht, hx1]
      exact congrArg some (hold_advance x .join)
    · rw [if_neg ht, if_neg ht, if_neg ht]
  · rw [← keys_lanes (fun _ _ _ => .fx {}) hm (fun t ht => ⟨(hx t ht).1, rfl⟩)]
    exact keys_foldl_updThr (fun t x => { x with
      pc := ((s.thr t).map Thread.pc).getD x.pc
      clause := ((s.thr t).map Thread.clause).getD x.clause
      wait := .join }) _ _

/-- A thread outside the executing ones that runs, runs on. -/
theorem threadsGo_runs {s z : State} {i : Instr} {f : ThreadId → Thread → Thread} (h : ThreadsGo s z i f) {t : ThreadId} {x : Thread}
    (ht : t ∉ s.executing i) (hx : s.thr t = some x) : ∃ y, z.thr t = some y ∧ y.exited = x.exited ∧ y.wait = x.wait := by
  rw [h t, if_neg ht, hx]
  split
  · exact ⟨_, rfl, advance_exited x, advance_waits x⟩
  · exact ⟨_, rfl, rfl, rfl⟩

theorem foldl_fixed {α β : Type} (f : β → α → β) (b : β) (l : List α) (h : ∀ a ∈ l, f b a = b) : l.foldl f b = b := by
  induction l with
  | nil => rfl
  | cons a l ih => rw [List.foldl_cons, h a (List.mem_cons_self ..)]; exact ih (fun c hc => h c (List.mem_cons_of_mem _ hc))

theorem mem_groupsOf {ts : List ThreadId} {g : GroupId} (h : g ∈ groupsOf ts) : ∃ t ∈ ts, t.group = g :=
  List.mem_map.mp (List.mem_eraseDups.mp h)

/-- While a thread of each group runs elsewhere, all wait (R21). -/
theorem join_waits {s : State} {f : OwnF} (hr : Ready s (.join f))
    (h : ∀ t ∈ s.executing (.join f), SomeRuns s t.group (s.executing (.join f))) :
    ∃ z, exec (.join f) s = .next z ∧ z = { s with threads := z.threads } ∧ ThreadsGo s z (.join f) (fun _ x => { x with wait := .join }) := by
  obtain ⟨u, he, hu, hgo, -⟩ := join_arrives hr
  have hstay : (groupsOf (s.executing (.join f))).foldl State.tryJoin u = u := by
    refine foldl_fixed _ _ _ (fun g hg => ?_)
    obtain ⟨t, ht, rfl⟩ := mem_groupsOf hg
    obtain ⟨r, x, hrg, hre, hrx, hrun, hw⟩ := h t ht
    obtain ⟨y, hy, hye, hyw⟩ := threadsGo_runs hgo hre hrx
    exact tryJoin_waits hrg hy (hye.trans hrun) (hyw.trans hw)
  exact ⟨u, hstay ▸ he, hu, hgo⟩

/-- When all of a group is there, it goes on (R21). -/
theorem join_goes {s : State} {f : OwnF} {g : GroupId} {a : DWord} (hr : ReadyIn s (.join f) g)
    (hall : ∀ t x, t.group = g → s.thr t = some x → x.exited = false → t ∈ s.executing (.join f) ∧ x.pc = a)
    (hlive : ∀ t ∈ s.executing (.join f), ∀ x, s.thr t = some x → x.exited = false) (hk : Keyed s) :
    ∃ z, exec (.join f) s = .next z ∧ z = { s with threads := z.threads }
      ∧ ThreadsGo s z (.join f) (fun _ x => { x.advance with wait := .none }) := by
  have ⟨⟨_, _, hx⟩, ne, hg⟩ := hr
  obtain ⟨u, he, hu, hgo, hkeys⟩ := join_arrives hr.1
  rw [groupsOf_one hg ne] at he
  have hstands : ∀ t, t ∈ u.liveThreads g ↔ t ∈ s.executing (.join f) := fun t => by
    rw [mem_liveThreads]
    constructor
    · rintro ⟨htg, y, hy, hye⟩
      by_contra hne
      cases hs : s.thr t with
      | none => rw [hgo t, if_neg hne, hs] at hy; simp at hy
      | some x =>
        obtain ⟨y', hy', hye', -⟩ := threadsGo_runs hgo hne hs
        rw [hy] at hy'
        obtain rfl := Option.some.inj hy'
        exact hne (hall t x htg hs (hye'.symm.trans hye)).1
    · intro ht
      obtain ⟨-, ⟨x, hx1, -⟩, -⟩ := hx t ht
      exact ⟨hg t ht, { x with wait := .join }, by rw [hgo t, if_pos ht, hx1]; rfl, hlive t ht x hx1⟩
  obtain ⟨h1, h2⟩ := tryJoin_goes (s := u) (g := g) (a := a) (by rw [Keyed, hkeys]; exact hk) (fun t ht y hy => by
    have hte := (hstands t).mp ht
    obtain ⟨-, ⟨x, hx1, -⟩, -⟩ := hx t hte
    rw [hgo t, if_pos hte, hx1] at hy
    obtain rfl := Option.some.inj hy
    exact ⟨rfl, (hall t x (hg t hte) hx1 (hlive t hte x hx1)).2⟩)
  refine ⟨_, he, ?_, fun t => ?_⟩
  · rw [List.foldl_cons, List.foldl_nil, h1, hu]
  · rw [List.foldl_cons, List.foldl_nil, h2]
    simp only [hstands]
    by_cases ht : t ∈ s.executing (.join f)
    · rw [if_pos ht, if_pos ht, hgo t, if_pos ht, Option.map_map]
      congr 1
      funext x
      simp only [Function.comp_apply, advance_wait]
    · rw [if_neg ht, if_neg ht, hgo t, if_neg ht]

/-- Settles O14: at JOIN the group waits, or goes on when it is all there, or when its time is up. -/
theorem joinWaits : Obligations.JoinWaits := by
  intro s f i _ hr
  refine ⟨join_waits hr, fun g a hrg hall hlive hk => join_goes hrg hall hlive hk, fun t x hx hw => ?_⟩
  show Host.Outcome.next _ = _
  simp only [hx, hw, if_true, advance_wait]

end Sys2Proof.Machine
end

section
/-! One step: the agent that moves, and the decoded instruction (R16 to R18, R246, R264 to R268). -/
namespace Sys2Proof.Machine

theorem thr_foldl_updThr_idem (f : Thread → Thread) (hf : ∀ x, f (f x) = f x) (ts : List ThreadId) (s : State) (u : ThreadId) :
    (ts.foldl (fun s t => s.updThr t f) s).thr u = if u ∈ ts then (s.thr u).map f else s.thr u := by
  induction ts generalizing s with
  | nil => simp
  | cons t ts ih =>
    rw [List.foldl_cons, ih]
    by_cases h : t = u
    · subst h; simp [Function.comp_def, hf]
    · simp [thr_updThr_ne s h, Ne.symm h]

/-- Counting an event touches the event counters of its core alone (R304). -/
theorem countEv_only (s : State) (c code n : Nat) :
    s.countEv c code n = { s with cores := (s.countEv c code n).cores }
      ∧ (∀ d, d ≠ c → (s.countEv c code n).core d = s.core d)
      ∧ (s.countEv c code n).core c = { s.core c with evcnt := ((s.countEv c code n).core c).evcnt } := by
  unfold State.countEv
  split
  · refine ⟨rfl, fun d hd => ?_, ?_⟩
    · rw [core_updCore, if_neg (Ne.symm hd)]
    · rw [core_updCore, if_pos rfl]
  · exact ⟨rfl, fun _ _ => rfl, rfl⟩

/-- A state that differs from another in the event counters of core c alone. -/
def Counted (s z : State) (c : Nat) : Prop :=
  z = { s with cores := z.cores } ∧ (∀ d, d ≠ c → z.core d = s.core d) ∧ z.core c = { s.core c with evcnt := (z.core c).evcnt }

theorem Counted.refl (s : State) (c : Nat) : Counted s s c := ⟨rfl, fun _ _ => rfl, rfl⟩

theorem Counted.trans {a b z : State} {c : Nat} (h : Counted a b c) (g : Counted b z c) : Counted a z c := by
  obtain ⟨h1, h2, h3⟩ := h
  obtain ⟨g1, g2, g3⟩ := g
  exact ⟨by rw [g1, h1], fun d hd => (g2 d hd).trans (h2 d hd), by rw [g3, h3]⟩

theorem Counted.countEv (s : State) (c code n : Nat) : Counted s (s.countEv c code n) c := countEv_only s c code n

/-- Marking groups as held changes groups alone (R256). -/
theorem markHeld_only (s : State) (ts : List ThreadId) : s.markHeld ts = { s with groups := (s.markHeld ts).groups } := by
  unfold State.markHeld
  generalize (groupsOf ts).filter s.unanswered = gs
  induction gs generalizing s with
  | nil => rfl
  | cons g gs ih => exact ih (s.updGrp g (fun x => { x with held := true }))

theorem markHeld_thr (s : State) (ts : List ThreadId) (t : ThreadId) : (s.markHeld ts).thr t = s.thr t := by rw [markHeld_only]; rfl

theorem MemoryOnly.faults {s z : State} (h : MemoryOnly s z) : z.faults = s.faults := by rw [h.1]

theorem mem_of_mget {κ ν : Type} [DecidableEq κ] {m : Map κ ν} {k : κ} {v : ν} (h : mget m k = some v) : (k, v) ∈ m := by
  induction m with
  | nil => simp at h
  | cons e m ih =>
    obtain ⟨j, w⟩ := e
    by_cases hj : j = k
    · rw [mget, if_pos hj] at h
      rw [← hj, ← Option.some.inj h]
      exact List.mem_cons_self ..
    · rw [mget, if_neg hj] at h
      exact List.mem_cons_of_mem _ (ih h)

theorem cancelledOf_uncut {s : State} (h : ∀ e ∈ s.faults, e.2.cancelled = false) (t : ThreadId) : s.cancelledOf t = [] := by
  rw [State.cancelledOf, List.filterMap_eq_nil_iff]
  rintro ⟨n, a⟩ -
  dsimp only
  split
  · cases hp : a.fault.bind (mget s.faults) with
    | none => rfl
    | some p =>
      obtain ⟨k, -, hk⟩ := Option.bind_eq_some_iff.mp hp
      have hc : p.cancelled = false := h _ (mem_of_mget hk)
      simp [hc]
  · rfl

/-- No thread has a cancelled access to trap for. -/
theorem uncut_filter {s : State} (h : ∀ e ∈ s.faults, e.2.cancelled = false) (ts : List ThreadId) :
    ts.filter (fun t => !(s.cancelledOf t).isEmpty) = [] := by
  simp [cancelledOf_uncut h]

/-- A fetch translates and does nothing else (R246). -/
theorem fetchWord_only (s : State) (c ctx : Nat) (a : DWord) : MemoryOnly s (s.fetchWord c ctx a).1 := by
  have h := xlate_only s (c / 32) ctx (pcBits a).toNat { x := true }
  unfold State.fetchWord
  generalize s.xlate (c / 32) ctx (pcBits a).toNat { x := true } = r at h
  obtain ⟨u, f | x⟩ := r
  · exact h
  · dsimp only
    split <;> exact h

/-- The turn of a quarter that is not frozen, where no access is cancelled: a header pass if a thread waits for one, else an issue (R17, R265). -/
theorem quarterTurn_uncut {s : State} {c q : Nat} (h : ∀ e ∈ s.faults, e.2.cancelled = false)
    (hf : ((Standing s c q).core c).frozen.getD q none = none) :
    (Moving s).quarterTurn c q = (if ((Standing s c q).headerGroup c q).isEmpty then (Standing s c q).issueFrom c q ((Standing s c q).byAge c q)
      else (Standing s c q).headerPass c q ((Standing s c q).headerGroup c q)) := by
  have hcore : (Standing s c q).core c = (Moving s).core c := by
    unfold Standing
    rw [markHeld_only]
    rfl
  rw [hcore] at hf
  unfold State.quarterTurn
  rw [hf, if_neg (by simp)]
  dsimp only
  rw [uncut_filter (s := Moving s) h]
  rfl

theorem step_quarter {s : State} {c q : Nat} (ht : s.turn = some (.quarter c q)) :
    step s = (match (Moving s).quarterTurn c q with
      | (u, none) => .next u.endStep
      | (u, some i) => finishTurn u i (exec i u)) := by
  unfold step
  rw [ht]
  rfl

theorem core_congr {s z : State} (h : z.cores = s.cores) (c : Nat) : z.core c = s.core c := by simp only [State.core, h]

/-- A thread that has passed the WAIT of its clause (R266). -/
def Thread.passWait (x : Thread) : Thread := { x with clause := x.clause.map (fun k => { k with wait := 0 }) }

theorem passWait_passWait (x : Thread) : x.passWait.passWait = x.passWait := by
  simp only [Thread.passWait, Option.map_map]
  rfl

/-- The events that an issue of word i to n threads counts (R304). -/
def State.countIssue (s : State) (c : Nat) (i : Instr) (n : Nat) : State :=
  let s := (s.countEv c 0x02 1).countEv c 0x03 n
  match i with
  | .formatD _ _ => s.countEv c 0x04 1
  | _ => s

theorem Counted.countIssue (s : State) (c : Nat) (i : Instr) (n : Nat) : Counted s (s.countIssue c i n) c := by
  refine Counted.trans ((Counted.countEv s c 0x02 1).trans (Counted.countEv _ c 0x03 n)) ?_
  unfold State.countIssue
  split
  · exact Counted.countEv _ _ _ _
  · exact Counted.refl _ _

/-- An issue opportunity at an entry whose word decodes, where some threads may issue it (R17, R266). -/
theorem issueFrom_issues {s m : State} {c q : Nat} {e : PcEntry} {es : List PcEntry} {w : DWord} {i : Instr} (hs : s.candidates c e ≠ [])
    (hw : s.fetchWord c e.ctx e.pc = (m, .word w)) (hd : decode w = .ok i) (hi : ∀ h, i ≠ .clauseStart h)
    (hm : ∀ x ∈ m.faults, x.2.cancelled = false) :
    let ts := s.candidates c e
    let u := m.markHeld (ts.filter (m.stopsHere i))
    let g := ts.filter (fun t => u.issuable i t && u.together i ts t)
    g ≠ [] → s.issueFrom c q (e :: es)
      = ({ (g.foldl (fun s t => s.updThr t Thread.passWait) u).countIssue c i g.length with issue := ⟨c, q, g⟩ }, some i) := by
  intro ts u g hg
  rw [State.issueFrom]
  dsimp only
  rw [if_neg (by simpa using hs), hw]
  dsimp only
  rw [hd]
  split
  · rename_i h heq; exact absurd (Except.ok.inj heq) (hi h)
  · rename_i heq; cases heq
  · rename_i j _ heq
    obtain rfl := Except.ok.inj heq
    have hge : ¬ g.isEmpty = true := fun h => hg (List.isEmpty_iff.mp h)
    rw [if_neg (by rw [uncut_filter hm]; simp), if_neg hge]
    rfl

/-- A quarter that comes to a word executes it on the entry's threads that may issue it (R17). -/
theorem step_issues {s : State} {c q : Nat} {e : PcEntry} {w : DWord} {m : State} {i : Instr} (ht : s.turn = some (.quarter c q))
    (hc : ∀ x ∈ s.faults, x.2.cancelled = false) (hf : Fetches (Standing s c q) c q e w m) (hd : decode w = .ok i) (hi : ∀ h, i ≠ .clauseStart h) :
    let ts := (Standing s c q).candidates c e
    let u := m.markHeld (ts.filter (m.stopsHere i))
    let g := ts.filter (fun t => u.issuable i t && u.together i ts t)
    g ≠ [] →
    ∃ v : State, step s = finishTurn v i (exec i v) ∧ v = { u with threads := v.threads, cores := v.cores, issue := ⟨c, q, g⟩ }
      ∧ (∀ t, v.thr t = if t ∈ g then (u.thr t).map Thread.passWait else u.thr t)
      ∧ (∀ d, d ≠ c → v.core d = u.core d) ∧ v.core c = { u.core c with evcnt := (v.core c).evcnt } := by
  intro ts u g hg
  obtain ⟨hfr, hh, ⟨es, hes⟩, hne, hw⟩ := hf
  have hfaults : m.faults = s.faults := by
    have hm := (fetchWord_only (Standing s c q) c e.ctx e.pc).faults
    rw [hw] at hm
    exact hm.trans (by rw [Standing, markHeld_only]; rfl)
  have hiss : (Standing s c q).issueFrom c q (e :: es)
      = ({ (g.foldl (fun s t => s.updThr t Thread.passWait) u).countIssue c i g.length with issue := ⟨c, q, g⟩ }, some i) :=
    issueFrom_issues hne hw hd hi (by rw [hfaults]; exact hc) hg
  clear_value g u
  have hcnt := Counted.countIssue (g.foldl (fun s t => s.updThr t Thread.passWait) u) c i g.length
  have hp := rest_foldl_updThr (fun _ => Thread.passWait) g u
  have hthr := thr_foldl_updThr_idem Thread.passWait passWait_passWait g u
  generalize g.foldl (fun s t => s.updThr t Thread.passWait) u = p at hcnt hp hthr hiss
  generalize p.countIssue c i g.length = v at hcnt hiss
  obtain ⟨h1, h2, h3⟩ := hcnt
  have hcore : ∀ d, p.core d = u.core d := fun d => core_congr (congrArg State.cores hp) d
  have hturn : (Moving s).quarterTurn c q = ({ v with issue := ⟨c, q, g⟩ }, some i) := by
    rw [quarterTurn_uncut hc hfr, hh, hes]
    exact hiss
  refine ⟨{ v with issue := ⟨c, q, g⟩ }, ?_, ?_, fun t => ?_, fun d hd => ?_, ?_⟩
  · rw [step_quarter ht, hturn]
  · rw [h1, hp]
  · rw [← hthr t, h1]; rfl
  · exact (h2 d hd).trans (hcore d)
  · rw [hcore c] at h3; exact h3

/-- Threads at a header fetch the word there (R265). -/
theorem headerPass_fetch {s : State} {c q : Nat} {t : ThreadId} {ts : List ThreadId} {x : Thread} (hx : s.thr t = some x) (hr : x.resume = false) :
    (∀ u w h, s.fetchWord c (s.ctxOf t.wg) x.pc = (u, .word w) → decode w = .ok (.clauseStart h) →
      s.headerPass c q (t :: ts) = ({ u with issue := ⟨c, q, t :: ts⟩ }, some (.clauseStart h)))
    ∧ ∀ u l a, s.fetchWord c (s.ctxOf t.wg) x.pc = (u, .miss l a) → s.headerPass c q (t :: ts) = (u.freeze c q l a, none) := by
  constructor
  · intro u w h hw hd
    simp only [State.headerPass, hx, hr, hw, hd, Bool.false_eq_true, if_false]
  · intro u l a hw
    simp only [State.headerPass, hx, hr, hw, Bool.false_eq_true, if_false]

theorem quarterTurn_header {s : State} {c q : Nat} {t : ThreadId} {ts : List ThreadId} (h : ∀ e ∈ s.faults, e.2.cancelled = false)
    (hf : ((Standing s c q).core c).frozen.getD q none = none) (hh : (Standing s c q).headerGroup c q = t :: ts) :
    (Moving s).quarterTurn c q = (Standing s c q).headerPass c q (t :: ts) := by
  rw [quarterTurn_uncut h hf, hh]
  rfl

/-- A freeze notes the line that the quarter's fetch awaits, and counts a slip (R246). -/
theorem freeze_only (s : State) (c q l : Nat) (a : PageAttr) :
    let v := s.freeze c q l a
    v = { s with cores := v.cores } ∧ (∀ d, d ≠ c → v.core d = s.core d)
      ∧ v.core c = { s.core c with frozen := (s.core c).frozen.set q (some (l, a)), evcnt := (v.core c).evcnt } := by
  obtain ⟨h1, h2, h3⟩ := Counted.countEv (s.updCore c (fun x => { x with frozen := x.frozen.set q (some (l, a)) })) c 0x05 1
  refine ⟨h1, fun d hd => ?_, ?_⟩
  · exact (h2 d hd).trans (by rw [core_updCore, if_neg (Ne.symm hd)])
  · rw [core_updCore, if_pos rfl] at h3
    exact h3

/-- What a fetch gives once its address translates: the word, where the instruction cache holds its line, else a miss (R246). -/
theorem fetchWord_hit {s u : State} {c ctx : Nat} {a : DWord} {x : Xl} {l : BitVec 1024}
    (hx : s.xlate (c / 32) ctx (pcBits a).toNat { x := true } = (u, .ok x)) (hl : mget (u.core c).icache (lineOf x.pa) = some l) :
    s.fetchWord c ctx a = (u, .word (BitVec.ofNat 64 (leNat ((List.range 8).map (fun k => lineGet l (x.pa % 128 + k)))))) := by
  simp only [State.fetchWord, hx, hl]

theorem fetchWord_miss {s u : State} {c ctx : Nat} {a : DWord} {x : Xl}
    (hx : s.xlate (c / 32) ctx (pcBits a).toNat { x := true } = (u, .ok x)) (hl : mget (u.core c).icache (lineOf x.pa) = none) :
    s.fetchWord c ctx a = (u, .miss (lineOf x.pa) x.attr) := by
  simp only [State.fetchWord, hx, hl]

/-- With no agent named, one of those who may move does, if there is one (log 1). -/
theorem step_free {s : State} (ht : s.turn = none) :
    (s.arrive.agentsNow = [] ∧ step s = .next { s.arrive with tick := s.tick + 1 })
      ∨ ∃ a ∈ s.arrive.agentsNow, step s = act a { s.arrive with tick := s.tick + 1 } := by
  have hstep : step s = (match s.arrive.agentsNow[Config.pick s.tick % s.arrive.agentsNow.length]? with
      | none => .next { s.arrive with tick := s.tick + 1 }
      | some a => act a { s.arrive with tick := s.tick + 1 }) := by
    unfold step
    rw [ht] <;> rfl
  rw [hstep]
  cases h : s.arrive.agentsNow with
  | nil => exact .inl ⟨rfl, rfl⟩
  | cons a as =>
    have hlt : Config.pick s.tick % (a :: as).length < (a :: as).length := Nat.mod_lt _ (Nat.succ_pos _)
    rw [List.getElem?_eq_getElem hlt]
    exact .inr ⟨_, List.getElem_mem hlt, rfl⟩

/-- A part that has stopped waits for its reset (R302, R309). -/
theorem agentsNow_stopped {s : State} (h : s.stopped = true) {a : Agent} (ha : a ∈ s.agentsNow) : ∃ n, a = .event (.partReset n) := by
  rw [State.agentsNow, if_pos h] at ha
  cases hf : s.inputs.find? isReset with
  | none => rw [hf] at ha; cases ha
  | some i =>
    rw [hf] at ha
    have hi := List.find?_some hf
    unfold isReset at hi
    split at hi
    · exact ⟨_, List.mem_singleton.mp ha⟩
    · cases hi

/-- Settles O56: the agent that moves runs its decoded instruction. -/
theorem stepRunsTheDecodedInstruction : Obligations.StepRunsTheDecodedInstruction := by
  intro s uncut
  refine ⟨fun i ht => ?_, fun i rest ht hin => ?_, fun o rest ht hout => ⟨fun i hi => ?_, fun hi => ?_⟩, ?_, ?_, ?_, ?_, step_free,
    fun h a ha => agentsNow_stopped h ha⟩
  · unfold step
    rw [ht]
    rfl
  · unfold step
    simp only [ht, act, hin]
    rfl
  · unfold step
    simp only [ht, act, hout, hi]
    rfl
  · unfold step
    simp only [ht, act, hout, hi]
    rfl
  · intro c q e w m i ht hc hf hd hi
    exact step_issues ht hc hf hd hi
  · intro c q t ts x u w h ht hc hfr hh hx hr hw hd
    refine ⟨_, rfl, ?_⟩
    rw [step_quarter ht, quarterTurn_header hc hfr hh, (headerPass_fetch hx hr).1 u w h hw hd]
  · exact fun c ctx a u x hx => ⟨fun l hl => fetchWord_hit hx hl, fun hl => fetchWord_miss hx hl⟩
  · intro c q t ts x u l a ht hc hfr hh hx hr hw
    refine ⟨u.freeze c q l a, ?_, freeze_only u c q l a⟩
    rw [step_quarter ht, quarterTurn_header hc hfr hh, (headerPass_fetch hx hr).2 u l a hw]

end Sys2Proof.Machine
end

section
/-! The memory system, once for all: a relation that its elementary moves respect is respected by all its operations. What it leaves of cores
and dies, and that nothing in it but a store adds dirty bytes to an L1, follow. -/
namespace Sys2Proof.Machine

/-- A die after the memory system has acted: only its L2, its injected-copy masks, its directory and its cached translations may differ. -/
def Die.SameUnits (a b : Die) : Prop := b = { a with l2 := b.l2, injMask := b.injMask, dir := b.dir, tlb := b.tlb, walk := b.walk }

/-- A core after it: only its L1 and its instruction cache may differ. -/
def Core.SameUnits (a b : Core) : Prop := b = { a with l1 := b.l1, icache := b.icache }

/-- A relation between states that the elementary moves of the L2 level respect. -/
structure L2Closed (R : State → State → Prop) : Prop where
  refl : ∀ s, R s s
  trans : ∀ {a b c}, R a b → R b c → R a c
  dropCopy : ∀ s c line, R s (s.dropCopy c line)
  die : ∀ s d (f : Die → Die), (∀ x : Die, x.SameUnits (f x)) → R s (s.updDie d f)
  rest : ∀ s m lost injMsgs invMsgs kinds fresh,
    R s { s with mem := m, lost := lost, injMsgs := injMsgs, invMsgs := invMsgs, kinds := kinds, fresh := fresh }

/-- The same with those of the L1s and instruction caches. -/
structure L1Closed (R : State → State → Prop) : Prop extends L2Closed R where
  core : ∀ s c (f : Core → Core), (∀ x : Core, x.SameUnits (f x)) → R s (s.updCore c f)

namespace L2Closed
variable {R : State → State → Prop}

theorem foldl (h : L2Closed R) {α : Type} (f : State → α → State) (hf : ∀ s x, R s (f s x)) (xs : List α) (s : State) : R s (xs.foldl f s) := by
  induction xs generalizing s with
  | nil => exact h.refl s
  | cons x xs ih => exact h.trans (hf s x) (ih _)

theorem bump (h : L2Closed R) (s : State) : R s s.bump := h.rest s _ _ _ _ _ _
theorem memory (h : L2Closed R) (s : State) (m : Mem) : R s { s with mem := m } := h.rest s _ _ _ _ _ _
theorem invs (h : L2Closed R) (s : State) (l : List (Nat × Nat)) : R s { s with invMsgs := l } := h.rest s _ _ _ _ _ _
theorem injs (h : L2Closed R) (s : State) (l : List InjMsg) : R s { s with injMsgs := l } := h.rest s _ _ _ _ _ _
theorem kind (h : L2Closed R) (s : State) (l : List (Nat × (Bool × Bool))) : R s { s with kinds := l } := h.rest s _ _ _ _ _ _
theorem found (h : L2Closed R) (s : State) (l : List Nat) : R s { s with lost := l } := h.rest s _ _ _ _ _ _

theorem deliverInv (h : L2Closed R) (s : State) (d line : Nat) : R s (s.deliverInv d line) := by
  unfold State.deliverInv
  exact h.trans (h.foldl (fun s (m : Nat × Nat) => s.dropCopy m.1 m.2) (fun s m => h.dropCopy s _ _) _ s) (h.invs _ _)

theorem invalCopies (h : L2Closed R) (s : State) (d line : Nat) (keep : BitVec 32) : R s (s.invalCopies d line keep) := by
  unfold State.invalCopies
  refine h.trans (h.deliverInv s d line) ?_
  dsimp only
  split
  · exact h.injs _ _
  · refine h.trans (h.injs _ _) (h.trans (h.foldl _ (fun s k => ?_) _ _) (h.die _ _ _ (fun _ => rfl)))
    split
    · exact h.dropCopy ..
    · exact h.refl _

theorem homeWrite (h : L2Closed R) (s : State) (pa : Nat) (bs : List Byte) (d : Nat) (keep : BitVec 32) : R s (s.homeWrite pa bs d keep) := by
  unfold State.homeWrite
  refine h.trans ?_ (h.memory _ _)
  split
  · refine h.foldl _ (fun s k => ?_) _ _
    split
    · exact h.invalCopies ..
    · exact h.refl _
  · exact h.refl _

theorem dirTouch (h : L2Closed R) (s : State) (d pa : Nat) (w : Bool) : R s (s.dirTouch d pa w) := by
  unfold State.dirTouch
  split
  · exact h.refl s
  · dsimp only
    split
    · refine h.trans (b := (List.range 4).foldl (fun s k => if k = d then s else s.invalCopies k (lineOf pa)) s) (h.foldl _ (fun s k => ?_) _ _) ?_
      · split
        · exact h.refl _
        · exact h.invalCopies ..
      · split <;> exact h.die _ _ _ (fun _ => rfl)
    · split
      · split
        · exact h.die _ _ _ (fun _ => rfl)
        · exact h.refl s
      · exact h.die _ _ _ (fun _ => rfl)

theorem scramble (h : L2Closed R) (s : State) (line : Nat) : R s (s.scramble line) :=
  h.trans (h.trans (h.foldl _ (fun s _ => h.die s _ (fun x => { x with l2 := mdel x.l2 line }) (fun _ => rfl)) _ s) (h.memory _ _)) (h.bump _)

theorem meetKinds (h : L2Closed R) (s : State) (pa : Nat) (a : PageAttr) : R s (s.meetKinds pa a) := by
  unfold State.meetKinds
  dsimp only
  split
  · exact h.refl s
  · split
    · exact h.trans (h.kind _ _) (h.scramble _ _)
    · exact h.kind _ _

theorem maskedWrite (h : L2Closed R) (wr : State → Nat → List Byte → State) (hw : ∀ s a b, R s (wr s a b)) (s : State) (line : Nat)
    (x : BitVec 1024) (m : BitVec 128) : R s (State.maskedWrite wr s line x m) := by
  unfold State.maskedWrite
  refine h.foldl _ (fun s i => ?_) _ _
  split
  · exact hw ..
  · exact h.refl s

theorem l2WriteBack (h : L2Closed R) (s : State) (d line : Nat) (m : BitVec 128) : R s (s.l2WriteBack d line m) := by
  unfold State.l2WriteBack
  split
  · exact h.refl s
  · exact h.trans (h.maskedWrite _ (fun s a b => h.homeWrite s a b _ _) ..) (h.die _ _ _ (fun _ => rfl))

theorem evict (h : L2Closed R) (s : State) (d line : Nat) : R s (s.evict d line) := by
  unfold State.evict
  split
  · exact h.refl s
  · refine h.trans (h.trans (h.invs _ _) (h.die _ _ _ ?_)) (h.trans (h.l2WriteBack ..) (h.die _ _ _ ?_))
    · exact fun _ => rfl
    · exact fun _ => rfl

theorem l2Room (h : L2Closed R) (s : State) (d line : Nat) : R s (s.l2Room d line) := by
  unfold State.l2Room
  dsimp only
  split
  · exact h.refl s
  · split
    · exact h.refl s
    · exact h.trans (h.bump s) (h.evict ..)

theorem l2Fill (h : L2Closed R) (s : State) (d pa : Nat) (rg : Option Nat) : R s (s.l2Fill d pa rg) := by
  unfold State.l2Fill
  dsimp only
  split
  · exact h.l2Room ..
  · exact h.trans (h.l2Room ..) (h.die _ _ _ (fun _ => rfl))

theorem l2Read (h : L2Closed R) (s : State) (d pa n : Nat) (a : PageAttr) : R s (s.l2Read d pa n a).1 := by
  unfold State.l2Read
  refine h.trans (h.meetKinds s pa a) ?_
  dsimp only
  split
  · exact h.l2Fill ..
  · dsimp only; split
    · exact h.dirTouch ..
    · exact h.refl _

theorem l2Write (h : L2Closed R) (s : State) (d pa : Nat) (a : PageAttr) (bs : List Byte) (keep : BitVec 32) : R s (s.l2Write d pa a bs keep) := by
  unfold State.l2Write
  refine h.trans (h.meetKinds s pa a) ?_
  dsimp only
  split
  · exact h.trans (h.trans (h.memory _ _) (h.invalCopies ..)) (h.die _ _ _ (fun _ => rfl))
  · split
    · exact h.trans (h.trans (h.invalCopies ..) (h.l2Room ..)) (h.die _ _ _ (fun _ => rfl))
    · refine h.trans ?_ (h.homeWrite ..)
      split
      · exact h.dirTouch ..
      · exact h.refl _

theorem walkTo (h : L2Closed R) (s : State) (d ctx va : Nat) (nd : Need) : R s (s.walkTo d ctx va nd).1 := by
  unfold State.walkTo
  dsimp only
  split
  · exact h.bump s
  · split
    · exact h.bump s
    · split <;> exact h.trans (h.bump s) (h.die _ _ _ (fun _ => rfl))

theorem xlate (h : L2Closed R) (s : State) (d ctx va : Nat) (nd : Need) : R s (s.xlate d ctx va nd).1 := by
  have hw := h.walkTo s d ctx va nd
  unfold State.xlate
  generalize s.walkTo d ctx va nd = r at hw
  obtain ⟨u, e | x⟩ := r
  · exact hw
  · refine h.trans hw ?_
    dsimp only [State.meet]
    unfold State.meetSector
    split
    · exact h.refl _
    · split
      · exact h.refl _
      · exact h.found _ _

theorem dropOwn (h : L2Closed R) (s : State) (own : Option Nat) (line : Nat) : R s (s.dropOwn own line) := by
  cases own with
  | none => exact h.refl s
  | some c => exact h.dropCopy s c line

theorem descPut (h : L2Closed R) (s : State) (d ctx va v : Nat) : R s (s.descPut d ctx va v).1 := by
  have hx := h.xlate s d ctx (va % 2 ^ 60) { w := true }
  unfold State.descPut
  generalize s.xlate d ctx (va % 2 ^ 60) { w := true } = r at hx
  obtain ⟨u, e | x⟩ := r
  · exact hx
  · refine h.trans hx (h.trans ?_ (h.homeWrite ..))
    split
    · exact h.dirTouch ..
    · exact h.refl _

end L2Closed

namespace L1Closed
variable {R : State → State → Prop}

theorem l1Put (h : L1Closed R) (s : State) (c : Nat) (l : L1Line) : R s (s.l1Put c l) := h.core _ _ _ (fun _ => rfl)

theorem l1WriteBack (h : L1Closed R) (s : State) (c : Nat) (l : L1Line) : R s (s.l1WriteBack c l) := by
  unfold State.l1WriteBack
  split
  · exact h.refl s
  · dsimp only
    refine h.trans (h.maskedWrite (fun s a b => s.l2Write (c / 32) a l.attr b) (fun s a b => h.l2Write s _ a _ b 0) s l.line l.data l.dirty) ?_
    split
    · exact h.refl _
    · exact h.l1Put ..

theorem release (h : L1Closed R) (s : State) (c tag : Nat) (sc : Scope) : R s (s.release c tag sc) := by
  unfold State.release
  split
  · exact h.foldl _ (fun s l => h.l1WriteBack s c l) _ _
  · exact h.refl s

theorem acquire (h : L1Closed R) (s : State) (c : Nat) (sc : Scope) : R s (s.acquire c sc) := by
  unfold State.acquire
  split
  · dsimp only
    split
    · refine h.trans (h.core _ _ _ ?_) (h.die _ _ _ ?_)
      · exact fun _ => rfl
      · exact fun _ => rfl
    · exact h.core _ _ _ (fun _ => rfl)
  · exact h.refl s

theorem icFill (h : L1Closed R) (s : State) (c line : Nat) (x : BitVec 1024) : R s (s.icFill c line x) := by
  unfold State.icFill
  dsimp only
  split
  · exact h.core _ _ _ (fun _ => rfl)
  · exact h.trans (h.bump s) (h.core _ _ _ (fun _ => rfl))

end L1Closed

/-- The memory system leaves what is not memory, but for the units of cores and dies. -/
theorem memoryOnly_closed : L1Closed (fun s z => z = { s with
    cores := z.cores, dies := z.dies, mem := z.mem, lost := z.lost, injMsgs := z.injMsgs, invMsgs := z.invMsgs, kinds := z.kinds, fresh := z.fresh }) where
  refl _ := rfl
  trans h g := by rw [g, h]
  dropCopy s c line := (dropCopy_only s c line).1
  die _ _ _ _ := rfl
  rest _ _ _ _ _ _ _ := rfl
  core _ _ _ _ := rfl

theorem Core.SameUnits.refl (a : Core) : a.SameUnits a := rfl
theorem Core.SameUnits.trans {a b c : Core} (h : a.SameUnits b) (g : b.SameUnits c) : a.SameUnits c := by
  unfold Core.SameUnits at *
  rw [g, h]
theorem Die.SameUnits.refl (a : Die) : a.SameUnits a := rfl
theorem Die.SameUnits.trans {a b c : Die} (h : a.SameUnits b) (g : b.SameUnits c) : a.SameUnits c := by
  unfold Die.SameUnits at *
  rw [g, h]

/-- The units of every core and die are the same. -/
def SameUnits (s z : State) : Prop := z.dies.length = s.dies.length ∧ (∀ c, (s.core c).SameUnits (z.core c)) ∧ ∀ d, (s.die d).SameUnits (z.die d)

theorem sameUnits_closed : L1Closed SameUnits where
  refl s := ⟨rfl, fun _ => rfl, fun _ => rfl⟩
  trans h g := ⟨g.1.trans h.1, fun c => (h.2.1 c).trans (g.2.1 c), fun d => (h.2.2 d).trans (g.2.2 d)⟩
  dropCopy s c line := by
    unfold State.dropCopy
    split
    · refine ⟨rfl, fun e => ?_, fun _ => rfl⟩
      rw [core_updCore]
      split
      · rename_i h; subst h; rfl
      · rfl
    · exact ⟨rfl, fun _ => rfl, fun _ => rfl⟩
  die s d f hf := by
    refine ⟨lmod_length .., fun _ => rfl, fun e => ?_⟩
    rw [die_updDie]
    split
    · exact hf _
    · rfl
  rest _ _ _ _ _ _ _ := ⟨rfl, fun _ => rfl, fun _ => rfl⟩
  core s c f hf := by
    refine ⟨rfl, fun e => ?_, fun _ => rfl⟩
    rw [core_updCore]
    split
    · rename_i h; subst h; exact hf _
    · rfl

/-- No L1 line has dirty bytes that it, or another of the same number, did not have before under the same tag. -/
def AddsNoDirty (s z : State) : Prop := ∀ c, ∀ y ∈ (z.core c).l1, y.dirty ≠ 0 → ∃ x ∈ (s.core c).l1, x.line = y.line ∧ x.dirty = y.dirty ∧ x.tag = y.tag

theorem mem_invalidateL1 {ls : List L1Line} {line : Nat} {y : L1Line} (h : y ∈ invalidateL1 ls line) :
    ∃ x ∈ ls, x.line = y.line ∧ x.dirty = y.dirty ∧ x.tag = y.tag := by
  obtain ⟨x, hx, rfl⟩ := List.mem_map.mp (List.mem_of_mem_filter h)
  refine ⟨x, hx, ?_⟩
  split <;> exact ⟨rfl, rfl, rfl⟩

theorem addsNoDirty_closed : L2Closed AddsNoDirty where
  refl _ _ y hy _ := ⟨y, hy, rfl, rfl, rfl⟩
  trans h g c y hy hd := by
    obtain ⟨x, hx, e1, e2, e3⟩ := g c y hy hd
    obtain ⟨w, hw, f1, f2, f3⟩ := h c x hx (e2 ▸ hd)
    exact ⟨w, hw, f1.trans e1, f2.trans e2, f3.trans e3⟩
  dropCopy s e line c y hy hd := by
    unfold State.dropCopy at hy
    split at hy
    · rw [core_updCore] at hy
      split at hy
      · rename_i h; subst h; exact mem_invalidateL1 hy
      · exact ⟨y, hy, rfl, rfl, rfl⟩
    · exact ⟨y, hy, rfl, rfl, rfl⟩
  die _ _ _ _ _ y hy _ := ⟨y, hy, rfl, rfl, rfl⟩
  rest _ _ _ _ _ _ _ _ y hy _ := ⟨y, hy, rfl, rfl, rfl⟩

/-- A release leaves in its core's L1 no dirty bytes of its tag, nor of tag 63 (R85). -/
def Drained (s : State) (c tag line : Nat) : Prop := ∀ y ∈ (s.core c).l1, y.dirty ≠ 0 → y.tag = tag ∨ y.tag = 63 → y.line ≠ line

theorem Drained.later {s z : State} {c tag line : Nat} (h : Drained s c tag line) (g : AddsNoDirty s z) : Drained z c tag line := by
  intro y hy hd ht
  obtain ⟨x, hx, e1, e2, e3⟩ := g c y hy hd
  rw [← e1]
  exact h x hx (e2 ▸ hd) (e3 ▸ ht)

theorem l1Put_clean (s : State) (c : Nat) (l : L1Line) (hl : l.dirty = 0) : AddsNoDirty s (s.l1Put c l) ∧ ((s.core c).l1.any (fun y => y.line == l.line) = true →
    ∀ y ∈ ((s.l1Put c l).core c).l1, y.dirty ≠ 0 → y.line ≠ l.line) := by
  have hc : ((s.l1Put c l).core c).l1 = (if (s.core c).l1.any (fun y => y.line == l.line) then (s.core c).l1.map (fun y => if y.line = l.line then l else y)
      else (s.core c).l1 ++ [l]) := by
    unfold State.l1Put
    rw [core_updCore, if_pos rfl]
  constructor
  · intro e y hy hd
    by_cases he : e = c
    · subst he
      rw [hc] at hy
      split at hy
      · obtain ⟨x, hx, rfl⟩ := List.mem_map.mp hy
        by_cases hxl : x.line = l.line
        · rw [if_pos hxl] at hd; exact absurd hl hd
        · rw [if_neg hxl]; exact ⟨x, hx, rfl, rfl, rfl⟩
      · rcases List.mem_append.mp hy with hy | hy
        · exact ⟨y, hy, rfl, rfl, rfl⟩
        · rw [List.mem_singleton.mp hy] at hd; exact absurd hl hd
    · unfold State.l1Put at hy
      rw [core_updCore, if_neg (Ne.symm he)] at hy
      exact ⟨y, hy, rfl, rfl, rfl⟩
  · intro hany y hy hd hl'
    rw [hc, if_pos hany] at hy
    obtain ⟨x, -, rfl⟩ := List.mem_map.mp hy
    by_cases hxl : x.line = l.line
    · rw [if_pos hxl] at hd; exact hd hl
    · rw [if_neg hxl] at hl'; exact hxl hl'

/-- A line that has been written back is clean, and no other line is dirtied. -/
theorem l1WriteBack_drains (s : State) (c : Nat) (l : L1Line) :
    AddsNoDirty s (s.l1WriteBack c l) ∧ (l.dirty ≠ 0 → ∀ tag, Drained (s.l1WriteBack c l) c tag l.line) := by
  unfold State.l1WriteBack
  by_cases hd : l.dirty = 0
  · rw [if_pos hd]
    exact ⟨addsNoDirty_closed.refl s, fun h => absurd hd h⟩
  · rw [if_neg hd]
    dsimp only
    have hm := addsNoDirty_closed.maskedWrite (fun s a b => s.l2Write (c / 32) a l.attr b)
      (fun s a b => addsNoDirty_closed.l2Write s _ a _ b 0) s l.line l.data l.dirty
    generalize State.maskedWrite (fun s a b => s.l2Write (c / 32) a l.attr b) s l.line l.data l.dirty = u at hm
    cases hf : u.l1Find c l.line with
    | none =>
      refine ⟨hm, fun _ tag y hy _ _ hl => ?_⟩
      have := List.find?_eq_none.mp hf y hy
      simp [hl] at this
    | some l' =>
      have hline : l'.line = l.line := by have := List.find?_some hf; simpa using this
      obtain ⟨h1, h2⟩ := l1Put_clean u c { l' with dirty := 0 } rfl
      refine ⟨addsNoDirty_closed.trans hm h1, fun _ tag y hy hyd _ hl => ?_⟩
      exact h2 (List.any_eq_true.mpr ⟨l', List.mem_of_find?_eq_some hf, by simp⟩) y hy hyd (hl.trans hline.symm)

theorem writeBack_fold (c : Nat) (ls : List L1Line) (s : State) :
    AddsNoDirty s (ls.foldl (fun s l => s.l1WriteBack c l) s)
      ∧ ∀ tag, ∀ l ∈ ls, l.dirty ≠ 0 → Drained (ls.foldl (fun s l => s.l1WriteBack c l) s) c tag l.line := by
  induction ls generalizing s with
  | nil => exact ⟨addsNoDirty_closed.refl s, fun _ _ h => absurd h List.not_mem_nil⟩
  | cons l ls ih =>
    obtain ⟨h1, h2⟩ := l1WriteBack_drains s c l
    obtain ⟨g1, g2⟩ := ih (s.l1WriteBack c l)
    refine ⟨addsNoDirty_closed.trans h1 g1, fun tag m hm hd => ?_⟩
    rcases List.mem_cons.mp hm with rfl | hm
    · exact (h2 hd tag).later g1
    · exact g2 tag m hm hd

/-- After a release at CL or wider the core's L1 holds nothing dirty under the tag (R85). -/
theorem release_drains (s : State) (c tag : Nat) (sc : Scope) (hw : Scope.wide sc = true) :
    ∀ y ∈ ((s.release c tag sc).core c).l1, ¬ (y.dirty ≠ 0 ∧ (y.tag = tag ∨ y.tag = 63)) := by
  rintro y hy ⟨hd, ht⟩
  rw [State.release, if_pos hw, State.writeBackTag] at hy
  obtain ⟨h1, h2⟩ := writeBack_fold c ((s.core c).l1.filter (fun l => l.dirty != 0 && (l.tag == tag || l.tag == 63))) s
  obtain ⟨x, hx, e1, e2, e3⟩ := h1 c y hy hd
  have hx' : x ∈ (s.core c).l1.filter (fun l => l.dirty != 0 && (l.tag == tag || l.tag == 63)) := by
    simp only [List.mem_filter, hx, true_and, Bool.and_eq_true, bne_iff_ne, ne_eq, Bool.or_eq_true, beq_iff_eq]
    exact ⟨e2 ▸ hd, e3 ▸ ht⟩
  exact h2 tag x hx' (e2 ▸ hd) y hy hd ht e1.symm

end Sys2Proof.Machine
end

section
/-! Channels (R47 to R50, R387, R388). -/
namespace Sys2Proof.Machine

/-- A fold over pairs whose second part is a function of the first is a fold over the first parts. -/
theorem foldl_pairs {α β γ : Type} (F : γ → α → β → γ) (h : α → β) (ps : List (α × β)) (hp : ∀ p ∈ ps, p.2 = h p.1) (s : γ) :
    ps.foldl (fun s p => F s p.1 p.2) s = (ps.map Prod.fst).foldl (fun s t => F s t (h t)) s := by
  induction ps generalizing s with
  | nil => rfl
  | cons p ps ih =>
    rw [List.map_cons, List.foldl_cons, List.foldl_cons, hp p (List.mem_cons_self ..)]
    exact ih (fun q hq => hp q (List.mem_cons_of_mem _ hq)) _

theorem zipIdx_idxOf {α : Type} [DecidableEq α] {ts : List α} (nd : ts.Nodup) : ∀ p ∈ ts.zipIdx, p.2 = ts.idxOf p.1 := by
  rintro ⟨t, k⟩ h
  obtain ⟨-, hk, ht⟩ := List.mem_zipIdx h
  simp only [Nat.zero_add, Nat.sub_zero] at hk ht
  rw [ht, nd.idxOf_getElem]

theorem zip_idxOf {α β : Type} [DecidableEq α] {ts : List α} (nd : ts.Nodup) (ws : List β) (z : β) (n : Nat) :
    ∀ p ∈ (ts.take n).zip ws, p.2 = ws.getD (ts.idxOf p.1) z := by
  rintro ⟨t, w⟩ h
  obtain ⟨k, hk, he⟩ := List.mem_iff_getElem.mp h
  rw [List.length_zip, List.length_take] at hk
  rw [List.getElem_zip, Prod.mk.injEq, List.getElem_take] at he
  obtain ⟨rfl, rfl⟩ := he
  rw [nd.idxOf_getElem, List.getD_eq_getElem?_getD, List.getElem?_eq_getElem, Option.getD_some]

theorem map_fst_zip_take {α β : Type} (ts : List α) (ws : List β) {n : Nat} (h : n ≤ ws.length) : ((ts.take n).zip ws).map Prod.fst = ts.take n := by
  rw [List.map_fst_zip]
  rw [List.length_take]; omega

theorem mem_take_idxOf {α : Type} [DecidableEq α] {ts : List α} {n : Nat} {t : α} (ht : t ∈ ts) (nd : ts.Nodup) : t ∈ ts.take n ↔ ts.idxOf t < n := by
  constructor
  · intro h
    obtain ⟨k, hk, rfl⟩ := List.mem_iff_getElem.mp h
    rw [List.length_take] at hk
    rw [List.getElem_take, nd.idxOf_getElem]
    omega
  · intro h
    have hl := List.idxOf_lt_length_iff.mpr ht
    exact List.mem_iff_getElem.mpr ⟨ts.idxOf t, by rw [List.length_take]; omega, by rw [List.getElem_take, List.getElem_idxOf]⟩

theorem mget_map_snd {κ ν : Type} [DecidableEq κ] (m : Map κ ν) (f : ν → ν) (k : κ) : mget (m.map (fun e => (e.1, f e.2))) k = (mget m k).map f := by
  induction m with
  | nil => rfl
  | cons e m ih =>
    obtain ⟨j, v⟩ := e
    by_cases hj : j = k
    · subst hj; simp [mget]
    · simpa [mget, hj] using ih

/-- The channel of cluster k holds those words; no other channel or cluster has changed. -/
def ChannelHolds (s z : State) (k ch : Nat) (c : Cluster) (ws : List Word) : Prop :=
  (∃ c', mget z.clusters k = some c' ∧ { c' with stirred := c.stirred } = { c with chans := c.chans.set ch ws })
    ∧ ∀ j, j ≠ k → mget z.clusters j = mget s.clusters j

theorem ChannelHolds.same {s : State} {k ch : Nat} {c : Cluster} (hc : mget s.clusters k = some c) (hch : ch < c.chans.length) :
    ChannelHolds s s k ch c (c.chans.getD ch []) := by
  refine ⟨⟨c, hc, ?_⟩, fun _ _ => rfl⟩
  rw [List.getD_eq_getElem?_getD, List.getElem?_eq_getElem hch, Option.getD_some, List.set_getElem_self]

theorem setChan_holds (s u : State) (w ch : Nat) (c : Cluster) (ws : List Word) (hu : u.clusters = s.clusters)
    (hc : mget s.clusters (u.clusterOf w) = some c) : ChannelHolds s (u.setChan w ch ws) (u.clusterOf w) ch c ws := by
  have h : mget (u.setChan w ch ws).clusters (u.clusterOf w) = _ := mget_mupd u.clusters _ _ _
  rw [if_pos rfl, hu, hc] at h
  refine ⟨⟨_, h, rfl⟩, fun j hj => ?_⟩
  exact (mget_mupd_ne _ (Ne.symm hj) _).trans (by rw [hu])

theorem MemoryOnly.wgs {s z : State} (h : MemoryOnly s z) : z.wgs = s.wgs := by rw [h.1]
theorem MemoryOnly.threads {s z : State} (h : MemoryOnly s z) : z.threads = s.threads := by rw [h.1]
theorem MemoryOnly.groups {s z : State} (h : MemoryOnly s z) : z.groups = s.groups := by rw [h.1]
theorem MemoryOnly.clusters {s z : State} (h : MemoryOnly s z) : z.clusters = s.clusters := by rw [h.1]

/-- What a 32-bit source reads stands in no cache. -/
theorem MemoryOnly.rd {s z : State} (h : MemoryOnly s z) (t : ThreadId) (o : Opnd) : z.rd t o = s.rd t o := by
  rw [h.1]
  cases o <;> rfl

theorem MemoryOnly.tagOf {s z : State} (h : MemoryOnly s z) (w : Nat) : z.tagOf w = s.tagOf w := by rw [h.1]; rfl

/-- The predicates of a .NB transfer: each thread's says whether its word did not move (R50). -/
theorem thr_nbPreds (s : State) (p n : Nat) {ts : List ThreadId} (nd : ts.Nodup) (t : ThreadId) :
    (s.nbPreds p ts n).thr t
      = if t ∈ ts then (s.thr t).map (fun x => { x with preds := setPred x.preds p (decide (n ≤ ts.idxOf t)) }) else s.thr t := by
  rw [State.nbPreds, foldl_pairs (fun (s : State) t (k : Nat) => s.updThr t (fun x => { x with preds := setPred x.preds p (decide (n ≤ k)) })) ts.idxOf _
    (zipIdx_idxOf nd), List.zipIdx_map_fst]
  exact thr_foldl_updThr (fun t x => { x with preds := setPred x.preds p (decide (n ≤ ts.idxOf t)) }) ts s t nd

theorem nbPreds_rest (s : State) (p n : Nat) (ts : List ThreadId) : s.nbPreds p ts n = { s with threads := (s.nbPreds p ts n).threads } := by
  unfold State.nbPreds
  generalize ts.zipIdx = l
  induction l generalizing s with
  | nil => rfl
  | cons e l ih => exact ih _

/-- How a thread of a transfer goes on: past the word, or waiting at the channel. -/
def channelGo (nb : Bool) (p k ch n : Nat) (ex : List ThreadId) (t : ThreadId) (x : Thread) : Thread :=
  if nb then { x.advance with preds := setPred x.preds p (decide (n ≤ ex.idxOf t)) }
  else if n < ex.length then { x with wait := .chan k ch } else x.advance

theorem advance_preds (x : Thread) (p : BitVec 7) : ({ x with preds := p } : Thread).advance = { x.advance with preds := p } := by
  unfold Thread.advance
  cases x.clause with
  | none => rfl
  | some c => dsimp only; split <;> rfl

/-- The end of a transfer: the predicates are set, or the threads wait when not all words moved. -/
def channelEnd (nb : Bool) (p k ch n : Nat) (ts : List ThreadId) (s : State) : GroupFx :=
  if nb then (s.nbPreds p ts n, none) else (s, if n < ts.length then some (.chan k ch) else none)

theorem channelEnd_rest (nb : Bool) (p k ch n : Nat) (ts : List ThreadId) (s : State) :
    (channelEnd nb p k ch n ts s).1 = { s with threads := (channelEnd nb p k ch n ts s).1.threads } := by
  unfold channelEnd
  split
  · exact nbPreds_rest ..
  · rfl

theorem channelEnd_go (nb : Bool) (p k ch n : Nat) {ts : List ThreadId} (nd : ts.Nodup) (s : State) {t : ThreadId} (ht : t ∈ ts) :
    ((channelEnd nb p k ch n ts s).1.thr t).map (GroupFx.go (channelEnd nb p k ch n ts s).2) = (s.thr t).map (channelGo nb p k ch n ts t) := by
  unfold channelEnd channelGo
  cases nb with
  | true =>
    simp only [if_true, thr_nbPreds _ _ _ nd, if_pos ht, Option.map_map]
    congr 1
    funext x
    exact advance_preds ..
  | false =>
    simp only [Bool.false_eq_true, if_false]
    split <;> rfl

theorem channelEnd_other (nb : Bool) (p k ch n : Nat) {ts : List ThreadId} (nd : ts.Nodup) (s : State) {t : ThreadId} (ht : t ∉ ts) :
    (channelEnd nb p k ch n ts s).1.thr t = s.thr t := by
  unfold channelEnd
  split
  · rw [thr_nbPreds _ _ _ nd, if_neg ht]
  · rfl

theorem MemoryOnly.countEv (s : State) (c e k : Nat) : MemoryOnly s (s.countEv c e k) :=
  ⟨by rw [(countEv_only s c e k).1], by rw [(countEv_only s c e k).1]; exact id⟩

theorem MemoryOnly.ite {s a b : State} {p : Prop} [Decidable p] (ha : MemoryOnly s a) (hb : MemoryOnly s b) : MemoryOnly s (if p then a else b) := by
  split <;> assumption

/-- How many of a transfer's threads move a word, when m have room: as many as do, or all or none (R50). -/
def moving (nb : Bool) (m k : Nat) : Nat := if nb then min m k else if k ≤ m then k else 0

theorem moving_le (nb : Bool) (m k : Nat) : moving nb m k ≤ m ∧ moving nb m k ≤ k := by
  unfold moving
  split
  · omega
  · split <;> omega

/-- The state in which QSEND looks: a try that fails is counted, and a .NB transfer has released (R50, R52). -/
def sendStart (s : State) (g : GroupId) (nb : Bool) (core n len : Nat) : State :=
  let s := if n < len then s.countEv core 0x11 1 else s
  if nb then s.release core (s.tagOf g.wg) .cl else s

/-- The state in which QSEND puts its words (R387). -/
def sendState (s : State) (g : GroupId) (nb : Bool) (core n len : Nat) : State :=
  if n = 0 then sendStart s g nb core n len
  else (sendStart s g nb core n len).release core ((sendStart s g nb core n len).tagOf g.wg) .cl

theorem sendStart_only (s : State) (g : GroupId) (nb : Bool) (core n len : Nat) : MemoryOnly s (sendStart s g nb core n len) := by
  have h : MemoryOnly s (if n < len then s.countEv core 0x11 1 else s) := .ite (.countEv ..) (.refl s)
  exact .ite (h.trans (release_only ..)) h

theorem sendState_only (s : State) (g : GroupId) (nb : Bool) (core n len : Nat) : MemoryOnly s (sendState s g nb core n len) :=
  have h := sendStart_only s g nb core n len
  .ite h (h.trans (release_only ..))

theorem sendState_clean (s : State) (g : GroupId) (nb : Bool) (core n len : Nat) (h : n ≠ 0 ∨ nb = true) :
    ∀ l ∈ ((sendState s g nb core n len).core core).l1, ¬ DirtyFor s g.wg l := by
  intro l hl
  unfold sendState at hl
  by_cases hn : n = 0
  · have h1 : MemoryOnly s (if n < len then s.countEv core 0x11 1 else s) := .ite (.countEv ..) (.refl s)
    rw [if_pos hn, sendStart, if_pos (h.resolve_left (not_not_intro hn)), h1.tagOf] at hl
    exact release_drains _ core (s.tagOf g.wg) .cl rfl l hl
  · rw [if_neg hn, (sendStart_only s g nb core n len).tagOf] at hl
    exact release_drains _ core (s.tagOf g.wg) .cl rfl l hl

/-- QSEND, as its steps: the releases, the channel, how the threads go on. -/
theorem qsendGo_eq (f : MemF) (s : State) (g : GroupId) (ts : List ThreadId) :
    let core := ((s.wg g.wg).map Workgroup.coreIx).getD 0
    let words := s.chanWords g.wg (chanOf f)
    let n := moving (chanNb f) (256 - words.length) ts.length
    let u := sendState s g (chanNb f) core n ts.length
    qsendGo f s g ts = channelEnd (chanNb f) f.idx.toNat (s.clusterOf g.wg) (chanOf f) n ts
      (if n = 0 then u else u.setChan g.wg (chanOf f) (words ++ (ts.take n).map (fun t => s.rd t f.d))) := by
  intro core words n u
  have h0 : MemoryOnly s (sendStart s g (chanNb f) core n ts.length) := sendStart_only ..
  have hu : MemoryOnly s u := sendState_only ..
  have hcl : ∀ z : State, z.wgs = s.wgs → z.clusterOf g.wg = s.clusterOf g.wg := fun z hz =>
    congrArg (fun m => ((mget m g.wg).map Workgroup.cluster).getD 0) hz
  have hz : qsendGo f s g ts =
      (let v := sendStart s g (chanNb f) core n ts.length
       let z := if n = 0 then v
        else (v.release core (v.tagOf g.wg) .cl).setChan g.wg (chanOf f) (words ++ (ts.take n).map (fun t => v.rd t f.d))
       channelEnd (chanNb f) f.idx.toNat (z.clusterOf g.wg) (chanOf f) n ts z) := rfl
  rw [hz]
  simp only [h0.rd]
  by_cases hn : n = 0
  · have hue : u = sendStart s g (chanNb f) core n ts.length := if_pos hn
    rw [if_pos hn, if_pos hn, ← hue, hcl u hu.wgs]
  · have hue : u = _ := if_neg hn
    rw [if_neg hn, if_neg hn, ← hue]
    rw [hcl _ (show (u.setChan _ _ _).wgs = s.wgs from hu.wgs)]

/-- A transfer by a group: the state in which it takes place differs from the first one in memory alone; then the channel and its threads change. -/
theorem transfer_one {s u v : State} {i : Instr} {g : GroupId} {k ch p n : Nat} {nb : Bool} {eff : State → GroupId → List ThreadId → GroupFx}
    (hr : ReadyIn s i g) (hc : chanCheck s g (s.executing i) = none)
    (hv : v = { u with threads := v.threads, clusters := v.clusters })
    (he : eff s g (s.executing i) = channelEnd nb p k ch n (s.executing i) v) :
    let z := s.perGroup i chanCheck eff
    z = { u with threads := z.threads, clusters := z.clusters } ∧ z.clusters = v.clusters
      ∧ ∀ t, z.thr t = if t ∈ s.executing i then (v.thr t).map (channelGo nb p k ch n (s.executing i) t)
        else if t ∈ s.issuing i then (v.thr t).map Thread.advance else v.thr t := by
  have nd := executing_nodup (i := i) hr.1.1
  obtain ⟨h1, h2⟩ := perGroup_one chanCheck eff hr hc
  intro z
  have hz : z = { v with threads := z.threads } := h1.trans (by rw [he, channelEnd_rest])
  have hcl : z.clusters = v.clusters := (congrArg State.clusters hz :)
  refine ⟨hz.trans ?_, hcl, fun t => ?_⟩
  · rw [hcl, hv]
  · rw [h2 t, he]
    by_cases ht : t ∈ s.executing i
    · rw [if_pos ht, if_pos ht, channelEnd_go _ _ _ _ _ nd _ ht]
    · rw [if_neg ht, if_neg ht, channelEnd_other _ _ _ _ _ nd _ ht]

theorem chanCheck_enabled {s : State} {g : GroupId} {lr : Launch} (h : s.lrOf g.wg = some lr) (hen : lr.chen = true) (ts : List ThreadId) :
    chanCheck s g ts = none := by
  simp [chanCheck, h, hen]

theorem chanWords_of {s : State} {w ch : Nat} {c : Cluster} (h : mget s.clusters (s.clusterOf w) = some c) : s.chanWords w ch = c.chans.getD ch [] := by
  simp [State.chanWords, h]

/-- QSEND (R47, R49, R50, R387). -/
theorem qsend_transfers {s : State} {f : MemF} {g : GroupId} {lr : Launch} {c : Cluster} (hlr : s.lrOf g.wg = some lr) (hen : lr.chen = true)
    (hc : mget s.clusters (s.clusterOf g.wg) = some c) (hch : chanOf f < c.chans.length) (hr : ReadyIn s (.qsend f) g) :
    let ex := s.executing (.qsend f)
    let core := ((s.wg g.wg).map Workgroup.coreIx).getD 0
    let words := c.chans.getD (chanOf f) []
    let n := moving (chanNb f) (256 - words.length) ex.length
    ∃ u z, exec (.qsend f) s = .next z ∧ MemoryOnly s u ∧ z = { u with threads := z.threads, clusters := z.clusters }
      ∧ ThreadsGo s z (.qsend f) (channelGo (chanNb f) f.idx.toNat (s.clusterOf g.wg) (chanOf f) n ex)
      ∧ ChannelHolds s z (s.clusterOf g.wg) (chanOf f) c (words ++ (ex.take n).map (fun t => s.rd t f.d))
      ∧ (n ≠ 0 ∨ chanNb f = true → ∀ l ∈ (z.core core).l1, ¬ DirtyFor s g.wg l) := by
  intro ex core words n
  have he := qsendGo_eq f s g ex
  rw [chanWords_of hc] at he
  have hu : MemoryOnly s (sendState s g (chanNb f) core n ex.length) := sendState_only ..
  have hclean := sendState_clean s g (chanNb f) core n ex.length
  change qsendGo f s g ex = channelEnd _ _ _ _ n ex (if n = 0 then sendState s g (chanNb f) core n ex.length
    else (sendState s g (chanNb f) core n ex.length).setChan g.wg (chanOf f) (words ++ (ex.take n).map (fun t => s.rd t f.d))) at he
  generalize sendState s g (chanNb f) core n ex.length = u at hu hclean he
  have hcu : u.clusterOf g.wg = s.clusterOf g.wg := congrArg (fun m => ((mget m g.wg).map Workgroup.cluster).getD 0) hu.wgs
  generalize hv : (if n = 0 then u else u.setChan g.wg (chanOf f) (words ++ (ex.take n).map (fun t => s.rd t f.d))) = v at he
  have hvu : v = { u with threads := v.threads, clusters := v.clusters } ∧ v.threads = s.threads := by
    rw [← hv, ← hu.threads]
    split <;> exact ⟨rfl, rfl⟩
  have hholds : ChannelHolds s v (s.clusterOf g.wg) (chanOf f) c (words ++ (ex.take n).map (fun t => s.rd t f.d)) := by
    rw [← hv]
    by_cases hn : n = 0
    · have h := ChannelHolds.same (s := s) hc hch
      rw [if_pos hn, hn, List.take_zero, List.map_nil, List.append_nil]
      unfold ChannelHolds
      rw [hu.clusters]
      exact h
    · rw [if_neg hn, ← hcu]
      exact setChan_holds s u g.wg (chanOf f) c _ hu.clusters (hcu ▸ hc)
  obtain ⟨h1, h2, h3⟩ := transfer_one hr (chanCheck_enabled hlr hen _) hvu.1 he
  refine ⟨u, _, rfl, hu, h1, fun t => ?_, ?_, fun hn => ?_⟩
  · rw [h3 t]
    have ht : v.thr t = s.thr t := congrArg (fun m => mget m t) hvu.2
    rw [ht]
  · unfold ChannelHolds
    rw [h2]
    exact hholds
  · have hcores := congrArg (fun z : State => (z.core core).l1) h1
    intro l hl
    exact hclean hn l (hcores ▸ hl)

/-- The state in which QRECV takes its words: a try that fails is counted (R50). -/
def recvStart (s : State) (core n len : Nat) : State := if n < len then s.countEv core 0x12 1 else s

/-- The registers of a transfer: the oldest words, in lane order (R48, R388). -/
def State.recvRegs (s : State) (d : Opnd) (ts : List ThreadId) (ws : List Word) : State :=
  (ts.zip ws).foldl (fun s e => s.putRegs e.1 (wr32 d e.2)) s

theorem putRegs_v (s : State) (t : ThreadId) {d : Opnd} (hd : d.isV = true) (w : Word) :
    s.putRegs t (wr32 d w) = s.updThr t (fun x => x.apply (wr32 d w)) := by
  unfold State.putRegs
  cases d with
  | v n => rfl
  | _ => exact absurd hd Bool.false_ne_true

theorem recvRegs_eq (s : State) {d : Opnd} (hd : d.isV = true) {ts : List ThreadId} (nd : ts.Nodup) (ws : List Word) {n : Nat} (hn : n ≤ ws.length) :
    s.recvRegs d (ts.take n) ws = (ts.take n).foldl (fun s t => s.updThr t (fun x => x.apply (wr32 d (ws.getD (ts.idxOf t) 0)))) s := by
  have h := foldl_pairs (fun (s : State) t w => s.putRegs t (wr32 d w)) (fun t => ws.getD (ts.idxOf t) 0) _ (zip_idxOf nd ws 0 n) s
  rw [map_fst_zip_take ts ws hn] at h
  simp only [putRegs_v _ _ hd] at h
  simpa only [State.recvRegs, putRegs_v _ _ hd] using h

/-- QRECV, as its steps. -/
theorem qrecvGo_eq (f : MemF) (s : State) (g : GroupId) (ts : List ThreadId) :
    let core := ((s.wg g.wg).map Workgroup.coreIx).getD 0
    let words := s.chanWords g.wg (chanOf f)
    let n := moving (chanNb f) words.length ts.length
    let u := recvStart s core n ts.length
    let v := if n = 0 then u else ((u.recvRegs f.d (ts.take n) words).setChan g.wg (chanOf f) (words.drop n)).acquire core .cl
    qrecvGo f s g ts = channelEnd (chanNb f) f.idx.toNat (v.clusterOf g.wg) (chanOf f) n ts v := rfl

theorem advance_regs (x : Thread) (r : List Word) : ({ x with regs := r } : Thread).advance = { x.advance with regs := r } :=
  advance_with x r x.preds x.fsr |>.trans (by unfold Thread.advance; cases x.clause with
    | none => rfl
    | some c => dsimp only; split <;> rfl)

theorem channelGo_regs (nb : Bool) (p k ch n : Nat) (ex : List ThreadId) (t : ThreadId) (x : Thread) (r : List Word) :
    channelGo nb p k ch n ex t { x with regs := r } = { channelGo nb p k ch n ex t x with regs := r } := by
  unfold channelGo
  rw [advance_regs]
  split
  · rfl
  · split <;> rfl

theorem channelGo_keeps (nb : Bool) (p k ch n : Nat) (ex : List ThreadId) (t : ThreadId) (x : Thread) :
    { channelGo nb p k ch n ex t x with regs := x.regs } = channelGo nb p k ch n ex t x := (channelGo_regs nb p k ch n ex t x x.regs).symm

/-- One word written to a v-register that the thread has. -/
theorem apply_wr32_v (x : Thread) {d : Opnd} (hd : d.isV = true) (w : Word) :
    x.apply (wr32 d w) = { x with regs := (x.apply (wr32 d w)).regs }
      ∧ ∀ k, ((∀ r ∈ run d 1, ∀ n, r = .v n → n < x.regs.length) →
        (x.apply (wr32 d w)).regs.getD k 0 = afterV d [w] (fun k => x.regs.getD k 0) k) := by
  cases d with
  | v n =>
    refine ⟨by simp [Thread.apply, wr32, regWrites], fun k h => ?_⟩
    have hn : n.val < x.regs.length := h (.v n.val) (by simp [run]) _ rfl
    exact set_run_getD [w] n.val x.regs k hn
  | _ => exact absurd hd Bool.false_ne_true

/-- A thread with the word that it received goes on as one without. -/
theorem channelGo_apply (nb : Bool) (p k ch n : Nat) (ex : List ThreadId) (t : ThreadId) (x : Thread) {d : Opnd} (hd : d.isV = true) (w : Word)
    (hreg : ∀ r ∈ run d 1, ∀ n, r = .v n → n < x.regs.length) :
    let y := channelGo nb p k ch n ex t (x.apply (wr32 d w))
    { y with regs := x.regs } = channelGo nb p k ch n ex t x ∧ ∀ r, y.regs.getD r 0 = afterV d [w] (fun k => x.regs.getD k 0) r := by
  obtain ⟨ha, hb⟩ := apply_wr32_v x hd w
  generalize (x.apply (wr32 d w)).regs = q at ha hb
  rw [ha, channelGo_regs]
  exact ⟨channelGo_keeps .., fun r => hb r hreg⟩

theorem acquire_cl (s : State) (c : Nat) : s.acquire c .cl = { s with cores := (s.acquire c .cl).cores }
    ∧ ∀ l ∈ ((s.acquire c .cl).core c).l1, l.inj = false → l.valid = 0 := by
  refine ⟨rfl, fun l hl hi => ?_⟩
  simp only [State.acquire, Scope.wide, if_true, reduceCtorEq, if_false, core_updCore] at hl
  obtain ⟨y, -, rfl⟩ := List.mem_map.mp (List.mem_of_mem_filter hl)
  split
  · rename_i h
    rw [if_pos h] at hi
    exact absurd h (by simp [hi])
  · rfl

/-- Where the state after QRECV's transfer stands: registers, the channel, an acquire. -/
theorem recvState (s : State) {g : GroupId} {f : MemF} {c : Cluster} (hd : f.d.isV = true) (hc : mget s.clusters (s.clusterOf g.wg) = some c)
    (hch : chanOf f < c.chans.length) {ex : List ThreadId} (nd : ex.Nodup) (core n : Nat) (hn : n ≤ (c.chans.getD (chanOf f) []).length) :
    let words := c.chans.getD (chanOf f) []
    let u := recvStart s core n ex.length
    let v := if n = 0 then u else ((u.recvRegs f.d (ex.take n) words).setChan g.wg (chanOf f) (words.drop n)).acquire core .cl
    MemoryOnly s { v with threads := s.threads, clusters := s.clusters } ∧ v.mem = s.mem
      ∧ (∀ t, v.thr t = if t ∈ ex.take n then (s.thr t).map (fun x => x.apply (wr32 f.d (words.getD (ex.idxOf t) 0))) else s.thr t)
      ∧ ChannelHolds s v (s.clusterOf g.wg) (chanOf f) c (words.drop n)
      ∧ (n ≠ 0 → ∀ l ∈ (v.core core).l1, l.inj = false → l.valid = 0) := by
  intro words u
  have hu : u = { s with cores := u.cores } := by
    simp only [u, recvStart]
    split
    · exact (countEv_only ..).1
    · rfl
  have hr := recvRegs_eq u hd nd words hn
  clear_value u
  by_cases h0 : n = 0
  · subst h0
    refine ⟨?_, ?_, fun t => ?_, ?_, fun h => absurd rfl h⟩
    · rw [if_pos rfl, hu]; exact ⟨rfl, id⟩
    · rw [if_pos rfl, hu]
    · rw [if_pos rfl, hu]; simp; rfl
    · have h := ChannelHolds.same (s := s) hc hch
      rw [if_pos rfl, hu]
      exact h
  · rw [if_neg h0]
    have hw := rest_foldl_updThr (fun t (x : Thread) => x.apply (wr32 f.d (words.getD (ex.idxOf t) 0))) (ex.take n) u
    have ht := fun t => thr_foldl_updThr (fun t (x : Thread) => x.apply (wr32 f.d (words.getD (ex.idxOf t) 0))) (ex.take n) u t (nd.sublist (List.take_sublist ..))
    rw [hr]
    generalize (ex.take n).foldl (fun s t => s.updThr t (fun x => x.apply (wr32 f.d (words.getD (ex.idxOf t) 0)))) u = w at hw ht
    obtain ⟨ha, hl⟩ := acquire_cl (w.setChan g.wg (chanOf f) (words.drop n)) core
    have hwc : w.clusterOf g.wg = s.clusterOf g.wg := by rw [hw, hu]; rfl
    have hset := setChan_holds s w g.wg (chanOf f) c (words.drop n) (by rw [hw, hu]) (by rw [hwc]; exact hc)
    rw [hwc] at hset
    have hsc : w.setChan g.wg (chanOf f) (words.drop n) = { w with clusters := (w.setChan g.wg (chanOf f) (words.drop n)).clusters } := rfl
    generalize w.setChan g.wg (chanOf f) (words.drop n) = a at ha hl hset hsc
    generalize a.acquire core .cl = v at ha hl
    refine ⟨?_, ?_, fun t => ?_, ?_, fun _ => hl⟩
    · rw [ha, hsc, hw, hu]; exact ⟨rfl, id⟩
    · rw [ha, hsc, hw, hu]
    · have e : v.thr t = w.thr t := by rw [ha, hsc]; rfl
      have e' : u.thr t = s.thr t := by rw [hu]; rfl
      rw [e, ht t, e']
    · unfold ChannelHolds at hset ⊢
      rw [show v.clusters = a.clusters from by rw [ha]]
      exact hset

/-- QRECV (R48, R49, R50, R388). -/
theorem qrecv_transfers {s : State} {f : MemF} {g : GroupId} {lr : Launch} {c : Cluster} (hlr : s.lrOf g.wg = some lr) (hen : lr.chen = true)
    (hc : mget s.clusters (s.clusterOf g.wg) = some c) (hch : chanOf f < c.chans.length) (hwf : (Instr.qrecv f).wf = true)
    (hr : ReadyIn s (.qrecv f) g) :
    let ex := s.executing (.qrecv f)
    let core := ((s.wg g.wg).map Workgroup.coreIx).getD 0
    let words := c.chans.getD (chanOf f) []
    let n := moving (chanNb f) words.length ex.length
    let go := channelGo (chanNb f) f.idx.toNat (s.clusterOf g.wg) (chanOf f) n ex
    ∃ u z, exec (.qrecv f) s = .next z ∧ MemoryOnly s u ∧ z = { u with threads := z.threads, clusters := z.clusters } ∧ z.mem = s.mem
      ∧ (∀ t, t ∉ ex → z.thr t = if t ∈ s.issuing (.qrecv f) then (s.thr t).map Thread.advance else s.thr t)
      ∧ (∀ t ∈ ex, ∀ x, s.thr t = some x → ∃ y, z.thr t = some y ∧ { y with regs := x.regs } = go t x
          ∧ ∀ r, y.regs.getD r 0 = if ex.idxOf t < n then afterV f.d [words.getD (ex.idxOf t) 0] (fun r => x.regs.getD r 0) r else x.regs.getD r 0)
      ∧ ChannelHolds s z (s.clusterOf g.wg) (chanOf f) c (words.drop n)
      ∧ (n ≠ 0 → ∀ l ∈ (z.core core).l1, l.inj = false → l.valid = 0) := by
  intro ex core words n go
  have hd : f.d.isV = true := by
    simp only [Instr.wf, Bool.and_eq_true] at hwf
    obtain ⟨⟨⟨⟨⟨⟨⟨-, hv⟩, -⟩, -⟩, -⟩, -⟩, -⟩, -⟩ := hwf
    exact hv
  have nd : ex.Nodup := executing_nodup hr.1.1
  have he := qrecvGo_eq f s g ex
  rw [chanWords_of hc] at he
  obtain ⟨hm, hmem, hthr, hholds, hacq⟩ := recvState s hd hc hch nd core n (moving_le (chanNb f) words.length ex.length).1
  dsimp only at he hm hmem hthr hholds hacq
  change qrecvGo f s g ex = channelEnd _ _ (State.clusterOf (if n = 0 then recvStart s core n ex.length else
    (((recvStart s core n ex.length).recvRegs f.d (ex.take n) words).setChan g.wg (chanOf f) (words.drop n)).acquire core .cl) _) _ n ex
    (if n = 0 then recvStart s core n ex.length else
    (((recvStart s core n ex.length).recvRegs f.d (ex.take n) words).setChan g.wg (chanOf f) (words.drop n)).acquire core .cl) at he
  generalize (if n = 0 then recvStart s core n ex.length else
    (((recvStart s core n ex.length).recvRegs f.d (ex.take n) words).setChan g.wg (chanOf f) (words.drop n)).acquire core .cl) = v
    at he hm hmem hthr hholds hacq
  have hcv : v.clusterOf g.wg = s.clusterOf g.wg := congrArg (fun m => ((mget m g.wg).map Workgroup.cluster).getD 0) hm.wgs
  rw [hcv] at he
  obtain ⟨h1, h2, h3⟩ := transfer_one (u := { v with threads := s.threads, clusters := s.clusters }) hr (chanCheck_enabled hlr hen _) rfl he
  refine ⟨_, _, rfl, hm, h1, (congrArg State.mem h1 :).trans hmem, fun t ht => ?_, fun t ht x hx => ?_, ?_, fun hn l hl => ?_⟩
  · rw [h3 t, if_neg ht, hthr, if_neg (fun h => ht (List.mem_of_mem_take h))]
  · rw [h3 t, if_pos ht, hthr, hx]
    have hreg : ∀ r ∈ run f.d 1, ∀ k, r = .v k → k < x.regs.length := by
      rintro r hrn k rfl
      obtain ⟨⟨-, -, hruns⟩, -⟩ := hr
      obtain ⟨hok, ⟨x', hx', hlen⟩, -⟩ := hruns t ht
      rw [hx] at hx'
      obtain rfl := Option.some.inj hx'
      rw [hlen]
      have hall : s.regsBelow t (.qrecv f) = true := by simpa [State.regsOk, trapless] using hok
      exact of_decide_eq_true (List.all_eq_true.mp hall _ hrn)
    by_cases hi : ex.idxOf t < n
    · rw [if_pos ((mem_take_idxOf ht nd).mpr hi)]
      obtain ⟨ha, hb⟩ := channelGo_apply (chanNb f) f.idx.toNat (s.clusterOf g.wg) (chanOf f) n ex t x hd (words.getD (ex.idxOf t) 0) hreg
      exact ⟨_, rfl, ha, fun r => (hb r).trans (if_pos hi).symm⟩
    · rw [if_neg (fun h => hi ((mem_take_idxOf ht nd).mp h))]
      have hk := channelGo_keeps (chanNb f) f.idx.toNat (s.clusterOf g.wg) (chanOf f) n ex t x
      exact ⟨_, rfl, hk, fun r => (congrArg (fun y : Thread => y.regs.getD r 0) hk.symm).trans (if_neg hi).symm⟩
  · unfold ChannelHolds
    rw [h2]
    exact hholds
  · have hcores := (congrArg (fun z : State => (z.core core).l1) h1 :)
    exact hacq hn l (hcores ▸ hl)

/-- CHANNEL_WAKE (R49). -/
theorem channelWake_wakes {s : State} {k ch : Nat} {c : Cluster} (hc : mget s.clusters k = some c) (hin : ch ∈ c.stirred) :
    ∃ z, exec (.channelWake k ch) s = .next z ∧ z = { s with threads := z.threads, clusters := z.clusters }
      ∧ mget z.clusters k = some { c with stirred := c.stirred.erase ch } ∧ (∀ j, j ≠ k → mget z.clusters j = mget s.clusters j)
      ∧ ∀ t, z.thr t = (s.thr t).map (fun x => { x with wait := if x.wait = .chan k ch then .none else x.wait }) := by
  have hz : exec (.channelWake k ch) s = .next { s with
      clusters := mupd s.clusters k (fun c => { c with stirred := c.stirred.erase ch })
      threads := s.threads.map (fun e => (e.1, { e.2 with wait := if e.2.wait = .chan k ch then .none else e.2.wait })) } := by
    show Host.Outcome.next (s.wakeChan k ch) = _
    simp only [State.wakeChan, hc, List.contains_iff_mem.mpr hin, if_true]
  refine ⟨_, hz, rfl, ?_, fun j hj => mget_mupd_ne _ (Ne.symm hj) _, fun t => ?_⟩
  · rw [mget_mupd, if_pos rfl, hc]
    rfl
  · exact mget_map_snd s.threads (fun x => { x with wait := if x.wait = .chan k ch then .none else x.wait }) t

/-- Settles O27: QSEND and QRECV move words through a channel, or their threads wait, and CHANNEL_WAKE lets them try again. -/
theorem channelTransfers : Obligations.ChannelTransfers := by
  intro s f g lr c ch nb k core words go holds hlr hen hc hch
  exact ⟨fun _ hr => qsend_transfers hlr hen hc hch hr, fun hwf hr => qrecv_transfers hlr hen hc hch hwf hr, channelWake_wakes hc⟩

end Sys2Proof.Machine
end

section
/-! A completion word that the cluster's scratchpad does not have (R53). -/
namespace Sys2Proof.Machine

/-- A copy command of OPC 1 with a completion word at 0x1000 of the cluster's scratchpad, at scope GRP, that has run all its iterations. -/
def ranCommand : CopyRun :=
  { cmd := [1, 0, 0, 0, 0, 1, 0, 9] ++ List.replicate 32 0 ++ [0, 0x10] ++ List.replicate 22 0, addr := 0, iter := 0, elem := 0, flags := 0, fault := false
    lives := some [], shape := some [], late := false, native := false }

/-- A workgroup of one KiB of scratchpad, alone in its cluster, whose core has that command in its CPY queue. -/
def strayWord : State :=
  { State.reset with wgs := [(0, probeWg)], clusters := [(0, ⟨0, 0, 0, [0], none, [], []⟩)], disps := [(0, probeDisp)]
                     cores := [(0, { State.reset.core 0 with cpyq := [⟨0, 0, [], none, ranCommand⟩] })] }

theorem strayWord_canonical : Canonical strayWord := by
  refine ⟨rfl, ?_, ?_, ?_, rfl⟩
  · intro e he
    obtain rfl := List.mem_singleton.mp he
    exact ⟨rfl, by decide⟩
  · decide
  · intro e he
    obtain rfl := List.mem_singleton.mp he
    intro g hg
    exact nomatch hg

/-- The flags that the command leaves in its PROG. -/
def strayFlags : State := strayWord.spadWrite 0 32 (leBytes 8 0)

theorem strayFlags_place : strayFlags.place 0 .cluster 0x1000 8 = none := by decide

/-- Refutes O38: nothing says that the completion word of a command that has run lies in the cluster's scratchpad, as it did when the command
started; a word that does not is not written, and no place is signalled. -/
theorem not_engineCommandsRun : ¬ Obligations.EngineCommandsRun := by
  intro h
  obtain ⟨hrun, -⟩ := h
  obtain ⟨-, -, hcpy⟩ := hrun strayWord strayWord_canonical
  obtain ⟨-, hdone, -⟩ := hcpy 0 ⟨0, 0, [], none, ranCommand⟩ rfl rfl
  obtain ⟨z, -, hsig, -⟩ := hdone strayFlags (by decide) rfl (by decide) List.nodup_nil (by decide)
  obtain ⟨-, hword, -⟩ := hsig
  obtain ⟨u, q, o, -, hp, -⟩ := hword (by decide) (by decide)
  have hnone : (some 0).bind (fun w => strayFlags.place w .cluster 0x1000 8) = none := strayFlags_place
  exact absurd (hnone.symm.trans hp) (by simp)

end Sys2Proof.Machine
end

section
/-! What reads and the hub leave as it was, and what ends: graph nodes, instances, dispatches and workgroups (R54, R93, R207, R214, R243 to R245,
R342). -/
namespace Sys2Proof.Machine

-- Reads

/-- Whatever the computation answers, it changes at most memory and caches. -/
def Ev.Keeps {α : Type} (x : Ev α) : Prop := ∀ s, MemoryOnly s (x s).1

namespace Ev.Keeps

theorem ret {α : Type} (a : α) : (Ev.ret a).Keeps := fun s => .refl s

theorem need (c : Bool) (a : Nat) : (Ev.need c a).Keeps := fun s => by unfold Ev.need; split <;> exact .refl s

theorem and {α β : Type} {x : Ev α} {f : α → Ev β} (hx : x.Keeps) (hf : ∀ a, (f a).Keeps) : (x.and f).Keeps := fun s => by
  have h := hx s
  unfold Ev.and
  generalize x s = r at h
  obtain ⟨u, e | a⟩ := r
  · exact h
  · exact h.trans (hf a u)

theorem foldl {α β : Type} {f : β → α → Ev β} (hf : ∀ b a, (f b a).Keeps) (xs : List α) (b : β) : (Ev.foldl f b xs).Keeps := by
  induction xs generalizing b with
  | nil => exact ret b
  | cons a xs ih => exact and (hf b a) ih

theorem list {α β : Type} {f : α → Ev β} (hf : ∀ a, (f a).Keeps) (xs : List α) : (Ev.list f xs).Keeps :=
  foldl (fun acc a => and (hf a) (fun b => ret (acc ++ [b]))) xs []

theorem rdRun {r : Rd} (hr : ∀ va n, (r va n).Keeps) (fuel va n : Nat) : (Machine.rdRun r fuel va n).Keeps := by
  induction fuel generalizing va n with
  | zero => exact ret []
  | succ fuel ih =>
    unfold Machine.rdRun
    split
    · exact ret []
    · exact and (hr _ _) (fun a => and (ih _ _) (fun b => ret (a ++ b)))

theorem rdBytes {r : Rd} (hr : ∀ va n, (r va n).Keeps) (va n : Nat) : (Machine.rdBytes r va n).Keeps := rdRun hr _ va n

theorem readAt (d ctx : Nat) (nd : Need) {lvl : State → Nat → Nat → PageAttr → State × List Byte} (hl : ∀ s pa n a, MemoryOnly s (lvl s pa n a).1)
    (va n : Nat) : (Machine.readAt d ctx nd lvl va n).Keeps := fun s => by
  have h := xlate_only s d ctx va nd
  unfold Machine.readAt
  split
  · exact .refl s
  · generalize s.xlate d ctx va nd = r at h
    obtain ⟨u, e | x⟩ := r
    · exact h
    · exact h.trans (hl ..)

theorem hubRead (ctx va n : Nat) : (Machine.hubRead ctx va n).Keeps := readAt 0 ctx _ (fun s _ _ _ => .refl s) va n

theorem readLaunch (ctx a : Nat) : (Machine.readLaunch ctx a).Keeps := by
  refine and (rdBytes (hubRead ctx) a 256) (fun b => and (need _ _) (fun _ => and ?_ (fun _ s => ?_)))
  · exact and (list (fun k => rdBytes (hubRead ctx) _ 64) _) (fun es => and (list (fun k => rdBytes (hubRead ctx) _ 64) _) (fun bs => need _ _))
  · split <;> exact .refl s

end Ev.Keeps

/-- A launch that may start: its dispatch carries what it was started with. -/
theorem launchEv_ok {q slot cmd ctx a : Nat} {dies : BitVec 4} {node : Option (Nat × Nat)} {acq : Option Nat} {s u : State} {d : Dispatch}
    (h : launchEv q slot cmd ctx a dies node acq s = (u, .ok d)) :
    MemoryOnly s u ∧ d.node = node ∧ d.queue = q ∧ d.slot = slot ∧ d.acqScope = acq := by
  have hk := Ev.Keeps.readLaunch ctx a s
  unfold launchEv Ev.and at h
  generalize readLaunch ctx a s = r at hk h
  obtain ⟨v, e | b⟩ := r
  · exact absurd (congrArg Prod.snd h) (by simp)
  · obtain ⟨rfl, hd⟩ := Prod.mk.injEq .. ▸ h
    obtain rfl := Except.ok.inj hd
    exact ⟨hk, rfl, rfl, rfl, rfl⟩

-- Scopes that order a start (R93)

theorem wider_le (a sc : Option Nat) (k : Nat) (h : a = some k) : ∃ b, wider a sc = some b ∧ k ≤ b := by
  subst h
  cases sc with
  | none => exact ⟨k, rfl, le_refl k⟩
  | some j => exact ⟨_, rfl, le_max_left ..⟩

theorem foldl_wider_le (f : Nat → Option Nat) (ps : List Nat) (a : Option Nat) (k : Nat) (h : a = some k) :
    ∃ b, ps.foldl (fun a p => wider a (f p)) a = some b ∧ k ≤ b := by
  induction ps generalizing a k with
  | nil => exact ⟨k, h, le_refl k⟩
  | cons p ps ih =>
    obtain ⟨b, hb, hle⟩ := wider_le a (f p) k h
    obtain ⟨c, hc, hle'⟩ := ih _ b hb
    exact ⟨c, hc, hle.trans hle'⟩

theorem foldl_wider_covers (f : Nat → Option Nat) (ps : List Nat) (a : Option Nat) {p c : Nat} (hp : p ∈ ps) (hf : f p = some c) :
    ∃ b, ps.foldl (fun a p => wider a (f p)) a = some b ∧ orderScope c ≤ b := by
  induction ps generalizing a with
  | nil => exact absurd hp List.not_mem_nil
  | cons q ps ih =>
    rcases List.mem_cons.mp hp with rfl | hp
    · obtain ⟨b, hb, hle⟩ := foldl_wider_le f ps (wider a (f p)) _ (by rw [hf]; rfl)
      exact ⟨b, hb, (le_max_right ..).trans hle⟩
    · exact ih _ hp

theorem lmod_set {α : Type} {l : List α} {n : Nat} {x : α} (f : α → α) (h : l[n]? = some x) : lmod l n f = l.set n (f x) := by
  apply List.ext_getElem?
  intro k
  rw [lmod_getElem?, List.getElem?_set]
  by_cases hk : n = k
  · subst hk
    have hn : n < l.length := (List.getElem?_eq_some_iff.mp h).1
    rw [if_pos rfl, if_pos rfl, h, if_pos hn]
    rfl
  · rw [if_neg hk, if_neg hk]

-- Completion stores of the hub (R53, R54)

theorem hubStore_only (s : State) (ctx va : Nat) (bs : List Byte) : MemoryOnly s (s.hubStore ctx va bs).1 := by
  have h := xlate_only s 0 ctx va { w := true }
  unfold State.hubStore
  split
  · exact .refl s
  · generalize s.xlate 0 ctx va { w := true } = r at h
    obtain ⟨u, e | x⟩ := r
    · exact h
    · refine h.trans (MemoryOnly.trans ?_ (homeWrite_only ..))
      split
      · exact dirTouch_only ..
      · exact .refl _

theorem hubDoneStore_only (s : State) (ctx : Nat) (cw seq : DWord) (sc : Nat) (late : Bool) : MemoryOnly s (s.hubDoneStore ctx cw seq sc late).1 := by
  unfold State.hubDoneStore
  split
  · exact .refl s
  · split
    · exact .refl s
    · exact hubStore_only ..

theorem hubDoneStore_dies (s : State) (ctx : Nat) (cw seq : DWord) (sc : Nat) (late : Bool) :
    (s.hubDoneStore ctx cw seq sc late).1.dies.length = s.dies.length := by
  have hL := sameUnits_closed.toL2Closed
  have hst : ∀ va bs, SameUnits s (s.hubStore ctx va bs).1 := fun va bs => by
    have h := hL.xlate s 0 ctx va { w := true }
    unfold State.hubStore
    split
    · exact hL.refl s
    · generalize s.xlate 0 ctx va { w := true } = r at h
      obtain ⟨u, e | x⟩ := r
      · exact h
      · refine hL.trans h (hL.trans ?_ (hL.homeWrite ..))
        split
        · exact hL.dirTouch ..
        · exact hL.refl _
  unfold State.hubDoneStore
  split
  · rfl
  · split
    · rfl
    · exact (hst ..).1

/-- The word that a store has written stands in memory. -/
theorem hubStore_word {s u : State} (hw : s.mem.wf = true) {ctx va : Nat} {bs : List Byte} (h : s.hubStore ctx va bs = (u, .ok ())) :
    va < 2 ^ 60 ∧ ∀ x, (s.xlate 0 ctx va { w := true }).2 = .ok x → ∀ k < bs.length, Mem.rd u.mem (x.pa + k) = bs.getD k 0 := by
  have hx := xlate_only s 0 ctx va { w := true }
  unfold State.hubStore at h
  by_cases hv : 2 ^ 60 ≤ va
  · rw [if_pos hv] at h
    exact absurd (congrArg Prod.snd h) (by simp)
  · rw [if_neg hv] at h
    refine ⟨by omega, fun x hx2 k hk => ?_⟩
    generalize s.xlate 0 ctx va { w := true } = r at hx hx2 h
    obtain ⟨v, e⟩ := r
    dsimp only at hx2
    subst hx2
    obtain rfl := (congrArg Prod.fst h :)
    have hvw : MemoryOnly s (if x.attr.c = true then v.dirTouch ((homeDie x.pa).getD 0) x.pa true else v) := by
      split
      · exact hx.trans (dirTouch_only ..)
      · exact hx
    dsimp only
    generalize (if x.attr.c = true then v.dirTouch ((homeDie x.pa).getD 0) x.pa true else v) = y at hvw
    obtain ⟨y', hy', hm⟩ : ∃ y', MemoryOnly y y' ∧ (y.homeWrite x.pa bs).mem = Mem.wrN y'.mem x.pa bs := by
      refine ⟨_, ?_, rfl⟩
      split
      · refine .foldl _ (fun s k => ?_) _ _
        split
        · exact invalCopies_only ..
        · exact .refl _
      · exact .refl _
    rw [hm, rd_wrN (hy'.2 (hvw.2 hw)), if_pos ⟨by omega, by omega⟩]
    congr 1
    omega

@[simp] theorem leBytes_length (n v : Nat) : (leBytes n v).length = n := by
  induction n generalizing v with
  | zero => rfl
  | succ n ih => rw [leBytes, List.length_cons, ih]

theorem leBytes_getD (n v k : Nat) (hk : k < n) : (leBytes n v).getD k 0 = BitVec.ofNat 8 (v / 256 ^ k) := by
  induction n generalizing v k with
  | zero => exact absurd hk (Nat.not_lt_zero k)
  | succ n ih =>
    cases k with
    | zero => simp [leBytes]
    | succ k => rw [leBytes, List.getD_cons_succ, ih _ _ (by omega), Nat.div_div_eq_div_mul, pow_succ']

/-- A completion store of the hub signals its word. -/
theorem hubDoneStore_signals {s u : State} (hw : s.mem.wf = true) {ctx : Nat} {cw seq : DWord} {sc : Nat} {late : Bool}
    (h : s.hubDoneStore ctx cw seq sc late = (u, .ok ())) : Signals s u 0 ctx none false cw seq sc := by
  have ho := hubDoneStore_only s ctx cw seq sc late
  rw [h] at ho
  unfold State.hubDoneStore at h
  refine ⟨fun h0 => ?_, fun _ hc => absurd hc Bool.false_ne_true, fun h0 _ => ⟨ho, fun x hx _ k hk => ?_⟩⟩
  · rw [if_pos h0] at h
    exact (congrArg Prod.fst h).symm
  · rw [if_neg h0] at h
    split at h
    · exact absurd (congrArg Prod.snd h) (by simp)
    · obtain ⟨hv, hword⟩ := hubStore_word hw h
      rw [Nat.mod_eq_of_lt hv] at hx
      rw [hword x hx k (by rwa [leBytes_length])]
      exact leBytes_getD 8 _ k hk

-- The end of a command (R93, R245)

theorem wider_elim (a scope : Option Nat) :
    wider a scope = scope.elim a (fun n => some (max (a.getD 0) (if n = 0 then 5 else max n 4))) := by
  cases scope with
  | none => rfl
  | some n =>
    simp only [wider, orderScope, Option.elim_some]
    congr 2
    split
    · rfl
    · split <;> omega

theorem cmdEnd_gone {u s : State} (hq : s.queues = u.queues) (q idx : Nat) (scope : Option Nat) : CommandGone u (s.cmdEnd q idx scope) q idx scope := by
  have h : ∀ p, s.queue p = u.queue p := fun p => congrArg (fun m => mget m p) hq
  refine ⟨?_, fun p hp => ?_⟩
  · rw [State.cmdEnd, queue_updQueue, if_pos rfl, h]
    congr 1
    funext k
    rw [wider_elim]
  · rw [State.cmdEnd, queue_updQueue, if_neg (Ne.symm hp), h]

theorem MemoryOnly.graphs {s z : State} (h : MemoryOnly s z) : z.graphs = s.graphs := by rw [h.1]
theorem MemoryOnly.queues {s z : State} (h : MemoryOnly s z) : z.queues = s.queues := by rw [h.1]
theorem MemoryOnly.disps {s z : State} (h : MemoryOnly s z) : z.disps = s.disps := by rw [h.1]

-- Graph nodes and instances (R243 to R245)

/-- Where a node's predecessors are complete, its dispatch starts. -/
theorem nodeStart_eq {s u : State} {i n slot : Nat} {g : GraphInst} {deps : List Nat} {sc : Nat} {d : Dispatch} (hg : mget s.graphs i = some g)
    (hn : g.nodes[n]? = some (deps, sc, none)) (hs : s.boundSlot g.queue = some slot) (hf : g.failed = false) (hft : g.fault = false)
    (hd : ∀ p ∈ deps, ∃ ds c, g.nodes[p]? = some (ds, c, some none))
    (hl : launchEv g.queue slot g.cmd g.ctx (g.buf.toNat + 64 + 64 * g.nodes.length + 256 * n) g.dies (some (i, n))
      (deps.foldl (fun a p => wider a ((g.nodes[p]?).map (fun x => x.2.1))) ((s.queue g.queue).bind Queue.lastScope)) s = (u, .ok d)) :
    s.nodeStart i n = { (u.addDisp d).1 with
      graphs := mupd (u.addDisp d).1.graphs i (fun x => { x with nodes := lmod x.nodes n (fun y => (y.1, y.2.1, some (some (u.addDisp d).2))) }) } := by
  have hall : deps.all (fun p => ((g.nodes[p]?).map (fun x => x.2.2 == some none)).getD false) = true := by
    rw [List.all_eq_true]
    intro p hp
    obtain ⟨ds, c, hp⟩ := hd p hp
    rw [hp]
    rfl
  unfold State.nodeStart
  simp only [hg, hn, hs, hf, hft, hall, Bool.not_true, Bool.or_false, Bool.false_eq_true, if_false, instRecord, hl]

theorem graphNode_starts {s u : State} {i n slot : Nat} {g : GraphInst} {deps : List Nat} {sc : Nat} {d : Dispatch} (hg : mget s.graphs i = some g)
    (hn : g.nodes[n]? = some (deps, sc, none)) (hs : s.boundSlot g.queue = some slot) (hf : g.failed = false) (hft : g.fault = false)
    (hd : ∀ p ∈ deps, ∃ ds c, g.nodes[p]? = some (ds, c, some none))
    (before acq : Option Nat) (hb : before = (s.queue g.queue).bind Queue.lastScope)
    (ha : acq = deps.foldl (fun a p => wider a ((g.nodes[p]?).map (fun x => x.2.1))) before)
    (hl : launchEv g.queue slot g.cmd g.ctx (g.buf.toNat + 64 + 64 * g.nodes.length + 256 * n) g.dies (some (i, n)) acq s = (u, .ok d)) :
    ∃ z, exec (.graphNodeStart i n) s = .next z ∧ MemoryOnly s u ∧ d.node = some (i, n) ∧ d.queue = g.queue ∧ d.slot = slot ∧ d.acqScope = acq
      ∧ (∀ k, before = some k → ∃ a, acq = some a ∧ k ≤ a) ∧ (∀ p ∈ deps, ∃ a, acq = some a ∧ orderScope (((g.nodes[p]?).map (fun x => x.2.1)).getD 0) ≤ a)
      ∧ z = { u with disps := u.disps ++ [(u.fresh, d)], fresh := u.fresh + 1, graphs := z.graphs, profNative := z.profNative, profDbp := z.profDbp }
      ∧ z.profNative + z.profDbp = s.profNative + s.profDbp + 1 ∧ (d.lr.dbp = true → z.profNative = s.profNative)
      ∧ (d.lr.dbp = false → z.profDbp = s.profDbp) ∧ mget z.graphs i = some { g with nodes := g.nodes.set n (deps, sc, some (some u.fresh)) }
      ∧ ∀ j, j ≠ i → mget z.graphs j = mget s.graphs j := by
  obtain ⟨hm, hnode, hqueue, hslot, hacq⟩ := launchEv_ok hl
  have hz := nodeStart_eq hg hn hs hf hft hd (hb ▸ ha ▸ hl)
  have hgr : mget (mupd u.graphs i (fun x => { x with nodes := lmod x.nodes n (fun y => (y.1, y.2.1, some (some u.fresh))) })) i
      = some { g with nodes := g.nodes.set n (deps, sc, some (some u.fresh)) } := by
    rw [mget_mupd_self, hm.graphs, hg, Option.map_some, lmod_set _ hn]
  have hN : u.profNative = s.profNative := by rw [hm.1]
  have hD : u.profDbp = s.profDbp := by rw [hm.1]
  refine ⟨_, congrArg Host.Outcome.next hz, hm, hnode, hqueue, hslot, hacq, fun k hk => ?_, fun p hp => ?_, rfl, ?_, fun h => ?_, fun h => ?_, hgr, fun j hj => ?_⟩
  · exact ha ▸ foldl_wider_le _ deps before k hk
  · obtain ⟨ds, c, hpc⟩ := hd p hp
    rw [hpc]
    exact ha ▸ foldl_wider_covers _ deps before hp (by rw [hpc]; rfl)
  · show (if d.lr.dbp then u.profNative else u.profNative + 1) + (if d.lr.dbp then u.profDbp + 1 else u.profDbp) = _
    rw [hN, hD]
    cases d.lr.dbp
    · simp only [Bool.false_eq_true, if_false]
      ac_rfl
    · simp only [if_true]
      ac_rfl
  · exact (if_pos h).trans hN
  · exact (if_neg (by simp [h])).trans hD
  · exact (mget_mupd_ne _ (Ne.symm hj) _).trans (congrArg (fun m => mget m j) hm.graphs)

/-- An instance all of whose nodes are complete signals and ends its command (R245). -/
theorem graphInstance_completes {s u : State} (hw : s.mem.wf = true) {i : Nat} {g : GraphInst} (hg : mget s.graphs i = some g) (hf : g.failed = false)
    (hft : g.fault = false) (hn : ∀ x ∈ g.nodes, x.2.2 = some none) (hd : s.hubDoneStore g.ctx g.gcw g.gseq g.gsc g.late = (u, .ok ())) :
    ∃ z, exec (.graphInstanceComplete i) s = .next z ∧ Signals s u 0 g.ctx none false g.gcw g.gseq g.gsc
      ∧ z = { u with graphs := mdel u.graphs i, queues := z.queues } ∧ CommandGone u z g.queue g.cmd (some g.gsc) := by
  have hall : g.nodes.all (fun x => x.2.2 == some none) = true := by
    rw [List.all_eq_true]
    intro x hx
    rw [hn x hx]
    rfl
  have hz : s.graphDone i = ({ u with graphs := mdel u.graphs i } : State).cmdEnd g.queue g.cmd (some g.gsc) := by
    unfold State.graphDone
    simp only [hg, hf, hft, hall, Bool.not_true, Bool.or_false, Bool.false_eq_true, if_false, hd]
  exact ⟨_, congrArg Host.Outcome.next hz, hubDoneStore_signals hw hd, rfl, cmdEnd_gone rfl ..⟩

-- Dispatches (R54, R207, R214)

theorem graphReap_rest (s : State) (i : Nat) : s.graphReap i = { s with graphs := (s.graphReap i).graphs, queues := (s.graphReap i).queues } := by
  unfold State.graphReap
  split
  · rfl
  · split <;> rfl

theorem graphNode_rest (s : State) (p : Nat × Nat) (ok : Bool) :
    s.graphNode p ok = { s with graphs := (s.graphNode p ok).graphs, queues := (s.graphNode p ok).queues } := by
  unfold State.graphNode
  dsimp only
  rw [graphReap_rest]

/-- A node of an instance that goes on is marked complete, and nothing else happens. -/
theorem graphNode_complete {s : State} {i k : Nat} {g : GraphInst} {x : List Nat × Nat × Option (Option Nat)} (hg : mget s.graphs i = some g)
    (hf : g.failed = false) (hx : g.nodes[k]? = some x) :
    (s.graphNode (i, k) true).queues = s.queues
      ∧ mget (s.graphNode (i, k) true).graphs i = some { g with nodes := g.nodes.set k (x.1, x.2.1, some none) } := by
  have hm : mget (mupd s.graphs i (fun g => { g with failed := g.failed || !true, nodes := lmod g.nodes k (fun x => (x.1, x.2.1, some none)) })) i
      = some { g with nodes := g.nodes.set k (x.1, x.2.1, some none) } := by
    rw [mget_mupd_self, hg, Option.map_some, lmod_set _ hx, hf]
    rfl
  unfold State.graphNode
  dsimp only
  unfold State.graphReap
  dsimp only
  rw [hm]
  dsimp only
  rw [if_neg (by simp [hf])]
  exact ⟨rfl, hm⟩

theorem dropDispUnits_rest (s : State) (n : Nat) :
    s.dropDispUnits n = { s with dies := (s.dropDispUnits n).dies, faults := (s.dropDispUnits n).faults, fresh := s.fresh + 1 } := by
  unfold State.dropDispUnits
  dsimp only
  split <;> rfl

/-- Bucket memory that the dispatch held is idle and lists nothing but its free contents; other bucket memory stays (R214). -/
theorem dropDispUnits_bk (s : State) (n : Nat) {e : Nat} (he : e < s.dies.length) :
    let y := (s.dropDispUnits n).die e
    if (s.die e).bkOwner = some n then y.bkState = .idle ∧ y.bk = [] ∧ y.bkDraw = some s.fresh
    else y.bkState = (s.die e).bkState ∧ y.bk = (s.die e).bk ∧ y.bkDraw = (s.die e).bkDraw := by
  have hd : s.die e = s.dies[e] := by rw [State.die, List.getD_eq_getElem?_getD, List.getElem?_eq_getElem he, Option.getD_some]
  obtain ⟨x, hx, hy⟩ : ∃ x : Die, (x.bkState = (s.die e).bkState ∧ x.bk = (s.die e).bk ∧ x.bkDraw = (s.die e).bkDraw)
      ∧ (s.dropDispUnits n).die e = if x.bkOwner = some n then { x with bkState := .idle, bk := [], bkDraw := some s.fresh } else x := by
    refine ⟨{ s.die e with
        dicing := (s.die e).dicing.filter (fun p => p.disp != n)
        toBin := (s.die e).toBin.filter (fun p => p.disp != n)
        diceFault := (s.die e).diceFault && !(s.dies.any (fun x => x.bkState == .graphics n))
        binFault := (s.die e).binFault && !(s.dies.any (fun x => x.bkState == .graphics n))
        rasters := if s.dies.any (fun x => x.bkState == .graphics n) then (s.die e).rasters.map (fun _ => .idle) else (s.die e).rasters },
      ⟨rfl, rfl, rfl⟩, ?_⟩
    rw [hd]
    unfold State.dropDispUnits State.die State.bump
    dsimp only
    rw [List.getD_eq_getElem?_getD, List.getElem?_map]
    split <;> rw [List.getElem?_eq_getElem (by exact he)] <;> rfl
  obtain ⟨h1, h2, h3⟩ := hx
  have hown : x.bkOwner = (s.die e).bkOwner := by unfold Die.bkOwner; rw [h1]
  dsimp only
  rw [hy, hown]
  split
  · exact ⟨rfl, rfl, rfl⟩
  · exact ⟨h1, h2, h3⟩

theorem bkOwner_some {x : Die} {n : Nat} : x.bkOwner = some n ↔ x.bkState = .graphics n ∨ ∃ l, x.bkState = .window n l := by
  unfold Die.bkOwner
  cases x.bkState <;> simp

/-- What a dispatch leaves as it goes: its units, its bucket memory, its queue or graph. -/
theorem endDisp_rest (u : State) (n : Nat) (d : Dispatch) :
    u.endDisp n d = { u with disps := mdel u.disps n, dies := (u.dropDispUnits n).dies, faults := (u.dropDispUnits n).faults
                             queues := (u.endDisp n d).queues, graphs := (u.endDisp n d).graphs, fresh := u.fresh + 1 } := by
  have hu := dropDispUnits_rest u n
  unfold State.endDisp
  dsimp only
  generalize u.dropDispUnits n = v at hu
  split
  · rw [graphNode_rest]
    dsimp only
    rw [hu]
  · unfold State.cmdEnd State.updQueue
    dsimp only
    rw [hu]

theorem endDisp_queue {u : State} {n : Nat} {d : Dispatch} (h : d.node = none) :
    (u.endDisp n d).graphs = u.graphs ∧ CommandGone u (u.endDisp n d) d.queue d.cmd (some d.lr.cwsc) := by
  have hu := dropDispUnits_rest u n
  unfold State.endDisp
  rw [h]
  dsimp only
  generalize u.dropDispUnits n = v at hu
  exact ⟨(congrArg State.graphs hu :), cmdEnd_gone (congrArg State.queues hu :) ..⟩

theorem endDisp_node {u : State} {n i k : Nat} {d : Dispatch} {g : GraphInst} {x : List Nat × Nat × Option (Option Nat)} (h : d.node = some (i, k))
    (hg : mget u.graphs i = some g) (hf : g.failed = false) (hx : g.nodes[k]? = some x) :
    (u.endDisp n d).queues = u.queues ∧ mget (u.endDisp n d).graphs i = some { g with nodes := g.nodes.set k (x.1, x.2.1, some none) } := by
  have hu := dropDispUnits_rest u n
  unfold State.endDisp
  rw [h]
  dsimp only
  generalize u.dropDispUnits n = v at hu
  have hgr : v.graphs = u.graphs := (congrArg State.graphs hu :)
  obtain ⟨h1, h2⟩ := graphNode_complete (s := { v with disps := mdel u.disps n }) (hg := (congrArg (fun m => mget m i) hgr :).trans hg) hf hx
  exact ⟨h1.trans (congrArg State.queues hu :), h2⟩

/-- A dispatch that has nothing left to do signals, and leaves. -/
theorem dispDone_eq {s u : State} {n : Nat} {d : Dispatch} (hd : s.disp n = some d) (hfin : d.fin = .running) (hft : d.fault = false)
    (hi : d.idle = true) (hs : s.hubDoneStore d.ctx d.lr.cw d.lr.seq d.lr.cwsc d.late = (u, .ok ())) : s.dispDone n = u.endDisp n d := by
  unfold State.dispDone
  have hb : (d.fin != .running || d.fault || !d.idle) = false := by rw [hfin, hft, hi]; rfl
  simp only [hd, hb, Bool.false_eq_true, if_false, hs]

theorem dispatch_completes {s u : State} (hw : s.mem.wf = true) (h4 : s.dies.length = 4) {n : Nat} {d : Dispatch} (hd : s.disp n = some d)
    (hfin : d.fin = .running) (hft : d.fault = false) (hi : d.idle = true)
    (hs : s.hubDoneStore d.ctx d.lr.cw d.lr.seq d.lr.cwsc d.late = (u, .ok ())) :
    ∃ z, exec (.dispatchComplete n) s = .next z ∧ Signals s u 0 d.ctx none false d.lr.cw d.lr.seq d.lr.cwsc
      ∧ z = { u with disps := mdel u.disps n, dies := z.dies, faults := z.faults, queues := z.queues, graphs := z.graphs, fresh := u.fresh + 1 }
      ∧ (∀ e < 4, (((u.die e).bkState = .graphics n ∨ ∃ l, (u.die e).bkState = .window n l) → (z.die e).bkState = .idle
            ∧ ∀ a, (z.die e).bkByte e a = Config.freeByte u.fresh (0x1000000 * e + a))
          ∧ ((u.die e).bkState ≠ .graphics n → (∀ l, (u.die e).bkState ≠ .window n l) → (z.die e).bkState = (u.die e).bkState
            ∧ ∀ a, (z.die e).bkByte e a = (u.die e).bkByte e a))
      ∧ (d.node = none → z.graphs = s.graphs ∧ CommandGone u z d.queue d.cmd (some d.lr.cwsc))
      ∧ ∀ i k g x, d.node = some (i, k) → mget s.graphs i = some g → g.failed = false → g.nodes[k]? = some x → z.queues = u.queues
          ∧ mget z.graphs i = some { g with nodes := g.nodes.set k (x.1, x.2.1, some none) } := by
  have hm := hubDoneStore_only s d.ctx d.lr.cw d.lr.seq d.lr.cwsc d.late
  rw [hs] at hm
  have hlen : u.dies.length = 4 := (congrArg (fun r => r.1.dies.length) hs :).symm.trans ((hubDoneStore_dies ..).trans h4)
  have hrest := endDisp_rest u n d
  have hdies : ∀ e, (u.endDisp n d).die e = (u.dropDispUnits n).die e := fun e => (congrArg (fun z : State => z.die e) hrest :)
  refine ⟨_, congrArg Host.Outcome.next (dispDone_eq hd hfin hft hi hs), hubDoneStore_signals hw hs, ?_, fun e he => ?_, fun hn => ?_,
    fun i k g x hn hg hf hx => endDisp_node hn (hm.graphs ▸ hg) hf hx⟩
  · refine hrest.trans ?_
    rw [(congrArg State.dies hrest :), (congrArg State.faults hrest :)]
  · have hbk := dropDispUnits_bk u n (hlen ▸ he)
    rw [hdies]
    refine ⟨fun hold => ?_, fun h1 h2 => ?_⟩
    · rw [if_pos (bkOwner_some.mpr hold)] at hbk
      obtain ⟨b1, b2, b3⟩ := hbk
      exact ⟨b1, fun a => by simp [Die.bkByte, b2, b3, bkMask, Mem.rd]⟩
    · rw [if_neg (fun h => (bkOwner_some.mp h).elim h1 (fun ⟨l, hl⟩ => h2 l hl))] at hbk
      obtain ⟨b1, b2, b3⟩ := hbk
      exact ⟨b1, fun a => by rw [Die.bkByte, Die.bkByte, b2, b3]⟩
  · obtain ⟨h1, h2⟩ := endDisp_queue (u := u) (n := n) hn
    exact ⟨h1.trans hm.graphs, h2⟩

-- The end of a workgroup (R342)

theorem mget_filter_key {κ ν : Type} [DecidableEq κ] (m : Map κ ν) (p : κ → Bool) (k : κ) :
    mget (m.filter (fun e => p e.1)) k = if p k then mget m k else none := by
  induction m with
  | nil => simp [mget]
  | cons e m ih =>
    obtain ⟨j, v⟩ := e
    by_cases hp : p j = true
    · rw [List.filter_cons_of_pos (p := fun e : κ × ν => p e.1) hp, mget, mget, ih]
      by_cases hj : j = k
      · subst hj; simp [hp]
      · simp [hj]
    · rw [List.filter_cons_of_neg (p := fun e : κ × ν => p e.1) hp, ih, mget]
      by_cases hj : j = k
      · subst hj; simp [hp]
      · simp [hj]

/-- A lease step changes its core's lease and counter alone (R160). -/
theorem leaseStep_eq (s : State) (c : Nat) (d : Option Nat) :
    ∃ l k, s.leaseStep c d = s.updCore c (fun x => { x with lease := l, leaseC := k }) := by
  unfold State.leaseStep
  dsimp only
  generalize (if ((s.core c).lease.isSome && d == (s.core c).lease) = true then (s.core c).leaseC - 1 else (s.core c).leaseC) = n
  split
  · split
    · exact ⟨_, _, rfl⟩
    · split
      · split <;> exact ⟨_, _, rfl⟩
      · exact ⟨_, _, rfl⟩
  · exact ⟨_, _, rfl⟩

theorem leaseStep_rest (s : State) (c : Nat) (d : Option Nat) : s.leaseStep c d = { s with cores := (s.leaseStep c d).cores } := by
  obtain ⟨l, k, h⟩ := leaseStep_eq s c d
  rw [h]
  rfl

theorem giveUpLease_rest (s : State) (c n : Nat) : s.giveUpLease c n = { s with cores := (s.giveUpLease c n).cores } := by
  unfold State.giveUpLease
  split
  · rw [leaseStep_rest]; rfl
  · rfl

theorem tidyCore_rest (s : State) (c : Nat) : s.tidyCore c = { s with cores := (s.tidyCore c).cores } := by
  unfold State.tidyCore
  split <;> rfl

theorem foldl_tidyCore_rest (cs : List Nat) (s : State) : cs.foldl State.tidyCore s = { s with cores := (cs.foldl State.tidyCore s).cores } := by
  induction cs generalizing s with
  | nil => rfl
  | cons c cs ih =>
    rw [List.foldl_cons, ih, tidyCore_rest]

/-- The running schedule iterations of a workgroup end. -/
def Workgroup.endRuns (x : Workgroup) : Workgroup :=
  { x with sched := x.sched.map (fun e => match e.run with
    | some r => { e with run := none, next := if r.cmd.isEmpty then e.next else e.next + 1 }
    | none => e) }

/-- The workgroup has no matrix or CPY entry on its core. -/
def EnginesIdle (s : State) (w : Nat) : Prop :=
  let k := s.core (((s.wg w).map Workgroup.coreIx).getD 0)
  k.chain.filter (fun e => e.wg == w) = [] ∧ k.cpyq.filter (fun e => e.wg == w) = []

/-- Such a workgroup leaves no thread to be told. -/
theorem discardEngines_rest {s : State} {w : Nat} (h : EnginesIdle s w) :
    s.discardEngines w = { s with faults := (s.discardEngines w).faults, cores := (s.discardEngines w).cores
                                  wgs := mupd s.wgs w Workgroup.endRuns, fresh := s.fresh + 1 } := by
  obtain ⟨hx, hy⟩ : EnginesIdle (s.dropFaults (s.engineSite (((s.wg w).map Workgroup.coreIx).getD 0) w)) w := h
  unfold State.discardEngines
  simp only [State.dropFaults] at hx hy ⊢
  simp only [show ∀ (m : Map Nat PFault), ({ s with faults := m } : State).wg w = s.wg w from fun _ => rfl] at hx hy
  simp only [hx, hy, List.foldl_nil]
  split
  · rw [leaseStep_rest]; rfl
  · rfl

/-- Its threads, groups and accesses go (R342). -/
theorem stripWg_rest {s : State} {w : Nat} (h : EnginesIdle s w) :
    s.stripWg w = { s with faults := (s.stripWg w).faults, cores := (s.stripWg w).cores, wgs := mupd s.wgs w Workgroup.endRuns, fresh := s.fresh + 1
                           accs := s.accs.filter (fun e => e.2.t.wg != w), threads := s.threads.filter (fun e => e.1.wg != w)
                           groups := s.groups.filter (fun e => e.1.wg != w) } := by
  have hd := discardEngines_rest (s := s.dropFaults (s.siteIn w)) h
  unfold State.stripWg
  dsimp only
  rw [hd]
  rfl

/-- What the end of a workgroup makes of its entry. -/
def Workgroup.end (x : Workgroup) : Workgroup := { x.endRuns with ended := true, tiles := [], tileNos := [], phrOffs := [] }

theorem mupd_mupd {κ ν : Type} [DecidableEq κ] (m : Map κ ν) (x : κ) (f g : ν → ν) : mupd (mupd m x f) x g = mupd m x (fun v => g (f v)) := by
  induction m with
  | nil => rfl
  | cons e m ih =>
    obtain ⟨k, v⟩ := e
    by_cases h : k = x <;> simp [mupd, h, ih]

/-- The workgroups that are left: all, this one ended, or without its cluster when all of that has ended. -/
theorem freeWg_rest {s : State} {w : Nat} {g : Workgroup} (hw : s.wg w = some g) (h : EnginesIdle s w) :
    ∃ W, s.freeWg w = { s with faults := (s.freeWg w).faults, cores := (s.freeWg w).cores, wgs := W, clusters := (s.freeWg w).clusters
                               fresh := s.fresh + 1, accs := s.accs.filter (fun e => e.2.t.wg != w)
                               threads := s.threads.filter (fun e => e.1.wg != w), groups := s.groups.filter (fun e => e.1.wg != w) }
      ∧ (W = mupd s.wgs w Workgroup.end ∨ ∃ ms : List Nat, W = (mupd s.wgs w Workgroup.end).filter (fun e => !ms.contains e.1)
          ∧ ∀ m ∈ ms, ((mget (mupd s.wgs w Workgroup.end) m).map Workgroup.ended).getD true = true) := by
  have hs := stripWg_rest h
  unfold State.freeWg
  rw [hw]
  dsimp only
  generalize s.stripWg w = v at hs
  have ha : (v.updWg w (fun x => { x with ended := true, tiles := [], tileNos := [], phrOffs := [] })) = { v with wgs := mupd s.wgs w Workgroup.end } := by
    unfold State.updWg
    rw [(congrArg State.wgs hs :), mupd_mupd]
    rfl
  rw [ha]
  generalize hb : (if ({ v with wgs := mupd s.wgs w Workgroup.end } : State).wgs.any (fun e => e.2.coreIx == g.coreIx && !e.2.ended && e.2.resident
      && ({ v with wgs := mupd s.wgs w Workgroup.end } : State).slotOfWg e.1 == s.slotOfWg w) = true then ({ v with wgs := mupd s.wgs w Workgroup.end } : State)
    else ({ v with wgs := mupd s.wgs w Workgroup.end } : State).giveUpLease g.coreIx (s.slotOfWg w)) = b
  have hbr : b = { v with wgs := mupd s.wgs w Workgroup.end, cores := b.cores } := by
    rw [← hb]
    split
    · rfl
    · rw [giveUpLease_rest]
  clear hb ha
  generalize ((mget b.clusters g.cluster).map Cluster.members).getD [w] = ms
  have hbw : b.wgs = mupd s.wgs w Workgroup.end := (congrArg State.wgs hbr :)
  split
  · rename_i hall
    refine ⟨(mupd s.wgs w Workgroup.end).filter (fun e => !ms.contains e.1), ?_, .inr ⟨ms, rfl, fun m hm => ?_⟩⟩
    · rw [foldl_tidyCore_rest]
      dsimp only
      rw [hbr, hs]
    · have := List.all_eq_true.mp hall m hm
      rwa [State.wg, hbw] at this
  · refine ⟨mupd s.wgs w Workgroup.end, ?_, .inl rfl⟩
    rw [hbr, hs]

theorem canEnd_idle {s : State} {w : Nat} {g : Workgroup} (hw : s.wg w = some g) (h : s.canEnd w = true) : EnginesIdle s w := by
  simp only [State.canEnd, hw, Bool.and_eq_true, State.mxOf, State.cpyOf] at h
  obtain ⟨⟨⟨⟨⟨⟨⟨⟨⟨hres, -⟩, -⟩, -⟩, -⟩, hmx⟩, hcp⟩, -⟩, -⟩, -⟩ := h
  rw [if_pos hres, beq_iff_eq] at hmx hcp
  unfold EnginesIdle
  rw [hw]
  exact ⟨hmx, hcp⟩

theorem dispReap_running {s : State} {n : Nat} {d : Dispatch} (hd : s.disp n = some d) (hf : d.fin = .running) : s.dispReap n = s := by
  unfold State.dispReap
  rw [hd]
  dsimp only
  rw [hf]
  exact if_neg (by simp)

/-- The workgroups after the end of one: it has ended, or is gone; the others that have not ended stay, and none is new. -/
theorem ended_wgs {m W : Map Nat Workgroup} {w : Nat} {g : Workgroup} (hg : mget m w = some g)
    (hW : W = mupd m w Workgroup.end ∨ ∃ ms : List Nat, W = (mupd m w Workgroup.end).filter (fun e => !ms.contains e.1)
      ∧ ∀ v ∈ ms, ((mget (mupd m w Workgroup.end) v).map Workgroup.ended).getD true = true) :
    (∀ y, mget W w = some y → y = g.end)
      ∧ ∀ v y, v ≠ w → (mget m v = some y → y.ended = false → mget W v = some y) ∧ (mget W v = some y → mget m v = some y) := by
  have hself : mget (mupd m w Workgroup.end) w = some g.end := by rw [mget_mupd_self, hg]; rfl
  have hother : ∀ v, v ≠ w → mget (mupd m w Workgroup.end) v = mget m v := fun v hv => mget_mupd_ne _ (Ne.symm hv) _
  rcases hW with rfl | ⟨ms, rfl, hms⟩
  · refine ⟨fun y hy => (Option.some.inj (hself.symm.trans hy)).symm, fun v y hv => ?_⟩
    rw [hother v hv]
    exact ⟨fun h _ => h, id⟩
  · refine ⟨fun y hy => ?_, fun v y hv => ⟨fun hy he => ?_, fun hy => ?_⟩⟩
    · rw [mget_filter_key _ (fun k => !ms.contains k), hself] at hy
      split at hy
      · exact (Option.some.inj hy).symm
      · exact absurd hy (by simp)
    · have hv' : v ∉ ms := fun hin => by
        have := hms v hin
        rw [hother v hv, hy, Option.map_some, Option.getD_some, he] at this
        exact Bool.false_ne_true this
      rw [mget_filter_key _ (fun k => !ms.contains k), hother v hv, hy]
      exact if_pos (by simpa using hv')
    · rw [mget_filter_key _ (fun k => !ms.contains k), hother v hv] at hy
      split at hy
      · exact hy
      · exact absurd hy (by simp)

/-- A workgroup that can end ends (R342). -/
theorem workgroup_ends {s : State} {w : Nat} {g : Workgroup} {d : Dispatch} (hw : s.wg w = some g) (ht : g.task = none) (hc : s.canEnd w = true)
    (hd : s.disp g.disp = some d) (hf : d.fin = .running) :
    ∃ z, exec (.workgroupEnd w) s = .next z ∧ z.mem = s.mem ∧ z.disp g.disp = some { d with live := d.live - 1 }
      ∧ (∀ t, z.thr t = if t.wg = w then none else s.thr t) ∧ (∀ h, z.grp h = if h.wg = w then none else s.grp h)
      ∧ (∀ y, z.wg w = some y → y.ended = true ∧ y.tileNos = [] ∧ y.phrOffs = [] ∧ y.spad = g.spad)
      ∧ ∀ v y, v ≠ w → (s.wg v = some y → y.ended = false → z.wg v = some y) ∧ (z.wg v = some y → s.wg v = some y) := by
  obtain ⟨W, hz, hW⟩ := freeWg_rest (s := s.updDisp g.disp (fun d => { d with live := d.live - 1 })) hw (canEnd_idle hw hc)
  have htask : s.endTask w = s.endWg w := by
    unfold State.endTask
    rw [show s.taskOf w = none from by rw [State.taskOf, hw]; exact ht]
    cases s.wg w <;> rfl
  have hend : s.endWg w = ((s.updDisp g.disp (fun d => { d with live := d.live - 1 })).freeWg w).dispReap g.disp := by
    unfold State.endWg
    rw [hw]
    exact if_pos hc
  generalize (s.updDisp g.disp (fun d => { d with live := d.live - 1 })).freeWg w = z at hz hend
  have hdz : z.disp g.disp = some { d with live := d.live - 1 } := by
    rw [hz]
    exact (mget_mupd_self _ _ _).trans (congrArg (Option.map _) hd)
  rw [dispReap_running hdz hf] at hend
  obtain ⟨h1, h2⟩ := ended_wgs hw hW
  refine ⟨z, congrArg Host.Outcome.next (htask.trans hend), by rw [hz]; rfl, hdz, fun t => ?_, fun h => ?_, fun y hy => ?_, fun v y hv => ?_⟩
  · rw [hz]
    exact (mget_filter_key s.threads (fun t => t.wg != w) t).trans (by by_cases h : t.wg = w <;> simp [h, State.thr])
  · rw [hz]
    exact (mget_filter_key s.groups (fun g => g.wg != w) h).trans (by by_cases h : h.wg = w <;> simp [h, State.grp])
  · rw [hz] at hy
    obtain rfl := h1 y hy
    exact ⟨rfl, rfl, rfl, rfl⟩
  · rw [hz]
    exact h2 v y hv

/-- What a dispatch has left to do: nothing. -/
theorem idle_of {d : Dispatch} (hl : d.live = 0) (h : match d.gfx with
      | none => d.lr.dimx * d.lr.dimy * d.lr.dimz / d.lr.csize ≤ d.nextCl
      | some g => g.binned = true ∧ (renderOf g.rr).buckets ≤ g.written) : d.idle = true := by
  unfold Dispatch.idle
  rw [hl]
  cases hg : d.gfx with
  | none => rw [hg] at h; exact decide_eq_true h
  | some g => rw [hg] at h; simpa using h

/-- Settles O44: nodes start, instances and dispatches complete, workgroups end. -/
theorem graphsAndDispatchesComplete : Obligations.GraphsAndDispatchesComplete := by
  intro s hs
  obtain ⟨hw, -, -, -, h4⟩ := hs
  refine ⟨fun i n g deps sc slot u d hg hn hb hf hft hd hl => graphNode_starts hg hn hb hf hft hd _ _ rfl rfl hl,
    fun i g u hg hf hft hn hd => graphInstance_completes hw hg hf hft hn hd,
    fun n d u hd hf hft hl hi hst => dispatch_completes hw h4 hd hf hft (idle_of hl hi) hst,
    fun w g d hwg ht hc hd hf => workgroup_ends hwg ht hc hd hf⟩

end Sys2Proof.Machine
end

section
/-! Workgroups come and go (R14, R23, R29, R42, R241, R248, R249). -/
namespace Sys2Proof.Machine

-- The phase queue (R42)

theorem csaIdle_rest (s : State) (q : Nat) : s.csaIdle q = { s with queues := (s.csaIdle q).queues }
    ∧ ∀ p, ((s.csaIdle q).queue p).map (fun k => { k with csaUsed := 0, csaBlks := 0 }) = (s.queue p).map (fun k => { k with csaUsed := 0, csaBlks := 0 }) := by
  unfold State.csaIdle
  cases hk : s.queue q with
  | none => exact ⟨rfl, fun _ => rfl⟩
  | some k =>
    dsimp only
    split
    · refine ⟨rfl, fun p => ?_⟩
      rw [queue_updQueue]
      split
      · rw [Option.map_map]; rfl
      · rfl
    · exact ⟨rfl, fun _ => rfl⟩

/-- A core's only waiting group stays where no spot is found for it. -/
theorem scanPhaseQ_none {s : State} {c w k tick : Nat} {g : Group} {lr : Launch} (hq : (s.core c).phaseQ = [(w, k, tick)]) (hg : s.grp ⟨w, k⟩ = some g)
    (hl : s.lrOf w = some lr) (hp : placeGroup (s.spots c) (columnWords lr.part) g.width lr.nreg = none) : s.scanPhaseQ c = s := by
  unfold State.scanPhaseQ
  rw [hq, List.foldl_cons, List.foldl_nil]
  simp only [hg, hl, hp]

theorem scanPhaseQ_some {s : State} {c w k tick : Nat} {g : Group} {lr : Launch} {p : Spot} (hq : (s.core c).phaseQ = [(w, k, tick)])
    (hg : s.grp ⟨w, k⟩ = some g) (hl : s.lrOf w = some lr) (hp : placeGroup (s.spots c) (columnWords lr.part) g.width lr.nreg = some p) :
    s.scanPhaseQ c = ((s.wakeAt ⟨w, k⟩ p).updCore c (fun x => { x with phaseQ := x.phaseQ.erase (w, k, tick) })).csaIdle
      (((s.dispOf w).map Dispatch.queue).getD 0) := by
  unfold State.scanPhaseQ
  rw [hq, List.foldl_cons, List.foldl_nil]
  simp only [hg, hl, hp]

/-- A group that finds a spot is placed there (R42). -/
theorem phaseQueue_places {s : State} {c w k tick : Nat} {g : Group} {lr : Launch} {p : Spot} (hq : (s.core c).phaseQ = [(w, k, tick)])
    (hg : s.grp ⟨w, k⟩ = some g) (hl : s.lrOf w = some lr) (hp : placeGroup (s.spots c) (columnWords lr.part) g.width lr.nreg = some p) :
    ∃ z, exec (.phaseQueueScan c) s = .next z ∧ z = { s with groups := z.groups, cores := z.cores, queues := z.queues }
      ∧ z.core c = { s.core c with phaseQ := [] } ∧ (∀ d, d ≠ c → z.core d = s.core d)
      ∧ z.grp ⟨w, k⟩ = some { g with status := .running, quarter := p.quarter, row := p.row, off := p.off, base := p.base, waitBar := none, fullSave := false }
      ∧ (∀ h, h ≠ ⟨w, k⟩ → z.grp h = s.grp h)
      ∧ ∀ q, (z.queue q).map (fun k => { k with csaUsed := 0, csaBlks := 0 }) = (s.queue q).map (fun k => { k with csaUsed := 0, csaBlks := 0 }) := by
  have hcore := fun d => core_updCore (s.wakeAt ⟨w, k⟩ p) c d (fun x => { x with phaseQ := x.phaseQ.erase (w, k, tick) })
  have hgrp := fun h => grp_updGrp s ⟨w, k⟩ h (fun x => { x with
    status := .running, quarter := p.quarter, row := p.row, off := p.off, base := p.base, waitBar := none, fullSave := false })
  have he := scanPhaseQ_some hq hg hl hp
  have hy : (s.wakeAt ⟨w, k⟩ p).updCore c (fun x => { x with phaseQ := x.phaseQ.erase (w, k, tick) })
      = { s with groups := (s.wakeAt ⟨w, k⟩ p).groups
                 cores := ((s.wakeAt ⟨w, k⟩ p).updCore c (fun x => { x with phaseQ := x.phaseQ.erase (w, k, tick) })).cores } := rfl
  generalize (s.wakeAt ⟨w, k⟩ p).updCore c (fun x => { x with phaseQ := x.phaseQ.erase (w, k, tick) }) = y at hcore he hy
  obtain ⟨hr, hc⟩ := csaIdle_rest y (((s.dispOf w).map Dispatch.queue).getD 0)
  generalize y.csaIdle (((s.dispOf w).map Dispatch.queue).getD 0) = z at he hr hc
  have hzc : ∀ d, z.core d = y.core d := fun d => core_congr (congrArg State.cores hr :) d
  have hzg : ∀ h, z.grp h = (s.wakeAt ⟨w, k⟩ p).grp h := fun h => congrArg (fun m => mget m h) ((congrArg State.groups hr :).trans (congrArg State.groups hy :))
  refine ⟨z, congrArg Host.Outcome.next he, ?_, ?_, fun d hd => ?_, ?_, fun h hh => ?_, fun q => ?_⟩
  · rw [(congrArg State.groups hr :), (congrArg State.cores hr :)]
    refine hr.trans ?_
    rw [hy]
  · rw [hzc, hcore, if_pos rfl]
    show { s.core c with phaseQ := (s.core c).phaseQ.erase (w, k, tick) } = _
    rw [hq]
    simp
  · rw [hzc, hcore, if_neg (Ne.symm hd)]
    rfl
  · rw [hzg]
    exact (hgrp _).trans (by rw [if_pos rfl, hg]; rfl)
  · rw [hzg]
    exact (hgrp h).trans (if_neg (Ne.symm hh))
  · rw [hc q]
    exact congrArg (Option.map _) (congrArg (fun m => mget m q) (congrArg State.queues hy :))

-- A request (R248)

theorem mget_map_key {κ ν : Type} [DecidableEq κ] (m : Map κ ν) (f : κ → ν → ν) (k : κ) : mget (m.map (fun e => (e.1, f e.1 e.2))) k = (mget m k).map (f k) := by
  induction m with
  | nil => rfl
  | cons e m ih =>
    obtain ⟨j, v⟩ := e
    by_cases hj : j = k
    · subst hj; simp [mget]
    · simpa [mget, hj] using ih

theorem foldl_giveUpLease_rest (n : Nat) (cs : List Nat) (s : State) :
    cs.foldl (fun s c => s.giveUpLease c n) s = { s with cores := (cs.foldl (fun s c => s.giveUpLease c n) s).cores } := by
  induction cs generalizing s with
  | nil => rfl
  | cons c cs ih => rw [List.foldl_cons, ih, giveUpLease_rest]

theorem slot_updSlot (s : State) (n m : Nat) (f : Slot → Slot) (hn : n < s.slots.length) :
    (s.updSlot n f).slot m = if n = m then f (s.slot m) else s.slot m := by
  simp only [State.slot, State.updSlot_slots, List.getD_eq_getElem?_getD, lmod_getElem?]
  by_cases h : n = m
  · subst h
    rw [if_pos rfl, if_pos rfl, List.getElem?_eq_getElem hn]
    rfl
  · rw [if_neg h, if_neg h]

/-- Workgroups of the dispatches of a slot. -/
def State.wgsOfSlot (s : State) (n : Nat) : List Nat := (s.wgs.filter (fun e => ((s.disp e.2.disp).map (fun d => d.slot == n)).getD false)).map Prod.fst

theorem mem_wgsOfSlot {s : State} {n w : Nat} : w ∈ s.wgsOfSlot n ↔ ∃ e ∈ s.wgs, e.1 = w ∧ ((s.disp e.2.disp).map Dispatch.slot) = some n := by
  unfold State.wgsOfSlot
  rw [List.mem_map]
  refine exists_congr (fun e => ?_)
  rw [List.mem_filter, and_assoc, and_comm (b := e.1 = w)]
  refine and_congr_right (fun _ => and_congr_right (fun _ => ?_))
  cases s.disp e.2.disp <;> simp

/-- What a request does before the saves begin: it sets REQ in the groups of the slot, starts its cores' deadlines, and its leases go. -/
def State.requested (s : State) (n : Nat) : State :=
  (s.slotCores n).foldl (fun s c => s.giveUpLease c n)
    { s.updSlot n (fun x => { x with asked := true, deadlines := s.slotCores n }) with
      groups := s.groups.map (fun e => (e.1, if (s.wgsOfSlot n).contains e.1.wg then { e.2 with preq := true } else e.2)) }

theorem preemption_requested {s : State} {n : Nat} (hn : n < s.slots.length) (hp : (s.slot n).preempt = true) (ha : (s.slot n).asked = false) :
    let mine := fun (w : Nat) => ∃ e ∈ s.wgs, e.1 = w ∧ ((s.disp e.2.disp).map Dispatch.slot) = some n
    ∃ u : State, exec (.preemptionRequest n) s = .next (u.saveSlot n) ∧ u = { s with slots := u.slots, groups := u.groups, cores := u.cores }
      ∧ u.slot n = { s.slot n with asked := true, deadlines := s.slotCores n } ∧ (∀ m, m ≠ n → u.slot m = s.slot m)
      ∧ ∀ g x, s.grp g = some x → ∃ y, u.grp g = some y ∧ { y with preq := x.preq } = x ∧ (mine g.wg → y.preq = true) ∧ (¬ mine g.wg → y.preq = x.preq) := by
  have he : s.preemptReq n = (s.requested n).saveSlot n := by
    unfold State.preemptReq
    rw [if_neg (by simp [hp, ha])]
    rfl
  have hr := foldl_giveUpLease_rest n (s.slotCores n) { s.updSlot n (fun x => { x with asked := true, deadlines := s.slotCores n }) with
      groups := s.groups.map (fun e => (e.1, if (s.wgsOfSlot n).contains e.1.wg then { e.2 with preq := true } else e.2)) }
  have hslot := fun m => slot_updSlot s n m (fun x => { x with asked := true, deadlines := s.slotCores n }) hn
  have hgrp := mget_map_key s.groups (fun g x => if (s.wgsOfSlot n).contains g.wg then { x with preq := true } else x)
  change s.requested n = _ at hr
  generalize s.requested n = u at he hr
  have hus : ∀ m, u.slot m = _ := fun m => (congrArg (fun z : State => z.slot m) hr :).trans (hslot m)
  refine ⟨u, congrArg Host.Outcome.next he, ?_, ?_, fun m hm => ?_, fun g x hx => ?_⟩
  · rw [(congrArg State.slots hr :), (congrArg State.groups hr :), (congrArg State.cores hr :)]
    exact hr
  · rw [hus, if_pos rfl]
  · rw [hus, if_neg (Ne.symm hm)]
  · have hu : u.grp g = some (if (s.wgsOfSlot n).contains g.wg then { x with preq := true } else x) :=
      (congrArg (fun m => mget m g) (congrArg State.groups hr :)).trans ((hgrp g).trans (congrArg (Option.map _) hx))
    refine ⟨_, hu, ?_, fun hm => ?_, fun hm => ?_⟩
    · split <;> rfl
    · rw [if_pos (List.contains_iff_mem.mpr (mem_wgsOfSlot.mpr hm))]
    · rw [if_neg (fun h => hm (mem_wgsOfSlot.mp (List.contains_iff_mem.mp h)))]

-- Admission (R14, R23, R29, R241)

theorem mget_append {κ ν : Type} [DecidableEq κ] (m l : Map κ ν) (k : κ) : mget (m ++ l) k = (mget m k).or (mget l k) := by
  induction m with
  | nil => simp [mget]
  | cons e m ih =>
    obtain ⟨j, v⟩ := e
    by_cases hj : j = k <;> simp [mget, hj, ih]

theorem mget_eq_none {κ ν : Type} [DecidableEq κ] {m : Map κ ν} {k : κ} (h : ∀ e ∈ m, e.1 ≠ k) : mget m k = none := by
  cases hk : mget m k with
  | none => rfl
  | some v =>
    obtain ⟨e, he, hek⟩ := List.mem_map.mp (mem_keys_of_mget hk)
    exact absurd hek (h e he)

/-- A key all of whose entries hold one value. -/
theorem mget_eq_some {κ ν : Type} [DecidableEq κ] {m : Map κ ν} {k : κ} {v : ν} (h : (k, v) ∈ m) (hu : ∀ e ∈ m, e.1 = k → e.2 = v) : mget m k = some v := by
  induction m with
  | nil => exact absurd h List.not_mem_nil
  | cons e m ih =>
    obtain ⟨j, y⟩ := e
    by_cases hj : j = k
    · rw [mget, if_pos hj, show y = v from hu _ (List.mem_cons_self ..) hj]
    · rw [mget, if_neg hj]
      rcases List.mem_cons.mp h with he | he
      · exact absurd (congrArg Prod.fst he).symm hj
      · exact ih he (fun e he => hu e (List.mem_cons_of_mem _ he))

theorem l2Whole_only (s : State) (d line : Nat) (a : PageAttr) : MemoryOnly s (s.l2Whole d line a).1 := by
  unfold State.l2Whole
  suffices H : ∀ (ks : List Nat) (z : State × BitVec 1024), MemoryOnly s z.1 → MemoryOnly s (ks.foldl (fun (z : State × BitVec 1024) k =>
      ((z.1.l2Read d (128 * line + 32 * k) 32 a).1, z.2 ||| (lineOfBytes (z.1.l2Read d (128 * line + 32 * k) 32 a).2 <<< (256 * k)))) z).1 from
    H _ _ (.refl s)
  intro ks
  induction ks with
  | nil => exact fun _ h => h
  | cons k ks ih => exact fun z h => ih _ (h.trans (l2Read_only ..))

theorem icRead_only (s : State) (c pa n : Nat) (a : PageAttr) : MemoryOnly s (s.icRead c pa n a).1 := by
  unfold State.icRead
  dsimp only
  split
  · exact .refl s
  · refine (l2Whole_only s (c / 32) (lineOf pa) a).trans ?_
    unfold State.icFill
    dsimp only
    split
    · exact .updCore ..
    · exact (MemoryOnly.bump _).trans (.updCore ..)

theorem takeConf_only (s : State) (c : Nat) (l : Launch) : MemoryOnly s (s.takeConf c l) := by
  unfold State.takeConf
  split
  · exact .refl s
  · refine MemoryOnly.trans (.foldl _ (fun s x => ?_) _ s) (.updCore ..)
    exact (l1WriteBack_only ..).trans (l1Del_only ..)

theorem takeWindow_only (s : State) (n e : Nat) (l : Launch) : MemoryOnly s (s.takeWindow n e l) := by
  unfold State.takeWindow
  split
  · exact .refl s
  · exact .updDie ..

theorem primeLines_only (s : State) (c ctx : Nat) (l : Launch) : MemoryOnly s (s.primeLines c ctx l) :=
  .foldl _ (fun s a => Ev.Keeps.readAt (c / 32) ctx _ (fun s pa n at' => icRead_only s c pa n at') a 64 s) _ s

theorem startAcquire_only (s : State) (c : Nat) (sc : Option Nat) : MemoryOnly s (s.startAcquire c sc) := by
  unfold State.startAcquire
  split
  · exact acquire_only ..
  · exact .refl s

/-- The core and die made ready for a workgroup: configuration, bucket window, lines, the acquire of its start. -/
def State.readied (s : State) (n : Nat) (d : Dispatch) (f : Fit) : State :=
  (((s.takeConf f.core d.lr).takeWindow n (f.core / 32) d.lr).primeLines f.core d.ctx d.lr).startAcquire f.core d.acqScope

theorem readied_only (s : State) (n : Nat) (d : Dispatch) (f : Fit) : MemoryOnly s (s.readied n d f) :=
  (((takeConf_only ..).trans (takeWindow_only ..)).trans (primeLines_only ..)).trans (startAcquire_only ..)

/-- Groups and threads of a workgroup that starts. -/
def startGroups (w : Nat) (d : Dispatch) (ps : List Spot) : Map GroupId Group := ps.zipIdx.map (fun p => (⟨w, p.2⟩, newGroup d p.1))
def startThreads (w : Nat) (entry : DWord) (n : Nat) (ps : List Spot) : Map ThreadId Thread :=
  ps.zipIdx.flatMap (fun p => (List.range p.1.width).map (fun i => (⟨w, p.2, i⟩, newThread entry n)))

theorem admitWg_eq (s : State) (n : Nat) (d : Dispatch) (w cl rank : Nat) (xyz : Nat × Nat × Nat) (f : Fit) (entry : DWord) :
    s.admitWg n d w cl rank xyz f entry none = { s.readied n d f with
      wgs := (s.readied n d f).wgs ++ [(w, newWg n d xyz cl rank f none)]
      groups := (s.readied n d f).groups ++ startGroups w d f.spots
      threads := (s.readied n d f).threads ++ startThreads w entry d.lr.nreg f.spots } := rfl

theorem startGroups_get {w g : Nat} {d : Dispatch} {ps : List Spot} {k : Spot} (h : ps[g]? = some k) : mget (startGroups w d ps) ⟨w, g⟩ = some (newGroup d k) := by
  refine mget_eq_some (List.mem_map.mpr ⟨(k, g), List.mk_mem_zipIdx_iff_getElem?.mpr h, rfl⟩) (fun e he hk => ?_)
  obtain ⟨p, hp, rfl⟩ := List.mem_map.mp he
  obtain rfl : p.2 = g := (GroupId.mk.inj hk).2
  have := List.mk_mem_zipIdx_iff_getElem?.mp (show (p.1, p.2) ∈ ps.zipIdx from hp)
  rw [h] at this
  obtain rfl := Option.some.inj this
  rfl

theorem startGroups_other {w : Nat} {d : Dispatch} {ps : List Spot} {g : GroupId} (h : g.wg ≠ w) : mget (startGroups w d ps) g = none := by
  refine mget_eq_none (fun e he hk => ?_)
  obtain ⟨p, -, rfl⟩ := List.mem_map.mp he
  exact h (hk ▸ rfl)

theorem startThreads_get {w g i n : Nat} {entry : DWord} {ps : List Spot} {k : Spot} (h : ps[g]? = some k) (hi : i < k.width) :
    mget (startThreads w entry n ps) ⟨w, g, i⟩ = some (newThread entry n) := by
  refine mget_eq_some (List.mem_flatMap.mpr ⟨(k, g), List.mk_mem_zipIdx_iff_getElem?.mpr h, List.mem_map.mpr ⟨i, List.mem_range.mpr hi, rfl⟩⟩) (fun e he _ => ?_)
  obtain ⟨p, -, hp⟩ := List.mem_flatMap.mp he
  obtain ⟨j, -, rfl⟩ := List.mem_map.mp hp
  rfl

theorem startThreads_other {w n : Nat} {entry : DWord} {ps : List Spot} {t : ThreadId} (h : t.wg ≠ w) : mget (startThreads w entry n ps) t = none := by
  refine mget_eq_none (fun e he hk => ?_)
  obtain ⟨p, -, hp⟩ := List.mem_flatMap.mp he
  obtain ⟨j, -, rfl⟩ := List.mem_map.mp hp
  exact h (hk ▸ rfl)

/-- The coordinates of a cluster of one workgroup (R29, R241). -/
theorem members_one {l : Launch} (h : l.csize = 1) (n : Nat) :
    l.members n = [(n % (l.dimx / l.cx), n / (l.dimx / l.cx) % (l.dimy / l.cy), n / (l.dimx / l.cx * (l.dimy / l.cy)))] := by
  have hxy : l.cx * l.cy = 1 := Nat.eq_one_of_mul_eq_one_right h
  have hz : l.cz = 1 := Nat.eq_one_of_mul_eq_one_left h
  have hx : l.cx = 1 := Nat.eq_one_of_mul_eq_one_right hxy
  have hy : l.cy = 1 := Nat.eq_one_of_mul_eq_one_left hxy
  unfold Launch.members
  rw [h]
  simp [hx, hy, hz]

/-- A workgroup that starts alone in its cluster. -/
theorem admitCluster_one (s : State) (n : Nat) (d : Dispatch) (xyz : Nat × Nat × Nat) (f : Fit) (set : Option Nat) (entry : DWord) :
    ∃ cs, s.admitCluster n d [xyz] [f] set entry none
      = (({ s with fresh := s.fresh + 2, clusters := cs } : State).admitWg n d (s.fresh + 1) s.fresh 0 xyz f entry none).updDisp n
          (fun x => { x with live := x.live + 1 }) :=
  ⟨_, rfl⟩

/-- Where nobody else may go first, a turn admits the next workgroup of the dispatch. -/
theorem dispatch_launches {s : State} {e c p n d : Nat} {f : Fit} {set : Option Nat} {x : Dispatch} (hv : s.victimsOn e = [])
    (hb : bestTurn (s.turns e) = some (c, p, n, .launchOn d [f] set)) (hd : s.disp d = some x) (h1 : x.lr.csize = 1) :
    ∃ sl cs a, MemoryOnly { s with slots := sl, clusters := cs, fresh := s.fresh + 2 } a
      ∧ s.dispatch e = (({ a with
          wgs := a.wgs ++ [(s.fresh + 1, newWg d x (x.nextCl % (x.lr.dimx / x.lr.cx), x.nextCl / (x.lr.dimx / x.lr.cx) % (x.lr.dimy / x.lr.cy),
            x.nextCl / (x.lr.dimx / x.lr.cx * (x.lr.dimy / x.lr.cy))) s.fresh 0 f none)]
          groups := a.groups ++ startGroups (s.fresh + 1) x f.spots
          threads := a.threads ++ startThreads (s.fresh + 1) x.lr.entry x.lr.nreg f.spots } : State).updDisp d
            (fun y => { y with live := y.live + 1 })).updDisp d (fun y => { y with nextCl := y.nextCl + 1 }) := by
  have hserve : s.dispatch e = s.serve e := by
    unfold State.dispatch
    rw [hv]
    rfl
  rw [hserve]
  unfold State.serve
  rw [hb]
  dsimp only
  generalize hs' : s.updSlot n (fun x => { x with served := lmod x.served e (fun _ => s.tick) }) = s'
  have hd' : s'.disp d = some x := hs' ▸ hd
  have hfresh : s'.fresh = s.fresh := hs' ▸ rfl
  rw [hd']
  dsimp only
  rw [members_one h1]
  obtain ⟨cs, hcs⟩ := admitCluster_one s' d x (x.nextCl % (x.lr.dimx / x.lr.cx), x.nextCl / (x.lr.dimx / x.lr.cx) % (x.lr.dimy / x.lr.cy),
    x.nextCl / (x.lr.dimx / x.lr.cx * (x.lr.dimy / x.lr.cy))) f set x.lr.entry
  rw [hcs, admitWg_eq, hfresh]
  refine ⟨s'.slots, cs, _, ?_, rfl⟩
  have hr := readied_only { s' with fresh := s.fresh + 2, clusters := cs } d x f
  rwa [← hs'] at hr ⊢

/-- The next workgroup of a dispatch comes (R14, R23, R29, R241). -/
theorem turn_admits {s : State} {e c p n d : Nat} {f : Fit} {set : Option Nat} {x : Dispatch} (hv : s.victimsOn e = [])
    (hb : bestTurn (s.turns e) = some (c, p, n, .launchOn d [f] set)) (hd : s.disp d = some x) (h1 : x.lr.csize = 1)
    (hnew : ∀ w, s.fresh ≤ w → s.wg w = none ∧ (∀ t : ThreadId, t.wg = w → s.thr t = none) ∧ ∀ g : GroupId, g.wg = w → s.grp g = none) :
    let w := s.fresh + 1
    ∃ z y, exec (.dispatcherTurn e) s = .next z ∧ z.wg w = some y ∧ y.disp = d ∧ y.x = x.nextCl % (x.lr.dimx / x.lr.cx)
      ∧ y.y = x.nextCl / (x.lr.dimx / x.lr.cx) % (x.lr.dimy / x.lr.cy) ∧ y.z = x.nextCl / (x.lr.dimx / x.lr.cx * (x.lr.dimy / x.lr.cy))
      ∧ y.resident = true ∧ y.ended = false ∧ y.halt = .running ∧ 32 * y.die + y.core = f.core ∧ y.spad = [] ∧ (∀ v, v ≠ w → z.wg v = s.wg v)
      ∧ z.disp d = some { x with live := x.live + 1, nextCl := x.nextCl + 1 } ∧ (∀ k, k ≠ d → z.disp k = s.disp k)
      ∧ (∀ g k, g < x.lr.ngrp → f.spots[g]? = some k → (∃ h, z.grp ⟨w, g⟩ = some h ∧ h.width = k.width ∧ h.status = .running ∧ h.preq = false ∧ h.stage = 0
            ∧ h.sregs = [x.lr.args.setWidth 32, (x.lr.args >>> 32).setWidth 32, x.lrec.setWidth 32, (x.lrec >>> 32).setWidth 32] ++ List.replicate 28 0)
          ∧ ∀ i, i < k.width → ∃ t, z.thr ⟨w, g, i⟩ = some t ∧ t.pc = x.lr.entry ∧ t.clause = none ∧ t.regs = List.replicate x.lr.nreg 0 ∧ t.preds = 0
              ∧ t.fsr = 0 ∧ t.fcr = 0 ∧ t.sys = false ∧ t.exited = false ∧ t.wait = .none)
      ∧ (∀ t : ThreadId, t.wg ≠ w → z.thr t = s.thr t) ∧ ∀ g : GroupId, g.wg ≠ w → z.grp g = s.grp g := by
  intro w
  obtain ⟨sl, cs, a, ha, hz⟩ := dispatch_launches hv hb hd h1
  obtain ⟨hw, ht, hg⟩ := hnew w (Nat.le_succ _)
  have hwgs : a.wgs = s.wgs := ha.wgs
  have hthr : a.threads = s.threads := ha.threads
  have hgrp : a.groups = s.groups := ha.groups
  have hdisp : a.disps = s.disps := ha.disps
  rw [hwgs, hthr, hgrp] at hz
  clear ha
  have hzw : ∀ v, (s.dispatch e).wg v = (s.wg v).or (mget [(w, newWg d x (x.nextCl % (x.lr.dimx / x.lr.cx), x.nextCl / (x.lr.dimx / x.lr.cx) % (x.lr.dimy / x.lr.cy),
            x.nextCl / (x.lr.dimx / x.lr.cx * (x.lr.dimy / x.lr.cy))) s.fresh 0 f none)] v) := fun v => hz ▸ mget_append ..
  have hzt : ∀ t, (s.dispatch e).thr t = (s.thr t).or (mget (startThreads w x.lr.entry x.lr.nreg f.spots) t) := fun t => hz ▸ mget_append ..
  have hzg : ∀ g, (s.dispatch e).grp g = (s.grp g).or (mget (startGroups w x f.spots) g) := fun g => hz ▸ mget_append ..
  have hzd : ∀ k, (s.dispatch e).disp k = if d = k then (s.disp k).map (fun y => { y with live := y.live + 1, nextCl := y.nextCl + 1 }) else s.disp k := fun k => by
    rw [hz]
    refine (mget_mupd _ d k _).trans ?_
    show (if d = k then (mget (mupd a.disps d _) k).map _ else mget (mupd a.disps d _) k) = _
    rw [mget_mupd, hdisp]
    split
    · exact Option.map_map ..
    · rfl
  have hwg := hzw w
  rw [hw, Option.none_or, mget, if_pos rfl] at hwg
  generalize hz' : s.dispatch e = z at hzw hzt hzg hzd hwg
  refine ⟨z, _, congrArg Host.Outcome.next hz', hwg, rfl, rfl, rfl, rfl, rfl, rfl, rfl, Nat.div_add_mod .., rfl, fun v hv => ?_, ?_, fun k hk => ?_,
    fun g k _ hk => ⟨?_, fun i hi => ?_⟩, fun t ht' => ?_, fun g hg' => ?_⟩
  · rw [hzw, mget, if_neg (Ne.symm hv), mget, Option.or_none]
  · rw [hzd, if_pos rfl, hd]
    rfl
  · rw [hzd, if_neg (Ne.symm hk)]
  · refine ⟨newGroup x k, ?_, rfl, rfl, rfl, rfl, rfl⟩
    rw [hzg, hg _ rfl, startGroups_get hk]
    rfl
  · refine ⟨newThread x.lr.entry x.lr.nreg, ?_, rfl, rfl, rfl, rfl, rfl, rfl, rfl, rfl, rfl⟩
    rw [hzt, ht _ rfl, startThreads_get hk hi]
    rfl
  · rw [hzt, startThreads_other ht', Option.or_none]
  · rw [hzg, startGroups_other hg', Option.or_none]

-- A save by force (R249, R253)

/-- Slots, dispatches, workgroups and queue copies are the same. -/
def SameWork (s z : State) : Prop := z.slots = s.slots ∧ z.disps = s.disps ∧ z.wgs = s.wgs ∧ ∀ c, (z.core c).qcopy = (s.core c).qcopy

theorem SameWork.refl (s : State) : SameWork s s := ⟨rfl, rfl, rfl, fun _ => rfl⟩
theorem SameWork.trans {a b c : State} (h : SameWork a b) (g : SameWork b c) : SameWork a c := by
  obtain ⟨h1, h2, h3, h4⟩ := h
  obtain ⟨g1, g2, g3, g4⟩ := g
  exact ⟨g1.trans h1, g2.trans h2, g3.trans h3, fun d => (g4 d).trans (h4 d)⟩

theorem SameWork.core (s : State) (c : Nat) (f : Core → Core) (hf : ∀ x, (f x).qcopy = x.qcopy) : SameWork s (s.updCore c f) := by
  refine ⟨rfl, rfl, rfl, fun d => ?_⟩
  rw [core_updCore]
  split
  · rename_i h; subst h; exact hf _
  · rfl

theorem SameWork.foldl {α : Type} (f : State → α → State) (hf : ∀ s x, SameWork s (f s x)) (xs : List α) (s : State) : SameWork s (xs.foldl f s) := by
  induction xs generalizing s with
  | nil => exact .refl s
  | cons x xs ih => exact (hf s x).trans (ih _)

theorem sameWork_closed : L1Closed SameWork where
  refl := .refl
  trans := .trans
  dropCopy s c line := by
    unfold State.dropCopy
    split
    · exact .core _ _ _ (fun _ => rfl)
    · exact .refl s
  die _ _ _ _ := ⟨rfl, rfl, rfl, fun _ => rfl⟩
  rest _ _ _ _ _ _ _ := ⟨rfl, rfl, rfl, fun _ => rfl⟩
  core s c f hf := .core s c f (fun x => by
    have h := hf x
    unfold Core.SameUnits at h
    rw [h])

theorem SameWork.lease (s : State) (c n : Nat) : SameWork s (s.giveUpLease c n) := by
  unfold State.giveUpLease
  split
  · obtain ⟨l, k, h⟩ := leaseStep_eq (s.updCore c (fun x => { x with lease := none })) c none
    rw [h]
    refine SameWork.trans (b := s.updCore c (fun x => { x with lease := none })) (.core _ _ _ ?_) (.core _ _ _ ?_)
    · exact fun _ => rfl
    · exact fun _ => rfl
  · exact .refl s

theorem SameWork.tidy (s : State) (c : Nat) : SameWork s (s.tidyCore c) := by
  unfold State.tidyCore
  split
  · exact .refl s
  · exact .core _ _ _ (fun _ => rfl)

theorem SameWork.freeze (s : State) (g : GroupId) (st : GStatus) : SameWork s (s.freezeGroup g st) := by
  unfold State.freezeGroup
  refine SameWork.trans (b := (s.groupThreads g).foldl (fun s t => s.updThr t Thread.freeze) s) (.foldl _ (fun s t => ?_) _ s) ?_
  · exact ⟨rfl, rfl, rfl, fun _ => rfl⟩
  · exact ⟨rfl, rfl, rfl, fun _ => rfl⟩

theorem SameWork.physStore (s : State) (pa : Nat) (bs : List Byte) : SameWork s (s.physStore pa bs) := by
  unfold State.physStore
  split
  · exact .foldl _ (fun s i => sameWork_closed.toL2Closed.homeWrite ..) _ s
  · exact .refl s

theorem SameWork.csaAppend (s : State) (q : Nat) (blk : List Byte) : SameWork s (s.csaAppend q blk).1 := by
  unfold State.csaAppend
  split
  · exact .refl s
  · rename_i k _
    dsimp only
    generalize up64 (if k.csaUsed = 0 then 64 else k.csaUsed) = off
    generalize (if k.csaUsed = 0 then 0 else k.csaBlks) + 1 = n
    by_cases hfull : k.csas.toNat < off + blk.length
    · rw [if_pos hfull]
      exact .refl s
    · rw [if_neg hfull]
      refine ((SameWork.physStore s (k.csab.toNat + off) blk).trans (SameWork.physStore _ k.csab.toNat (csaHeader n (off + blk.length)))).trans ?_
      exact ⟨rfl, rfl, rfl, fun _ => rfl⟩

theorem SameWork.progStore (s : State) (c ctx : Nat) (r : CopyRun) : SameWork s (s.progStore c ctx r) := by
  have h := sameWork_closed.toL2Closed.xlate s (c / 32) ctx ((r.addr.toNat + 32) % 2 ^ 60) { w := true }
  unfold State.progStore
  generalize s.xlate (c / 32) ctx ((r.addr.toNat + 32) % 2 ^ 60) { w := true } = y at h
  obtain ⟨u, e | x⟩ := y
  · exact h
  · exact h.trans ((sameWork_closed.toL2Closed.l2Write ..).trans (sameWork_closed.dropCopy ..))

/-- The stop of a workgroup's commands changes of workgroups the schedule entries of that one alone. -/
theorem stopCommands_work (s : State) (c w : Nat) : ∃ y F, SameWork s y ∧ s.stopCommands c w = y.updWg w F := by
  refine ⟨_, _, ?_, rfl⟩
  refine SameWork.trans (SameWork.trans (b := s.dropFaults (s.engineSite c w)) ⟨rfl, rfl, rfl, fun _ => rfl⟩ (.foldl _ (fun s h => ?_) _ _))
    (.core _ _ _ (fun _ => rfl))
  split
  · split
    · exact .refl s
    · exact .progStore ..
  · exact .refl s

/-- A core without the entries of a workgroup, whose groups are saved. -/
def State.emptied (s : State) (c w : Nat) : State :=
  ((s.wgGroups w).foldl (fun s h => s.updGrp h (fun x => { x with status := .saved })) s).updCore c (fun x => { x with
    chain := x.chain.filter (fun e => e.wg != w)
    cpyq := x.cpyq.filter (fun e => e.wg != w)
    phaseQ := x.phaseQ.filter (fun e => e.1 != w) })

/-- A saved workgroup, with the entries that its core held for it. -/
def Workgroup.away (off : Nat) (mx : List MxEntry) (cp : List CpyEntry) (x : Workgroup) : Workgroup :=
  { x with resident := false, saveOff := off, mxSaved := mx, cpySaved := cp, tileNos := [], phrOffs := [] }

/-- The core gives up a workgroup whose block has been saved at `off`. -/
def State.leaveCore (s : State) (w off : Nat) (g : Workgroup) (d : Dispatch) : State :=
  (((s.emptied g.coreIx w).updWg w (Workgroup.away off (s.mxOf w) (s.cpyOf w))).updQueue d.queue (fun x => { x with
    savedWgs := x.savedWgs ++ [w] })).giveUpLease g.coreIx d.slot

/-- The channels of a cluster go into the save area with its last member. -/
def State.saveChannels (s : State) (w : Nat) (g : Workgroup) (d : Dispatch) : State × Bool :=
  if d.lr.chen && (((mget s.clusters g.cluster).map Cluster.members).getD [w]).all (fun m => ((s.wg m).map (fun x => !x.resident || x.ended)).getD true) then
    (match mget s.clusters g.cluster with
      | some cl => (match s.csaAppend d.queue (clusterBlock cl) with
        | (s, some _) => (s, true)
        | (s, none) => (s, false))
      | none => (s, true))
  else (s, true)

/-- The state in which a workgroup's block is made: its threads and commands stopped, its L1 bytes written back. -/
def State.stopWg (s : State) (w : Nat) (g : Workgroup) : State :=
  ((((s.wgGroups w).filter (fun h => !s.quiescent h)).foldl (fun s h => s.freezeGroup h .running) s).writeBackTag g.coreIx g.wslot).stopCommands g.coreIx w

theorem saveWg_eq {s : State} {w : Nat} {g : Workgroup} {d : Dispatch} (hw : s.wg w = some g) (hd : s.dispOf w = some d) :
    s.saveWg w = match (s.stopWg w g).csaAppend d.queue ((s.stopWg w g).wgBlock w 0 0) with
      | (v, none) => (v, false)
      | (v, some off) => (((v.leaveCore w off g d).saveChannels w g d).1.tidyCore g.coreIx, ((v.leaveCore w off g d).saveChannels w g d).2) := by
  unfold State.saveWg
  rw [hw, hd]
  rfl

theorem stopWg_work (s : State) (w : Nat) (g : Workgroup) : ∃ y F, SameWork s y ∧ s.stopWg w g = y.updWg w F := by
  have h1 : SameWork s (((s.wgGroups w).filter (fun h => !s.quiescent h)).foldl (fun s h => s.freezeGroup h .running) s) :=
    .foldl _ (fun s h => .freeze s h _) _ s
  have h2 := fun v : State => SameWork.foldl (fun s l => s.l1WriteBack g.coreIx l) (fun s l => sameWork_closed.l1WriteBack s g.coreIx l)
    ((v.core g.coreIx).l1.filter (fun l => l.dirty != 0 && (l.tag == g.wslot || l.tag == 63))) v
  obtain ⟨y, F, hy, he⟩ := stopCommands_work
    ((((s.wgGroups w).filter (fun h => !s.quiescent h)).foldl (fun s h => s.freezeGroup h .running) s).writeBackTag g.coreIx g.wslot) g.coreIx w
  exact ⟨y, F, (h1.trans (h2 _)).trans hy, he⟩

theorem emptied_work (s : State) (c w : Nat) : SameWork s (s.emptied c w) := by
  refine SameWork.trans (b := (s.wgGroups w).foldl (fun s h => s.updGrp h (fun x => { x with status := .saved })) s) (.foldl _ (fun s h => ?_) _ s) (.core _ _ _ ?_)
  · exact ⟨rfl, rfl, rfl, fun _ => rfl⟩
  · exact fun _ => rfl

theorem leaveCore_work (s : State) (w off : Nat) (g : Workgroup) (d : Dispatch) :
    SameWork ((s.emptied g.coreIx w).updWg w (Workgroup.away off (s.mxOf w) (s.cpyOf w))) (s.leaveCore w off g d) := by
  refine SameWork.trans ?_ (.lease ..)
  exact ⟨rfl, rfl, rfl, fun _ => rfl⟩

theorem saveChannels_work (s : State) (w : Nat) (g : Workgroup) (d : Dispatch) : SameWork s (s.saveChannels w g d).1 := by
  unfold State.saveChannels
  split
  · split
    · rename_i cl _
      have h := SameWork.csaAppend s d.queue (clusterBlock cl)
      generalize s.csaAppend d.queue (clusterBlock cl) = r at h
      obtain ⟨v, _ | off⟩ := r <;> exact h
    · exact .refl s
  · exact .refl s

/-- After a save the workgroup is resident no more; other workgroups, slots, dispatches and queue copies are as they were. -/
theorem saveWg_work {s u : State} {w : Nat} {g : Workgroup} {d : Dispatch} (hw : s.wg w = some g) (hd : s.dispOf w = some d) (h : s.saveWg w = (u, true)) :
    ∃ F : Workgroup → Workgroup, (∀ x, (F x).resident = false) ∧ u.slots = s.slots ∧ u.disps = s.disps ∧ u.wgs = mupd s.wgs w F
      ∧ ∀ c, (u.core c).qcopy = (s.core c).qcopy := by
  rw [saveWg_eq hw hd] at h
  obtain ⟨y, F, hy, hstop⟩ := stopWg_work s w g
  rw [hstop] at h
  have hc := SameWork.csaAppend (y.updWg w F) d.queue ((y.updWg w F).wgBlock w 0 0)
  generalize (y.updWg w F).csaAppend d.queue ((y.updWg w F).wgBlock w 0 0) = r at h hc
  obtain ⟨v, _ | off⟩ := r
  · exact absurd (congrArg Prod.snd h) (by simp)
  · obtain rfl := (congrArg Prod.fst h :)
    obtain ⟨e1, e2, e3, e4⟩ := hc.trans (emptied_work v g.coreIx w)
    obtain ⟨f1, f2, f3, f4⟩ := ((leaveCore_work v w off g d).trans (saveChannels_work ..)).trans (.tidy _ g.coreIx)
    obtain ⟨g1, g2, g3, g4⟩ := hy
    refine ⟨fun x => Workgroup.away off (v.mxOf w) (v.cpyOf w) (F x), fun _ => rfl, f1.trans (e1.trans g1), f2.trans (e2.trans g2), f3.trans ?_, fun c => (f4 c).trans ((e4 c).trans (g4 c))⟩
    show mupd (v.emptied g.coreIx w).wgs w _ = _
    rw [e3]
    show mupd (mupd y.wgs w F) w _ = _
    rw [mupd_mupd, g3]

/-- Entries that pass a test: none is left when the only one has been changed so that it fails. -/
theorem filter_mupd_nil {κ ν : Type} [DecidableEq κ] {m : Map κ ν} {P : ν → Bool} {F : ν → ν} {k : κ} {v : ν} (hk : mget m k = some v) (hv : P v = true)
    (hF : P (F v) = false) (h : (m.filter (fun e => P e.2)).map Prod.fst = [k]) : (mupd m k F).filter (fun e => P e.2) = [] := by
  induction m with
  | nil => exact absurd hk (by simp [mget])
  | cons e m ih =>
    obtain ⟨j, y⟩ := e
    by_cases hj : j = k
    · rw [mget, if_pos hj] at hk
      obtain rfl := Option.some.inj hk
      rw [List.filter_cons_of_pos (by exact hv), List.map_cons, List.cons.injEq, List.map_eq_nil_iff] at h
      rw [mupd, if_pos hj, List.filter_cons_of_neg (by simp [hF])]
      exact h.2
    · have hy : P y = false := by
        by_contra hy
        rw [List.filter_cons_of_pos (by simpa using hy), List.map_cons, List.cons.injEq] at h
        exact hj h.1
      rw [mget, if_neg hj] at hk
      rw [List.filter_cons_of_neg (by simp [hy])] at h
      rw [mupd, if_neg hj, List.filter_cons_of_neg (by simp [hy])]
      exact ih hk h

/-- A workgroup of a slot stands on core c. -/
def State.standsOn (s : State) (c n : Nat) (x : Workgroup) : Bool :=
  x.coreIx == c && x.resident && !x.ended && ((s.disp x.disp).map (fun d => d.slot == n)).getD false

/-- What follows the saves by force at a deadline. -/
def State.afterSaves (s : State) (c n : Nat) : State :=
  let s := match (s.slot n).queue with | some q => s.saveCopy c q | none => s
  let s := if c % 32 = 0 then ((s.disps.filter (fun e => e.2.slot == n && e.2.gfx.isSome)).map Prod.fst).foldl (fun s d => s.saveGfx d true) s else s
  if ((s.wgs.filter (fun e => s.standsOn c n e.2)).map Prod.fst).isEmpty then s.updSlot n (fun x => { x with deadlines := x.deadlines.filter (· != c) }) else s

theorem saveCopy_none {s : State} {c q : Nat} (h : mget (s.core c).qcopy q = none) : s.saveCopy c q = s := by
  unfold State.saveCopy
  rw [h]

/-- Nothing is left on a core that is no die's first, and holds no queue copy: its deadline is over. -/
theorem afterSaves_eq {s : State} {c n : Nat} (hc : c % 32 ≠ 0) (hq : ∀ q, (s.slot n).queue = some q → mget (s.core c).qcopy q = none)
    (hs : s.wgs.filter (fun e => s.standsOn c n e.2) = []) :
    s.afterSaves c n = s.updSlot n (fun x => { x with deadlines := x.deadlines.filter (· != c) }) := by
  have hcopy : (match (s.slot n).queue with | some q => s.saveCopy c q | none => s) = s := by
    cases hn : (s.slot n).queue with
    | none => rfl
    | some q => exact saveCopy_none (hq q hn)
  unfold State.afterSaves
  rw [hcopy]
  dsimp only
  rw [if_neg hc, hs]
  rfl

theorem preemptDeadline_eq {s u : State} {c n w : Nat} {g : Workgroup} (ha : (s.slot n).asked = true) (hd : c ∈ (s.slot n).deadlines)
    (hown : (s.wgs.filter (fun e => s.standsOn c n e.2)).map Prod.fst = [w]) (hw : s.wg w = some g) (hh : g.halt = .running) (hset : s.settled w = true)
    (hsave : s.saveWg w = (u, true)) : s.preemptDeadline c n = u.afterSaves c n := by
  have hlist : ((s.wgs.filter (fun e => s.standsOn c n e.2)).map Prod.fst).filter
      (fun w => ((s.wg w).map (fun g => g.halt == .running)).getD false && s.settled w) = [w] := by
    rw [hown, List.filter_cons_of_pos (by simp [hw, hh, hset]), List.filter_nil]
  have hdo : s.saveOrDie w = u := by
    unfold State.saveOrDie
    rw [hsave]
  have hfold : (((s.wgs.filter (fun e => s.standsOn c n e.2)).map Prod.fst).filter
      (fun w => ((s.wg w).map (fun g => g.halt == .running)).getD false && s.settled w)).foldl State.saveOrDie s = u := by
    rw [hlist, List.foldl_cons, List.foldl_nil, hdo]
  unfold State.preemptDeadline
  rw [if_neg (by simp [ha, hd])]
  show State.afterSaves ((((s.wgs.filter (fun e => s.standsOn c n e.2)).map Prod.fst).filter
      (fun w => ((s.wg w).map (fun g => g.halt == .running)).getD false && s.settled w)).foldl State.saveOrDie s) c n = _
  rw [hfold]

/-- When the deadline of a core expires, the workgroup there is saved by force (R249). -/
theorem deadline_saves {s u : State} {c n w : Nat} {g : Workgroup} {d : Dispatch} (hc : c % 32 ≠ 0) (hn : n < s.slots.length)
    (ha : (s.slot n).asked = true) (hd : c ∈ (s.slot n).deadlines) (hown : (s.wgs.filter (fun e => s.standsOn c n e.2)).map Prod.fst = [w])
    (hw : s.wg w = some g) (hg : g.coreIx = c) (hres : g.resident = true) (hend : g.ended = false) (hh : g.halt = .running)
    (hdisp : s.dispOf w = some d) (hslot : d.slot = n) (hset : s.settled w = true)
    (hq : ∀ q, (s.slot n).queue = some q → mget (s.core c).qcopy q = none) (hsave : s.saveWg w = (u, true)) :
    ∃ z y, exec (.preemptionDeadline c n) s = .next z ∧ z = { u with slots := z.slots } ∧ z.wg w = some y ∧ y.resident = false
      ∧ z.slot n = { u.slot n with deadlines := (u.slot n).deadlines.filter (fun k => decide (k ≠ c)) } ∧ ∀ m, m ≠ n → z.slot m = u.slot m := by
  obtain ⟨F, hF, hslots, hdisps, hwgs, hqc⟩ := saveWg_work hw hdisp hsave
  have hstands : ∀ x, u.standsOn c n x = s.standsOn c n x := fun x => by simp only [State.standsOn, State.disp, hdisps]
  have hgd : s.disp g.disp = some d := by
    rw [State.dispOf, hw] at hdisp
    exact hdisp
  have hempty : u.wgs.filter (fun e => u.standsOn c n e.2) = [] := by
    simp only [hstands, hwgs]
    refine filter_mupd_nil hw ?_ ?_ hown
    · simp [State.standsOn, hg, hres, hend, hgd, hslot]
    · simp [State.standsOn, hF]
  have hun : ∀ m, u.slot m = s.slot m := fun m => congrArg (fun l => l.getD m Slot.reset) hslots
  have he := preemptDeadline_eq ha hd hown hw hh hset hsave
  rw [afterSaves_eq hc (fun q h => (congrArg (fun l => mget l q) (hqc c)).trans (hq q (hun n ▸ h))) hempty] at he
  have hsl := fun m => slot_updSlot u n m (fun x => { x with deadlines := x.deadlines.filter (· != c) }) (hslots ▸ hn)
  refine ⟨_, F g, congrArg Host.Outcome.next he, rfl, ?_, hF g, ?_, fun m hm => ?_⟩
  · show mget u.wgs w = _
    rw [hwgs, mget_mupd_self, show mget s.wgs w = some g from hw]
    rfl
  · rw [hsl, if_pos rfl]
    congr 2
    funext k
    by_cases hk : k = c <;> simp [hk]
  · rw [hsl, if_neg (Ne.symm hm)]

/-- Settles O46: workgroups are admitted, asked for and saved, and the groups of the phase queue placed. -/
theorem workgroupsComeAndGo : Obligations.WorkgroupsComeAndGo := by
  intro s _
  refine ⟨fun e c p n d x f set _ hv hb hd h1 _ _ hnew => turn_admits hv hb hd h1 hnew, fun n hn hp ha => preemption_requested hn hp ha,
    fun c n w g d u hc hn ha hd hown hw hg hres hend hh hdisp hslot hset hq hsave =>
      deadline_saves hc hn ha hd hown hw hg hres hend hh hdisp hslot hset hq hsave, fun c w k tick g lr hq hg hl => ⟨fun hp => ?_, fun p hp => phaseQueue_places hq hg hl hp⟩⟩
  exact congrArg Host.Outcome.next (scanPhaseQ_none hq hg hl hp)

end Sys2Proof.Machine
end

section
/-! The canonical form of every memory, and the number of dies, is an invariant (R59, R69). Each function of the model that takes a state to a state has
one rule here, `<function>_canonical`, proved along the function's own branches from the rules of the functions that it calls; memory itself is changed
only by `Mem.wr`, `Mem.wrN`, `Mem.ofBytes` and by leaving bytes out, which keep the form. -/
namespace Sys2Proof.Machine
-- These rules are many and short: elaborated side by side, each on a thread of its own, they need more memory than the check gives.
set_option Elab.async false
-- The names that tactics give the variables no proof speaks of: plain ones, which take less memory than marked ones.
set_option tactic.hygienic false

/-- A workgroup whose scratchpad and tiles are in canonical form. -/
def Workgroup.Tidy (x : Workgroup) : Prop := x.spad.wf = true ∧ ∀ t ∈ x.tiles, t.wf = true

/-- A dispatch whose saved bucket memory, if it has any, is in canonical form. -/
def Dispatch.Tidy (x : Dispatch) : Prop := ∀ g, x.gfx = some g → ∀ b ∈ g.bks, b.1.wf = true

/-- `Canonical` as a statement about the four parts of a state that hold memory: a change of any other part leaves it as it is (`of_canon`). -/
def Canon (m : Mem) (ws : Map Nat Workgroup) (ds : List Die) (ps : Map Nat Dispatch) : Prop :=
  m.wf = true ∧ (∀ e ∈ ws, e.2.Tidy) ∧ (∀ d ∈ ds, d.bk.wf = true) ∧ (∀ e ∈ ps, e.2.Tidy) ∧ ds.length = 4

theorem canonical_iff (s : State) : Canonical s ↔ Canon s.mem s.wgs s.dies s.disps := Iff.rfl

theorem forall_mem_mupd {κ ν : Type} [DecidableEq κ] {P : ν → Prop} {m : Map κ ν} (h : ∀ e ∈ m, P e.2) (k : κ) {f : ν → ν} (hf : ∀ x, P x → P (f x)) :
    ∀ e ∈ mupd m k f, P e.2 := by
  induction m with
  | nil => exact h
  | cons y m ih =>
    obtain ⟨j, v⟩ := y
    obtain ⟨hv, hm⟩ := List.forall_mem_cons.mp h
    unfold mupd
    split
    · exact List.forall_mem_cons.mpr ⟨hf _ hv, hm⟩
    · exact List.forall_mem_cons.mpr ⟨hv, ih hm⟩

theorem forall_mem_lmod {α : Type} {P : α → Prop} {l : List α} (h : ∀ x ∈ l, P x) (k : Nat) {f : α → α} (hf : ∀ x, P x → P (f x)) :
    ∀ x ∈ lmod l k f, P x := by
  induction l generalizing k with
  | nil => exact h
  | cons y l ih =>
    obtain ⟨hy, hl⟩ := List.forall_mem_cons.mp h
    cases k with
    | zero => exact List.forall_mem_cons.mpr ⟨hf _ hy, hl⟩
    | succ k => exact List.forall_mem_cons.mpr ⟨hy, ih hl k⟩

theorem updWg_canonical {s : State} (h : Canonical s) {w : Nat} {f : Workgroup → Workgroup}
    (hf : ∀ x, x.Tidy → (f x).Tidy := by exact fun _a hx => hx) : Canonical (s.updWg w f) := by
  obtain ⟨hm, hw, hd⟩ := h
  exact ⟨hm, forall_mem_mupd (P := Workgroup.Tidy) hw w hf, hd⟩

theorem updDisp_canonical {s : State} (h : Canonical s) {d : Nat} {f : Dispatch → Dispatch}
    (hf : ∀ x, x.Tidy → (f x).Tidy := by exact fun _a hx => hx) : Canonical (s.updDisp d f) := by
  obtain ⟨hm, hw, hd, hp, hl⟩ := h
  exact ⟨hm, hw, hd, forall_mem_mupd (P := Dispatch.Tidy) hp d hf, hl⟩

theorem updDie_canonical {s : State} (h : Canonical s) {d : Nat} {f : Die → Die}
    (hf : ∀ x, x.bk.wf = true → (f x).bk.wf = true := by exact fun _a hx => hx) : Canonical (s.updDie d f) := by
  obtain ⟨hm, hw, hd, hp, hl⟩ := h
  exact ⟨hm, hw, forall_mem_lmod (P := fun d : Die => d.bk.wf = true) hd d hf, hp, (lmod_length ..).trans hl⟩

/-- The general rule for graphics work; `updGfx_canonical` is the rule for a change that leaves the saved bucket memory alone. -/
theorem updGfx_wf_canonical {s : State} (h : Canonical s) {d : Nat} {f : Gfx → Gfx}
    (hf : ∀ x, (∀ b ∈ x.bks, b.1.wf = true) → ∀ b ∈ (f x).bks, b.1.wf = true) : Canonical (s.updGfx d f) := by
  refine updDisp_canonical h (fun x hx g hg => ?_)
  obtain ⟨y, hy, rfl⟩ := Option.map_eq_some_iff.mp hg
  exact hf y (hx y hy)

theorem updGfx_canonical {s : State} (h : Canonical s) {d : Nat} {f : Gfx → Gfx}
    (hf : ∀ x, (f x).bks = x.bks := by exact fun _a => rfl) : Canonical (s.updGfx d f) :=
  updGfx_wf_canonical h (fun x hx => (hf x).symm ▸ hx)

theorem wf_filter {m : Mem} (h : m.wf = true) (p) : Mem.wf (m.filter p) = true := by
  induction m with
  | nil => exact h
  | cons e m ih =>
    obtain ⟨hb, ha, hm⟩ := (wf_cons e.1 e.2 m).mp h
    rw [List.filter_cons]
    split
    · exact (wf_cons e.1 e.2 _).mpr ⟨hb, fun x hx => ha x (List.mem_of_mem_filter hx), ih hm⟩
    · exact ih hm

theorem of_canon {s : State} (h : Canon s.mem s.wgs s.dies s.disps) : Canonical s := h

theorem canon_wrN {m ws ds ps} (h : Canon m ws ds ps) {a bs} : Canon (m.wrN a bs) ws ds ps := ⟨wf_wrN h.1 a bs, h.2⟩

theorem canon_wr {m ws ds ps} (h : Canon m ws ds ps) {a b} : Canon (m.wr a b) ws ds ps := ⟨wf_wr h.1 a b, h.2⟩

theorem wrN_canonical {s : State} (h : Canonical s) {a bs} : Canonical { s with mem := s.mem.wrN a bs } := canon_wrN h

theorem setIssue_canonical {s : State} (h : Canonical s) {i} : Canonical { s with issue := i } := h

theorem canon_wgs_filter {m ws ds ps} (h : Canon m ws ds ps) {p} : Canon m (ws.filter p) ds ps := by
  obtain ⟨hm, hw, hd⟩ := h
  exact ⟨hm, fun e he => hw e (List.mem_of_mem_filter he), hd⟩

theorem canon_disps_filter {m ws ds ps} (h : Canon m ws ds ps) {p} : Canon m ws ds (ps.filter p) := by
  obtain ⟨hm, hw, hd, hp, hl⟩ := h
  exact ⟨hm, hw, hd, fun e he => hp e (List.mem_of_mem_filter he), hl⟩

theorem canon_disps_mdel {m ws ds ps} (h : Canon m ws ds ps) {k} : Canon m ws ds (mdel ps k) := canon_disps_filter h

theorem canon_dies_map {m ws ds ps} (h : Canon m ws ds ps) {f : Die → Die}
    (hf : ∀ x, x.bk.wf = true → (f x).bk.wf = true := by exact fun _a hx => hx) : Canon m ws (ds.map f) ps := by
  obtain ⟨hm, hw, hd, hp, hl⟩ := h
  exact ⟨hm, hw, List.forall_mem_map.mpr (fun d hd' => hf d (hd d hd')), hp, (List.length_map _).trans hl⟩

theorem foldl_canonical {α : Type} {f : State → α → State} (hf : ∀ s x, Canonical s → Canonical (f s x)) {xs : List α} {s : State} (h : Canonical s) :
    Canonical (xs.foldl f s) := by
  induction xs generalizing s with
  | nil => exact h
  | cons x xs ih => exact ih (hf s x h)

theorem foldl_fst_canonical {α β : Type} {f : State × β → α → State × β} (hf : ∀ z x, Canonical z.1 → Canonical (f z x).1) {xs : List α}
    {z : State × β}
    (h : Canonical z.1) : Canonical (xs.foldl f z).1 := by
  induction xs generalizing z with
  | nil => exact h
  | cons x xs ih => exact ih (hf z x h)

theorem if_canonical {p : Prop} [Decidable p] {a b : State} (ha : Canonical a) (hb : Canonical b) : Canonical (if p then a else b) := by
  split
  · exact ha
  · exact hb

theorem fstIf_canonical {α : Type} {p : Prop} [Decidable p] {a b : State × α} (ha : Canonical a.1) (hb : Canonical b.1) :
    Canonical (if p then a else b).1 := by
  split
  · exact ha
  · exact hb

theorem fst_canonical {α : Type} {z : State × α} {u : State} {a : α} (e : z = (u, a)) (h : Canonical z.1) : Canonical u := by
  subst e
  exact h

/-- Whatever the computation answers, the state after it is canonical. -/
abbrev Ev.KeepsCanonical {α : Type} (x : Ev α) : Prop := ∀ s, Canonical s → Canonical (x s).1

/-- Every read is such a computation. -/
abbrev Rd.KeepsCanonical (r : Rd) : Prop := ∀ va n, (r va n).KeepsCanonical

theorem and_canonical {α β : Type} {x : Ev α} {f : α → Ev β} (hx : x.KeepsCanonical) (hf : ∀ a, (f a).KeepsCanonical) : (x.and f).KeepsCanonical := by
  unfold Ev.and; grind

theorem ite_canonical {α : Type} {p : Prop} [Decidable p] {x y : Ev α} (hx : x.KeepsCanonical) (hy : y.KeepsCanonical) :
    (if p then x else y).KeepsCanonical := by
  split
  · exact hx
  · exact hy

theorem evFoldl_canonical {α β : Type} {f : β → α → Ev β} (hf : ∀ b a, (f b a).KeepsCanonical) {xs : List α} {b : β} :
    (Ev.foldl f b xs).KeepsCanonical := by
  induction xs generalizing b with
  | nil => exact fun s h => h
  | cons x xs ih => exact and_canonical (hf b x) (fun _a => ih)

theorem evList_canonical {α β : Type} {f : α → Ev β} (hf : ∀ a, (f a).KeepsCanonical) {xs : List α} : (Ev.list f xs).KeepsCanonical :=
  evFoldl_canonical (fun _a a => and_canonical (hf a) (fun _a _b h => h))

theorem goOn_canonical {σ : Type} {next : σ → Option (Ev σ)} (hn : ∀ x f, next x = some f → f.KeepsCanonical) {n : Nat} {x : σ} {s : State}
    (h : Canonical s) : Canonical (goOn next n x s).1 := by
  induction n generalizing x s with
  | zero => exact h
  | succ n ih => unfold goOn; grind [canonical_iff]

theorem rdRun_canonical {r : Rd} (hr : r.KeepsCanonical) {fuel va n : Nat} : (rdRun r fuel va n).KeepsCanonical := by
  induction fuel generalizing va n with
  | zero => exact fun s h => h
  | succ fuel ih => unfold rdRun; grind [and_canonical, Ev.ret]

-- Operations on threads, groups and units

theorem updThr_canonical {s : State} (h : Canonical s) {t f} : Canonical (s.updThr t f) := by
  unfold State.updThr
  exact h

theorem updGrp_canonical {s : State} (h : Canonical s) {g f} : Canonical (s.updGrp g f) := by
  unfold State.updGrp
  exact h

theorem updCore_canonical {s : State} (h : Canonical s) {c f} : Canonical (s.updCore c f) := by
  unfold State.updCore
  exact h

theorem updQueue_canonical {s : State} (h : Canonical s) {q f} : Canonical (s.updQueue q f) := by
  unfold State.updQueue
  exact h

theorem updSlot_canonical {s : State} (h : Canonical s) {n f} : Canonical (s.updSlot n f) := by
  unfold State.updSlot
  exact h

theorem bump_canonical {s : State} (h : Canonical s) : Canonical s.bump := by
  unfold State.bump
  exact h

theorem addAcc_canonical {s : State} (h : Canonical s) {a} : Canonical (s.addAcc a) := by
  unfold State.addAcc
  exact foldl_canonical (fun _a _b hs => updThr_canonical hs) (bump_canonical h)

theorem applyFx_canonical {s : State} (h : Canonical s) {t e} : Canonical (s.applyFx t e) := by
  unfold State.applyFx
  dsimp only
  split
  · exact updThr_canonical
      (foldl_canonical (fun _a _b hs => addAcc_canonical hs) (if_canonical (updThr_canonical h) (updGrp_canonical (updThr_canonical h))))
  · exact updThr_canonical
      (foldl_canonical (fun _a _b hs => addAcc_canonical hs) (if_canonical (updThr_canonical h) (updGrp_canonical (updThr_canonical h))))

theorem broadcast_canonical {s : State} (h : Canonical s) {g} : Canonical (s.broadcast g) := by
  unfold State.broadcast
  exact updGrp_canonical (bump_canonical h)

theorem haltWg_canonical {s : State} (h : Canonical s) {w ts} : Canonical (s.haltWg w ts) := by
  unfold State.haltWg
  split
  · exact h
  · split
    · exact if_canonical
        (foldl_canonical (fun _a _b hs => broadcast_canonical hs) (updWg_canonical h))
        (foldl_canonical (fun _a _b hs => updThr_canonical hs) (foldl_canonical (fun _a _b hs => broadcast_canonical hs) (updWg_canonical h)))
    · exact if_canonical h (updWg_canonical h)
    · exact h

theorem doubleFault_canonical {s : State} (h : Canonical s) {t} : Canonical (s.doubleFault t) := by
  unfold State.doubleFault
  exact updGrp_canonical (updWg_canonical h)

theorem takeTraps_canonical {s : State} (h : Canonical s) {issue fails epc} : Canonical (s.takeTraps issue fails epc) := by
  unfold State.takeTraps
  exact foldl_canonical (fun _a _b hs => doubleFault_canonical hs)
    (foldl_canonical (fun _a _b hs => haltWg_canonical hs)
      (foldl_canonical (fun _a _b hs => updThr_canonical hs) (foldl_canonical (fun _a _b hs => updThr_canonical hs) h)))

theorem uncountAll_canonical {s : State} (h : Canonical s) {ts flag} : Canonical (s.uncountAll ts flag) := by
  unfold State.uncountAll
  exact foldl_canonical (fun _a _b hs => updThr_canonical hs) h

theorem dropFaults_canonical {s : State} (h : Canonical s) {p} : Canonical (s.dropFaults p) := by
  unfold State.dropFaults
  exact h

theorem leaseStep_canonical {s : State} (h : Canonical s) {c doneSlot} : Canonical (s.leaseStep c doneSlot) := by
  unfold State.leaseStep
  refine if_canonical ?_ (updCore_canonical h)
  split
  · exact updCore_canonical h
  · refine if_canonical ?_ (updCore_canonical h)
    dsimp only
    split
    · exact updCore_canonical h
    · exact updCore_canonical h

theorem giveUpLease_canonical {s : State} (h : Canonical s) {c slot} : Canonical (s.giveUpLease c slot) := by
  unfold State.giveUpLease
  exact if_canonical (leaseStep_canonical (updCore_canonical h)) h

theorem discardEngines_canonical {s : State} (h : Canonical s) {w} : Canonical (s.discardEngines w) := by
  unfold State.discardEngines
  exact if_canonical
    (leaseStep_canonical
      (updWg_canonical
        (updCore_canonical
          (bump_canonical
            (foldl_canonical (fun _a _b hs => uncountAll_canonical hs)
              (foldl_canonical (fun _a _b hs => uncountAll_canonical hs) (dropFaults_canonical h)))))))
    (updWg_canonical
      (updCore_canonical
        (bump_canonical
          (foldl_canonical (fun _a _b hs => uncountAll_canonical hs)
            (foldl_canonical (fun _a _b hs => uncountAll_canonical hs) (dropFaults_canonical h))))))

theorem endHalt_canonical {s : State} (h : Canonical s) {w} : Canonical (s.endHalt w) := by
  unfold State.endHalt
  exact updWg_canonical (discardEngines_canonical h)

theorem leaveHandler_canonical {s : State} (h : Canonical s) {w} : Canonical (s.leaveHandler w) := by
  unfold State.leaveHandler
  split
  · exact h
  · exact h
  · exact if_canonical h (endHalt_canonical h)
  · exact h

theorem eretThread_canonical {s : State} (h : Canonical s) {t} : Canonical (s.eretThread t) := by
  unfold State.eretThread
  exact if_canonical (updWg_canonical (updThr_canonical h)) (leaveHandler_canonical (updThr_canonical h))

theorem raiseDasr_canonical {s : State} (h : Canonical s) {d b} : Canonical (s.raiseDasr d b) := by
  unfold State.raiseDasr
  refine updDie_canonical h ?_
  intro x hs
  grind

-- Caches, memory and translation

theorem dropCopy_canonical {s : State} (h : Canonical s) {core line} : Canonical (s.dropCopy core line) := by
  unfold State.dropCopy
  exact if_canonical (updCore_canonical h) h

theorem deliverInv_canonical {s : State} (h : Canonical s) {d line} : Canonical (s.deliverInv d line) := by
  unfold State.deliverInv
  exact foldl_canonical (fun _a _b hs => dropCopy_canonical hs) h

theorem invalCopies_canonical {s : State} (h : Canonical s) {d line keep} : Canonical (s.invalCopies d line keep) := by
  unfold State.invalCopies
  dsimp only
  split
  · exact of_canon (foldl_canonical (fun _a _b hs => dropCopy_canonical hs) h)
  · refine updDie_canonical (foldl_canonical (fun _a _b hs => if_canonical (dropCopy_canonical hs) hs) ?_) ?_
    · exact of_canon (foldl_canonical (fun _a _b hs => dropCopy_canonical hs) h)
    · intro x hs
      assumption

theorem homeWrite_canonical {s : State} (h : Canonical s) {pa bs d keep} : Canonical (s.homeWrite pa bs d keep) := by
  unfold State.homeWrite
  dsimp only
  split
  · exact canon_wrN (foldl_canonical (fun _a _b hs => if_canonical (invalCopies_canonical hs) hs) h)
  · exact canon_wrN h

theorem dirTouch_canonical {s : State} (h : Canonical s) {d pa write} : Canonical (s.dirTouch d pa write) := by
  unfold State.dirTouch
  split
  · exact h
  · dsimp only
    split
    · split
      · refine updDie_canonical (foldl_canonical (fun _a _b hs => if_canonical hs (invalCopies_canonical hs)) h) ?_
        intro x hs
        grind
      · refine updDie_canonical (foldl_canonical (fun _a _b hs => if_canonical hs (invalCopies_canonical hs)) h) ?_
        intro x hs
        grind
    · split
      · split
        · refine updDie_canonical h ?_
          intro x hs
          grind
        · exact h
      · refine updDie_canonical h ?_
        intro x hs
        grind

theorem maskedWrite_canonical {s : State} (h : Canonical s) {wr : State → Nat → List Byte → State} (hwr : ∀ s a b, Canonical s → Canonical
    (wr s a b)) {line data m} :
    Canonical (State.maskedWrite wr s line data m) := by
  unfold State.maskedWrite
  exact foldl_canonical (fun _a _b hs => if_canonical (hwr _ _ _ hs) hs) h

theorem l2WriteBack_canonical {s : State} (h : Canonical s) {d line m} : Canonical (s.l2WriteBack d line m) := by
  unfold State.l2WriteBack
  split
  · exact h
  · refine updDie_canonical (maskedWrite_canonical h (fun _a _b _c hs => homeWrite_canonical hs)) ?_
    intro x hs
    grind

theorem evict_canonical {s : State} (h : Canonical s) {d line} : Canonical (s.evict d line) := by
  unfold State.evict
  refine if_canonical h (updDie_canonical (l2WriteBack_canonical (updDie_canonical ?_ ?_)) ?_)
  · exact of_canon h
  · intro x hs
    assumption
  · intro x hs
    assumption

theorem l2Room_canonical {s : State} (h : Canonical s) {d line} : Canonical (s.l2Room d line) := by
  unfold State.l2Room
  exact if_canonical h (if_canonical h (evict_canonical (bump_canonical h)))

theorem scramble_canonical {s : State} (h : Canonical s) {line} : Canonical (s.scramble line) := by
  unfold State.scramble
  exact bump_canonical (wrN_canonical (foldl_canonical (fun _a _b hs => updDie_canonical hs) h))

theorem meetKinds_canonical {s : State} (h : Canonical s) {pa a} : Canonical (s.meetKinds pa a) := by
  unfold State.meetKinds
  refine if_canonical h ?_
  dsimp only
  split
  · refine scramble_canonical ?_
    exact of_canon h
  · exact of_canon h

theorem l2Fill_canonical {s : State} (h : Canonical s) {d pa rg} : Canonical (s.l2Fill d pa rg) := by
  unfold State.l2Fill
  refine if_canonical (l2Room_canonical h) (updDie_canonical (l2Room_canonical h) ?_)
  intro x hs
  grind

theorem l2Read_canonical {s : State} (h : Canonical s) {d pa n a} : Canonical (s.l2Read d pa n a).1 := by
  unfold State.l2Read
  exact fstIf_canonical (l2Fill_canonical (meetKinds_canonical h)) (if_canonical (dirTouch_canonical (meetKinds_canonical h)) (meetKinds_canonical h))

theorem l2Write_canonical {s : State} (h : Canonical s) {d pa a bs keep} : Canonical (s.l2Write d pa a bs keep) := by
  unfold State.l2Write
  dsimp only
  split
  · refine updDie_canonical (invalCopies_canonical ?_) ?_
    · exact canon_wrN (meetKinds_canonical h)
    · intro x hs
      assumption
  · refine if_canonical
      (updDie_canonical (l2Room_canonical (invalCopies_canonical (meetKinds_canonical h))) ?_)
      (homeWrite_canonical (if_canonical (dirTouch_canonical (meetKinds_canonical h)) (meetKinds_canonical h)))
    intro x hs
    assumption

theorem l2Drop_canonical {s : State} (h : Canonical s) {d line} : Canonical (s.l2Drop d line) := by
  unfold State.l2Drop
  refine updDie_canonical (l2WriteBack_canonical (invalCopies_canonical h)) ?_
  intro x hs
  grind

theorem l1Put_canonical {s : State} (h : Canonical s) {c l} : Canonical (s.l1Put c l) := by
  unfold State.l1Put
  exact updCore_canonical h

theorem l1Del_canonical {s : State} (h : Canonical s) {c line} : Canonical (s.l1Del c line) := by
  unfold State.l1Del
  exact updCore_canonical h

theorem l1WriteBack_canonical {s : State} (h : Canonical s) {c l} : Canonical (s.l1WriteBack c l) := by
  unfold State.l1WriteBack
  refine if_canonical h ?_
  dsimp only
  split
  · exact maskedWrite_canonical h (fun _a _b _c hs => l2Write_canonical hs)
  · exact l1Put_canonical (maskedWrite_canonical h (fun _a _b _c hs => l2Write_canonical hs))

theorem l1Pass_canonical {s : State} (h : Canonical s) {c line k} : Canonical (s.l1Pass c line k).1 := by
  induction k generalizing s with
  | zero => exact bump_canonical h
  | succ k ih =>
    unfold State.l1Pass
    dsimp only
    split
    · exact ih (l1Put_canonical (bump_canonical h))
    · exact bump_canonical h

theorem l1Way_canonical {s : State} (h : Canonical s) {c line} : Canonical (s.l1Way c line).1 := by
  unfold State.l1Way
  split
  · exact h
  · dsimp only
    split
    · split
      · exact h
      · exact l1Pass_canonical h
    · refine l1Del_canonical (l1WriteBack_canonical ?_)
      split
      · exact h
      · exact l1Pass_canonical h

theorem l1Alloc_canonical {s : State} (h : Canonical s) {c line a ch} : Canonical (s.l1Alloc c line a ch).1 := by
  unfold State.l1Alloc
  split
  · exact h
  · exact l1Way_canonical h

theorem l1Refresh_canonical {s : State} (h : Canonical s) {c pa bs} : Canonical (s.l1Refresh c pa bs) := by
  unfold State.l1Refresh
  split
  · exact h
  · exact l1Put_canonical h

theorem bypassRead_canonical {s : State} (h : Canonical s) {c pa n a} : Canonical (s.bypassRead c pa n a).1 := by
  unfold State.bypassRead
  exact l1Refresh_canonical (l2Read_canonical h)

theorem l1Read_canonical {s : State} (h : Canonical s) {c pa n a ch} : Canonical (s.l1Read c pa n a ch).1 := by
  unfold State.l1Read
  exact fstIf_canonical (bypassRead_canonical h)
    (fstIf_canonical (l1Put_canonical (l1Alloc_canonical h)) (l1Put_canonical (l2Read_canonical (l1Alloc_canonical h))))

theorem l1Update_canonical {s : State} (h : Canonical s) {c pa bs} : Canonical (s.l1Update c pa bs) := by
  unfold State.l1Update
  split
  · exact h
  · exact l1Put_canonical h

theorem bypassWrite_canonical {s : State} (h : Canonical s) {c pa a bs keep} : Canonical (s.bypassWrite c pa a bs keep) := by
  unfold State.bypassWrite
  exact l1Update_canonical (l2Write_canonical h)

theorem l1Write_canonical {s : State} (h : Canonical s) {c tag pa a ch bs} : Canonical (s.l1Write c tag pa a ch bs) := by
  unfold State.l1Write
  exact if_canonical (bypassWrite_canonical h) (l1Put_canonical (l1Alloc_canonical h))

theorem writeBackTag_canonical {s : State} (h : Canonical s) {c tag} : Canonical (s.writeBackTag c tag) := by
  unfold State.writeBackTag
  exact foldl_canonical (fun _a _b hs => l1WriteBack_canonical hs) h

theorem release_canonical {s : State} (h : Canonical s) {c tag sc} : Canonical (s.release c tag sc) := by
  unfold State.release
  exact if_canonical (writeBackTag_canonical h) h

theorem releaseTags_canonical {s : State} (h : Canonical s) {c tags sc} : Canonical (s.releaseTags c tags sc) := by
  unfold State.releaseTags
  exact foldl_canonical (fun _a _b hs => release_canonical hs) h

theorem acquire_canonical {s : State} (h : Canonical s) {c sc} : Canonical (s.acquire c sc) := by
  unfold State.acquire
  refine if_canonical (if_canonical (updDie_canonical (updCore_canonical h) ?_) (updCore_canonical h)) h
  intro x hs
  grind

theorem walkTo_canonical {s : State} (h : Canonical s) {d ctx va nd} : Canonical (s.walkTo d ctx va nd).1 := by
  unfold State.walkTo
  dsimp only
  split
  · exact bump_canonical h
  · split
    · exact bump_canonical h
    · split
      · refine updDie_canonical (bump_canonical h) ?_
        intro x hs
        assumption
      · refine updDie_canonical (bump_canonical h) ?_
        intro x hs
        assumption

theorem meetSector_canonical {s : State} (h : Canonical s) {va nd x} : Canonical (s.meetSector va nd x).1 := by
  unfold State.meetSector
  exact fstIf_canonical h (fstIf_canonical h h)

theorem meet_canonical {r : State × Except XFault Xl} (h : Canonical r.1) {va nd} : Canonical (State.meet r va nd).1 := by
  unfold State.meet
  split
  · exact meetSector_canonical h
  · exact h

theorem xlate_canonical {s : State} (h : Canonical s) {d ctx va nd} : Canonical (s.xlate d ctx va nd).1 := by
  unfold State.xlate
  exact meet_canonical (walkTo_canonical h)

theorem spadWrite_canonical {s : State} (h : Canonical s) {w off bs} : Canonical (s.spadWrite w off bs) := by
  unfold State.spadWrite
  exact updWg_canonical h (fun _a hx => ⟨wf_wrN hx.1 _ _, hx.2⟩)

theorem bkWrite_canonical {s : State} (h : Canonical s) {d off bs} : Canonical (s.bkWrite d off bs) := by
  unfold State.bkWrite
  refine updDie_canonical h ?_
  intro x hs
  grind [Workgroup.Tidy, wf_wrN]

theorem physWrite_canonical {s : State} (h : Canonical s) {pa bs} : Canonical (s.physWrite pa bs) := by
  unfold State.physWrite
  exact foldl_canonical (fun _a _b hs => homeWrite_canonical hs) h

-- Computations that read

theorem evRet_canonical {α : Type} {a : α} : (Ev.ret a).KeepsCanonical := by
  unfold Ev.ret
  exact fun _a h => h

theorem evFail_canonical {α : Type} {e : XErr} : (Ev.fail (α := α) e).KeepsCanonical := by
  unfold Ev.fail
  exact fun _a h => h

theorem evNeed_canonical {c addr} : (Ev.need c addr).KeepsCanonical := by
  unfold Ev.need
  exact ite_canonical evRet_canonical evFail_canonical

theorem rdBytes_canonical {r : Rd} (hr : r.KeepsCanonical) {va n} : (rdBytes r va n).KeepsCanonical := by
  unfold rdBytes
  exact rdRun_canonical hr

theorem readAt_canonical {lvl : State → Nat → Nat → PageAttr → State × List Byte} (hlvl : ∀ s a n t, Canonical s → Canonical (lvl s a n t).1)
    {d ctx nd a b} :
    (readAt d ctx nd lvl a b).KeepsCanonical := by
  unfold readAt
  refine fun _a h => fstIf_canonical h ?_
  split
  · next hu => exact fst_canonical hu (xlate_canonical h)
  · next hu => exact hlvl _ _ _ _ (fst_canonical hu (xlate_canonical h))

theorem engRead_canonical {d ctx a b} : (engRead d ctx a b).KeepsCanonical := by
  unfold engRead
  exact readAt_canonical (fun _a _b _c _d hs => l2Read_canonical hs)

theorem coreRead_canonical {c ctx ch a b} : (coreRead c ctx ch a b).KeepsCanonical := by
  unfold coreRead
  exact readAt_canonical (fun _a _b _c _d hs => l1Read_canonical hs)

-- Texture filters and rays

theorem planeElem_canonical {r : Rd} (hr : r.KeepsCanonical) {a b k rnd i} : (planeElem r a b k rnd i).KeepsCanonical := by
  unfold planeElem
  exact and_canonical (hr _ _)
    (fun _a =>
      and_canonical (evList_canonical (fun _a => and_canonical (hr _ _) (fun _a => evRet_canonical)))
      (fun _a => ite_canonical evRet_canonical evRet_canonical))

theorem readTexel_canonical {r : Rd} (hr : r.KeepsCanonical) {d hb x y} : (readTexel r d hb x y).KeepsCanonical := by
  unfold readTexel
  refine ite_canonical ?_ (and_canonical (hr _ _) (fun _a => evRet_canonical))
  split
  · exact evFail_canonical
  · exact and_canonical (planeElem_canonical hr) (fun _a => evRet_canonical)

theorem filterTap_canonical {r : Rd} (hr : r.KeepsCanonical) {d hb hd taps pu pv fx fy ref z k} :
    (filterTap r d hb hd taps pu pv fx fy ref z k).KeepsCanonical := by
  unfold filterTap
  refine and_canonical ?_ (fun _a => evRet_canonical)
  split
  · exact readTexel_canonical hr
  · exact evRet_canonical

theorem filterRun_canonical {r : Rd} (hr : r.KeepsCanonical) {desc prog grad ftz args} : (filterRun r desc prog grad ftz args).KeepsCanonical := by
  unfold filterRun
  exact and_canonical (evFoldl_canonical (fun _a _b => filterTap_canonical hr)) (fun _a => evRet_canonical)

theorem leafHits_canonical {r : Rd} (hr : r.KeepsCanonical) {ray leaf addr} : (leafHits r ray leaf addr).KeepsCanonical := by
  unfold leafHits
  exact and_canonical evNeed_canonical
    (fun _a =>
      and_canonical (rdBytes_canonical hr)
      (fun _a =>
        and_canonical evNeed_canonical
        (fun _a =>
          and_canonical (evList_canonical (fun _a => and_canonical (evList_canonical (fun _a => rdBytes_canonical hr)) (fun _a => evRet_canonical)))
          (fun _a => evRet_canonical))))

theorem traverse_canonical {r : Rd} (hr : r.KeepsCanonical) {ray sc addr fuel todo n best out} :
    (traverse r ray sc addr fuel todo n best out).KeepsCanonical := by
  induction fuel generalizing todo n best out with
  | zero => exact evFail_canonical
  | succ fuel ih =>
    cases todo with
    | nil => exact evRet_canonical
    | cons p todo =>
      unfold traverse
      dsimp only
      split
      · exact ih
      · exact ite_canonical evFail_canonical (and_canonical (rdBytes_canonical hr) (fun _a => and_canonical evNeed_canonical (fun _a => ih)))
      · exact and_canonical (rdBytes_canonical hr) (fun _a => and_canonical (leafHits_canonical hr) (fun _a => ih))

theorem nearestHit_canonical {r : Rd} (hr : r.KeepsCanonical) {ray sc} : (nearestHit r ray sc).KeepsCanonical := by
  unfold nearestHit
  exact and_canonical (traverse_canonical hr) (fun _a => fun _a h => h)

theorem rayRun_canonical {r : Rd} (hr : r.KeepsCanonical) {sc any args} : (rayRun r sc any args).KeepsCanonical := by
  unfold rayRun
  exact and_canonical (ite_canonical evRet_canonical (nearestHit_canonical hr)) (fun _a => evRet_canonical)

-- Words executed once per thread or once per group

theorem goBy_canonical {s : State} (h : Canonical s) {ts} : Canonical (s.goBy ts) := by
  unfold State.goBy
  exact h

theorem skipFalse_canonical {s : State} (h : Canonical s) {g ex} : Canonical (s.skipFalse g ex) := by
  unfold State.skipFalse
  exact foldl_canonical (fun _a _b hs => updThr_canonical hs) h

theorem applyRes_canonical {s : State} (h : Canonical s) {r} : Canonical (s.applyRes r) := by
  unfold State.applyRes
  split
  · exact applyFx_canonical h
  · exact h

theorem lanesThen_canonical {s : State} (h : Canonical s) {post : State → List ThreadId → State} (hpost : ∀ s ts, Canonical s → Canonical
    (post s ts)) {i lane} :
    Canonical (s.lanesThen i lane post) := by
  unfold State.lanesThen
  refine if_canonical (takeTraps_canonical h) ?_
  dsimp only
  split
  · exact hpost _ _ (skipFalse_canonical (foldl_canonical (fun _a _b hs => applyRes_canonical hs) h))
  · exact takeTraps_canonical h

theorem lanes_canonical {s : State} (h : Canonical s) {i lane} : Canonical (s.lanes i lane) := by
  unfold State.lanes
  exact lanesThen_canonical h (fun _a _b hs => hs)

theorem perGroup_canonical {s : State} (h : Canonical s) {eff : State → GroupId → List ThreadId → GroupFx} (heff : ∀ s g ts, Canonical s → Canonical
    (eff s g ts).1) {i chk} :
    Canonical (s.perGroup i chk eff) := by
  unfold State.perGroup
  refine if_canonical (takeTraps_canonical h) ?_
  dsimp only
  split
  · refine skipFalse_canonical (foldl_canonical (fun _a _b hs => ?_) h)
    split
    · exact foldl_canonical (fun _a _b hs1 => updThr_canonical hs1) (heff _ _ _ hs)
    · exact foldl_canonical (fun _a _b hs1 => updThr_canonical hs1) (heff _ _ _ hs)
  · exact takeTraps_canonical h

theorem countAll_canonical {s : State} (h : Canonical s) {ts i} : Canonical (s.countAll ts i) := by
  unfold State.countAll
  exact foldl_canonical (fun _a _b hs => updThr_canonical hs) h

-- Accesses

theorem countEv_canonical {s : State} (h : Canonical s) {c code n} : Canonical (s.countEv c code n) := by
  unfold State.countEv
  exact if_canonical (updCore_canonical h) h

theorem countDie_canonical {s : State} (h : Canonical s) {d code n} : Canonical (s.countDie d code n) := by
  unfold State.countDie
  refine updDie_canonical h ?_
  intro x hs
  grind

theorem logErr_canonical {s : State} (h : Canonical s) {kind die unit addr} : Canonical (s.logErr kind die unit addr) := by
  unfold State.logErr
  dsimp only
  split
  · split
    · exact of_canon h
    · exact of_canon h
  · exact of_canon h

theorem putRegs_canonical {s : State} (h : Canonical s) {t e} : Canonical (s.putRegs t e) := by
  unfold State.putRegs
  exact if_canonical (updThr_canonical h) (updGrp_canonical (updThr_canonical h))

theorem finish_canonical {s : State} (h : Canonical s) {id a} : Canonical (s.finish id a) := by
  unfold State.finish
  exact foldl_canonical (fun _a _b hs => updThr_canonical hs) h

theorem levelRead_canonical {s : State} (h : Canonical s) {sc ord ch c pa n a} : Canonical (levelRead sc ord ch c s pa n a).1 := by
  unfold levelRead
  refine fstIf_canonical (l1Read_canonical h) (fstIf_canonical (l1Refresh_canonical (updDie_canonical h ?_)) (bypassRead_canonical h))
  intro x hs
  grind

theorem levelWrite_canonical {s : State} (h : Canonical s) {sc ord ch c tag pa a bs} : Canonical (levelWrite sc ord ch c tag s pa a bs) := by
  unfold levelWrite
  exact if_canonical (l1Write_canonical h) (bypassWrite_canonical h)

theorem l1Flush_canonical {s : State} (h : Canonical s) {c line} : Canonical (s.l1Flush c line) := by
  unfold State.l1Flush
  split
  · exact h
  · exact l1Del_canonical (l1WriteBack_canonical h)

theorem atRead_canonical {s : State} (h : Canonical s) {c pa n a p} : Canonical (s.atRead c pa n a p).1 := by
  unfold State.atRead
  split
  · exact l1Read_canonical h
  · exact l2Read_canonical (l1Flush_canonical h)
  · exact if_canonical
      (dirTouch_canonical (if_canonical (l2Drop_canonical (l1Flush_canonical h)) (l1Flush_canonical h)))
      (if_canonical (l2Drop_canonical (l1Flush_canonical h)) (l1Flush_canonical h))

theorem atWrite_canonical {s : State} (h : Canonical s) {c tag pa a p bs} : Canonical (s.atWrite c tag pa a p bs) := by
  unfold State.atWrite
  split
  · exact l1Write_canonical h
  · exact l2Write_canonical h
  · exact homeWrite_canonical h

theorem countAtomic_canonical {s : State} (h : Canonical s) {c pa a p} : Canonical (s.countAtomic c pa a p) := by
  unfold State.countAtomic
  exact if_canonical h (countDie_canonical h)

theorem atDone_canonical {s : State} (h : Canonical s) {ret wide l old fl die} : Canonical (s.atDone ret wide l old fl die) := by
  unfold State.atDone
  exact if_canonical (putRegs_canonical h) (if_canonical h (raiseDasr_canonical h))

theorem atLaneGo_canonical {s : State} (h : Canonical s) {a k ret n l x fl0} : Canonical (s.atLaneGo a k ret n l x fl0) := by
  unfold State.atLaneGo
  dsimp only
  split
  · refine atDone_canonical ?_
    split
    · exact atWrite_canonical (countAtomic_canonical (atRead_canonical h))
    · exact countAtomic_canonical (atRead_canonical h)
  · split
    · refine atDone_canonical ?_
      split
      · exact spadWrite_canonical h
      · exact h
    · refine atDone_canonical ?_
      split
      · exact bkWrite_canonical h
      · exact h
    · exact h

theorem xlateAcc_canonical {s : State} (h : Canonical s) {a nd} : Canonical (s.xlateAcc a nd).1 := by
  unfold State.xlateAcc
  dsimp only
  split
  · exact meet_canonical h
  · exact xlate_canonical h

theorem xlateAll_canonical {s : State} (h : Canonical s) {d ctx nd as} : Canonical (s.xlateAll d ctx nd as).1 := by
  induction as generalizing s with
  | nil => exact h
  | cons a as ih =>
    unfold State.xlateAll
    split
    · next hu => exact fst_canonical hu (xlate_canonical h)
    · next hu =>
      split
      · next hv => exact fst_canonical hv (ih (fst_canonical hu (xlate_canonical h)))
      · next hv => exact fst_canonical hv (ih (fst_canonical hu (xlate_canonical h)))

theorem planeRead_canonical {s0 a b c} : (planeRead s0 a b c).KeepsCanonical := by
  unfold planeRead
  exact readAt_canonical (fun _a _b _c _d hs => levelRead_canonical hs)

theorem stpGo_canonical {s : State} (h : Canonical s) {a c b pl e} : Canonical (s.stpGo a c b pl e).1 := by
  unfold State.stpGo
  dsimp only
  split
  · next hu => exact fst_canonical hu (xlateAll_canonical h)
  · next hu =>
      exact foldl_canonical (fun _a _b hs => levelWrite_canonical hs)
        (if_canonical (release_canonical (fst_canonical hu (xlateAll_canonical h))) (fst_canonical hu (xlateAll_canonical h)))

theorem pladdBlock_canonical {s : State} (h : Canonical s) {a c b us xs} : Canonical (s.pladdBlock a c b us xs) := by
  unfold State.pladdBlock
  dsimp only
  split
  · refine raiseDasr_canonical (countAtomic_canonical (foldl_canonical (fun _a _b hs => atWrite_canonical hs) ?_))
    refine foldl_fst_canonical (fun _a _b hs => ?_) h
    exact atRead_canonical hs
  · refine foldl_canonical (fun _a _b hs => atWrite_canonical hs) ?_
    refine foldl_fst_canonical (fun _a _b hs => ?_) h
    exact atRead_canonical hs

theorem pladdGo_canonical {s : State} (h : Canonical s) {a b ups} : Canonical (s.pladdGo a b ups).1 := by
  unfold State.pladdGo
  dsimp only
  split
  · next hu =>
      refine fst_canonical hu (foldl_fst_canonical (fun _a _b hs => ?_) h)
      split
      · exact hs
      · split
        · next hu2 => exact fst_canonical hu2 (xlateAll_canonical hs)
        · next hu2 => exact fst_canonical hu2 (xlateAll_canonical hs)
  · next hu =>
      split
      · refine fst_canonical hu (foldl_fst_canonical (fun _a _b hs => ?_) h)
        split
        · exact hs
        · split
          · next hu3 => exact fst_canonical hu3 (xlateAll_canonical hs)
          · next hu3 => exact fst_canonical hu3 (xlateAll_canonical hs)
      · refine foldl_canonical (fun _a _b hs => pladdBlock_canonical hs) ?_
        split
        · refine release_canonical (fst_canonical hu (foldl_fst_canonical (fun _a _b hs => ?_) h))
          split
          · exact hs
          · split
            · next hu4 => exact fst_canonical hu4 (xlateAll_canonical hs)
            · next hu4 => exact fst_canonical hu4 (xlateAll_canonical hs)
        · refine fst_canonical hu (foldl_fst_canonical (fun _a _b hs => ?_) h)
          split
          · exact hs
          · split
            · next hu3 => exact fst_canonical hu3 (xlateAll_canonical hs)
            · next hu3 => exact fst_canonical hu3 (xlateAll_canonical hs)

theorem wbrLine_canonical {s : State} (h : Canonical s) {c x lo hi} : Canonical (s.wbrLine c x lo hi) := by
  unfold State.wbrLine
  dsimp only
  split
  · refine l2WriteBack_canonical ?_
    split
    · exact h
    · split
      · exact l1Put_canonical (maskedWrite_canonical h (fun _a _b _c hs => l2Write_canonical hs))
      · exact maskedWrite_canonical h (fun _a _b _c hs => l2Write_canonical hs)
  · split
    · exact h
    · split
      · exact l1Put_canonical (maskedWrite_canonical h (fun _a _b _c hs => l2Write_canonical hs))
      · exact maskedWrite_canonical h (fun _a _b _c hs => l2Write_canonical hs)

theorem invrLine_canonical {s : State} (h : Canonical s) {c x lo hi} : Canonical (s.invrLine c x lo hi) := by
  unfold State.invrLine
  refine if_canonical h (updCore_canonical (updDie_canonical (invalCopies_canonical h) ?_))
  intro x hs
  grind

theorem rangeGo_canonical {s : State} (h : Canonical s) {f : State → Nat → Xl → Nat → Nat → State} (hf : ∀ s o x a n, Canonical s → Canonical
    (f s o x a n)) {a len} :
    Canonical (s.rangeGo a len f).1 := by
  unfold State.rangeGo
  dsimp only
  split
  · next hu => exact fst_canonical hu (xlateAll_canonical h)
  · next hu => exact foldl_canonical (fun _a _b hs => hf _ _ _ _ _ hs) (fst_canonical hu (xlateAll_canonical h))

theorem l2Whole_canonical {s : State} (h : Canonical s) {d line a} : Canonical (s.l2Whole d line a).1 := by
  refine foldl_fst_canonical (fun _a _b hs => ?_) h
  exact l2Read_canonical hs

theorem stiGo_canonical {s : State} (h : Canonical s) {id a ls xs} : Canonical (s.stiGo id a ls xs) := by
  unfold State.stiGo
  refine foldl_canonical (fun _a _b hs => ?_) (foldl_canonical (fun _a _b hs => bypassWrite_canonical hs) (if_canonical (releaseTags_canonical h) h))
  split
  · exact hs
  · exact if_canonical (l2Whole_canonical hs) (countEv_canonical hs)

theorem icFill_canonical {s : State} (h : Canonical s) {c line data} : Canonical (s.icFill c line data) := by
  unfold State.icFill
  exact if_canonical (updCore_canonical h) (updCore_canonical (bump_canonical h))

theorem icRead_canonical {s : State} (h : Canonical s) {c pa n a} : Canonical (s.icRead c pa n a).1 := by
  unfold State.icRead
  dsimp only
  split
  · exact h
  · exact icFill_canonical (l2Whole_canonical h)

theorem rangeAccess_canonical {s : State} (h : Canonical s) {f : State → Xl → State} (hf : ∀ s x, Canonical s → Canonical (f s x))
    {g : State → Place → State} (hg : ∀ s p, Canonical s → Canonical (g s p)) {a nd} :
    Canonical (s.rangeAccess a nd f g).1 := by
  unfold State.rangeAccess
  split
  · split
    · next hu1 => exact fst_canonical hu1 (xlateAcc_canonical h)
    · next hu1 => exact hf _ _ (fst_canonical hu1 (xlateAcc_canonical h))
  · split
    · exact hg _ _ h
    · exact h

theorem relIf_canonical {s : State} (h : Canonical s) {p : Prop} [Decidable p] {c ts sc} : Canonical (if p then s.releaseTags c ts sc else s) :=
  if_canonical (releaseTags_canonical h) h

theorem acqIf_canonical {s : State} (h : Canonical s) {p : Prop} [Decidable p] {c sc} : Canonical (if p then s.acquire c sc else s) :=
  if_canonical (acquire_canonical h) h

/-- The reads of LDP (R369): the exponent byte, then the words of the planes. -/
theorem planes_canonical {s : State} {a : Acc} {va : Nat} {f : Nat → Nat} {is : List Nat} :
    ((planeRead s a va 1).and (fun eb => (Ev.list (fun j => (planeRead s a (f j) 2).and (fun w => Ev.ret (leNat w))) is).and
      (fun ws => Ev.ret (leNat eb, ws)))).KeepsCanonical :=
  and_canonical planeRead_canonical
    (fun _eb => and_canonical (evList_canonical (fun _j => and_canonical planeRead_canonical (fun _w => evRet_canonical))) (fun _ws => evRet_canonical))

theorem perform_canonical {s : State} (h : Canonical s) {id a joins} : Canonical (s.perform id a joins).1 := by
  unfold State.perform
  dsimp only
  split
  · refine rangeAccess_canonical h
      (fun _a _b hs => acqIf_canonical (putRegs_canonical (levelRead_canonical hs)))
      (fun _a _b hs => ?_)
    split
    · exact acqIf_canonical (putRegs_canonical hs)
    · exact acqIf_canonical (putRegs_canonical hs)
    · exact hs
  · refine rangeAccess_canonical h (fun _a _b hs => levelWrite_canonical (if_canonical (release_canonical hs) hs)) (fun _a _b hs => ?_)
    split
    · exact spadWrite_canonical (if_canonical (release_canonical hs) hs)
    · exact bkWrite_canonical (if_canonical (release_canonical hs) hs)
    · exact hs
  · split
    · next hu1 => exact fst_canonical hu1 (xlateAll_canonical h)
    · next hu1 => exact stiGo_canonical (fst_canonical hu1 (xlateAll_canonical h))
  · split
    · next hu1 => exact fst_canonical hu1 (xlateAcc_canonical h)
    · next hu1 => exact putRegs_canonical (icRead_canonical (fst_canonical hu1 (xlateAcc_canonical h)))
  · refine fstIf_canonical ?_ (acqIf_canonical (foldl_canonical (fun _a _b hs => atLaneGo_canonical hs) (relIf_canonical h)))
    split
    · next hu1 => exact fst_canonical hu1 (xlateAll_canonical h)
    · next hu1 =>
      have hx := fst_canonical hu1 (xlateAll_canonical h)
      split
      · exact hx
      · exact acqIf_canonical (bump_canonical (foldl_canonical (fun _a _b hs => atLaneGo_canonical hs) (relIf_canonical hx)))
  · split
    · exact h
    · split
      · next hu2 => exact fst_canonical hu2 (planes_canonical _ h)
      · next hu2 => exact fst_canonical hu2 (planes_canonical _ h)
      · next hu2 => exact acqIf_canonical (putRegs_canonical (fst_canonical hu2 (planes_canonical _ h)))
  · split
    · exact h
    · exact stpGo_canonical h
  · split
    · exact h
    · exact pladdGo_canonical h
  · exact rangeGo_canonical h (fun _a _b _c _d _e hs => wbrLine_canonical hs)
  · exact rangeGo_canonical h (fun _a _b _c _d _e hs => invrLine_canonical hs)
  · split
    · next hu1 => exact fst_canonical hu1 (filterRun_canonical (fun _a _b => coreRead_canonical) _ h)
    · next hu1 => exact fst_canonical hu1 (filterRun_canonical (fun _a _b => coreRead_canonical) _ h)
    · next hu1 => exact putRegs_canonical (fst_canonical hu1 (filterRun_canonical (fun _a _b => coreRead_canonical) _ h))
  · split
    · next hu1 => exact fst_canonical hu1 (rayRun_canonical (fun _a _b => coreRead_canonical) _ h)
    · next hu1 => exact fst_canonical hu1 (rayRun_canonical (fun _a _b => coreRead_canonical) _ h)
    · next hu1 => exact putRegs_canonical (fst_canonical hu1 (rayRun_canonical (fun _a _b => coreRead_canonical) _ h))

theorem lateTrap_canonical {s : State} (h : Canonical s) {a i} : Canonical (s.lateTrap a i) := by
  unfold State.lateTrap
  exact takeTraps_canonical h

theorem joinRed_canonical {s : State} (h : Canonical s) {m} : Canonical (s.joinRed m) := by
  unfold State.joinRed
  dsimp only
  split
  · split
    · exact of_canon (l1Flush_canonical (if_canonical (release_canonical h) h))
    · exact of_canon (if_canonical (release_canonical h) h)
  · refine updThr_canonical ?_
    split
    · exact l1Flush_canonical (if_canonical (release_canonical h) h)
    · exact if_canonical (release_canonical h) h

theorem passBy_canonical {s : State} (h : Canonical s) {a} : Canonical (s.passBy a) := by
  unfold State.passBy
  exact if_canonical (goBy_canonical h) h

theorem completeOne_canonical {s : State} (h : Canonical s) {id} : Canonical (s.completeOne id) := by
  unfold State.completeOne
  split
  · exact h
  · refine if_canonical h ?_
    dsimp only
    split
    · split
      · next hu2 => exact passBy_canonical (fst_canonical hu2 (perform_canonical (if_canonical h (bump_canonical h))))
      · exact h
    · split
      · next hu2 =>
          exact foldl_canonical (fun _a _b hs => joinRed_canonical hs)
            (finish_canonical (passBy_canonical (fst_canonical hu2 (perform_canonical (if_canonical h (bump_canonical h))))))
      · next hu2 => exact fst_canonical hu2 (perform_canonical (if_canonical h (bump_canonical h)))
      · exact h
      · next hu2 => exact lateTrap_canonical (finish_canonical (fst_canonical hu2 (perform_canonical (if_canonical h (bump_canonical h)))))

theorem shareLeaf_canonical {s : State} (h : Canonical s) {a} : Canonical (s.shareLeaf a) := by
  unfold State.shareLeaf
  refine if_canonical h ?_
  dsimp only
  split
  · exact h
  · exact h

theorem completeAcc_canonical {s : State} (h : Canonical s) {id load} : Canonical (s.completeAcc id load) := by
  unfold State.completeAcc
  split
  · exact h
  · exact if_canonical h (foldl_canonical (fun _a _b hs => completeOne_canonical hs) (shareLeaf_canonical h))

theorem newFault_canonical {s : State} (h : Canonical s) {w site f va acc unit noted} : Canonical (s.newFault w site f va acc unit noted).1 := by
  unfold State.newFault
  exact bump_canonical h

theorem holdPart_canonical {s : State} (h : Canonical s) {pid a f va} : Canonical (s.holdPart pid a f va) := by
  unfold State.holdPart
  refine if_canonical (takeTraps_canonical (foldl_canonical (fun _a _b hs => updThr_canonical hs) h)) ?_
  dsimp only
  split
  · exact of_canon h
  · exact of_canon h

theorem dataTrap_canonical {s : State} (h : Canonical s) {id a f} : Canonical (s.dataTrap id a f) := by
  unfold State.dataTrap
  exact foldl_canonical (fun _a _b hs => lateTrap_canonical (foldl_canonical (fun _a _b hs1 => updThr_canonical hs1) hs)) h

theorem accFault_canonical {s : State} (h : Canonical s) {id} : Canonical (s.accFault id) := by
  unfold State.accFault
  split
  · exact h
  · refine if_canonical h ?_
    split
    · refine if_canonical (dataTrap_canonical h) ?_
      split
      · dsimp only
        split
        · exact of_canon h
        · exact of_canon h
      · refine foldl_canonical (fun _a _b hs => if_canonical (holdPart_canonical hs) (holdPart_canonical (bump_canonical hs))) ?_
        exact of_canon h
    · exact h

theorem receiveInj_canonical {s : State} (h : Canonical s) {core line} : Canonical (s.receiveInj core line) := by
  unfold State.receiveInj
  split
  · exact h
  · dsimp only
    split
    · refine countEv_canonical ?_
      split
      · refine dropCopy_canonical (l1Put_canonical ?_)
        exact of_canon h
      · refine updDie_canonical (l1Put_canonical ?_) ?_
        · exact of_canon h
        · intro x hs
          assumption
    · split
      · refine countEv_canonical ?_
        split
        · refine dropCopy_canonical (l1Put_canonical ?_)
          exact of_canon h
        · refine updDie_canonical (l1Put_canonical ?_) ?_
          · exact of_canon h
          · intro x hs
            assumption
      · split
        · refine countEv_canonical ?_
          split
          · refine dropCopy_canonical (l1Put_canonical (l1Del_canonical (l1WriteBack_canonical ?_)))
            exact of_canon h
          · refine updDie_canonical (l1Put_canonical (l1Del_canonical (l1WriteBack_canonical ?_))) ?_
            · exact of_canon h
            · intro x hs
              assumption
        · refine countEv_canonical ?_
          exact of_canon h

-- Workgroups, dispatches and queues as they end, save and restore

theorem physStore_canonical {s : State} (h : Canonical s) {pa bs} : Canonical (s.physStore pa bs) := by
  unfold State.physStore
  exact if_canonical (physWrite_canonical h) h

theorem queueError_canonical {s : State} (h : Canonical s) {q e} : Canonical (s.queueError q e) := by
  unfold State.queueError
  split
  · exact h
  · refine if_canonical (logErr_canonical h) ?_
    exact of_canon (physStore_canonical h)

theorem cmdEnd_canonical {s : State} (h : Canonical s) {q idx scope} : Canonical (s.cmdEnd q idx scope) := by
  unfold State.cmdEnd
  exact updQueue_canonical h

theorem tidyCore_canonical {s : State} (h : Canonical s) {c} : Canonical (s.tidyCore c) := by
  unfold State.tidyCore
  exact if_canonical h (updCore_canonical h)

theorem stripWg_canonical {s : State} (h : Canonical s) {w} : Canonical (s.stripWg w) := by
  unfold State.stripWg
  refine updCore_canonical ?_
  exact of_canon (discardEngines_canonical (dropFaults_canonical h))

theorem freeWg_canonical {s : State} (h : Canonical s) {w} : Canonical (s.freeWg w) := by
  unfold State.freeWg
  split
  · exact h
  · have hs := updWg_canonical (w := w) (f := fun x => { x with ended := true, tiles := [], tileNos := [], phrOffs := [] })
      (stripWg_canonical h (w := w)) (fun _a hx => ⟨hx.1, List.forall_mem_nil _⟩)
    dsimp only
    split
    · split
      · refine foldl_canonical (fun _a _b hs => tidyCore_canonical hs) ?_
        exact canon_wgs_filter hs
      · exact hs
    · split
      · refine foldl_canonical (fun _a _b hs => tidyCore_canonical hs) ?_
        exact canon_wgs_filter (giveUpLease_canonical hs)
      · exact giveUpLease_canonical hs

theorem endPhase_canonical {s : State} (h : Canonical s) {g npc cause st bar} : Canonical (s.endPhase g npc cause st bar) := by
  unfold State.endPhase
  exact updGrp_canonical (foldl_canonical (fun _a _b hs => updThr_canonical hs) h)

theorem enqueue_canonical {s : State} (h : Canonical s) {g head} : Canonical (s.enqueue g head) := by
  unfold State.enqueue
  split
  · exact h
  · exact updCore_canonical (updGrp_canonical h)

theorem releaseGroup_canonical {s : State} (h : Canonical s) {g} : Canonical (s.releaseGroup g) := by
  unfold State.releaseGroup
  dsimp only
  split
  · exact enqueue_canonical (foldl_canonical (fun _a _b hs => updThr_canonical hs) h)
  · exact enqueue_canonical (foldl_canonical (fun _a _b hs => updThr_canonical hs) h)
  · exact foldl_canonical (fun _a _b hs => updThr_canonical hs) h

theorem tryBar_canonical {s : State} (h : Canonical s) {g lvl n} : Canonical (s.tryBar g lvl n) := by
  unfold State.tryBar
  refine if_canonical ?_ h
  dsimp only
  split
  · exact foldl_canonical (fun _a _b hs => acquire_canonical hs) (foldl_canonical (fun _a _b hs => releaseGroup_canonical hs) h)
  · exact foldl_canonical (fun _a _b hs => releaseGroup_canonical hs) h

theorem tryBars_canonical {s : State} (h : Canonical s) {w} : Canonical (s.tryBars w) := by
  unfold State.tryBars
  exact foldl_canonical (fun _a _b hs => tryBar_canonical hs) h

theorem csaAppend_canonical {s : State} (h : Canonical s) {q blk} : Canonical (s.csaAppend q blk).1 := by
  unfold State.csaAppend
  split
  · exact h
  · exact fstIf_canonical h (updQueue_canonical (physStore_canonical (physStore_canonical h)))

theorem csaIdle_canonical {s : State} (h : Canonical s) {q} : Canonical (s.csaIdle q) := by
  unfold State.csaIdle
  split
  · exact h
  · exact if_canonical (updQueue_canonical h) h

theorem dropDispUnits_canonical {s : State} (h : Canonical s) {d} : Canonical (s.dropDispUnits d) := by
  unfold State.dropDispUnits
  refine bump_canonical ?_
  refine canon_dies_map (if_canonical (dropFaults_canonical h) h) (fun x hx => ?_)
  dsimp only
  split
  · split
    · rfl
    · exact hx
  · split
    · rfl
    · exact hx

theorem graphReap_canonical {s : State} (h : Canonical s) {i} : Canonical (s.graphReap i) := by
  unfold State.graphReap
  split
  · exact h
  · refine if_canonical (cmdEnd_canonical ?_) h
    exact of_canon h

theorem graphNode_canonical {s : State} (h : Canonical s) {n ok} : Canonical (s.graphNode n ok) := by
  unfold State.graphNode
  refine graphReap_canonical ?_
  exact of_canon h

theorem dispReap_canonical {s : State} (h : Canonical s) {d} : Canonical (s.dispReap d) := by
  unfold State.dispReap
  split
  · exact h
  · split
    · have hs := dropFaults_canonical (p := fun f => match f with | .hubDone e => e == d | _ => false) (dropDispUnits_canonical (d := d) h)
      dsimp only
      split
      · refine graphNode_canonical ?_
        exact canon_disps_mdel (canon_wgs_filter hs)
      · refine cmdEnd_canonical ?_
        exact canon_disps_mdel (canon_wgs_filter hs)
    · exact h

theorem dropQueueUnits_canonical {s : State} (h : Canonical s) {q} : Canonical (s.dropQueueUnits q) := by
  unfold State.dropQueueUnits
  exact canon_dies_map h

theorem fatalQueue_canonical {s : State} (h : Canonical s) {q} : Canonical (s.fatalQueue q) := by
  unfold State.fatalQueue
  split
  · exact h
  · refine queueError_canonical (physStore_canonical (updQueue_canonical ?_))
    generalize hu : State.dropQueueUnits _ _ = u
    have hs : Canonical u := hu ▸ dropQueueUnits_canonical (foldl_canonical (fun _a _b hs => dropDispUnits_canonical hs)
      (foldl_canonical (fun _a _b hs => freeWg_canonical hs) h))
    exact canon_disps_filter hs

theorem freezeGroup_canonical {s : State} (h : Canonical s) {g st} : Canonical (s.freezeGroup g st) := by
  unfold State.freezeGroup
  exact updGrp_canonical (foldl_canonical (fun _a _b hs => updThr_canonical hs) h)

theorem progStore_canonical {s : State} (h : Canonical s) {c ctx r} : Canonical (s.progStore c ctx r) := by
  unfold State.progStore
  split
  · next hu => exact dropCopy_canonical (l2Write_canonical (fst_canonical hu (xlate_canonical h)))
  · next hu => exact fst_canonical hu (xlate_canonical h)

theorem stopCommands_canonical {s : State} (h : Canonical s) {c w} : Canonical (s.stopCommands c w) := by
  unfold State.stopCommands
  refine updWg_canonical (updCore_canonical (foldl_canonical (fun _a _b hs => ?_) (dropFaults_canonical h)))
  split
  · exact if_canonical hs (progStore_canonical hs)
  · exact hs

theorem saveWg_canonical {s : State} (h : Canonical s) {w} : Canonical (s.saveWg w).1 := by
  unfold State.saveWg
  split
  · dsimp only
    split
    · next hu2 =>
        exact fst_canonical hu2
          (csaAppend_canonical (stopCommands_canonical (writeBackTag_canonical (foldl_canonical (fun _a _b hs => freezeGroup_canonical hs) h))))
    · next hu2 =>
        refine tidyCore_canonical
          (fstIf_canonical ?_
            (giveUpLease_canonical
              (updQueue_canonical
                (updWg_canonical
                  (updCore_canonical
                    (foldl_canonical (fun _a _b hs => updGrp_canonical hs)
                      (fst_canonical hu2
                        (csaAppend_canonical
                          (stopCommands_canonical (writeBackTag_canonical (foldl_canonical (fun _a _b hs => freezeGroup_canonical hs) h)))))))))))
        split
        · split
          · next hu4 =>
              exact fst_canonical hu4
                (csaAppend_canonical
                  (giveUpLease_canonical
                    (updQueue_canonical
                      (updWg_canonical
                        (updCore_canonical
                          (foldl_canonical (fun _a _b hs => updGrp_canonical hs)
                            (fst_canonical hu2
                              (csaAppend_canonical
                                (stopCommands_canonical
                                  (writeBackTag_canonical (foldl_canonical (fun _a _b hs => freezeGroup_canonical hs) h)))))))))))
          · next hu4 =>
              exact fst_canonical hu4
                (csaAppend_canonical
                  (giveUpLease_canonical
                    (updQueue_canonical
                      (updWg_canonical
                        (updCore_canonical
                          (foldl_canonical (fun _a _b hs => updGrp_canonical hs)
                            (fst_canonical hu2
                              (csaAppend_canonical
                                (stopCommands_canonical
                                  (writeBackTag_canonical (foldl_canonical (fun _a _b hs => freezeGroup_canonical hs) h)))))))))))
        · exact giveUpLease_canonical
            (updQueue_canonical
              (updWg_canonical
                (updCore_canonical
                  (foldl_canonical (fun _a _b hs => updGrp_canonical hs)
                    (fst_canonical hu2
                      (csaAppend_canonical
                        (stopCommands_canonical (writeBackTag_canonical (foldl_canonical (fun _a _b hs => freezeGroup_canonical hs) h)))))))))
  · exact h

theorem saveOrDie_canonical {s : State} (h : Canonical s) {w} : Canonical (s.saveOrDie w) := by
  unfold State.saveOrDie
  dsimp only
  split
  · next hu => exact fst_canonical hu (saveWg_canonical h)
  · next hu => exact fatalQueue_canonical (fst_canonical hu (saveWg_canonical h))

theorem saveVictim_canonical {s : State} (h : Canonical s) {g} : Canonical (s.saveVictim g) := by
  unfold State.saveVictim
  dsimp only
  split
  · next hu => exact fst_canonical hu (csaAppend_canonical (freezeGroup_canonical h))
  · next hu => exact fatalQueue_canonical (fst_canonical hu (csaAppend_canonical (freezeGroup_canonical h)))

theorem trySave_canonical {s : State} (h : Canonical s) {w} : Canonical (s.trySave w) := by
  unfold State.trySave
  split
  · exact h
  · exact if_canonical
      (saveOrDie_canonical (if_canonical (foldl_canonical (fun _a _b hs => saveVictim_canonical hs) h) h))
      (if_canonical (foldl_canonical (fun _a _b hs => saveVictim_canonical hs) h) h)

theorem tryPhaseEnd_canonical {s : State} (h : Canonical s) {g} : Canonical (s.tryPhaseEnd g) := by
  unfold State.tryPhaseEnd
  split
  · split
    · exact h
    · refine if_canonical h ?_
      split
      · exact if_canonical (endPhase_canonical h) h
      · exact if_canonical
          (foldl_canonical (fun _a _b hs => updThr_canonical hs) (endPhase_canonical h))
          (enqueue_canonical (foldl_canonical (fun _a _b hs => updThr_canonical hs) (endPhase_canonical h)))
      · exact h
  · exact h

theorem wakeAt_canonical {s : State} (h : Canonical s) {g p} : Canonical (s.wakeAt g p) := by
  unfold State.wakeAt
  exact updGrp_canonical h

theorem scanPhaseQ_canonical {s : State} (h : Canonical s) {c} : Canonical (s.scanPhaseQ c) := by
  unfold State.scanPhaseQ
  refine foldl_canonical (fun _a _b hs => ?_) h
  dsimp only
  split
  · split
    · exact csaIdle_canonical (updCore_canonical (wakeAt_canonical hs))
    · exact hs
  · exact hs

theorem abortHalt_canonical {s : State} (h : Canonical s) {w} : Canonical (s.abortHalt w) := by
  unfold State.abortHalt
  split
  · exact foldl_canonical (fun _a _b hs => broadcast_canonical hs) (updWg_canonical h)
  · exact updWg_canonical h
  · exact updWg_canonical h
  · exact h

theorem abortWg_canonical {s : State} (h : Canonical s) {w} : Canonical (s.abortWg w) := by
  unfold State.abortWg
  split
  · split
    · next hu2 => exact freeWg_canonical (fst_canonical hu2 (csaAppend_canonical h))
    · next hu2 => exact fatalQueue_canonical (fst_canonical hu2 (csaAppend_canonical h))
  · exact h

theorem failDispatch_canonical {s : State} (h : Canonical s) {d e} : Canonical (s.failDispatch d e) := by
  unfold State.failDispatch
  split
  · exact h
  · refine if_canonical h
      (foldl_canonical (fun _a _b hs => freeWg_canonical (updQueue_canonical (physStore_canonical hs)))
        (foldl_canonical (fun _a _b hs => abortHalt_canonical hs) ?_))
    split
    · exact updDisp_canonical (queueError_canonical h)
    · exact updDisp_canonical (queueError_canonical h)

theorem abortGo_canonical {s : State} (h : Canonical s) {w code} : Canonical (s.abortGo w code) := by
  unfold State.abortGo
  split
  · exact h
  · exact dispReap_canonical (abortWg_canonical (failDispatch_canonical h))

theorem engineFail_canonical {s : State} (h : Canonical s) {w} : Canonical (s.engineFail w) := by
  unfold State.engineFail
  split
  · exact h
  · exact abortHalt_canonical (failDispatch_canonical (discardEngines_canonical h))

theorem markHalted_canonical {s : State} (h : Canonical s) {w} : Canonical (s.markHalted w) := by
  unfold State.markHalted
  exact foldl_canonical (fun _a _b hs => if_canonical (updGrp_canonical hs) hs) h

theorem settleWg_canonical {s : State} (h : Canonical s) {w} : Canonical (s.settleWg w) := by
  unfold State.settleWg
  split
  · exact if_canonical (if_canonical (abortGo_canonical (markHalted_canonical h)) (updWg_canonical (markHalted_canonical h))) (markHalted_canonical h)
  · exact h

theorem settle_canonical {s : State} (h : Canonical s) : Canonical s.settle := by
  unfold State.settle
  exact foldl_canonical (fun _a _b hs => settleWg_canonical hs) h

theorem endWg_canonical {s : State} (h : Canonical s) {w} : Canonical (s.endWg w) := by
  unfold State.endWg
  split
  · exact h
  · exact if_canonical (dispReap_canonical (freeWg_canonical (updDisp_canonical h))) h

-- Control flow, traps, barriers

theorem holdAt_canonical {s : State} (h : Canonical s) {s0 t w} : Canonical (State.holdAt s0 s t w) := by
  unfold State.holdAt
  exact updThr_canonical h

theorem passBaton_canonical {s : State} (h : Canonical s) {w gid} : Canonical (s.passBaton w gid) := by
  unfold State.passBaton
  split
  · exact h
  · exact foldl_canonical (fun _a _b hs => updThr_canonical hs) (updWg_canonical h)

theorem etakeGo_canonical {s : State} (h : Canonical s) {g a} : Canonical (etakeGo s g a).1 := by
  unfold etakeGo
  exact h

theorem egiveGo_canonical {s : State} (h : Canonical s) {g a} : Canonical (egiveGo s g a).1 := by
  unfold egiveGo
  exact passBaton_canonical h

theorem tryJoin_canonical {s : State} (h : Canonical s) {g} : Canonical (s.tryJoin g) := by
  unfold State.tryJoin
  dsimp only
  split
  · exact h
  · exact if_canonical (foldl_canonical (fun _a _b hs => updThr_canonical hs) h) h

theorem joinPost_canonical {s : State} (h : Canonical s) {s0 ex} : Canonical (joinPost s0 s ex) := by
  unfold joinPost
  exact foldl_canonical (fun _a _b hs => tryJoin_canonical hs) (foldl_canonical (fun _a _b hs => holdAt_canonical hs) h)

theorem afterExit_canonical {s : State} (h : Canonical s) {g} : Canonical (s.afterExit g) := by
  unfold State.afterExit
  dsimp only
  split
  · exact if_canonical
      (takeTraps_canonical (foldl_canonical (fun _a _b hs => updThr_canonical hs) (if_canonical (passBaton_canonical h) h)))
      (tryPhaseEnd_canonical (if_canonical (passBaton_canonical h) h))
  · exact tryJoin_canonical (if_canonical (passBaton_canonical h) h)

theorem exitThread_canonical {s : State} (h : Canonical s) {t} : Canonical (exitThread s t) := by
  unfold exitThread
  exact updThr_canonical (release_canonical h)

theorem exitPost_canonical {s : State} (h : Canonical s) {ex} : Canonical (exitPost s ex) := by
  unfold exitPost
  exact foldl_canonical
    (fun _a _b hs => trySave_canonical (tryBars_canonical (leaveHandler_canonical hs)))
    (foldl_canonical (fun _a _b hs => afterExit_canonical hs) (foldl_canonical (fun _a _b hs => exitThread_canonical hs) h))

theorem yieldPost_canonical {s : State} (h : Canonical s) {s0 ex} : Canonical (yieldPost s0 s ex) := by
  unfold yieldPost
  exact foldl_canonical (fun _a _b hs => trySave_canonical hs)
    (foldl_canonical (fun _a _b hs => tryPhaseEnd_canonical hs)
      (foldl_canonical (fun _a _b hs => holdAt_canonical hs) (foldl_canonical (fun _a _b hs => release_canonical hs) h)))

theorem trapPost_canonical {s : State} (h : Canonical s) {i ex} : Canonical (trapPost i s ex) := by
  unfold trapPost
  exact takeTraps_canonical h

theorem eretPost_canonical {s : State} (h : Canonical s) {ex} : Canonical (eretPost s ex) := by
  unfold eretPost
  exact foldl_canonical (fun _a _b hs => trySave_canonical (tryBars_canonical hs))
    (foldl_canonical (fun _a _b hs => updThr_canonical (eretThread_canonical hs)) h)

theorem barPost_canonical {s : State} (h : Canonical s) {lvl n ex} : Canonical (barPost lvl n s ex) := by
  unfold barPost
  refine foldl_canonical (fun _a _b hs => trySave_canonical hs)
    (foldl_canonical (fun _a _b hs => tryBar_canonical hs)
      (foldl_canonical (fun _a _b hs => tryPhaseEnd_canonical hs) (foldl_canonical (fun _a _b hs => updThr_canonical hs) ?_)))
  split
  · exact foldl_canonical (fun _a _b hs => release_canonical hs) h
  · exact goBy_canonical h
  · exact h

theorem stageGo_canonical {s : State} (h : Canonical s) {g a} : Canonical (stageGo s g a).1 := by
  unfold stageGo
  exact updGrp_canonical h

theorem stageRelGo_canonical {s : State} (h : Canonical s) {e g a} : Canonical (stageRelGo e s g a).1 := by
  unfold stageRelGo
  exact updGrp_canonical h

theorem passTime_canonical {s : State} (h : Canonical s) {c} : Canonical (s.passTime c) := by
  unfold State.passTime
  exact updCore_canonical (bump_canonical h)

theorem writeSys_canonical {s : State} (h : Canonical s) {t sr v} : Canonical (s.writeSys t sr v) := by
  unfold State.writeSys
  split
  · exact updThr_canonical h
  · exact updThr_canonical h
  · exact updThr_canonical h
  · exact updThr_canonical h
  · exact updThr_canonical h
  · exact if_canonical (updCore_canonical h) (if_canonical (updCore_canonical h) h)

theorem setsrPost_canonical {s : State} (h : Canonical s) {a sr ex} : Canonical (setsrPost a sr s ex) := by
  unfold setsrPost
  exact foldl_canonical (fun _a _b hs => writeSys_canonical hs) h

theorem newStamp_canonical {s : State} (h : Canonical s) {c q} : Canonical (s.newStamp c q).1 := by
  unfold State.newStamp
  exact updCore_canonical h

theorem joinEntry_canonical {s : State} (h : Canonical s) {c q t} : Canonical (s.joinEntry c q t) := by
  unfold State.joinEntry
  split
  · exact h
  · exact if_canonical h (updCore_canonical (newStamp_canonical h))

theorem restamp_canonical {s : State} (h : Canonical s) {c q pc row ctx} : Canonical (s.restamp c q pc row ctx) := by
  unfold State.restamp
  exact updCore_canonical (newStamp_canonical h)

theorem askLines_canonical {s : State} (h : Canonical s) {c ctx a} : Canonical (s.askLines c ctx a) := by
  unfold State.askLines
  refine foldl_canonical (fun _a _b hs => ?_) h
  split
  · next hu => exact updCore_canonical (fst_canonical hu (xlate_canonical hs))
  · next hu => exact fst_canonical hu (xlate_canonical hs)

theorem fetchWord_canonical {s : State} (h : Canonical s) {c ctx a} : Canonical (s.fetchWord c ctx a).1 := by
  unfold State.fetchWord
  split
  · next hu => exact fst_canonical hu (xlate_canonical h)
  · next hu =>
      split
      · exact fst_canonical hu (xlate_canonical h)
      · exact fst_canonical hu (xlate_canonical h)

theorem startClause_canonical {s : State} (h : Canonical s) {a} : Canonical (s.startClause a) := by
  unfold State.startClause
  refine if_canonical (foldl_canonical (fun _a _b hs => updThr_canonical hs) h) ?_
  split
  · exact h
  · dsimp only
    split
    · refine askLines_canonical
        (foldl_canonical (fun _a _b hs => ?_)
          (if_canonical
            (restamp_canonical (joinEntry_canonical (foldl_canonical (fun _a _b hs => updThr_canonical hs) h)))
            (joinEntry_canonical (foldl_canonical (fun _a _b hs => updThr_canonical hs) h))))
      split
      · exact updGrp_canonical hs
      · exact hs
    · refine foldl_canonical (fun _a _b hs => ?_)
        (if_canonical
          (restamp_canonical (joinEntry_canonical (foldl_canonical (fun _a _b hs => updThr_canonical hs) h)))
          (joinEntry_canonical (foldl_canonical (fun _a _b hs => updThr_canonical hs) h)))
      split
      · exact updGrp_canonical hs
      · exact hs

theorem fillLine_canonical {s : State} (h : Canonical s) {c line} : Canonical (s.fillLine c line) := by
  unfold State.fillLine
  dsimp only
  split
  · exact h
  · exact updCore_canonical (icFill_canonical (l2Whole_canonical h))

theorem setChan_canonical {s : State} (h : Canonical s) {w ch ws} : Canonical (s.setChan w ch ws) := by
  unfold State.setChan
  exact h

theorem nbPreds_canonical {s : State} (h : Canonical s) {p ts moved} : Canonical (s.nbPreds p ts moved) := by
  unfold State.nbPreds
  exact foldl_canonical (fun _a _b hs => updThr_canonical hs) h

theorem qsendGo_canonical {s : State} (h : Canonical s) {f g ts} : Canonical (qsendGo f s g ts).1 := by
  unfold qsendGo
  exact fstIf_canonical
    (nbPreds_canonical
      (if_canonical
        (if_canonical (release_canonical (if_canonical (countEv_canonical h) h)) (if_canonical (countEv_canonical h) h))
        (setChan_canonical
          (release_canonical (if_canonical (release_canonical (if_canonical (countEv_canonical h) h)) (if_canonical (countEv_canonical h) h))))))
    (if_canonical
      (if_canonical (release_canonical (if_canonical (countEv_canonical h) h)) (if_canonical (countEv_canonical h) h))
      (setChan_canonical
        (release_canonical (if_canonical (release_canonical (if_canonical (countEv_canonical h) h)) (if_canonical (countEv_canonical h) h)))))

theorem qrecvGo_canonical {s : State} (h : Canonical s) {f g ts} : Canonical (qrecvGo f s g ts).1 := by
  unfold qrecvGo
  exact fstIf_canonical
    (nbPreds_canonical
      (if_canonical (if_canonical (countEv_canonical h) h)
        (acquire_canonical (setChan_canonical (foldl_canonical (fun _a _b hs => putRegs_canonical hs) (if_canonical (countEv_canonical h) h))))))
    (if_canonical (if_canonical (countEv_canonical h) h)
      (acquire_canonical (setChan_canonical (foldl_canonical (fun _a _b hs => putRegs_canonical hs) (if_canonical (countEv_canonical h) h)))))

theorem wakeChan_canonical {s : State} (h : Canonical s) {cl ch} : Canonical (s.wakeChan cl ch) := by
  unfold State.wakeChan
  split
  · exact h
  · exact if_canonical h h

-- Fetch and issue

theorem freeze_canonical {s : State} (h : Canonical s) {c q line a} : Canonical (s.freeze c q line a) := by
  unfold State.freeze
  exact countEv_canonical (updCore_canonical h)

theorem fetchFault_canonical {s : State} (h : Canonical s) {ts f a} : Canonical (s.fetchFault ts f a) := by
  unfold State.fetchFault
  dsimp only
  split
  · refine foldl_canonical (fun _a _b hs => ?_) h
    split
    · exact hs
    · exact foldl_canonical (fun _a _b hs1 => updThr_canonical hs1) (newFault_canonical hs)
  · refine takeTraps_canonical (foldl_canonical (fun _a _b hs => ?_) h)
    split
    · exact hs
    · exact foldl_canonical (fun _a _b hs1 => updThr_canonical hs1) (newFault_canonical hs)

theorem readBack_canonical {s : State} (h : Canonical s) {c ctx pc fuel k} : Canonical (s.readBack c ctx pc fuel k).1 := by
  induction fuel generalizing s k with
  | zero => exact h
  | succ fuel ih =>
    unfold State.readBack
    dsimp only
    split
    · next hu => exact fst_canonical hu (fetchWord_canonical h)
    · next hu => exact fst_canonical hu (fetchWord_canonical h)
    · next hu =>
      have hv := fst_canonical hu (fetchWord_canonical h)
      exact fstIf_canonical (fstIf_canonical hv hv) (ih hv)

theorem headerPass_canonical {s : State} (h : Canonical s) {c q ts} : Canonical (s.headerPass c q ts).1 := by
  cases ts with
  | nil => exact h
  | cons t ts =>
    unfold State.headerPass
    dsimp only
    split
    · exact h
    · split
      · split
        · next hu =>
          have hs := fst_canonical hu (readBack_canonical h)
          split
          · next hv => exact fetchFault_canonical (fst_canonical hv (fetchWord_canonical hs))
          · next hv => exact freeze_canonical (fst_canonical hv (fetchWord_canonical hs))
          · next hv =>
            have hw := fst_canonical hv (fetchWord_canonical hs)
            split
            · exact setIssue_canonical hw
            · exact takeTraps_canonical hw
        · next hu =>
          exact joinEntry_canonical (foldl_canonical (fun _a _b hs => updThr_canonical hs) (fst_canonical hu (readBack_canonical h)))
        · next hu => exact takeTraps_canonical (fst_canonical hu (readBack_canonical h))
        · next hu => exact freeze_canonical (fst_canonical hu (readBack_canonical h))
        · next hu => exact fetchFault_canonical (fst_canonical hu (readBack_canonical h))
      · have hs := h
        split
        · next hv => exact fetchFault_canonical (fst_canonical hv (fetchWord_canonical hs))
        · next hv => exact freeze_canonical (fst_canonical hv (fetchWord_canonical hs))
        · next hv =>
          have hw := fst_canonical hv (fetchWord_canonical hs)
          split
          · exact setIssue_canonical hw
          · exact takeTraps_canonical hw

theorem dropCancelled_canonical {s : State} (h : Canonical s) {t} : Canonical (s.dropCancelled t) := by
  unfold State.dropCancelled
  refine foldl_canonical (fun _a _b hs => ?_) h
  exact of_canon hs

theorem tidyCancelled_canonical {s : State} (h : Canonical s) : Canonical s.tidyCancelled := by
  unfold State.tidyCancelled
  exact h

theorem takeCancels_canonical {s : State} (h : Canonical s) {ts} : Canonical (s.takeCancels ts) := by
  unfold State.takeCancels
  exact takeTraps_canonical (tidyCancelled_canonical (foldl_canonical (fun _a _b hs => dropCancelled_canonical hs) h))

theorem markHeld_canonical {s : State} (h : Canonical s) {ts} : Canonical (s.markHeld ts) := by
  unfold State.markHeld
  exact foldl_canonical (fun _a _b hs => updGrp_canonical hs) h

theorem issueFrom_canonical {s : State} (h : Canonical s) {c q es} : Canonical (s.issueFrom c q es).1 := by
  induction es generalizing s with
  | nil => exact h
  | cons e es ih =>
    unfold State.issueFrom
    dsimp only
    split
    · exact ih h
    · split
      · next hv => exact fetchFault_canonical (fst_canonical hv (fetchWord_canonical h))
      · next hv => exact freeze_canonical (fst_canonical hv (fetchWord_canonical h))
      · next hv =>
        have hw := fst_canonical hv (fetchWord_canonical h)
        split
        · exact takeTraps_canonical hw
        · exact takeTraps_canonical hw
        · split
          · exact takeCancels_canonical (markHeld_canonical hw)
          · split
            · exact ih (markHeld_canonical hw)
            · split
              · exact setIssue_canonical
                  (countEv_canonical
                    (countEv_canonical (countEv_canonical (foldl_canonical (fun _a _b hs => updThr_canonical hs) (markHeld_canonical hw)))))
              · exact setIssue_canonical
                  (countEv_canonical (countEv_canonical (foldl_canonical (fun _a _b hs => updThr_canonical hs) (markHeld_canonical hw))))

theorem quarterTurn_canonical {s : State} (h : Canonical s) {c q} : Canonical (s.quarterTurn c q).1 := by
  unfold State.quarterTurn
  exact fstIf_canonical h
    (fstIf_canonical (takeCancels_canonical (markHeld_canonical h))
      (fstIf_canonical (issueFrom_canonical (markHeld_canonical h)) (headerPass_canonical (markHeld_canonical h))))

theorem tidyEntries_canonical {s : State} (h : Canonical s) {c q} : Canonical (s.tidyEntries c q) := by
  unfold State.tidyEntries
  exact updCore_canonical h

theorem afterIssue_canonical {s : State} (h : Canonical s) {before i} : Canonical (s.afterIssue before i) := by
  unfold State.afterIssue
  split
  · exact h
  · dsimp only
    split
    · exact h
    · exact tidyEntries_canonical (foldl_canonical (fun _a _b hs => if_canonical (joinEntry_canonical hs) hs) (restamp_canonical h))

theorem enterAll_canonical {s : State} (h : Canonical s) : Canonical s.enterAll := by
  unfold State.enterAll
  exact foldl_canonical (fun _a _b hs => joinEntry_canonical hs) h

-- Loads, stores and WAITA

theorem recordFault_canonical {s : State} (h : Canonical s) {t f va unit} : Canonical (s.recordFault t f va unit) := by
  unfold State.recordFault
  exact if_canonical (takeTraps_canonical h) (updThr_canonical (if_canonical h (newFault_canonical h)))

theorem dropIssue_canonical {s : State} (h : Canonical s) {t} : Canonical (s.dropIssue t) := by
  unfold State.dropIssue
  exact h

theorem readRecordsBy_canonical {s : State} (h : Canonical s) {rdr : State → ThreadId → Rd} (hrdr : ∀ s t, Canonical s → (rdr s t).KeepsCanonical)
    {i unit req} :
    Canonical (State.readRecordsBy rdr s i unit req).1 := by
  unfold State.readRecordsBy
  refine foldl_fst_canonical (fun z t hz => ?_) h
  split
  · exact hz
  · split
    · exact hz
    · exact dropIssue_canonical (updThr_canonical hz)
    · have hs := fun va n => rdBytes_canonical (va := va) (n := n) (hrdr z.1 t hz) z.1 hz
      split
      · next hu => exact fst_canonical hu (hs _ _)
      · next hu => exact dropIssue_canonical (recordFault_canonical (fst_canonical hu (hs _ _)))
      · next hu => exact fst_canonical hu (hs _ _)

theorem readRecords_canonical {s : State} (h : Canonical s) {i unit req} : Canonical (s.readRecords i unit req).1 := by
  exact readRecordsBy_canonical h (fun _a _b _c _d _e => coreRead_canonical)

theorem prefetchLine_canonical {s : State} (h : Canonical s) {f t} : Canonical (s.prefetchLine f t) := by
  unfold State.prefetchLine
  refine if_canonical h ?_
  split
  · exact h
  · next hu =>
      exact foldl_canonical (fun _a _b hs => if_canonical (l2Read_canonical hs) (l1Read_canonical hs)) (fst_canonical hu (xlate_canonical h))

theorem homeAll_canonical {s : State} (h : Canonical s) {t} : Canonical (s.homeAll t) := by
  unfold State.homeAll
  exact foldl_canonical (fun _a _b hs => l2WriteBack_canonical hs) (writeBackTag_canonical h)

theorem dropRegion_canonical {s : State} (h : Canonical s) {k} : Canonical (s.dropRegion k) := by
  unfold State.dropRegion
  refine foldl_canonical
    (fun _a _b hs => foldl_canonical (fun _a _b hs1 => updDie_canonical (l2WriteBack_canonical hs1) ?_) hs)
    (foldl_canonical (fun _a _b hs => foldl_canonical (fun _a _b hs1 => l1Flush_canonical hs1) hs) h)
  intro x hs2
  grind

theorem flipRegion_canonical {s : State} (h : Canonical s) {k} : Canonical (s.flipRegion k) := by
  unfold State.flipRegion
  exact h

theorem publishGo_canonical {s : State} (h : Canonical s) {f g ts} : Canonical (publishGo f s g ts).1 := by
  unfold publishGo
  split
  · exact h
  · exact flipRegion_canonical (dropRegion_canonical (release_canonical h))

theorem waitaWake_canonical {s : State} (h : Canonical s) {t} : Canonical (s.waitaWake t) := by
  unfold State.waitaWake
  split
  · exact h
  · split
    · refine if_canonical h ?_
      dsimp only
      split
      · split
        · next hu4 => exact updThr_canonical (recordFault_canonical (fst_canonical hu4 (xlate_canonical h)))
        · next hu4 =>
            exact if_canonical
              (updThr_canonical (acquire_canonical (levelRead_canonical (fst_canonical hu4 (xlate_canonical h)))))
              (levelRead_canonical (fst_canonical hu4 (xlate_canonical h)))
      · exact if_canonical (updThr_canonical (acquire_canonical h)) h
      · exact h
    · exact h

theorem texRecords_canonical {s : State} (h : Canonical s) {i f} : Canonical (s.texRecords i f).1 := by
  unfold State.texRecords
  dsimp only
  exact readRecords_canonical (readRecords_canonical (readRecords_canonical (readRecords_canonical h)))

theorem texGo_canonical {s : State} (h : Canonical s) {i f nc grad} : Canonical (s.texGo i f nc grad) := by
  unfold State.texGo
  exact lanes_canonical (texRecords_canonical h)

-- Chains

theorem clPut_canonical {s : State} (h : Canonical s) {w a b} : Canonical (s.clPut w a b) := by
  unfold State.clPut
  split
  · exact spadWrite_canonical h
  · exact h

theorem dropOwn_canonical {s : State} (h : Canonical s) {own line} : Canonical (s.dropOwn own line) := by
  unfold State.dropOwn
  split
  · exact dropCopy_canonical h
  · exact h

theorem storeDone_canonical {s : State} (h : Canonical s) {d ctx w cluster cw seq scope late own} :
    Canonical (s.storeDone d ctx w cluster cw seq scope late own).1 := by
  unfold State.storeDone
  refine fstIf_canonical h ?_
  dsimp only
  split
  · split
    · refine spadWrite_canonical ?_
      split
      · exact release_canonical h
      · exact h
    · exact h
  · split
    · next hu => exact fst_canonical hu (xlate_canonical h)
    · next hu =>
        refine fstIf_canonical (fst_canonical hu (xlate_canonical h)) (dropOwn_canonical (l2Write_canonical ?_))
        split
        · exact release_canonical (fst_canonical hu (xlate_canonical h))
        · exact fst_canonical hu (xlate_canonical h)

theorem unitFault_canonical {s : State} (h : Canonical s) {site f va unit die core q ctx acc} :
    Canonical (s.unitFault site f va unit die core q ctx acc) := by
  unfold State.unitFault
  exact bump_canonical h

-- The matrix engine

theorem appendMx_canonical {s : State} (h : Canonical s) {i g ts op} : Canonical (s.appendMx i g ts op).1 := by
  unfold State.appendMx
  exact fstIf_canonical h
    (if_canonical (leaseStep_canonical (countAll_canonical (updCore_canonical (bump_canonical h))))
      (countAll_canonical (updCore_canonical (bump_canonical h))))

theorem mmaGo_canonical {s : State} (h : Canonical s) {f g ts} : Canonical (mmaGo f s g ts).1 := by
  unfold mmaGo
  split
  · exact h
  · exact appendMx_canonical h

theorem accGo_canonical {s : State} (h : Canonical s) {i f op g ts} : Canonical (accGo i f op s g ts).1 := by
  unfold accGo
  split
  · exact h
  · exact appendMx_canonical h

theorem chainRoom_canonical {s : State} (h : Canonical s) {c} : Canonical (s.chainRoom c) := by
  unfold State.chainRoom
  exact if_canonical h h

theorem planeBlock_canonical {r : Rd} (hr : r.KeepsCanonical) {h k rnd b} : (planeBlock r h k rnd b).KeepsCanonical := by
  unfold planeBlock
  exact and_canonical evNeed_canonical
    (fun _a =>
      and_canonical (hr _ _)
      (fun _a => and_canonical (evList_canonical (fun _a => and_canonical (hr _ _) (fun _a => evRet_canonical))) (fun _a => evRet_canonical)))

theorem aRaw_canonical {r : Rd} (hr : r.KeepsCanonical) {m : MxBlock} {s0 w a base pitch j i} : (m.aRaw s0 w r a base pitch j i).KeepsCanonical := by
  unfold MxBlock.aRaw
  split
  · split
    · exact planeBlock_canonical hr
    · exact evFail_canonical
  · exact evRet_canonical
  · exact evRet_canonical

theorem aBlock_canonical {r : Rd} (hr : r.KeepsCanonical) {m : MxBlock} {s0 w a base pitch j i} :
    (m.aBlock s0 w r a base pitch j i).KeepsCanonical := by
  unfold MxBlock.aBlock
  split
  · exact ite_canonical evRet_canonical evRet_canonical
  · exact ite_canonical (aRaw_canonical hr) (and_canonical (evList_canonical (fun _a => aRaw_canonical hr)) (fun _a => evRet_canonical))

theorem slabs_canonical {s : State} (h : Canonical s) {r : Rd} (hr : r.KeepsCanonical) {m : MxBlock} {s0 w a xa xb ya yb rb n j t st} :
    Canonical (m.slabs s0 w r a xa xb ya yb rb n j t st s).1 := by
  induction n generalizing s j t st with
  | zero => exact h
  | succ n ih =>
    unfold MxBlock.slabs
    split
    · next hu => exact fst_canonical hu (evList_canonical (fun _a => aBlock_canonical hr) _ h)
    · next hu => exact fst_canonical hu (evList_canonical (fun _a => aBlock_canonical hr) _ h)
    · next hu => exact ih (fst_canonical hu (evList_canonical (fun _a => aBlock_canonical hr) _ h))

theorem readHandle_canonical {r : Rd} (hr : r.KeepsCanonical) {m : MxBlock} {va kept} : (m.readHandle r va kept).KeepsCanonical := by
  unfold MxBlock.readHandle
  split
  · exact evRet_canonical
  · exact ite_canonical evRet_canonical (and_canonical evNeed_canonical (fun _a => rdBytes_canonical hr))

theorem updMx_canonical {s : State} (h : Canonical s) {c seq f} : Canonical (s.updMx c seq f) := by
  unfold State.updMx
  exact updCore_canonical h

theorem setTile_canonical {s : State} (h : Canonical s) {w k} {m : Mem} (hm : m.wf = true) : Canonical (s.setTile w k m) := by
  exact updWg_canonical h (fun _a hx => ⟨hx.1, fun t ht => (List.mem_or_eq_of_mem_set ht).elim (hx.2 t) (fun e => e ▸ hm)⟩)

theorem mxFail_canonical {s : State} (h : Canonical s) {w tile} : Canonical (s.mxFail w tile) := by
  exact engineFail_canonical (setTile_canonical (bump_canonical h) (wf_ofBytes _ _))

theorem runMma_canonical {s : State} (h : Canonical s) {c e b xa xb ya yb rb} : Canonical (s.runMma c e b xa xb ya yb rb) := by
  unfold State.runMma
  refine if_canonical (mxFail_canonical h) ?_
  dsimp only
  split
  · next hu =>
      exact unitFault_canonical (updMx_canonical (fst_canonical hu (readHandle_canonical (fun _a _b => engRead_canonical) _ (updMx_canonical h))))
  · next hu => exact mxFail_canonical (fst_canonical hu (readHandle_canonical (fun _a _b => engRead_canonical) _ (updMx_canonical h)))
  · next hu =>
      split
      · exact mxFail_canonical (fst_canonical hu (readHandle_canonical (fun _a _b => engRead_canonical) _ (updMx_canonical h)))
      · split
        · next hu2 =>
            refine updMx_canonical
              (setTile_canonical
                (fst_canonical hu2
                  (slabs_canonical (updMx_canonical (fst_canonical hu (readHandle_canonical (fun _a _b => engRead_canonical) _ (updMx_canonical h))))
                    (fun _a _b => engRead_canonical)))
                ?_)
            exact wf_ofBytes _ _
        · next hu2 =>
            refine unitFault_canonical
              (updMx_canonical
                (updMx_canonical
                  (setTile_canonical
                    (fst_canonical hu2
                      (slabs_canonical
                        (updMx_canonical (fst_canonical hu (readHandle_canonical (fun _a _b => engRead_canonical) _ (updMx_canonical h))))
                        (fun _a _b => engRead_canonical)))
                    ?_)))
            exact wf_ofBytes _ _
        · next hu2 =>
            exact mxFail_canonical
              (fst_canonical hu2
                (slabs_canonical (updMx_canonical (fst_canonical hu (readHandle_canonical (fun _a _b => engRead_canonical) _ (updMx_canonical h))))
                  (fun _a _b => engRead_canonical)))

theorem storeTile_canonical {s : State} (h : Canonical s) {w base pitch bs} : Canonical (s.storeTile w base pitch bs) := by
  unfold State.storeTile
  exact foldl_canonical (fun _a _b hs => clPut_canonical hs) h

theorem mxStart_canonical {s : State} (h : Canonical s) {c w} : Canonical (s.mxStart c w) := by
  unfold State.mxStart
  split
  · exact h
  · refine if_canonical h ?_
    dsimp only
    split
    · exact if_canonical (runMma_canonical h) h
    · refine updMx_canonical (setTile_canonical h ?_)
      exact wf_ofBytes _ _
    · exact updMx_canonical (storeTile_canonical h)
    · refine updMx_canonical (setTile_canonical h ?_)
      rfl

theorem mxRetire_canonical {s : State} (h : Canonical s) {c e} : Canonical (s.mxRetire c e) := by
  unfold State.mxRetire
  exact leaseStep_canonical (updCore_canonical (uncountAll_canonical h))

theorem mxComplete_canonical {s : State} (h : Canonical s) {c w} : Canonical (s.mxComplete c w) := by
  unfold State.mxComplete
  split
  · exact h
  · refine if_canonical h ?_
    split
    · dsimp only
      split
      · next hu2 => exact mxRetire_canonical (fst_canonical hu2 (storeDone_canonical (if_canonical h (spadWrite_canonical h))))
      · exact mxFail_canonical h
      · exact unitFault_canonical (updMx_canonical h)
    · exact mxRetire_canonical h

-- The copy engine

theorem descRead_canonical {c ctx a b} : (descRead c ctx a b).KeepsCanonical := by
  unfold descRead
  refine fun _a h => fstIf_canonical h ?_
  split
  · next hu => exact fst_canonical hu (xlate_canonical h)
  · next hu => exact fstIf_canonical (fst_canonical hu (xlate_canonical h)) (atRead_canonical (fst_canonical hu (xlate_canonical h)))

theorem descPut_canonical {s : State} (h : Canonical s) {d ctx va v} : Canonical (s.descPut d ctx va v).1 := by
  unfold State.descPut
  split
  · next hu => exact fst_canonical hu (xlate_canonical h)
  · next hu =>
      exact homeWrite_canonical (if_canonical (dirTouch_canonical (fst_canonical hu (xlate_canonical h))) (fst_canonical hu (xlate_canonical h)))

theorem engDesc_canonical {d ctx va} : (engDesc d ctx va).KeepsCanonical := by
  unfold engDesc
  exact and_canonical (rdBytes_canonical (fun _a _b => readAt_canonical (fun _a _b _c _d hs => hs))) (fun _a => evRet_canonical)

theorem setChains_canonical {s : State} (h : Canonical s) {e f} : Canonical (s.setChains e f) := by
  unfold State.setChains
  split
  · exact updCore_canonical h
  · refine updDie_canonical h ?_
    intro x hs
    grind
  · refine updDie_canonical h ?_
    intro x hs
    grind

theorem updChain_canonical {s : State} (h : Canonical s) {e desc ctx f} : Canonical (s.updChain e desc ctx f) := by
  unfold State.updChain
  exact setChains_canonical h

theorem dropChain_canonical {s : State} (h : Canonical s) {e desc ctx} : Canonical (s.dropChain e desc ctx) := by
  unfold State.dropChain
  exact setChains_canonical h

theorem descRdr_canonical {s0 t a b} : (descRdr s0 t a b).KeepsCanonical := by
  unfold descRdr
  exact descRead_canonical

theorem chappGo_canonical {s : State} (h : Canonical s) {f data g ts} : Canonical (chappGo f data s g ts).1 := by
  unfold chappGo
  split
  · exact h
  · split
    · exact h
    · refine fstIf_canonical h ?_
      dsimp only
      split
      · next hu1 => exact recordFault_canonical (fst_canonical hu1 (fstIf_canonical h (descPut_canonical h)))
      · next hu1 =>
          split
          · next hu2 =>
              exact recordFault_canonical
                (foldl_canonical (fun _a _b hs => updThr_canonical hs)
                  (fst_canonical hu2 (xlate_canonical (fst_canonical hu1 (fstIf_canonical h (descPut_canonical h))))))
          · next hu2 =>
              exact putRegs_canonical
                (foldl_canonical (fun _a _b hs => updThr_canonical hs)
                  (bypassWrite_canonical (fst_canonical hu2 (xlate_canonical (fst_canonical hu1 (fstIf_canonical h (descPut_canonical h)))))))

theorem chadvGo_canonical {s : State} (h : Canonical s) {f data g ts} : Canonical (chadvGo f data s g ts).1 := by
  unfold chadvGo
  split
  · exact h
  · split
    · exact h
    · refine fstIf_canonical h ?_
      split
      · next hu1 => exact recordFault_canonical (fst_canonical hu1 (descPut_canonical (release_canonical h)))
      · next hu1 =>
          exact if_canonical
            (updChain_canonical
              (if_canonical
                (fst_canonical hu1 (descPut_canonical (release_canonical h)))
                (setChains_canonical (fst_canonical hu1 (descPut_canonical (release_canonical h))))))
            (if_canonical
              (fst_canonical hu1 (descPut_canonical (release_canonical h)))
              (setChains_canonical (fst_canonical hu1 (descPut_canonical (release_canonical h)))))

theorem wakeLike_canonical {s : State} (h : Canonical s) {t} : Canonical (s.wakeLike t) := by
  unfold State.wakeLike
  split
  · exact h
  · exact h

theorem chappRoom_canonical {s : State} (h : Canonical s) {t} : Canonical (s.chappRoom t) := by
  unfold State.chappRoom
  split
  · split
    · exact wakeLike_canonical h
    · next hu1 => exact if_canonical h (wakeLike_canonical (fst_canonical hu1 (rdBytes_canonical (fun _a _b => descRead_canonical) _ h)))
  · exact h

theorem chadvRoom_canonical {s : State} (h : Canonical s) {t} : Canonical (s.chadvRoom t) := by
  unfold State.chadvRoom
  split
  · exact if_canonical (wakeLike_canonical h) h
  · exact h

theorem cpyGo_canonical {s : State} (h : Canonical s) {f g ts} : Canonical (cpyGo f s g ts).1 := by
  unfold cpyGo
  split
  · exact h
  · exact fstIf_canonical h (countAll_canonical (updCore_canonical h))

theorem cpyQueueRoom_canonical {s : State} (h : Canonical s) {c} : Canonical (s.cpyQueueRoom c) := by
  unfold State.cpyQueueRoom
  exact if_canonical h h

theorem updSource_canonical {s : State} (h : Canonical s) {c src f} : Canonical (s.updSource c src f) := by
  unfold State.updSource
  split
  · exact updCore_canonical h
  · exact updChain_canonical h
  · exact updWg_canonical h
  · exact updCore_canonical h

theorem copyFault_canonical {s : State} (h : Canonical s) {c src r who f va} : Canonical (s.copyFault c src r who f va) := by
  unfold State.copyFault
  refine unitFault_canonical (updSource_canonical ?_)
  split
  · exact progStore_canonical h
  · exact progStore_canonical h
  · exact h

theorem queueCopyFail_canonical {s : State} (h : Canonical s) {c q} : Canonical (s.queueCopyFail c q) := by
  unfold State.queueCopyFail
  split
  · exact h
  · exact cmdEnd_canonical (queueError_canonical (updCore_canonical h))

theorem copyFail_canonical {s : State} (h : Canonical s) {c src who} : Canonical (s.copyFail c src who) := by
  unfold State.copyFail
  split
  · exact queueCopyFail_canonical h
  · exact engineFail_canonical (updWg_canonical h)
  · exact engineFail_canonical h
  · exact h

theorem read_canonical {io sp a n} : (CopyIo.read io sp a n).KeepsCanonical := by
  unfold CopyIo.read
  refine fun _a h => fstIf_canonical h (fstIf_canonical (engRead_canonical _ h) ?_)
  split
  · exact h
  · exact h

theorem write_canonical {io pair sp a bs} : (CopyIo.write io pair sp a bs).KeepsCanonical := by
  unfold CopyIo.write
  refine fun _a h => fstIf_canonical h ?_
  split
  · refine fstIf_canonical h ?_
    split
    · next hu1 => exact fst_canonical hu1 (xlate_canonical h)
    · next hu1 =>
        exact fstIf_canonical (fst_canonical hu1 (xlate_canonical h)) (dropCopy_canonical (l2Write_canonical (fst_canonical hu1 (xlate_canonical h))))
  · split
    · exact spadWrite_canonical h
    · exact h

theorem copyElem_canonical {io m sh i x} : (copyElem io m sh i x).KeepsCanonical := by
  unfold copyElem
  refine ite_canonical
    (and_canonical write_canonical (fun _a => and_canonical (ite_canonical write_canonical evRet_canonical) (fun _a => evRet_canonical)))
    (and_canonical read_canonical (fun _a => ?_))
  split
  · refine and_canonical write_canonical (fun _a => ?_)
    split
    · exact and_canonical (ite_canonical write_canonical evRet_canonical) (fun _a => evRet_canonical)
    · exact evRet_canonical
  · exact and_canonical write_canonical (fun _a => evRet_canonical)

theorem copyRunGo_canonical {io m sh i sector n x fl} : (copyRunGo io m sh i sector n x fl).KeepsCanonical := by
  induction n generalizing x fl with
  | zero => exact evRet_canonical
  | succ n ih =>
    unfold copyRunGo
    exact ite_canonical (and_canonical copyElem_canonical (fun _a => ih)) evRet_canonical

theorem copyStart_canonical {s : State} (h : Canonical s) {c src r who} : Canonical (s.copyStart c src r who).1 := by
  unfold State.copyStart
  refine fstIf_canonical h ?_
  split
  · next hu => exact fst_canonical hu (rdBytes_canonical (fun _a _b => read_canonical) _ h)
  · next hu =>
      exact fstIf_canonical
        (fst_canonical hu (rdBytes_canonical (fun _a _b => read_canonical) _ h))
        (fst_canonical hu (rdBytes_canonical (fun _a _b => read_canonical) _ h))

theorem copyGo_canonical {s : State} (h : Canonical s) {c src r who sh} : Canonical (s.copyGo c src r who sh) := by
  unfold State.copyGo
  dsimp only
  split
  · exact copyFault_canonical h
  · next hu => exact copyFail_canonical (fst_canonical hu (copyRunGo_canonical _ h))
  · next hu => exact updSource_canonical (fst_canonical hu (copyRunGo_canonical _ h))

theorem copyStep_canonical {s : State} (h : Canonical s) {c src} : Canonical (s.copyStep c src) := by
  unfold State.copyStep
  split
  · exact h
  · refine if_canonical h (if_canonical (copyFail_canonical h) ?_)
    split
    · exact copyGo_canonical h
    · split
      · next hu2 => exact copyFault_canonical (fst_canonical hu2 (copyStart_canonical h))
      · next hu2 => exact copyFail_canonical (fst_canonical hu2 (copyStart_canonical h))
      · next hu2 => exact copyGo_canonical (updSource_canonical (fst_canonical hu2 (copyStart_canonical h)))

theorem chainAdvance_canonical {s : State} (h : Canonical s) {e a n} : Canonical (s.chainAdvance e a n).1 := by
  unfold State.chainAdvance
  split
  · next hu => exact fst_canonical hu (descPut_canonical h)
  · next hu => exact updChain_canonical (fst_canonical hu (descPut_canonical h))

theorem retire_canonical {s : State} (h : Canonical s) {c src} : Canonical (s.retire c src).1 := by
  unfold State.retire
  split
  · split
    · exact h
    · exact updCore_canonical (uncountAll_canonical h)
  · split
    · exact h
    · exact chainAdvance_canonical h
  · exact updWg_canonical h
  · split
    · exact cmdEnd_canonical (updCore_canonical h)
    · exact h

theorem flagsOut_canonical {s : State} (h : Canonical s) {c src r who} : Canonical (s.flagsOut c src r who).1 := by
  unfold State.flagsOut
  dsimp only
  split
  · split
    · next hu => exact fst_canonical hu (xlate_canonical h)
    · next hu => exact dropCopy_canonical (l2Write_canonical (fst_canonical hu (xlate_canonical h)))
  · split
    · next hu => exact fst_canonical hu (xlate_canonical h)
    · next hu => exact dropCopy_canonical (l2Write_canonical (fst_canonical hu (xlate_canonical h)))
  · exact spadWrite_canonical h
  · exact h

theorem copyFinish_canonical {s : State} (h : Canonical s) {c src r who prog} : Canonical (s.copyFinish c src r who prog) := by
  unfold State.copyFinish
  dsimp only
  split
  · exact unitFault_canonical (updSource_canonical h)
  · next hu =>
      split
      · exact unitFault_canonical (updSource_canonical h)
      · exact copyFail_canonical h
      · next hu1 =>
          split
          · exact unitFault_canonical (updSource_canonical h)
          · next hu2 =>
              exact fst_canonical hu2
                (retire_canonical (fst_canonical hu1 (storeDone_canonical (fst_canonical hu (fstIf_canonical (flagsOut_canonical h) h)))))

theorem copyComplete_canonical {s : State} (h : Canonical s) {c src} : Canonical (s.copyComplete c src) := by
  unfold State.copyComplete
  split
  · exact h
  · split
    · exact h
    · exact if_canonical h (copyFinish_canonical h)

theorem chainFault_canonical {s : State} (h : Canonical s) {e a x} : Canonical (s.chainFault e a x) := by
  unfold State.chainFault
  exact unitFault_canonical (updChain_canonical h)

theorem takeEntry_canonical {s : State} (h : Canonical s) {e ix} : Canonical (s.takeEntry e ix) := by
  unfold State.takeEntry
  split
  · exact h
  · refine if_canonical h ?_
    dsimp only
    split
    · split
      · refine if_canonical h ?_
        split
        · exact chainFault_canonical h
        · next hu3 => exact fst_canonical hu3 (chainAdvance_canonical h)
      · split
        · exact chainFault_canonical h
        · next hu3 => exact fst_canonical hu3 (chainAdvance_canonical h)
    · split
      · exact chainFault_canonical h
      · next hu2 => exact dropChain_canonical (fst_canonical hu2 (engDesc_canonical _ h))
      · next hu2 =>
          split
          · exact dropChain_canonical (fst_canonical hu2 (engDesc_canonical _ h))
          · refine if_canonical
              (dropChain_canonical (fst_canonical hu2 (engDesc_canonical _ h)))
              (if_canonical (fst_canonical hu2 (engDesc_canonical _ h)) ?_)
            split
            · split
              · exact chainFault_canonical (fst_canonical hu2 (engDesc_canonical _ h))
              · next hu5 => exact fst_canonical hu5 (chainAdvance_canonical (fst_canonical hu2 (engDesc_canonical _ h)))
            · split
              · exact chainFault_canonical (fst_canonical hu2 (engDesc_canonical _ h))
              · next hu4 =>
                  exact dropChain_canonical
                    (fst_canonical hu4 (rdBytes_canonical (fun _a _b => engRead_canonical) _ (fst_canonical hu2 (engDesc_canonical _ h))))
              · next hu4 =>
                  exact updChain_canonical
                    (fst_canonical hu4 (rdBytes_canonical (fun _a _b => engRead_canonical) _ (fst_canonical hu2 (engDesc_canonical _ h))))

theorem dieCmdFail_canonical {s : State} (h : Canonical s) {e a code} : Canonical (s.dieCmdFail e a code) := by
  unfold State.dieCmdFail
  dsimp only
  split
  · exact queueError_canonical (dropFaults_canonical h)
  · split
    · exact chainFault_canonical (updChain_canonical (queueError_canonical (dropFaults_canonical h)))
    · next hu1 => exact fst_canonical hu1 (chainAdvance_canonical (queueError_canonical (dropFaults_canonical h)))

theorem dieCmdFault_canonical {s : State} (h : Canonical s) {e a x} : Canonical (s.dieCmdFault e a x) := by
  unfold State.dieCmdFault
  exact unitFault_canonical (updChain_canonical h)

theorem updCur_canonical {s : State} (h : Canonical s) {e a f} : Canonical (s.updCur e a f) := by
  unfold State.updCur
  exact updChain_canonical h

theorem dieCmdDone_canonical {s : State} (h : Canonical s) {e a r} : Canonical (s.dieCmdDone e a r) := by
  unfold State.dieCmdDone
  dsimp only
  split
  · exact dieCmdFault_canonical h
  · exact dieCmdFail_canonical h
  · next hu =>
      split
      · exact dieCmdFault_canonical h
      · next hu1 => exact fst_canonical hu1 (chainAdvance_canonical (fst_canonical hu (storeDone_canonical h)))

theorem nopStep_canonical {s : State} (h : Canonical s) {e src} : Canonical (s.nopStep e src) := by
  unfold State.nopStep
  split
  · split
    · exact h
    · refine if_canonical h ?_
      split
      · exact h
      · exact if_canonical (copyFail_canonical h) (copyFinish_canonical (updSource_canonical h))
  · split
    · split
      · exact h
      · split
        · exact h
        · exact if_canonical h (if_canonical (dieCmdFail_canonical h) (dieCmdDone_canonical (updCur_canonical h)))
    · exact h

theorem updSched_canonical {s : State} (h : Canonical s) {w e f} : Canonical (s.updSched w e f) := by
  unfold State.updSched
  exact updWg_canonical h

theorem zeroWords_canonical {s : State} (h : Canonical s) {w m dring n} : Canonical (s.zeroWords w m dring n).1 := by
  induction n with
  | zero => exact h
  | succ n ih =>
    unfold State.zeroWords
    split
    · next hu => exact fst_canonical hu ih
    · next hu =>
      dsimp only
      split
      · next hv => exact fst_canonical hv (xlate_canonical (fst_canonical hu ih))
      · next hv => exact dropCopy_canonical (l2Write_canonical (fst_canonical hv (xlate_canonical (fst_canonical hu ih))))

theorem icData_canonical {c ctx a b} : (icData c ctx a b).KeepsCanonical := by
  unfold icData
  exact readAt_canonical (fun _a _b _c _d hs => icRead_canonical hs)

theorem schedRead_canonical {s : State} (h : Canonical s) {w e} : Canonical (s.schedRead w e).1 := by
  unfold State.schedRead
  exact icData_canonical _ h

theorem schedStop_canonical {s : State} (h : Canonical s) {w e f va} : Canonical (s.schedStop w e f va) := by
  unfold State.schedStop
  exact unitFault_canonical (updSched_canonical h)

theorem schedPrepare_canonical {s : State} (h : Canonical s) {w e cmd} : Canonical (s.schedPrepare w e cmd) := by
  unfold State.schedPrepare
  dsimp only
  split
  · refine if_canonical (if_canonical (updSched_canonical h) ?_) (updSched_canonical h)
    split
    · exact schedStop_canonical h
    · next hu1 => exact updSched_canonical (fst_canonical hu1 (zeroWords_canonical h))
  · refine if_canonical (updSched_canonical h) ?_
    split
    · next hu => exact schedStop_canonical (fst_canonical hu (rdBytes_canonical (fun _a _b => read_canonical) _ h))
    · next hu => exact updSched_canonical (fst_canonical hu (rdBytes_canonical (fun _a _b => read_canonical) _ h))
    · next hu =>
        refine if_canonical
          (if_canonical (updSched_canonical (fst_canonical hu (rdBytes_canonical (fun _a _b => read_canonical) _ h))) ?_)
          (updSched_canonical (fst_canonical hu (rdBytes_canonical (fun _a _b => read_canonical) _ h)))
        split
        · exact schedStop_canonical (fst_canonical hu (rdBytes_canonical (fun _a _b => read_canonical) _ h))
        · next hu1 =>
            exact updSched_canonical (fst_canonical hu1 (zeroWords_canonical (fst_canonical hu (rdBytes_canonical (fun _a _b => read_canonical) _ h))))

theorem schedStart_canonical {s : State} (h : Canonical s) {w e} : Canonical (s.schedStart w e) := by
  unfold State.schedStart
  split
  · refine if_canonical h ?_
    split
    · split
      · next hu3 => exact schedStop_canonical (fst_canonical hu3 (schedRead_canonical h))
      · next hu3 => exact copyFail_canonical (fst_canonical hu3 (schedRead_canonical h))
      · next hu3 => exact schedPrepare_canonical (fst_canonical hu3 (schedRead_canonical h))
    · refine if_canonical h ?_
      split
      · next hu3 => exact schedStop_canonical (fst_canonical hu3 (schedRead_canonical h))
      · next hu3 => exact copyFail_canonical (fst_canonical hu3 (schedRead_canonical h))
      · next hu3 =>
          exact if_canonical
            (copyFail_canonical (updSched_canonical (fst_canonical hu3 (schedRead_canonical h))))
            (updSched_canonical (updSched_canonical (fst_canonical hu3 (schedRead_canonical h))))
  · exact h

theorem schedComplete_canonical {s : State} (h : Canonical s) {w e} : Canonical (s.schedComplete w e) := by
  unfold State.schedComplete
  split
  · split
    · refine if_canonical h ?_
      split
      · exact copyFail_canonical h
      · exact unitFault_canonical (updSched_canonical h)
      · next hu4 => exact retire_canonical (fst_canonical hu4 (storeDone_canonical h))
    · exact h
  · exact h

theorem siteResume_canonical {s : State} (h : Canonical s) {a} : Canonical (s.siteResume a) := by
  unfold State.siteResume
  split
  · exact updCore_canonical h
  · exact updSched_canonical h
  · exact updCore_canonical h
  · exact updChain_canonical h
  · exact updChain_canonical h
  · exact updChain_canonical h
  · exact updCore_canonical h
  · exact updWg_canonical h
  · refine updDie_canonical h ?_
    intro x hs
    grind
  · refine updDie_canonical h ?_
    intro x hs
    grind
  · refine updDie_canonical h ?_
    intro x hs
    grind
  · exact h

theorem commandResume_canonical {s : State} (h : Canonical s) {site} : Canonical (s.commandResume site) := by
  unfold State.commandResume
  exact if_canonical (siteResume_canonical (dropFaults_canonical h)) h

-- Bindings

theorem bindBlock_canonical {r : Rd} (hr : r.KeepsCanonical) {a b row blk} : (bindBlock r a b row blk).KeepsCanonical := by
  unfold bindBlock
  exact ite_canonical evRet_canonical (planeBlock_canonical hr)

theorem bindHandle_canonical {r : Rd} (hr : r.KeepsCanonical) {b} : (bindHandle r b).KeepsCanonical := by
  unfold bindHandle
  refine and_canonical evNeed_canonical (fun _a => and_canonical (rdBytes_canonical hr) (fun _a => ?_))
  split
  · exact evRet_canonical
  · exact evFail_canonical

theorem bindDequantise_canonical {r : Rd} (hr : r.KeepsCanonical) {b row0 col0} : (bindDequantise r b row0 col0).KeepsCanonical := by
  unfold bindDequantise
  exact and_canonical (bindHandle_canonical hr)
    (fun _a => evList_canonical (fun _a => and_canonical (evList_canonical (fun _a => bindBlock_canonical hr)) (fun _a => evRet_canonical)))

theorem bindElem_canonical {r : Rd} (hr : r.KeepsCanonical) {b row col} : (bindElem r b row col).KeepsCanonical := by
  unfold bindElem
  exact rdBytes_canonical hr

theorem bindTranspose_canonical {r : Rd} (hr : r.KeepsCanonical) {b row0 col0} : (bindTranspose r b row0 col0).KeepsCanonical := by
  unfold bindTranspose
  exact evList_canonical (fun _a => and_canonical (evList_canonical (fun _a => bindElem_canonical hr)) (fun _a => evRet_canonical))

theorem bindHadamard_canonical {r : Rd} (hr : r.KeepsCanonical) {b row0 col0} : (bindHadamard r b row0 col0).KeepsCanonical := by
  unfold bindHadamard
  exact evList_canonical (fun _a => and_canonical (evList_canonical (fun _a => bindElem_canonical hr)) (fun _a => evRet_canonical))

theorem bindPlanes_canonical {r : Rd} (hr : r.KeepsCanonical) {b row0 col0} : (bindPlanes r b row0 col0).KeepsCanonical := by
  unfold bindPlanes
  exact and_canonical (bindHandle_canonical hr)
    (fun _a =>
      and_canonical (evList_canonical (fun _a => evList_canonical (fun _a => and_canonical (bindBlock_canonical hr) (fun _a => evRet_canonical))))
      (fun _a => evRet_canonical))

theorem refuseWg_canonical {s : State} (h : Canonical s) {w} : Canonical (s.refuseWg w) := by
  unfold State.refuseWg
  split
  · exact h
  · exact dispReap_canonical (freeWg_canonical (failDispatch_canonical h))

theorem bindStop_canonical {s : State} (h : Canonical s) {w g x va} : Canonical (s.bindStop w g x va) := by
  unfold State.bindStop
  exact unitFault_canonical (updWg_canonical h)

theorem bindStep_canonical {s : State} (h : Canonical s) {f : Rd → Bind → Nat → Nat → Ev BindOut} (hf : ∀ r b i j, Rd.KeepsCanonical r →
    (f r b i j).KeepsCanonical) {w kind} :
    Canonical (s.bindStep w kind f) := by
  unfold State.bindStep
  split
  · split
    · exact h
    · split
      · next hu => exact bindStop_canonical (fst_canonical hu (icData_canonical _ h))
      · next hu => exact refuseWg_canonical (fst_canonical hu (icData_canonical _ h))
      · next hu =>
        have hs := fst_canonical hu (icData_canonical _ h)
        dsimp only
        split
        · exact refuseWg_canonical hs
        · split
          · exact h
          · split
            · next hv => exact bindStop_canonical (fst_canonical hv (hf _ _ _ _ (fun _a _b => engRead_canonical) _ hs))
            · next hv => exact refuseWg_canonical (fst_canonical hv (hf _ _ _ _ (fun _a _b => engRead_canonical) _ hs))
            · next hv => exact updWg_canonical
                           (foldl_canonical (fun _a _b hs => spadWrite_canonical hs)
                             (fst_canonical hv (hf _ _ _ _ (fun _a _b => engRead_canonical) _ hs)))
  · exact h

-- The layout engine

theorem im2colPinned_canonical {d ctx m} : (im2colPinned d ctx m).KeepsCanonical := by
  unfold im2colPinned
  refine evFoldl_canonical (fun _a _b => evFoldl_canonical (fun _a _b => fun _a h => fstIf_canonical h ?_))
  split
  · next hu => exact fst_canonical hu (xlate_canonical h)
  · next hu => exact fstIf_canonical (fst_canonical hu (xlate_canonical h)) (fst_canonical hu (xlate_canonical h))

theorem im2colElem_canonical {rd : Rd} (hrd : rd.KeepsCanonical) {m r q} : (im2colElem rd m r q).KeepsCanonical := by
  unfold im2colElem
  exact ite_canonical (rdBytes_canonical hrd) evRet_canonical

theorem engWrite_canonical {d ctx va bs} : (engWrite d ctx va bs).KeepsCanonical := by
  unfold engWrite
  refine evFoldl_canonical (fun _a _b => fun _a h => fstIf_canonical h ?_)
  split
  · next hu => exact fst_canonical hu (xlate_canonical h)
  · next hu => exact l2Write_canonical (fst_canonical hu (xlate_canonical h))

theorem im2colLine_canonical {d ctx m l} : (im2colLine d ctx m l).KeepsCanonical := by
  unfold im2colLine
  exact and_canonical (evList_canonical (fun _a => im2colElem_canonical (fun _a _b => engRead_canonical))) (fun _a => engWrite_canonical)

theorem im2colGo_canonical {s : State} (h : Canonical s) {d ctx m ls n} : Canonical (im2colGo d ctx m ls n s).1 := by
  induction ls generalizing s n with
  | nil => exact h
  | cons l ls ih =>
    unfold im2colGo
    split
    · exact h
    · next hu => exact ih (fst_canonical hu (im2colLine_canonical _ h))

theorem im2colStep_canonical {s : State} (h : Canonical s) {d} : Canonical (s.im2colStep d) := by
  unfold State.im2colStep
  dsimp only
  split
  · exact h
  · refine if_canonical (dieCmdFail_canonical h) ?_
    split
    · next hu1 => exact dieCmdFault_canonical (fst_canonical hu1 (fstIf_canonical (im2colPinned_canonical _ h) h))
    · next hu1 => exact dieCmdFail_canonical (fst_canonical hu1 (fstIf_canonical (im2colPinned_canonical _ h) h))
    · next hu1 =>
        split
        · next hu2 =>
            exact dieCmdFault_canonical
              (updCur_canonical (fst_canonical hu2 (im2colGo_canonical (fst_canonical hu1 (fstIf_canonical (im2colPinned_canonical _ h) h)))))
        · next hu2 =>
            exact dieCmdFail_canonical (fst_canonical hu2 (im2colGo_canonical (fst_canonical hu1 (fstIf_canonical (im2colPinned_canonical _ h) h))))
        · next hu2 =>
            exact dieCmdDone_canonical
              (updCur_canonical (fst_canonical hu2 (im2colGo_canonical (fst_canonical hu1 (fstIf_canonical (im2colPinned_canonical _ h) h)))))

-- Dicing and binning

theorem rsbRmw_canonical {d ctx va n f} : (rsbRmw d ctx va n f).KeepsCanonical := by
  unfold rsbRmw
  refine fun _a h => fstIf_canonical h ?_
  split
  · next hu => exact fst_canonical hu (xlate_canonical h)
  · next hu =>
      dsimp only
      split
      · exact fst_canonical hu (xlate_canonical h)
      · exact homeWrite_canonical (if_canonical (dirTouch_canonical (fst_canonical hu (xlate_canonical h))) (fst_canonical hu (xlate_canonical h)))

theorem rsbAdd_canonical {d ctx va n v} : (rsbAdd d ctx va n v).KeepsCanonical := by
  unfold rsbAdd
  exact ite_canonical evRet_canonical (and_canonical rsbRmw_canonical (fun _a => evRet_canonical))

theorem rsbTake_canonical {d ctx va n k pool} : (rsbTake d ctx va n k pool).KeepsCanonical := by
  unfold rsbTake
  exact and_canonical rsbRmw_canonical (fun _a => ite_canonical evRet_canonical evFail_canonical)

theorem gfxFate_canonical {s : State} (h : Canonical s) {d die a} : Canonical (s.gfxFate d die a) := by
  unfold State.gfxFate
  exact dispReap_canonical (failDispatch_canonical h)

theorem gfxFault_canonical {s : State} (h : Canonical s) {site d die f va} : Canonical (s.gfxFault site d die f va) := by
  unfold State.gfxFault
  exact unitFault_canonical h

theorem diceNext_canonical {d n ctx r p gs disc} {w : DiceWork} {f : Ev DiceWork} (hf : diceNext d n ctx r p gs disc w = some f) :
    f.KeepsCanonical := by
  unfold diceNext at hf
  dsimp only at hf
  split at hf
  · obtain rfl := Option.some.inj hf
    exact and_canonical rsbAdd_canonical (fun _a => evRet_canonical)
  · obtain rfl := Option.some.inj hf
    exact ite_canonical evRet_canonical (and_canonical rsbTake_canonical (fun _a => evRet_canonical))
  · obtain rfl := Option.some.inj hf
    exact and_canonical engWrite_canonical (fun _a => evRet_canonical)
  · split at hf
    · cases hf
    · obtain rfl := Option.some.inj hf
      exact and_canonical engWrite_canonical (fun _a => and_canonical rsbAdd_canonical (fun _a s hs => updGfx_canonical hs))

theorem diceGo_canonical {s : State} (h : Canonical s) {d n ctx b p w} : Canonical (diceGo d n ctx b p w s).1 := by
  exact goOn_canonical (fun w f hf => diceNext_canonical hf) h

theorem diceBegin_canonical {d ctx b e} : (diceBegin d ctx b e).KeepsCanonical := by
  unfold diceBegin
  split
  · exact evRet_canonical
  · exact and_canonical (rdBytes_canonical (fun _a _b => engRead_canonical)) (fun _a => evRet_canonical)

theorem diceStep_canonical {s : State} (h : Canonical s) {d} : Canonical (s.diceStep d) := by
  unfold State.diceStep
  dsimp only
  split
  · exact h
  · split
    · exact h
    · refine if_canonical h ?_
      split
      · refine gfxFault_canonical (updDie_canonical ?_ ?_)
        · exact of_canon h
        · intro x hs
          assumption
      · refine gfxFate_canonical ?_
        exact of_canon h
      · next hu2 =>
          split
          · next hu3 =>
              refine gfxFault_canonical
                (updDie_canonical (updDie_canonical (fst_canonical hu3 (diceGo_canonical (fst_canonical hu2 (diceBegin_canonical _ h)))) ?_) ?_)
              · intro x hs
                assumption
              · intro x hs
                assumption
          · next hu3 => exact gfxFate_canonical (fst_canonical hu3 (diceGo_canonical (fst_canonical hu2 (diceBegin_canonical _ h))))
          · next hu3 =>
              refine updDie_canonical (fst_canonical hu3 (diceGo_canonical (fst_canonical hu2 (diceBegin_canonical _ h)))) ?_
              intro x hs
              assumption

theorem hubRead_canonical {ctx a b} : (hubRead ctx a b).KeepsCanonical := by
  unfold hubRead
  exact readAt_canonical (fun _a _b _c _d hs => hs)

theorem hubFetch_canonical {ctx a b} : (hubFetch ctx a b).KeepsCanonical := by
  unfold hubFetch
  exact readAt_canonical (fun _a _b _c _d hs => hs)

theorem readRender_canonical {ctx a} : (readRender ctx a).KeepsCanonical := by
  unfold readRender
  exact and_canonical evNeed_canonical
    (fun _a => and_canonical (rdBytes_canonical (fun _a _b => hubRead_canonical)) (fun _a => and_canonical evNeed_canonical (fun _a => evRet_canonical)))

theorem readEntries_canonical {ctx b} : (readEntries ctx b).KeepsCanonical := by
  unfold readEntries
  exact and_canonical (rdBytes_canonical (fun _a _b => hubFetch_canonical))
    (fun _a =>
      and_canonical evNeed_canonical (fun _a => and_canonical (rdBytes_canonical (fun _a _b => hubFetch_canonical)) (fun _a => evNeed_canonical)))

theorem readPattern_canonical {ctx b} : (readPattern ctx b).KeepsCanonical := by
  unfold readPattern
  exact rdBytes_canonical (fun _a _b => engRead_canonical)

theorem clearSlots_canonical {s : State} (h : Canonical s) {d n} : Canonical (s.clearSlots d n) := by
  unfold State.clearSlots
  exact foldl_canonical (fun _a _b hs => bkWrite_canonical hs) h

theorem gfxTake_canonical {s : State} (h : Canonical s) {n b pat} : Canonical (s.gfxTake n b pat) := by
  unfold State.gfxTake
  refine updGfx_canonical (foldl_canonical (fun _a _b hs => updDie_canonical (clearSlots_canonical hs) ?_) h)
  intro x hs1
  grind

theorem gfxRetake_canonical {s : State} (h : Canonical s) {n q} {g : Gfx} (hg : ∀ b ∈ g.bks, b.1.wf = true) : Canonical (s.gfxRetake n q g) := by
  have hb : ∀ d x, (g.bks.getD d ([], none, x)).1.wf = true := fun d x => by
    rw [List.getD_eq_getElem?_getD]
    cases hd : g.bks[d]? with
    | none => rfl
    | some b => exact hg b (List.mem_of_getElem? hd)
  exact csaIdle_canonical (updGfx_wf_canonical (foldl_canonical (fun _a d hs => updDie_canonical hs (fun x _a => hb d x.rasters)) h)
    (fun _a _b => List.forall_mem_nil _))

theorem gfxRefuse_canonical {s : State} (h : Canonical s) {n} : Canonical (s.gfxRefuse n) := by
  unfold State.gfxRefuse
  exact dispReap_canonical (failDispatch_canonical h)

set_option tactic.hygienic true in
theorem gfxStart_canonical {s : State} (h : Canonical s) {n} : Canonical (s.gfxStart n) := by
  unfold State.gfxStart
  split
  · exact h
  · next x hx =>
    split
    · exact h
    · next g hg =>
      have hb : ∀ b ∈ g.bks, b.1.wf = true := h.2.2.2.1 (n, x) (mem_of_mget hx) g hg
      have hold : ∀ {s : State} {f va unit die acc}, Canonical s →
          Canonical ((s.updDisp n (fun y => { y with fault := true })).unitFault (.hubDone n) f va unit die 0xFF x.queue x.ctx acc) :=
        fun hs => unitFault_canonical (updDisp_canonical hs)
      dsimp only
      split
      · exact h
      · split
        · exact gfxRetake_canonical h hb
        · split
          · next hu => exact hold (fst_canonical hu (readRender_canonical _ h))
          · next hu => exact gfxRefuse_canonical (fst_canonical hu (readRender_canonical _ h))
          · next hu =>
            have hs := fst_canonical hu (readRender_canonical _ h)
            split
            · next hv => exact hold (fst_canonical hv (readEntries_canonical _ hs))
            · next hv => exact gfxRefuse_canonical (fst_canonical hv (readEntries_canonical _ hs))
            · next hv =>
              have ht := fst_canonical hv (readEntries_canonical _ hs)
              split
              · next hw => exact hold (fst_canonical hw (readPattern_canonical _ ht))
              · next hw => exact gfxFate_canonical (fst_canonical hw (readPattern_canonical _ ht))
              · next hw => exact gfxTake_canonical (fst_canonical hw (readPattern_canonical _ ht))

theorem gridVerts_canonical {r : Rd} (hr : r.KeepsCanonical) {a b} : (gridVerts r a b).KeepsCanonical := by
  unfold gridVerts
  exact and_canonical (evList_canonical (fun _a => and_canonical (rdBytes_canonical hr) (fun _a => evRet_canonical))) (fun _a => evRet_canonical)

theorem gbinEv_canonical {d ctx b a draw} : (gbinEv d ctx b a draw).KeepsCanonical := by
  unfold gbinEv
  exact and_canonical (rdBytes_canonical (fun _a _b => engRead_canonical))
    (fun _a =>
      and_canonical (gridVerts_canonical (fun _a _b => engRead_canonical))
      (fun _a =>
        and_canonical engWrite_canonical
        (fun _a => and_canonical engWrite_canonical (fun _a => and_canonical rsbAdd_canonical (fun _a => evRet_canonical)))))

theorem gbinGo_canonical {s : State} (h : Canonical s) {pd g ts} : Canonical (gbinGo pd s g ts).1 := by
  unfold gbinGo
  split
  · split
    · exact h
    · split
      · exact recordFault_canonical h
      · exact gfxFate_canonical h
      · next hu3 =>
          exact if_canonical
            (updWg_canonical
              (if_canonical (fst_canonical hu3 (gbinEv_canonical _ h))
                (foldl_canonical (fun _a _b hs => putRegs_canonical hs) (fst_canonical hu3 (gbinEv_canonical _ h)))))
            (updGfx_canonical
              (updWg_canonical
                (if_canonical (fst_canonical hu3 (gbinEv_canonical _ h))
                  (foldl_canonical (fun _a _b hs => putRegs_canonical hs) (fst_canonical hu3 (gbinEv_canonical _ h))))))
  · exact h

theorem gsubGo_canonical {s : State} (h : Canonical s) {f g ts} : Canonical (gsubGo f s g ts).1 := by
  unfold gsubGo
  split
  · split
    · exact recordFault_canonical h
    · exact gfxFate_canonical h
    · next hu2 =>
        refine countAll_canonical (updWg_canonical (updDie_canonical (fst_canonical hu2 (rdBytes_canonical (fun _a _b => engRead_canonical) _ h)) ?_))
        intro x hs
        grind
  · exact h

theorem taskEndEv_canonical {d ctx b t} : (taskEndEv d ctx b t).KeepsCanonical := by
  unfold taskEndEv
  exact ite_canonical evRet_canonical (ite_canonical rsbAdd_canonical rsbAdd_canonical)

theorem endTask_canonical {s : State} (h : Canonical s) {w} : Canonical (s.endTask w) := by
  unfold State.endTask
  split
  · refine if_canonical h ?_
    split
    · exact endWg_canonical h
    · split
      · refine gfxFault_canonical (updDie_canonical h ?_)
        intro x hs
        grind
      · exact gfxFate_canonical h
      · next hu3 => exact endWg_canonical (fst_canonical hu3 (taskEndEv_canonical _ h))
  · exact endWg_canonical h

theorem takeSlot_canonical {s : State} (h : Canonical s) {r n b} : Canonical (s.takeSlot r n b).1 := by
  unfold State.takeSlot
  split
  · exact h
  · exact updGfx_canonical (bkWrite_canonical h)

theorem addEntry_canonical {s : State} (h : Canonical s) {r n b extra e} : Canonical (s.addEntry r n b extra e) := by
  unfold State.addEntry
  exact bkWrite_canonical (bkWrite_canonical (bkWrite_canonical (takeSlot_canonical h)))

theorem linkChunk_canonical {d ctx n r b c} : (linkChunk d ctx n r b c).KeepsCanonical := by
  unfold linkChunk
  refine fun _a h => and_canonical engWrite_canonical (fun _a => and_canonical ?_ (fun _a => fun _a h1 => updGfx_canonical h1)) _ h
  split
  · exact engWrite_canonical
  · exact evRet_canonical

theorem spillStage_canonical {put : Nat → Nat → Ev Unit} (hp : ∀ a b, (put a b).KeepsCanonical) {extra : Ev Unit} (he : extra.KeepsCanonical)
    {d ctx n r b w need fin} :
    (spillStage d ctx n r b w need put extra fin).KeepsCanonical := by
  unfold spillStage
  refine fun _a h => ?_
  dsimp only
  split
  · exact and_canonical linkChunk_canonical (fun _a => evRet_canonical) _ h
  · exact and_canonical rsbTake_canonical (fun _a => evRet_canonical) _ h
  · exact fstIf_canonical
      (and_canonical rsbTake_canonical (fun _a => evRet_canonical) _ h)
      (and_canonical (hp _ _) (fun _a => and_canonical engWrite_canonical (fun _a => and_canonical he (fun _a => fun _a h1 => updGfx_canonical h1))) _
        h)

theorem spillPiece_canonical {d ctx n r b w body} : (spillPiece d ctx n r b w body).KeepsCanonical := by
  unfold spillPiece
  exact spillStage_canonical
    (fun _a _b => and_canonical engWrite_canonical (fun _a => engWrite_canonical))
    (and_canonical rsbAdd_canonical (fun _a => fun _a h => countDie_canonical h))

theorem spillRef_canonical {d ctx n r b w e} : (spillRef d ctx n r b w e).KeepsCanonical := by
  unfold spillRef
  exact spillStage_canonical (fun _a _b => engWrite_canonical) evRet_canonical

theorem putPiece_canonical {r n b body gidx} : (putPiece r n b body gidx).KeepsCanonical := by
  unfold putPiece
  exact fun _a h => addEntry_canonical (bkWrite_canonical (takeSlot_canonical h))

theorem placeStage_canonical {d ctx n r b w p} : (placeStage d ctx n r b w p).KeepsCanonical := by
  unfold placeStage
  exact fun _a h =>
    fstIf_canonical (spillPiece_canonical _ h)
    (fstIf_canonical
      (and_canonical putPiece_canonical (fun _a => evRet_canonical) _ h)
      (fstIf_canonical
        (and_canonical rsbAdd_canonical (fun _a => fun _a h1 => and_canonical putPiece_canonical (fun _a => evRet_canonical) _ (countDie_canonical h1))
          _
          h)
        (fstIf_canonical
          (and_canonical rsbAdd_canonical
            (fun _a => fun _a h1 => and_canonical putPiece_canonical (fun _a => evRet_canonical) _ (countDie_canonical h1))
            _
            h)
          (spillPiece_canonical _ h))))

theorem binNext_canonical {d ctx n r} {w : BinWork} {f : Ev BinWork} (hf : binNext d ctx n r w = some f) : f.KeepsCanonical := by
  unfold binNext at hf
  dsimp only at hf
  split at hf
  · obtain rfl := Option.some.inj hf
    exact placeStage_canonical
  · split at hf
    · obtain rfl := Option.some.inj hf
      intro s hs
      refine fstIf_canonical ?_ (spillRef_canonical _ hs)
      dsimp only
      exact addEntry_canonical hs
    · cases hf

theorem binGo_canonical {s : State} (h : Canonical s) {d ctx n r w} : Canonical (binGo d ctx n r w s).1 := by
  exact goOn_canonical (fun w f hf => binNext_canonical hf) h

theorem readGrid_canonical {d ctx r a} : (readGrid d ctx r a).KeepsCanonical := by
  unfold readGrid
  exact and_canonical (rdBytes_canonical (fun _a _b => engRead_canonical)) (fun _a => rdBytes_canonical (fun _a _b => engRead_canonical))

theorem binBegin_canonical {d ctx r i e} : (binBegin d ctx r i e).KeepsCanonical := by
  unfold binBegin
  split
  · exact evRet_canonical
  · exact and_canonical readGrid_canonical (fun _a s hs => uncountAll_canonical (updDie_canonical hs))

theorem binStep_canonical {s : State} (h : Canonical s) {d} : Canonical (s.binStep d) := by
  unfold State.binStep
  dsimp only
  split
  · exact h
  · split
    · exact h
    · refine if_canonical h ?_
      split
      · refine gfxFault_canonical (updDie_canonical ?_ ?_)
        · exact of_canon h
        · intro x hs
          assumption
      · refine gfxFate_canonical ?_
        exact of_canon h
      · next hu2 =>
          split
          · next hu3 =>
              refine gfxFault_canonical
                (updDie_canonical (updDie_canonical (fst_canonical hu3 (binGo_canonical (fst_canonical hu2 (binBegin_canonical _ h)))) ?_) ?_)
              · intro x hs
                assumption
              · intro x hs
                assumption
          · next hu3 => exact gfxFate_canonical (fst_canonical hu3 (binGo_canonical (fst_canonical hu2 (binBegin_canonical _ h))))
          · next hu3 =>
              refine updDie_canonical (fst_canonical hu3 (binGo_canonical (fst_canonical hu2 (binBegin_canonical _ h)))) ?_
              intro x hs
              assumption

theorem writeHeads_canonical {ctx r g} : (writeHeads ctx r g).KeepsCanonical := by
  unfold writeHeads
  exact evFoldl_canonical (fun _a _b => engWrite_canonical)

theorem binningDone_canonical {s : State} (h : Canonical s) {n} : Canonical (s.binningDone n) := by
  unfold State.binningDone
  split
  · exact h
  · refine if_canonical h ?_
    split
    · refine gfxFault_canonical (updDie_canonical ?_ ?_)
      · exact of_canon h
      · intro x hs
        assumption
    · exact gfxFate_canonical h
    · next hu1 => exact updGfx_canonical (fst_canonical hu1 (writeHeads_canonical _ h))

-- Rasterising

theorem poolPiece_canonical {d ctx r va} : (poolPiece d ctx r va).KeepsCanonical := by
  unfold poolPiece
  exact and_canonical (rdBytes_canonical (fun _a _b => engRead_canonical)) (fun _a => rdBytes_canonical (fun _a _b => engRead_canonical))

theorem itemPiece_canonical {d ctx r e} : (itemPiece d ctx r e).KeepsCanonical := by
  unfold itemPiece
  exact fun _a h => fstIf_canonical h (poolPiece_canonical _ h)

theorem chunkItems_canonical {d ctx r base used fuel off} : (chunkItems d ctx r base used fuel off).KeepsCanonical := by
  induction fuel generalizing off with
  | zero => exact evRet_canonical
  | succ fuel ih =>
    unfold chunkItems
    exact ite_canonical evRet_canonical (and_canonical (rdBytes_canonical (fun _a _b => engRead_canonical)) (fun _a =>
      and_canonical (ite_canonical poolPiece_canonical evRet_canonical) (fun _a => and_canonical ih (fun _a => evRet_canonical))))

theorem ringItems_canonical {d ctx r fuel c} : (ringItems d ctx r fuel c).KeepsCanonical := by
  induction fuel generalizing c with
  | zero => exact evRet_canonical
  | succ fuel ih =>
    unfold ringItems
    exact ite_canonical evRet_canonical (and_canonical (rdBytes_canonical (fun _a _b => engRead_canonical)) (fun _a =>
      and_canonical chunkItems_canonical (fun _a => and_canonical ih (fun _a => evRet_canonical))))

theorem bucketItems_canonical {d ctx n r g b} : (bucketItems d ctx n r g b).KeepsCanonical := by
  unfold bucketItems
  exact fun _a h => and_canonical ringItems_canonical (fun _a => evRet_canonical) _ h

theorem takeDraws_canonical {k} : (takeDraws k).KeepsCanonical := by
  unfold takeDraws
  exact fun _a h => h

theorem clearArea_canonical {s : State} (h : Canonical s) {d k r} : Canonical (s.clearArea d k r) := by
  unfold State.clearArea
  exact bkWrite_canonical h

theorem testPiece_canonical {s : State} (h : Canonical s) {d k b ps piece} : Canonical (s.testPiece d k b ps piece) := by
  unfold State.testPiece
  refine foldl_canonical (fun _a _b hs => ?_) h
  split
  · exact hs
  · exact bkWrite_canonical hs

theorem takeFragment_canonical {d ctx r x} : (takeFragment d ctx r x).KeepsCanonical := by
  unfold takeFragment
  exact and_canonical rsbRmw_canonical (fun _a => ite_canonical evRet_canonical (and_canonical rsbAdd_canonical (fun _a => evRet_canonical)))

theorem writeBucket_canonical {d ctx k r ps b head} : (writeBucket d ctx k r ps b head).KeepsCanonical := by
  unfold writeBucket
  exact fun _a h => and_canonical (evFoldl_canonical (fun _a _b => engWrite_canonical)) (fun _a => engWrite_canonical) _ h

theorem rasterNext_canonical {d ctx n k g b ps} {x : Raster} {f : Ev Raster} (hf : rasterNext d ctx n k g b ps x = some f) : f.KeepsCanonical := by
  have hp : ∀ e, (itemPiece d ctx (renderOf g.rr) e).KeepsCanonical := fun e => itemPiece_canonical
  unfold rasterNext at hf
  dsimp only at hf
  split at hf
  · cases hf
  · obtain rfl := Option.some.inj hf
    exact and_canonical bucketItems_canonical (fun _a s hs => clearArea_canonical hs)
  · split at hf
    · obtain rfl := Option.some.inj hf
      exact evRet_canonical
    · obtain rfl := Option.some.inj hf
      exact and_canonical (hp _) (fun _a s hs => by grind [testPiece_canonical])
  · split at hf
    · obtain rfl := Option.some.inj hf
      exact and_canonical engWrite_canonical (fun _a => evRet_canonical)
    · obtain rfl := Option.some.inj hf
      exact takeFragment_canonical
    · split at hf
      · obtain rfl := Option.some.inj hf
        exact evRet_canonical
      · obtain rfl := Option.some.inj hf
        exact and_canonical (hp _) (fun _a s hs => and_canonical takeDraws_canonical (fun _a => evRet_canonical) s hs)
  · obtain rfl := Option.some.inj hf
    exact and_canonical writeBucket_canonical (fun _a => evRet_canonical)

theorem rasterGo_canonical {s : State} (h : Canonical s) {d ctx n k g b x} : Canonical (rasterGo d ctx n k g b x s).1 := by
  exact goOn_canonical (fun x f hf => rasterNext_canonical hf) h

theorem updRaster_canonical {s : State} (h : Canonical s) {d k f} : Canonical (s.updRaster d k f) := by
  unfold State.updRaster
  refine updDie_canonical h ?_
  intro x hs
  grind

theorem takeBucket_canonical {s : State} (h : Canonical s) {d k} : Canonical (s.takeBucket d k) := by
  unfold State.takeBucket
  split
  · exact h
  · split
    · exact h
    · dsimp only
      split
      · exact h
      · split
        · exact h
        · refine updRaster_canonical (updGfx_canonical (if_canonical h (countDie_canonical h)) (fun y => ?_))
          split
          · rfl
          · rfl

theorem rasterStep_canonical {s : State} (h : Canonical s) {d k} : Canonical (s.rasterStep d k) := by
  unfold State.rasterStep
  split
  · exact h
  · split
    · exact h
    · split
      · refine if_canonical h ?_
        split
        · next hu4 => exact gfxFault_canonical (updRaster_canonical (fst_canonical hu4 (rasterGo_canonical h)))
        · next hu4 => exact gfxFate_canonical (fst_canonical hu4 (rasterGo_canonical h))
        · next hu4 =>
            exact if_canonical
              (updGfx_canonical (updRaster_canonical (fst_canonical hu4 (rasterGo_canonical h))))
              (updRaster_canonical (fst_canonical hu4 (rasterGo_canonical h)))
      · exact h

-- Commands of a queue

theorem hubStore_canonical {s : State} (h : Canonical s) {ctx va bs} : Canonical (s.hubStore ctx va bs).1 := by
  unfold State.hubStore
  refine fstIf_canonical h ?_
  split
  · next hu => exact fst_canonical hu (xlate_canonical h)
  · next hu =>
      exact homeWrite_canonical (if_canonical (dirTouch_canonical (fst_canonical hu (xlate_canonical h))) (fst_canonical hu (xlate_canonical h)))

theorem hubWrite_canonical {ctx va bs} : (hubWrite ctx va bs).KeepsCanonical := by
  unfold hubWrite
  exact evFoldl_canonical (fun _a _b => fun _a h => hubStore_canonical h)

theorem hubFault_canonical {s : State} (h : Canonical s) {site q ctx f va} : Canonical (s.hubFault site q ctx f va) := by
  unfold State.hubFault
  exact unitFault_canonical h

theorem startAcquire_canonical {s : State} (h : Canonical s) {c sc} : Canonical (s.startAcquire c sc) := by
  unfold State.startAcquire
  split
  · exact acquire_canonical h
  · exact h

theorem nextCmd_canonical {s : State} (h : Canonical s) {q} : Canonical (s.nextCmd q).1 := by
  unfold State.nextCmd
  split
  · exact h
  · refine fstIf_canonical h ?_
    split
    · next hu1 => exact hubFault_canonical (updQueue_canonical (fst_canonical hu1 (rdBytes_canonical (fun _a _b => hubRead_canonical) _ h)))
    · next hu1 => exact fst_canonical hu1 (rdBytes_canonical (fun _a _b => hubRead_canonical) _ h)
    · next hu1 =>
        exact fstIf_canonical
          (fst_canonical hu1 (rdBytes_canonical (fun _a _b => hubRead_canonical) _ h))
          (fst_canonical hu1 (rdBytes_canonical (fun _a _b => hubRead_canonical) _ h))

theorem advanceHead_canonical {s : State} (h : Canonical s) {q} : Canonical (s.advanceHead q) := by
  unfold State.advanceHead
  split
  · exact h
  · exact physStore_canonical (updQueue_canonical h)

theorem refuseCmd_canonical {s : State} (h : Canonical s) {q e} : Canonical (s.refuseCmd q e) := by
  unfold State.refuseCmd
  split
  · exact h
  · exact advanceHead_canonical (queueError_canonical h)

theorem runCmd_canonical {s : State} (h : Canonical s) {q b obj core late} : Canonical (s.runCmd q b obj core late) := by
  unfold State.runCmd
  split
  · exact h
  · exact advanceHead_canonical (updQueue_canonical h)

theorem withCmd_canonical {s : State} (h : Canonical s) {f : State → Queue → List Byte → State} (hf : ∀ s q b, Canonical s → Canonical (f s q b))
    {q want} :
    Canonical (s.withCmd q want f) := by
  unfold State.withCmd
  split
  · next hu => exact fst_canonical hu (nextCmd_canonical h)
  · next hu =>
      exact if_canonical (fst_canonical hu (nextCmd_canonical h))
        (if_canonical (hf _ _ _ (fst_canonical hu (nextCmd_canonical h))) (refuseCmd_canonical (fst_canonical hu (nextCmd_canonical h))))

theorem queueNop_canonical {s : State} (h : Canonical s) {q} : Canonical (s.queueNop q) := by
  unfold State.queueNop
  exact withCmd_canonical h (fun _a _b _c hs => advanceHead_canonical hs)

theorem launchParts_canonical {ctx l} : (launchParts ctx l).KeepsCanonical := by
  unfold launchParts
  exact and_canonical
    (evList_canonical (fun _a => rdBytes_canonical (fun _a _b => hubRead_canonical)))
    (fun _a => and_canonical (evList_canonical (fun _a => rdBytes_canonical (fun _a _b => hubRead_canonical))) (fun _a => evNeed_canonical))

theorem readLaunch_canonical {ctx a} : (readLaunch ctx a).KeepsCanonical := by
  unfold readLaunch
  exact and_canonical (rdBytes_canonical (fun _a _b => hubRead_canonical))
    (fun _a => and_canonical evNeed_canonical (fun _a => and_canonical launchParts_canonical (fun _a => fun _a h => fstIf_canonical h h)))

theorem launchEv_canonical {q slot cmd ctx a dies node acq} : (launchEv q slot cmd ctx a dies node acq).KeepsCanonical := by
  unfold launchEv
  exact and_canonical readLaunch_canonical (fun _a => fun _a h => h)

theorem launchEv_tidy {q slot cmd ctx a : Nat} {dies : BitVec 4} {node : Option (Nat × Nat)} {acq : Option Nat} {s u : State} {d : Dispatch}
    (h : launchEv q slot cmd ctx a dies node acq s = (u, .ok d)) :
    d.Tidy := by
  unfold launchEv Ev.and at h
  grind [Dispatch.Tidy, noGfx]

theorem addDisp_canonical {s : State} (h : Canonical s) {d : Dispatch} (hd : d.Tidy) : Canonical (s.addDisp d).1 := by
  obtain ⟨hm, hw, hb, hp, hl⟩ := h
  exact bump_canonical ⟨hm, hw, hb, List.forall_mem_append.mpr ⟨hp, List.forall_mem_singleton.mpr hd⟩, hl⟩

theorem launchFault_canonical {s : State} (h : Canonical s) {q k f va} : Canonical (s.launchFault q k f va) := by
  unfold State.launchFault
  exact hubFault_canonical (updQueue_canonical h)

theorem queueLaunch_canonical {s : State} (h : Canonical s) {q} : Canonical (s.queueLaunch q) := by
  refine withCmd_canonical h (fun s k b hs => ?_)
  dsimp only
  split
  · refine launchFault_canonical ?_
    exact of_canon hs
  · exact refuseCmd_canonical hs
  · next hu => exact runCmd_canonical (addDisp_canonical (fst_canonical hu (launchEv_canonical _ hs)) (launchEv_tidy hu))

theorem readGraph_canonical {ctx a} : (readGraph ctx a).KeepsCanonical := by
  unfold readGraph
  exact and_canonical (rdBytes_canonical (fun _a _b => hubRead_canonical))
    (fun _a =>
      and_canonical evNeed_canonical
      (fun _a =>
        and_canonical
        (evList_canonical
          (fun _a =>
            and_canonical (rdBytes_canonical (fun _a _b => hubRead_canonical)) (fun _a => and_canonical evNeed_canonical (fun _a => evRet_canonical))))
        (fun _a => and_canonical (evList_canonical (fun _a => readLaunch_canonical)) (fun _a => evRet_canonical))))

theorem writeInstance_canonical {ctx buf a ns ls} : (writeInstance ctx buf a ns ls).KeepsCanonical := by
  unfold writeInstance
  exact hubWrite_canonical

theorem queueGraph_canonical {s : State} (h : Canonical s) {q} : Canonical (s.queueGraph q) := by
  refine withCmd_canonical h (fun s k b hs => ?_)
  dsimp only
  split
  · refine launchFault_canonical ?_
    exact of_canon hs
  · exact refuseCmd_canonical hs
  · next hu =>
    have hr := fst_canonical hu (readGraph_canonical _ hs)
    split
    · exact hs
    · split
      · exact refuseCmd_canonical hs
      · split
        · refine launchFault_canonical ?_
          exact of_canon hs
        · exact refuseCmd_canonical hs
        · next hv =>
          have hw := fst_canonical hv (writeInstance_canonical _ hr)
          refine runCmd_canonical (bump_canonical ?_)
          exact of_canon hw

theorem failGraph_canonical {s : State} (h : Canonical s) {i code lrec} : Canonical (s.failGraph i code lrec) := by
  unfold State.failGraph
  split
  · exact h
  · refine graphReap_canonical ?_
    exact of_canon (queueError_canonical h)

theorem nodeStart_canonical {s : State} (h : Canonical s) {i n} : Canonical (s.nodeStart i n) := by
  unfold State.nodeStart
  split
  · exact h
  · split
    · split
      · exact h
      · dsimp only
        split
        · refine hubFault_canonical ?_
          exact of_canon h
        · exact failGraph_canonical h
        · next hu => exact of_canon (addDisp_canonical (fst_canonical hu (launchEv_canonical _ h)) (launchEv_tidy hu))
    · exact h

theorem hubDoneStore_canonical {s : State} (h : Canonical s) {ctx cw seq sc late} : Canonical (s.hubDoneStore ctx cw seq sc late).1 := by
  unfold State.hubDoneStore
  exact fstIf_canonical h (fstIf_canonical h (hubStore_canonical h))

theorem graphDone_canonical {s : State} (h : Canonical s) {i} : Canonical (s.graphDone i) := by
  unfold State.graphDone
  split
  · exact h
  · split
    · exact h
    · split
      · refine hubFault_canonical ?_
        exact of_canon h
      · exact failGraph_canonical h
      · next hu =>
        have hs := fst_canonical hu (hubDoneStore_canonical h)
        refine cmdEnd_canonical ?_
        exact of_canon hs

theorem queueWait_canonical {s : State} (h : Canonical s) {q} : Canonical (s.queueWait q) := by
  unfold State.queueWait
  exact withCmd_canonical h (fun _a _b _c hs => runCmd_canonical hs)

theorem updRun_canonical {s : State} (h : Canonical s) {q idx f} : Canonical (s.updRun q idx f) := by
  unfold State.updRun
  exact updQueue_canonical h

theorem runFault_canonical {s : State} (h : Canonical s) {q idx k f va} : Canonical (s.runFault q idx k f va) := by
  unfold State.runFault
  exact hubFault_canonical (updRun_canonical h)

theorem runFail_canonical {s : State} (h : Canonical s) {q idx} : Canonical (s.runFail q idx) := by
  unfold State.runFail
  exact cmdEnd_canonical (queueError_canonical h)

theorem waitRead_canonical {s : State} (h : Canonical s) {q k r} : Canonical (s.waitRead q k r) := by
  unfold State.waitRead
  dsimp only
  split
  · refine runFault_canonical ?_
    exact of_canon h
  · exact runFail_canonical h
  · next hu =>
      exact if_canonical
        (cmdEnd_canonical (fst_canonical hu (rdBytes_canonical (fun _a _b => hubRead_canonical) _ h)))
        (fst_canonical hu (rdBytes_canonical (fun _a _b => hubRead_canonical) _ h))

theorem queueWake_canonical {s : State} (h : Canonical s) {q} : Canonical (s.queueWake q) := by
  unfold State.queueWake
  split
  · exact foldl_canonical (fun _a _b hs => waitRead_canonical hs) h
  · exact h

theorem signalStore_canonical {s : State} (h : Canonical s) {q k r} : Canonical (s.signalStore q k r) := by
  unfold State.signalStore
  dsimp only
  split
  · refine runFault_canonical ?_
    exact of_canon h
  · exact runFail_canonical h
  · next hu => exact cmdEnd_canonical (fst_canonical hu (hubDoneStore_canonical h))

theorem queueSignal_canonical {s : State} (h : Canonical s) {q} : Canonical (s.queueSignal q) := by
  unfold State.queueSignal
  split
  · split
    · exact signalStore_canonical h
    · exact withCmd_canonical h (fun _a _b _c hs => if_canonical (refuseCmd_canonical hs) (signalStore_canonical (runCmd_canonical hs)))
  · exact h

theorem queueCopy_canonical {s : State} (h : Canonical s) {q} : Canonical (s.queueCopy q) := by
  unfold State.queueCopy
  refine withCmd_canonical h (fun _a _b _c hs => ?_)
  dsimp only
  split
  · exact hs
  · split
    · refine unitFault_canonical (updQueue_canonical ?_)
      exact of_canon hs
    · exact refuseCmd_canonical (bump_canonical hs)
    · next hu1 =>
        exact runCmd_canonical (updCore_canonical (fst_canonical hu1 (rdBytes_canonical (fun _a _b => engRead_canonical) _ (bump_canonical hs))))

theorem endDisp_canonical {s : State} (h : Canonical s) {n d} : Canonical (s.endDisp n d) := by
  obtain ⟨hm, hw, hb, _, hl⟩ := dropDispUnits_canonical (d := n) h
  obtain ⟨_, _, _, hp, _⟩ := canon_disps_mdel (k := n) h
  unfold State.endDisp
  dsimp only
  split
  · refine graphNode_canonical ?_
    exact ⟨hm, hw, hb, hp, hl⟩
  · refine cmdEnd_canonical ?_
    exact ⟨hm, hw, hb, hp, hl⟩

theorem dispDone_canonical {s : State} (h : Canonical s) {n} : Canonical (s.dispDone n) := by
  unfold State.dispDone
  split
  · exact h
  · refine if_canonical h ?_
    split
    · refine hubFault_canonical (updDisp_canonical ?_)
      exact of_canon h
    · exact dispReap_canonical (failDispatch_canonical h)
    · next hu1 => exact endDisp_canonical (fst_canonical hu1 (hubDoneStore_canonical h))

-- Mapping and admission

set_option tactic.hygienic true in
theorem saveGfx_canonical {s : State} (h : Canonical s) {n force} : Canonical (s.saveGfx n force) := by
  unfold State.saveGfx
  split
  · exact h
  · next x _ =>
    split
    · exact h
    · next g _ =>
      dsimp only
      split
      · exact h
      · generalize hr : List.foldl _ _ _ = r
        have hc : Canonical r.1 := hr ▸ foldl_fst_canonical (fun z d hz => by
          have ha := csaAppend_canonical (q := x.queue) (blk := gfxBlock d g (z.1.die d)) hz
          split
          · split <;> next e => rwa [e] at ha
          · exact hz) h
        split
        · refine updGfx_wf_canonical ?_ (fun _a _b => List.forall_mem_map.mpr hc.2.2.1)
          exact canon_dies_map hc
        · exact fatalQueue_canonical hc

theorem saveSlot_canonical {s : State} (h : Canonical s) {n} : Canonical (s.saveSlot n) := by
  unfold State.saveSlot
  exact foldl_canonical (fun _a _b hs => saveGfx_canonical hs) (foldl_canonical (fun _a _b hs => trySave_canonical hs) h)

theorem releaseSlot_canonical {s : State} (h : Canonical s) {n} : Canonical (s.releaseSlot n) := by
  unfold State.releaseSlot
  split
  · exact h
  · split
    · exact updSlot_canonical h
    · refine if_canonical ?_ (if_canonical (saveSlot_canonical h) h)
      exact of_canon (if_canonical (saveSlot_canonical h) h)

theorem bindSlot_canonical {s : State} (h : Canonical s) {n q} : Canonical (s.bindSlot n q) := by
  obtain ⟨hm, hw, hb, hp, hl⟩ := h
  refine ⟨hm, hw, hb, List.forall_mem_map.mpr (fun e he => ?_), hl⟩
  dsimp only
  split
  · exact hp e he
  · exact hp e he

theorem mapQueue_canonical {s : State} (h : Canonical s) {q} : Canonical (s.mapQueue q) := by
  unfold State.mapQueue
  split
  · exact h
  · refine if_canonical h ?_
    split
    · exact bindSlot_canonical h
    · refine if_canonical h ?_
      split
      · exact h
      · exact updQueue_canonical (updSlot_canonical h)

theorem mapperStep_canonical {s : State} (h : Canonical s) : Canonical s.mapperStep := by
  unfold State.mapperStep
  exact foldl_canonical (fun _a _b hs => mapQueue_canonical hs) (foldl_canonical (fun _a _b hs => releaseSlot_canonical hs) h)

theorem mapperLook_canonical {s : State} (h : Canonical s) : Canonical s.mapperLook := by
  unfold State.mapperLook
  exact if_canonical (mapperStep_canonical (foldl_canonical (fun _a _b hs => saveSlot_canonical hs) h))
    (foldl_canonical (fun _a _b hs => saveSlot_canonical hs) h)

theorem announce_canonical {s : State} (h : Canonical s) {q v} : Canonical (s.announce q v) := by
  unfold State.announce
  split
  · exact h
  · exact if_canonical (queueError_canonical h) (if_canonical h (physStore_canonical (updQueue_canonical h)))

theorem notify_canonical {s : State} (h : Canonical s) {fn off size v} : Canonical (s.notify fn off size v) := by
  unfold State.notify
  refine if_canonical h ?_
  split
  · exact if_canonical (mapperStep_canonical (announce_canonical h)) (logErr_canonical h)
  · exact logErr_canonical h

theorem preemptReq_canonical {s : State} (h : Canonical s) {n} : Canonical (s.preemptReq n) := by
  unfold State.preemptReq
  refine if_canonical h (saveSlot_canonical (foldl_canonical (fun _a _b hs => giveUpLease_canonical hs) ?_))
  exact of_canon h

theorem saveCopy_canonical {s : State} (h : Canonical s) {c q} : Canonical (s.saveCopy c q) := by
  unfold State.saveCopy
  split
  · dsimp only
    split
    · next hu2 =>
        exact fatalQueue_canonical
          (fst_canonical hu2 (csaAppend_canonical (if_canonical (dropFaults_canonical h) (progStore_canonical (dropFaults_canonical h)))))
    · next hu2 =>
        exact updQueue_canonical
          (updCore_canonical
            (fst_canonical hu2 (csaAppend_canonical (if_canonical (dropFaults_canonical h) (progStore_canonical (dropFaults_canonical h))))))
  · exact h

theorem preemptDeadline_canonical {s : State} (h : Canonical s) {c n} : Canonical (s.preemptDeadline c n) := by
  unfold State.preemptDeadline
  refine if_canonical h ?_
  dsimp only
  split
  · split
    · exact if_canonical
        (updSlot_canonical
          (foldl_canonical (fun _a _b hs => saveGfx_canonical hs) (saveCopy_canonical (foldl_canonical (fun _a _b hs => saveOrDie_canonical hs) h))))
        (foldl_canonical (fun _a _b hs => saveGfx_canonical hs) (saveCopy_canonical (foldl_canonical (fun _a _b hs => saveOrDie_canonical hs) h)))
    · exact if_canonical
        (updSlot_canonical (foldl_canonical (fun _a _b hs => saveGfx_canonical hs) (foldl_canonical (fun _a _b hs => saveOrDie_canonical hs) h)))
        (foldl_canonical (fun _a _b hs => saveGfx_canonical hs) (foldl_canonical (fun _a _b hs => saveOrDie_canonical hs) h))
  · split
    · exact if_canonical
        (updSlot_canonical (saveCopy_canonical (foldl_canonical (fun _a _b hs => saveOrDie_canonical hs) h)))
        (saveCopy_canonical (foldl_canonical (fun _a _b hs => saveOrDie_canonical hs) h))
    · exact if_canonical (updSlot_canonical (foldl_canonical (fun _a _b hs => saveOrDie_canonical hs) h))
        (foldl_canonical (fun _a _b hs => saveOrDie_canonical hs) h)

theorem takeConf_canonical {s : State} (h : Canonical s) {c l} : Canonical (s.takeConf c l) := by
  unfold State.takeConf
  exact if_canonical h (updCore_canonical (foldl_canonical (fun _a _b hs => l1Del_canonical (l1WriteBack_canonical hs)) h))

theorem takeWindow_canonical {s : State} (h : Canonical s) {n e l} : Canonical (s.takeWindow n e l) := by
  unfold State.takeWindow
  split
  · exact h
  · exact updDie_canonical h (fun _a _b => rfl)

theorem primeLines_canonical {s : State} (h : Canonical s) {c ctx l} : Canonical (s.primeLines c ctx l) := by
  unfold State.primeLines
  exact foldl_canonical (fun _a _b hs => icData_canonical _ hs) h

theorem newWg_tidy {n d xyz cl rank f task} : (newWg n d xyz cl rank f task).Tidy := by
  exact ⟨rfl, fun t ht => by rw [List.eq_of_mem_replicate ht]; rfl⟩

theorem admitWg_canonical {s : State} (h : Canonical s) {n d w cl rank xyz f entry task} : Canonical (s.admitWg n d w cl rank xyz f entry task) := by
  have hz : ∀ {z : State}, Canonical z → Canonical { z with wgs := z.wgs ++ [(w, newWg n d xyz cl rank f task)] } := fun {z} ⟨hm, hw, hd⟩ =>
    ⟨hm, List.forall_mem_append.mpr ⟨hw, List.forall_mem_singleton.mpr newWg_tidy⟩, hd⟩
  unfold State.admitWg
  dsimp only
  refine of_canon (hz (startAcquire_canonical ?_))
  have hc := takeWindow_canonical (n := n) (e := f.core / 32) (l := d.lr) (takeConf_canonical (c := f.core) (l := d.lr) h)
  have hs := primeLines_canonical (c := f.core) (ctx := d.ctx) (l := d.lr) hc
  exact if_canonical (acquire_canonical hs) hs

theorem admitCluster_canonical {s : State} (h : Canonical s) {n d ms fs set entry task} : Canonical (s.admitCluster n d ms fs set entry task) := by
  unfold State.admitCluster
  refine updDisp_canonical (foldl_canonical (fun _a _b hs => admitWg_canonical hs) ?_)
  exact of_canon h

theorem admitTask_canonical {s : State} (h : Canonical s) {n e t fs set} : Canonical (s.admitTask n e t fs set) := by
  unfold State.admitTask
  split
  · exact h
  · refine updGfx_canonical (admitCluster_canonical (bump_canonical h)) (fun y => ?_)
    split
    · rfl
    · rfl

theorem restoreWg_canonical {s : State} (h : Canonical s) {w d f} : Canonical (s.restoreWg w d f) := by
  unfold State.restoreWg
  split
  · exact h
  · exact if_canonical
      (tidyCore_canonical (updWg_canonical (primeLines_canonical (takeWindow_canonical (takeConf_canonical h)))))
      (tryBars_canonical
        (leaseStep_canonical
          (updQueue_canonical
            (acquire_canonical
              (updCore_canonical
                (foldl_canonical (fun _a _b hs => updGrp_canonical hs)
                  (foldl_canonical (fun _a _b hs => updGrp_canonical hs)
                    (updWg_canonical (primeLines_canonical (takeWindow_canonical (takeConf_canonical h)))))))))))

theorem restoreCluster_canonical {s : State} (h : Canonical s) {w fs set} : Canonical (s.restoreCluster w fs set) := by
  unfold State.restoreCluster
  split
  · refine if_canonical (fatalQueue_canonical h) (csaIdle_canonical (foldl_canonical (fun _a _b hs => restoreWg_canonical hs) ?_))
    exact of_canon h
  · exact h

theorem restoreCopy_canonical {s : State} (h : Canonical s) {q} : Canonical (s.restoreCopy q) := by
  unfold State.restoreCopy
  split
  · exact h
  · split
    · dsimp only
      split
      · exact csaIdle_canonical (updQueue_canonical (updCore_canonical (bump_canonical h)))
      · exact h
    · exact h

theorem serve_canonical {s : State} (h : Canonical s) {e} : Canonical (s.serve e) := by
  unfold State.serve
  split
  · dsimp only
    split
    · exact restoreCopy_canonical (updSlot_canonical h)
    · exact restoreCluster_canonical (updSlot_canonical h)
    · exact admitTask_canonical (updSlot_canonical h)
    · split
      · exact updSlot_canonical h
      · exact updDisp_canonical (admitCluster_canonical (updSlot_canonical h))
  · exact h

theorem dispatch_canonical {s : State} (h : Canonical s) {e} : Canonical (s.dispatch e) := by
  unfold State.dispatch
  dsimp only
  split
  · exact serve_canonical h
  · exact if_canonical (saveVictim_canonical (bump_canonical (bump_canonical h))) (serve_canonical (bump_canonical (bump_canonical h)))

-- Mailbox requests

theorem pageFault_canonical {s : State} (h : Canonical s) {site} : Canonical (s.pageFault site) := by
  unfold State.pageFault
  split
  · exact accFault_canonical h
  · exact h

theorem faultRecord_canonical {s : State} (h : Canonical s) {fn} : Canonical (s.faultRecord fn) := by
  unfold State.faultRecord
  split
  · exact if_canonical h (physStore_canonical (physStore_canonical h))
  · exact h

theorem mail_canonical {s : State} (h : Canonical s) {eff : State → State} (heff : ∀ s, Canonical s → Canonical (eff s)) {r op pfOnly ok} :
    Canonical (s.mail r op pfOnly ok eff) := by
  unfold State.mail
  exact if_canonical (logErr_canonical h)
    (if_canonical (physStore_canonical (logErr_canonical h))
      (if_canonical (physStore_canonical (logErr_canonical h)) (physStore_canonical (heff _ h))))

theorem mailUnlisted_canonical {s : State} (h : Canonical s) {r op} : Canonical (s.mailUnlisted r op) := by
  unfold State.mailUnlisted
  exact if_canonical (logErr_canonical h) (physStore_canonical (logErr_canonical h))

theorem queueCreate_canonical {s : State} (h : Canonical s) {r q desc} : Canonical (s.queueCreate r q desc) := by
  unfold State.queueCreate
  refine mail_canonical h (fun _a hs => physStore_canonical ?_)
  exact of_canon hs

theorem queueDestroy_canonical {s : State} (h : Canonical s) {r q} : Canonical (s.queueDestroy r q) := by
  unfold State.queueDestroy
  split
  · exact mail_canonical h (fun _a hs => hs)
  · refine mail_canonical h (fun _a hs => ?_)
    exact of_canon hs

theorem queueReset_canonical {s : State} (h : Canonical s) {r q} : Canonical (s.queueReset r q) := by
  unfold State.queueReset
  split
  · exact mail_canonical h (fun _a hs => hs)
  · exact mail_canonical h (fun _a hs => updQueue_canonical hs)

theorem contextGone_canonical {s : State} (h : Canonical s) {r ctx} : Canonical (s.contextGone r ctx) := by
  unfold State.contextGone
  refine mail_canonical h (fun _a hs => ?_)
  exact of_canon hs

theorem contextDefine_canonical {s : State} (h : Canonical s) {r ctx root} : Canonical (s.contextDefine r ctx root) := by
  unfold State.contextDefine
  refine if_canonical (contextGone_canonical h) (mail_canonical h (fun _a hs => ?_))
  exact of_canon hs

theorem dropTlb_canonical {s : State} (h : Canonical s) {hit via} : Canonical (s.dropTlb hit via) := by
  unfold State.dropTlb
  exact canon_dies_map (foldl_canonical (fun _a _b hs => receiveInj_canonical hs) h)

theorem invalidate_canonical {s : State} (h : Canonical s) {r ctx flags start len} : Canonical (s.invalidate r ctx flags start len) := by
  unfold State.invalidate
  exact if_canonical (dropTlb_canonical h) (mail_canonical h (fun _a hs => dropTlb_canonical hs))

theorem setHandler_canonical {s : State} (h : Canonical s) {r ctx entry} : Canonical (s.setHandler r ctx entry) := by
  unfold State.setHandler
  refine mail_canonical h (fun _a hs => ?_)
  exact of_canon hs

theorem delFault_canonical {s : State} (h : Canonical s) {id} : Canonical (s.delFault id) := by
  unfold State.delFault
  exact h

theorem wakeHeld_canonical {s : State} (h : Canonical s) {g} : Canonical (s.wakeHeld g) := by
  unfold State.wakeHeld
  exact if_canonical h (foldl_canonical (fun _a _b hs => updThr_canonical hs) (updGrp_canonical h))

theorem replay_canonical {s : State} (h : Canonical s) {id p} : Canonical (s.replay id p) := by
  unfold State.replay
  split
  · refine foldl_canonical (fun _a _b hs => wakeHeld_canonical hs) ?_
    exact of_canon h
  · exact wakeHeld_canonical (delFault_canonical h)
  · exact wakeHeld_canonical (delFault_canonical h)
  · exact updQueue_canonical (delFault_canonical h)
  · exact updQueue_canonical (delFault_canonical h)
  · exact updRun_canonical (delFault_canonical h)
  · exact updDisp_canonical (delFault_canonical h)
  · exact of_canon h
  · exact of_canon h

theorem faultReplay_canonical {s : State} (h : Canonical s) {r tag} : Canonical (s.faultReplay r tag) := by
  unfold State.faultReplay
  split
  · exact mail_canonical h (fun _a hs => hs)
  · exact mail_canonical h (fun _a hs => replay_canonical hs)

theorem cancelTrap_canonical {s : State} (h : Canonical s) {ts cause} : Canonical (s.cancelTrap ts cause) := by
  unfold State.cancelTrap
  exact takeTraps_canonical (foldl_canonical (fun _a _b hs => updThr_canonical hs) h)

theorem failEntry_canonical {s : State} (h : Canonical s) {e} : Canonical (s.failEntry e) := by
  unfold State.failEntry
  split
  · exact mxFail_canonical h
  · exact mxFail_canonical h
  · exact engineFail_canonical h
  · exact mxFail_canonical h

theorem cancelMatrix_canonical {s : State} (h : Canonical s) {c w} : Canonical (s.cancelMatrix c w) := by
  unfold State.cancelMatrix
  split
  · exact h
  · exact failEntry_canonical h

theorem cancelGfx_canonical {s : State} (h : Canonical s) {d} : Canonical (s.cancelGfx d) := by
  unfold State.cancelGfx
  split
  · exact gfxFate_canonical h
  · exact h

theorem cancelChain_canonical {s : State} (h : Canonical s) {e desc ctx} : Canonical (s.cancelChain e desc ctx) := by
  unfold State.cancelChain
  split
  · exact h
  · dsimp only
    split
    · exact engineFail_canonical (dropChain_canonical h)
    · exact queueError_canonical (dropChain_canonical h)

theorem cancelDone_canonical {s : State} (h : Canonical s) {n unit} : Canonical (s.cancelDone n unit) := by
  unfold State.cancelDone
  split
  · exact h
  · exact if_canonical (if_canonical (gfxFate_canonical h) (gfxRefuse_canonical h)) (dispReap_canonical (failDispatch_canonical h))

theorem cancelInst_canonical {s : State} (h : Canonical s) {i} : Canonical (s.cancelInst i) := by
  unfold State.cancelInst
  split
  · exact h
  · exact failGraph_canonical h

theorem cancelAt_canonical {s : State} (h : Canonical s) {site p} : Canonical (s.cancelAt site p) := by
  unfold State.cancelAt
  split
  · exact h
  · exact wakeHeld_canonical (cancelTrap_canonical h)
  · exact wakeHeld_canonical (cancelTrap_canonical h)
  · exact copyFail_canonical h
  · exact cancelChain_canonical h
  · split
    · exact dieCmdFail_canonical h
    · exact h
  · exact cancelMatrix_canonical h
  · exact refuseWg_canonical h
  · exact cancelGfx_canonical h
  · exact cancelGfx_canonical h
  · exact cancelGfx_canonical h
  · exact refuseCmd_canonical (updQueue_canonical h)
  · exact refuseCmd_canonical (updQueue_canonical h)
  · exact runFail_canonical h
  · exact cancelDone_canonical h
  · exact cancelInst_canonical h

theorem cancel_canonical {s : State} (h : Canonical s) {id p} : Canonical (s.cancel id p) := by
  unfold State.cancel
  dsimp only
  split
  · exact foldl_canonical (fun _a _b hs => wakeHeld_canonical hs) h
  · exact cancelAt_canonical (delFault_canonical h)

theorem faultCancel_canonical {s : State} (h : Canonical s) {r tag} : Canonical (s.faultCancel r tag) := by
  unfold State.faultCancel
  split
  · exact mail_canonical h (fun _a hs => hs)
  · exact mail_canonical h (fun _a hs => cancel_canonical hs)

theorem regionCreate_canonical {s : State} (h : Canonical s) {r region ctx} : Canonical (s.regionCreate r region ctx) := by
  unfold State.regionCreate
  refine mail_canonical h (fun _a hs => ?_)
  exact of_canon hs

theorem regionDelete_canonical {s : State} (h : Canonical s) {r region} : Canonical (s.regionDelete r region) := by
  unfold State.regionDelete
  refine mail_canonical h (fun _a hs => ?_)
  exact of_canon hs

theorem l2Pin_canonical {s : State} (h : Canonical s) {r die base size} : Canonical (s.l2Pin r die base size) := by
  unfold State.l2Pin
  refine mail_canonical h (fun _a hs => updDie_canonical hs ?_)
  intro x hs1
  grind

theorem l2Unpin_canonical {s : State} (h : Canonical s) {r die base} : Canonical (s.l2Unpin r die base) := by
  unfold State.l2Unpin
  split
  · exact mail_canonical h (fun _a hs => hs)
  · exact mail_canonical h (fun _a hs => updDie_canonical hs)

theorem engineAbort_canonical {s : State} (h : Canonical s) {r ctx die desc ix} : Canonical (s.engineAbort r ctx die desc ix) := by
  unfold State.engineAbort
  split
  · exact mail_canonical h (fun _a hs => hs)
  · exact mail_canonical h (fun _a hs => dieCmdFail_canonical hs)

theorem dasrRead_canonical {s : State} (h : Canonical s) {r die buf} : Canonical (s.dasrRead r die buf) := by
  unfold State.dasrRead
  refine mail_canonical h (fun _a hs => updDie_canonical (physStore_canonical hs) ?_)
  intro x hs1
  grind

theorem setTimes_canonical {s : State} (h : Canonical s) {r age quantum} : Canonical (s.setTimes r age quantum) := by
  unfold State.setTimes
  refine mail_canonical h (fun _a hs => ?_)
  exact of_canon hs

theorem peerWrite_canonical {s : State} (h : Canonical s) {r pkg addr} : Canonical (s.peerWrite r pkg addr) := by
  unfold State.peerWrite
  refine mail_canonical h (fun _a hs => ?_)
  exact of_canon hs

theorem attest_canonical {s : State} (h : Canonical s) {r nonce buf} : Canonical (s.attest r nonce buf) := by
  unfold State.attest
  exact mail_canonical h (fun _a hs => physStore_canonical hs)

theorem logRead_canonical {s : State} (h : Canonical s) {r buf} : Canonical (s.logRead r buf) := by
  unfold State.logRead
  exact mail_canonical h (fun _a hs => physStore_canonical hs)

theorem dieTime_canonical {s : State} (h : Canonical s) {d} : Canonical (s.dieTime d) := by
  unfold State.dieTime
  refine updDie_canonical (bump_canonical h) ?_
  intro x hs
  grind

theorem ctrRead_canonical {s : State} (h : Canonical s) {r die buf} : Canonical (s.ctrRead r die buf) := by
  unfold State.ctrRead
  exact mail_canonical h (fun _a hs => physStore_canonical (dieTime_canonical hs))

theorem ctrSelect_canonical {s : State} (h : Canonical s) {r die ctr ev} : Canonical (s.ctrSelect r die ctr ev) := by
  unfold State.ctrSelect
  refine mail_canonical h (fun _a hs => updDie_canonical (dieTime_canonical hs) ?_)
  intro x hs1
  grind

theorem ctrClear_canonical {s : State} (h : Canonical s) {r die} : Canonical (s.ctrClear r die) := by
  unfold State.ctrClear
  refine mail_canonical h (fun _a hs => updDie_canonical hs ?_)
  intro x hs1
  grind

theorem endLost_canonical {s : State} (h : Canonical s) : Canonical s.endLost := by
  unfold State.endLost
  exact foldl_canonical (fun _a _b hs => cancel_canonical hs) h

theorem endStep_canonical {s : State} (h : Canonical s) : Canonical s.endStep := by
  unfold State.endStep
  exact mapperLook_canonical (enterAll_canonical (settle_canonical (if_canonical (endLost_canonical h) h)))

theorem setRing_canonical {s : State} (h : Canonical s) {r base flsize} : Canonical (s.setRing r base flsize) := by
  unfold State.setRing
  split
  · refine mail_canonical h (fun _a hs => ?_)
    exact of_canon hs
  · refine mail_canonical h (fun _a hs => physStore_canonical ?_)
    exact of_canon hs

-- What reaches the part from outside

theorem bar2Byte_canonical {s : State} (h : Canonical s) {a b} : Canonical (s.bar2Byte a b) := by
  unfold State.bar2Byte
  refine if_canonical (canon_wr h) (if_canonical h ?_)
  split
  · exact h
  · exact if_canonical h (homeWrite_canonical (if_canonical (dirTouch_canonical h) h))

theorem bar2Read_canonical {s : State} (h : Canonical s) {a} : Canonical (s.bar2Read a).1 := by
  unfold State.bar2Read
  refine fstIf_canonical h (fstIf_canonical h ?_)
  split
  · exact h
  · exact if_canonical h (dirTouch_canonical h)

theorem bar2_canonical {s : State} (h : Canonical s) {addr write readLen} : Canonical (s.bar2 addr write readLen) := by
  unfold State.bar2
  refine if_canonical (foldl_canonical (fun _a _b hs => bar2Byte_canonical hs) h) (foldl_canonical (fun _a _b hs => ?_) ?_)
  · exact of_canon (bar2Read_canonical hs)
  · exact of_canon (foldl_canonical (fun _a _b hs => bar2Byte_canonical hs) h)

theorem partReset_canonical {s : State} (h : Canonical s) {img} : Canonical (s.partReset img) := by
  exact ⟨wf_filter h.1 _, List.forall_mem_nil _, fun _a hd => List.eq_of_mem_replicate hd ▸ rfl, List.forall_mem_nil _, rfl⟩

theorem fatalAll_canonical {s : State} (h : Canonical s) : Canonical s.fatalAll := by
  unfold State.fatalAll
  exact foldl_canonical (fun _a _b hs => fatalQueue_canonical hs) h

theorem thermalRead_canonical {s : State} (h : Canonical s) {temps} : Canonical (s.thermalRead temps) := by
  unfold State.thermalRead
  exact if_canonical (fatalAll_canonical h) (if_canonical h (if_canonical h h))

theorem powerRead_canonical {s : State} (h : Canonical s) {w} : Canonical (s.powerRead w) := by
  unfold State.powerRead
  exact if_canonical h h

theorem corrected_canonical {s : State} (h : Canonical s) {die unit addr} : Canonical (s.corrected die unit addr) := by
  unfold State.corrected
  exact logErr_canonical (countDie_canonical h)

theorem scrub_canonical {s : State} (h : Canonical s) {die fixed} : Canonical (s.scrub die fixed) := by
  unfold State.scrub
  exact foldl_canonical (fun _a _b hs => corrected_canonical hs) h

theorem unitHit_canonical {s : State} (h : Canonical s) {site} : Canonical (s.unitHit site) := by
  unfold State.unitHit
  dsimp only
  split
  · exact h
  · exact if_canonical (takeTraps_canonical h) h
  · exact if_canonical (takeTraps_canonical h) h
  · split
    · exact copyFail_canonical h
    · exact h
  · exact cancelChain_canonical h
  · split
    · exact if_canonical (dieCmdFail_canonical h) h
    · exact h
  · split
    · exact if_canonical (failEntry_canonical h) h
    · exact h
  · exact if_canonical (refuseWg_canonical h) h
  · exact cancelGfx_canonical h
  · exact cancelGfx_canonical h
  · exact cancelGfx_canonical h
  · exact if_canonical (refuseCmd_canonical h) h
  · exact if_canonical (refuseCmd_canonical h) h
  · exact if_canonical (runFail_canonical h) h
  · exact if_canonical (cancelDone_canonical h) h
  · exact if_canonical (cancelInst_canonical h) h

theorem dataHit_canonical {s : State} (h : Canonical s) {site} : Canonical (s.dataHit site) := by
  unfold State.dataHit
  split
  · split
    · exact lateTrap_canonical (finish_canonical h)
    · exact h
  · exact unitHit_canonical h
  · exact fatalQueue_canonical h

theorem linkError_canonical {s : State} (h : Canonical s) {die site retries} : Canonical (s.linkError die site retries) := by
  unfold State.linkError
  exact if_canonical (logErr_canonical (countDie_canonical h)) (dataHit_canonical (logErr_canonical (countDie_canonical h)))

theorem ucieError_canonical {s : State} (h : Canonical s) {link retries} : Canonical (s.ucieError link retries) := by
  unfold State.ucieError
  exact if_canonical (logErr_canonical (countDie_canonical h)) (fatalAll_canonical (logErr_canonical (countDie_canonical h)))

theorem assignVf_canonical {s : State} (h : Canonical s) {vf queues contexts slots} : Canonical (s.assignVf vf queues contexts slots) := by
  unfold State.assignVf
  exact if_canonical h h

theorem notifyRead_canonical {s : State} (h : Canonical s) {fn off size} : Canonical (s.notifyRead fn off size) := by
  unfold State.notifyRead
  dsimp only
  split
  · exact h
  · exact bump_canonical h

theorem outsideStep_canonical {s : State} (h : Canonical s) {a} : Canonical (s.outsideStep a) := by
  unfold State.outsideStep
  split
  · exact h
  · exact notifyRead_canonical h
  · exact corrected_canonical h
  · exact h
  · exact dataHit_canonical h

-- Agents

theorem arrive_canonical {s : State} (h : Canonical s) : Canonical s.arrive := by
  unfold State.arrive
  exact h

-- Buckets

theorem descBump_canonical {s : State} (h : Canonical s) {c ctx va old} : Canonical (s.descBump c ctx va old).1 := by
  unfold State.descBump
  split
  · next hu => exact fst_canonical hu (xlate_canonical h)
  · next hu =>
      exact homeWrite_canonical (if_canonical (dirTouch_canonical (fst_canonical hu (xlate_canonical h))) (fst_canonical hu (xlate_canonical h)))

theorem bkgetGo_canonical {s : State} (h : Canonical s) {f data a ts} : Canonical (bkgetGo f data s a ts).1 := by
  unfold bkgetGo
  split
  · exact h
  · dsimp only
    split
    · exact putRegs_canonical h
    · split
      · exact recordFault_canonical h
      · next hu1 => exact putRegs_canonical (fst_canonical hu1 (descBump_canonical h))

theorem bkdoneGo_canonical {s : State} (h : Canonical s) {f data a ts} : Canonical (bkdoneGo f data s a ts).1 := by
  unfold bkdoneGo
  split
  · exact h
  · dsimp only
    split
    · exact recordFault_canonical h
    · next hu => exact fst_canonical hu (descBump_canonical h)

theorem giveWay_canonical {s : State} (h : Canonical s) {s0 ts g} : Canonical (State.giveWay s0 s ts g) := by
  unfold State.giveWay
  dsimp only
  split
  · exact if_canonical
      (takeTraps_canonical
        (foldl_canonical (fun _a _b hs => updThr_canonical hs) (foldl_canonical (fun _a _b hs => updThr_canonical (release_canonical hs)) h)))
      (trySave_canonical (tryPhaseEnd_canonical (foldl_canonical (fun _a _b hs => updThr_canonical (release_canonical hs)) h)))
  · exact foldl_canonical (fun _a _b hs => updThr_canonical (release_canonical hs)) h

-- Collectives

theorem sendCord_canonical {s : State} (h : Canonical s) {m t back k phase v} : Canonical (s.sendCord m t back k phase v) := by
  unfold State.sendCord
  exact h

theorem raiseFl_canonical {d f} : (raiseFl d f).KeepsCanonical := by
  unfold raiseFl
  exact fun _a h => if_canonical h (raiseDasr_canonical h)

theorem cordRead_canonical {d ctx base m k} : (cordRead d ctx base m k).KeepsCanonical := by
  unfold cordRead
  exact and_canonical (rdBytes_canonical (fun _a _b => engRead_canonical)) (fun _a => evRet_canonical)

theorem cordWrite_canonical {d ctx base m k xs} : (cordWrite d ctx base m k xs).KeepsCanonical := by
  unfold cordWrite
  exact engWrite_canonical

theorem cordLocal_canonical {d ctx m k} : (cordLocal d ctx m k).KeepsCanonical := by
  unfold cordLocal
  exact and_canonical cordRead_canonical
    (fun _a =>
      ite_canonical (and_canonical cordRead_canonical (fun _a => and_canonical raiseFl_canonical (fun _a => evRet_canonical))) evRet_canonical)

theorem quantEf_canonical {d ctx m k xs} : (quantEf d ctx m k xs).KeepsCanonical := by
  unfold quantEf
  exact and_canonical raiseFl_canonical
    (fun _a =>
      ite_canonical (and_canonical raiseFl_canonical (fun _a => and_canonical cordWrite_canonical (fun _a => evRet_canonical))) evRet_canonical)

theorem evSend_canonical {m t back k phase v} : (evSend m t back k phase v).KeepsCanonical := by
  unfold evSend
  exact fun _a h => sendCord_canonical h

theorem gatherOwn_canonical {d ctx m t k v} : (gatherOwn d ctx m t k v).KeepsCanonical := by
  unfold gatherOwn
  exact and_canonical quantEf_canonical
    (fun _a => and_canonical raiseFl_canonical (fun _a => and_canonical cordWrite_canonical (fun _a => evSend_canonical)))

theorem collBegin_canonical {d ctx m t native k} : (collBegin d ctx m t native k).KeepsCanonical := by
  unfold collBegin
  exact ite_canonical
    (ite_canonical
      (and_canonical cordLocal_canonical
        (fun _a => and_canonical quantEf_canonical (fun _a => and_canonical evSend_canonical (fun _a => evRet_canonical))))
      evRet_canonical)
    (ite_canonical (and_canonical cordRead_canonical (fun _a => and_canonical gatherOwn_canonical (fun _a => evRet_canonical))) evRet_canonical)

theorem collReduce_canonical {d ctx m t native k v held} : (collReduce d ctx m t native k v held).KeepsCanonical := by
  unfold collReduce
  refine and_canonical raiseFl_canonical
    (fun _a =>
      and_canonical ?_
      (fun _a =>
        and_canonical raiseFl_canonical
        (fun _a =>
          ite_canonical
          (and_canonical quantEf_canonical (fun _a => and_canonical evSend_canonical (fun _a => evRet_canonical)))
          (ite_canonical evRet_canonical
            (ite_canonical
              (and_canonical gatherOwn_canonical (fun _a => evRet_canonical))
              (and_canonical cordWrite_canonical (fun _a => evRet_canonical)))))))
  split
  · exact evRet_canonical
  · exact cordLocal_canonical

theorem collGather_canonical {d ctx m t k v} : (collGather d ctx m t k v).KeepsCanonical := by
  unfold collGather
  exact and_canonical raiseFl_canonical
    (fun _a =>
      and_canonical cordWrite_canonical (fun _a => ite_canonical evRet_canonical (and_canonical evSend_canonical (fun _a => evRet_canonical))))

theorem collBegins_canonical {s : State} (h : Canonical s) {d ctx m t native n k hs} : Canonical (collBegins d ctx m t native n k s hs).1 := by
  induction n generalizing s k hs with
  | zero => exact h
  | succ n ih =>
    unfold collBegins
    split
    · exact h
    · next hu => exact ih (fst_canonical hu (collBegin_canonical _ h))

theorem collRun_canonical {s : State} (h : Canonical s) {d a r t} : Canonical (s.collRun d a r t) := by
  unfold State.collRun
  dsimp only
  split
  · exact updChain_canonical (collBegins_canonical h)
  · exact dieCmdFault_canonical (updChain_canonical (collBegins_canonical h))
  · exact dieCmdFail_canonical (updChain_canonical (collBegins_canonical h))

theorem collStep_canonical {s : State} (h : Canonical s) {d cop} : Canonical (s.collStep d cop) := by
  unfold State.collStep
  dsimp only
  split
  · exact if_canonical h (if_canonical (collRun_canonical h) (if_canonical (dieCmdDone_canonical h) h))
  · split
    · exact h
    · refine if_canonical (dieCmdFail_canonical h) ?_
      split
      · next hu2 =>
          exact dieCmdFault_canonical (fst_canonical hu2 (rdBytes_canonical (fun _a _b => engRead_canonical) _ (updCur_canonical h)))
      · next hu2 => exact dieCmdFail_canonical (fst_canonical hu2 (rdBytes_canonical (fun _a _b => engRead_canonical) _ (updCur_canonical h)))
      · next hu2 =>
          exact if_canonical
            (collRun_canonical (fst_canonical hu2 (rdBytes_canonical (fun _a _b => engRead_canonical) _ (updCur_canonical h))))
            (dieCmdFail_canonical (fst_canonical hu2 (rdBytes_canonical (fun _a _b => engRead_canonical) _ (updCur_canonical h))))

theorem cordArrive_canonical {s : State} (h : Canonical s) {d cord} : Canonical (s.cordArrive d cord) := by
  unfold State.cordArrive
  exact if_canonical h h

theorem cordStep_canonical {s : State} (h : Canonical s) {d} : Canonical (s.cordStep d) := by
  unfold State.cordStep
  dsimp only
  split
  · have hs : ∀ c, Canonical { s with cords := c } := fun _a => of_canon h
    split
    · exact h
    · split
      · exact dieCmdFail_canonical (hs _)
      · split
        · exact hs _
        · split
          · exact dieCmdFault_canonical (hs _)
          · next hu => exact dieCmdFail_canonical (fst_canonical hu (ite_canonical collReduce_canonical collGather_canonical _ (hs _)))
          · next hu => exact updChain_canonical (fst_canonical hu (ite_canonical collReduce_canonical collGather_canonical _ (hs _)))
  · exact h

-- A step

/-- The next state, where there is one, is canonical. -/
def KeepsNext : Host.Outcome State Fault Refusal → Prop
  | .next s => Canonical s
  | _ => True

theorem next_canonical {s : State} (h : Canonical s) : KeepsNext (.next s) := h

theorem runLanes_canonical {s : State} (h : Canonical s) {i lane} : KeepsNext (runLanes i lane s) := next_canonical (lanes_canonical h)

theorem runGroups_canonical {s : State} (h : Canonical s) {i chk} {eff : State → GroupId → List ThreadId → GroupFx}
    (he : ∀ s g ts, Canonical s → Canonical (eff s g ts).1) : KeepsNext (runGroups i chk eff s) := next_canonical (perGroup_canonical h he)

theorem lanesPost_canonical {s : State} (h : Canonical s) {i lane} {post : State → List ThreadId → State}
    (hp : ∀ s ts, Canonical s → Canonical (post s ts)) : KeepsNext (.next (s.lanesThen i lane post)) := next_canonical (lanesThen_canonical h hp)

theorem readsDesc_canonical {s : State} (h : Canonical s) {i unit req} : Canonical (s.readRecordsBy descRdr i unit req).1 :=
  readRecordsBy_canonical h (fun _a _b _c _d _e => descRdr_canonical)

theorem execBkdone_canonical {s : State} (h : Canonical s) {f} : KeepsNext (execBkdone f s) :=
  next_canonical (foldl_canonical (fun _a _b hs => giveWay_canonical hs)
    (perGroup_canonical (readsDesc_canonical h) (fun _a _b _c hs => bkdoneGo_canonical hs)))

theorem execJoinTimeout_canonical {s : State} (h : Canonical s) {t} : KeepsNext (execJoinTimeout t s) := by
  refine next_canonical ?_
  split
  · split
    · exact updThr_canonical h
    · exact h
  · exact h

theorem execFenceRel_canonical {s : State} (h : Canonical s) {f} : KeepsNext (execFenceRel f s) := by
  refine lanesPost_canonical h (fun _a _b hs => foldl_canonical (fun _a _b hs => release_canonical hs) ?_)
  split
  · exact hs
  · exact goBy_canonical hs

theorem execInjectedCopyInvalidate_canonical {s : State} (h : Canonical s) {core line} : KeepsNext (execInjectedCopyInvalidate core line s) := by
  refine next_canonical ?_
  split
  · exact dropCopy_canonical h
  · exact h

theorem passTimeIf_canonical {s : State} (h : Canonical s) {b : Bool} {c} : Canonical (if b then s.passTime c else s) := by
  split
  · exact passTime_canonical h
  · exact h

theorem exec_canonical {s : State} (h : Canonical s) (i : Instr) : KeepsNext (exec i s) := by
  cases i
  case nop | br | brx | call | callx | ret | iadd | iaddx | isub | isubx | imul | imulhi | imad | imadw | imin | imax | iabs | idot4 | and | or |
    xor | shl | shr | sar | rotl | bfe | bfi | popc | clz | brev | lea | lea64 | sel | iset | mov | movi | ldl | plop | pmov | pmovSet | fadd |
    fmul | ffma | fmin | fmax | fset | fdiv | frcp | frsq | fsqrt | fexp2 | flog2 | fsinp | fcosp | frnd | ffrac | fclass | f2i | i2f | fcvt |
    fpadd | fpmul | fpmad | qde4 | qde5 | qdb | qdt | qce4 | qce5 | qcb | qscl | dqe4 | dqe5 | dqb | dqt | share | vmask | elect | rdlane |
    scan | redux | matchLanes | ld | st | sti | wbr | invr | atom | acas | red | formatD => exact runLanes_canonical h
  case qsend => exact runGroups_canonical h (fun _a _b _c hs => qsendGo_canonical hs)
  case qrecv => exact runGroups_canonical h (fun _a _b _c hs => qrecvGo_canonical hs)
  case publish => exact runGroups_canonical h (fun _a _b _c hs => publishGo_canonical hs)
  case stage => exact runGroups_canonical h (fun _a _b _c hs => stageGo_canonical hs)
  case stageRel => exact runGroups_canonical h (fun _a _b _c hs => stageRelGo_canonical hs)
  case mma => exact runGroups_canonical h (fun _a _b _c hs => mmaGo_canonical hs)
  case accld | accst | accz => exact runGroups_canonical h (fun _a _b _c hs => accGo_canonical hs)
  case etake => exact runGroups_canonical h (fun _a _b _c hs => etakeGo_canonical hs)
  case egive => exact runGroups_canonical h (fun _a _b _c hs => egiveGo_canonical hs)
  case cpy => exact runGroups_canonical h (fun _a _b _c hs => cpyGo_canonical hs)
  case gbin => exact runGroups_canonical h (fun _a _b _c hs => gbinGo_canonical hs)
  case gsub => exact runGroups_canonical h (fun _a _b _c hs => gsubGo_canonical hs)
  case clauseStart => exact next_canonical (startClause_canonical h)
  case loadComplete | storeComplete => exact next_canonical (completeAcc_canonical h)
  case phaseQueueScan => exact next_canonical (scanPhaseQ_canonical h)
  case channelWake => exact next_canonical (wakeChan_canonical h)
  case waitaWake => exact next_canonical (waitaWake_canonical h)
  case icacheMissFill => exact next_canonical (fillLine_canonical h)
  case pageFault => exact next_canonical (pageFault_canonical h)
  case faultRecordWrite => exact next_canonical (faultRecord_canonical h)
  case injectedLineReceive => exact next_canonical (receiveInj_canonical h)
  case l2Eviction => exact next_canonical (evict_canonical h)
  case matrixChainRoom => exact next_canonical (chainRoom_canonical h)
  case matrixEntryStart => exact next_canonical (mxStart_canonical h)
  case matrixEntryComplete => exact next_canonical (mxComplete_canonical h)
  case chappRoom => exact next_canonical (chappRoom_canonical h)
  case chadvListRoom => exact next_canonical (chadvRoom_canonical h)
  case cpyQueueRoom => exact next_canonical (cpyQueueRoom_canonical h)
  case chainEntryTake => exact next_canonical (takeEntry_canonical h)
  case engineNop => exact next_canonical (nopStep_canonical h)
  case copyCommand => exact next_canonical (copyStep_canonical h)
  case copyCommandComplete => exact next_canonical (copyComplete_canonical h)
  case commandResume => exact next_canonical (commandResume_canonical h)
  case scheduleIterationStart => exact next_canonical (schedStart_canonical h)
  case scheduleIterationComplete => exact next_canonical (schedComplete_canonical h)
  case im2col => exact next_canonical (im2colStep_canonical h)
  case allReduce | reduceScatter | allGather | broadcast => exact next_canonical (collStep_canonical h)
  case graphicsDispatchStart => exact next_canonical (gfxStart_canonical h)
  case dicePatch => exact next_canonical (diceStep_canonical h)
  case binGrid => exact next_canonical (binStep_canonical h)
  case binningComplete => exact next_canonical (binningDone_canonical h)
  case takeBucket => exact next_canonical (takeBucket_canonical h)
  case rasteriseBucket => exact next_canonical (rasterStep_canonical h)
  case notifyWrite => exact next_canonical (notify_canonical h)
  case queueNop => exact next_canonical (queueNop_canonical h)
  case queueLaunch => exact next_canonical (queueLaunch_canonical h)
  case queueGraphLaunch => exact next_canonical (queueGraph_canonical h)
  case queueWait => exact next_canonical (queueWait_canonical h)
  case queueWaitWake => exact next_canonical (queueWake_canonical h)
  case queueSignal => exact next_canonical (queueSignal_canonical h)
  case queueCopy => exact next_canonical (queueCopy_canonical h)
  case graphNodeStart => exact next_canonical (nodeStart_canonical h)
  case graphInstanceComplete => exact next_canonical (graphDone_canonical h)
  case dispatcherTurn => exact next_canonical (dispatch_canonical h)
  case workgroupEnd => exact next_canonical (endTask_canonical h)
  case dispatchComplete => exact next_canonical (dispDone_canonical h)
  case preemptionRequest => exact next_canonical (preemptReq_canonical h)
  case preemptionDeadline => exact next_canonical (preemptDeadline_canonical h)
  case queueCreate => exact next_canonical (queueCreate_canonical h)
  case queueDestroy => exact next_canonical (queueDestroy_canonical h)
  case queueReset => exact next_canonical (queueReset_canonical h)
  case contextDefine => exact next_canonical (contextDefine_canonical h)
  case contextDelete => exact next_canonical (contextGone_canonical h)
  case translationInvalidate => exact next_canonical (invalidate_canonical h)
  case faultReplay => exact next_canonical (faultReplay_canonical h)
  case faultCancel => exact next_canonical (faultCancel_canonical h)
  case handlerRegister | handlerRemove => exact next_canonical (setHandler_canonical h)
  case regionCreate => exact next_canonical (regionCreate_canonical h)
  case regionDelete => exact next_canonical (regionDelete_canonical h)
  case l2Pin => exact next_canonical (l2Pin_canonical h)
  case l2Unpin => exact next_canonical (l2Unpin_canonical h)
  case engineCommandAbort => exact next_canonical (engineAbort_canonical h)
  case dasrReadClear => exact next_canonical (dasrRead_canonical h)
  case setAgeQuantum => exact next_canonical (setTimes_canonical h)
  case peerTableWrite => exact next_canonical (peerWrite_canonical h)
  case attestationRequest => exact next_canonical (attest_canonical h)
  case errorLogRead => exact next_canonical (logRead_canonical h)
  case dieCountersRead => exact next_canonical (ctrRead_canonical h)
  case dieCounterSelect => exact next_canonical (ctrSelect_canonical h)
  case dieCountersClear => exact next_canonical (ctrClear_canonical h)
  case faultRingRegister | faultRingRemove => exact next_canonical (setRing_canonical h)
  case hostBar2Access => exact next_canonical (bar2_canonical h)
  case partReset => exact next_canonical (partReset_canonical h)
  case thermalSensorRead => exact next_canonical (thermalRead_canonical h)
  case powerRead => exact next_canonical (powerRead_canonical h)
  case gddr7LinkCrcError => exact next_canonical (linkError_canonical h)
  case ucieCrcError => exact next_canonical (ucieError_canonical h)
  case vfResourceAssign => exact next_canonical (assignVf_canonical h)
  case mailboxOpcodeUnlisted => exact next_canonical (mailUnlisted_canonical h)
  case ldp | stp | pladd | rayq => exact runLanes_canonical (readRecords_canonical h)
  case getsr => exact runLanes_canonical (passTimeIf_canonical h)
  case exit => exact lanesPost_canonical h (fun _a _b hs => exitPost_canonical hs)
  case join => exact lanesPost_canonical h (fun _a _b hs => joinPost_canonical hs)
  case yield => exact lanesPost_canonical h (fun _a _b hs => yieldPost_canonical hs)
  case bkpt | trap => exact lanesPost_canonical h (fun _a _b hs => trapPost_canonical hs)
  case eret => exact lanesPost_canonical h (fun _a _b hs => eretPost_canonical hs)
  case barGrp | barWg | barCl => exact lanesPost_canonical h (fun _a _b hs => barPost_canonical hs)
  case setsr => exact lanesPost_canonical (passTimeIf_canonical h) (fun _a _b hs => setsrPost_canonical hs)
  case pref => exact lanesPost_canonical h (fun _a ts hs => foldl_canonical (fun _a t hs => prefetchLine_canonical hs) hs)
  case fenceAcq => exact lanesPost_canonical h (fun _a ts hs => foldl_canonical (fun _a _b hs => acquire_canonical hs) hs)
  case fenceRel => exact execFenceRel_canonical h
  case tfence => exact lanesPost_canonical h (fun _a ts hs => foldl_canonical (fun _a t hs => homeAll_canonical hs) hs)
  case waita => exact lanesPost_canonical h (fun _a ts hs => foldl_canonical (fun _a t hs => updThr_canonical hs) hs)
  case tex | texg => exact next_canonical (texGo_canonical h)
  case chapp => exact runGroups_canonical (readsDesc_canonical h) (fun _a _b _c hs => chappGo_canonical hs)
  case chadv => exact runGroups_canonical (readsDesc_canonical h) (fun _a _b _c hs => chadvGo_canonical hs)
  case bkget => exact runGroups_canonical (readsDesc_canonical h) (fun _a _b _c hs => bkgetGo_canonical hs)
  case bkdone => exact execBkdone_canonical h
  case joinTimeout => exact execJoinTimeout_canonical h
  case injectedCopyInvalidate => exact execInjectedCopyInvalidate_canonical h
  case prologueDequantise => exact next_canonical (bindStep_canonical h (fun _a _b _c _d hr => bindDequantise_canonical hr))
  case prologueTranspose => exact next_canonical (bindStep_canonical h (fun _a _b _c _d hr => bindTranspose_canonical hr))
  case prologueHadamard => exact next_canonical (bindStep_canonical h (fun _a _b _c _d hr => bindHadamard_canonical hr))
  case prologuePlaneReduction => exact next_canonical (bindStep_canonical h (fun _a _b _c _d hr => bindPlanes_canonical hr))
  case cordReceive => exact next_canonical (cordStep_canonical (cordArrive_canonical h))
  case mapperTimer => exact next_canonical (mapperStep_canonical (s := { s with hubTime := _ }) h)
  case gddr7Scrub => exact next_canonical (bump_canonical (scrub_canonical h))
  case pcieLinkFailure =>
    refine next_canonical ?_
    exact fatalAll_canonical h

theorem finishTurn_canonical {o : Host.Outcome State Fault Refusal} (ho : KeepsNext o) {before i} : KeepsNext (finishTurn before i o) := by
  cases o with
  | next s => exact next_canonical (endStep_canonical (afterIssue_canonical ho))
  | fault f => trivial
  | refused r => trivial

theorem finishEvent_canonical {o : Host.Outcome State Fault Refusal} (ho : KeepsNext o) : KeepsNext (finishEvent o) := by
  cases o with
  | next s => exact next_canonical (endStep_canonical ho)
  | fault f => trivial
  | refused r => trivial

set_option tactic.hygienic true in
theorem act_canonical {s : State} (h : Canonical s) (a : Agent) : KeepsNext (act a s) := by
  have he : ∀ {s : State}, Canonical s → ∀ i, KeepsNext (finishEvent (exec i s)) := fun hs i => finishEvent_canonical (exec_canonical hs i)
  cases a with
  | quarter c q =>
    have hq := quarterTurn_canonical (c := c) (q := q) h
    unfold act
    dsimp only
    split
    · next u hu => exact next_canonical (endStep_canonical (by rwa [hu] at hq))
    · next u i hu =>
      rw [hu] at hq
      exact finishTurn_canonical (exec_canonical hq i)
  | event i => exact he (s := { s with inputs := s.inputs.erase i }) h i
  | input =>
    unfold act
    dsimp only
    split
    · exact next_canonical h
    · next i rest _ => exact he (s := { s with inputs := rest }) h i
  | outside =>
    unfold act
    dsimp only
    split
    · exact next_canonical h
    · next o rest _ =>
      split
      · next i _ => exact he (s := { s with outside := rest }) h i
      · exact next_canonical (endStep_canonical (outsideStep_canonical (s := { s with outside := rest }) h))

set_option tactic.hygienic true in
theorem step_canonical {s : State} (h : Canonical s) : KeepsNext (step s) := by
  unfold step
  split
  · next a _ => exact act_canonical (s := { s with turn := none, tick := s.tick + 1 }) h a
  · have ht : Canonical { s.arrive with tick := s.tick + 1 } := arrive_canonical h
    dsimp only
    split
    · exact next_canonical ht
    · next a _ => exact act_canonical ht a

/-- Settles O58: every transition keeps the canonical form, so `exec` does, so does a step. -/
theorem stepKeepsCanonicalMemory : Obligations.StepKeepsCanonicalMemory := fun s z h hz => by
  have hs := step_canonical h
  rwa [hz] at hs

end Sys2Proof.Machine
end

section
/-! Loads, stores and atomics whose address is refused (R59, R109, R258 to R260). -/
namespace Sys2Proof.Machine

theorem checkAccess_eq (s : State) (w : Nat) (sp : Space) (a : DWord) (n : Nat) (store : Bool) :
    s.checkAccess w sp a n store = if a.toNat % n != 0 || (s.place w sp a n).isNone || (sp == .bucket && store && s.isGfx w)
      then some (illegalState a) else none := by
  unfold State.checkAccess
  cases hp : s.place w sp a n with
  | none => cases sp <;> simp
  | some p => cases sp <;> cases store <;> cases s.isGfx w <;> simp

/-- What only an atomic's address is refused for: the bucket memory at DEV or SYS, and a translation into the system range (R109). -/
def State.atomFar (s : State) (t : ThreadId) (sp : Space) (sc : Scope) (a : DWord) : Bool :=
  (sp == .bucket && (sc == .dev || sc == .sys))
    || (sp == .global && match (s.xlate (s.coreOf t / 32) (s.ctxOf t.wg) a.toNat { r := true, w := true }).2 with
      | .ok x => inSystem x.pa
      | .error _ => false)

theorem atCheck_eq (s : State) (t : ThreadId) (sp : Space) (sc : Scope) (a : DWord) (n : Nat) :
    s.atCheck t sp sc a n = if a.toNat % n != 0 || (s.place t.wg sp a n).isNone || (sp == .bucket && true && s.isGfx t.wg) || s.atomFar t sp sc a
      then some (illegalState a) else none := by
  unfold State.atCheck State.atomFar
  rw [checkAccess_eq]
  cases (a.toNat % n != 0 || (s.place t.wg sp a n).isNone || (sp == .bucket && true && s.isGfx t.wg)) with
  | true => rfl
  | false =>
    cases sp with
    | global => cases (s.xlate (s.coreOf t / 32) (s.ctxOf t.wg) a.toNat { r := true, w := true }).2 <;> rfl
    | bucket => cases sc <;> rfl
    | scratch | cluster => rfl

theorem ldLane_trap {f : MemF} {s : State} {ex : List ThreadId} {t : ThreadId} {tr : TrapInfo}
    (h : s.checkAccess t.wg f.sp (memAddr s f.sp f.a f.b f.idx f.c f.sz t) (szBytes f.sz) false = some tr) : ldLane f s ex t = .trap tr := by
  rw [memAddr_eff] at h
  simp only [ldLane, h]

theorem ldLane_fx {f : MemF} {s : State} {ex : List ThreadId} {t : ThreadId}
    (h : s.checkAccess t.wg f.sp (memAddr s f.sp f.a f.b f.idx f.c f.sz t) (szBytes f.sz) false = none) : ∃ e, ldLane f s ex t = .fx e := by
  rw [memAddr_eff] at h
  simp only [ldLane, h]
  exact ⟨_, (apply_ite LaneRes.fx _ _ _).symm⟩

theorem stLane_trap {f : MemF} {s : State} {ex : List ThreadId} {t : ThreadId} {tr : TrapInfo}
    (h : s.checkAccess t.wg f.sp (memAddr s f.sp f.a f.b f.idx f.c f.sz t) (szBytes f.sz) true = some tr) : stLane f s ex t = .trap tr := by
  rw [memAddr_eff] at h
  simp only [stLane, h]

theorem stLane_fx {f : MemF} {s : State} {ex : List ThreadId} {t : ThreadId}
    (h : s.checkAccess t.wg f.sp (memAddr s f.sp f.a f.b f.idx f.c f.sz t) (szBytes f.sz) true = none) : ∃ e, stLane f s ex t = .fx e := by
  rw [memAddr_eff] at h
  simp only [stLane, h]
  exact ⟨_, rfl⟩

/-- The address of an atomic, which has no immediate offset. -/
def State.atomAddr (s : State) (f : MemF) (t : ThreadId) : DWord :=
  (if f.sp = .global then s.rd64 t f.a else (s.rd t f.a).setWidth 64) + ((s.rd t f.b).setWidth 64 <<< f.idx.toNat)

theorem atomAddr_eff (s : State) (f : MemF) (t : ThreadId) : s.atomAddr f t = s.effAddr t f.sp f.a f.b f.idx.toNat 0 := by
  unfold State.atomAddr State.effAddr
  cases f.sp with
  | global | scratch | cluster | bucket => exact (BitVec.add_zero _).symm

section
variable {i : Instr} {k : AtKind} {ret : Bool} {f : MemF} {o : State → ThreadId → DWord × DWord} {s : State} {ex : List ThreadId} {t : ThreadId}

theorem atomLane_trap {tr : TrapInfo} (h : s.atCheck t f.sp f.sc (s.atomAddr f t) (szBytes f.sz) = some tr) :
    atomLane i k ret f o s ex t = .trap tr := by
  rw [atomAddr_eff] at h
  simp only [atomLane, h]

theorem atomLane_fx (h : s.atCheck t f.sp f.sc (s.atomAddr f t) (szBytes f.sz) = none) : ∃ e, atomLane i k ret f o s ex t = .fx e := by
  rw [atomAddr_eff] at h
  simp only [atomLane, h]
  exact ⟨_, (apply_ite LaneRes.fx _ _ _).symm⟩
end

/-- A word whose lanes make a check of their address: those for which `bad` holds trap, and no thread of the issue group executes it. -/
theorem checked_word_traps {s : State} {i : Instr} {w : Nat} {lane : State → List ThreadId → ThreadId → LaneRes} {chk : ThreadId → Option TrapInfo}
    {bad : ThreadId → Bool} {a : ThreadId → DWord} (hc : ∀ t, chk t = if bad t then some (illegalState (a t)) else none)
    (ht : ∀ t tr, chk t = some tr → lane s (s.executing i) t = .trap tr) (hf : ∀ t, chk t = none → ∃ e, lane s (s.executing i) t = .fx e)
    (he : exec i s = runLanes i lane s) (hr : Ready s i) (hb : (s.executing i).filter bad ≠ []) (hu : UserTrap s w ((s.executing i).filter bad)) :
    ∃ z, exec i s = .next z ∧ TrapsTaken s z w (((s.executing i).filter bad).map (fun t => (t, { cause := 2, addr := a t })))
      ((s.issuing i).filter (fun t => !((s.executing i).filter bad).contains t && t.wg == w)) Thread.pc := by
  refine ⟨_, he, trap_word lane _ bad (fun t => illegalState (a t)) hr (fun t _ => ?_) hb hu⟩
  specialize hc t
  split
  · next h => exact ht t _ (hc.trans (if_pos h))
  · next h => exact hf t (hc.trans (if_neg h))

/-- Settles O21: `checkAccess` and `atCheck` say for which addresses a lane traps. -/
theorem badAddressTraps : Obligations.BadAddressTraps := by
  intro s f w
  refine ⟨fun _ hr hb hu => ?_, fun _ hr hb hu => ?_, fun _ hr hb hu => ?_, fun _ hr hb hu => ?_, fun _ hr hb hu => ?_⟩
  · exact checked_word_traps (fun t => (checkAccess_eq s t.wg f.sp _ _ false).trans (by simp)) (fun _ _ => ldLane_trap) (fun _ => ldLane_fx) rfl hr hb hu
  · exact checked_word_traps (fun t => (checkAccess_eq s t.wg f.sp _ _ true).trans (by simp)) (fun _ _ => stLane_trap) (fun _ => stLane_fx) rfl hr hb hu
  · exact checked_word_traps (fun t => atCheck_eq s t f.sp f.sc _ _) (fun _ _ => atomLane_trap) (fun _ => atomLane_fx) rfl hr hb hu
  · exact checked_word_traps (fun t => atCheck_eq s t f.sp f.sc _ _) (fun _ _ => atomLane_trap) (fun _ => atomLane_fx) rfl hr hb hu
  · exact checked_word_traps (fun t => atCheck_eq s t f.sp f.sc _ _) (fun _ _ => atomLane_trap) (fun _ => atomLane_fx) rfl hr hb hu

end Sys2Proof.Machine
end

section
/-! A write-back that makes room for an injected line. -/
namespace Sys2Proof.Machine

/-- A line of core 0's L1 in set 0, with one dirty byte, in the way that the quota of 1 gives to injected lines. -/
def victimLine : L1Line :=
  { line := 256, valid := 15, dirty := 1, data := 0, inj := false, tag := 0, attr := ⟨false, false, 0, none⟩, way := 7, rank := .normal }

/-- An injected line on its way to core 0. -/
def injTo (line : Nat) (stale : Bool) : InjMsg := { core := 0, line := line, data := 0, sti := 0, attr := ⟨false, false, 0, none⟩, stale := stale }

/-- Core 0 holds that line; an overtaken injected line is about to displace it, and another copy of it is on its way. -/
def displacing : State :=
  { State.reset with cores := [(0, { Core.reset with conf := some (0, 1), l1 := [victimLine] })], injMsgs := [injTo 0 true, injTo 256 false] }

theorem displacing_canonical : Canonical displacing :=
  ⟨rfl, List.forall_mem_nil _, fun _ hd => List.eq_of_mem_replicate hd ▸ rfl, List.forall_mem_nil _, rfl⟩

/-- The home takes the displaced line's dirty byte and invalidates the other copies of the line, the one on its way too. -/
theorem displacing_receive : (displacing.receiveInj 0 0).injMsgs = [injTo 256 true] := by decide +kernel

/-- Refutes O47: the write-back of the displaced line marks another injected copy of that line, which is still on its way, as overtaken, so the messages
left are not those of before without the one received. -/
theorem not_linesMove : ¬ Obligations.LinesMove := by
  intro h
  obtain ⟨-, -, hstale, -⟩ := h displacing 0 0 0 displacing_canonical
  obtain ⟨z, hz, hm, -⟩ := hstale (injTo 0 true) rfl rfl
  obtain rfl := Host.Outcome.next.inj hz
  exact absurd (displacing_receive.symm.trans hm) (by decide +kernel)

end Sys2Proof.Machine
end

section
/-! Bytes that the hub stores at a physical address, and how the mailbox answers (R300). -/
namespace Sys2Proof.Machine

theorem dropCopy_mem (s : State) (c line : Nat) : (s.dropCopy c line).mem = s.mem := by
  unfold State.dropCopy
  split
  · rfl
  · rfl

theorem invalCopies_mem (s : State) (d line : Nat) (keep : BitVec 32) : (s.invalCopies d line keep).mem = s.mem := by
  have hd : (s.deliverInv d line).mem = s.mem := foldl_keeps _ State.mem _ (fun s (m : Nat × Nat) _ => dropCopy_mem s m.1 m.2) s
  unfold State.invalCopies
  dsimp only
  split
  · exact hd
  · refine (foldl_keeps _ State.mem _ (fun s k _ => ?_) _).trans hd
    split
    · exact dropCopy_mem ..
    · rfl

theorem homeWrite_mem (s : State) (pa : Nat) (bs : List Byte) (d : Nat) (keep : BitVec 32) : (s.homeWrite pa bs d keep).mem = s.mem.wrN pa bs := by
  unfold State.homeWrite
  dsimp only
  split
  · refine congrArg (fun m => Mem.wrN m pa bs) (foldl_keeps _ State.mem _ (fun s k _ => ?_) _)
    split
    · exact invalCopies_mem ..
    · rfl
  · rfl

/-- Bytes written one by one at their homes. -/
theorem rd_homeWrites {s : State} (hw : s.mem.wf = true) (pa n : Nat) (b : Nat → Byte) (k : Nat) :
    Mem.rd ((List.range n).foldl (fun s i => s.homeWrite (pa + i) [b i]) s).mem k = if pa ≤ k ∧ k < pa + n then b (k - pa) else Mem.rd s.mem k := by
  induction n with
  | zero => rw [if_neg (by omega)]; rfl
  | succ n ih =>
    have hm := (MemoryOnly.foldl (fun s i => s.homeWrite (pa + i) [b i]) (fun s i => homeWrite_only s _ _ _ _) (List.range n) s).2 hw
    rw [List.range_succ, List.foldl_append, List.foldl_cons, List.foldl_nil, homeWrite_mem, rd_wrN hm, ih, List.length_singleton]
    by_cases h : k = pa + n
    · subst h
      rw [if_pos (by omega), if_pos (by omega), Nat.add_sub_cancel_left, Nat.sub_self]
      rfl
    · rw [if_neg (by omega)]
      by_cases h' : pa ≤ k ∧ k < pa + n
      · rw [if_pos h', if_pos (by omega)]
      · rw [if_neg h', if_neg (by omega)]

theorem physStore_stored {s : State} (hw : s.mem.wf = true) {pa : Nat} (h : inMap pa = true) (bs : List Byte) : Stored s (s.physStore pa bs) pa bs := by
  unfold State.physStore
  rw [if_pos h]
  exact ⟨physWrite_only s pa bs, fun k => rd_homeWrites hw pa bs.length (fun i => bs.getD i 0) k⟩

theorem Stored.wf {u z : State} {pa : Nat} {bs : List Byte} (h : Stored u z pa bs) (hw : u.mem.wf = true) : z.mem.wf = true := h.1.2 hw

theorem bufOk_of_good {a : DWord} {n al : Nat} (h : GoodBuffer a n al) : bufOk a n al = true := by
  obtain ⟨h1, h2, h3⟩ := h
  simp [bufOk, h1, h2, h3]

theorem mail_done {s : State} {r : MailReq} {pf : Bool} (h : Accepts s r pf) (op : Nat) (eff : State → State) :
    s.mail r op pf true eff = (eff s).physStore r.cw.toNat (leBytes 8 1) := by
  obtain ⟨hfn, hcw, hmap, hv, hpf, hb⟩ := h
  unfold State.mail
  dsimp only
  rw [if_neg (by simp [hcw, hmap]; omega), if_neg (by simpa [hv] using hpf), if_neg (by simp [hb])]

theorem mail_refused {s : State} {r : MailReq} {pf : Bool} (h : Accepts s r pf) (op : Nat) (eff : State → State) :
    s.mail r op pf false eff = (s.logErr kindRefused 0xFF op r.cw).physStore r.cw.toNat (leBytes 8 0xFFFFFFFFFFFFFFFE) := by
  obtain ⟨hfn, hcw, hmap, hv, hpf, hb⟩ := h
  unfold State.mail
  dsimp only
  rw [if_neg (by simp [hcw, hmap]; omega), if_neg (by simpa [hv] using hpf), if_pos (by simp)]

/-- A request that the mailbox takes and that is good is carried out and answered. -/
theorem answers_of_mail {i : Instr} {s z u : State} {r : MailReq} {pf ok : Bool} {op : Nat} {eff : State → State} (ha : Accepts s r pf)
    (he : exec i s = .next z) (hz : z = s.mail r op pf ok eff) (hok : ok = true) (hu : eff s = u) (hw : u.mem.wf = true) : Answers i s u r 1 := by
  subst hok hz hu
  exact ⟨_, he.trans (congrArg _ (mail_done ha ..)), physStore_stored hw ha.2.2.1 _⟩

theorem logErr_eq (s : State) (kind die unit : Nat) (addr : DWord) : ∃ l, s.logErr kind die unit addr = { s with errlog := l } := by
  unfold State.logErr
  dsimp only
  split
  · split
    · exact ⟨_, rfl⟩
    · exact ⟨_, rfl⟩
  · exact ⟨_, rfl⟩

end Sys2Proof.Machine
end

section
/-! The mailbox requests about registers, pins, logs and counters (R70, R114, R191, R239, R301, R305, R308, R310). -/
namespace Sys2Proof.Machine

/-- The counters of a die after those of timed events have advanced. -/
def State.timedVals (s : State) (d : Nat) : List DWord :=
  (List.range 16).map (fun i =>
    let v := (s.die d).ctrVal.getD i 0
    let c := ((s.die d).ctrSel.getD i 0).toNat
    if timedDieEvents.contains c then (v + BitVec.ofNat 64 (Config.eventCount s.fresh c)) &&& 0xFFFFFFFFFFFF else v)

theorem timedVals_length (s : State) (d : Nat) : (s.timedVals d).length = 16 := by
  rw [State.timedVals, List.length_map, List.length_range]

theorem timedVals_untimed {s : State} {d k : Nat} (hk : k < 16) (h : ((s.die d).ctrSel.getD k 0).toNat ∉ timedDieEvents) :
    (s.timedVals d).getD k 0 = (s.die d).ctrVal.getD k 0 := by
  unfold State.timedVals
  rw [List.getD_eq_getElem?_getD, List.getElem?_map, List.getElem?_range hk]
  exact if_neg (fun hc => h (List.contains_iff_mem.mp hc))

theorem lmod_congr {α : Type} {l : List α} {n : Nat} {f g : α → α} (h : ∀ x, l[n]? = some x → f x = g x) : lmod l n f = lmod l n g := by
  apply List.ext_getElem?
  intro k
  rw [lmod_getElem?, lmod_getElem?]
  split
  · rename_i hk
    subst hk
    cases hx : l[n]? with
    | none => rfl
    | some x => exact congrArg some (h x hx)
  · rfl

theorem lmod_lmod {α : Type} (l : List α) (n : Nat) (f g : α → α) : lmod (lmod l n f) n g = lmod l n (fun x => g (f x)) := by
  apply List.ext_getElem?
  intro k
  rw [lmod_getElem?, lmod_getElem?, lmod_getElem?]
  split
  · exact Option.map_map ..
  · rfl

theorem die_of_getElem? {s : State} {d : Nat} {x : Die} (h : s.dies[d]? = some x) : s.die d = x := by
  rw [State.die, List.getD_eq_getElem?_getD, h]
  rfl

theorem dieTime_eq (s : State) (d : Nat) : s.dieTime d = { s with fresh := s.fresh + 1 }.updDie d (fun x => { x with ctrVal := s.timedVals d }) := by
  unfold State.dieTime State.updDie
  refine congrArg (fun l => { s with fresh := s.fresh + 1, dies := l }) (lmod_congr (fun x hx => ?_))
  unfold State.timedVals
  rw [die_of_getElem? (s := s) hx]

theorem flatMap_range_getD {α β : Type} (l : List α) (a : α) (f : α → List β) : (List.range l.length).flatMap (fun i => f (l.getD i a)) = l.flatMap f := by
  induction l with
  | nil => rfl
  | cons x l ih => rw [List.length_cons, List.range_succ_eq_map, List.flatMap_cons, List.flatMap_map, List.flatMap_cons, ← ih]; rfl

section
variable {s : State} {r : MailReq} (hc : Canonical s)
include hc

theorem dasrRead_answers (ha : Accepts s r true) {d : Nat} (hd : d < 4) {buf : DWord} (hb : GoodBuffer buf 4 4) :
    ∃ u, Stored s u buf.toNat (leBytes 4 (s.die d).dasr.toNat)
      ∧ Answers (.dasrReadClear r d buf) s (u.updDie d (fun x => { x with dasr := x.dasr &&& ~~~(s.die d).dasr })) r 1 := by
  have hs := physStore_stored hc.1 hb.2.1 (leBytes 4 (s.die d).dasr.toNat)
  refine ⟨_, hs, answers_of_mail ha rfl (by unfold State.dasrRead; rfl) ?_ rfl (hs.wf hc.1)⟩
  simp [hd, bufOk_of_good hb]

theorem logRead_answers (ha : Accepts s r true) {buf : DWord} (hb : GoodBuffer buf 8192 64) :
    ∃ u, Stored s u buf.toNat (s.errlog.flatMap ErrRec.bytes ++ zeros (8192 - (s.errlog.flatMap ErrRec.bytes).length))
      ∧ Answers (.errorLogRead r buf) s u r 1 := by
  have hs := physStore_stored hc.1 hb.2.1 (s.errlog.flatMap ErrRec.bytes ++ zeros (8192 - (s.errlog.flatMap ErrRec.bytes).length))
  exact ⟨_, hs, answers_of_mail ha rfl (by unfold State.logRead; rfl) (bufOk_of_good hb) rfl (hs.wf hc.1)⟩

theorem ctrRead_answers (ha : Accepts s r true) {d : Nat} (hd : d < 4) (hl : d < s.dies.length) {buf : DWord} (hb : GoodBuffer buf 128 8) :
    ∃ u, Stored ({ s with fresh := s.fresh + 1 }.updDie d (fun x => { x with ctrVal := s.timedVals d })) u buf.toNat
        ((s.timedVals d).flatMap (fun v => leBytes 8 v.toNat))
      ∧ Answers (.dieCountersRead r d buf) s u r 1 := by
  have hv : ((s.dieTime d).die d).ctrVal = s.timedVals d := by rw [dieTime_eq, die_updDie, if_pos ⟨rfl, hl⟩]
  have hs := physStore_stored (s := s.dieTime d) hc.1 hb.2.1 ((s.timedVals d).flatMap (fun v => leBytes 8 v.toNat))
  rw [← dieTime_eq]
  refine ⟨_, hs, ?_⟩
  have he : (List.range 16).flatMap (fun i => leBytes 8 (((s.dieTime d).die d).ctrVal.getD i 0).toNat) = (s.timedVals d).flatMap (fun v => leBytes 8 v.toNat) := by
    rw [hv, ← flatMap_range_getD (s.timedVals d) 0 (fun v => leBytes 8 v.toNat), timedVals_length]
  refine answers_of_mail ha rfl (by unfold State.ctrRead; rfl) ?_ (congrArg ((s.dieTime d).physStore buf.toNat) he) (hs.wf hc.1)
  simp [hd, bufOk_of_good hb]

theorem ctrSelect_answers (ha : Accepts s r true) {d k : Nat} (hd : d < 4) (hk : k < 16) (ev : Byte) :
    Answers (.dieCounterSelect r d k ev) s
      ({ s with fresh := s.fresh + 1 }.updDie d (fun x => { x with ctrVal := s.timedVals d, ctrSel := x.ctrSel.set k ev })) r 1 := by
  refine answers_of_mail ha rfl (by unfold State.ctrSelect; rfl) (by simp [hd, hk]) ?_ hc.1
  rw [dieTime_eq]
  unfold State.updDie
  rw [lmod_lmod]

theorem attest_answers (ha : Accepts s r false) {nonce : List Byte} {buf : DWord} (hn : nonce.length = 32) (hd : s.boot.digest.length = 64)
    (hb : GoodBuffer buf 4819 64) :
    let body := nonce ++ (List.range 64).map Config.bootRomDigest ++ s.boot.digest ++ leBytes 4 s.boot.version ++ leBytes 4 1
        ++ leBytes 8 s.profNative.toNat ++ leBytes 8 s.profDbp.toNat ++ leBytes 8 Config.serial.toNat
    ∃ u, Stored s u buf.toNat (body ++ (List.range 4627).map (Config.signature (sha3_512 body))) ∧ Answers (.attestationRequest r nonce buf) s u r 1 := by
  have hl : ∀ (l : List Byte), (List.range l.length).map (fun i => l.getD i 0) = l := fun l => by
    have := flatMap_range_getD l 0 (fun b => [b])
    rwa [List.flatMap_singleton', ← List.map_eq_flatMap] at this
  have hh : s.reportHead nonce = nonce ++ (List.range 64).map Config.bootRomDigest ++ s.boot.digest ++ leBytes 4 s.boot.version ++ leBytes 4 1
      ++ leBytes 8 s.profNative.toNat ++ leBytes 8 s.profDbp.toNat ++ leBytes 8 Config.serial.toNat := by
    unfold State.reportHead
    have hn' := hl nonce
    have hd' := hl s.boot.digest
    rw [hn] at hn'
    rw [hd] at hd'
    rw [hn', hd']
  have hs := physStore_stored hc.1 hb.2.1 (s.report nonce)
  unfold State.report at hs
  rw [hh] at hs
  refine ⟨_, hs, answers_of_mail ha rfl (by unfold State.attest; rfl) (bufOk_of_good hb) ?_ (hs.wf hc.1)⟩
  rw [State.report, hh]
end

end Sys2Proof.Machine
end

section
/-! ENGINE_COMMAND_ABORT (R191): what the end of an engine's command leaves as it was. -/
namespace Sys2Proof.Machine

/-- Threads, workgroups, queues and the number of dies stand as they were. -/
structure WorkKept (s z : State) : Prop where
  threads : z.threads = s.threads
  wgs : z.wgs = s.wgs
  queues : z.queues = s.queues
  dies : z.dies.length = s.dies.length

theorem WorkKept.trans {a b c : State} (h : WorkKept a b) (g : WorkKept b c) : WorkKept a c :=
  ⟨g.threads.trans h.threads, g.wgs.trans h.wgs, g.queues.trans h.queues, g.dies.trans h.dies⟩

/-- So do the chains of every engine. -/
structure ChainsKept (s z : State) : Prop extends WorkKept s z where
  chains : ∀ e, z.chainsOf e = s.chainsOf e

theorem ChainsKept.trans {a b c : State} (h : ChainsKept a b) (g : ChainsKept b c) : ChainsKept a c :=
  ⟨h.toWorkKept.trans g.toWorkKept, fun e => (g.chains e).trans (h.chains e)⟩

theorem chainsOf_sameUnits {s z : State} (h : SameUnits s z) (e : EngRef) : z.chainsOf e = s.chainsOf e := by
  obtain ⟨-, hc, hd⟩ := h
  cases e with
  | copy c => exact (congrArg Core.chains (hc c)).trans rfl
  | layout d => exact (congrArg Die.layout (hd d)).trans rfl
  | collective d => exact (congrArg Die.coll (hd d)).trans rfl

theorem chainsKept_closed : L1Closed ChainsKept where
  refl _ := ⟨⟨rfl, rfl, rfl, rfl⟩, fun _ => rfl⟩
  trans := ChainsKept.trans
  dropCopy s c l := by
    have hm := memoryOnly_closed.dropCopy s c l
    have hu := sameUnits_closed.dropCopy s c l
    exact ⟨⟨by rw [hm], by rw [hm], by rw [hm], hu.1⟩, chainsOf_sameUnits hu⟩
  die s d f hf := ⟨⟨rfl, rfl, rfl, lmod_length ..⟩, chainsOf_sameUnits (sameUnits_closed.die s d f hf)⟩
  rest _ _ _ _ _ _ _ := ⟨⟨rfl, rfl, rfl, rfl⟩, fun _ => rfl⟩
  core s c f hf := ⟨⟨rfl, rfl, rfl, rfl⟩, chainsOf_sameUnits (sameUnits_closed.core s c f hf)⟩

theorem physStore_chainsKept (s : State) (pa : Nat) (bs : List Byte) : ChainsKept s (s.physStore pa bs) := by
  unfold State.physStore
  split
  · exact chainsKept_closed.toL2Closed.foldl _ (fun s i => chainsKept_closed.toL2Closed.homeWrite s _ _ _ _) _ s
  · exact chainsKept_closed.refl s

/-- The engine is one of the two of a die of the part. -/
def OnDie (s : State) (e : EngRef) : Prop := ∃ d < s.dies.length, e = .layout d ∨ e = .collective d

theorem OnDie.of_dies {s z : State} {e : EngRef} (h : OnDie s e) (hl : z.dies.length = s.dies.length) : OnDie z e := by
  obtain ⟨d, hd, he⟩ := h
  exact ⟨d, hl ▸ hd, he⟩

theorem onDie_of_chain {s : State} {e : EngRef} {d ctx : Nat} {desc : DWord} {h : Chain} (he : e = .layout d ∨ e = .collective d)
    (hx : s.chain e desc ctx = some h) : OnDie s e := by
  refine ⟨d, Nat.lt_of_not_le (fun hl => ?_), he⟩
  have hd : s.die d = Die.reset := by rw [State.die, List.getD_eq_getElem?_getD, List.getElem?_eq_none hl]; rfl
  unfold State.chain at hx
  rcases he with rfl | rfl
  · rw [State.chainsOf, hd] at hx; cases hx
  · rw [State.chainsOf, hd] at hx; cases hx

theorem updChain_workKept {s : State} {e : EngRef} (he : OnDie s e) (desc : DWord) (ctx : Nat) (f : Chain → Chain) :
    WorkKept s (s.updChain e desc ctx f) := by
  obtain ⟨d, -, rfl | rfl⟩ := he
  · exact ⟨rfl, rfl, rfl, lmod_length ..⟩
  · exact ⟨rfl, rfl, rfl, lmod_length ..⟩

theorem chainsOf_updChain {s : State} {e : EngRef} (he : OnDie s e) (desc : DWord) (ctx : Nat) (f : Chain → Chain) :
    (s.updChain e desc ctx f).chainsOf e = (s.chainsOf e).map (fun h => if h.is desc ctx then f h else h) := by
  obtain ⟨d, hd, rfl | rfl⟩ := he
  · exact congrArg Die.layout ((die_updDie ..).trans (if_pos ⟨rfl, hd⟩))
  · exact congrArg Die.coll ((die_updDie ..).trans (if_pos ⟨rfl, hd⟩))

/-- The chains with a descriptor and a context have no command in progress. -/
def State.noCmd (s : State) (e : EngRef) (desc : DWord) (ctx : Nat) : Prop := ∀ y ∈ s.chainsOf e, y.is desc ctx = true → y.cur = none

theorem noCmd_updChain {s : State} {e : EngRef} (he : OnDie s e) {desc : DWord} {ctx : Nat} {f : Chain → Chain}
    (hf : ∀ h ∈ s.chainsOf e, h.is desc ctx = true → (f h).cur = none) : (s.updChain e desc ctx f).noCmd e desc ctx := by
  intro y hy hi
  rw [chainsOf_updChain he] at hy
  obtain ⟨h, hh, rfl⟩ := List.mem_map.mp hy
  by_cases hc : h.is desc ctx = true
  · rw [if_pos hc]
    exact hf h hh hc
  · rw [if_neg hc] at hi
    exact absurd hi hc

theorem chainFault_ends {s : State} {e : EngRef} {h : Chain} (he : OnDie s e) (hn : s.noCmd e h.desc h.ctx) (x : XFault × Nat) :
    WorkKept s (s.chainFault e h x) ∧ (s.chainFault e h x).noCmd e h.desc h.ctx := by
  obtain ⟨ht, hw, hq, hd⟩ := updChain_workKept he h.desc h.ctx (fun y => { y with fault := true })
  exact ⟨⟨ht, hw, hq, hd⟩, noCmd_updChain (f := fun y => { y with fault := true }) he hn⟩

theorem chainAdvance_ok {s s' : State} {e : EngRef} {n : Nat} {h : Chain} (he : OnDie s e) (ha : s.chainAdvance e h n = (s', .ok ())) :
    WorkKept s s' ∧ s'.noCmd e h.desc h.ctx := by
  unfold State.chainAdvance at ha
  have hp := chainsKept_closed.toL2Closed.descPut s e.die h.ctx (h.desc.toNat + 32) (n + 1)
  revert ha hp
  generalize s.descPut e.die h.ctx (h.desc.toNat + 32) (n + 1) = p
  intro ha hp
  obtain ⟨u, x | x⟩ := p
  · cases ha
  · cases ha
    have hu := he.of_dies hp.dies
    exact ⟨hp.toWorkKept.trans (updChain_workKept hu ..), noCmd_updChain hu (fun _ _ _ => rfl)⟩

theorem queueError_fresh {s : State} {q : Nat} {k : Queue} (hq : s.queue q = some k) (he : k.err = false) (x : QErr) :
    ((s.queueError q x).queue q).map Queue.err = some true ∧ (s.queueError q x).threads = s.threads ∧ (s.queueError q x).wgs = s.wgs
      ∧ (s.queueError q x).dies.length = s.dies.length := by
  have hp := physStore_chainsKept s k.errb.toNat x.bytes
  have hk : (s.physStore k.errb.toNat x.bytes).queue q = some k := (congrArg (mget · q) hp.queues).trans hq
  unfold State.queueError
  rw [hq]
  dsimp only
  rw [if_neg (by simp [he])]
  refine ⟨?_, hp.threads, hp.wgs, hp.dies⟩
  refine (congrArg (Option.map Queue.err) ((queue_updQueue ..).trans (if_pos rfl))).trans ?_
  rw [hk]
  rfl

theorem dieCmdFail_ends {s : State} {e : EngRef} {n code : Nat} {h : Chain} {b : CopyRun} {k : Queue} (he : OnDie s e)
    (hc : h.cur = some (n, b)) (hq : s.queue h.queue = some k) (hk : k.err = false) :
    ((s.dieCmdFail e h code).queue h.queue).map Queue.err = some true ∧ (s.dieCmdFail e h code).noCmd e h.desc h.ctx
      ∧ (s.dieCmdFail e h code).threads = s.threads ∧ (s.dieCmdFail e h code).wgs = s.wgs := by
  let q : QErr := { code := code, die := e.die, cmd := (h.owner.map (s.dropFaults (fun f => f == .engine e h.desc h.ctx)).cmdOfWg).getD 0 }
  obtain ⟨hqe, hqt, hqw, hqd⟩ := queueError_fresh (s := s.dropFaults (fun f => f == .engine e h.desc h.ctx)) hq hk q
  have ends : ∀ {z}, WorkKept ((s.dropFaults (fun f => f == .engine e h.desc h.ctx)).queueError h.queue q) z → z.noCmd e h.desc h.ctx →
      (z.queue h.queue).map Queue.err = some true ∧ z.noCmd e h.desc h.ctx ∧ z.threads = s.threads ∧ z.wgs = s.wgs := fun w hn =>
    ⟨(congrArg (fun l => (mget l h.queue).map Queue.err) w.queues).trans hqe, hn, w.threads.trans hqt, w.wgs.trans hqw⟩
  unfold State.dieCmdFail
  dsimp only
  rw [hc]
  dsimp only
  have hu : OnDie ((s.dropFaults (fun f => f == .engine e h.desc h.ctx)).queueError h.queue q) e := he.of_dies hqd
  revert ends hu
  generalize (s.dropFaults (fun f => f == .engine e h.desc h.ctx)).queueError h.queue q = u
  intro ends hu
  generalize ha : u.chainAdvance e h n = p
  obtain ⟨u', x | x⟩ := p
  · have w := updChain_workKept hu h.desc h.ctx (fun y => { y with cur := none, coll := [], part := [] })
    obtain ⟨w', hn⟩ := chainFault_ends (h := h) (hu.of_dies w.dies) (noCmd_updChain hu (fun _ _ _ => rfl)) x
    exact ends (w.trans w') hn
  · obtain ⟨w, hn⟩ := chainAdvance_ok hu ha
    exact ends w hn

theorem dieCommand_chain {s : State} {d ctx : Nat} {desc ix : DWord} {e : EngRef} {h : Chain} (hc : s.dieCommand d ctx desc ix = some (e, h)) :
    s.chain e desc ctx = some h := by
  obtain ⟨f, -, hf⟩ := List.exists_of_findSome?_eq_some hc
  obtain ⟨h', hh, he⟩ := Option.map_eq_some_iff.mp hf
  cases he
  exact (Option.filter_eq_some_iff.mp hh).1

theorem chain_is {s : State} {e : EngRef} {desc : DWord} {ctx : Nat} {h : Chain} (hc : s.chain e desc ctx = some h) : h.desc = desc ∧ h.ctx = ctx := by
  have := List.find?_some hc
  simpa [Chain.is] using this

theorem abort_answers {s : State} {r : MailReq} (hc : Canonical s) (ha : Accepts s r false) {e : EngRef} {h : Chain} {ctx d n : Nat} {desc ix : DWord}
    {b : CopyRun} {k : Queue} (hd : d < 4) (ho : s.ownCtx r.fn ctx = true) (he : e = .layout d ∨ e = .collective d)
    (hx : s.dieCommand d ctx desc ix = some (e, h)) (hb : h.cur = some (n, b)) (hq : s.queue h.queue = some k) (hk : k.err = false) :
    ∃ u, Answers (.engineCommandAbort r ctx d desc ix) s u r 1 ∧ ((u.queue h.queue).map Queue.err) = some true
      ∧ (∀ y, u.chain e desc ctx = some y → y.cur = none) ∧ u.threads = s.threads ∧ u.wgs = s.wgs := by
  have hch := dieCommand_chain hx
  obtain ⟨rfl, rfl⟩ := chain_is hch
  obtain ⟨he', hn, ht, hw⟩ := dieCmdFail_ends (code := 7) (onDie_of_chain he hch) hb hq hk
  refine ⟨s.dieCmdFail e h 7, ?_, he', fun y hy => hn y (List.mem_of_find?_eq_some hy) (by simpa using List.find?_some (show (_ : List Chain).find? _ = some y from hy)), ht, hw⟩
  refine answers_of_mail (pf := false) (ok := d < 4 && s.ownCtx r.fn h.ctx) (op := 11) (eff := fun s => s.dieCmdFail e h 7) ha rfl ?_ (by simp [hd, ho]) rfl ?_
  · unfold State.engineAbort
    rw [hx]
  · exact (dieCmdFail_canonical hc).1

end Sys2Proof.Machine
end

section
namespace Sys2Proof.Machine

/-- Settles O33: each request is taken by the mailbox (`answers_of_mail`), and its effect is the one stated. -/
theorem registerRequests : Obligations.RegisterRequests := by
  unfold Obligations.RegisterRequests
  refine fun s r hc => ⟨fun ha => ⟨?_, ?_, ?_, ?_, ?_, ?_, ?_, ?_, ?_⟩, ?_, ?_⟩
  · intro d base size hd h1 h2 h3 h4 h5 h6 h7
    refine answers_of_mail ha rfl (by unfold State.l2Pin; rfl) ?_ rfl hc.1
    have h4' : size.toNat ≠ 0 := fun h => h3 (BitVec.eq_of_toNat_eq h)
    simp [hd, h1, h2, h4', h4, h5, h6, h7]
  · intro d base n hd hn
    refine answers_of_mail (ok := d < 4) (op := 10) (eff := fun s => s.updDie d (fun x => { x with pins := x.pins.erase n })) ha rfl ?_ (by simp [hd]) rfl hc.1
    unfold State.l2Unpin
    rw [hn]
  · exact fun d buf hd hb => dasrRead_answers hc ha hd hb
  · intro a q h1 h2 h3 h4
    exact answers_of_mail ha rfl (by unfold State.setTimes; rfl) (by simp [h1, h2, h3, h4]) rfl hc.1
  · intro p addr hp hs
    exact answers_of_mail ha rfl (by unfold State.peerWrite; rfl) (by simpa [hp] using hs) rfl hc.1
  · exact fun buf hb _ => logRead_answers hc ha hb
  · intro d buf hd hl hb
    obtain ⟨u, hs, hu⟩ := ctrRead_answers hc ha hd hl hb
    exact ⟨_, u, hs, hu, timedVals_length s d, fun k hk => timedVals_untimed hk⟩
  · exact fun d k ev hd _ hk => ⟨_, ctrSelect_answers hc ha hd hk ev, timedVals_length s d, fun j hj => timedVals_untimed hj⟩
  · intro d hd
    exact answers_of_mail ha rfl (by unfold State.ctrClear; rfl) (by simp [hd]) rfl hc.1
  · exact fun ha nonce buf hn hd hb => attest_answers hc ha hn hd hb
  · intro ha e h ctx d desc ix n b hd ho he hx hb _ ⟨k, hq, hk⟩
    exact abort_answers hc ha hd ho he hx hb hq hk

end Sys2Proof.Machine
end

section
/-! Page faults: an access that is held, a record, an answer (R73, R256, R257, R423). -/
namespace Sys2Proof.Machine

/-- An access of one address, none of whose execution a fault holds yet: the fault names it and its mates on the page (R73, R256). -/
theorem accFault_holds {s u : State} {id : Nat} {a : Acc} {f : XFault} (hd : Due s id a) (ho : oneAddress a.op = true)
    (hx : ∀ e ∈ s.accs, e.2.exec = a.exec → e.2.fault = none) (hs : ∀ t ∈ a.owners, ∀ x, s.thr t = some x → x.sys = false)
    (hp : s.perform id a = (u, .fault f a.va.toNat)) (hc : f.cause ≠ lostCause) :
    ∃ first : Nat, some (BitVec.ofNat 64 first) = (((s.pageMates id a f).head?).bind (mget s.accs)).map Acc.va
      ∧ s.accFault id =
        let r := s.newFault a.t.wg (.access id) f first (accCode a.op) (accUnit a.op) true
        { r.1 with accs := r.1.accs.map (fun (e : Nat × Acc) =>
          (e.1, if (s.pageMates id a f).contains e.1 then { e.2 with fault := some r.2, leaf := none } else e.2)) } := by
  obtain ⟨ha, hcan, -, hinj⟩ := hd
  have hsh : s.sharedFault a f = none := by
    have : (s.accs.filter (fun e => e.2.exec == a.exec && e.2.t.wg == a.t.wg)).filterMap (fun e => e.2.fault) = [] := by
      rw [List.filterMap_eq_nil_iff]
      intro e he
      obtain ⟨hm, hb⟩ := List.mem_filter.mp he
      exact hx e hm (by simpa using (Bool.and_eq_true_iff.mp hb).1)
    rw [State.sharedFault, this]
    rfl
  have hsys : a.owners.any s.inSys = false := by
    rw [List.any_eq_false]
    intro t ht
    unfold State.inSys
    cases h : s.thr t with
    | none => simp
    | some x => simp [hs t ht x h]
  have hmem : id ∈ s.pageMates id a f := List.mem_map.mpr ⟨(id, a), List.mem_filter.mpr ⟨mem_of_mget ha, by simp⟩, rfl⟩
  obtain ⟨k, ks, hks⟩ := List.exists_cons_of_ne_nil (List.ne_nil_of_mem hmem)
  obtain ⟨b, hb⟩ : ∃ b, mget s.accs k = some b := by
    obtain ⟨e, he, rfl⟩ := List.mem_map.mp (show k ∈ s.pageMates id a f by rw [hks]; exact List.mem_cons_self ..)
    exact mget_of_mem_keys (List.mem_map_of_mem (List.mem_filter.mp he).1)
  refine ⟨b.va.toNat, ?_, ?_⟩
  · rw [hks, List.head?_cons, Option.bind_some, hb, BitVec.ofNat_toNat, BitVec.setWidth_eq]
    rfl
  · unfold State.accFault
    rw [ha]
    dsimp only
    rw [if_neg (by simpa [hcan] using hinj), hp]
    dsimp only
    rw [if_neg hc, if_pos (by simp [ho, hsys]), hsh, hks, List.head?_cons, Option.bind_some, hb]
    rfl

/-- A load or store of the global space whose address does not translate. -/
theorem perform_fault {s u : State} {id : Nat} {a : Acc} {f : XFault} (hg : a.space = .global)
    (h : (∃ d sz sx, a.op = .load d sz sx) ∧ s.xlateAcc a { r := true } = (u, .error f) ∨ (∃ bs, a.op = .store bs) ∧ s.xlateAcc a { w := true } = (u, .error f)) :
    s.perform id a = (u, .fault f a.va.toNat) ∧ oneAddress a.op = true ∧ accUnit a.op = 0 ∧ accCode a.op = if accReads a.op then 0 else 1 := by
  obtain ⟨⟨d, sz, sx, ho⟩, hx⟩ | ⟨⟨bs, ho⟩, hx⟩ := h
  · refine ⟨?_, by rw [ho]; rfl, by rw [ho]; rfl, by rw [ho]; rfl⟩
    unfold State.perform
    rw [ho]
    dsimp only [State.rangeAccess]
    rw [hg]
    dsimp only
    rw [hx]
  · refine ⟨?_, by rw [ho]; rfl, by rw [ho]; rfl, by rw [ho]; rfl⟩
    unfold State.perform
    rw [ho]
    dsimp only [State.rangeAccess]
    rw [hg]
    dsimp only
    rw [hx]

theorem pageFault_noted {s : State} {site : FaultSite} (h : ∀ id, site ≠ .access id) : s.pageFault site =
    { s with faults := s.faults.map (fun (e : Nat × PFault) => (e.1, if e.2.site = site then { e.2 with noted := true } else e.2)) } := by
  unfold State.pageFault
  split
  · exact absurd rfl (h _)
  · rfl

/-- Rings, faults and vectors are no part of what a store in memory changes. -/
theorem Stored.withFaults {s z : State} {pa : Nat} {bs : List Byte} (h : Stored s z pa bs) (rings : Map Nat FaultRing) (faults : Map Nat PFault)
    (msix : Map Nat Nat) : Stored { s with rings := rings, faults := faults, msix := msix } { z with rings := rings, faults := faults, msix := msix } pa bs := by
  obtain ⟨⟨hz, hw⟩, hm⟩ := h
  exact ⟨⟨congrArg (fun x : State => { x with rings := rings, faults := faults, msix := msix }) hz, hw⟩, hm⟩

/-- The oldest fault of a function that a unit has met and that has no record yet. -/
def State.unrecorded (s : State) (fn : Nat) : Option (Nat × PFault) :=
  s.faults.find? (fun e => decide (e.2.fn = fn ∧ e.2.noted = true ∧ e.2.tag = none))

theorem find_unrecorded (s : State) (fn : Nat) : s.faults.find? (fun e => e.2.fn == fn && e.2.noted && e.2.tag.isNone) = s.unrecorded fn := by
  unfold State.unrecorded
  congr 1
  funext e
  exact Bool.eq_iff_iff.mpr (by simp [and_assoc])

section
variable {s : State} {fn k : Nat} {r : FaultRing} {p : PFault} (hr : mget s.rings fn = some r) (hp : s.unrecorded fn = some (k, p))
include hr hp

theorem faultRecord_full (h : BitVec.ofNat 64 r.ftail - BitVec.ofNat 64 (leNat (Mem.rdN s.mem (r.base.toNat + 8) 8)) = BitVec.ofNat 64 (2 ^ r.flsize)) :
    s.faultRecord fn = s := by
  unfold State.faultRecord
  rw [hr, find_unrecorded, hp]
  exact if_pos h

theorem faultRecord_free (hw : s.mem.wf = true) (hb : inMap r.base.toNat = true) (ha : inMap (r.slotAddr r.ftail) = true)
    (h : BitVec.ofNat 64 r.ftail - BitVec.ofNat 64 (leNat (Mem.rdN s.mem (r.base.toNat + 8) 8)) ≠ BitVec.ofNat 64 (2 ^ r.flsize)) :
    ∃ u, Stored { s with rings := mput s.rings fn { r with ftail := r.ftail + 1 }, faults := mupd s.faults k (fun x => { x with tag := some r.ftail })
                         msix := mput s.msix fn (((mget s.msix fn).getD 0) + 1) } u (r.slotAddr r.ftail) (p.record r.ftail)
      ∧ Stored u (s.faultRecord fn) r.base.toNat (leBytes 8 (r.ftail + 1)) := by
  have h1 := physStore_stored hw ha (p.record r.ftail)
  have h2 := physStore_stored (h1.wf hw) hb (leBytes 8 (r.ftail + 1))
  have he : s.faultRecord fn = { (s.physStore (r.slotAddr r.ftail) (p.record r.ftail)).physStore r.base.toNat (leBytes 8 (r.ftail + 1)) with
      rings := mput s.rings fn { r with ftail := r.ftail + 1 }
      faults := mupd s.faults k (fun x => { x with tag := some r.ftail })
      msix := mput s.msix fn (((mget s.msix fn).getD 0) + 1) } := by
    have e1 := h1.1.1
    have e2 := h2.1.1
    unfold State.faultRecord
    rw [hr, find_unrecorded, hp]
    dsimp only
    refine (if_neg h).trans ?_
    generalize s.physStore (r.slotAddr r.ftail) (p.record r.ftail) = v at e1 e2
    generalize v.physStore r.base.toNat (leBytes 8 (r.ftail + 1)) = w at e2
    rw [e2, e1]
  rw [he]
  exact ⟨_, h1.withFaults .., h2.withFaults ..⟩

end

/-- A request that the mailbox takes and that is not good changes the error log alone (R300). -/
theorem answers_refused {i : Instr} {s : State} {r : MailReq} {pf : Bool} {op : Nat} {eff : State → State} (hw : s.mem.wf = true) (ha : Accepts s r pf)
    (he : exec i s = .next (s.mail r op pf false eff)) : ∃ u, Answers i s u r 0xFFFFFFFFFFFFFFFE ∧ u = { s with errlog := u.errlog } := by
  obtain ⟨l, hl⟩ := logErr_eq s kindRefused 0xFF op r.cw
  rw [mail_refused ha, hl] at he
  exact ⟨{ s with errlog := l }, ⟨_, he, physStore_stored (s := { s with errlog := l }) hw ha.2.2.1 _⟩, rfl⟩

theorem taggedFault_eq (s : State) (fn : Nat) (tag : DWord) : s.taggedFault fn tag =
    s.faults.find? (fun e => decide (e.2.fn = fn ∧ e.2.tag = some tag.toNat ∧ e.2.replayed = false ∧ e.2.cancelled = false)) := by
  unfold State.taggedFault
  congr 1
  funext e
  exact Bool.eq_iff_iff.mpr (by simp [and_assoc])

/-- A thread that a fault holds at a fetch or at a record goes on. -/
def Thread.goOn (x : Thread) : Thread := if x.wait = .record ∨ x.wait = .fetch then { x with wait := .none } else x

/-- Some threads that faults held go on, some groups are held no longer, and nothing else changes (R257). -/
structure Woken (s u : State) : Prop where
  only : u = { s with threads := u.threads, groups := u.groups }
  thr : ∀ t, u.thr t = s.thr t ∨ u.thr t = (s.thr t).map Thread.goOn
  grp : ∀ g, u.grp g = s.grp g ∨ u.grp g = (s.grp g).map (fun x => { x with held := false })

theorem goOn_cases (x : Thread) : ((x.wait = .record ∨ x.wait = .fetch) ∧ x.goOn = { x with wait := .none }) ∨ x.goOn = x := by
  unfold Thread.goOn
  by_cases h : x.wait = .record ∨ x.wait = .fetch
  · exact .inl ⟨h, if_pos h⟩
  · exact .inr (if_neg h)

theorem goOn_goOn (x : Thread) : x.goOn.goOn = x.goOn := by
  unfold Thread.goOn
  split
  · rfl
  · rfl

theorem Woken.refl (s : State) : Woken s s := ⟨rfl, fun _ => .inl rfl, fun _ => .inl rfl⟩

theorem Woken.trans {a b c : State} (h : Woken a b) (g : Woken b c) : Woken a c := by
  refine ⟨by rw [g.only, h.only], fun t => ?_, fun x => ?_⟩
  · rcases g.thr t with e | e
    · rw [e]; exact h.thr t
    · rcases h.thr t with e' | e'
      · rw [e, e']; exact .inr rfl
      · rw [e, e', Option.map_map]
        exact .inr (congrArg (fun f => (a.thr t).map f) (funext goOn_goOn))
  · rcases g.grp x with e | e
    · rw [e]; exact h.grp x
    · rcases h.grp x with e' | e'
      · rw [e, e']; exact .inr rfl
      · rw [e, e', Option.map_map]
        exact .inr rfl

/-- The group g, and its threads that a fetch or a record held, go on. -/
def GroupGoesOn (s z : State) (g : GroupId) : Prop :=
  z = { s with threads := z.threads, groups := z.groups }
    ∧ (∀ v, z.thr v = (s.thr v).map (fun x => if v.group = g then x.goOn else x))
    ∧ ∀ h, z.grp h = (s.grp h).map (fun x => if h = g then { x with held := false } else x)

/-- The fault is at a fetch or a record of a thread of the group. -/
def holdsAt (g : GroupId) (e : Nat × PFault) : Bool :=
  match e.2.site with
  | .fetch t => t.group == g
  | .record t => t.group == g
  | _ => false

theorem wakeHeld_eq (s : State) (g : GroupId) : s.wakeHeld g = if (s.faults.any (holdsAt g) || s.unanswered g) = true then s
    else (s.groupThreads g).foldl (fun s t => s.updThr t Thread.goOn) (s.updGrp g (fun x => { x with held := false })) := by
  have hstep : (fun (s : State) t => s.updThr t (fun x => { x with wait := if x.wait = .record || x.wait = .fetch then .none else x.wait }))
      = fun s t => s.updThr t Thread.goOn := by
    funext s t
    congr 1
    funext x
    unfold Thread.goOn
    by_cases h : x.wait = .record ∨ x.wait = .fetch
    · rw [if_pos h, if_pos (by simpa using h)]
    · rw [if_neg h, if_neg (by simpa using h)]
  rw [← hstep]
  rfl

theorem wakeHeld_goes {s : State} {g : GroupId} (hf : s.faults.any (holdsAt g) = false) (hu : s.unanswered g = false) :
    GroupGoesOn s (s.wakeHeld g) g := by
  rw [wakeHeld_eq, hf, hu, if_neg (by simp)]
  have hk : s.groupThreads g = (s.updGrp g (fun x => { x with held := false })).groupThreads g := rfl
  have hr := rest_foldl_updThr (fun _ => Thread.goOn) (s.groupThreads g) (s.updGrp g (fun x => { x with held := false }))
  refine ⟨by rw [hr]; rfl, fun v => ?_, fun h => ?_⟩
  · rw [thr_foldl_updThr_idem _ goOn_goOn, thr_updGrp]
    cases hv : s.thr v with
    | none => simp
    | some x =>
      have hm : v ∈ s.groupThreads g ↔ v.group = g := by
        simp only [State.groupThreads, List.mem_filter, decide_eq_true_eq]
        exact ⟨fun h => h.2, fun h => ⟨mem_keys_of_mget hv, h⟩⟩
      by_cases hg : v.group = g
      · rw [if_pos (hm.mpr hg), Option.map_some, Option.map_some, if_pos hg]
      · rw [if_neg (fun h => hg (hm.mp h)), Option.map_some, if_neg hg]
  · refine (congrArg (fun z : State => z.grp h) hr).trans ((grp_updGrp ..).trans ?_)
    by_cases hg : g = h
    · subst hg; simp
    · simp [hg, Ne.symm hg]

theorem GroupGoesOn.woken {s z : State} {g : GroupId} (h : GroupGoesOn s z g) : Woken s z := by
  obtain ⟨ho, ht, hg⟩ := h
  refine ⟨ho, fun t => ?_, fun k => ?_⟩
  · rw [ht]
    by_cases e : t.group = g
    · simp [e]
    · simp [e]
  · rw [hg]
    by_cases e : k = g
    · simp [e]
    · simp [e]

theorem wakeHeld_woken (s : State) (g : GroupId) : Woken s (s.wakeHeld g) := by
  by_cases h : (s.faults.any (holdsAt g) || s.unanswered g) = true
  · rw [wakeHeld_eq, if_pos h]
    exact Woken.refl s
  · obtain ⟨hf, hu⟩ := Bool.or_eq_false_iff.mp (Bool.eq_false_iff.mpr h)
    exact (wakeHeld_goes hf hu).woken

theorem wakeAll_woken (gs : List GroupId) (s : State) : Woken s (gs.foldl State.wakeHeld s) := by
  induction gs generalizing s with
  | nil => exact Woken.refl s
  | cons g gs ih => exact (wakeHeld_woken s g).trans (ih _)

/-- The same as a statement about waits and marks. -/
theorem Woken.stands {s u : State} (h : Woken s u) : (∀ t, ∃ w : Thread → Wait, u.thr t = (s.thr t).map (fun x => { x with wait := w x })
      ∧ ∀ x, w x = x.wait ∨ ((x.wait = .record ∨ x.wait = .fetch) ∧ w x = .none))
    ∧ ∀ g, ∃ h : Group → Bool, u.grp g = (s.grp g).map (fun x => { x with held := h x }) ∧ ∀ x, h x = x.held ∨ h x = false := by
  refine ⟨fun t => ?_, fun g => ?_⟩
  · rcases h.thr t with e | e
    · exact ⟨Thread.wait, by rw [e]; simp, fun x => .inl rfl⟩
    · refine ⟨fun x => x.goOn.wait, ?_, fun x => ?_⟩
      · rw [e]
        refine congrArg (fun f => (s.thr t).map f) (funext fun x => ?_)
        dsimp only
        rcases goOn_cases x with ⟨-, hx⟩ | hx
        · rw [hx]
        · rw [hx]
      · rcases goOn_cases x with ⟨hw, hx⟩ | hx
        · exact .inr ⟨hw, congrArg Thread.wait hx⟩
        · exact .inl (congrArg Thread.wait hx)
  · rcases h.grp g with e | e
    · exact ⟨Group.held, by rw [e]; simp, fun x => .inl rfl⟩
    · exact ⟨fun _ => false, e, fun x => .inr rfl⟩

end Sys2Proof.Machine
end

section
/-! A thread that a cancelled access has stopped (R257, R258). -/
namespace Sys2Proof.Machine

/-- One access is held by a fault, which has been answered with cancel. -/
structure OneCancelled (m : State) (id k : Nat) (a : Acc) (p : PFault) : Prop where
  held : m.accs.filter (fun e => e.2.fault.isSome) = [(id, a)]
  fault : a.fault = some k
  named : mget m.faults k = some p
  cancelled : p.cancelled = true

section
variable {m : State} {id k : Nat} {a : Acc} {p : PFault} (h : OneCancelled m id k a p)
include h

theorem OneCancelled.of_fault {e : Nat × Acc} (he : e ∈ m.accs) {f : Nat} (hf : e.2.fault = some f) : e = (id, a) := by
  have : e ∈ m.accs.filter (fun e => e.2.fault.isSome) := List.mem_filter.mpr ⟨he, by rw [hf]; rfl⟩
  rw [h.held] at this
  exact List.mem_singleton.mp this

theorem OneCancelled.unanswered (g : GroupId) : m.unanswered g = false := by
  rw [State.unanswered, List.any_eq_false]
  intro x hx
  obtain ⟨e, he, hb⟩ := List.mem_filterMap.mp hx
  obtain ⟨f, hf, hg⟩ := Option.bind_eq_some_iff.mp hb
  obtain rfl := h.of_fault (List.mem_filter.mp he).1 hf
  obtain rfl : k = f := Option.some.inj (h.fault.symm.trans hf)
  obtain rfl : p = x := Option.some.inj (h.named.symm.trans hg)
  simp [h.cancelled]

theorem OneCancelled.markHeld (ts : List ThreadId) : m.markHeld ts = m := by
  have : (groupsOf ts).filter m.unanswered = [] := List.filter_eq_nil_iff.mpr (fun g _ => by simp [h.unanswered g])
  rw [State.markHeld, this]
  rfl

theorem OneCancelled.cancelledOf {t : ThreadId} (ho : a.owners = [t]) : m.cancelledOf t = [(id, a, p)] := by
  have hf : m.cancelledOf t = (m.accs.filter (fun e => e.2.fault.isSome)).filterMap (fun e =>
      if e.2.owners.contains t then (e.2.fault.bind (mget m.faults)).bind (fun p => if p.cancelled then some (e.1, e.2, p) else none) else none) := by
    rw [List.filterMap_filter, State.cancelledOf]
    refine List.filterMap_congr (fun e _ => ?_)
    cases e.2.fault with
    | none => simp
    | some f => rfl
  rw [hf, h.held]
  simp [ho, h.fault, h.named, h.cancelled]

/-- The state in which the thread traps: its access is dropped, and the fault with it. -/
def State.dropOne (m : State) (id : Nat) (a : Acc) (t : ThreadId) : State :=
  { m.updThr t (fun x => x.uncount a.flag) with accs := mdel m.accs id, faults := m.faults.filter (fun e => decide (e.2.cancelled = false)) }

theorem OneCancelled.takeCancels {t : ThreadId} (ho : a.owners = [t]) (hop : ∃ d sz sx, a.op = .load d sz sx) :
    m.takeCancels [t] = (m.dropOne id a t).takeTraps [t] [(t, { cause := 7, info := p.cause, addr := a.va })] Thread.savedPc := by
  have hdrop : m.dropCancelled t = { m.updThr t (fun x => x.uncount a.flag) with accs := mdel m.accs id } := by
    unfold State.dropCancelled
    rw [h.cancelledOf ho, List.foldl_cons, List.foldl_nil]
    have : (a.without t).owners.isEmpty = true := by
      show (a.owners.erase t).isEmpty = true
      rw [ho, List.erase_cons_head]
      rfl
    dsimp only
    rw [if_pos this]
    rfl
  have htidy : (m.dropCancelled t).tidyCancelled = m.dropOne id a t := by
    rw [hdrop]
    unfold State.tidyCancelled State.dropOne
    refine congrArg (fun l => ({ m.updThr t (fun x => x.uncount a.flag) with accs := mdel m.accs id, faults := l } : State)) (List.filter_congr fun e _ => ?_)
    have : (mdel m.accs id).any (fun a => a.2.fault == some e.1) = false := by
      rw [List.any_eq_false]
      intro x hx
      obtain ⟨hm, hi⟩ := List.mem_filter.mp hx
      intro hf
      rw [h.of_fault hm (eq_of_beq hf)] at hi
      simp at hi
    dsimp only
    rw [this]
    cases e.2.cancelled <;> rfl
  obtain ⟨d, sz, sx, hl⟩ := hop
  have haddr : a.addrFor t p.va = a.va := by rw [Acc.addrFor, hl]
  unfold State.takeCancels
  dsimp only
  rw [List.foldl_cons, List.foldl_nil, htidy, List.map_cons, List.map_nil, h.cancelledOf ho]
  dsimp only
  rw [haddr]

theorem OneCancelled.traps {t : ThreadId} (ho : a.owners = [t]) (hop : ∃ d sz sx, a.op = .load d sz sx) (hu : UserTrap m t.wg [t]) :
    ∃ u, u = { m with threads := u.threads, accs := mdel m.accs id, faults := u.faults }
      ∧ u.faults = m.faults.filter (fun e => decide (e.2.cancelled = false))
      ∧ (∀ v, u.thr v = (m.thr v).map (fun x => if v = t then x.uncount a.flag else x))
      ∧ TrapsTaken u (m.takeCancels [t]) t.wg [(t, { cause := 7, info := p.cause, addr := a.va })] [] Thread.savedPc := by
  obtain ⟨hw, hs⟩ := hu
  obtain ⟨-, x, hx, hsys⟩ := hs t (List.mem_singleton_self t)
  have hx' : (m.dropOne id a t).thr t = some (x.uncount a.flag) := (thr_updThr_self m t _).trans (by rw [hx]; rfl)
  have hsys' : (x.uncount a.flag).sys = false := by cases a.flag <;> exact hsys
  refine ⟨m.dropOne id a t, rfl, rfl, fun v => ?_, ?_⟩
  · refine (thr_updThr m t v _).trans ?_
    by_cases hv : t = v
    · subst hv; simp
    · simp [hv, Ne.symm hv]
  · rw [h.takeCancels ho hop]
    have := takeTraps_user (m.dropOne id a t) [t] [(t, { cause := 7, info := p.cause, addr := a.va })] Thread.savedPc t.wg (by simp) (by simp) (by simp)
      ⟨hw, fun v hv => by obtain rfl := List.mem_singleton.mp hv; exact ⟨rfl, _, hx', hsys'⟩⟩
    simpa using this

/-- The thread has stopped at a word that does not issue for it. -/
theorem OneCancelled.stopsHere {t : ThreadId} {i : Instr} (ht : a.t = t) (hall : ∀ e ∈ m.accs, (e.2.t = t ∨ t ∈ e.2.owners) → e = (id, a))
    (hi : m.unheld i t = false) : m.stopsHere i t = true := by
  have hin : (id, a) ∈ m.accs := by
    have : (id, a) ∈ m.accs.filter (fun e => e.2.fault.isSome) := by rw [h.held]; exact List.mem_singleton_self _
    exact (List.mem_filter.mp this).1
  have hg : m.groupFaults t.group ≠ [] := List.ne_nil_of_mem (a := p)
    (List.mem_filterMap.mpr ⟨(id, a), List.mem_filter.mpr ⟨hin, by simp [ht]⟩, by rw [h.fault]; exact h.named⟩)
  have hacc : m.accs.all (fun e => !(e.2.t == t || e.2.owners.contains t) || e.2.fault.isSome) = true := by
    rw [List.all_eq_true]
    intro e he
    by_cases hb : e.2.t = t ∨ t ∈ e.2.owners
    · obtain rfl := hall e he hb
      simp [h.fault]
    · simp only [not_or] at hb
      simp [hb.1, hb.2]
  rw [State.stopsHere, hi, hacc]
  simpa using hg

end

/-- A quarter that finds only cancelled accesses' threads stopped cuts them. -/
theorem quarterTurn_cut {s m : State} {c q id k : Nat} {t : ThreadId} {a : Acc} {p : PFault} (hs : Stops s c q t m)
    (h : OneCancelled (Moving s) id k a p) (ht : a.t = t) (ho : a.owners = [t])
    (hall : ∀ e ∈ s.accs, (e.2.t = t ∨ t ∈ e.2.owners) → e = (id, a)) :
    MemoryOnly (Moving s) m ∧ (Moving s).quarterTurn c q = (m.takeCancels [t], none) := by
  obtain ⟨hfr, hs⟩ := hs
  have cut : ∀ {m : State}, OneCancelled m id k a p → [t].filter (fun t => !(m.cancelledOf t).isEmpty) = [t] := fun h => by
    rw [List.filter_cons, h.cancelledOf ho]
    rfl
  rcases hs with ⟨rfl, hw⟩ | ⟨hw, e, w, i, ⟨-, hh, ⟨es, hes⟩, hne, hf⟩, hd, hi, hc, hun⟩
  · refine ⟨MemoryOnly.refl _, ?_⟩
    unfold State.quarterTurn
    rw [hfr, if_neg (by simp)]
    dsimp only
    rw [hw, cut h, if_pos (by simp), h.markHeld]
  · have hm : MemoryOnly (Moving s) m := by
      have := fetchWord_only (Moving s) c e.ctx e.pc
      rwa [hf] at this
    have hacc : m.accs = s.accs := by rw [hm.1]; rfl
    have h' : OneCancelled m id k a p := ⟨by rw [hacc]; exact h.held, h.fault, by rw [hm.faults]; exact h.named, h.cancelled⟩
    refine ⟨hm, ?_⟩
    unfold State.quarterTurn
    rw [hfr, if_neg (by simp)]
    dsimp only
    rw [hw, List.filter_nil, if_neg (by simp), h.markHeld, hh, if_pos List.isEmpty_nil, hes, State.issueFrom]
    dsimp only
    rw [if_neg (by simpa using hne), hf]
    dsimp only
    rw [hd]
    split
    · next hd' heq => exact absurd (Except.ok.inj heq) (hi hd')
    · next heq => cases heq
    · next j _ heq =>
      obtain rfl := Except.ok.inj heq
      have hst : [t].filter (m.stopsHere i) = [t] := by
        rw [List.filter_cons, h'.stopsHere ht (by rw [hacc]; exact hall) hun]
        rfl
      rw [hc, hst, cut h', if_pos (by simp), h'.markHeld]

end Sys2Proof.Machine
end

section
/-! The mailbox's answers to page faults, and the fault rings (R257, R300, R423). -/
namespace Sys2Proof.Machine

section
variable {s : State} {r : MailReq} {tag : DWord} {k : Nat} {p : PFault} (hc : Canonical s) (ha : Accepts s r false)
include hc ha

theorem faultAnswers_refused (hn : s.taggedFault r.fn tag = none) :
    (∃ u, Answers (.faultReplay r tag) s u r 0xFFFFFFFFFFFFFFFE ∧ u = { s with errlog := u.errlog })
      ∧ ∃ u, Answers (.faultCancel r tag) s u r 0xFFFFFFFFFFFFFFFE ∧ u = { s with errlog := u.errlog } := by
  constructor
  · refine answers_refused (eff := id) (op := 6) hc.1 ha ?_
    show Host.Outcome.next (s.faultReplay r tag) = _
    rw [State.faultReplay, hn]
  · refine answers_refused (eff := id) (op := 6) hc.1 ha ?_
    show Host.Outcome.next (s.faultCancel r tag) = _
    rw [State.faultCancel, hn]

theorem faultReplay_answers (hn : s.taggedFault r.fn tag = some (k, p)) : Answers (.faultReplay r tag) s (s.replay k p) r 1 := by
  refine answers_of_mail (op := 6) (eff := fun s => s.replay k p) ha rfl ?_ rfl rfl (replay_canonical hc).1
  rw [State.faultReplay, hn]

theorem faultCancel_answers (hn : s.taggedFault r.fn tag = some (k, p)) : Answers (.faultCancel r tag) s (s.cancel k p) r 1 := by
  refine answers_of_mail (op := 6) (eff := fun s => s.cancel k p) ha rfl ?_ rfl rfl (cancel_canonical hc).1
  rw [State.faultCancel, hn]

theorem ringRegister_answers {base : DWord} {n : Nat} (h0 : base ≠ 0) (h4 : 4 ≤ n) (h16 : n ≤ 16) (hb : GoodBuffer base (64 + 32 * 2 ^ n) 4096) :
    ∃ u, Stored { s with rings := mput s.rings r.fn ⟨base, n, 0⟩ } u base.toNat (zeros 64) ∧ Answers (.faultRingRegister r base n) s u r 1 := by
  have hs := physStore_stored (s := { s with rings := mput s.rings r.fn ⟨base, n, 0⟩ }) hc.1 hb.2.1 (zeros 64)
  refine ⟨_, hs, answers_of_mail (op := 18) (ok := 4 ≤ n && n ≤ 16 && bufOk base (64 + 32 * 2 ^ n) 4096)
    (eff := fun s => { s with rings := mput s.rings r.fn ⟨base, n, 0⟩ }.physStore base.toNat (zeros 64)) ha rfl ?_ ?_ rfl (hs.wf hc.1)⟩
  · exact if_neg h0
  · rw [bufOk_of_good hb]
    simp [h4, h16]

end

theorem replay_access {s : State} {k id : Nat} {p : PFault} (hp : p.site = .access id) :
    Woken { s with faults := mdel s.faults k, accs := s.accs.map (fun e => (e.1, if e.2.fault = some k then { e.2 with fault := none } else e.2)) }
      (s.replay k p) := by
  rw [State.replay, hp]
  exact wakeAll_woken _ _

theorem cancel_access {s : State} {k id : Nat} {p : PFault} (hp : p.site = .access id) :
    Woken { s with faults := mupd s.faults k (fun x => { x with cancelled := true }) } (s.cancel k p) := by
  unfold State.cancel
  rw [hp]
  exact wakeAll_woken _ _

theorem replay_thread {s : State} {k : Nat} {p : PFault} {t : ThreadId} (hp : p.site = .record t ∨ p.site = .fetch t)
    (ha : ∀ e ∈ s.accs, e.2.fault = none)
    (hf : ∀ e ∈ s.faults, e.1 ≠ k → ∀ v, (e.2.site = .record v ∨ e.2.site = .fetch v) → v.group ≠ t.group) :
    GroupGoesOn { s with faults := mdel s.faults k } (s.replay k p) t.group := by
  have he : s.replay k p = (s.delFault k).wakeHeld t.group := by
    rcases hp with hp | hp
    · rw [State.replay, hp]
    · rw [State.replay, hp]
  rw [he]
  refine wakeHeld_goes ?_ ?_
  · rw [List.any_eq_false]
    intro e hm
    obtain ⟨hm, hk⟩ := List.mem_filter.mp hm
    have hv := hf e hm (by simpa using hk)
    unfold holdsAt
    split
    · next v hs => simpa using hv v (.inr hs)
    · next v hs => simpa using hv v (.inl hs)
    · simp
  · rw [State.unanswered, List.any_eq_false]
    intro x hx
    obtain ⟨e, hm, hb⟩ := List.mem_filterMap.mp hx
    rw [ha e (List.mem_filter.mp hm).1] at hb
    cases hb

/-- The matrix entries of a workgroup go on. -/
def Core.goOn (w : Nat) (x : Core) : Core := { x with chain := x.chain.map (fun e => if e.wg = w then { e with fault := false } else e) }

theorem commandResume_matrix {s : State} {c w k : Nat} {p : PFault} (hm : (k, p) ∈ s.faults) (hp : p.site = .matrix c w) (hr : p.replayed = true) :
    s.commandResume (.matrix c w)
      = { s with faults := s.faults.filter (fun e => decide (e.2.site ≠ FaultSite.matrix c w)) }.updCore c (Core.goOn w) := by
  have hany : s.faults.any (fun e => e.2.site == .matrix c w && e.2.replayed) = true := List.any_eq_true.mpr ⟨_, hm, by simp [hp, hr]⟩
  unfold State.commandResume
  rw [if_pos hany]
  unfold State.dropFaults
  have : s.faults.filter (fun e => !(e.2.site == .matrix c w)) = s.faults.filter (fun e => decide (e.2.site ≠ FaultSite.matrix c w)) :=
    List.filter_congr fun e _ => Bool.eq_iff_iff.mpr (by simp)
  rw [this]
  rfl

/-- Settles O31: faults of accesses by `accFault_holds`, records by `faultRecord_free`, answers by `Woken`, the trap of a cancelled access by
`quarterTurn_cut`. -/
theorem pageFaultsAreRecordedAndAnswered : Obligations.PageFaultsAreRecordedAndAnswered := by
  unfold Obligations.PageFaultsAreRecordedAndAnswered
  refine ⟨fun s hc => ⟨?_, ?_, ?_⟩, fun s r hc ha => ?_, ?_⟩
  · intro id a f u hd hg hx hs hp hl mates
    obtain ⟨hpf, ho, hu, hac⟩ := perform_fault (id := id) hg hp
    obtain ⟨first, hfirst, he⟩ := accFault_holds hd ho hx hs hpf hl
    have hm : s.pageMates id a f = mates := by
      unfold State.pageMates
      rw [ho, hg]
      rfl
    rw [hm] at hfirst he
    refine ⟨_, congrArg Host.Outcome.next he, rfl, hfirst, rfl, hac, hu, rfl, rfl, rfl, rfl, rfl, rfl, fun w hw => ?_⟩
    dsimp only
    rw [hw]
    exact ⟨rfl, rfl⟩
  · intro site hsite
    refine ⟨_, congrArg Host.Outcome.next (pageFault_noted hsite), rfl, fun k p hp => ?_⟩
    rw [show mget (s.faults.map _) k = _ from mget_map_snd s.faults (fun p => if p.site = site then { p with noted := true } else p) k, hp]
    rfl
  · intro fn r k p hr hp n at' free record
    refine ⟨fun h => congrArg Host.Outcome.next (faultRecord_full hr hp (Decidable.not_not.mp h)), fun h hb hin => ?_⟩
    obtain ⟨u, h1, h2⟩ := faultRecord_free hr hp hc.1 hb hin h
    exact ⟨u, _, rfl, h1, h2⟩
  · intro named waits woken
    have hnamed : ∀ tag, named tag = s.taggedFault r.fn tag := fun tag => (taggedFault_eq s r.fn tag).symm
    simp only [hnamed]
    refine ⟨fun tag hn => faultAnswers_refused hc ha hn, ?_, ?_, ?_, ?_, ?_, ?_, ?_⟩
    · intro tag k p id hn hp
      have hw := replay_access (s := s) (k := k) hp
      exact ⟨_, faultReplay_answers hc ha hn, hw.only, hw.stands⟩
    · intro tag k p t hn hp hacc hf
      obtain ⟨ho, ht, hg⟩ := replay_thread hp hacc hf
      exact ⟨_, faultReplay_answers hc ha hn, ho, fun v => (ht v).trans (congrArg (fun f => (s.thr v).map f) (funext fun x => (ite_and ..).symm)), hg⟩
    · intro tag k p c w hn hp
      have := faultReplay_answers hc ha hn
      rwa [State.replay, hp] at this
    · intro c w k p hm hp hr
      refine ⟨_, congrArg Host.Outcome.next (commandResume_matrix hm hp hr), rfl, rfl, fun d hd => ?_, ?_⟩
      · exact (core_updCore ..).trans (if_neg (Ne.symm hd))
      · exact (core_updCore ..).trans (if_pos rfl)
    · intro tag k p id hn hp
      have hw := cancel_access (s := s) (k := k) hp
      exact ⟨_, faultCancel_answers hc ha hn, hw.stands, hw.only⟩
    · exact fun base n h0 h4 h16 hb => ringRegister_answers hc ha h0 h4 h16 hb
    · exact answers_of_mail (op := 18) (ok := true) (eff := fun s => { s with rings := mdel s.rings r.fn }) ha rfl (if_pos rfl) rfl rfl hc.1
  · intro s c q id k t a p m _ hturn hheld hk hp hcan hop ht ho hall hu hs
    have h : OneCancelled (Moving s) id k a p := ⟨hheld, hk, hp, hcan⟩
    obtain ⟨hm, hq⟩ := quarterTurn_cut hs h ht ho hall
    have hm1 := hm.1
    have h' : OneCancelled m id k a p := ⟨by rw [hm1]; exact hheld, hk, by rw [hm1]; exact hp, hcan⟩
    have hu' : UserTrap m t.wg [t] := by rw [hm1]; exact hu
    obtain ⟨u, h1, h2, h3, h4⟩ := h'.traps ho hop hu'
    refine ⟨u, _, ?_, ?_, ?_, ?_, h4⟩
    · rw [step_quarter hturn, hq]
    · rw [h1, hm1]; rfl
    · rw [h2, hm1]; rfl
    · intro v
      rw [h3, hm1]
      rfl

end Sys2Proof.Machine
end

section
/-! Errors that are counted and logged (R302, R303, R305, R308). -/
namespace Sys2Proof.Machine

/-- The newest record of the error log is of a kind and of a die. -/
def Logged (l : List ErrRec) (kind die : Nat) : Prop := ∃ e, l.getLast? = some e ∧ e.kind = kind ∧ e.die = die

theorem logErr_logged (s : State) (kind die unit : Nat) (addr : DWord) :
    ∃ l, s.logErr kind die unit addr = { s with errlog := l } ∧ Logged l kind die := by
  unfold State.logErr
  dsimp only
  split
  · next r _ =>
    split
    · next h =>
      simp only [Bool.and_eq_true, decide_eq_true_eq] at h
      obtain ⟨⟨⟨⟨hk, hd⟩, -⟩, -⟩, -⟩ := h
      exact ⟨_, rfl, { r with rep := r.rep + 1 }, List.getLast?_concat .., hk, hd⟩
    · refine ⟨_, rfl, ⟨s.hubTime, kind, die, unit, addr, 0⟩, ?_, rfl, rfl⟩
      rw [List.getLast?_drop, if_neg (by simp), List.getLast?_concat]
  · exact ⟨_, rfl, _, rfl, rfl, rfl⟩

/-- A counter's value, which has 48 bits, after n more events. -/
def counterPlus (v : DWord) (n : Nat) : DWord := (v + BitVec.ofNat 64 n) &&& 0xFFFFFFFFFFFF

theorem counterPlus_toNat (v : DWord) (n : Nat) : (counterPlus v n).toNat = (v.toNat + n) % 2 ^ 48 := by
  rw [counterPlus, BitVec.toNat_and, show (0xFFFFFFFFFFFF : DWord).toNat = 2 ^ 48 - 1 from rfl, Nat.and_two_pow_sub_one_eq_mod, BitVec.toNat_add,
    BitVec.toNat_ofNat]
  omega

theorem counterPlus_add (v : DWord) (n m : Nat) : counterPlus (counterPlus v n) m = counterPlus v (n + m) := by
  apply BitVec.eq_of_toNat_eq
  simp only [counterPlus_toNat]
  omega

/-- Counters of dies and the error log alone differ: the die's counters of an event have counted n more, and the log ends with a record of the kind. -/
structure CountedAs (s u : State) (d code n kind : Nat) : Prop where
  only : u = { s with dies := u.dies, errlog := u.errlog }
  length : u.dies.length = s.dies.length
  sel : (u.die d).ctrSel = (s.die d).ctrSel
  val : d < 4 → ∀ k < 16, (u.die d).ctrVal.getD k 0 = if ((s.die d).ctrSel.getD k 0).toNat = code then counterPlus ((s.die d).ctrVal.getD k 0) n
    else (s.die d).ctrVal.getD k 0
  log : Logged u.errlog kind d

theorem countedAs_one {s : State} (hl : s.dies.length = 4) (d code n kind unit : Nat) (addr : DWord) :
    CountedAs s ((s.countDie d code n).logErr kind d unit addr) d code n kind := by
  obtain ⟨l, he, hlog⟩ := logErr_logged (s.countDie d code n) kind d unit addr
  rw [he]
  have hd := die_updDie s d d (fun x => { x with
    ctrVal := (List.range 16).map (fun k =>
      let v := x.ctrVal.getD k 0
      if (x.ctrSel.getD k 0).toNat = code then (v + BitVec.ofNat 64 n) &&& 0xFFFFFFFFFFFF else v) })
  refine ⟨rfl, lmod_length .., ?_, fun h4 k hk => ?_, hlog⟩
  · refine (congrArg Die.ctrSel hd).trans ?_
    split
    · rfl
    · rfl
  · refine (congrArg (fun x : Die => x.ctrVal.getD k 0) hd).trans ?_
    rw [if_pos ⟨rfl, by omega⟩, List.getD_eq_getElem?_getD, List.getElem?_map, List.getElem?_range hk]
    rfl

theorem CountedAs.trans {a b c : State} {d code n m kind : Nat} (h : CountedAs a b d code n kind) (g : CountedAs b c d code m kind) :
    CountedAs a c d code (n + m) kind := by
  refine ⟨by rw [g.only, h.only], g.length.trans h.length, g.sel.trans h.sel, fun h4 k hk => ?_, g.log⟩
  rw [g.val h4 k hk, h.val h4 k hk, h.sel]
  split
  · exact counterPlus_add ..
  · rfl

theorem scrub_counts {s : State} (hl : s.dies.length = 4) (d x : Nat) (xs : List Nat) : CountedAs s (s.scrub d (x :: xs)) d 8 (xs.length + 1) kindData := by
  have h1 := countedAs_one hl d 8 1 kindData 0 (BitVec.ofNat 64 (32 * x))
  induction xs generalizing s x with
  | nil => exact h1
  | cons y ys ih =>
    have hl' := h1.length.trans hl
    have h2 := ih hl' y (countedAs_one hl' ..)
    have := h1.trans h2
    rwa [Nat.add_comm 1] at this

end Sys2Proof.Machine
end

section
/-! Fatal queue errors (R255). -/
namespace Sys2Proof.Machine

theorem uncountEach_queues {α : Type} (ts : α → List ThreadId) (f : α → Option Nat) (es : List α) (s : State) :
    (es.foldl (fun s e => s.uncountAll (ts e) (f e)) s).queues = s.queues :=
  foldl_keeps _ State.queues es (fun z e _ => foldl_keeps (fun z t => z.updThr t (fun x => x.uncount (f e))) State.queues (ts e) (fun _ _ _ => rfl) z) s

theorem discardEngines_queues (s : State) (w : Nat) : (s.discardEngines w).queues = s.queues := by
  unfold State.discardEngines
  dsimp only
  split
  · rw [leaseStep_rest]
    exact (uncountEach_queues ..).trans ((uncountEach_queues ..).trans rfl)
  · exact (uncountEach_queues ..).trans ((uncountEach_queues ..).trans rfl)

theorem freeWg_queues (s : State) (w : Nat) : (s.freeWg w).queues = s.queues := by
  have hs : (s.stripWg w).queues = s.queues := (discardEngines_queues (s.dropFaults (s.siteIn w)) w).trans rfl
  have hl : ∀ (z : State) c n, (z.giveUpLease c n).queues = z.queues := fun z c n => by rw [giveUpLease_rest]
  have ht : ∀ (z : State) cs, (List.foldl State.tidyCore z cs).queues = z.queues := fun z cs => by rw [foldl_tidyCore_rest]
  unfold State.freeWg
  split
  · rfl
  · dsimp only
    split
    · split
      · exact (ht _ _).trans hs
      · exact hs
    · split
      · exact (ht _ _).trans ((hl _ _ _).trans hs)
      · exact (hl _ _ _).trans hs

/-- A queue that has taken a fatal error: no work is left, and it is disabled. -/
def Queue.Down (k : Queue) : Prop := k.err = true ∧ k.head = k.tail ∧ k.running = []

theorem queueError_queue (s : State) (q : Nat) (e : QErr) :
    (∀ r, r ≠ q → (s.queueError q e).queue r = s.queue r) ∧ (s.queueError q e).queue q = (s.queue q).map (fun k => { k with err := true }) := by
  unfold State.queueError
  split
  · next h => exact ⟨fun _ _ => rfl, by rw [h]; rfl⟩
  · next k hk =>
    split
    · next he =>
      obtain ⟨l, hl⟩ := logErr_eq s kindQueue e.die 0 k.errb
      rw [hl]
      refine ⟨fun _ _ => rfl, hk.trans ?_⟩
      rw [hk, Option.map_some, ← he]
    · have hp := (physStore_chainsKept s k.errb.toNat e.bytes).queues
      have hq : ∀ r, (s.physStore k.errb.toNat e.bytes).queue r = s.queue r := fun r => congrArg (mget · r) hp
      refine ⟨fun r hr => ?_, ?_⟩
      · exact (queue_updQueue ..).trans ((if_neg (Ne.symm hr)).trans (hq r))
      · exact (queue_updQueue ..).trans ((if_pos rfl).trans (by rw [hq]))

theorem fatalQueue_queue (s : State) (q : Nat) : (∀ r, r ≠ q → (s.fatalQueue q).queue r = s.queue r)
    ∧ ∀ k, s.queue q = some k → ∃ y, (s.fatalQueue q).queue q = some y ∧ y.tail = k.tail ∧ y.Down := by
  unfold State.fatalQueue
  split
  · next h => exact ⟨fun _ _ => rfl, fun k hk => by rw [h] at hk; cases hk⟩
  · next k hk =>
    dsimp only
    generalize hu : State.dropQueueUnits (List.foldl State.dropDispUnits (List.foldl (fun s w => s.freeWg w) s _) _) q = u
    have hq : ∀ r, u.queue r = s.queue r := fun r => by
      have : u.queues = s.queues := by
        rw [← hu]
        refine Eq.trans (b := (List.foldl State.dropDispUnits (List.foldl (fun s w => s.freeWg w) s _) _).queues) rfl ?_
        rw [foldl_keeps State.dropDispUnits State.queues _ (fun z d _ => by rw [dropDispUnits_rest])]
        exact foldl_keeps _ State.queues _ (fun z w _ => freeWg_queues z w) s
      exact congrArg (mget · r) this
    generalize hv : State.physStore _ _ _ = v
    have hp : ∀ r, v.queue r = if q = r then (s.queue r).map (fun x => { x with
        head := x.tail, running := [], savedWgs := [], savedCopies := [], csaUsed := 0, csaBlks := 0, readFault := false }) else s.queue r := fun r => by
      rw [← hv]
      refine (congrArg (mget · r) (physStore_chainsKept _ _ _).queues).trans ((queue_updQueue ..).trans ?_)
      rw [← hq r]
      rfl
    obtain ⟨ho, hs⟩ := queueError_queue v q { code := 6, cmd := k.tail.toNat }
    refine ⟨fun r hr => ?_, fun k' hk' => ?_⟩
    · rw [ho r hr, hp, if_neg (Ne.symm hr)]
    · rw [hs, hp, if_pos rfl, hk']
      exact ⟨_, rfl, rfl, rfl, rfl, rfl⟩

theorem fatalQueues_down (qs : List Nat) (s : State) {q : Nat} {k : Queue} (hk : s.queue q = some k) :
    ∃ y, (qs.foldl (fun s q => s.fatalQueue q) s).queue q = some y ∧ y.tail = k.tail ∧ (q ∈ qs ∨ k.Down → y.Down) := by
  induction qs generalizing s k with
  | nil => exact ⟨k, hk, rfl, fun h => h.resolve_left (by simp)⟩
  | cons p ps ih =>
    obtain ⟨ho, hq⟩ := fatalQueue_queue s p
    by_cases h : q = p
    · subst h
      obtain ⟨y, hy, ht, hd⟩ := hq k hk
      obtain ⟨z, hz, ht', hd'⟩ := ih _ hy
      exact ⟨z, hz, ht'.trans ht, fun _ => hd' (.inr hd)⟩
    · obtain ⟨z, hz, ht', hd'⟩ := ih _ ((ho q h).trans hk)
      refine ⟨z, hz, ht', fun hm => hd' (hm.imp_left fun hm => ?_)⟩
      exact (List.mem_cons.mp hm).resolve_left h

/-- Every queue is down, with HEAD at the TAIL it had (R255). -/
def AllDown (s z : State) : Prop := ∀ q k, s.queue q = some k → ∃ y, z.queue q = some y ∧ y.err = true ∧ y.head = k.tail ∧ y.running = []

theorem fatalAll_down (s : State) : AllDown s s.fatalAll := by
  intro q k hk
  obtain ⟨y, hy, ht, hd⟩ := fatalQueues_down (s.queues.map Prod.fst) s hk
  obtain ⟨he, hh, hr⟩ := hd (.inl (mem_keys_of_mget hk))
  exact ⟨y, hy, he, hh.trans ht, hr⟩

end Sys2Proof.Machine
end

section
/-! The host's accesses (R297): its own memory, and device memory through BAR2. -/
namespace Sys2Proof.Machine

theorem dirTouch_mem (s : State) (d pa : Nat) (w : Bool) : (s.dirTouch d pa w).mem = s.mem := by
  unfold State.dirTouch
  split
  · rfl
  · next h _ =>
    dsimp only
    split
    · have hf : ((List.range 4).foldl (fun s k => if k = d then s else s.invalCopies k (lineOf pa)) s).mem = s.mem :=
        foldl_keeps _ State.mem _ (fun z k _ => by
          split
          · rfl
          · exact invalCopies_mem ..) s
      split
      · exact hf
      · exact hf
    · split
      · split
        · rfl
        · rfl
      · rfl

/-- A byte that the host writes there stands there afterwards. -/
@[reducible] def HostWrites (s : State) (a : Nat) : Prop := inSystem a = true ∨ s.boot.verified = true ∧ a < 2 ^ 38 ∧ (homeDie a).isSome = true

theorem MemoryOnly.hostWrites {s u : State} (h : MemoryOnly s u) (a : Nat) : HostWrites u a ↔ HostWrites s a := by
  rw [h.1]

theorem bar2Byte_writes {s : State} (hw : s.mem.wf = true) (a : Nat) (b : Byte) : MemoryOnly s (s.bar2Byte a b)
    ∧ (HostWrites s a → ∀ x, Mem.rd (s.bar2Byte a b).mem x = if x = a then b else Mem.rd s.mem x) ∧ (¬ HostWrites s a → s.bar2Byte a b = s) := by
  unfold State.bar2Byte HostWrites
  by_cases hs : inSystem a = true
  · rw [if_pos hs]
    exact ⟨⟨rfl, fun h => wf_wr h ..⟩, fun _ x => rd_wr hw .., fun h => absurd (.inl hs) h⟩
  · rw [if_neg hs]
    by_cases hv : s.boot.verified = true
    · rw [if_neg (by simp [hv])]
      cases hd : homeDie a with
      | none => exact ⟨.refl s, fun h => by simp [hs] at h, fun _ => rfl⟩
      | some d =>
        dsimp only
        by_cases ha : a < 2 ^ 38
        · rw [if_neg (by unfold bar2Size; omega)]
          have hm : ∀ {u : State}, MemoryOnly s u → u.mem = s.mem → MemoryOnly s (u.homeWrite a [b])
              ∧ ∀ x, Mem.rd (u.homeWrite a [b]).mem x = if x = a then b else Mem.rd s.mem x := fun {u} hu he => by
            refine ⟨hu.trans (homeWrite_only ..), fun x => ?_⟩
            rw [homeWrite_mem, he]
            exact rd_wr hw ..
          obtain ⟨h1, h2⟩ := hm (u := if (mget (s.die d).dir (lineOf a)).isSome then s.dirTouch d a true else s)
            (.ite (dirTouch_only ..) (.refl s)) (by
              split
              · exact dirTouch_mem ..
              · rfl)
          exact ⟨h1, fun _ => h2, fun h => absurd (.inr ⟨hv, ha, rfl⟩) h⟩
        · rw [if_pos (by unfold bar2Size; omega)]
          exact ⟨.refl s, fun h => absurd h (by rintro (h | ⟨-, h, -⟩); exacts [hs h, ha h]), fun _ => rfl⟩
    · rw [if_pos (by simpa using hv)]
      exact ⟨.refl s, fun h => by simp [hs, hv] at h, fun _ => rfl⟩

theorem bar2Bytes_write {s : State} (hw : s.mem.wf = true) (addr : Nat) (bs : List Byte) (n : Nat) :
    MemoryOnly s ((bs.zipIdx n).foldl (fun (s : State) (p : Byte × Nat) => s.bar2Byte (addr + p.2) p.1) s)
      ∧ ∀ a, Mem.rd ((bs.zipIdx n).foldl (fun (s : State) (p : Byte × Nat) => s.bar2Byte (addr + p.2) p.1) s).mem a
        = if addr + n ≤ a ∧ a < addr + n + bs.length ∧ HostWrites s a then bs.getD (a - (addr + n)) 0 else Mem.rd s.mem a := by
  induction bs generalizing s n with
  | nil => exact ⟨.refl s, fun a => by rw [if_neg (by simp; omega)]; rfl⟩
  | cons b bs ih =>
    obtain ⟨hm, hy, hn⟩ := bar2Byte_writes hw (addr + n) b
    obtain ⟨hm', hr⟩ := ih (hm.2 hw) (n + 1)
    rw [List.zipIdx_cons, List.foldl_cons]
    refine ⟨hm.trans hm', fun a => ?_⟩
    rw [hr a, List.length_cons]
    simp only [hm.hostWrites]
    have h1 : Mem.rd (s.bar2Byte (addr + n) b).mem a = if a = addr + n ∧ HostWrites s a then b else Mem.rd s.mem a := by
      by_cases hh : HostWrites s (addr + n)
      · rw [hy hh]
        by_cases e : a = addr + n
        · subst e; simp [hh]
        · simp [e]
      · rw [hn hh, if_neg (fun h : a = addr + n ∧ HostWrites s a => hh (h.1 ▸ h.2))]
    rw [h1]
    by_cases hh : HostWrites s a
    · rcases Nat.lt_trichotomy a (addr + n) with h | h | h
      · rw [if_neg (by omega), if_neg (by omega), if_neg (by omega)]
      · subst h
        rw [if_neg (by omega), if_pos ⟨rfl, hh⟩, if_pos ⟨by omega, by omega, hh⟩, Nat.sub_self]
        rfl
      · by_cases h' : a < addr + (n + 1) + bs.length
        · rw [if_pos ⟨by omega, h', hh⟩, if_pos ⟨by omega, by omega, hh⟩]
          obtain ⟨k, rfl⟩ := Nat.exists_eq_add_of_lt h
          rw [show addr + n + k + 1 - (addr + (n + 1)) = k by omega, show addr + n + k + 1 - (addr + n) = k + 1 by omega]
          rfl
        · rw [if_neg (by omega), if_neg (by omega), if_neg (by omega)]
    · simp [hh]

/-- What the host reads of a byte: nothing where the part does not answer, and zero in a reserved range. -/
def hostByte (s : State) (a : Nat) : List Byte :=
  if inSystem a = true then [Mem.rd s.mem a] else if s.boot.verified = false ∨ 2 ^ 38 ≤ a then []
  else [if (homeDie a).isSome = true then Mem.rd s.mem a else 0]

theorem bar2Read_reads (s : State) (a : Nat) : MemoryOnly s (s.bar2Read a).1 ∧ (s.bar2Read a).1.mem = s.mem ∧ (s.bar2Read a).2 = hostByte s a := by
  unfold State.bar2Read hostByte
  by_cases hs : inSystem a = true
  · rw [if_pos hs, if_pos hs]
    exact ⟨.refl s, rfl, rfl⟩
  · have hb : (!s.boot.verified || decide (bar2Size ≤ a)) = true ↔ s.boot.verified = false ∨ 2 ^ 38 ≤ a := by
      rw [Bool.or_eq_true, Bool.not_eq_true', decide_eq_true_eq]
      rfl
    rw [if_neg hs, if_neg hs]
    by_cases hv : s.boot.verified = false ∨ 2 ^ 38 ≤ a
    · rw [if_pos (hb.mpr hv), if_pos hv]
      exact ⟨.refl s, rfl, rfl⟩
    · rw [if_neg (hb.not.mpr hv), if_neg hv]
      cases homeDie a with
      | none => exact ⟨.refl s, rfl, rfl⟩
      | some d =>
        dsimp only
        split
        · exact ⟨.refl s, rfl, rfl⟩
        · rw [dirTouch_mem]
          exact ⟨dirTouch_only .., rfl, rfl⟩

theorem MemoryOnly.hostByte {s u : State} (h : MemoryOnly s u) (hm : u.mem = s.mem) (a : Nat) : hostByte u a = hostByte s a := by
  unfold Machine.hostByte
  rw [hm, show u.boot = s.boot by rw [h.1]]

/-- After some reads of the host, its reply stands, and memory as it was. -/
theorem bar2Reads_reply (s : State) (addr n : Nat) : ∃ u, MemoryOnly s u ∧ u.mem = s.mem
    ∧ (List.range n).foldl (fun (s : State) i => let r := s.bar2Read (addr + i); { r.1 with reply := r.1.reply ++ r.2 }) { s with reply := [] }
      = { u with reply := (List.range n).flatMap (fun i => Machine.hostByte s (addr + i)) } := by
  induction n with
  | zero => exact ⟨s, .refl s, rfl, rfl⟩
  | succ n ih =>
    obtain ⟨u, hu, hm, he⟩ := ih
    obtain ⟨hr, hrm, hb⟩ := bar2Read_reads { u with reply := (List.range n).flatMap (fun i => Machine.hostByte s (addr + i)) } (addr + n)
    rw [List.range_succ, List.foldl_append, he, List.foldl_cons, List.foldl_nil, List.flatMap_append]
    dsimp only
    rw [hb]
    generalize (State.bar2Read { u with reply := (List.range n).flatMap (fun i => Machine.hostByte s (addr + i)) } (addr + n)).1 = v at hr hrm
    refine ⟨{ v with reply := s.reply }, ?_, hrm.trans hm, ?_⟩
    · refine hu.trans ⟨?_, fun h => hr.2 h⟩
      have := congrArg (fun z : State => { z with reply := u.reply }) hr.1
      rw [show s.reply = u.reply by rw [hu.1]]
      exact this
    · have h1 : v.reply = (List.range n).flatMap (fun i => Machine.hostByte s (addr + i)) := by rw [hr.1]
      rw [h1, show Machine.hostByte { u with reply := (List.range n).flatMap (fun i => Machine.hostByte s (addr + i)) } (addr + n)
        = Machine.hostByte s (addr + n) from MemoryOnly.hostByte hu hm _]
      simp

end Sys2Proof.Machine
end

section
/-! Reset, temperature and power, uncorrectable errors, and the resources of virtual functions (R299, R302, R303, R307, R309). -/
namespace Sys2Proof.Machine

theorem imgVerified_iff (img : FirmwareImage) : imgVerified img = true ↔ fld img.bytes 0 4 = 0x4E4B4231 ∧ (imgBody img).length = fld img.bytes 8 8
    ∧ (∀ k < 61, img.bytes.getD (7235 + k) 0 = 0) ∧ sha3_512 (imgKey img) = (List.range 64).map Config.fusedKey
    ∧ Config.verifies (imgKey img) (sha3_512 (imgBody img)) (imgSig img) = true := by
  unfold imgVerified
  generalize sha3_512 (imgKey img) = x
  generalize sha3_512 (imgBody img) = y
  simp only [Bool.and_eq_true, beq_iff_eq, List.all_eq_true, List.mem_range, and_assoc]

theorem bootOf_verified {img : FirmwareImage} (h : imgVerified img = true) (hv : Config.rollback ≤ imgVersion img) :
    bootOf img = ⟨true, imgVersion img, sha3_512 (imgBody img)⟩ := if_pos (by rw [h, decide_eq_true hv]; rfl)

theorem bootOf_unverified {img : FirmwareImage} (h : ¬ (imgVerified img = true ∧ Config.rollback ≤ imgVersion img)) :
    bootOf img = ⟨false, 0, zeros 64⟩ := if_neg (fun hb => h (by rwa [Bool.and_eq_true, decide_eq_true_eq] at hb))

/-- The entry temperature of the steps 1 to 3 (R309). -/
def stepEntry (k : Nat) : Nat := if k = 1 then 95 else if k = 2 then 100 else 105

theorem entryTemp_eq {k : Nat} (h1 : 1 ≤ k) (h3 : k ≤ 3) : entryTemp k = stepEntry k := by
  obtain rfl | rfl | rfl : k = 1 ∨ k = 2 ∨ k = 3 := by omega
  · rfl
  · rfl
  · rfl

theorem stepFor_lt {t : Nat} (h : t < 110) : stepFor t ≤ 3 := by
  revert t
  decide

/-- The step of a temperature under the halt is the highest whose entry it reaches. -/
theorem le_stepFor {t k : Nat} (ht : t < 110) (h1 : 1 ≤ k) (h3 : k ≤ 3) : k ≤ stepFor t ↔ stepEntry k ≤ t := by
  have H : ∀ t < 110, ∀ k < 4, 1 ≤ k → (k ≤ stepFor t ↔ stepEntry k ≤ t) := by decide
  exact H t ht k (Nat.lt_succ_of_le h3) h1

theorem thermalRead_halt {s : State} {temps : List Nat} (h : 110 ≤ temps.foldl max 0) :
    s.thermalRead temps = { s.fatalAll with thermal := 4, stopped := true } := by
  unfold State.thermalRead
  exact if_pos (by unfold stepFor; rw [if_pos h])

section
variable {s : State} {temps : List Nat} (ht : temps.foldl max 0 < 110)
include ht

theorem thermalRead_up (h : s.thermal < stepFor (temps.foldl max 0)) : s.thermalRead temps = { s with thermal := stepFor (temps.foldl max 0) } := by
  have := stepFor_lt ht
  unfold State.thermalRead
  dsimp only
  rw [if_neg (by omega), if_pos h]

theorem thermalRead_else (h : stepFor (temps.foldl max 0) ≤ s.thermal) : s.thermalRead temps
    = if (1 ≤ s.thermal && temps.foldl max 0 + 5 ≤ entryTemp s.thermal && s.powerBelow 780) = true then { s with thermal := s.thermal - 1 } else s := by
  have := stepFor_lt ht
  unfold State.thermalRead
  dsimp only
  rw [if_neg (by omega), if_neg (by omega)]

end

theorem powerBelow_iff (s : State) (w : Nat) : s.powerBelow w = true ↔ s.powers = [] ∨ s.powers.sum < w * s.powers.length := by
  simp [State.powerBelow]

theorem notifyRead_tail {s : State} {q : Nat} {k : Queue} (hq : q < 4096) (hk : s.queue q = some k) :
    s.notifyRead 0 (0x01000000 + 4096 * q) 8 = { s with reply := leBytes 8 k.tail.toNat } := by
  have hn : s.notifyQueue 0 (0x01000000 + 4096 * q) = some q := by
    unfold State.notifyQueue notifyBase
    dsimp only
    rw [if_pos rfl, show (0x01000000 + 4096 * q - 0x01000000) / 4096 = q by omega, if_pos hq]
  unfold State.notifyRead
  dsimp only
  rw [if_neg (by unfold notifyBase; simp), hn, Option.bind_some, hk]
  rfl

/-- An access of one thread whose data cannot be corrected: it is complete, and the thread traps (R303). -/
theorem dataHit_traps {s : State} {id : Nat} {a : Acc} (ha : mget s.accs id = some a) (ho : a.owners = [a.t]) (hu : UserTrap s a.t.wg [a.t])
    (hx : ∀ x, s.thr a.t = some x → x.exited = false) :
    ∃ v, v = { s with threads := v.threads, accs := mdel s.accs id }
      ∧ (∀ t, v.thr t = if t = a.t then (s.thr t).map (fun x => x.uncount a.flag) else s.thr t)
      ∧ TrapsTaken v (s.dataHit (.access id)) a.t.wg [(a.t, { cause := 6, addr := a.va })] [] Thread.savedPc := by
  obtain ⟨hw, hs⟩ := hu
  obtain ⟨-, x, ht, hsys⟩ := hs a.t (List.mem_singleton_self _)
  have hfin : s.finish id a = { s with accs := mdel s.accs id }.updThr a.t (fun x => x.uncount a.flag) := by
    unfold State.finish
    dsimp only
    rw [ho]
    rfl
  have hthr : (s.finish id a).thr a.t = some (x.uncount a.flag) := by
    rw [hfin, thr_updThr_self]
    exact congrArg (Option.map _) ht
  have hsys' : (x.uncount a.flag).sys = false := by cases a.flag <;> exact hsys
  have hlive : (x.uncount a.flag).exited = false := by
    have := hx x ht
    cases a.flag <;> exact this
  refine ⟨s.finish id a, by rw [hfin]; rfl, fun t => ?_, ?_⟩
  · rw [hfin, thr_updThr]
    by_cases h : a.t = t
    · rw [if_pos h, if_pos h.symm]; rfl
    · rw [if_neg h, if_neg (Ne.symm h)]; rfl
  · have htrap := takeTraps_user (s.finish id a) [a.t] [(a.t, { cause := 6, addr := a.va })] Thread.savedPc a.t.wg (by simp) (by simp) (by simp)
      ⟨by rw [hfin]; exact hw, fun v hv => by obtain rfl := List.mem_singleton.mp hv; exact ⟨rfl, _, hthr, hsys'⟩⟩
    have hz : s.dataHit (.access id) = (s.finish id a).takeTraps [a.t] [(a.t, { cause := 6, addr := a.va })] Thread.savedPc := by
      unfold State.dataHit
      dsimp only
      rw [ha]
      dsimp only
      unfold State.lateTrap
      have : a.owners.filter (fun t => (((s.finish id a).thr t).map (fun x => !x.exited)).getD false) = [a.t] := by
        rw [ho, List.filter_cons, hthr]
        simp [hlive]
      dsimp only
      rw [this]
      rfl
    rw [hz]
    simpa using htrap

/-- No other function has the number. -/
def FreeFor (s : State) (vf : Nat) (of : VfRes → List Nat) (q : Nat) : Prop := ∀ e ∈ s.vfs, e.1 ≠ vf → q ∉ of e.2

theorem all_free_iff (s : State) (vf n : Nat) (of : VfRes → List Nat) (qs : List Nat) :
    qs.all (fun q => q < n && !((s.vfs.filter (fun e => e.1 != vf)).any (fun e => (of e.2).contains q))) = true ↔ ∀ q ∈ qs, q < n ∧ FreeFor s vf of q := by
  simp [FreeFor, List.all_eq_true, List.any_eq_false]

/-- The numbers exist, and no other function has them (R299). -/
def MayAssign (s : State) (vf : Nat) (queues contexts : List Nat) (slots : Nat) : Prop :=
  1 ≤ vf ∧ vf ≤ 16 ∧ slots ≤ 128 ∧ (∀ q ∈ queues, q < 4096 ∧ FreeFor s vf VfRes.queues q) ∧ ∀ c ∈ contexts, c < 65536 ∧ FreeFor s vf VfRes.ctxs c

theorem mayAssign_iff (s : State) (vf : Nat) (queues contexts : List Nat) (slots : Nat) :
    (1 ≤ vf && vf ≤ 16 && slots ≤ 128 && queues.all (fun q => q < 4096 && !((s.vfs.filter (fun e => e.1 != vf)).any (fun e => e.2.queues.contains q)))
      && contexts.all (fun c => c < 65536 && !((s.vfs.filter (fun e => e.1 != vf)).any (fun e => e.2.ctxs.contains c)))) = true
      ↔ MayAssign s vf queues contexts slots := by
  rw [Bool.and_eq_true, Bool.and_eq_true, all_free_iff s vf 4096 VfRes.queues, all_free_iff s vf 65536 VfRes.ctxs]
  simp [MayAssign, and_assoc]

theorem ownerAfter_eq (vf : Nat) (mine : List Nat) (n fn : Nat) : ownerAfter vf mine n fn = if n ∈ mine then vf else if fn = vf then 0 else fn := by
  unfold ownerAfter
  simp only [List.contains_iff_mem]

theorem assignVf_may {s : State} {vf : Nat} {queues contexts : List Nat} {slots : Nat} (h : MayAssign s vf queues contexts slots) :
    s.assignVf vf queues contexts slots = { s with
      vfs := mput s.vfs vf ⟨queues, contexts, slots⟩
      queues := s.queues.map (fun e => (e.1, { e.2 with fn := if e.1 ∈ queues then vf else if e.2.fn = vf then 0 else e.2.fn }))
      contexts := s.contexts.map (fun e => (e.1, { e.2 with fn := if e.1 ∈ contexts then vf else if e.2.fn = vf then 0 else e.2.fn })) } := by
  simp only [← ownerAfter_eq]
  exact if_pos ((mayAssign_iff ..).mpr h)

theorem assignVf_refused {s : State} {vf : Nat} {queues contexts : List Nat} {slots : Nat} (h : ¬ MayAssign s vf queues contexts slots) :
    s.assignVf vf queues contexts slots = s := if_neg ((mayAssign_iff ..).not.mpr h)

theorem hostAccess {s : State} (hc : Canonical s) (addr : Nat) (bs : List Byte) (n : Nat) :
    ∃ u z, exec (.hostBar2Access addr bs n) s = .next z ∧ MemoryOnly s u ∧ z = { u with reply := z.reply }
      ∧ (∀ a, Mem.rd z.mem a = if addr ≤ a ∧ a < addr + bs.length ∧ (inSystem a = true ∨ s.boot.verified = true ∧ a < 2 ^ 38 ∧ (homeDie a).isSome = true)
          then bs.getD (a - addr) 0 else Mem.rd s.mem a)
      ∧ z.reply = if n = 0 then s.reply else (List.range n).flatMap (fun i => let a := addr + i
          if inSystem a = true then [Mem.rd z.mem a] else if s.boot.verified = false ∨ 2 ^ 38 ≤ a then []
          else [if (homeDie a).isSome = true then Mem.rd z.mem a else 0]) := by
  obtain ⟨hw, hr⟩ := bar2Bytes_write hc.1 addr bs 0
  generalize hv : (bs.zipIdx 0).foldl (fun (s : State) (p : Byte × Nat) => s.bar2Byte (addr + p.2) p.1) s = v at hw hr
  have hb : s.bar2 addr bs n = if n = 0 then v
      else (List.range n).foldl (fun (s : State) i => let r := s.bar2Read (addr + i); { r.1 with reply := r.1.reply ++ r.2 }) { v with reply := [] } := by
    rw [← hv]
    rfl
  have hrd : ∀ a, Mem.rd v.mem a = if addr ≤ a ∧ a < addr + bs.length ∧ (inSystem a = true ∨ s.boot.verified = true ∧ a < 2 ^ 38 ∧ (homeDie a).isSome = true)
      then bs.getD (a - addr) 0 else Mem.rd s.mem a := fun a => by
    rw [hr a]
    rfl
  by_cases h : n = 0
  · rw [if_pos h] at hb
    exact ⟨v, v, congrArg Host.Outcome.next hb, hw, rfl, hrd, by rw [if_pos h, hw.1]⟩
  · rw [if_neg h] at hb
    obtain ⟨u, hu, hm, he⟩ := bar2Reads_reply v addr n
    refine ⟨u, _, congrArg Host.Outcome.next (hb.trans he), hw.trans hu, rfl, fun a => ?_, ?_⟩
    · rw [← hrd a, ← hm]
    · rw [if_neg h]
      dsimp only
      rw [hm]
      unfold hostByte
      rw [show v.boot = s.boot by rw [hw.1]]

/-- The power readings of the last 10 ms (R309). -/
def lastPowers (s : State) (w : Nat) : List Nat := (s.powers ++ [w]).drop (s.powers.length + 1 - 10)

theorem powerRead_cases (s : State) (w : Nat) :
    (800 * (lastPowers s w).length < (lastPowers s w).sum ∧ s.thermal < 3 → s.powerRead w = { s with powers := lastPowers s w, thermal := s.thermal + 1 })
      ∧ (¬ (800 * (lastPowers s w).length < (lastPowers s w).sum ∧ s.thermal < 3) → s.powerRead w = { s with powers := lastPowers s w }) := by
  have hb : ({ s with powers := lastPowers s w }.powerAbove 800 && decide (s.thermal < 3)) = true
      ↔ 800 * (lastPowers s w).length < (lastPowers s w).sum ∧ s.thermal < 3 := by simp [State.powerAbove]
  have hp : (s.powers ++ [w]).drop ((s.powers ++ [w]).length - 10) = lastPowers s w := by rw [List.length_append]; rfl
  unfold State.powerRead
  dsimp only
  rw [hp]
  exact ⟨fun h => if_pos (hb.mpr h), fun h => if_neg (hb.not.mpr h)⟩

theorem powerRead_eq (s : State) (w : Nat) : ∃ z, exec (.powerRead w) s = .next z
    ∧ z = { s with powers := (s.powers ++ [w]).drop (s.powers.length + 1 - 10), thermal := z.thermal }
    ∧ z.thermal = if 800 * z.powers.length < z.powers.sum ∧ s.thermal < 3 then s.thermal + 1 else s.thermal := by
  obtain ⟨hup, hstay⟩ := powerRead_cases s w
  by_cases h : 800 * (lastPowers s w).length < (lastPowers s w).sum ∧ s.thermal < 3
  · exact ⟨_, congrArg Host.Outcome.next (hup h), rfl, (if_pos h).symm⟩
  · exact ⟨_, congrArg Host.Outcome.next (hstay h), rfl, (if_neg h).symm⟩

/-- Retries that a link makes up to 8 are counted; past 8 the data is lost (R302). -/
theorem linkError_few {s : State} {d n : Nat} {site : ErrSite} (h : n ≤ 8) : s.linkError d site n = (s.countDie d 7 n).logErr kindLink d 0 0 := by
  unfold State.linkError
  dsimp only
  rw [if_pos h, Nat.min_eq_left h]

theorem linkError_many {s : State} {d n : Nat} {site : ErrSite} (h : 8 < n) :
    s.linkError d site n = ((s.countDie d 7 8).logErr kindLink d 0 0).dataHit site := by
  unfold State.linkError
  dsimp only
  rw [if_neg (by omega), Nat.min_eq_right (by omega)]

theorem ucieError_few {s : State} {l n : Nat} (h : n ≤ 8) :
    s.ucieError l n = (s.countDie (l % 4) 4 n).logErr kindLink (l % 4) 1 (BitVec.ofNat 64 l) := by
  unfold State.ucieError
  dsimp only
  rw [if_pos h, Nat.min_eq_left h]

theorem ucieError_many {s : State} {l n : Nat} (h : 8 < n) :
    s.ucieError l n = ((s.countDie (l % 4) 4 8).logErr kindLink (l % 4) 1 (BitVec.ofNat 64 l)).fatalAll := by
  unfold State.ucieError
  dsimp only
  rw [if_neg (by omega), Nat.min_eq_right (by omega)]

/-- Settles O48: the host's bytes by `bar2Bytes_write`, fatal errors by `fatalAll_down`, counted errors by `CountedAs`, the trap of an access by
`dataHit_traps`. -/
theorem outsideEvents : Obligations.OutsideEvents := by
  unfold Obligations.OutsideEvents
  intro s hc allFatal counted
  have hl : s.dies.length = 4 := hc.2.2.2.2
  have of_counted : ∀ {u d code n kind}, CountedAs s u d code n kind → counted u d code n kind := fun h => ⟨h.only, h.val, h.log⟩
  refine ⟨?_, ?_, ?_, ?_, ?_, ?_, ?_, ?_, ?_, ?_, ?_, ?_, ?_, ?_⟩
  · intro addr bs n
    exact hostAccess hc addr bs n
  · intro img b key body verified
    refine ⟨bootOf img, rfl, fun hv hr => bootOf_verified ((imgVerified_iff img).mpr hv) hr, fun h => bootOf_unverified ?_⟩
    rw [imgVerified_iff]
    exact h
  · intro temps t entry
    refine ⟨fun h => ⟨_, congrArg Host.Outcome.next (thermalRead_halt h), rfl, rfl, fatalAll_down s⟩, ?_, ?_, ?_⟩
    · intro k h1 h3 hk he ht hn
      have hs := (le_stepFor ht h1 h3).mpr he
      have hlt := stepFor_lt ht
      have heq : stepFor t = k := by
        refine Nat.le_antisymm (Nat.le_of_not_lt fun h => ?_) hs
        have h3' : k < 3 := by omega
        exact absurd ((le_stepFor ht (k := k + 1) (by omega) (by omega)).mp h) (Nat.not_le.mpr (hn h3'))
      refine (congrArg Host.Outcome.next (thermalRead_up ht (by rw [heq]; exact hk))).trans ?_
      rw [heq]
    · intro h1 h3 he hp
      have hent : stepEntry s.thermal ≤ 105 := by unfold stepEntry; split_ifs <;> omega
      have ht : t < 110 := by have : t + 5 ≤ stepEntry s.thermal := he; omega
      have hlt : stepFor t ≤ s.thermal := by
        refine Nat.le_of_lt (Nat.lt_of_not_le fun h => ?_)
        have := (le_stepFor ht h1 h3).mp h
        have : t + 5 ≤ stepEntry s.thermal := he
        omega
      refine congrArg Host.Outcome.next ((thermalRead_else ht hlt).trans (if_pos ?_))
      rw [entryTemp_eq h1 h3, (powerBelow_iff s 780).mpr hp]
      have he' : temps.foldl max 0 + 5 ≤ stepEntry s.thermal := he
      simp [h1, he']
    · intro h3 ht hk hstay
      have hlt : stepFor t ≤ s.thermal := by
        refine Nat.le_of_not_lt fun h => ?_
        have h4 := stepFor_lt ht
        exact absurd ((le_stepFor ht (k := stepFor t) (by omega) h4).mp (Nat.le_refl _)) (Nat.not_le.mpr (hk _ h h4))
      refine congrArg Host.Outcome.next ((thermalRead_else ht hlt).trans (if_neg fun h => ?_))
      rw [Bool.and_eq_true, Bool.and_eq_true, decide_eq_true_eq, decide_eq_true_eq, powerBelow_iff] at h
      obtain ⟨⟨h1, he⟩, hp⟩ := h
      rw [entryTemp_eq h1 h3] at he
      rcases hstay with h0 | h0 | ⟨h0, h0'⟩
      · omega
      · exact absurd he (Nat.not_le.mpr h0)
      · rcases hp with hp | hp
        · exact h0 hp
        · omega
  · exact powerRead_eq s
  · intro d fixed
    refine ⟨fun h => ?_, fun h => ?_⟩
    · show Host.Outcome.next (s.scrub d fixed).bump = _
      rw [h]
      rfl
    · obtain ⟨x, xs, hx⟩ := List.exists_cons_of_ne_nil h
      have hs := scrub_counts hl d x xs
      rw [← hx, ← List.length_cons (a := x), ← hx] at hs
      exact ⟨_, rfl, of_counted hs⟩
  · exact fun d unit a => of_counted (countedAs_one hl ..)
  · intro q k hk
    obtain ⟨y, hy, ht, he, hh, hr⟩ := (fatalQueue_queue s q).2 k hk
    exact ⟨y, hy, he, hh.trans ht, hr⟩
  · exact fun q k hq hk => notifyRead_tail hq hk
  · exact fun d site n h => ⟨_, congrArg Host.Outcome.next (linkError_few h), of_counted (countedAs_one hl ..)⟩
  · exact fun d site n h => ⟨_, congrArg Host.Outcome.next (linkError_many h), of_counted (countedAs_one hl ..)⟩
  · rintro d id a w n h ha ho rfl hu hx
    have hcnt := countedAs_one hl d 7 8 kindLink 0 0
    generalize hs : (s.countDie d 7 8).logErr kindLink d 0 0 = u at hcnt
    have ho' := hcnt.only
    obtain ⟨v, hv, ht, htraps⟩ := dataHit_traps (s := u) (id := id) (a := a) (by rw [ho']; exact ha) ho (by rw [ho']; exact hu) (by rw [ho']; exact hx)
    refine ⟨u, v, _, congrArg Host.Outcome.next ((linkError_many h).trans (congrArg (fun z => State.dataHit z _) hs)), of_counted hcnt, ?_, fun t => ?_, htraps⟩
    · rw [hv, ho']
    · rw [ht, ho']
      rfl
  · refine fun l n => ⟨fun h => ⟨_, congrArg Host.Outcome.next (ucieError_few h), of_counted (countedAs_one hl ..)⟩, fun h => ?_⟩
    refine ⟨_, congrArg Host.Outcome.next (ucieError_many h), ?_⟩
    have hd := fatalAll_down ((s.countDie (l % 4) 4 8).logErr kindLink (l % 4) 1 (BitVec.ofNat 64 l))
    have ho := (countedAs_one hl (l % 4) 4 8 kindLink 1 (BitVec.ofNat 64 l)).only
    generalize (s.countDie (l % 4) 4 8).logErr kindLink (l % 4) 1 (BitVec.ofNat 64 l) = u at hd ho
    exact fun q k hk => hd q k (by rw [ho]; exact hk)
  · exact ⟨_, rfl, rfl, fatalAll_down s⟩
  · intro vf queues contexts slots free may owner
    exact ⟨fun h => congrArg Host.Outcome.next (assignVf_may h), fun h => congrArg Host.Outcome.next (assignVf_refused h)⟩

end Sys2Proof.Machine
end

section
/-! Fences, and what an acquire leaves of an L1 (R86, R94, R95, R351, R408). -/
namespace Sys2Proof.Machine

theorem MemoryOnly.coreOf {s z : State} (h : MemoryOnly s z) (t : ThreadId) : z.coreOf t = s.coreOf t := by
  unfold State.coreOf State.wg
  rw [h.wgs]

/-- A word without effect on its lanes: its threads go on, and then it does what it does beside. -/
theorem lanesThen_fence {s : State} {i : Instr} (post : State → List ThreadId → State) (hr : Ready s i) :
    ∃ v, s.lanesThen i (fun _ _ _ => .fx {}) post = post v (s.executing i) ∧ v = { s with threads := v.threads }
      ∧ ThreadsGo s v i (fun _ => Thread.advance) := by
  obtain ⟨-, hm, hx⟩ := id hr
  obtain ⟨h1, h2⟩ := lanes_go (fun _ _ _ => LaneRes.fx {}) (fun _ => Thread.advance) (fun _ => {}) hr (fun _ _ => ⟨rfl, rfl, rfl⟩)
    (fun _ _ x _ => congrArg Thread.advance (apply_empty x []))
  exact ⟨_, lanesThen_lanes s i _ post hm (fun t ht => ⟨(hx t ht).1, _, rfl⟩), h1, h2⟩

/-- What threads of one core do to the memory system one after another, each by its workgroup's tag. -/
theorem foldl_byCore {f : State → Nat → Nat → State} (hf : ∀ s c tag, MemoryOnly s (f s c tag)) {c : Nat} (ts : List ThreadId) (s : State)
    (hc : ∀ t ∈ ts, s.coreOf t = c) :
    ts.foldl (fun s t => f s (s.coreOf t) (s.tagOf t.wg)) s = (ts.map (fun t => s.tagOf t.wg)).foldl (fun s tag => f s c tag) s := by
  induction ts generalizing s with
  | nil => rfl
  | cons t ts ih =>
    have hm := hf s c (s.tagOf t.wg)
    simp only [List.foldl_cons, List.map_cons, hc t (List.mem_cons_self ..)]
    rw [ih _ (fun u hu => (hm.coreOf u).trans (hc u (List.mem_cons_of_mem _ hu)))]
    simp only [hm.tagOf]

/-- What acquires of one core keep (R86): injected lines, dirty bytes, and all that is not its L1 or, at SYS, its die's L2. -/
structure AcquireKeeps (s z : State) (c : Nat) (sc : Scope) : Prop where
  rest : z = { s with cores := z.cores, dies := z.dies }
  narrow : Scope.wide sc = false → z = s
  injected : ∀ l ∈ (s.core c).l1, l.inj = true → l ∈ (z.core c).l1
  dirty : ∀ l ∈ (s.core c).l1, l.dirty ≠ 0 → ∃ l' ∈ (z.core c).l1, l'.line = l.line ∧ l'.dirty = l.dirty ∧ l'.data = l.data
  dies : sc ≠ .sys → z.dies = s.dies

theorem AcquireKeeps.refl (s : State) (c : Nat) (sc : Scope) : AcquireKeeps s s c sc :=
  ⟨rfl, fun _ => rfl, fun _ h _ => h, fun l h _ => ⟨l, h, rfl, rfl, rfl⟩, fun _ => rfl⟩

theorem AcquireKeeps.trans {a b z : State} {c : Nat} {sc : Scope} (h : AcquireKeeps a b c sc) (g : AcquireKeeps b z c sc) : AcquireKeeps a z c sc where
  rest := by rw [g.rest, h.rest]
  narrow hw := (g.narrow hw).trans (h.narrow hw)
  injected l hl hi := g.injected l (h.injected l hl hi) hi
  dirty l hl hd := by
    obtain ⟨m, hm, e1, e2, e3⟩ := h.dirty l hl hd
    obtain ⟨n, hn, f1, f2, f3⟩ := g.dirty m hm (e2 ▸ hd)
    exact ⟨n, hn, f1.trans e1, f2.trans e2, f3.trans e3⟩
  dies hs := (g.dies hs).trans (h.dies hs)

theorem core_updDie (s : State) (d : Nat) (f : Die → Die) (c : Nat) : (s.updDie d f).core c = s.core c := rfl

theorem acquire_narrow {sc : Scope} (h : Scope.wide sc = false) (s : State) (c : Nat) : s.acquire c sc = s := by
  unfold State.acquire
  rw [if_neg (by simp [h])]

/-- The L1 of a core after an acquire at CL or wider. -/
theorem acquire_l1 {sc : Scope} (h : Scope.wide sc = true) (s : State) (c : Nat) :
    ((s.acquire c sc).core c).l1 = ((s.core c).l1.map (fun l => if l.inj then l else { l with valid := 0 })).filter (fun l => l.inj || l.dirty != 0) := by
  unfold State.acquire
  rw [if_pos h]
  dsimp only
  split
  · rw [core_updDie, core_updCore, if_pos rfl]
  · rw [core_updCore, if_pos rfl]

theorem acquire_clean {sc : Scope} (h : Scope.wide sc = true) (s : State) (c : Nat) : ∀ l ∈ ((s.acquire c sc).core c).l1, l.inj = false → l.valid = 0 := by
  intro l hl hi
  rw [acquire_l1 h] at hl
  obtain ⟨m, -, rfl⟩ := List.mem_map.mp (List.mem_of_mem_filter hl)
  split at hi
  · rename_i hm; rw [hm] at hi; exact absurd hi (by simp)
  · rename_i hm; rw [if_neg hm]

theorem acquire_keeps (s : State) (c : Nat) (sc : Scope) : AcquireKeeps s (s.acquire c sc) c sc := by
  by_cases h : Scope.wide sc = true
  · have hmem : ∀ l ∈ (s.core c).l1, l.inj = true ∨ l.dirty ≠ 0 → (if l.inj then l else { l with valid := 0 }) ∈ ((s.acquire c sc).core c).l1 := by
      intro l hl hk
      rw [acquire_l1 h, List.mem_filter]
      refine ⟨List.mem_map.mpr ⟨l, hl, rfl⟩, ?_⟩
      split
      · rename_i hi; simp [hi]
      · rename_i hi; simpa [hi] using hk
    refine ⟨?_, fun hn => absurd h (by simp [hn]), fun l hl hi => ?_, fun l hl hd => ⟨_, hmem l hl (.inr hd), ?_⟩, fun hs => ?_⟩
    · unfold State.acquire
      rw [if_pos h]
      dsimp only
      split <;> rfl
    · have := hmem l hl (.inl hi)
      rwa [if_pos hi] at this
    · split <;> exact ⟨rfl, rfl, rfl⟩
    · unfold State.acquire
      rw [if_pos h]
      dsimp only
      rw [if_neg hs]
      rfl
  · rw [acquire_narrow (by simpa using h)]
    exact .refl ..

/-- Acquires of a core, at least one of them. -/
theorem acquires_keep (s : State) (c : Nat) (sc : Scope) (xs : List Nat) (hx : xs ≠ []) :
    AcquireKeeps s (xs.foldl (fun s _ => s.acquire c sc) s) c sc
      ∧ (Scope.wide sc = true → ∀ l ∈ ((xs.foldl (fun s _ => s.acquire c sc) s).core c).l1, l.inj = false → l.valid = 0) := by
  induction xs generalizing s with
  | nil => exact absurd rfl hx
  | cons x xs ih =>
    have hk := acquire_keeps s c sc
    rw [List.foldl_cons]
    cases xs with
    | nil => exact ⟨hk, fun hw => acquire_clean hw s c⟩
    | cons y ys =>
      obtain ⟨h1, h2⟩ := ih (s.acquire c sc) (by simp)
      exact ⟨hk.trans h1, h2⟩

/-- Settles O24: the acquires of the executing threads, all of one core. -/
theorem acquireDropsClean : Obligations.AcquireDropsClean := by
  unfold Obligations.AcquireDropsClean
  intro s f c i hwf hr hc hne
  obtain ⟨v, he, hv, hgo⟩ := lanesThen_fence (fun s ex => ex.foldl (fun s t => s.acquire (s.coreOf t) f.sc) s) hr
  have hcore : ∀ t, v.coreOf t = s.coreOf t := fun t => by rw [hv]; rfl
  rw [foldl_byCore (fun s c _ => acquire_only s c f.sc) _ v (fun t ht => (hcore t).trans (hc t ht))] at he
  obtain ⟨hk, hclean⟩ := acquires_keep v c f.sc ((s.executing i).map (fun t => v.tagOf t.wg)) (by simpa using hne)
  generalize ((s.executing i).map (fun t => v.tagOf t.wg)).foldl (fun s _ => s.acquire c f.sc) v = z at he hk hclean
  obtain ⟨hrest, hnarrow, hinj, hdirty, hdies⟩ := hk
  have hl1 : (v.core c).l1 = (s.core c).l1 := by rw [hv]; rfl
  have hd : v.dies = s.dies := by rw [hv]
  refine ⟨z, congrArg Host.Outcome.next he, fun t => ?_, ?_, fun hw => ?_, hclean, hl1 ▸ hinj, hl1 ▸ hdirty, fun hs => (hdies hs).trans hd⟩
  · rw [hrest]
    exact hgo t
  · rw [hrest, hv]
  · rw [hnarrow hw, hv]
    exact ⟨rfl, rfl⟩

end Sys2Proof.Machine
end

section
/-! Queue commands (R81, R236 to R238, R242 to R244). -/
namespace Sys2Proof.Machine

-- Reads that succeed

/-- A computation in two stages that succeeds: both do. -/
theorem Ev.and_inv {α β : Type} {x : Ev α} {f : α → Ev β} {s u : State} {b : β} (h : (x.and f) s = (u, .ok b)) :
    ∃ v a, x s = (v, .ok a) ∧ f a v = (u, .ok b) := by
  unfold Ev.and at h
  generalize x s = r at h ⊢
  obtain ⟨v, e | a⟩ := r
  · exact absurd (congrArg Prod.snd h) (by simp)
  · exact ⟨v, a, rfl, h⟩

theorem Ev.need_inv {c : Bool} {a : Nat} {s u : State} {x : Unit} (h : Ev.need c a s = (u, .ok x)) : c = true ∧ u = s := by
  unfold Ev.need at h
  split at h
  · rename_i hc; exact ⟨hc, (congrArg Prod.fst h).symm⟩
  · exact absurd (congrArg Prod.snd h) (by simp [Ev.fail])

/-- A run of reads gives as many bytes as it is asked for. -/
theorem rdRun_length {r : Rd} (hr : ∀ {va n s u b}, r va n s = (u, .ok b) → b.length = n) (fuel va n : Nat) {s u : State} {b : List Byte}
    (hf : n = 0 ∨ n + va % 16 ≤ 16 * fuel) (h : rdRun r fuel va n s = (u, .ok b)) : b.length = n := by
  induction fuel generalizing va n s u b with
  | zero =>
    obtain rfl := Except.ok.inj (congrArg Prod.snd h)
    exact (hf.elim id (fun h => Nat.eq_zero_of_le_zero (Nat.le_trans (Nat.le_add_right ..) h))).symm
  | succ fuel ih =>
    unfold rdRun at h
    split at h
    · rename_i h0
      obtain rfl := Except.ok.inj (congrArg Prod.snd h)
      exact h0.symm
    · obtain ⟨v, x, hx, h⟩ := Ev.and_inv h
      obtain ⟨w, y, hy, h⟩ := Ev.and_inv h
      obtain rfl := Except.ok.inj (congrArg Prod.snd h)
      have hrest : n - min n (16 - va % 16) = 0 ∨ n - min n (16 - va % 16) + (va + min n (16 - va % 16)) % 16 ≤ 16 * fuel := by
        rcases Nat.le_total n (16 - va % 16) with hle | hle
        · exact .inl (by rw [Nat.min_eq_left hle, Nat.sub_self])
        · have h0 : (va + (16 - va % 16)) % 16 = 0 := by
            rw [← Nat.mod_add_mod, Nat.add_sub_cancel' (Nat.le_of_lt (Nat.mod_lt va (by decide))), Nat.mod_self]
          rw [Nat.min_eq_right hle, h0]
          generalize va % 16 = r at hf
          omega
      rw [List.length_append, hr hx, ih _ _ hrest hy, Nat.add_sub_cancel' (Nat.min_le_left ..)]

theorem hubRead_length {ctx va n : Nat} {s u : State} {b : List Byte} (h : hubRead ctx va n s = (u, .ok b)) : b.length = n := by
  unfold hubRead readAt at h
  split at h
  · exact absurd (congrArg Prod.snd h) (by simp)
  · split at h
    · exact absurd (congrArg Prod.snd h) (by simp)
    · obtain rfl := Except.ok.inj (congrArg Prod.snd h)
      simp [Mem.rdN]

theorem rdBytes_hub_length {ctx va n : Nat} {s u : State} {b : List Byte} (h : rdBytes (hubRead ctx) va n s = (u, .ok b)) : b.length = n :=
  rdRun_length hubRead_length _ va n (by omega) h

theorem leNat_lt (bs : List Byte) : leNat bs < 256 ^ bs.length := by
  induction bs with
  | nil => decide
  | cons b bs ih =>
    have := b.isLt
    rw [leNat, List.length_cons, Nat.pow_succ]
    omega

/-- A field of eight bytes as a word. -/
theorem toNat_fld8 (b : List Byte) (off : Nat) : (BitVec.ofNat 64 (fld b off 8)).toNat = fld b off 8 := by
  rw [BitVec.toNat_ofNat, Nat.mod_eq_of_lt]
  refine Nat.lt_of_lt_of_le (leNat_lt _) ?_
  calc 256 ^ ((b.drop off).take 8).length ≤ 256 ^ 8 := Nat.pow_le_pow_right (by omega) (List.length_take_le ..)
    _ = 2 ^ 64 := by norm_num

theorem Ev.Keeps.engRead (d ctx va n : Nat) : (Machine.engRead d ctx va n).Keeps := .readAt d ctx _ (fun s pa n a => l2Read_only s d pa n a) va n

theorem Ev.Keeps.readGraph (ctx a : Nat) : (Machine.readGraph ctx a).Keeps :=
  .and (.rdBytes (.hubRead ctx) a 64) (fun _ => .and (.need _ _) (fun _ =>
    .and (.list (fun _ => .and (.rdBytes (.hubRead ctx) _ 64) (fun _ => .and (.need _ _) (fun _ => .ret _))) _) (fun ns =>
      .and (.list (fun _ => .readLaunch ctx _) ns) (fun _ => .ret _))))

theorem Ev.Keeps.hubWrite (ctx va : Nat) (bs : List Byte) : (Machine.hubWrite ctx va bs).Keeps := .foldl (fun _ _ s => hubStore_only s ctx _ _) _ _

/-- A launch record that is read: it has no fate of its own, nor has its completion word (R242). -/
theorem readLaunch_ok {ctx a : Nat} {s u : State} {lb : List Byte} (h : readLaunch ctx a s = (u, .ok lb)) :
    launchOk lb = true ∧ u.cwBad 0 ctx none false (launchOf lb).cw (launchOf lb).cwsc = false := by
  obtain ⟨v, b, -, h⟩ := Ev.and_inv h
  obtain ⟨v, _, hn, h⟩ := Ev.and_inv h
  obtain ⟨w, _, -, h⟩ := Ev.and_inv h
  obtain ⟨hb, -⟩ := Ev.need_inv hn
  split at h
  · exact absurd (congrArg Prod.snd h) (by simp)
  · rename_i hc
    obtain ⟨rfl, hl⟩ := Prod.mk.inj h
    obtain rfl := Except.ok.inj hl
    exact ⟨hb, by simpa using hc⟩

-- The next command (R236)

section
variable {s u : State} {q : Nat} {k : Queue} {b : List Byte}

theorem MemoryOnly.queue (h : MemoryOnly s u) (p : Nat) : u.queue p = s.queue p := by
  unfold State.queue
  rw [h.queues]

theorem CommandDue.only (h : CommandDue s q k u b) : MemoryOnly s u := by
  obtain ⟨-, -, -, hr, -⟩ := h
  have := Ev.Keeps.rdBytes (Ev.Keeps.hubRead k.ctx) (k.ring.toNat + 64 * (k.head.toNat % 2 ^ k.lsize)) 64 s
  rwa [hr] at this

theorem CommandDue.queue (h : CommandDue s q k u b) : u.queue q = some k := (h.only.queue q).trans h.1

/-- The next command, once its 64 bytes are read. -/
theorem CommandDue.nextCmd (h : CommandDue s q k u b) : s.nextCmd q = (u, some (k, b)) := by
  obtain ⟨hq, hm, hlt, hr, hovl, -⟩ := h
  unfold State.nextCmd
  rw [hq]
  dsimp only
  rw [if_neg (by simp [hm]; omega), hr]
  refine if_pos ?_
  rcases hovl with ho | hn
  · simp [qcmdOf, ho]
  · simpa [qcmdOf] using .inr hn

/-- A command of the wanted kind is acted on. -/
theorem CommandDue.withCmd (h : CommandDue s q k u b) {want : Nat → Bool} (hw : want (fld b 0 1) = true) (f : State → Queue → List Byte → State) :
    s.withCmd q want f = f u k b := by
  have hl : b.length = 64 := rdBytes_hub_length h.2.2.2.1
  have hok : qcmdOk b = true := h.2.2.2.2.2
  unfold State.withCmd
  rw [h.nextCmd]
  simp [hw, hok, hl]

theorem physStore_only (s : State) (pa : Nat) (bs : List Byte) : MemoryOnly s (s.physStore pa bs) := by
  unfold State.physStore
  split
  · exact physWrite_only ..
  · exact .refl s

/-- HEAD moves past a command that has been entered among the running ones, or past one that is complete (R235). -/
theorem advanceHead_moves {v : State} {run : List RunCmd} (hw : u.mem.wf = true) (hv : v = { u with queues := v.queues })
    (hq : v.queue q = some { k with running := k.running ++ run }) (ho : ∀ p, p ≠ q → v.queue p = u.queue p) :
    HeadMoves u (v.advanceHead q) q k run := by
  have hz : v.advanceHead q = (v.updQueue q (fun x => { x with head := x.head + 1 })).physStore (k.desc.toNat + 32) (leBytes 8 (k.head + 1).toNat) := by
    unfold State.advanceHead
    rw [hq]
  have hmem : (v.updQueue q (fun x => { x with head := x.head + 1 })).mem = u.mem := by rw [hv]; rfl
  have hrest : v.updQueue q (fun x => { x with head := x.head + 1 }) = { u with queues := (v.updQueue q (fun x => { x with head := x.head + 1 })).queues } := by
    rw [hv]; rfl
  have hself : (v.updQueue q (fun x => { x with head := x.head + 1 })).queue q = some { k with head := k.head + 1, running := k.running ++ run } := by
    rw [queue_updQueue, if_pos rfl, hq]
    rfl
  have hother : ∀ p, p ≠ q → (v.updQueue q (fun x => { x with head := x.head + 1 })).queue p = u.queue p := fun p hp => by
    rw [queue_updQueue, if_neg (Ne.symm hp), ho p hp]
  rw [hz]
  generalize v.updQueue q (fun x => { x with head := x.head + 1 }) = w at hmem hrest hself hother
  have hm := physStore_only w (k.desc.toNat + 32) (leBytes 8 (k.head + 1).toNat)
  refine ⟨⟨{ w.physStore (k.desc.toNat + 32) (leBytes 8 (k.head + 1).toNat) with queues := u.queues }, ⟨?_, fun _ => hm.2 (hmem ▸ hw)⟩, rfl⟩,
    (hm.queue q).trans hself, fun p hp => (hm.queue p).trans (hother p hp), fun hmap a => ?_⟩
  · rw [hm.1, hrest]
  · rw [(physStore_stored (hmem ▸ hw) hmap _).2 a, hmem]

/-- A command that goes on running. -/
theorem runCmd_moves (hw : u.mem.wf = true) (hq : u.queue q = some k) (b : List Byte) (obj core : Option Nat) (late : Bool) :
    HeadMoves u (u.runCmd q b obj core late) q k [⟨k.head.toNat, b, obj, core, none, false, late⟩] := by
  unfold State.runCmd
  rw [hq]
  refine advanceHead_moves hw rfl ?_ (fun p hp => ?_)
  · rw [queue_updQueue, if_pos rfl, hq]
    rfl
  · rw [queue_updQueue, if_neg (Ne.symm hp)]

-- Each kind of command

theorem queueNop_starts (hw : s.mem.wf = true) (h : CommandDue s q k u b) (ho : fld b 0 1 = 0) :
    ∃ z, exec (.queueNop q) s = .next z ∧ HeadMoves u z q k [] := by
  refine ⟨u.advanceHead q, congrArg Host.Outcome.next (h.withCmd (by simp [ho]) _), ?_⟩
  exact advanceHead_moves (h.only.2 hw) rfl (by rw [h.queue, List.append_nil]) (fun _ _ => rfl)

theorem queueWait_starts (hw : s.mem.wf = true) (h : CommandDue s q k u b) (ho : fld b 0 1 = 3) :
    ∃ z, exec (.queueWait q) s = .next z ∧ HeadMoves u z q k [⟨k.head.toNat, b, none, none, none, false, false⟩] :=
  ⟨_, congrArg Host.Outcome.next (h.withCmd (by simp [ho]) _), runCmd_moves (h.only.2 hw) h.queue ..⟩

theorem launchEv_of_readLaunch {slot cmd ctx a : Nat} {dies : BitVec 4} {node : Option (Nat × Nat)} {acq : Option Nat} {lb : List Byte}
    (h : readLaunch ctx a s = (u, .ok lb)) :
    launchEv q slot cmd ctx a dies node acq s = (u, .ok
      { queue := q, slot := slot, cmd := cmd, lrec := BitVec.ofNat 64 a, lr := launchOf lb, dies := dies, node := node, ctx := ctx, nextCl := 0
        live := 0, gfx := if (launchOf lb).mode = 2 then some noGfx else none, acqScope := acq, fin := .running, fault := false
        late := u.cwLate 0 ctx false (launchOf lb).cw (launchOf lb).cwsc }) := by
  unfold launchEv Ev.and
  rw [h]

/-- The dispatch that a launch command starts (R242). -/
theorem queueLaunch_starts (hw : s.mem.wf = true) (h : CommandDue s q k u b) (ho : fld b 0 1 = 1) {w : State} {lb : List Byte}
    (hl : readLaunch k.ctx (fld b 8 8) u = (w, .ok lb)) {d : Dispatch}
    (hd : launchEv q (k.slot.getD 0) k.head.toNat k.ctx (fld b 8 8) (qcmdOf b).dies none k.lastScope u = (w, .ok d)) :
    MemoryOnly s w ∧ launchOk lb = true ∧ w.cwBad 0 k.ctx none false (launchOf lb).cw (launchOf lb).cwsc = false
      ∧ ∃ z, exec (.queueLaunch q) s = .next z
          ∧ HeadMoves (w.addDisp d).1 z q k [⟨k.head.toNat, b, some w.fresh, none, none, false, false⟩] := by
  have hm : MemoryOnly s w := by
    have := Ev.Keeps.readLaunch k.ctx (fld b 8 8) u
    rw [hl] at this
    exact h.only.trans this
  obtain ⟨hok, hcw⟩ := readLaunch_ok hl
  refine ⟨hm, hok, hcw, (w.addDisp d).1.runCmd q b (some w.fresh) none, congrArg Host.Outcome.next ?_, ?_⟩
  · refine (h.withCmd (by simp [ho]) _).trans ?_
    have hd' : launchEv q (k.slot.getD 0) k.head.toNat k.ctx (qcmdOf b).addr (qcmdOf b).dies none k.lastScope u = (w, .ok d) := hd
    simp only [hd']
    rfl
  · exact runCmd_moves (u := (w.addDisp d).1) (hm.2 hw) ((hm.queue q).trans h.1) ..

/-- The instance that a graph launch starts, once its snapshot is written (R243, R244). -/
theorem queueGraph_starts (hw : s.mem.wf = true) (h : CommandDue s q k u b) (ho : fld b 0 1 = 2) {v w : State} {hd : List Byte} {ns ls : List (List Byte)}
    (hr : readGraph k.ctx (fld b 8 8) u = (v, .ok (hd, ns, ls)))
    (hs : (fld hd 2 1).testBit 0 = true → ∀ e ∈ s.graphs, e.2.graph.toNat ≠ fld b 8 8 ∨ e.2.ctx ≠ k.ctx)
    (hc : v.cwBad 0 k.ctx none false (BitVec.ofNat 64 (fld hd 16 8)) (fld hd 3 1) = false)
    (hwr : hubWrite k.ctx (fld b 24 8) (hd ++ ns.flatten ++ ls.flatten) v = (w, .ok ())) {g : GraphInst}
    (hg : g = { queue := q, slot := k.slot.getD 0, cmd := k.head.toNat, ctx := k.ctx, graph := BitVec.ofNat 64 (fld b 8 8)
                buf := BitVec.ofNat 64 (fld b 24 8), serial := (fld hd 2 1).testBit 0, gsc := fld hd 3 1
                gcw := BitVec.ofNat 64 (fld hd 16 8), gseq := BitVec.ofNat 64 (fld hd 24 8), dies := (qcmdOf b).dies
                nodes := (ns.zip ls).map (fun p => (nodeDeps p.1, fld p.2 71 1, none)), failed := false, fault := false
                late := v.cwLate 0 k.ctx false (BitVec.ofNat 64 (fld hd 16 8)) (fld hd 3 1) }) :
    MemoryOnly s w ∧ ∃ z, exec (.queueGraphLaunch q) s = .next z
      ∧ HeadMoves { w with graphs := w.graphs ++ [(w.fresh, g)], fresh := w.fresh + 1 } z q k
          [⟨k.head.toNat, b, some w.fresh, none, none, false, false⟩] := by
  have hm : MemoryOnly s w := by
    have h1 := Ev.Keeps.readGraph k.ctx (fld b 8 8) u
    have h2 := Ev.Keeps.hubWrite k.ctx (fld b 24 8) (hd ++ ns.flatten ++ ls.flatten) v
    rw [hr] at h1
    rw [hwr] at h2
    exact (h.only.trans h1).trans h2
  have hser : ((fld hd 2 1).testBit 0 && u.graphs.any (fun e => e.2.graph.toNat == fld b 8 8 && e.2.ctx == k.ctx)) = false := by
    cases hb : (fld hd 2 1).testBit 0 with
    | false => rfl
    | true =>
      rw [Bool.true_and, List.any_eq_false, h.only.graphs]
      intro e he
      have := hs hb e he
      simp only [Bool.and_eq_true, beq_iff_eq, not_and]
      exact fun e1 e2 => this.elim (fun n => n e1) (fun n => n e2)
  refine ⟨hm, ({ w with graphs := w.graphs ++ [(w.fresh, g)], fresh := w.fresh + 1 } : State).runCmd q b (some w.fresh) none, congrArg Host.Outcome.next ?_, ?_⟩
  · refine (h.withCmd (by simp [ho]) _).trans ?_
    have hr' : readGraph k.ctx (qcmdOf b).addr u = (v, .ok (hd, ns, ls)) := hr
    have hw' : writeInstance k.ctx (qcmdOf b).inst hd ns ls v = (w, .ok ()) := hwr
    simp only [hr']
    rw [if_neg (by rw [show (qcmdOf b).addr = fld b 8 8 from rfl, hser]; simp), if_neg (by rw [gcwOf, hc]; simp)]
    simp only [hw']
    rw [hg]
    rfl
  · exact runCmd_moves (u := { w with graphs := w.graphs ++ [(w.fresh, g)], fresh := w.fresh + 1 }) (hm.2 hw) ((hm.queue q).trans h.1) ..

theorem mayStart_bound (h : CommandDue s q k u b) : ∃ n, s.boundSlot q = some n := by
  obtain ⟨hq, hm, -⟩ := h
  unfold State.mayStart at hm
  simp only [Bool.and_eq_true] at hm
  obtain ⟨⟨⟨⟨⟨hs, -⟩, -⟩, -⟩, -⟩, -⟩ := hm
  unfold State.boundSlot
  rw [hq, Option.bind_some]
  cases hn : k.slot with
  | none => rw [hn] at hs; exact absurd hs (by simp)
  | some n =>
    rw [hn] at hs
    exact ⟨n, if_neg (by simpa using hs)⟩

/-- A signal starts, stores its value and is complete (R238). -/
theorem queueSignal_starts (hw : s.mem.wf = true) (h : CommandDue s q k u b) (ho : fld b 0 1 = 4)
    (hrun : ∀ r ∈ k.running, fld r.bytes 0 1 = 4 → r.fault = true) {late : Bool} {v y : State}
    (hlate : late = u.cwLate 0 k.ctx false (BitVec.ofNat 64 (fld b 8 8)) (fld b 3 1)) (hv : v = u.runCmd q b none none late)
    (hc : u.cwBad 0 k.ctx none false (BitVec.ofNat 64 (fld b 8 8)) (fld b 3 1) = false)
    (hst : v.hubDoneStore k.ctx (BitVec.ofNat 64 (fld b 8 8)) (BitVec.ofNat 64 (fld b 16 8)) (fld b 3 1) late = (y, .ok ())) :
    ∃ z, exec (.queueSignal q) s = .next z ∧ HeadMoves u v q k [⟨k.head.toNat, b, none, none, none, false, late⟩]
      ∧ Signals v y 0 k.ctx none false (BitVec.ofNat 64 (fld b 8 8)) (BitVec.ofNat 64 (fld b 16 8)) (fld b 3 1)
      ∧ z = { y with queues := z.queues } ∧ CommandGone y z q k.head.toNat (some (fld b 3 1)) := by
  have hmoves : HeadMoves u v q k [⟨k.head.toNat, b, none, none, none, false, late⟩] := hv ▸ runCmd_moves (h.only.2 hw) h.queue ..
  have hvw : v.mem.wf = true := by
    obtain ⟨⟨x, hx, hvx⟩, -⟩ := hmoves
    rw [hvx]
    exact hx.2 (h.only.2 hw)
  obtain ⟨n, hn⟩ := mayStart_bound h
  have hfind : k.running.find? (fun r => fld r.bytes 0 1 == 4 && !r.fault) = none := by
    rw [List.find?_eq_none]
    intro r hr
    simpa using hrun r hr
  have hz : s.queueSignal q = v.signalStore q k ⟨k.head.toNat, b, none, none, none, false, late⟩ := by
    unfold State.queueSignal
    simp only [h.1, hn, hfind]
    refine (h.withCmd (by simp [ho]) _).trans ?_
    rw [if_neg (by rw [show (qcmdOf b).addr = fld b 8 8 from rfl, show (qcmdOf b).qsc = fld b 3 1 from rfl, hc]; simp), hv, hlate]
    rfl
  have hstore : v.signalStore q k ⟨k.head.toNat, b, none, none, none, false, late⟩ = y.cmdEnd q k.head.toNat (some (fld b 3 1)) := by
    unfold State.signalStore
    have hst' : v.hubDoneStore k.ctx (BitVec.ofNat 64 (qcmdOf b).addr) (qcmdOf b).value (qcmdOf b).qsc late = (y, .ok ()) := hst
    simp only [hst']
    rfl
  exact ⟨_, congrArg Host.Outcome.next (hz.trans hstore), hmoves, hubDoneStore_signals hvw hst, rfl, cmdEnd_gone rfl ..⟩

/-- A copy goes to the engine of a core of the command's dies (R238). -/
theorem queueCopy_starts (hw : s.mem.wf = true) (h : CommandDue s q k u b) (ho : fld b 0 1 = 5) (hne : u.copyCores q (qcmdOf b).dies ≠ [])
    (hrd : ∀ c ∈ u.copyCores q (qcmdOf b).dies, ∃ v cmd, rdBytes (engRead (c / 32) k.ctx) (fld b 8 8) 64 u.bump = (v, .ok cmd)) :
    ∃ c ∈ u.copyCores q (qcmdOf b).dies, (qcmdOf b).dies.getLsbD (c / 32) = true ∧ ∃ v cmd,
      rdBytes (engRead (c / 32) k.ctx) (fld b 8 8) 64 u.bump = (v, .ok cmd) ∧ MemoryOnly s v ∧ ∃ z, exec (.queueCopy q) s = .next z
        ∧ HeadMoves (v.updCore c (fun x => { x with qcopy := mput x.qcopy q (copyRunOf cmd (BitVec.ofNat 64 (fld b 8 8))) })) z q k
            [⟨k.head.toNat, b, none, some c, none, false, false⟩] := by
  have hlen : Config.pick u.fresh % (u.copyCores q (qcmdOf b).dies).length < (u.copyCores q (qcmdOf b).dies).length :=
    Nat.mod_lt _ (List.length_pos_iff.mpr hne)
  obtain ⟨c, hc⟩ : ∃ c, (u.copyCores q (qcmdOf b).dies)[Config.pick u.fresh % (u.copyCores q (qcmdOf b).dies).length]? = some c :=
    ⟨_, List.getElem?_eq_getElem hlen⟩
  have hmem := List.mem_of_getElem? hc
  obtain ⟨v, cmd, hv⟩ := hrd c hmem
  have hm : MemoryOnly s v := by
    have := Ev.Keeps.rdBytes (Ev.Keeps.engRead (c / 32) k.ctx) (fld b 8 8) 64 u.bump
    rw [hv] at this
    exact (h.only.trans (.bump u)).trans this
  have hdie : (qcmdOf b).dies.getLsbD (c / 32) = true := by
    have := List.of_mem_filter hmem
    simp only [Bool.and_eq_true] at this
    exact this.1
  refine ⟨c, hmem, hdie, v, cmd, hv, hm, _, congrArg Host.Outcome.next ?_,
    runCmd_moves (u := v.updCore c _) (hm.2 hw) ((hm.queue q).trans h.1) b none (some c) false⟩
  refine (h.withCmd (by simp [ho]) _).trans ?_
  have hv' : rdBytes (engRead (c / 32) k.ctx) (qcmdOf b).addr 64 u.bump = (v, .ok cmd) := hv
  simp only [hc, hv']
  rfl

/-- A wait that runs reads its word, and is complete when it gives the value or more (R238). -/
theorem queueWake_reads (hq : s.queue q = some k) {n : Nat} (hn : k.slot = some n) (hp : (s.slot n).preempt = false) {r : RunCmd}
    (hr : k.running.filter (fun r => fld r.bytes 0 1 == 3 && !r.fault) = [r]) {v : State} {w : List Byte}
    (hrd : rdBytes (hubRead k.ctx) (fld r.bytes 8 8) 8 s = (v, .ok w)) :
    exec (.queueWaitWake q) s = .next (if fld r.bytes 16 8 ≤ leNat w then v.cmdEnd q r.idx (some (fld r.bytes 3 1)) else v) := by
  have hb : s.boundSlot q = some n := by
    unfold State.boundSlot
    rw [hq, Option.bind_some, hn]
    exact if_neg (by simp [hp])
  have hrd' : rdBytes (hubRead k.ctx) (qcmdOf r.bytes).addr 8 s = (v, .ok w) := hrd
  have hval : (qcmdOf r.bytes).value.toNat = fld r.bytes 16 8 := toNat_fld8 ..
  refine congrArg Host.Outcome.next ?_
  unfold State.queueWake
  simp only [hq, hb, hr, List.foldl_cons, List.foldl_nil, State.waitRead, hrd', hval]
  rfl

end

/-- Settles O43: each kind of command by its own lemma; HEAD moves by `advanceHead_moves`. -/
theorem queueCommandsStart : Obligations.QueueCommandsStart := by
  unfold Obligations.QueueCommandsStart
  intro s q k u b hcan addr head dies starts
  have hw : s.mem.wf = true := hcan.1
  refine ⟨fun h => ⟨h.only, queueNop_starts hw h, queueWait_starts hw h, ?_, ?_, ?_, ?_⟩, ?_⟩
  · intro w lb ho hl
    exact queueLaunch_starts hw h ho hl (launchEv_of_readLaunch hl)
  · intro v hd ns ls w ho hr hs hc hwr
    exact queueGraph_starts hw h ho hr hs hc hwr rfl
  · intro v y ho hrun cw late hv hc hst
    exact queueSignal_starts hw h ho hrun rfl hv hc hst
  · intro cs ho hne hrd
    exact queueCopy_starts hw h ho hne hrd
  · intro n r v w hq hn hp hr hrd
    have hm : MemoryOnly s v := by
      have := Ev.Keeps.rdBytes (Ev.Keeps.hubRead k.ctx) (fld r.bytes 8 8) 8 s
      rwa [hrd] at this
    have hx := queueWake_reads hq hn hp hr hrd
    refine ⟨hm, fun hlt => ?_, fun hle => ?_⟩
    · rwa [if_neg (by omega)] at hx
    · rw [if_pos hle] at hx
      exact ⟨_, hx, rfl, cmdEnd_gone rfl ..⟩

end Sys2Proof.Machine
end

section
/-! Where a byte stands as a die sees it: dirty in its L2, or in memory. What each operation of the memory system does to one byte, and to the lines
of an L1 that hold dirty bytes (R68, R69, R85, R87, R105). -/
namespace Sys2Proof.Machine

-- Bytes of a line

/-- A run of places within one line of m. -/
theorem run_div {m p k : Nat} (h : p % m + k < m) : (p + k) / m = p / m ∧ (p + k) % m = p % m + k := by
  have he : p + k = m * (p / m) + (p % m + k) := by rw [← Nat.add_assoc, Nat.div_add_mod]
  rw [he, Nat.mul_add_div (Nat.zero_lt_of_lt h), Nat.div_eq_of_lt h, Nat.mul_add_mod, Nat.mod_eq_of_lt h]
  exact ⟨rfl, rfl⟩

theorem line_of_run {m p n x : Nat} (h : p % m + n ≤ m) (hx : p ≤ x ∧ x < p + n) : x / m = p / m ∧ x % m = p % m + (x - p) := by
  obtain ⟨k, rfl⟩ := Nat.exists_eq_add_of_le hx.1
  rw [Nat.add_sub_cancel_left]
  exact run_div (Nat.lt_of_lt_of_le (Nat.add_lt_add_left (Nat.lt_of_add_lt_add_left hx.2) _) h)

/-- Two places of one line are as far apart as their places in it. -/
theorem run_iff {m p x : Nat} (h : x / m = p / m) (n : Nat) : ((p % m ≤ x % m ∧ x % m < p % m + n) ↔ (p ≤ x ∧ x < p + n)) ∧ x % m - p % m = x - p := by
  have hp := Nat.div_add_mod p m
  have hx := Nat.div_add_mod x m
  rw [h] at hx
  constructor
  · conv_rhs => rw [← hp, ← hx, Nat.add_le_add_iff_left, Nat.add_assoc, Nat.add_lt_add_iff_left]
  · conv_rhs => rw [← hp, ← hx, Nat.add_sub_add_left]

theorem line_div (n : Nat) {k : Nat} (h : k < 128) : (128 * n + k) / 128 = n := by
  rw [Nat.mul_add_div (by decide), Nat.div_eq_of_lt h, Nat.add_zero]

theorem line_mod (n : Nat) {k : Nat} (h : k < 128) : (128 * n + k) % 128 = k := by
  rw [Nat.mul_add_mod, Nat.mod_eq_of_lt h]

theorem mod_line (x : Nat) : x % 128 < 128 := Nat.mod_lt x (by decide)

/-- An address is its line and its place in it. -/
theorem line_eq {x n : Nat} (h : x / 128 = n) : 128 * n + x % 128 = x := h ▸ Nat.div_add_mod x 128

theorem getLsbD_and_lt {w : Nat} (x : BitVec w) (i : Nat) : (x.getLsbD i && decide (i < w)) = x.getLsbD i := by
  by_cases h : i < w
  · simp [h]
  · rw [BitVec.getLsbD_of_ge x i (by omega), Bool.false_and]

theorem lineGet_lineSet (x : BitVec 1024) {i : Nat} (hi : i < 128) (b : Byte) (j : Nat) :
    lineGet (lineSet x i b) j = if j = i then b else lineGet x j := by
  have hff : ∀ k, (0xFF : BitVec 1024).getLsbD k = decide (k < 8) := fun k => by
    rw [show (0xFF : BitVec 1024) = BitVec.ofNat 1024 (2 ^ 8 - 1) from rfl, BitVec.getLsbD_ofNat, Nat.testBit_two_pow_sub_one]
    by_cases hk : k < 8
    · simp [hk, show k < 1024 by omega]
    · simp [hk]
  apply BitVec.eq_of_getLsbD_eq
  intro k hk
  simp only [lineGet, lineSet, BitVec.getLsbD_extractLsb', BitVec.getLsbD_or, BitVec.getLsbD_and, BitVec.getLsbD_not, BitVec.getLsbD_shiftLeft, hff,
    BitVec.getLsbD_setWidth]
  by_cases h : j = i
  · subst h
    have h1 : 8 * j + k < 1024 := by omega
    have h2 : k < 1024 := by omega
    simp [hk, h1, h2]
  · rw [if_neg h, BitVec.getLsbD_extractLsb']
    by_cases hlt : j < i
    · have h1 : 8 * j + k < 8 * i := by omega
      simp [h1, getLsbD_and_lt]
    · have h1 : 8 * i + 8 ≤ 8 * j + k := by omega
      have h2 : ¬ (8 * j + k - 8 * i < 8) := by omega
      have h3 : b.getLsbD (8 * j + k - 8 * i) = false := BitVec.getLsbD_of_ge _ _ (by omega)
      simp [h2, h3, getLsbD_and_lt]

/-- Bytes put one after another into a line. -/
theorem lineGet_lineSets (x : BitVec 1024) (off n : Nat) (b : Nat → Byte) (h : off + n ≤ 128) (j : Nat) :
    lineGet ((List.range n).foldl (fun x i => lineSet x (off + i) (b i)) x) j = if off ≤ j ∧ j < off + n then b (j - off) else lineGet x j := by
  induction n with
  | zero => rw [if_neg (by omega)]; rfl
  | succ n ih =>
    rw [List.range_succ, List.foldl_append, List.foldl_cons, List.foldl_nil, lineGet_lineSet _ (by omega), ih (by omega)]
    by_cases hj : j = off + n
    · subst hj
      rw [if_pos rfl, if_pos (by omega), Nat.add_sub_cancel_left]
    · rw [if_neg hj]
      by_cases h' : off ≤ j ∧ j < off + n
      · rw [if_pos h', if_pos (by omega)]
      · rw [if_neg h', if_neg (by omega)]

theorem getLsbD_or_one {w : Nat} (m : BitVec w) {i : Nat} (hi : i < w) (j : Nat) : (m ||| (1 <<< i)).getLsbD j = (decide (j = i) || m.getLsbD j) := by
  rw [BitVec.getLsbD_or, show ((1 <<< i : Nat) : BitVec w) = BitVec.ofNat w (1 <<< i) from rfl, BitVec.getLsbD_ofNat, Nat.shiftLeft_eq, Nat.one_mul,
    Nat.testBit_two_pow, Bool.or_comm]
  congr 1
  by_cases h : j = i
  · simp [h, hi]
  · simp [h, Ne.symm h]

/-- Bits of a run of bytes set one after another. -/
theorem getLsbD_ors (m : BitVec 128) (off n : Nat) (h : off + n ≤ 128) (j : Nat) :
    ((List.range n).foldl (fun (m : BitVec 128) i => m ||| (1 <<< (off + i))) m).getLsbD j = (decide (off ≤ j ∧ j < off + n) || m.getLsbD j) := by
  induction n with
  | zero => rw [decide_eq_false (by omega)]; rfl
  | succ n ih =>
    rw [List.range_succ, List.foldl_append, List.foldl_cons, List.foldl_nil, getLsbD_or_one _ (by omega), ih (by omega), ← Bool.or_assoc]
    congr 1
    rw [← Bool.decide_or]
    exact decide_eq_decide.mpr (by omega)

/-- Clean bytes filled in leave the dirty ones alone. -/
theorem lineGet_mergeClean_dirty {dirty : BitVec 128} {j : Nat} (hj : dirty.getLsbD j = true) (src : BitVec 1024) (is : List Nat) (hi : ∀ i ∈ is, i < 128)
    (dst : BitVec 1024) : lineGet (mergeClean dst src dirty is) j = lineGet dst j := by
  unfold mergeClean
  induction is generalizing dst with
  | nil => rfl
  | cons i is ih =>
    rw [List.foldl_cons, ih (fun k hk => hi k (List.mem_cons_of_mem _ hk))]
    split
    · rfl
    · rename_i hd
      rw [lineGet_lineSet _ (hi i (List.mem_cons_self ..)), if_neg (fun h => hd (by rw [← h]; exact hj))]

theorem sectorBytes_lt {k i : Nat} (hk : k < 4) (h : i ∈ sectorBytes k) : i < 128 := by
  obtain ⟨j, hj, rfl⟩ := List.mem_map.mp h
  have := List.mem_range.mp hj
  omega

/-- Bytes put into a line of an L2, dirty or not. -/
def L2Line.put (mark : Bool) (off : Nat) (bs : List Byte) (l : L2Line) : L2Line :=
  (List.range bs.length).foldl (fun (l : L2Line) i =>
    { l with data := lineSet l.data (off + i) (bs.getD i 0), dirty := if mark then l.dirty ||| (1 <<< (off + i)) else l.dirty }) l

theorem L2Line.put_eq (mark : Bool) (off : Nat) (bs : List Byte) (l : L2Line) : l.put mark off bs = { l with
    data := (List.range bs.length).foldl (fun x i => lineSet x (off + i) (bs.getD i 0)) l.data
    dirty := if mark then (List.range bs.length).foldl (fun (m : BitVec 128) i => m ||| (1 <<< (off + i))) l.dirty else l.dirty } := by
  unfold L2Line.put
  induction bs.length with
  | zero => cases mark <;> rfl
  | succ n ih =>
    rw [List.range_succ, List.foldl_append, ih]
    cases mark <;> simp [List.foldl_append]

theorem L2Line.put_data (mark : Bool) {off : Nat} {bs : List Byte} (h : off + bs.length ≤ 128) (l : L2Line) (j : Nat) :
    lineGet (l.put mark off bs).data j = if off ≤ j ∧ j < off + bs.length then bs.getD (j - off) 0 else lineGet l.data j := by
  rw [L2Line.put_eq]
  exact lineGet_lineSets l.data off bs.length (fun i => bs.getD i 0) h j

theorem L2Line.put_dirty (mark : Bool) {off : Nat} {bs : List Byte} (h : off + bs.length ≤ 128) (l : L2Line) (j : Nat) :
    (l.put mark off bs).dirty.getLsbD j = (mark && decide (off ≤ j ∧ j < off + bs.length) || l.dirty.getLsbD j) := by
  rw [L2Line.put_eq]
  cases mark with
  | false => rfl
  | true => exact getLsbD_ors l.dirty off bs.length h j

-- Lines and pages

theorem inSystem_line {pa x : Nat} (h : pa / 128 = x / 128) : inSystem pa = inSystem x := by
  unfold inSystem
  congr 1
  · rw [show sysBase = sysBase / 128 * 128 from rfl]
    exact decide_eq_decide.mpr (by rw [← Nat.le_div_iff_mul_le (by decide), h, Nat.le_div_iff_mul_le (by decide)])
  · rw [show sysEnd = sysEnd / 128 * 128 from rfl]
    exact decide_eq_decide.mpr (by rw [← Nat.div_lt_iff_lt_mul (by decide), h, Nat.div_lt_iff_lt_mul (by decide)])

theorem homeDie_line {pa x : Nat} (h : pa / 128 = x / 128) : homeDie pa = homeDie x := by
  have h1 : pa / dieStride = x / dieStride := by
    rw [show dieStride = 128 * (dieStride / 128) from rfl, ← Nat.div_div_eq_div_mul, h, Nat.div_div_eq_div_mul]
  have h2 : (pa % dieStride < dieBytes) = (x % dieStride < dieBytes) := by
    rw [show dieStride = 128 * (dieStride / 128) from rfl, show dieBytes = dieBytes / 128 * 128 from rfl, ← Nat.div_lt_iff_lt_mul (by decide),
      ← Nat.div_lt_iff_lt_mul (by decide), Nat.mod_mul_right_div_self, Nat.mod_mul_right_div_self, h]
  unfold homeDie
  simp only [h1, h2]

theorem heldApart_line {pa x : Nat} (h : pa / 128 = x / 128) (d : Nat) (a : PageAttr) : heldApart d pa a = heldApart d x a := by
  unfold heldApart
  rw [inSystem_line h, homeDie_line h]

-- One byte, as a die sees it

/-- The byte that a set of L2 lines holds dirty at an address. -/
def dirtyIn (l2 : Map Nat L2Line) (x : Nat) : Option Byte :=
  (mget l2 (x / 128)).bind (fun y => if y.dirty.getLsbD (x % 128) then some (lineGet y.data (x % 128)) else none)

def heldByte (s : State) (d x : Nat) : Option Byte := dirtyIn (s.die d).l2 x

/-- The byte below the L1s of a die: what its L2 holds dirty, else what stands in memory. -/
def curByte (s : State) (d x : Nat) : Byte := (heldByte s d x).getD (Mem.rd s.mem x)

/-- What a step does to one byte below the L1s of die d: it becomes v, or, where v is none, stays as it is. `h`: only where the L2 does not hold it dirty
before; `cl`: the step does not make the L2 hold it dirty. Nothing is said of a line once its contents are open (R69). -/
structure ByteStep (d x : Nat) (v : Option Byte) (h cl : Prop) (s z : State) : Prop where
  kind : OneKind z x → OneKind s x
  cur : OneKind z x → (h → heldByte s d x = none) → curByte z d x = v.getD (curByte s d x)
  clean : cl → heldByte s d x = none → heldByte z d x = none

/-- The byte stays as it is. -/
abbrev Steady (d x : Nat) (s z : State) : Prop := ByteStep d x none False True s z

theorem Steady.refl (d x : Nat) (s : State) : Steady d x s s := ⟨id, fun _ _ => rfl, fun _ => id⟩

theorem Steady.next {d x : Nat} {v : Option Byte} {h cl : Prop} {a b z : State} (f : Steady d x a b) (g : ByteStep d x v h cl b z) :
    ByteStep d x v h cl a z where
  kind k := f.kind (g.kind k)
  cur k hh := by rw [g.cur k (fun i => f.clean trivial (hh i)), f.cur (g.kind k) False.elim]; rfl
  clean c n := g.clean c (f.clean trivial n)

theorem Steady.trans {d x : Nat} {a b z : State} (f : Steady d x a b) (g : Steady d x b z) : Steady d x a z := f.next g

theorem ByteStep.steady {d x : Nat} {v : Option Byte} {h cl : Prop} {a b z : State} (f : ByteStep d x v h cl a b) (g : Steady d x b z) :
    ByteStep d x v h cl a z where
  kind k := f.kind (g.kind k)
  cur k hh := by rw [g.cur k False.elim, Option.getD_none, f.cur (g.kind k) hh]
  clean c n := g.clean trivial (f.clean c n)

/-- A fold each of whose steps leaves the byte as it is. -/
theorem Steady.foldl {α : Type} {d x : Nat} {f : State → α → State} (hc : ∀ s i, Canonical s → Canonical (f s i)) (is : List α)
    (hf : ∀ i ∈ is, ∀ s, Canonical s → Steady d x s (f s i)) {s : State} (hs : Canonical s) : Steady d x s (is.foldl f s) := by
  induction is generalizing s with
  | nil => exact .refl ..
  | cons i is ih =>
    exact (hf i (List.mem_cons_self ..) s hs).next (ih (fun j hj => hf j (List.mem_cons_of_mem _ hj)) (hc s i hs))

/-- A fold one of whose steps writes the byte, and no other. -/
theorem ByteStep.foldl {α : Type} {d x : Nat} {v : Option Byte} {h cl : Prop} {f : State → α → State} (hc : ∀ s i, Canonical s → Canonical (f s i))
    {is : List α} (nd : is.Nodup) {j : α} (hj : j ∈ is) (hw : ∀ s, Canonical s → ByteStep d x v h cl s (f s j))
    (hf : ∀ i ∈ is, i ≠ j → ∀ s, Canonical s → Steady d x s (f s i)) {s : State} (hs : Canonical s) : ByteStep d x v h cl s (is.foldl f s) := by
  induction is generalizing s with
  | nil => exact absurd hj List.not_mem_nil
  | cons i is ih =>
    obtain ⟨hn, nd⟩ := List.nodup_cons.mp nd
    rw [List.foldl_cons]
    by_cases hij : i = j
    · subst hij
      refine (hw s hs).steady (Steady.foldl hc is (fun k hk => ?_) (hc s i hs))
      exact hf k (List.mem_cons_of_mem _ hk) (fun e => hn (e ▸ hk))
    · exact (hf i (List.mem_cons_self ..) hij s hs).next
        (ih nd ((List.mem_cons.mp hj).resolve_left (Ne.symm hij)) (fun k hk => hf k (List.mem_cons_of_mem _ hk)) (hc s i hs))

/-- A byte that the die's L2 does not hold dirty stands in memory as before. -/
theorem Steady.mem {d x : Nat} {s z : State} (h : Steady d x s z) (hc : heldByte s d x = none) (hk : OneKind z x) : Mem.rd z.mem x = Mem.rd s.mem x := by
  have := h.cur hk False.elim
  rwa [curByte, curByte, h.clean trivial hc, hc] at this

-- Steps that move no byte

/-- Memory, the L2s and what is known of the lines are the same; copies, masks and directories may differ. -/
structure SameBytes (s z : State) : Prop where
  mem : z.mem = s.mem
  kinds : z.kinds = s.kinds
  l2 : ∀ d, (z.die d).l2 = (s.die d).l2

theorem SameBytes.refl (s : State) : SameBytes s s := ⟨rfl, rfl, fun _ => rfl⟩

theorem SameBytes.trans {a b c : State} (h : SameBytes a b) (g : SameBytes b c) : SameBytes a c :=
  ⟨g.mem.trans h.mem, g.kinds.trans h.kinds, fun d => (g.l2 d).trans (h.l2 d)⟩

theorem SameBytes.foldl {α : Type} (f : State → α → State) (h : ∀ s x, SameBytes s (f s x)) (xs : List α) (s : State) : SameBytes s (xs.foldl f s) := by
  induction xs generalizing s with
  | nil => exact .refl s
  | cons x xs ih => exact (h s x).trans (ih _)

theorem SameBytes.updDie (s : State) (d : Nat) {f : Die → Die} (hf : ∀ x, (f x).l2 = x.l2 := by exact fun _ => rfl) :
    SameBytes s (s.updDie d f) := by
  refine ⟨rfl, rfl, fun e => ?_⟩
  rw [die_updDie]
  split
  · exact hf _
  · rfl

theorem SameBytes.inj (s : State) (l : List InjMsg) : SameBytes s { s with injMsgs := l } := ⟨rfl, rfl, fun _ => rfl⟩
theorem SameBytes.inv (s : State) (l : List (Nat × Nat)) : SameBytes s { s with invMsgs := l } := ⟨rfl, rfl, fun _ => rfl⟩
theorem SameBytes.bump (s : State) : SameBytes s s.bump := ⟨rfl, rfl, fun _ => rfl⟩
theorem SameBytes.updCore (s : State) (c : Nat) (f : Core → Core) : SameBytes s (s.updCore c f) := ⟨rfl, rfl, fun _ => rfl⟩

theorem SameBytes.steady {s z : State} (h : SameBytes s z) (d x : Nat) : Steady d x s z := by
  have hh : heldByte z d x = heldByte s d x := by rw [heldByte, h.l2]; rfl
  refine ⟨fun k => ?_, fun _ _ => ?_, fun _ n => hh.trans n⟩
  · rwa [OneKind, h.kinds] at k
  · rw [curByte, curByte, hh, h.mem]; rfl

theorem dropCopy_sameBytes (s : State) (c line : Nat) : SameBytes s (s.dropCopy c line) := by
  unfold State.dropCopy
  split
  · exact ⟨rfl, rfl, fun _ => rfl⟩
  · exact .refl _

theorem deliverInv_sameBytes (s : State) (d line : Nat) : SameBytes s (s.deliverInv d line) := by
  obtain ⟨h1, h2, h3⟩ := SameBytes.foldl (fun s (m : Nat × Nat) => s.dropCopy m.1 m.2) (fun s m => dropCopy_sameBytes s _ _)
    (s.invMsgs.filter (fun m => m.1 / 32 == d && m.2 == line)) s
  exact ⟨h1, h2, h3⟩

theorem invalCopies_sameBytes (s : State) (d line : Nat) (keep : BitVec 32) : SameBytes s (s.invalCopies d line keep) := by
  unfold State.invalCopies
  dsimp only
  refine (deliverInv_sameBytes s d line).trans ?_
  split
  · exact .inj ..
  · refine (SameBytes.inj _ _).trans (SameBytes.trans (.foldl _ (fun s k => ?_) _ _) (.updDie ..))
    split
    · exact dropCopy_sameBytes ..
    · exact .refl _

theorem dirTouch_sameBytes (s : State) (d pa : Nat) (w : Bool) : SameBytes s (s.dirTouch d pa w) := by
  unfold State.dirTouch
  split
  · exact .refl s
  · dsimp only
    split
    · refine .trans (b := (List.range 4).foldl (fun s k => if k = d then s else s.invalCopies k (lineOf pa)) s) (.foldl _ (fun s k => ?_) _ _) ?_
      · split
        · exact .refl _
        · exact invalCopies_sameBytes ..
      · split <;> exact .updDie ..
    · split
      · split
        · exact .updDie ..
        · exact .refl s
      · exact .updDie ..

-- Writes at the home

/-- A write at the home changes memory, and moves no other byte. -/
theorem homeWrite_eq (s : State) (pa : Nat) (bs : List Byte) (e : Nat) (keep : BitVec 32) :
    ∃ u, SameBytes s u ∧ s.homeWrite pa bs e keep = { u with mem := Mem.wrN u.mem pa bs } := by
  unfold State.homeWrite
  dsimp only
  refine ⟨_, ?_, rfl⟩
  split
  · refine .foldl _ (fun s k => ?_) _ _
    split
    · exact invalCopies_sameBytes ..
    · exact .refl _
  · exact .refl s

theorem homeWrite_l2 (s : State) (pa : Nat) (bs : List Byte) (e : Nat) (keep : BitVec 32) (d : Nat) :
    ((s.homeWrite pa bs e keep).die d).l2 = (s.die d).l2 := by
  obtain ⟨u, hu, he⟩ := homeWrite_eq s pa bs e keep
  rw [he]
  exact hu.l2 d

theorem homeWrite_kinds (s : State) (pa : Nat) (bs : List Byte) (e : Nat) (keep : BitVec 32) : (s.homeWrite pa bs e keep).kinds = s.kinds := by
  obtain ⟨u, hu, he⟩ := homeWrite_eq s pa bs e keep
  rw [he]
  exact hu.kinds

theorem homeWrite_steady {s : State} (hs : Canonical s) (d : Nat) {x pa : Nat} {bs : List Byte} (hx : ¬ (pa ≤ x ∧ x < pa + bs.length)) (e : Nat)
    (keep : BitVec 32) : Steady d x s (s.homeWrite pa bs e keep) := by
  have hh : heldByte (s.homeWrite pa bs e keep) d x = heldByte s d x := by rw [heldByte, homeWrite_l2]; rfl
  refine ⟨fun k => ?_, fun _ _ => ?_, fun _ n => hh.trans n⟩
  · rwa [OneKind, homeWrite_kinds] at k
  · rw [curByte, hh, homeWrite_mem, rd_wrN hs.1, if_neg hx]; rfl

theorem homeWrite_writes {s : State} (hs : Canonical s) (d : Nat) {x pa : Nat} {bs : List Byte} (hx : pa ≤ x ∧ x < pa + bs.length) (e : Nat)
    (keep : BitVec 32) : ByteStep d x (some (bs.getD (x - pa) 0)) True True s (s.homeWrite pa bs e keep) := by
  have hh : heldByte (s.homeWrite pa bs e keep) d x = heldByte s d x := by rw [heldByte, homeWrite_l2]; rfl
  refine ⟨fun k => ?_, fun _ n => ?_, fun _ n => hh.trans n⟩
  · rwa [OneKind, homeWrite_kinds] at k
  · rw [curByte, hh, n trivial, homeWrite_mem, rd_wrN hs.1, if_pos hx]; rfl

/-- Bytes of a line under a mask, written at the home. -/
theorem maskedHome (s : State) (hs : Canonical s) (line : Nat) (data : BitVec 1024) (m : BitVec 128) :
    let z := State.maskedWrite (fun s a b => s.homeWrite a b) s line data m
    Canonical z ∧ z.kinds = s.kinds ∧ (∀ d, (z.die d).l2 = (s.die d).l2)
      ∧ ∀ x, Mem.rd z.mem x = if x / 128 = line ∧ m.getLsbD (x % 128) = true then lineGet data (x % 128) else Mem.rd s.mem x := by
  unfold State.maskedWrite
  suffices h : ∀ n ≤ 128, let z := (List.range n).foldl (fun s i => if m.getLsbD i then s.homeWrite (128 * line + i) [lineGet data i] else s) s
      Canonical z ∧ z.kinds = s.kinds ∧ (∀ d, (z.die d).l2 = (s.die d).l2) ∧ ∀ x, Mem.rd z.mem x =
        if (x / 128 = line ∧ x % 128 < n) ∧ m.getLsbD (x % 128) = true then lineGet data (x % 128) else Mem.rd s.mem x by
    obtain ⟨h1, h2, h3, h4⟩ := h 128 le_rfl
    refine ⟨h1, h2, h3, fun x => ?_⟩
    exact (h4 x).trans (if_congr (and_congr_left' (and_iff_left (mod_line x))) rfl rfl)
  intro n hn
  induction n with
  | zero => exact ⟨hs, rfl, fun _ => rfl, fun x => by rw [if_neg (by omega)]; rfl⟩
  | succ n ih =>
    obtain ⟨h1, h2, h3, h4⟩ := ih (by omega)
    rw [List.range_succ, List.foldl_append, List.foldl_cons, List.foldl_nil]
    by_cases hm : m.getLsbD n = true
    · rw [if_pos hm]
      refine ⟨homeWrite_canonical h1, (homeWrite_kinds ..).trans h2, fun d => (homeWrite_l2 ..).trans (h3 d), fun x => ?_⟩
      rw [homeWrite_mem, rd_wrN h1.1, h4 x, List.length_singleton]
      by_cases hx : x = 128 * line + n
      · subst hx
        rw [line_div _ hn, line_mod _ hn, if_pos ⟨le_rfl, Nat.lt_succ_self _⟩, if_pos (by simp [hm]), Nat.sub_self]
        rfl
      · rw [if_neg (by omega)]
        exact if_congr (and_congr_left' (by omega)) rfl rfl
    · rw [if_neg hm]
      refine ⟨h1, h2, h3, fun x => ?_⟩
      rw [h4 x]
      by_cases hx : x % 128 = n
      · rw [hx, if_neg (by simp [hm]), if_neg (by simp [hm])]
      · exact if_congr (and_congr_left' (by omega)) rfl rfl

-- Lines whose contents are open

/-- A line is gone from some L2s, and every other line is as it was. -/
def LineGone (line : Nat) (s u : State) : Prop :=
  ∀ d n, mget (u.die d).l2 n = mget (s.die d).l2 n ∨ n = line ∧ mget (u.die d).l2 n = none

theorem LineGone.delete (line d : Nat) (s : State) : LineGone line s (s.updDie d (fun x => { x with l2 := mdel x.l2 line })) := by
  intro e n
  rw [die_updDie]
  split
  · rw [mget_mdel]
    split
    · rename_i h; exact .inr ⟨h.symm, rfl⟩
    · exact .inl rfl
  · exact .inl rfl

theorem LineGone.trans {line : Nat} {a b c : State} (h : LineGone line a b) (g : LineGone line b c) : LineGone line a c := by
  intro d n
  rcases g d n with e | e
  · rw [e]; exact h d n
  · exact .inr e

theorem LineGone.clean {line : Nat} {s u : State} (h : LineGone line s u) {d x : Nat} (n : heldByte s d x = none) : heldByte u d x = none := by
  unfold heldByte dirtyIn at n ⊢
  rcases h d (x / 128) with e | ⟨-, e⟩
  · rwa [e]
  · rw [e]; rfl

theorem LineGone.other {line : Nat} {s u : State} (h : LineGone line s u) {x : Nat} (hx : x / 128 ≠ line) (d : Nat) : heldByte u d x = heldByte s d x := by
  unfold heldByte dirtyIn
  rw [(h d (x / 128)).resolve_right (fun e => hx e.1)]

/-- No L2 holds the line. -/
def State.dropLine (s : State) (line : Nat) : State := (List.range 4).foldl (fun s d => s.updDie d (fun x => { x with l2 := mdel x.l2 line })) s

theorem dropLine_rest (s : State) (line : Nat) : (s.dropLine line).kinds = s.kinds ∧ (s.dropLine line).mem = s.mem ∧ LineGone line s (s.dropLine line) := by
  unfold State.dropLine
  generalize List.range 4 = ds
  induction ds generalizing s with
  | nil => exact ⟨rfl, rfl, fun _ _ => .inl rfl⟩
  | cons d ds ih =>
    obtain ⟨h1, h2, h3⟩ := ih (s.updDie d (fun x => { x with l2 := mdel x.l2 line }))
    exact ⟨h1, h2, (LineGone.delete line d s).trans h3⟩

/-- A line whose contents are open is held by no L2, and free bytes are written at its home. -/
theorem scramble_eq (s : State) (line : Nat) : ∃ bs : List Byte, bs.length = 128
    ∧ s.scramble line = State.bump { s.dropLine line with mem := Mem.wrN (s.dropLine line).mem (128 * line) bs } :=
  ⟨_, by rw [List.length_map, List.length_range], rfl⟩

/-- The kinds of page through which a line has been reached only grow. -/
theorem oneKind_of_meet {s z : State} {pa x : Nat} {a : PageAttr} (hz : z.kinds = mput s.kinds (lineOf pa) (s.kindsAt pa a)) (k : OneKind z x) :
    OneKind s x := by
  unfold OneKind at k ⊢
  rw [hz, mget_mput] at k
  split at k
  · rename_i hl
    intro e
    apply k
    simp [State.kindsAt, hl, e]
  · exact k

theorem meetKinds_steady {s : State} (hs : Canonical s) (d x pa : Nat) (a : PageAttr) : Steady d x s (s.meetKinds pa a) := by
  unfold State.meetKinds
  split
  · exact .refl ..
  · dsimp only
    split
    · rename_i hboth
      have hw : ∀ u : State, u = { s with kinds := mput s.kinds (lineOf pa) (s.kindsAt pa a) } → Steady d x s (u.scramble (lineOf pa)) := by
        intro u hu
        obtain ⟨bs, hbs, he⟩ := scramble_eq u (lineOf pa)
        obtain ⟨h1, h2, h3⟩ := dropLine_rest u (lineOf pa)
        have hus : heldByte u d x = heldByte s d x := by rw [hu]; rfl
        have hk : u.kinds = mput s.kinds (lineOf pa) (s.kindsAt pa a) := by rw [hu]
        have hm : u.mem = s.mem := by rw [hu]
        rw [he]
        generalize u.dropLine (lineOf pa) = v at h1 h2 h3
        refine ⟨oneKind_of_meet (h1.trans hk), fun k _ => ?_, fun _ n => h3.clean (hus.trans n)⟩
        have hx : x / 128 ≠ lineOf pa := fun hx => k (by rw [State.bump, h1, hk, hx, mget_mput, if_pos rfl, hboth])
        show (heldByte v d x).getD _ = (heldByte s d x).getD _
        rw [h3.other hx d, hus, State.bump, h2, hm, rd_wrN hs.1, if_neg (by omega)]
      exact hw _ rfl
    · exact ⟨oneKind_of_meet rfl, fun _ _ => rfl, fun _ => id⟩

-- The L2 of a die

theorem dirtyIn_of_some {l2 : Map Nat L2Line} {x : Nat} {l : L2Line} (h : mget l2 (x / 128) = some l) :
    dirtyIn l2 x = if l.dirty.getLsbD (x % 128) then some (lineGet l.data (x % 128)) else none := by
  rw [dirtyIn, h]; rfl

theorem lt_dies_of_mget {s : State} {d n : Nat} {l : L2Line} (h : mget (s.die d).l2 n = some l) : d < s.dies.length := by
  by_contra hd
  rw [State.die, List.getD_eq_default _ _ (by omega)] at h
  cases h

/-- What the L2s hold after a write-back: the line's bytes under the mask are clean. -/
theorem l2WriteBack_l2 (s : State) (d line : Nat) (m : BitVec 128) (e n : Nat) : mget ((s.l2WriteBack d line m).die e).l2 n =
    if e = d ∧ n = line then (mget (s.die d).l2 line).map (fun l => { l with dirty := l.dirty &&& ~~~m }) else mget (s.die e).l2 n := by
  unfold State.l2WriteBack
  cases hl : mget (s.die d).l2 line with
  | none =>
    by_cases h : e = d ∧ n = line
    · rw [if_pos h, h.1, h.2]; exact hl
    · rw [if_neg h]
  | some l =>
    dsimp only
    have hl2 : ∀ e, ((State.maskedWrite (fun s a b => s.homeWrite a b) s line l.data (l.dirty &&& m)).die e).l2 = (s.die e).l2 := by
      intro e
      unfold State.maskedWrite
      refine foldl_keeps _ (fun s => (s.die e).l2) _ (fun s i _ => ?_) s
      split
      · exact homeWrite_l2 ..
      · rfl
    generalize State.maskedWrite (fun s a b => s.homeWrite a b) s line l.data (l.dirty &&& m) = u at hl2
    have hd : d < u.dies.length := lt_dies_of_mget (n := line) (by rw [hl2, hl])
    rw [die_updDie]
    by_cases he : e = d
    · subst he
      rw [if_pos ⟨rfl, hd⟩]
      dsimp only
      rw [mget_mput, hl2]
      exact if_congr ⟨fun h => ⟨rfl, h.symm⟩, fun h => h.2.symm⟩ rfl rfl
    · rw [if_neg (fun h => he h.1.symm), if_neg (fun h => he h.1), hl2]

/-- A write-back moves dirty bytes to their home. -/
theorem l2WriteBack_steady {s : State} (hs : Canonical s) (d x line : Nat) (m : BitVec 128) : Steady d x s (s.l2WriteBack d line m) := by
  have hh := l2WriteBack_l2 s d line m d (x / 128)
  cases hl : mget (s.die d).l2 line with
  | none =>
    rw [State.l2WriteBack, hl]
    exact .refl ..
  | some l =>
    have hz : (s.l2WriteBack d line m).kinds = s.kinds ∧ Mem.rd (s.l2WriteBack d line m).mem x
        = if x / 128 = line ∧ (l.dirty &&& m).getLsbD (x % 128) = true then lineGet l.data (x % 128) else Mem.rd s.mem x := by
      obtain ⟨-, hk, -, hm⟩ := maskedHome s hs line l.data (l.dirty &&& m)
      rw [State.l2WriteBack, hl]
      exact ⟨hk, hm x⟩
    generalize s.l2WriteBack d line m = z at hh hz
    obtain ⟨hk, hm⟩ := hz
    unfold Steady
    by_cases hx : x / 128 = line
    · subst hx
      rw [if_pos ⟨rfl, rfl⟩, hl] at hh
      have h1 : heldByte s d x = _ := dirtyIn_of_some hl
      have h2 : heldByte z d x = _ := dirtyIn_of_some hh
      have e1 : (l.dirty &&& m).getLsbD (x % 128) = (l.dirty.getLsbD (x % 128) && m.getLsbD (x % 128)) := BitVec.getLsbD_and
      have e2 : (l.dirty &&& ~~~m).getLsbD (x % 128) = (l.dirty.getLsbD (x % 128) && !m.getLsbD (x % 128)) := by
        rw [BitVec.getLsbD_and, BitVec.getLsbD_not, decide_eq_true (mod_line x), Bool.true_and]
      dsimp only at h2
      rw [e2] at h2
      rw [e1] at hm
      refine ⟨fun k => ?_, fun _ _ => ?_, fun _ n => ?_⟩
      · rwa [OneKind, ← hk]
      · rw [curByte, curByte, h1, h2, hm]
        cases l.dirty.getLsbD (x % 128) <;> cases m.getLsbD (x % 128) <;> simp
      · rw [h1] at n
        rw [h2]
        cases h3 : l.dirty.getLsbD (x % 128) <;> simp [h3] at n ⊢
    · rw [if_neg (fun h => hx h.2)] at hh
      rw [if_neg (fun h => hx h.1)] at hm
      have h1 : heldByte z d x = heldByte s d x := by rw [heldByte, dirtyIn, hh]; rfl
      refine ⟨fun k => ?_, fun _ _ => ?_, fun _ n => h1.trans n⟩
      · rwa [OneKind, ← hk]
      · rw [curByte, curByte, h1, hm]; rfl

/-- After all of a line is written back, the L2 holds none of it dirty. -/
theorem l2WriteBack_clean (s : State) (d x : Nat) : heldByte (s.l2WriteBack d (x / 128) (BitVec.allOnes 128)) d x = none := by
  rw [heldByte, dirtyIn, l2WriteBack_l2, if_pos ⟨rfl, rfl⟩]
  cases mget (s.die d).l2 (x / 128) with
  | none => rfl
  | some l =>
    have hlt : x % 128 < 128 := mod_line x
    simp [hlt]

/-- A line of which the L2 holds no byte dirty may go. -/
theorem LineGone.steady {line d x : Nat} {s u : State} (h : LineGone line s u) (hm : u.mem = s.mem) (hk : u.kinds = s.kinds)
    (hc : x / 128 = line → heldByte s d x = none) : Steady d x s u := by
  have hh : heldByte u d x = heldByte s d x := by
    by_cases hx : x / 128 = line
    · rw [hc hx]; exact h.clean (hc hx)
    · exact h.other hx d
  refine ⟨fun k => ?_, fun _ _ => ?_, fun _ n => hh.trans n⟩
  · rwa [OneKind, ← hk]
  · rw [curByte, hh, hm]; rfl

/-- A line that is written back whole may go. -/
theorem l2WriteBack_gone {s : State} (hs : Canonical s) (d x line : Nat) :
    Steady d x s ((s.l2WriteBack d line (BitVec.allOnes 128)).updDie d (fun x => { x with l2 := mdel x.l2 line })) := by
  refine (l2WriteBack_steady hs d x line _).next ((LineGone.delete line d _).steady rfl rfl (fun hx => ?_))
  subst hx
  exact l2WriteBack_clean s d x

theorem evict_steady {s : State} (hs : Canonical s) (d x line : Nat) : Steady d x s (s.evict d line) := by
  unfold State.evict
  split
  · exact .refl ..
  · dsimp only
    refine Steady.next ?_ (l2WriteBack_gone ?_ d x line)
    · exact (SameBytes.trans (.inv s _) (.updDie ..)).steady d x
    · exact updDie_canonical hs

theorem l2Room_steady {s : State} (hs : Canonical s) (d x line : Nat) : Steady d x s (s.l2Room d line) := by
  unfold State.l2Room
  dsimp only
  split
  · exact .refl ..
  · split
    · exact .refl ..
    · exact ((SameBytes.bump s).steady d x).next (evict_steady (bump_canonical hs) d x _)

theorem l2Drop_steady {s : State} (hs : Canonical s) (d x line : Nat) : Steady d x s (s.l2Drop d line) :=
  ((invalCopies_sameBytes s d line 0).steady d x).next (l2WriteBack_gone (invalCopies_canonical hs) d x line)

/-- The bytes of a line at an address of it, after bytes have been put into it. -/
theorem L2Line.put_at (mark : Bool) {pa x : Nat} {bs : List Byte} (h : pa % 128 + bs.length ≤ 128) (hx : x / 128 = pa / 128) (l : L2Line) :
    lineGet (l.put mark (pa % 128) bs).data (x % 128) = (if pa ≤ x ∧ x < pa + bs.length then bs.getD (x - pa) 0 else lineGet l.data (x % 128))
      ∧ (l.put mark (pa % 128) bs).dirty.getLsbD (x % 128) = (mark && decide (pa ≤ x ∧ x < pa + bs.length) || l.dirty.getLsbD (x % 128)) := by
  obtain ⟨hq, hsub⟩ := run_iff hx bs.length
  rw [L2Line.put_data _ h, L2Line.put_dirty _ h]
  refine ⟨?_, by rw [decide_eq_decide.mpr hq]⟩
  by_cases hr : pa ≤ x ∧ x < pa + bs.length
  · rw [if_pos hr, if_pos (hq.mpr hr), hsub]
  · rw [if_neg hr, if_neg (fun k => hr (hq.mp k))]

/-- What the L2 holds of a byte when bytes are put into a line that it holds, or has room for. -/
theorem dirtyIn_put {l2 : Map Nat L2Line} {pa x : Nat} {bs : List Byte} (h : pa % 128 + bs.length ≤ 128) (rg : Option Nat) :
    dirtyIn (mput l2 (pa / 128) (((mget l2 (pa / 128)).getD ⟨0, 0, 0, rg⟩).put true (pa % 128) bs)) x
      = if pa ≤ x ∧ x < pa + bs.length then some (bs.getD (x - pa) 0) else dirtyIn l2 x := by
  by_cases hx : x / 128 = pa / 128
  · obtain ⟨h1, h2⟩ := L2Line.put_at true h hx ((mget l2 (pa / 128)).getD ⟨0, 0, 0, rg⟩)
    rw [dirtyIn_of_some (by rw [hx, mget_mput, if_pos rfl]), h1, h2]
    by_cases hr : pa ≤ x ∧ x < pa + bs.length
    · simp [hr]
    · rw [dirtyIn, hx]
      cases mget l2 (pa / 128) <;> simp [hr]
  · rw [dirtyIn, mget_mput, if_neg (Ne.symm hx), if_neg (fun hr => hx (line_of_run h hr).1)]
    rfl

/-- What the L2 holds of a byte when bytes are put, not dirty, into a line that it may hold. -/
theorem dirtyIn_refresh {l2 : Map Nat L2Line} {pa x : Nat} {bs : List Byte} (h : pa % 128 + bs.length ≤ 128) :
    dirtyIn (mupd l2 (pa / 128) (L2Line.put false (pa % 128) bs)) x
      = if pa ≤ x ∧ x < pa + bs.length then (dirtyIn l2 x).map (fun _ => bs.getD (x - pa) 0) else dirtyIn l2 x := by
  by_cases hx : x / 128 = pa / 128
  · unfold dirtyIn
    rw [hx, mget_mupd_self]
    cases mget l2 (pa / 128) with
    | none => split <;> rfl
    | some l =>
      obtain ⟨h1, h2⟩ := L2Line.put_at false h hx l
      simp only [Option.map_some, Option.bind_some, h1, h2, Bool.false_and, Bool.false_or]
      by_cases hr : pa ≤ x ∧ x < pa + bs.length <;> cases l.dirty.getLsbD (x % 128) <;> simp [hr]
  · rw [dirtyIn, mget_mupd_ne _ (Ne.symm hx), if_neg (fun hr => hx (line_of_run h hr).1)]
    rfl

/-- A write to the system range goes to memory, and a copy that the L2 holds takes its bytes. -/
theorem writeSystem_step {s z : State} (hs : Canonical s) {d pa : Nat} {bs : List Byte} (h : pa % 128 + bs.length ≤ 128) (x : Nat)
    (hm : z.mem = Mem.wrN s.mem pa bs) (hk : z.kinds = s.kinds) (hz : (z.die d).l2 = mupd (s.die d).l2 (pa / 128) (L2Line.put false (pa % 128) bs)) :
    (pa ≤ x ∧ x < pa + bs.length → ByteStep d x (some (bs.getD (x - pa) 0)) False True s z) ∧ (¬ (pa ≤ x ∧ x < pa + bs.length) → Steady d x s z) := by
  have hh : heldByte z d x = _ := (congrArg (dirtyIn · x) hz).trans (dirtyIn_refresh h)
  have hkk : OneKind z x → OneKind s x := fun k => by rwa [OneKind, ← hk]
  constructor
  · intro hr
    rw [if_pos hr] at hh
    refine ⟨hkk, fun _ _ => ?_, fun _ n => ?_⟩
    · rw [curByte, hh, hm, rd_wrN hs.1, if_pos hr]
      cases dirtyIn (s.die d).l2 x <;> rfl
    · rw [hh, show dirtyIn (s.die d).l2 x = none from n]; rfl
  · intro hr
    rw [if_neg hr] at hh
    refine ⟨hkk, fun _ _ => ?_, fun _ n => hh.trans n⟩
    rw [curByte, hh, hm, rd_wrN hs.1, if_neg hr]; rfl

/-- A write to a line that the L2 holds for another home stays there, dirty. -/
theorem writeHeld_step (s : State) {d pa : Nat} {bs : List Byte} (h : pa % 128 + bs.length ≤ 128) (x : Nat) (rg : Option Nat) :
    let z := s.updDie d (fun y => { y with l2 := mput y.l2 (pa / 128) (((mget (s.die d).l2 (pa / 128)).getD ⟨0, 0, 0, rg⟩).put true (pa % 128) bs) })
    (pa ≤ x ∧ x < pa + bs.length → d < s.dies.length → ByteStep d x (some (bs.getD (x - pa) 0)) False False s z)
      ∧ (¬ (pa ≤ x ∧ x < pa + bs.length) → Steady d x s z) := by
  intro z
  have hz : d < s.dies.length → heldByte z d x = if pa ≤ x ∧ x < pa + bs.length then some (bs.getD (x - pa) 0) else heldByte s d x := by
    intro hl
    rw [heldByte, die_updDie, if_pos ⟨rfl, hl⟩]
    exact dirtyIn_put h rg
  constructor
  · intro hr hl
    refine ⟨id, fun _ _ => ?_, False.elim⟩
    rw [curByte, hz hl, if_pos hr]; rfl
  · intro hr
    have hh : heldByte z d x = heldByte s d x := by
      by_cases hl : d < s.dies.length
      · rw [hz hl, if_neg hr]
      · rw [heldByte, die_updDie, if_neg (fun k => hl k.2)]; rfl
    refine ⟨id, fun _ _ => ?_, fun _ n => hh.trans n⟩
    rw [curByte, hh]; rfl

theorem updDie_mupd_l2 (s : State) (d n : Nat) (f : L2Line → L2Line) :
    ((s.updDie d (fun y => { y with l2 := mupd y.l2 n f })).die d).l2 = mupd (s.die d).l2 n f := by
  rw [die_updDie]
  by_cases h : d < s.dies.length
  · rw [if_pos ⟨rfl, h⟩]
  · rw [if_neg (fun k => h k.2), State.die, List.getD_eq_default _ _ (by omega)]; rfl

/-- What a write of one line's bytes at the L2 level does to a byte of die d: a byte of them is written, and any other stays. -/
theorem l2Write_step {s : State} (hs : Canonical s) {d pa : Nat} {bs : List Byte} (h : pa % 128 + bs.length ≤ 128) (a : PageAttr) (keep : BitVec 32) (x : Nat) :
    (pa ≤ x ∧ x < pa + bs.length → (heldApart d pa a = true → inSystem pa = false → d < 4) →
        ByteStep d x (some (bs.getD (x - pa) 0)) (heldApart d pa a = false) (heldApart d pa a = true → inSystem pa = true) s (s.l2Write d pa a bs keep))
      ∧ (¬ (pa ≤ x ∧ x < pa + bs.length) → Steady d x s (s.l2Write d pa a bs keep)) := by
  have h0 : Steady d x s (s.meetKinds pa a) := meetKinds_steady hs d x pa a
  have hc := meetKinds_canonical hs (pa := pa) (a := a)
  unfold State.l2Write
  dsimp only
  generalize s.meetKinds pa a = u at h0 hc
  by_cases hsys : inSystem pa = true
  · rw [if_pos hsys]
    have hap : heldApart d pa a = true := by rw [heldApart, hsys]; rfl
    obtain ⟨hm, hk, hl2⟩ := invalCopies_sameBytes { u with mem := Mem.wrN u.mem pa bs } d (lineOf pa) keep
    generalize State.invalCopies { u with mem := Mem.wrN u.mem pa bs } d (lineOf pa) keep = v at hm hk hl2
    obtain ⟨h1, h2⟩ := writeSystem_step hc h x (z := v.updDie d (fun y => { y with l2 := mupd y.l2 (pa / 128) (L2Line.put false (pa % 128) bs) })) hm hk
      ((updDie_mupd_l2 v d _ _).trans (by rw [hl2 d]; rfl))
    refine ⟨fun hr _ => ?_, fun hr => h0.next (h2 hr)⟩
    obtain ⟨g1, g2, g3⟩ := h1 hr
    exact h0.next ⟨g1, fun k _ => g2 k False.elim, fun _ => g3 trivial⟩
  · rw [if_neg hsys]
    by_cases ha : heldApart d pa a = true
    · rw [if_pos ha]
      have h1 := h0.trans (((invalCopies_sameBytes u d (lineOf pa) keep).steady d x).trans (l2Room_steady (invalCopies_canonical hc) d x (lineOf pa)))
      have hc1 := l2Room_canonical (invalCopies_canonical hc (d := d) (line := lineOf pa) (keep := keep)) (d := d) (line := lineOf pa)
      generalize (u.invalCopies d (lineOf pa) keep).l2Room d (lineOf pa) = v at h1 hc1
      obtain ⟨g1, g2⟩ := writeHeld_step v (d := d) h x a.rg
      refine ⟨fun hr hd => h1.next ?_, fun hr => h1.next (g2 hr)⟩
      obtain ⟨k1, k2, -⟩ := g1 hr (hc1.2.2.2.2.symm ▸ hd ha (by simpa using hsys))
      exact ⟨k1, fun k _ => k2 k False.elim, fun hcl => absurd (hcl ha) hsys⟩
    · rw [if_neg ha]
      have h1 : Steady d x s (if a.c then u.dirTouch d pa true else u) := by
        split
        · exact h0.next ((dirTouch_sameBytes ..).steady d x)
        · exact h0
      have hc1 : Canonical (if a.c then u.dirTouch d pa true else u) := if_canonical (dirTouch_canonical hc) hc
      refine ⟨fun hr _ => h1.next ?_, fun hr => h1.next (homeWrite_steady hc1 d hr d keep)⟩
      obtain ⟨k1, k2, k3⟩ := homeWrite_writes hc1 d hr d keep
      exact ⟨k1, fun k hh => k2 k (fun _ => hh (by simpa using ha)), fun _ => k3 trivial⟩

-- The write-back of an L1 line

/-- What the write-back of an L1 line does to a byte of its die: a dirty byte of it is written, and any other byte stays. -/
theorem l1WriteBack_step {s : State} (hs : Canonical s) (c : Nat) (l : L1Line) (x : Nat) :
    (x / 128 = l.line ∧ l.dirty.getLsbD (x % 128) = true → (heldApart (c / 32) x l.attr = true → inSystem x = false → c / 32 < 4) →
        ByteStep (c / 32) x (some (lineGet l.data (x % 128))) (heldApart (c / 32) x l.attr = false) (heldApart (c / 32) x l.attr = true → inSystem x = true)
          s (s.l1WriteBack c l))
      ∧ (¬ (x / 128 = l.line ∧ l.dirty.getLsbD (x % 128) = true) → Steady (c / 32) x s (s.l1WriteBack c l)) := by
  unfold State.l1WriteBack
  by_cases hd : l.dirty = 0
  · rw [if_pos hd]
    exact ⟨fun h => absurd h.2 (by simp [hd]), fun _ => .refl ..⟩
  · rw [if_neg hd]
    dsimp only
    have hput : ∀ u : State, SameBytes u (match u.l1Find c l.line with
        | none => u
        | some l' => u.l1Put c { l' with dirty := 0 }) := by
      intro u
      split
      · exact .refl _
      · exact .updCore ..
    unfold State.maskedWrite
    have hc : ∀ s i, Canonical s → Canonical (if l.dirty.getLsbD i = true then s.l2Write (c / 32) (128 * l.line + i) l.attr [lineGet l.data i] else s) :=
      fun s i h => if_canonical (l2Write_canonical h) h
    have hone : ∀ i < 128, (128 * l.line + i) % 128 + [lineGet l.data i].length ≤ 128 := fun i hi => by rw [line_mod _ hi]; exact hi
    have hother : ∀ i < 128, ¬ (128 * l.line + i = x ∧ l.dirty.getLsbD i = true) → ∀ s, Canonical s →
        Steady (c / 32) x s (if l.dirty.getLsbD i = true then s.l2Write (c / 32) (128 * l.line + i) l.attr [lineGet l.data i] else s) := by
      intro i hi hn s hs
      split
      · rename_i hb
        refine (l2Write_step hs (hone i hi) l.attr 0 x).2 (fun hr => hn ⟨?_, hb⟩)
        rw [List.length_singleton] at hr
        omega
      · exact .refl ..
    constructor
    · rintro ⟨hx, hb⟩ hdie
      have hxx : 128 * l.line + x % 128 = x := line_eq hx
      refine ByteStep.steady (ByteStep.foldl hc List.nodup_range (j := x % 128) (List.mem_range.mpr (mod_line x)) (fun s hs => ?_) (fun i hi hne s hs => ?_) hs)
        ((hput _).steady _ _)
      · rw [if_pos hb, hxx]
        have := (l2Write_step hs (hxx ▸ hone (x % 128) (mod_line x)) l.attr 0 x).1 (by rw [List.length_singleton]; exact ⟨le_rfl, Nat.lt_succ_self x⟩) hdie
        rwa [Nat.sub_self] at this
      · exact hother i (List.mem_range.mp hi) (fun h => hne (by rw [← h.1, line_mod _ (List.mem_range.mp hi)])) s hs
    · intro hn
      exact (Steady.foldl hc _ (fun i hi s hs => hother i (List.mem_range.mp hi) (fun h => hn ⟨by rw [← h.1, line_div _ (List.mem_range.mp hi)], by
        rw [← h.1, line_mod _ (List.mem_range.mp hi)]; exact h.2⟩) s hs) hs).next ((hput _).steady _ _)

end Sys2Proof.Machine
end

section
/-! Releases and TFENCE: the lines of an L1 that hold dirty bytes, and where their bytes go (R85, R94, R95, R351, R408). -/
namespace Sys2Proof.Machine

-- The lines of an L1 that hold dirty bytes

/-- The lines of a core's L1 that hold dirty bytes, without what is clean in them. -/
def dirtyLines (s : State) (c : Nat) : List L1Line := ((s.core c).l1.filter (fun l => l.dirty != 0)).map L1Line.dropClean

@[simp] theorem L1Line.dropClean_line (l : L1Line) : l.dropClean.line = l.line := rfl
@[simp] theorem L1Line.dropClean_dirty (l : L1Line) : l.dropClean.dirty = l.dirty := rfl

theorem mem_dirtyLines {s : State} {c : Nat} {m : L1Line} : m ∈ dirtyLines s c ↔ ∃ l ∈ (s.core c).l1, l.dirty ≠ 0 ∧ l.dropClean = m := by
  simp [dirtyLines, and_assoc]

/-- The dirty lines of every L1 are the same. -/
def SameDirty (s z : State) : Prop := ∀ c, dirtyLines z c = dirtyLines s c

theorem SameDirty.trans {a b z : State} (h : SameDirty a b) (g : SameDirty b z) : SameDirty a z := fun c => (g c).trans (h c)

theorem invalidateL1_dirty (ls : List L1Line) (line : Nat) :
    ((invalidateL1 ls line).filter (fun l => l.dirty != 0)).map L1Line.dropClean = (ls.filter (fun l => l.dirty != 0)).map L1Line.dropClean := by
  unfold invalidateL1
  induction ls with
  | nil => rfl
  | cons l ls ih =>
    by_cases hl : l.line = line <;> by_cases hd : l.dirty = 0 <;> simp_all [L1Line.dropClean]

theorem sameDirty_closed : L2Closed SameDirty where
  refl _ _ := rfl
  trans := .trans
  dropCopy s e line c := by
    unfold State.dropCopy
    split
    · unfold dirtyLines
      rw [core_updCore]
      split
      · rename_i h; subst h; exact invalidateL1_dirty ..
      · rfl
    · rfl
  die _ _ _ _ _ := rfl
  rest _ _ _ _ _ _ _ _ := rfl

/-- The dirty lines that a write-back of a line leaves: those of another number. -/
theorem l1WriteBack_dirty (s : State) (c : Nat) (l : L1Line) (hd : l.dirty ≠ 0) :
    dirtyLines (s.l1WriteBack c l) c = (dirtyLines s c).filter (fun m => m.line != l.line) := by
  unfold State.l1WriteBack
  rw [if_neg hd]
  dsimp only
  have hm := sameDirty_closed.maskedWrite (fun s a b => s.l2Write (c / 32) a l.attr b) (fun s a b => sameDirty_closed.l2Write s _ a _ b 0) s l.line l.data l.dirty c
  generalize State.maskedWrite (fun s a b => s.l2Write (c / 32) a l.attr b) s l.line l.data l.dirty = u at hm
  rw [← hm]
  cases hf : u.l1Find c l.line with
  | none =>
    refine (List.filter_eq_self.mpr (fun m hm => ?_)).symm
    obtain ⟨y, hy, -, rfl⟩ := mem_dirtyLines.mp hm
    simpa [L1Line.dropClean] using List.find?_eq_none.mp hf y hy
  | some l' =>
    have hline : l'.line = l.line := by simpa using List.find?_some hf
    have hany : (u.core c).l1.any (fun y => y.line == l'.line) = true := List.any_eq_true.mpr ⟨l', List.mem_of_find?_eq_some hf, by simp⟩
    dsimp only
    unfold dirtyLines State.l1Put
    rw [core_updCore, if_pos rfl]
    dsimp only
    rw [if_pos hany, hline]
    induction (u.core c).l1 with
    | nil => rfl
    | cons y ys ih => by_cases hl : y.line = l.line <;> by_cases hy : y.dirty = 0 <;> simp_all [L1Line.dropClean]

theorem l1WriteBacks_dirty (c : Nat) (ls : List L1Line) (hd : ∀ l ∈ ls, l.dirty ≠ 0) (s : State) :
    dirtyLines (ls.foldl (fun s l => s.l1WriteBack c l) s) c = (dirtyLines s c).filter (fun m => ls.all (fun l => m.line != l.line)) := by
  induction ls generalizing s with
  | nil => simp
  | cons l ls ih =>
    rw [List.foldl_cons, ih (fun m hm => hd m (List.mem_cons_of_mem _ hm)), l1WriteBack_dirty _ _ _ (hd l (List.mem_cons_self ..)), List.filter_filter]
    simp only [List.all_cons, Bool.and_comm]

/-- A release by the tag writes the line back (R85). -/
def L1Line.tagged (tag : Nat) (l : L1Line) : Prop := l.tag = tag ∨ l.tag = 63

/-- The lines that a release by the tag writes back. -/
def dirtyOf (s : State) (c tag : Nat) : List L1Line := (s.core c).l1.filter (fun l => l.dirty != 0 && (l.tag == tag || l.tag == 63))

theorem mem_dirtyOf {s : State} {c tag : Nat} {l : L1Line} : l ∈ dirtyOf s c tag ↔ l ∈ (s.core c).l1 ∧ l.dirty ≠ 0 ∧ l.tagged tag := by
  simp [dirtyOf, L1Line.tagged]

theorem writeBackTag_eq (s : State) (c tag : Nat) : s.writeBackTag c tag = (dirtyOf s c tag).foldl (fun s l => s.l1WriteBack c l) s := rfl

/-- What a release by a tag leaves dirty was dirty, and is not of the tag. -/
theorem writeBackTag_left {s : State} {c tag : Nat} {m : L1Line} (h : m ∈ dirtyLines (s.writeBackTag c tag) c) :
    m ∈ dirtyLines s c ∧ ¬ m.tagged tag ∧ ∀ l ∈ (s.core c).l1, l.dirty ≠ 0 → l.tagged tag → l.line ≠ m.line := by
  rw [writeBackTag_eq, l1WriteBacks_dirty c _ (fun l hl => (mem_dirtyOf.mp hl).2.1), List.mem_filter, List.all_eq_true] at h
  obtain ⟨h1, h2⟩ := h
  have h3 : ∀ l ∈ (s.core c).l1, l.dirty ≠ 0 → l.tagged tag → l.line ≠ m.line := fun l hl hd ht => by
    simpa [ne_comm] using h2 l (mem_dirtyOf.mpr ⟨hl, hd, ht⟩)
  refine ⟨h1, fun ht => ?_, h3⟩
  obtain ⟨l, hl, hd, rfl⟩ := mem_dirtyLines.mp h1
  exact h3 l hl hd ht rfl

/-- The line holds the byte of an address dirty. -/
def L1Line.covers (l : L1Line) (x : Nat) : Prop := x / 128 = l.line ∧ l.dirty.getLsbD (x % 128) = true

theorem writeBackTag_steady {s : State} (hs : Canonical s) (c tag x : Nat) (h : ∀ m ∈ dirtyLines s c, ¬ m.covers x) :
    Steady (c / 32) x s (s.writeBackTag c tag) := by
  rw [writeBackTag_eq]
  refine Steady.foldl (fun s l h => l1WriteBack_canonical h) _ (fun l hl s hs => (l1WriteBack_step hs c l x).2 ?_) hs
  obtain ⟨hl, hd, -⟩ := mem_dirtyOf.mp hl
  exact h l.dropClean (mem_dirtyLines.mpr ⟨l, hl, hd, rfl⟩)

/-- Where no two dirty lines have one number, a line of another tag is left, and its bytes stay. -/
theorem writeBackTag_other {s : State} (hs : Canonical s) {c tag x : Nat} (nd : ((dirtyLines s c).map L1Line.line).Nodup) {m : L1Line}
    (hm : m ∈ dirtyLines s c) (ht : ¬ m.tagged tag) (hx : m.covers x) :
    m ∈ dirtyLines (s.writeBackTag c tag) c ∧ Steady (c / 32) x s (s.writeBackTag c tag) := by
  have hne : ∀ l ∈ dirtyOf s c tag, l.line ≠ m.line := by
    intro l hl e
    obtain ⟨hl, hd, hlt⟩ := mem_dirtyOf.mp hl
    have := List.inj_on_of_nodup_map nd (mem_dirtyLines.mpr ⟨l, hl, hd, rfl⟩) hm e
    exact ht (this ▸ hlt)
  constructor
  · rw [writeBackTag_eq, l1WriteBacks_dirty c _ (fun l hl => (mem_dirtyOf.mp hl).2.1), List.mem_filter, List.all_eq_true]
    exact ⟨hm, fun l hl => by simpa [ne_comm] using hne l hl⟩
  · rw [writeBackTag_eq]
    exact Steady.foldl (fun s l h => l1WriteBack_canonical h) _ (fun l hl s hs => (l1WriteBack_step hs c l x).2 (fun h => hne l hl (h.1.symm.trans hx.1))) hs

/-- A byte that a line of the tag holds dirty is written. -/
theorem writeBackTag_writes {s : State} (hs : Canonical s) {c tag x : Nat} (nd : ((dirtyLines s c).map L1Line.line).Nodup) {m : L1Line}
    (hm : m ∈ dirtyLines s c) (ht : m.tagged tag) (hx : m.covers x) (hd : heldApart (c / 32) x m.attr = true → inSystem x = false → c / 32 < 4) :
    ByteStep (c / 32) x (some (lineGet m.data (x % 128))) (heldApart (c / 32) x m.attr = false) (heldApart (c / 32) x m.attr = true → inSystem x = true)
      s (s.writeBackTag c tag) := by
  obtain ⟨l, hl, hld, rfl⟩ := mem_dirtyLines.mp hm
  have nd' : ((dirtyOf s c tag).map L1Line.line).Nodup := by
    refine List.Nodup.sublist ?_ nd
    unfold dirtyLines dirtyOf
    rw [List.map_map]
    refine List.Sublist.map L1Line.line ?_
    simp only [← List.filter_filter]
    rw [List.filter_comm]
    exact List.filter_sublist
  rw [writeBackTag_eq]
  refine ByteStep.foldl (f := fun s l => s.l1WriteBack c l) (j := l) (fun s l h => l1WriteBack_canonical h) nd'.of_map (mem_dirtyOf.mpr ⟨hl, hld, ht⟩)
    (fun s hs => (l1WriteBack_step hs c l x).1 hx hd) (fun i hi hne s hs => (l1WriteBack_step hs c i x).2 (fun h => hne ?_)) hs
  exact List.inj_on_of_nodup_map nd' hi (mem_dirtyOf.mpr ⟨hl, hld, ht⟩) (h.1.symm.trans hx.1)

theorem writeBackTag_nodup {s : State} {c : Nat} (tag : Nat) (nd : ((dirtyLines s c).map L1Line.line).Nodup) :
    ((dirtyLines (s.writeBackTag c tag) c).map L1Line.line).Nodup := by
  rw [writeBackTag_eq, l1WriteBacks_dirty c _ (fun l hl => (mem_dirtyOf.mp hl).2.1)]
  exact List.Nodup.sublist (List.Sublist.map _ List.filter_sublist) nd

-- Releases one after another

/-- Something that a core does after a release: it keeps the bytes below its L1, and what its L1 holds dirty. -/
def After (c : Nat) (G : State → State) : Prop := ∀ s, Canonical s → Canonical (G s) ∧ SameDirty s (G s) ∧ ∀ x, Steady (c / 32) x s (G s)

/-- Releases by several tags, each with something after it. -/
def releases (c : Nat) (G : State → State) (ts : List Nat) (s : State) : State := ts.foldl (fun s tag => G (s.writeBackTag c tag)) s

section
variable {c : Nat} {G : State → State} (hG : After c G)
include hG

/-- What releases leave dirty was dirty, and is not of their tags. -/
theorem releases_left (ts : List Nat) {s : State} (hs : Canonical s) {m : L1Line} (h : m ∈ dirtyLines (releases c G ts s) c) :
    m ∈ dirtyLines s c ∧ ∀ tag ∈ ts, ¬ m.tagged tag := by
  induction ts generalizing s with
  | nil => exact ⟨h, fun _ h => absurd h List.not_mem_nil⟩
  | cons t ts ih =>
    have hc := writeBackTag_canonical hs (c := c) (tag := t)
    obtain ⟨h1, h2⟩ := ih (hG _ hc).1 h
    rw [(hG _ hc).2.1] at h1
    obtain ⟨h3, h4, -⟩ := writeBackTag_left h1
    exact ⟨h3, fun tag ht => (List.mem_cons.mp ht).elim (fun e => e ▸ h4) (h2 tag)⟩

/-- A byte that the L1 does not hold dirty stays. -/
theorem releases_steady (ts : List Nat) {s : State} (hs : Canonical s) {x : Nat} (h : ∀ m ∈ dirtyLines s c, ¬ m.covers x) :
    Steady (c / 32) x s (releases c G ts s) := by
  induction ts generalizing s with
  | nil => exact .refl ..
  | cons t ts ih =>
    have hc := writeBackTag_canonical hs (c := c) (tag := t)
    obtain ⟨g1, g2, g3⟩ := hG _ hc
    refine ((writeBackTag_steady hs c t x h).trans (g3 x)).trans (ih g1 (fun m hm => ?_))
    rw [g2] at hm
    exact h m (writeBackTag_left hm).1

/-- A byte that a line of one of the tags holds dirty is written. -/
theorem releases_writes (ts : List Nat) {s : State} (hs : Canonical s) {x : Nat} (nd : ((dirtyLines s c).map L1Line.line).Nodup) {m : L1Line}
    (hm : m ∈ dirtyLines s c) (ht : ∃ tag ∈ ts, m.tagged tag) (hx : m.covers x)
    (hd : heldApart (c / 32) x m.attr = true → inSystem x = false → c / 32 < 4) :
    ByteStep (c / 32) x (some (lineGet m.data (x % 128))) (heldApart (c / 32) x m.attr = false) (heldApart (c / 32) x m.attr = true → inSystem x = true)
      s (releases c G ts s) := by
  induction ts generalizing s with
  | nil => exact absurd ht (by simp)
  | cons t ts ih =>
    have hc := writeBackTag_canonical hs (c := c) (tag := t)
    obtain ⟨g1, g2, g3⟩ := hG _ hc
    by_cases h : m.tagged t
    · refine ((writeBackTag_writes hs nd hm h hx hd).steady (g3 x)).steady (releases_steady hG ts g1 (fun y hy hyx => ?_))
      rw [g2] at hy
      obtain ⟨l, hl, hld, rfl⟩ := mem_dirtyLines.mp hm
      exact (writeBackTag_left hy).2.2 l hl hld h (hx.1.symm.trans hyx.1)
    · obtain ⟨h1, h2⟩ := writeBackTag_other hs nd hm h hx
      have ht' : ∃ tag ∈ ts, m.tagged tag := by
        obtain ⟨tag, ht, htm⟩ := ht
        exact ⟨tag, (List.mem_cons.mp ht).resolve_left (fun e => h (e ▸ htm)), htm⟩
      exact (h2.trans (g3 x)).next (ih g1 ((g2 c).symm ▸ writeBackTag_nodup t nd) ((g2 c).symm ▸ h1) ht')

end

/-- After releases of workgroups of a core, their dirty bytes are where R85 says. -/
theorem released_of_releases {c : Nat} {G : State → State} (hG : After c G) {s : State} (hs : Canonical s) {ts : List Nat} {ws : Nat → Prop}
    (hw : ∀ w, ws w → s.tagOf w ∈ ts) : Released s (releases c G ts s) c ws := by
  refine ⟨fun w hws l hl hd => ?_, fun nd w hws l hl hd k hk hb ho => ?_⟩
  · exact (releases_left hG ts hs (mem_dirtyLines.mpr ⟨l, hl, hd.1, rfl⟩)).2 _ (hw w hws) hd.2
  · have e1 : (128 * l.line + k) / 128 = l.line := line_div _ hk
    have e2 : (128 * l.line + k) % 128 = k := line_mod _ hk
    have hline : 128 * l.line / 128 = (128 * l.line + k) / 128 := (line_div l.line (k := 0) (by decide)).trans e1.symm
    have hstep := releases_writes hG ts hs (x := 128 * l.line + k) (m := l.dropClean)
      (nd.sublist (by unfold dirtyLines; rw [List.map_map]; exact List.Sublist.map _ List.filter_sublist))
      (mem_dirtyLines.mpr ⟨l, hl, hd.1, rfl⟩) ⟨_, hw w hws, hd.2⟩ ⟨e1, by rw [e2]; exact hb⟩
    rw [← heldApart_line hline, ← inSystem_line hline, e2] at hstep
    dsimp only [L1Line.dropClean] at hstep
    generalize releases c G ts s = z at hstep ho
    intro there
    split
    · rename_i hap
      rw [Bool.and_eq_true, Bool.not_eq_true'] at hap
      intro hc
      obtain ⟨-, hcur, -⟩ := hstep (fun _ _ => Nat.div_lt_of_lt_mul hc)
      have hcur := hcur ho (fun h => absurd (h.symm.trans hap.1) (by decide))
      rw [curByte, heldByte, dirtyIn, e1, e2] at hcur
      cases hz : mget (z.die (c / 32)).l2 l.line with
      | none => rw [hz] at hcur; exact .inl hcur
      | some y =>
        rw [hz, Option.bind_some] at hcur
        cases hy : y.dirty.getLsbD k with
        | false => rw [hy] at hcur; exact .inl hcur
        | true => rw [hy] at hcur; exact .inr ⟨y, rfl, hcur⟩
    · rename_i hap
      rw [Bool.and_eq_true, Bool.not_eq_true', not_and] at hap
      intro hclean
      have hnone : heldByte s (c / 32) (128 * l.line + k) = none := by
        rw [heldByte, dirtyIn, e1, e2]
        cases hy : mget (s.die (c / 32)).l2 l.line with
        | none => rfl
        | some y => rw [Option.bind_some, hclean y hy]; rfl
      obtain ⟨-, hcur, hcl⟩ := hstep (fun h1 h2 => absurd h2 (hap h1))
      have hcur := hcur ho (fun _ => hnone)
      rwa [curByte, hcl (fun h => by simpa using hap h) hnone] at hcur

/-- After releases of a core, memory has changed only where its L1 or its die's L2 held a byte dirty. -/
theorem keepsBytes_of_releases {c : Nat} {G : State → State} (hG : After c G) {s : State} (hs : Canonical s) (ts : List Nat) :
    KeepsBytes s (releases c G ts s) (fun d => d = c) := by
  intro x hx ho
  obtain ⟨h1, h2⟩ := hx c rfl
  refine (releases_steady hG ts hs (fun m hm hmx => ?_)).mem ?_ ho
  · obtain ⟨l, hl, -, rfl⟩ := mem_dirtyLines.mp hm
    have hb : l.dirty.getLsbD (x % 128) = true := hmx.2
    simp [h1 l hl hmx.1.symm] at hb
  · rw [heldByte, dirtyIn]
    cases hy : mget (s.die (c / 32)).l2 (x / 128) with
    | none => rfl
    | some y => rw [Option.bind_some, h2 y hy]; rfl

-- TFENCE

/-- A die's L2 writes back all that it holds dirty. -/
def State.homeL2 (s : State) (d : Nat) : State := ((s.die d).l2.map Prod.fst).foldl (fun s line => s.l2WriteBack d line (BitVec.allOnes 128)) s

theorem homeAll_eq (s : State) (t : ThreadId) : s.homeAll t = (s.writeBackTag (s.coreOf t) (s.tagOf t.wg)).homeL2 (s.coreOf t / 32) := rfl

theorem homeL2_only (s : State) (d : Nat) : MemoryOnly s (s.homeL2 d) := MemoryOnly.foldl _ (fun s l => l2WriteBack_only s d l _) _ _

theorem homeL2_after (c : Nat) : After c (fun s => s.homeL2 (c / 32)) := fun s hs =>
  ⟨foldl_canonical (fun _ _ h => l2WriteBack_canonical h) hs, sameDirty_closed.foldl _ (fun s l => sameDirty_closed.l2WriteBack s _ l _) _ s,
    fun x => Steady.foldl (fun _ _ h => l2WriteBack_canonical h) _ (fun l _ _ h => l2WriteBack_steady h (c / 32) x l _) hs⟩

theorem homeL2_clean (s : State) (d : Nat) {n : Nat} {l : L2Line} (h : mget ((s.homeL2 d).die d).l2 n = some l) : l.dirty = 0 := by
  have hf : ∀ (ks : List Nat) (s : State), n ∈ ks ∨ (∀ y, mget (s.die d).l2 n = some y → y.dirty = 0) →
      ∀ l, mget ((ks.foldl (fun s line => s.l2WriteBack d line (BitVec.allOnes 128)) s).die d).l2 n = some l → l.dirty = 0 := by
    intro ks
    induction ks with
    | nil => exact fun s h => h.resolve_left List.not_mem_nil
    | cons k ks ih =>
      intro s hn
      refine ih _ ?_
      by_cases hk : n = k
      · right
        intro y hy
        rw [l2WriteBack_l2, if_pos ⟨rfl, hk⟩] at hy
        obtain ⟨w, -, rfl⟩ := Option.map_eq_some_iff.mp hy
        simp
      · rw [l2WriteBack_l2, if_neg (fun e => hk e.2)]
        exact hn.imp_left (fun h => (List.mem_cons.mp h).resolve_left hk)
  refine hf _ s ?_ l h
  by_cases hn : n ∈ (s.die d).l2.map Prod.fst
  · exact .inl hn
  · right
    intro y hy
    exact absurd (List.mem_map.mpr ⟨_, mem_of_mget hy, rfl⟩) hn

/-- After TFENCE of at least one thread the die's L2 holds nothing dirty. -/
theorem tfence_clean {c : Nat} {ts : List Nat} (hts : ts ≠ []) (s : State) {n : Nat} {l : L2Line}
    (h : mget ((releases c (fun s => s.homeL2 (c / 32)) ts s).die (c / 32)).l2 n = some l) : l.dirty = 0 := by
  unfold releases at h
  rw [← List.dropLast_append_getLast hts, List.foldl_append] at h
  exact homeL2_clean _ _ h

theorem mem_of_clean {z : State} {d x : Nat} (h : ∀ n l, mget (z.die d).l2 n = some l → l.dirty = 0) : curByte z d x = Mem.rd z.mem x := by
  rw [curByte, heldByte, dirtyIn]
  cases hy : mget (z.die d).l2 (x / 128) with
  | none => rfl
  | some y => rw [Option.bind_some, h _ y hy]; simp

-- The words

theorem after_id (c : Nat) : After c id := fun _ hs => ⟨hs, fun _ => rfl, fun _ => .refl ..⟩

theorem releases_only {c : Nat} {G : State → State} (hG : ∀ s, MemoryOnly s (G s)) (ts : List Nat) (s : State) : MemoryOnly s (releases c G ts s) :=
  MemoryOnly.foldl _ (fun s t => (writeBackTag_only s c t).trans (hG _)) _ _

theorem MemoryOnly.withThreads {s v z : State} (h : MemoryOnly v z) (hv : v = { s with threads := v.threads }) : ThreadsAndMemory s z := by
  obtain ⟨h1, h2⟩ := h
  refine ⟨{ z with threads := s.threads }, ⟨?_, fun hw => h2 (by rw [hv]; exact hw)⟩, rfl⟩
  rw [h1, hv]

/-- What the releases of a word's threads do, seen from the state before the word. -/
theorem releases_of_word {s v : State} {i : Instr} {c : Nat} {G : State → State} (hG : After c G) (ho : ∀ s, MemoryOnly s (G s)) (hs : Canonical s)
    (hv : v = { s with threads := v.threads }) (hgo : ThreadsGo s v i (fun _ => Thread.advance)) :
    let z := releases c G ((s.executing i).map (fun t => v.tagOf t.wg)) v
    ThreadsAndMemory s z ∧ ThreadsGo s z i (fun _ => Thread.advance) ∧ Released s z c (fun w => ∃ t ∈ s.executing i, t.wg = w)
      ∧ KeepsBytes s z (fun d => d = c) := by
  intro z
  have hcv : Canonical v := by rw [hv]; exact hs
  have hm : MemoryOnly v z := releases_only ho _ v
  have h1 : Released v z c (fun w => ∃ t ∈ s.executing i, t.wg = w) := released_of_releases hG hcv (by
    rintro w ⟨t, ht, rfl⟩
    exact List.mem_map.mpr ⟨t, ht, rfl⟩)
  have h2 : KeepsBytes v z (fun d => d = c) := keepsBytes_of_releases hG hcv _
  refine ⟨hm.withThreads hv, fun t => ?_, ?_, ?_⟩
  · rw [State.thr, hm.threads]
    exact hgo t
  · rw [hv] at h1
    exact h1
  · rw [hv] at h2
    exact h2

theorem fenceRel_wide {s : State} {f : MemF} {c : Nat} (hs : Canonical s) (hr : Ready s (.fenceRel f)) (hc : ∀ t ∈ s.executing (.fenceRel f), s.coreOf t = c)
    (hw : Scope.wide f.sc = true) : ∃ z, exec (.fenceRel f) s = .next z ∧ ThreadsAndMemory s z ∧ ThreadsGo s z (.fenceRel f) (fun _ => Thread.advance)
      ∧ Released s z c (fun w => ∃ t ∈ s.executing (.fenceRel f), t.wg = w) ∧ KeepsBytes s z (fun d => d = c) := by
  obtain ⟨v, he, hv, hgo⟩ := lanesThen_fence (fun s ex => ex.foldl (fun s t => s.release (s.coreOf t) (s.tagOf t.wg) f.sc) s) hr
  have hcore : ∀ t, v.coreOf t = s.coreOf t := fun t => by rw [hv]; rfl
  rw [foldl_byCore (fun s c tag => release_only s c tag f.sc) _ v (fun t ht => (hcore t).trans (hc t ht))] at he
  refine ⟨_, ?_, releases_of_word (after_id c) MemoryOnly.refl hs hv hgo⟩
  simp only [State.release, hw, if_true] at he
  refine congrArg Host.Outcome.next (Eq.trans ?_ he)
  simp only [hw, if_true, State.release]

theorem fenceRel_narrow {s : State} {f : MemF} (hr : Ready s (.fenceRel f)) (hw : Scope.wide f.sc = false) :
    ∃ z, exec (.fenceRel f) s = .next z ∧ ThreadsAndMemory (s.goBy (s.executing (.fenceRel f))) z
      ∧ ThreadsGo s z (.fenceRel f) (fun _ => Thread.advance) ∧ z.mem = s.mem := by
  obtain ⟨v, he, hv, hgo⟩ := lanesThen_fence (fun s ex => s.goBy ex) hr
  refine ⟨_, congrArg Host.Outcome.next (Eq.trans ?_ he), ⟨s.goBy (s.executing (.fenceRel f)), .refl _, ?_⟩, hgo, ?_⟩
  · have hid : ∀ (ex : List ThreadId) (s : State), ex.foldl (fun s t => s.release (s.coreOf t) (s.tagOf t.wg) f.sc) s = s := fun ex s => by
      induction ex with
      | nil => rfl
      | cons t ex ih => rw [List.foldl_cons, State.release, if_neg (by simp [hw]), ih]
    simp only [hw, hid]
    rfl
  · rw [hv]; rfl
  · rw [hv]; rfl

/-- TFENCE: the releases of its threads, each with a write-back of the die's L2 after it. -/
theorem tfence_releases {s : State} {f : MemF} {c : Nat} (hr : Ready s (.tfence f)) (hc : ∀ t ∈ s.executing (.tfence f), s.coreOf t = c) :
    ∃ v, exec (.tfence f) s = .next (releases c (fun s => s.homeL2 (c / 32)) ((s.executing (.tfence f)).map (fun t => v.tagOf t.wg)) v)
      ∧ v = { s with threads := v.threads } ∧ ThreadsGo s v (.tfence f) (fun _ => Thread.advance) := by
  obtain ⟨v, he, hv, hgo⟩ := lanesThen_fence (fun s ex => ex.foldl State.homeAll s) hr
  have hcore : ∀ t, v.coreOf t = s.coreOf t := fun t => by rw [hv]; rfl
  refine ⟨v, congrArg Host.Outcome.next (he.trans ?_), hv, hgo⟩
  exact foldl_byCore (f := fun s c tag => (s.writeBackTag c tag).homeL2 (c / 32)) (fun s c tag => (writeBackTag_only s c tag).trans (homeL2_only _ _)) _ v
    (fun t ht => (hcore t).trans (hc t ht))

theorem not_covers_of {s : State} {c x : Nat} (h : ∀ y ∈ (s.core c).l1, y.line = x / 128 → y.dirty.getLsbD (x % 128) = false) :
    ∀ m ∈ dirtyLines s c, ¬ m.covers x := by
  intro m hm hmx
  obtain ⟨l, hl, -, rfl⟩ := mem_dirtyLines.mp hm
  have hb : l.dirty.getLsbD (x % 128) = true := hmx.2
  simp [h l hl hmx.1.symm] at hb

/-- Settles O23: a release is a fold of write-backs by tag, each of which moves every dirty byte of its lines down by one level and no other byte; TFENCE
then moves what the L2 holds dirty to its home. -/
theorem releasesAndTranslationFence : Obligations.ReleasesAndTranslationFence := by
  unfold Obligations.ReleasesAndTranslationFence
  constructor
  · intro s f c hs i ex hwf hr hc
    by_cases hw : Scope.wide f.sc = true
    · obtain ⟨z, he, h1, h2, h3, h4⟩ := fenceRel_wide hs hr hc hw
      exact ⟨z, he, by rw [if_pos hw]; exact h1, h2, fun _ => h3, h4⟩
    · obtain ⟨z, he, h1, h2, h3⟩ := fenceRel_narrow hr (by simpa using hw)
      exact ⟨z, he, by rw [if_neg hw]; exact h1, h2, fun h => absurd h hw, fun x _ _ => by rw [h3]⟩
  · intro s f c hs i hwf hr hc hne
    obtain ⟨v, he, hv, hgo⟩ := tfence_releases hr hc
    have hG := homeL2_after c
    obtain ⟨h1, h2, h3, h4⟩ := releases_of_word hG (fun s => homeL2_only s (c / 32)) hs hv hgo
    have hcv : Canonical v := by rw [hv]; exact hs
    have hclean : ∀ n l, mget ((releases c (fun s => s.homeL2 (c / 32)) ((s.executing i).map (fun t => v.tagOf t.wg)) v).die (c / 32)).l2 n = some l → l.dirty = 0 :=
      fun n l => tfence_clean (by simpa using hne) v
    have hst := fun x => releases_steady hG ((s.executing i).map (fun t => v.tagOf t.wg)) hcv (x := x)
    have hwr := fun x => releases_writes hG ((s.executing i).map (fun t => v.tagOf t.wg)) hcv (x := x)
    generalize releases c (fun s => s.homeL2 (c / 32)) ((s.executing i).map (fun t => v.tagOf t.wg)) v = z at he h1 h2 h3 h4 hclean hst hwr
    have hcore : (v.core c).l1 = (s.core c).l1 := by rw [hv]; rfl
    have hdie : (v.die (c / 32)).l2 = (s.die (c / 32)).l2 := by rw [hv]; rfl
    refine ⟨z, he, h1, h2, h3, hclean, fun n l hl k hk hb ho hno => ?_, fun nd t ht l hl hd hap hc128 k hk hb ho => ?_, h4⟩
    · have e1 : (128 * n + k) / 128 = n := line_div _ hk
      have e2 : (128 * n + k) % 128 = k := line_mod _ hk
      obtain ⟨-, hcur, -⟩ := hst _ (not_covers_of (x := 128 * n + k) (by rw [e1, e2, hcore]; exact hno))
      have hcur := hcur ho False.elim
      rwa [mem_of_clean hclean, curByte, heldByte, hdie, dirtyIn_of_some (by rw [e1]; exact hl), e2, hb] at hcur
    · have e1 : (128 * l.line + k) / 128 = l.line := line_div _ hk
      have e2 : (128 * l.line + k) % 128 = k := line_mod _ hk
      obtain ⟨-, hcur, -⟩ := hwr (128 * l.line + k) (m := l.dropClean)
        (nd.sublist (by unfold dirtyLines; rw [List.map_map, hcore]; exact List.Sublist.map _ List.filter_sublist))
        (mem_dirtyLines.mpr ⟨l, hcore.symm ▸ hl, hd.1, rfl⟩)
        ⟨_, List.mem_map.mpr ⟨t, ht, rfl⟩, by rw [hv]; exact hd.2⟩ ⟨e1, by rw [e2]; exact hb⟩ (fun _ _ => Nat.div_lt_of_lt_mul hc128)
      have hcur := hcur ho (fun h => by
        rw [← heldApart_line (pa := 128 * l.line) ((line_div l.line (k := 0) (by decide)).trans e1.symm)] at h
        exact absurd (h.symm.trans hap) (by decide))
      rwa [mem_of_clean hclean, e2] at hcur

end Sys2Proof.Machine
end

section
/-! What is stored is what is loaded (R69, R87): at the L2 level by way of memory, and in one L1. -/
namespace Sys2Proof.Machine

-- The kinds of page

theorem meetKinds_kinds (s : State) (pa : Nat) (a : PageAttr) :
    (s.meetKinds pa a).kinds = if (a.c || a.s) = true then mput s.kinds (lineOf pa) (s.kindsAt pa a) else s.kinds := by
  unfold State.meetKinds
  cases h : a.c || a.s with
  | false => rfl
  | true =>
    dsimp only [Bool.not_true]
    rw [if_neg (by decide), if_pos rfl]
    split
    · obtain ⟨bs, -, he⟩ := scramble_eq { s with kinds := mput s.kinds (lineOf pa) (s.kindsAt pa a) } (lineOf pa)
      rw [he, State.bump, (dropLine_rest _ _).1]
    · rfl

/-- Where no line becomes open, meeting the kinds of its page leaves memory and the L2s as they are. -/
theorem meetKinds_sameBytes {s : State} {pa : Nat} {a : PageAttr} (h : s.kindsAt pa a ≠ (true, true)) :
    (s.meetKinds pa a).mem = s.mem ∧ (s.meetKinds pa a).dies = s.dies := by
  unfold State.meetKinds
  split
  · exact ⟨rfl, rfl⟩
  · dsimp only
    rw [if_neg h]
    exact ⟨rfl, rfl⟩

/-- Once a line has been met through a page, meeting it so again opens nothing. -/
theorem kindsAt_again {s z : State} {pa : Nat} {a : PageAttr} (hk : z.kinds = (s.meetKinds pa a).kinds) (ho : OneKind z pa) : z.kindsAt pa a ≠ (true, true) := by
  rw [OneKind] at ho
  rw [meetKinds_kinds] at hk
  unfold State.kindsAt
  intro h
  apply ho
  rw [show pa / 128 = lineOf pa from rfl]
  split at hk
  · rw [hk, mget_mput, if_pos rfl] at h ⊢
    simp only [State.kindsAt, Option.getD_some, Bool.or_assoc, Bool.or_self] at h ⊢
    rw [h]
  · rename_i hcs
    rw [Bool.not_eq_true, Bool.or_eq_false_iff] at hcs
    rw [hcs.1, hcs.2] at h
    cases hm : mget z.kinds (lineOf pa) with
    | none => simp [hm] at h
    | some o => simpa [hm, Prod.ext_iff] using h

-- Lines of an L1

theorem core_l1Put_l1 (s : State) (c : Nat) (l : L1Line) (e : Nat) : ((s.l1Put c l).core e).l1 = if c = e then
    (if (s.core c).l1.any (fun y => y.line == l.line) then (s.core c).l1.map (fun y => if y.line = l.line then l else y) else (s.core c).l1 ++ [l])
    else (s.core e).l1 := by
  unfold State.l1Put
  rw [core_updCore]
  split <;> rfl

theorem l1Find_l1Put (s : State) (c : Nat) {l : L1Line} {n : Nat} (hn : l.line = n) : (s.l1Put c l).l1Find c n = some l := by
  subst hn
  unfold State.l1Find
  rw [core_l1Put_l1, if_pos rfl]
  generalize (s.core c).l1 = ls
  by_cases h : ls.any (fun y => y.line == l.line) = true
  · rw [if_pos h]
    induction ls with
    | nil => simp at h
    | cons y ys ih =>
      rw [List.map_cons, List.find?_cons]
      by_cases hy : y.line = l.line
      · simp [hy]
      · simp only [hy, if_false, beq_eq_false_iff_ne.mpr hy]
        exact ih (by simpa [hy] using h)
  · rw [if_neg h, List.find?_append]
    have : ls.find? (fun y => y.line == l.line) = none := by simpa using h
    simp [this]

/-- A line put in the place of one with the same dirty bytes adds none. -/
theorem l1Put_addsNoDirty {s : State} {c : Nat} {l x : L1Line} (hx : x ∈ (s.core c).l1) (h : x.line = l.line ∧ x.dirty = l.dirty ∧ x.tag = l.tag) :
    AddsNoDirty s (s.l1Put c l) := by
  intro e y hy hd
  rw [core_l1Put_l1] at hy
  split at hy
  · rename_i he
    subst he
    split at hy
    · obtain ⟨w, hw, rfl⟩ := List.mem_map.mp hy
      by_cases hwl : w.line = l.line
      · rw [if_pos hwl]
        exact ⟨x, hx, h⟩
      · rw [if_neg hwl]
        exact ⟨w, hw, rfl, rfl, rfl⟩
    · rcases List.mem_append.mp hy with hy | hy
      · exact ⟨y, hy, rfl, rfl, rfl⟩
      · rw [List.mem_singleton.mp hy]
        exact ⟨x, hx, h⟩
  · exact ⟨y, hy, rfl, rfl, rfl⟩

theorem l1Update_addsNoDirty (s : State) (c pa : Nat) (bs : List Byte) : AddsNoDirty s (s.l1Update c pa bs) := by
  unfold State.l1Update
  cases hf : s.l1Find c (lineOf pa) with
  | none => exact addsNoDirty_closed.refl s
  | some l => exact l1Put_addsNoDirty (List.mem_of_find?_eq_some hf) ⟨rfl, rfl, rfl⟩

/-- Where the L1 holds no byte of a run dirty, bytes read at the next level are read as they are. -/
theorem overlay_clean {s : State} {c pa : Nat} {bs : List Byte}
    (h : ∀ l ∈ (s.core c).l1, l.line = pa / 128 → ∀ k < bs.length, l.dirty.getLsbD (pa % 128 + k) = false) : s.overlay c pa bs = bs := by
  unfold State.overlay
  cases hf : s.l1Find c (lineOf pa) with
  | none => rfl
  | some l =>
    have hline : l.line = lineOf pa := by simpa using List.find?_some hf
    refine List.ext_getElem (by simp) (fun k h1 h2 => ?_)
    simp [h l (List.mem_of_find?_eq_some hf) hline k h2, h2]

-- At the L2 level

theorem heldApart_plain {d pa : Nat} {a : PageAttr} (hs : a.s = false) (hsys : inSystem pa = false) : heldApart d pa a = false := by
  rw [heldApart, hs, hsys]; rfl

/-- A write at the L2 level of bytes that no L2 holds apart is in memory. -/
theorem l2Write_home {s : State} (d : Nat) {pa : Nat} {a : PageAttr} (bs : List Byte) (hsys : inSystem pa = false) (ha : heldApart d pa a = false) (keep : BitVec 32) :
    (s.l2Write d pa a bs keep).kinds = (s.meetKinds pa a).kinds ∧ (s.l2Write d pa a bs keep).mem = Mem.wrN (s.meetKinds pa a).mem pa bs := by
  have hd : SameBytes (s.meetKinds pa a) (if a.c then (s.meetKinds pa a).dirTouch d pa true else s.meetKinds pa a) := by
    split
    · exact dirTouch_sameBytes ..
    · exact .refl _
  unfold State.l2Write
  dsimp only
  rw [if_neg (by simp [hsys]), if_neg (by simp [ha])]
  exact ⟨(homeWrite_kinds ..).trans hd.kinds, (homeWrite_mem ..).trans (by rw [hd.mem])⟩

theorem l2Read_home {s : State} {d pa : Nat} {a : PageAttr} (n : Nat) (ha : heldApart d pa a = false) (hk : s.kindsAt pa a ≠ (true, true)) :
    (s.l2Read d pa n a).2 = Mem.rdN s.mem pa n := by
  unfold State.l2Read
  dsimp only
  rw [if_neg (by simp [ha])]
  dsimp only
  rw [(meetKinds_sameBytes hk).1]

theorem map_getD_range (bs : List Byte) : (List.range bs.length).map (fun k => bs.getD k 0) = bs :=
  List.ext_getElem (by simp) (fun k _ h => by rw [List.getElem_map, List.getElem_range]; exact List.getD_eq_getElem _ _ h)

theorem rdN_wrN {m : Mem} (h : m.wf = true) (pa : Nat) (bs : List Byte) : Mem.rdN (Mem.wrN m pa bs) pa bs.length = bs := by
  unfold Mem.rdN
  refine (List.map_congr_left (fun k hk => ?_)).trans (map_getD_range bs)
  have hk := List.mem_range.mp hk
  rw [rd_wrN h, if_pos ⟨Nat.le_add_right .., Nat.add_lt_add_left hk _⟩, Nat.add_sub_cancel_left]

/-- Bytes stored past the L1 and loaded past an L1 that holds none of them dirty. -/
theorem bypassRead_bypassWrite {s : State} (hs : Canonical s) {a : PageAttr} (c e : Nat) {pa : Nat} {bs : List Byte} (has : a.s = false) (hsys : inSystem pa = false)
    (hd : ∀ l ∈ (s.core e).l1, l.line = pa / 128 → ∀ k < bs.length, l.dirty.getLsbD (pa % 128 + k) = false) (ho : OneKind (s.bypassWrite c pa a bs) pa) :
    ((s.bypassWrite c pa a bs).bypassRead e pa bs.length a).2 = bs := by
  have hap : ∀ d, heldApart d pa a = false := fun d => heldApart_plain has hsys
  obtain ⟨hk, hm⟩ := l2Write_home (s := s) (c / 32) bs hsys (hap _) 0
  have hnd : AddsNoDirty s (s.bypassWrite c pa a bs) := addsNoDirty_closed.trans (addsNoDirty_closed.l2Write s (c / 32) pa a bs 0) (l1Update_addsNoDirty _ _ _ _)
  have hz : (s.bypassWrite c pa a bs).kinds = (s.l2Write (c / 32) pa a bs).kinds ∧ (s.bypassWrite c pa a bs).mem = (s.l2Write (c / 32) pa a bs).mem := by
    unfold State.bypassWrite State.l1Update
    split <;> exact ⟨rfl, rfl⟩
  generalize s.bypassWrite c pa a bs = z at ho hnd hz
  have hr := l2Read_home (s := z) (d := e / 32) bs.length (hap _) (kindsAt_again (hz.1.trans hk) ho)
  rw [hz.2, hm, rdN_wrN (meetKinds_canonical hs).1] at hr
  unfold State.bypassRead
  dsimp only
  rw [hr]
  refine overlay_clean (fun l hl hline k hk' => ?_)
  by_cases hl0 : l.dirty = 0
  · simp [hl0]
  · obtain ⟨x, hx, e1, e2, -⟩ := addsNoDirty_closed.trans hnd (addsNoDirty_closed.l2Read z (e / 32) pa bs.length a) e l hl hl0
    rw [← e2]
    exact hd x hx (e1.trans hline) k hk'

-- In one L1

/-- Bytes put into a line of an L1 and marked dirty. -/
def L1Line.put (off : Nat) (bs : List Byte) (l : L1Line) : L1Line :=
  (List.range bs.length).foldl (fun (l : L1Line) i =>
    { l with data := lineSet l.data (off + i) (bs.getD i 0), dirty := l.dirty ||| (1 <<< (off + i)) }) l

theorem L1Line.put_eq (off : Nat) (bs : List Byte) (l : L1Line) : l.put off bs = { l with
    data := (List.range bs.length).foldl (fun x i => lineSet x (off + i) (bs.getD i 0)) l.data
    dirty := (List.range bs.length).foldl (fun (m : BitVec 128) i => m ||| (1 <<< (off + i))) l.dirty } := by
  unfold L1Line.put
  induction bs.length with
  | zero => rfl
  | succ n ih =>
    rw [List.range_succ, List.foldl_append, ih]
    simp [List.foldl_append]

/-- The core's L1 has these bytes from an address on: in a valid sector, or all of them dirty. -/
def L1Serves (s : State) (c pa : Nat) (bs : List Byte) : Prop := ∃ l, s.l1Find c (lineOf pa) = some l
  ∧ (∀ k < bs.length, lineGet l.data (pa % 128 + k) = bs.getD k 0)
  ∧ (l.valid.getLsbD (pa / 32 % 4) = true ∨ ∀ k < bs.length, l.dirty.getLsbD (pa % 128 + k) = true)

theorem l1Alloc_line (s : State) (c line : Nat) (a : PageAttr) (ch : Hint) : (s.l1Alloc c line a ch).2.line = line := by
  unfold State.l1Alloc
  split
  · rename_i l hl
    simpa using List.find?_some hl
  · rfl

/-- A plain store leaves its bytes, dirty, in the line of the core's L1. -/
theorem l1Write_serves (s : State) (c tag : Nat) {pa : Nat} {a : PageAttr} (ha : a.l2Only = false) {ch : Hint} (hch : ch ≠ .bypass) {bs : List Byte}
    (h : pa % 128 + bs.length ≤ 128) : L1Serves (s.l1Write c tag pa a ch bs) c pa bs := by
  unfold State.l1Write
  rw [if_neg (by simp [ha, hch])]
  dsimp only
  have hline := l1Alloc_line s c (lineOf pa) a ch
  generalize s.l1Alloc c (lineOf pa) a ch = r at hline
  have hp := L1Line.put_eq (pa % 128) bs r.2
  unfold L1Line.put at hp
  rw [hp]
  refine ⟨_, l1Find_l1Put r.1 c hline, fun k hk => ?_, .inr (fun k hk => ?_)⟩
  · refine (lineGet_lineSets r.2.data (pa % 128) bs.length (fun i => bs.getD i 0) h (pa % 128 + k)).trans ?_
    rw [if_pos ⟨Nat.le_add_right .., Nat.add_lt_add_left hk _⟩, Nat.add_sub_cancel_left]
  · exact (getLsbD_ors r.2.dirty (pa % 128) bs.length h (pa % 128 + k)).trans (by rw [decide_eq_true ⟨Nat.le_add_right .., Nat.add_lt_add_left hk _⟩]; rfl)

/-- A read in the L1 of bytes that it has: a fill changes none of them. -/
theorem L1Serves.read {s : State} {c pa : Nat} {a : PageAttr} (ha : a.l2Only = false) {ch : Hint} (hch : ch ≠ .bypass) {bs : List Byte} (h : L1Serves s c pa bs) :
    (s.l1Read c pa bs.length a ch).2 = bs := by
  obtain ⟨l, hl, hd, hv⟩ := h
  have hout : (List.range bs.length).map (fun i => lineGet l.data (pa % 128 + i)) = bs :=
    (List.map_congr_left (fun k hk => hd k (List.mem_range.mp hk))).trans (map_getD_range bs)
  unfold State.l1Read
  rw [if_neg (by simp [ha, hch])]
  dsimp only
  unfold State.l1Alloc
  rw [hl]
  dsimp only
  split
  · exact hout
  · rename_i hinv
    refine Eq.trans (List.map_congr_left (fun k hk => ?_)) hout
    exact lineGet_mergeClean_dirty (hv.resolve_left hinv k (List.mem_range.mp hk)) _ _ (fun i hi => sectorBytes_lt (Nat.mod_lt _ (by decide)) hi) _

/-- Settles O29: bytes written past the L1 are in memory, where a read past an L1 finds them; bytes stored in an L1 are dirty there, and a fill keeps them. -/
theorem storedBytesAreRead : Obligations.StoredBytesAreRead := by
  unfold Obligations.StoredBytesAreRead
  intro s a c e pa bs hs hpa
  constructor
  · intro sc sc' ord ord' ch ch' hw hw' ho ho' has hsys hd tag hk
    have hwr : levelWrite sc ord ch c tag s pa a bs = s.bypassWrite c pa a bs := by
      unfold levelWrite
      rw [if_neg (by simp [ho, hw])]
    rw [hwr] at hk ⊢
    unfold levelRead
    rw [if_neg (by simp [ho', hw']), if_neg (by simp [hsys])]
    exact bypassRead_bypassWrite hs c e has hsys hd hk
  · intro sc ch ch' tag ha hch hch' hsec
    unfold levelWrite levelRead
    rw [if_pos (by simp), if_pos (by simp)]
    exact (l1Write_serves s c tag ha hch hpa).read ha hch'

end Sys2Proof.Machine
end

section
/-! Atomics, one by one: an access that is performed alone, the lanes of an atomic and what they leave in their threads (R109, R113, R114, R316). -/
namespace Sys2Proof.Machine

-- An access that is performed alone

theorem exec_complete (id : Nat) (a : Acc) (s : State) :
    exec (if loadClass a then Instr.loadComplete id else Instr.storeComplete id) s = .next (s.completeAcc id (loadClass a)) := by
  cases h : loadClass a <;> rfl

theorem filter_key {ν : Type} {m : Map Nat ν} {k : Nat} {v : ν} (nd : (m.map Prod.fst).Nodup) (h : mget m k = some v) :
    m.filter (fun e => e.1 == k) = [(k, v)] := by
  induction m with
  | nil => cases h
  | cons e m ih =>
    obtain ⟨j, w⟩ := e
    obtain ⟨hn, nd⟩ := List.nodup_cons.mp nd
    by_cases hj : j = k
    · subst hj
      obtain rfl : w = v := by simpa [mget] using h
      rw [List.filter_cons_of_pos (by simp), List.filter_eq_nil_iff.mpr (fun e he => ?_)]
      simpa using fun hk => hn (List.mem_map.mpr ⟨e, he, hk⟩)
    · rw [List.filter_cons_of_neg (by simpa using hj)]
      exact ih nd (by simpa [mget, hj] using h)

/-- An access of several addresses that meets no other RED is performed and, when that is done, is complete. -/
theorem complete_alone {s : State} {id : Nat} {a : Acc} (hd : Due s id a) (nd : (s.accs.map Prod.fst).Nodup) (h1 : oneAddress a.op = false)
    (hm : s.redMates id a = []) : s.completeAcc id (loadClass a) = match s.perform id a with
      | (s', .done) => (s'.passBy a).finish id a
      | (s', .waits) => s'
      | (_, .fault _ _) => s
      | (s', .trap i) => (s'.finish id a).lateTrap a i := by
  obtain ⟨hg, hc, -, hi⟩ := hd
  have hinj : s.injMsgs.any (fun m => m.sti == id) = false := by simpa using hi
  have hlone : s.shareLeaf a = s := by
    unfold State.shareLeaf
    rw [if_pos (by simp [h1])]
  have hhalf : ∀ b, a.halved b = none := by
    intro b
    unfold Acc.halved
    cases ho : a.op <;> simp_all [oneAddress]
  have hone : s.accs.filter (fun e => e.1 == id || lineMate a e.2) = [(id, a)] := by
    rw [← filter_key nd hg]
    exact List.filter_congr (fun e _ => by simp [lineMate, h1])
  unfold State.completeAcc
  rw [hg]
  dsimp only
  rw [if_neg (by simp [hc, hinj]), hlone, hone]
  rw [List.map_cons, List.map_nil, List.foldl_cons, List.foldl_nil]
  unfold State.completeOne State.halfOf
  rw [hg]
  dsimp only
  rw [if_neg (by simp [hc, hinj]), hhalf, hhalf, hm]
  simp only [if_true, ite_self]
  rfl

-- The end of an access

theorem finish_thr {a : Acc} (nd : a.owners.Nodup) (s : State) (id : Nat) (t : ThreadId) :
    (s.finish id a).thr t = if t ∈ a.owners then (s.thr t).map (fun x => x.uncount a.flag) else s.thr t := by
  unfold State.finish
  exact thr_foldl_updThr (fun _ x => x.uncount a.flag) a.owners _ t nd

theorem finish_rest (s : State) (id : Nat) (a : Acc) : s.finish id a = { s with threads := (s.finish id a).threads, accs := mdel s.accs id } := by
  unfold State.finish
  exact rest_foldl_updThr (fun _ x => x.uncount a.flag) a.owners { s with accs := mdel s.accs id }

theorem passBy_rest (s : State) (a : Acc) : s.passBy a = { s with accs := (s.passBy a).accs } := by
  unfold State.passBy
  split <;> rfl

/-- A state with the threads of another. -/
def State.withThreads (f s : State) : State := { f with threads := s.threads }

theorem passBy_withThreads (f s : State) (a : Acc) : (f.withThreads s).passBy a = (f.passBy a).withThreads s := by
  unfold State.passBy
  split <;> rfl

/-- The end of an access changes where its owners stand, and nothing that the memory system holds. -/
theorem finish_passBy_rest (f : State) (id : Nat) (a : Acc) : (f.passBy a).finish id a
    = { f with threads := ((f.passBy a).finish id a).threads, accs := mdel (f.passBy a).accs id } := by
  rw [finish_rest, passBy_rest]

-- What lanes leave in their threads

/-- What one lane that finds m at its place leaves there, and its flags: R113's table. -/
def laneResult (k : AtKind) (w : Nat) (l : AtLane) (m : Nat) : Nat × Fl :=
  let v := l.x.toNat % 2 ^ w
  match k with
  | .cas => ((if m = v then l.y.toNat % 2 ^ w else m), 0)
  | .rmw op => match op.toNat with
    | 0 => ((m + v) % 2 ^ w, 0)
    | 1 => ((if sgn w m ≤ sgn w v then m else v), 0)
    | 2 => ((if sgn w v ≤ sgn w m then m else v), 0)
    | 3 => (min m v, 0)
    | 4 => (max m v, 0)
    | 5 => (m &&& v, 0)
    | 6 => (m ||| v, 0)
    | 7 => (m ^^^ v, 0)
    | 8 => (v, 0)
    | 9 => fpOp (addV .rne) (m, 0) (v, 0)
    | 10 => minMaxF fp32 false m v
    | _ => minMaxF fp32 true m v

/-- It is what the model's lane stores, or what stood there when it stores nothing. -/
theorem laneResult_eq (k : AtKind) (w : Nat) (l : AtLane) (m : Nat) :
    laneResult k w l m = ((laneStores k m l.x l.y w).1.getD m, (laneStores k m l.x l.y w).2) := by
  unfold laneResult laneStores
  cases k with
  | cas => dsimp only; split <;> rfl
  | rmw op =>
    unfold atomicApply
    dsimp only
    generalize op.toNat = j
    match j with
    | 0 | 1 | 2 | 5 | 6 | 7 | 8 | 9 | 10 => rfl
    | 3 => exact Prod.ext (min_def ..) rfl
    | 4 => exact Prod.ext ((max_comm m _).trans (max_def ..)) rfl
    | j + 11 => rfl

/-- The register words of an old value. -/
def laneWords (wide : Bool) (m : Nat) : List Word := if wide then [BitVec.ofNat 32 m, BitVec.ofNat 32 (m / 2 ^ 32)] else [BitVec.ofNat 32 m]

/-- What a lane's thread takes of words and flags. -/
def laneTakes (d : Opnd) (o : List Word × Fl) (x : Thread) : Thread := x.apply { regWrites d o.1 with fsr := o.2 }

theorem wr_laneWords (wide : Bool) (d : Opnd) (m : Nat) :
    (if wide then wr64 d (BitVec.ofNat 64 m) else wr32 d (BitVec.ofNat 32 m)) = regWrites d (laneWords wide m) := by
  cases wide with
  | false => rfl
  | true =>
    have h1 : loW (BitVec.ofNat 64 m) = BitVec.ofNat 32 m := by
      apply BitVec.eq_of_toNat_eq
      simp only [loW, BitVec.toNat_setWidth, BitVec.toNat_ofNat]
      exact Nat.mod_mod_of_dvd m (by decide)
    have h2 : hiW (BitVec.ofNat 64 m) = BitVec.ofNat 32 (m / 2 ^ 32) := by
      apply BitVec.eq_of_toNat_eq
      simp only [hiW, BitVec.toNat_setWidth, BitVec.toNat_ofNat, BitVec.toNat_ushiftRight, Nat.shiftRight_eq_div_pow]
      rw [show 2 ^ 64 = 2 ^ 32 * 2 ^ 32 from rfl, Nat.mod_mul_right_div_self, Nat.mod_mod]
    simp only [if_true, wr64, laneWords, h1, h2]

theorem regWrites_ss {d : Opnd} (hd : d.isS = false) (ws : List Word) : (regWrites d ws).ss = [] := by
  cases d with
  | s n => simp [Opnd.isS] at hd
  | _ => rfl

/-- A returning lane changes its thread alone. -/
theorem atDone_ret (s : State) (wide : Bool) {l : AtLane} (hd : l.d.isS = false) (old : Nat) (fl : Fl) (die : Nat) :
    s.atDone true wide l old fl die = s.updThr l.t (laneTakes l.d (laneWords wide old, fl)) := by
  unfold State.atDone State.putRegs
  rw [if_pos rfl]
  dsimp only
  rw [wr_laneWords, if_pos (by rw [regWrites_ss hd]; rfl)]
  rfl

/-- A lane that returns nothing raises its flags in DASR (R114). -/
theorem atDone_red (s : State) (wide : Bool) (l : AtLane) (old : Nat) (fl : Fl) (die : Nat) :
    s.atDone false wide l old fl die = if fl = 0 then s else s.raiseDasr die (dasrOf fl) := by
  unfold State.atDone
  rw [if_neg (by decide)]

/-- The registers and flags that lanes' threads have: those that `out` gives. -/
def TakesAll (d : Opnd) (out : List (ThreadId × List Word × Fl)) (s z : State) : Prop :=
  ∀ t, z.thr t = (s.thr t).map (fun x => ((mget out t).map (fun o => laneTakes d o x)).getD x)

theorem TakesAll.nil (d : Opnd) {s z : State} (h : z.threads = s.threads) : TakesAll d [] s z := by
  intro t
  rw [State.thr, h]
  exact Option.map_id'.symm

theorem TakesAll.cons {d : Opnd} {out : List (ThreadId × List Word × Fl)} {s m z : State} {t : ThreadId} {o : List Word × Fl} (hn : t ∉ out.map Prod.fst)
    (h : ∀ u, m.thr u = if t = u then (s.thr u).map (laneTakes d o) else s.thr u) (g : TakesAll d out m z) : TakesAll d ((t, o) :: out) s z := by
  intro u
  rw [g u, h u]
  by_cases hu : t = u
  · subst hu
    have hn' : mget out t = none := mget_eq_none (fun e he hk => hn (List.mem_map.mpr ⟨e, he, hk⟩))
    rw [if_pos rfl, Option.map_map, hn']
    refine congrFun (congrArg _ (funext fun x => ?_)) _
    simp [mget]
  · rw [if_neg hu]
    refine congrFun (congrArg _ (funext fun x => ?_)) _
    simp [mget, hu]

theorem laneTakes_regs {d : Opnd} (hd : d.isS = false) (o : List Word × Fl) (x : Thread) (hf : ∀ n, d = .v n → n.val + o.1.length ≤ x.regs.length) :
    { laneTakes d o x with regs := x.regs, fsr := x.fsr } = x ∧ (laneTakes d o x).fsr = x.fsr ||| o.2
      ∧ ∀ k, (laneTakes d o x).regs.getD k 0 = afterV d o.1 (fun k => x.regs.getD k 0) k := by
  cases d with
  | v n => exact ⟨rfl, rfl, fun k => set_run_getD o.1 n.val x.regs k (hf n rfl)⟩
  | s n => simp [Opnd.isS] at hd
  | _ => exact ⟨rfl, rfl, fun _ => rfl⟩

theorem uncount_keeps (w x : Thread) (f : Option Nat) : (w.uncount f).regs = w.regs ∧ (w.uncount f).fsr = w.fsr
    ∧ { w.uncount f with regs := x.regs, fsr := x.fsr } = Thread.uncount { w with regs := x.regs, fsr := x.fsr } f := by
  cases f <;> exact ⟨rfl, rfl, rfl⟩

theorem afterV_nil (d : Opnd) (old : Nat → Word) (k : Nat) : afterV d [] old k = old k := by
  unfold afterV
  split
  · rw [if_neg (by simp)]
  · rfl

/-- The lanes of a returning atomic are complete once their threads have taken what they read. -/
theorem lanesComplete_of {s f : State} {id : Nat} {a : Acc} {d : Opnd} {out : List (ThreadId × List Word × Fl)} (nd : a.owners.Nodup) (hd : d.isS = false)
    (hf : ∀ t x o, s.thr t = some x → mget out t = some o → ∀ n, d = .v n → n.val + o.1.length ≤ x.regs.length) (h : TakesAll d out s f) :
    LanesComplete ((f.withThreads s).passBy a) ((f.passBy a).finish id a) id a d out := by
  have hfin : ∀ t, ((f.passBy a).finish id a).thr t = if t ∈ a.owners then (f.thr t).map (fun x => x.uncount a.flag) else f.thr t := fun t => by
    rw [finish_thr nd, show (f.passBy a).thr t = f.thr t by rw [passBy_rest]; rfl]
  rw [passBy_withThreads]
  refine ⟨?_, fun t ht => ?_, fun t x hx => ?_⟩
  · exact finish_rest (f.passBy a) id a
  · have ht : s.thr t = none := ht
    rw [hfin, h t, ht]
    split <;> rfl
  · have hx : s.thr t = some x := hx
    have hu := fun w => uncount_keeps w x a.flag
    rw [hfin, h t, hx]
    cases ho : mget out t with
    | none =>
      refine ⟨if t ∈ a.owners then x.uncount a.flag else x, ?_, ?_, ?_, ?_⟩
      · split <;> rfl
      · split
        · exact (hu x).2.2
        · rfl
      · split
        · exact (hu x).2.1.trans (by simp)
        · simp
      · intro k
        refine Eq.trans ?_ (afterV_nil d _ k).symm
        split
        · rw [(hu x).1]
        · rfl
    | some o =>
      obtain ⟨h1, h2, h3⟩ := laneTakes_regs hd o x (hf t x o hx ho)
      refine ⟨if t ∈ a.owners then (laneTakes d o x).uncount a.flag else laneTakes d o x, ?_, ?_, ?_, ?_⟩
      · split <;> rfl
      · split
        · rw [(hu _).2.2, h1]
        · exact h1
      · refine Eq.trans ?_ h2
        split
        · exact (hu _).2.1
        · rfl
      · intro k
        refine Eq.trans ?_ (h3 k)
        split
        · rw [(hu _).1]
        · rfl

/-- An access that gives its threads nothing is complete once it is performed. -/
theorem completes_of {s f : State} {id : Nat} {a : Acc} (nd : a.owners.Nodup) (h : f.threads = s.threads) :
    Completes ((f.withThreads s).passBy a) ((f.passBy a).finish id a) id a .z [] := by
  have hfin : ∀ t, ((f.passBy a).finish id a).thr t = if t ∈ a.owners then (s.thr t).map (fun x => x.uncount a.flag) else s.thr t := fun t => by
    rw [finish_thr nd, show (f.passBy a).thr t = s.thr t by rw [passBy_rest]; exact congrArg (mget · t) h]
  have hg : ((f.passBy a).finish id a).groups = (f.passBy a).groups := by rw [finish_rest]
  rw [passBy_withThreads]
  refine ⟨?_, fun t ht => ?_, fun t x hx => ?_, fun g hg' => ?_, fun g x hx => ?_⟩
  · rw [hg]
    exact finish_rest (f.passBy a) id a
  · have ht : s.thr t = none := ht
    rw [hfin, ht]
    split <;> rfl
  · have hx : s.thr t = some x := hx
    obtain ⟨h1, h2, h3⟩ := uncount_keeps x x a.flag
    rw [hfin, hx, show x.fsr ||| 0 = x.fsr from BitVec.or_zero, ite_self]
    dsimp only
    by_cases ho : t ∈ a.owners
    · rw [if_pos ho, if_pos ho]
      exact ⟨_, rfl, h3, h2, fun k => by rw [h1, afterV_nil, ite_self]⟩
    · rw [if_neg ho, if_neg ho]
      exact ⟨_, rfl, rfl, rfl, fun k => by rw [afterV_nil, ite_self]⟩
  · exact (congrArg (mget · g) hg).trans hg'
  · exact ⟨x, (congrArg (mget · g) hg).trans hx, rfl, fun k => by split <;> rfl⟩

end Sys2Proof.Machine
end

section
/-! Atomics at their place: what the reads and writes of R109 leave as it was, and what a read finds there (R85, R87, R105, R109). -/
namespace Sys2Proof.Machine

-- The L1s, once for all

namespace L1Closed
variable {R : State → State → Prop}

theorem l1Del (h : L1Closed R) (s : State) (c line : Nat) : R s (s.l1Del c line) := h.core _ _ _ (fun _ => rfl)

theorem l1Flush (h : L1Closed R) (s : State) (c line : Nat) : R s (s.l1Flush c line) := by
  unfold State.l1Flush
  split
  · exact h.refl s
  · exact h.trans (h.l1WriteBack ..) (h.l1Del ..)

theorem l1Pass (h : L1Closed R) (s : State) (c line k : Nat) : R s (s.l1Pass c line k).1 := by
  induction k generalizing s with
  | zero => exact h.bump s
  | succ k ih =>
    unfold State.l1Pass
    dsimp only
    split
    · exact h.trans (h.trans (h.bump s) (h.l1Put ..)) (ih _)
    · exact h.bump s

theorem l1Way (h : L1Closed R) (s : State) (c line : Nat) : R s (s.l1Way c line).1 := by
  unfold State.l1Way
  split
  · exact h.refl s
  · have hr : R s (match (s.l1Set c line).find? (fun (l : L1Line) => l.rank == Hint.stream) with
        | some l => (s, l.way)
        | none => s.l1Pass c line (8 - s.quota c)).1 := by
      split
      · exact h.refl s
      · exact h.l1Pass ..
    dsimp only
    split
    · exact hr
    · exact h.trans hr (h.trans (h.l1WriteBack ..) (h.l1Del ..))

theorem l1Alloc (h : L1Closed R) (s : State) (c line : Nat) (a : PageAttr) (ch : Hint) : R s (s.l1Alloc c line a ch).1 := by
  unfold State.l1Alloc
  split
  · exact h.refl s
  · exact h.l1Way ..

theorem l1Refresh (h : L1Closed R) (s : State) (c pa : Nat) (bs : List Byte) : R s (s.l1Refresh c pa bs) := by
  unfold State.l1Refresh
  split
  · exact h.refl s
  · exact h.l1Put ..

theorem l1Update (h : L1Closed R) (s : State) (c pa : Nat) (bs : List Byte) : R s (s.l1Update c pa bs) := by
  unfold State.l1Update
  split
  · exact h.refl s
  · exact h.l1Put ..

theorem bypassRead (h : L1Closed R) (s : State) (c pa n : Nat) (a : PageAttr) : R s (s.bypassRead c pa n a).1 :=
  h.trans (h.l2Read s (c / 32) pa n a) (h.l1Refresh ..)

theorem bypassWrite (h : L1Closed R) (s : State) (c pa : Nat) (a : PageAttr) (bs : List Byte) (keep : BitVec 32) : R s (s.bypassWrite c pa a bs keep) :=
  h.trans (h.l2Write s (c / 32) pa a bs keep) (h.l1Update ..)

theorem l1Read (h : L1Closed R) (s : State) (c pa n : Nat) (a : PageAttr) (ch : Hint) : R s (s.l1Read c pa n a ch).1 := by
  unfold State.l1Read
  split
  · exact h.bypassRead ..
  · dsimp only
    refine h.trans (h.l1Alloc s c (lineOf pa) a ch) ?_
    split
    · exact h.l1Put ..
    · exact h.trans (h.l2Read _ (c / 32) _ 32 a) (h.l1Put ..)

theorem l1Write (h : L1Closed R) (s : State) (c tag pa : Nat) (a : PageAttr) (ch : Hint) (bs : List Byte) : R s (s.l1Write c tag pa a ch bs) := by
  unfold State.l1Write
  split
  · exact h.bypassWrite ..
  · exact h.trans (h.l1Alloc s c (lineOf pa) a ch) (h.l1Put ..)

theorem l2Drop (h : L1Closed R) (s : State) (d line : Nat) : R s (s.l2Drop d line) :=
  h.trans (h.trans (h.invalCopies s d line 0) (h.l2WriteBack _ d line _)) (h.die _ d (fun x => { x with l2 := mdel x.l2 line }) (fun _ => rfl))

theorem atRead (h : L1Closed R) (s : State) (c pa n : Nat) (a : PageAttr) (p : AtPlace) : R s (s.atRead c pa n a p).1 := by
  cases p with
  | l1 => exact h.l1Read ..
  | l2 => exact h.trans (h.l1Flush s c (lineOf pa)) (h.l2Read ..)
  | home =>
    have hd : R (s.l1Flush c (lineOf pa)) (if heldApart (c / 32) pa a = true then (s.l1Flush c (lineOf pa)).l2Drop (c / 32) (lineOf pa) else s.l1Flush c (lineOf pa)) := by
      split
      · exact h.l2Drop ..
      · exact h.refl _
    unfold State.atRead
    dsimp only
    generalize (if heldApart (c / 32) pa a = true then (s.l1Flush c (lineOf pa)).l2Drop (c / 32) (lineOf pa) else s.l1Flush c (lineOf pa)) = u at hd
    refine h.trans (h.l1Flush s c (lineOf pa)) (h.trans hd ?_)
    split
    · exact h.dirTouch ..
    · exact h.refl _

theorem atWrite (h : L1Closed R) (s : State) (c tag pa : Nat) (a : PageAttr) (p : AtPlace) (bs : List Byte) : R s (s.atWrite c tag pa a p bs) := by
  cases p with
  | l1 => exact h.l1Write ..
  | l2 => exact h.l2Write ..
  | home => exact h.homeWrite ..

theorem releaseTags (h : L1Closed R) (s : State) (c : Nat) (tags : List Nat) (sc : Scope) : R s (s.releaseTags c tags sc) :=
  h.foldl _ (fun s t => h.release s c t sc) _ _

end L1Closed

/-- DASR of every die is the same. -/
def SameDasr (s z : State) : Prop := ∀ d, (z.die d).dasr = (s.die d).dasr

theorem sameDasr_closed : L1Closed SameDasr where
  refl _ _ := rfl
  trans h g d := (g d).trans (h d)
  dropCopy s c line d := by
    unfold State.dropCopy
    split <;> rfl
  die s d f hf e := by
    rw [die_updDie]
    split
    · rw [hf]
    · rfl
  rest _ _ _ _ _ _ _ _ := rfl
  core _ _ _ _ _ := rfl

theorem atRead_only {s : State} (hs : Canonical s) (c pa n : Nat) (a : PageAttr) (p : AtPlace) : MemoryOnly s (s.atRead c pa n a p).1 :=
  ⟨memoryOnly_closed.atRead s c pa n a p, fun _ => (atRead_canonical hs).1⟩

theorem atWrite_only {s : State} (hs : Canonical s) (c tag pa : Nat) (a : PageAttr) (p : AtPlace) (bs : List Byte) : MemoryOnly s (s.atWrite c tag pa a p bs) :=
  ⟨memoryOnly_closed.atWrite s c tag pa a p bs, fun _ => (atWrite_canonical hs).1⟩

-- A line that nothing holds dirty

/-- Neither the core's L1 nor its die's L2 holds a byte of the line dirty. -/
def LineClean (s : State) (c pa : Nat) : Prop := (∀ m ∈ dirtyLines s c, m.line ≠ pa / 128) ∧ ∀ x, x / 128 = pa / 128 → heldByte s (c / 32) x = none

theorem lineClean_of {s : State} {c pa : Nat} (h : CleanLine s c pa) : LineClean s c pa := by
  have hb : ∀ x, x / 128 = pa / 128 → CleanAt s (fun d => d = c) x := fun x hx => by
    have := h (x % 128) (mod_line x)
    rwa [Nat.mul_comm, line_eq hx] at this
  refine ⟨fun m hm he => ?_, fun x hx => ?_⟩
  · obtain ⟨l, hl, hd, rfl⟩ := mem_dirtyLines.mp hm
    refine hd (BitVec.eq_of_getLsbD_eq (fun k hk => ?_))
    have he : l.line = pa / 128 := he
    have := (hb (128 * (pa / 128) + k) (line_div _ hk) c rfl).1 l hl (he.trans (line_div _ hk).symm)
    rw [line_mod _ hk] at this
    simpa using this
  · rw [heldByte, dirtyIn]
    cases hy : mget (s.die (c / 32)).l2 (x / 128) with
    | none => rfl
    | some y => rw [Option.bind_some, (hb x hx c rfl).2 y hy]; rfl

/-- A step after which a core and its die hold dirty no more than before. -/
def KeepsClean (c : Nat) (s z : State) : Prop := (∀ m ∈ dirtyLines z c, m ∈ dirtyLines s c) ∧ ∀ x, heldByte s (c / 32) x = none → heldByte z (c / 32) x = none

theorem KeepsClean.refl (c : Nat) (s : State) : KeepsClean c s s := ⟨fun _ h => h, fun _ h => h⟩

theorem KeepsClean.trans {c : Nat} {a b z : State} (h : KeepsClean c a b) (g : KeepsClean c b z) : KeepsClean c a z :=
  ⟨fun m hm => h.1 m (g.1 m hm), fun x hx => g.2 x (h.2 x hx)⟩

theorem KeepsClean.line {c pa : Nat} {s z : State} (h : KeepsClean c s z) (hs : LineClean s c pa) : LineClean z c pa :=
  ⟨fun m hm => hs.1 m (h.1 m hm), fun x hx => h.2 x (hs.2 x hx)⟩

theorem keepsClean_of {c : Nat} {s z : State} (h : SameDirty s z) (g : ∀ x, Steady (c / 32) x s z) : KeepsClean c s z :=
  ⟨fun _ hm => h c ▸ hm, fun x => (g x).clean trivial⟩

/-- Releases leave a clean line clean. -/
theorem releaseTags_lineClean {s : State} (hs : Canonical s) {c pa : Nat} (tags : List Nat) (sc : Scope) (h : LineClean s c pa) :
    LineClean (s.releaseTags c tags sc) c pa := by
  unfold State.releaseTags
  by_cases hw : Scope.wide sc = true
  · simp only [State.release, hw, if_true]
    refine ⟨fun m hm => h.1 m (releases_left (after_id c) tags.eraseDups hs hm).1, fun x hx => ?_⟩
    refine (releases_steady (after_id c) tags.eraseDups hs (x := x) (fun m hm hmx => h.1 _ hm ?_)).clean trivial (h.2 x hx)
    exact hmx.1.symm.trans hx
  · simp only [State.release, hw, Bool.false_eq_true, if_false]
    rw [List.foldl_fixed]
    exact h

-- The flush of a line

/-- After its flush the core's L1 does not hold the line. -/
theorem l1Flush_gone (s : State) (c n : Nat) : ∀ m ∈ dirtyLines (s.l1Flush c n) c, m.line ≠ n := by
  intro m hm
  obtain ⟨y, hy, -, rfl⟩ := mem_dirtyLines.mp hm
  unfold State.l1Flush at hy
  cases hf : s.l1Find c n with
  | none =>
    rw [hf] at hy
    simpa using List.find?_eq_none.mp hf y hy
  | some l =>
    rw [hf] at hy
    unfold State.l1Del at hy
    rw [core_updCore, if_pos rfl] at hy
    simpa using (List.mem_filter.mp hy).2

/-- The flush of a line that holds nothing dirty only drops it. -/
theorem l1Flush_clean {s : State} {c n : Nat} (h : ∀ m ∈ dirtyLines s c, m.line ≠ n) :
    (s.l1Flush c n).mem = s.mem ∧ (s.l1Flush c n).kinds = s.kinds ∧ (s.l1Flush c n).dies = s.dies ∧ SameDirty s (s.l1Flush c n) := by
  unfold State.l1Flush
  cases hf : s.l1Find c n with
  | none => exact ⟨rfl, rfl, rfl, fun _ => rfl⟩
  | some l =>
    have hl : l.line = n := by simpa using List.find?_some hf
    have hd : l.dirty = 0 := by
      by_contra hd
      exact h _ (mem_dirtyLines.mpr ⟨l, List.mem_of_find?_eq_some hf, hd, rfl⟩) hl
    dsimp only
    rw [State.l1WriteBack, if_pos hd]
    refine ⟨rfl, rfl, rfl, fun e => ?_⟩
    unfold dirtyLines State.l1Del
    rw [core_updCore]
    split
    · rename_i he
      subst he
      dsimp only
      rw [List.filter_comm, List.filter_eq_self.mpr]
      intro y hy
      obtain ⟨hy, hyd⟩ := List.mem_filter.mp hy
      simpa using h _ (mem_dirtyLines.mpr ⟨y, hy, by simpa using hyd, rfl⟩)
    · rfl

-- At the home

/-- A copy that holds nothing dirty goes without a change of memory. -/
theorem l2Drop_clean {s : State} (hs : Canonical s) {d line : Nat} (h : ∀ x, x / 128 = line → heldByte s d x = none) (k : Nat) :
    Mem.rd (s.l2Drop d line).mem k = Mem.rd s.mem k := by
  obtain ⟨hm, -, hl2⟩ := invalCopies_sameBytes s d line 0
  have hc : Canonical (s.invalCopies d line) := invalCopies_canonical hs
  unfold State.l2Drop
  rw [← hm]
  generalize s.invalCopies d line = u at hl2 hc
  show Mem.rd (u.l2WriteBack d line (BitVec.allOnes 128)).mem k = Mem.rd u.mem k
  unfold State.l2WriteBack
  cases hl : mget (u.die d).l2 line with
  | none => rfl
  | some l =>
    refine ((maskedHome u hc line l.data (l.dirty &&& BitVec.allOnes 128)).2.2.2 k).trans (if_neg ?_)
    rintro ⟨hk, hb⟩
    have hn := h k hk
    rw [heldByte, dirtyIn_of_some (l := l) (by rw [hk, ← hl2, hl])] at hn
    rw [BitVec.getLsbD_and, Bool.and_eq_true] at hb
    rw [if_pos hb.1] at hn
    cases hn

theorem homeWrite_keepsClean (c : Nat) (s : State) (pa : Nat) (bs : List Byte) : KeepsClean c s (s.homeWrite pa bs) :=
  ⟨fun _ hm => sameDirty_closed.homeWrite s pa bs 4 0 c ▸ hm, fun x hx => by rw [heldByte, homeWrite_l2]; exact hx⟩

/-- A read at the home of a line that nothing holds dirty: memory reads as before, and the bytes are those that stand there. -/
theorem atRead_home {s : State} (hs : Canonical s) {c pa : Nat} (n : Nat) (a : PageAttr) (h : LineClean s c pa) :
    (∀ k, Mem.rd (s.atRead c pa n a .home).1.mem k = Mem.rd s.mem k) ∧ (s.atRead c pa n a .home).2 = Mem.rdN s.mem pa n
      ∧ KeepsClean c s (s.atRead c pa n a .home).1 := by
  obtain ⟨h1, -, h3, h4⟩ := l1Flush_clean h.1 (n := lineOf pa)
  have hc : Canonical (s.l1Flush c (lineOf pa)) := l1Flush_canonical hs
  have hhb : ∀ x, heldByte (s.l1Flush c (lineOf pa)) (c / 32) x = heldByte s (c / 32) x := fun x => by rw [heldByte, State.die, h3]; rfl
  have hflush : KeepsClean c s (s.l1Flush c (lineOf pa)) := ⟨fun m hm => h4 c ▸ hm, fun x hx => (hhb x).trans hx⟩
  have hdrop : ∀ u, u = (if heldApart (c / 32) pa a = true then (s.l1Flush c (lineOf pa)).l2Drop (c / 32) (lineOf pa) else s.l1Flush c (lineOf pa)) →
      (∀ k, Mem.rd u.mem k = Mem.rd s.mem k) ∧ KeepsClean c (s.l1Flush c (lineOf pa)) u := by
    intro u hu
    subst hu
    split
    · refine ⟨fun k => (l2Drop_clean hc (fun x hx => (hhb x).trans (h.2 x hx)) k).trans (by rw [h1]), keepsClean_of ?_ (fun x => l2Drop_steady hc (c / 32) x _)⟩
      unfold State.l2Drop
      exact (sameDirty_closed.invalCopies _ _ _ 0).trans ((sameDirty_closed.l2WriteBack _ _ _ _).trans (sameDirty_closed.die _ _ _ (fun _ => rfl)))
    · exact ⟨fun k => by rw [h1], .refl ..⟩
  unfold State.atRead
  dsimp only
  generalize (if heldApart (c / 32) pa a = true then (s.l1Flush c (lineOf pa)).l2Drop (c / 32) (lineOf pa) else s.l1Flush c (lineOf pa)) = u at hdrop
  obtain ⟨g1, g2⟩ := hdrop u rfl
  have hrd : Mem.rdN u.mem pa n = Mem.rdN s.mem pa n := List.map_congr_left (fun k _ => g1 _)
  split
  · have hb := dirTouch_sameBytes u ((homeDie pa).getD (c / 32)) pa true
    exact ⟨fun k => by rw [hb.mem]; exact g1 k, hrd, hflush.trans (g2.trans (keepsClean_of (sameDirty_closed.dirTouch _ _ _ _) (fun x => hb.steady _ x)))⟩
  · exact ⟨g1, hrd, hflush.trans g2⟩

-- In the die's L2

/-- A read at the L2 level of the die finds these bytes: in its own copy, in a valid sector or all of them dirty, or else at the home. -/
def L2Serves (s : State) (d pa : Nat) (a : PageAttr) (bs : List Byte) : Prop :=
  (heldApart d pa a = true → ∃ l, mget (s.die d).l2 (pa / 128) = some l ∧ (∀ k < bs.length, lineGet l.data (pa % 128 + k) = bs.getD k 0)
    ∧ (l.valid.getLsbD (pa / 32 % 4) = true ∨ ∀ k < bs.length, l.dirty.getLsbD (pa % 128 + k) = true))
  ∧ (heldApart d pa a = false → Mem.rdN s.mem pa bs.length = bs)

theorem L2Serves.later {s z : State} {d pa : Nat} {a : PageAttr} {bs : List Byte} (h : L2Serves s d pa a bs) (hm : z.mem = s.mem) (hl : (z.die d).l2 = (s.die d).l2) :
    L2Serves z d pa a bs := ⟨fun ha => by rw [hl]; exact h.1 ha, fun ha => by rw [hm]; exact h.2 ha⟩

theorem l2Room_held {s : State} {d line : Nat} {l : L2Line} (h : mget (s.die d).l2 line = some l) : s.l2Room d line = s := by
  unfold State.l2Room
  dsimp only
  rw [if_pos]
  rw [Bool.or_eq_true]
  exact .inr (List.any_eq_true.mpr ⟨_, mem_of_mget h, by simp⟩)

/-- A read at the L2 level of bytes that it serves: a fill changes none of them. -/
theorem L2Serves.read {s : State} {d pa : Nat} {a : PageAttr} {bs : List Byte} (h : L2Serves s d pa a bs) (hk : s.kindsAt pa a ≠ (true, true)) :
    (s.l2Read d pa bs.length a).2 = bs := by
  by_cases ha : heldApart d pa a = true
  · obtain ⟨l, hl, hb, hv⟩ := h.1 ha
    have hout : (List.range bs.length).map (fun i => lineGet l.data (pa % 128 + i)) = bs :=
      (List.map_congr_left (fun k hk => hb k (List.mem_range.mp hk))).trans (map_getD_range bs)
    have hdies := (meetKinds_sameBytes hk).2
    unfold State.l2Read
    dsimp only
    generalize s.meetKinds pa a = u at hdies
    have hu : mget (u.die d).l2 (pa / 128) = some l := by rw [State.die, hdies]; exact hl
    rw [if_pos ha]
    unfold State.l2Fill
    dsimp only
    rw [l2Room_held (line := lineOf pa) hu, show mget (u.die d).l2 (lineOf pa) = some l from hu, Option.getD_some]
    by_cases hval : l.valid.getLsbD (pa / 32 % 4) = true
    · rw [if_pos hval, show mget (u.die d).l2 (lineOf pa) = some l from hu]
      exact hout
    · rw [if_neg hval, die_updDie, if_pos ⟨rfl, lt_dies_of_mget hu⟩]
      dsimp only
      rw [mget_mput_self, Option.getD_some]
      refine Eq.trans (List.map_congr_left (fun k hk => ?_)) hout
      exact lineGet_mergeClean_dirty (hv.resolve_left hval k (List.mem_range.mp hk)) _ _ (fun i hi => sectorBytes_lt (Nat.mod_lt _ (by decide)) hi) _
  · rw [Bool.not_eq_true] at ha
    rw [l2Read_home _ ha hk, h.2 ha]

/-- What a read at the L2 level of a part of one sector has given it goes on to give. -/
theorem l2Read_serves {s : State} (hs : Canonical s) {d : Nat} (hd : d < 4) (pa n : Nat) (a : PageAttr) :
    L2Serves (s.l2Read d pa n a).1 d pa a (s.l2Read d pa n a).2 := by
  have hc : Canonical (s.meetKinds pa a) := meetKinds_canonical hs
  unfold State.l2Read
  dsimp only
  generalize s.meetKinds pa a = u at hc
  by_cases ha : heldApart d pa a = true
  · rw [if_pos ha]
    dsimp only
    refine ⟨fun _ => ?_, fun h => absurd (ha.symm.trans h) (by decide)⟩
    have hcr : Canonical (u.l2Room d (lineOf pa)) := l2Room_canonical hc
    unfold State.l2Fill
    dsimp only
    generalize u.l2Room d (lineOf pa) = v at hcr
    have hlen : d < v.dies.length := by rw [hcr.2.2.2.2]; exact hd
    have hline : pa / 128 = lineOf pa := rfl
    rw [hline]
    split
    · rename_i hval
      cases hm : mget (v.die d).l2 (lineOf pa) with
      | none => rw [hm] at hval; simp at hval
      | some l =>
        rw [hm] at hval
        exact ⟨l, rfl, fun k hk => by simp at hk; simp [hk], .inl hval⟩
    · rw [die_updDie, if_pos ⟨rfl, hlen⟩]
      dsimp only
      rw [mget_mput_self]
      refine ⟨_, rfl, fun k hk => by simp at hk; simp [hk], .inl ?_⟩
      dsimp only
      rw [getLsbD_or_one _ (Nat.mod_lt _ (by decide)), decide_eq_true rfl, Bool.true_or]
  · rw [if_neg ha]
    refine ⟨fun h => absurd h ha, fun _ => ?_⟩
    dsimp only
    have hm : (if a.c then u.dirTouch d pa false else u).mem = u.mem := by
      split
      · exact (dirTouch_sameBytes ..).mem
      · rfl
    rw [hm]
    simp [Mem.rdN]

/-- What is written at the L2 level is served there. -/
theorem l2Write_serves {s : State} (hs : Canonical s) {d : Nat} (hd : d < 4) {pa : Nat} (a : PageAttr) {bs : List Byte} (hsys : inSystem pa = false)
    (h : pa % 128 + bs.length ≤ 128) : L2Serves (s.l2Write d pa a bs) d pa a bs := by
  refine ⟨fun ha => ?_, fun ha => ?_⟩
  · have hc : Canonical (s.meetKinds pa a) := meetKinds_canonical hs
    unfold State.l2Write
    dsimp only
    generalize s.meetKinds pa a = u at hc
    rw [if_neg (by simp [hsys]), if_pos ha]
    have hcr : Canonical ((u.invalCopies d (lineOf pa)).l2Room d (lineOf pa)) := l2Room_canonical (invalCopies_canonical hc)
    generalize (u.invalCopies d (lineOf pa)).l2Room d (lineOf pa) = v at hcr
    rw [die_updDie, if_pos ⟨rfl, by rw [hcr.2.2.2.2]; exact hd⟩]
    dsimp only
    refine ⟨_, mget_mput_self .., fun k hk => ?_, .inr (fun k hk => ?_)⟩
    · refine (L2Line.put_data true h _ (pa % 128 + k)).trans ?_
      rw [if_pos ⟨Nat.le_add_right .., Nat.add_lt_add_left hk _⟩, Nat.add_sub_cancel_left]
    · refine (L2Line.put_dirty true h _ (pa % 128 + k)).trans ?_
      rw [decide_eq_true ⟨Nat.le_add_right .., Nat.add_lt_add_left hk _⟩]
      rfl
  · rw [(l2Write_home d bs hsys ha 0).2]
    exact rdN_wrN (meetKinds_canonical hs).1 pa bs

-- The kinds of page through which the line has been reached

theorem maskedHome_kinds (s : State) (line : Nat) (x : BitVec 1024) (m : BitVec 128) :
    (State.maskedWrite (fun s a b => s.homeWrite a b) s line x m).kinds = s.kinds := by
  unfold State.maskedWrite
  refine foldl_keeps _ State.kinds _ (fun s i _ => ?_) s
  split
  · exact homeWrite_kinds ..
  · rfl

theorem l2WriteBack_kinds (s : State) (d line : Nat) (m : BitVec 128) : (s.l2WriteBack d line m).kinds = s.kinds := by
  unfold State.l2WriteBack
  cases mget (s.die d).l2 line with
  | none => rfl
  | some l =>
    dsimp only
    have h := maskedHome_kinds s line l.data (l.dirty &&& m)
    generalize State.maskedWrite (fun s a b => s.homeWrite a b) s line l.data (l.dirty &&& m) = u at h
    exact h

theorem l2Room_kinds (s : State) (d line : Nat) : (s.l2Room d line).kinds = s.kinds := by
  unfold State.l2Room
  dsimp only
  split
  · rfl
  · split
    · rfl
    · unfold State.evict
      split
      · rfl
      · exact l2WriteBack_kinds ..

theorem l2Read_kinds (s : State) (d pa n : Nat) (a : PageAttr) : (s.l2Read d pa n a).1.kinds = (s.meetKinds pa a).kinds := by
  unfold State.l2Read
  dsimp only
  generalize s.meetKinds pa a = u
  split
  · unfold State.l2Fill
    dsimp only
    split
    · exact l2Room_kinds ..
    · exact l2Room_kinds u d (lineOf pa)
  · dsimp only
    split
    · exact (dirTouch_sameBytes ..).kinds
    · rfl

theorem l2Write_kinds (s : State) (d pa : Nat) (a : PageAttr) (bs : List Byte) (hsys : inSystem pa = false) :
    (s.l2Write d pa a bs).kinds = (s.meetKinds pa a).kinds := by
  by_cases ha : heldApart d pa a = true
  · unfold State.l2Write
    dsimp only
    generalize s.meetKinds pa a = u
    rw [if_neg (by simp [hsys]), if_pos ha]
    exact (l2Room_kinds (u.invalCopies d (lineOf pa)) d (lineOf pa)).trans (invalCopies_sameBytes u d (lineOf pa) 0).kinds
  · exact (l2Write_home d bs hsys (by simpa using ha) 0).1

-- In the L1

/-- What a read in the L1 of a part of one sector has given it goes on to give. -/
theorem l1Read_serves {s : State} {c pa : Nat} {a : PageAttr} (ha : a.l2Only = false) {ch : Hint} (hch : ch ≠ .bypass) (n : Nat) :
    L1Serves (s.l1Read c pa n a ch).1 c pa (s.l1Read c pa n a ch).2 := by
  unfold State.l1Read
  rw [if_neg (by simp [ha, hch])]
  dsimp only
  have hline := l1Alloc_line s c (lineOf pa) a ch
  generalize s.l1Alloc c (lineOf pa) a ch = r at hline
  split
  · rename_i hval
    exact ⟨_, l1Find_l1Put _ c hline, fun k hk => by simp at hk; simp [hk], .inl hval⟩
  · refine ⟨_, l1Find_l1Put _ c hline, fun k hk => by simp at hk; simp [hk], .inl ?_⟩
    dsimp only
    rw [getLsbD_or_one _ (Nat.mod_lt _ (by decide)), decide_eq_true rfl, Bool.true_or]

theorem L1Serves.later {s z : State} {c pa : Nat} {bs : List Byte} (h : L1Serves s c pa bs) (hz : z.cores = s.cores) : L1Serves z c pa bs := by
  unfold L1Serves State.l1Find State.core at h ⊢
  rw [hz]
  exact h

/-- A store to a line that the L1 has changes the L1 alone. -/
theorem l1Write_found {s : State} {c tag pa : Nat} {a : PageAttr} (ha : a.l2Only = false) {ch : Hint} (hch : ch ≠ .bypass) (bs : List Byte) {l : L1Line}
    (h : s.l1Find c (lineOf pa) = some l) : ∃ l', s.l1Write c tag pa a ch bs = s.l1Put c l' := by
  unfold State.l1Write State.l1Alloc
  rw [if_neg (by simp [ha, hch]), h]
  exact ⟨_, rfl⟩

end Sys2Proof.Machine
end

section
/-! The lanes of an atomic, one after another (R109, R113, R114, R316, R317, R322). -/
namespace Sys2Proof.Machine

-- Threads and memory

theorem ThreadsAndMemory.only {s z : State} (h : ThreadsAndMemory s z) : MemoryOnly s { z with threads := s.threads } := by
  obtain ⟨u, hu, hz⟩ := h
  have hzu : { z with threads := s.threads } = u := by rw [hz, ← hu.threads]
  rwa [hzu]

theorem ThreadsAndMemory.withThreads {s v z : State} (h : ThreadsAndMemory v z) (e : v.threads = s.threads) : MemoryOnly v (z.withThreads s) := by
  have := h.only
  rwa [e] at this

theorem MemoryOnly.andThreads {s z : State} (h : MemoryOnly s { z with threads := s.threads }) : ThreadsAndMemory s z := ⟨_, h, rfl⟩

theorem ThreadsAndMemory.trans {a b z : State} (h : ThreadsAndMemory a b) (g : ThreadsAndMemory b z) : ThreadsAndMemory a z := by
  refine MemoryOnly.andThreads (h.only.trans ?_)
  obtain ⟨g1, g2⟩ := g.only
  refine ⟨?_, g2⟩
  have := congrArg (fun u : State => { u with threads := a.threads }) g1
  exact this

theorem MemoryOnly.threadsToo {s z : State} (h : MemoryOnly s z) : ThreadsAndMemory s z := ⟨z, h, rfl⟩

theorem ThreadsAndMemory.wgs {s z : State} (h : ThreadsAndMemory s z) : z.wgs = s.wgs := h.only.wgs

theorem ThreadsAndMemory.coreOf {s z : State} (h : ThreadsAndMemory s z) (t : ThreadId) : z.coreOf t = s.coreOf t := h.only.coreOf t

/-- What one lane leaves in its thread, or in DASR of a die. -/
structure LaneStep (ret : Bool) (l : AtLane) (o : List Word × Fl) (die : Nat) (s z : State) : Prop where
  takes : ret = true → ∀ u, z.thr u = if l.t = u then (s.thr u).map (laneTakes l.d o) else s.thr u
  stays : ret = false → z.threads = s.threads
  dasr : ret = false → ∀ e < 4, (z.die e).dasr = (s.die e).dasr ||| (if die = e then dasrOf o.2 else 0)

/-- What a lane's completion leaves as it was. -/
theorem atDone_keeps {s : State} (ret : Bool) (wide : Bool) {l : AtLane} (hd : ret = true → l.d.isS = false) (m : Nat) (fl : Fl) (die : Nat) :
    ThreadsAndMemory s (s.atDone ret wide l m fl die) ∧ SameBytes s (s.atDone ret wide l m fl die) ∧ (s.atDone ret wide l m fl die).cores = s.cores := by
  cases ret with
  | true =>
    rw [atDone_ret s wide (hd rfl)]
    exact ⟨⟨s, .refl s, rfl⟩, ⟨rfl, rfl, fun _ => rfl⟩, rfl⟩
  | false =>
    rw [atDone_red]
    split
    · exact ⟨⟨s, .refl s, rfl⟩, .refl s, rfl⟩
    · exact ⟨(MemoryOnly.updDie ..).threadsToo, .updDie .., rfl⟩

theorem atDone_step {s w : State} (hw : Canonical w) (ht : w.threads = s.threads) (hs : SameDasr s w) (ret : Bool) (wide : Bool) {l : AtLane}
    (hd : ret = true → l.d.isS = false) (m : Nat) (fl : Fl) (die : Nat) :
    LaneStep ret l (laneWords wide m, fl) die s (w.atDone ret wide l m fl die) := by
  have hthr : ∀ u, w.thr u = s.thr u := fun u => by rw [State.thr, ht]; rfl
  refine ⟨fun hr u => ?_, fun hr => ?_, fun hr e he => ?_⟩
  · rw [hr, atDone_ret w wide (hd hr), thr_updThr, hthr]
  · rw [hr, atDone_red]
    split <;> exact ht
  · rw [hr, atDone_red]
    have h0 : dasrOf 0 = 0 := by decide
    split
    · rename_i hf
      rw [hs e, hf, h0, ite_self]
      exact BitVec.or_zero.symm
    · unfold State.raiseDasr
      rw [die_updDie, hw.2.2.2.2]
      by_cases hde : die = e
      · rw [if_pos ⟨hde, he⟩, if_pos hde, ← hs e]
      · rw [if_neg (fun k => hde k.1), if_neg hde, hs e]
        exact BitVec.or_zero.symm

-- Lanes in order

theorem foldl_or {α : Type} {w : Nat} (f : α → BitVec w) (xs : List α) (b : BitVec w) :
    xs.foldl (fun b x => b ||| f x) b = b ||| xs.foldl (fun b x => b ||| f x) 0 := by
  induction xs generalizing b with
  | nil => exact BitVec.or_zero.symm
  | cons x xs ih => rw [List.foldl_cons, List.foldl_cons, ih, ih (0 ||| f x), show (0 : BitVec w) ||| f x = f x from BitVec.zero_or, BitVec.or_assoc]

/-- What lanes give their threads, of what they read. -/
def laneOut (k : AtKind) (n : Nat) (rs : List (AtLane × Nat)) : List (ThreadId × List Word × Fl) :=
  rs.map (fun p => (p.1.t, laneWords (n == 8) p.2, (laneResult k (8 * n) p.1 p.2).2))

/-- The flags that lanes raise in DASR of die e, of what they read and the die that each raises them in. -/
def laneFlags {α : Type} (k : AtKind) (n : Nat) (die : α → Nat) (e : Nat) (rs : List ((AtLane × Nat) × α)) : BitVec 5 :=
  rs.foldl (fun b p => b ||| (if die p.2 = e then dasrOf (laneResult k (8 * n) p.1.1 p.1.2).2 else 0)) 0

theorem laneFlags_cons {α : Type} (k : AtKind) (n : Nat) (die : α → Nat) (e : Nat) (p : (AtLane × Nat) × α) (rs : List ((AtLane × Nat) × α)) :
    laneFlags k n die e (p :: rs) = (if die p.2 = e then dasrOf (laneResult k (8 * n) p.1.1 p.1.2).2 else 0) ||| laneFlags k n die e rs := by
  unfold laneFlags
  rw [List.foldl_cons, foldl_or]
  exact congrArg (· ||| _) BitVec.zero_or

theorem inOrder_fst (n : Nat) (new : AtLane → Nat → Nat) (m : Nat → Byte) (ls : List (AtLane × Nat)) :
    (inOrder n new m ls).2.map Prod.fst = ls.map Prod.fst := by
  induction ls generalizing m with
  | nil => rfl
  | cons l ls ih => exact congrArg (l.1 :: ·) (ih _)

section
variable {α : Type} {ret : Bool} {n : Nat} {k : AtKind} {d : Opnd} (view : State → Nat → Byte) (Inv : State → Prop) (f : State → α → State)
  (lane : α → AtLane) (pos die : α → Nat)

/-- One lane reads its place in what `view` shows, leaves there its result, and keeps the invariant. -/
def LaneGoes (ret : Bool) (n : Nat) (k : AtKind) (s : State) (z : α) : Prop :=
  let m := valueAt (view s) (pos z) n
  Inv (f s z) ∧ view (f s z) = placed (pos z) (leBytes n (laneResult k (8 * n) (lane z) m).1) (view s)
    ∧ LaneStep ret (lane z) (laneWords (n == 8) m, (laneResult k (8 * n) (lane z) m).2) (die z) s (f s z)

/-- Lanes that go one after another do what R316 says. -/
theorem lanes_inOrder (zs : List α) (nd : ret = true → (zs.map (fun z => (lane z).t)).Nodup) (hd : ret = true → ∀ z ∈ zs, (lane z).d = d)
    (step : ∀ s, Inv s → ∀ z ∈ zs, LaneGoes view Inv f lane pos die ret n k s z) {s : State} (hs : Inv s) :
    let g := zs.foldl f s
    let r := inOrder n (fun l m => (laneResult k (8 * n) l m).1) (view s) (zs.map (fun z => (lane z, pos z)))
    Inv g ∧ view g = r.1 ∧ (ret = true → TakesAll d (laneOut k n r.2) s g)
      ∧ (ret = false → g.threads = s.threads ∧ ∀ e < 4, (g.die e).dasr = (s.die e).dasr ||| laneFlags k n die e (r.2.zip zs)) := by
  induction zs generalizing s with
  | nil => exact ⟨hs, rfl, fun _ => .nil d rfl, fun _ => ⟨rfl, fun _ _ => BitVec.or_zero.symm⟩⟩
  | cons z zs ih =>
    obtain ⟨h1, h2, h3⟩ := step s hs z (List.mem_cons_self ..)
    obtain ⟨g1, g2, g3, g4⟩ := ih (fun hr => (List.nodup_cons.mp (nd hr)).2) (fun hr y hy => hd hr y (List.mem_cons_of_mem _ hy))
      (fun s hs y hy => step s hs y (List.mem_cons_of_mem _ hy)) h1
    rw [h2] at g2 g3 g4
    refine ⟨g1, g2, fun hr => ?_, fun hr => ?_⟩
    · refine TakesAll.cons ?_ (hd hr z (List.mem_cons_self ..) ▸ h3.takes hr) (g3 hr)
      have hn := (List.nodup_cons.mp (nd hr)).1
      have hk := congrArg (List.map AtLane.t) (inOrder_fst n (fun l m => (laneResult k (8 * n) l m).1)
        (placed (pos z) (leBytes n (laneResult k (8 * n) (lane z) (valueAt (view s) (pos z) n)).1) (view s)) (zs.map (fun z => (lane z, pos z))))
      simp only [List.map_map, Function.comp_def] at hk
      refine fun h => hn ?_
      rw [List.map_map] at h
      exact hk ▸ h
    · obtain ⟨h4, h5⟩ := g4 hr
      refine ⟨h4.trans (h3.stays hr), fun e he => ?_⟩
      rw [List.foldl_cons, h5 e he, h3.dasr hr e he, BitVec.or_assoc]
      exact congrArg _ (laneFlags_cons k n die e ((lane z, valueAt (view s) (pos z) n), z) _).symm

end

end Sys2Proof.Machine
end

section
/-! Atomics at the home and in the scratchpads, lane by lane (R59, R109, R316). -/
namespace Sys2Proof.Machine

theorem leBytes_leNat (bs : List Byte) : leBytes bs.length (leNat bs) = bs := by
  induction bs with
  | nil => rfl
  | cons b bs ih =>
    have hb := b.isLt
    rw [List.length_cons, leNat, leBytes, Nat.add_mul_div_left _ _ (by decide), Nat.div_eq_of_lt hb, Nat.zero_add, ih]
    congr 1
    apply BitVec.eq_of_toNat_eq
    rw [BitVec.toNat_ofNat, show 2 ^ 8 = 256 from rfl, Nat.add_mul_mod_self_left, Nat.mod_eq_of_lt hb]

/-- Bytes placed where they stand change nothing. -/
theorem placed_same (m : Nat → Byte) (pa n : Nat) : placed pa (leBytes n (valueAt m pa n)) m = m := by
  have h : leBytes n (valueAt m pa n) = (List.range n).map (fun k => m (pa + k)) := by
    have := leBytes_leNat ((List.range n).map (fun k => m (pa + k)))
    rwa [List.length_map, List.length_range] at this
  funext k
  unfold placed
  rw [h, List.length_map, List.length_range]
  split
  · rw [List.getD_eq_getElem _ _ (by simp; omega), List.getElem_map, List.getElem_range]
    congr 1
    omega
  · rfl

theorem placed_wrN {m : Mem} (h : m.wf = true) (pa : Nat) (bs : List Byte) : Mem.rd (Mem.wrN m pa bs) = placed pa bs (Mem.rd m) :=
  funext (fun k => rd_wrN h pa bs k)

-- One lane of a global address

/-- What a lane stores, if it stores. -/
def laneStore (o : Option Nat) (n : Nat) (wr : List Byte → State) (s : State) : State :=
  match o with
  | some v => wr (leBytes n v)
  | none => s

theorem atLaneGo_glob (s : State) (a : Acc) (k : AtKind) (ret : Bool) (n : Nat) (l : AtLane) (x : Xl) :
    s.atLaneGo a k ret n l (some x) =
      let c := s.coreOf l.t
      let p := atPlace a.sc x.attr
      let r := s.atRead c x.pa n x.attr p
      let w := r.1.countAtomic c x.pa x.attr p
      let m := leNat r.2
      (laneStore (laneStores k m l.x l.y (8 * n)).1 n (fun b => w.atWrite c (w.tagOf l.t.wg) x.pa x.attr p b) w).atDone ret (n == 8) l m
        (laneResult k (8 * n) l m).2 (atDie c x.pa x.attr p) := by
  unfold State.atLaneGo laneStore
  dsimp only
  rw [laneResult_eq, show ∀ f : Fl, f ||| 0 = f from fun f => BitVec.or_zero] <;> rfl

theorem countAtomic_keeps (s : State) (c pa : Nat) (a : PageAttr) (p : AtPlace) : MemoryOnly s (s.countAtomic c pa a p)
    ∧ SameBytes s (s.countAtomic c pa a p) ∧ (s.countAtomic c pa a p).cores = s.cores ∧ SameDasr s (s.countAtomic c pa a p) := by
  unfold State.countAtomic
  split
  · exact ⟨.refl s, .refl s, rfl, fun _ => rfl⟩
  · refine ⟨.updDie .., .updDie .., rfl, fun d => ?_⟩
    unfold State.countDie
    rw [die_updDie]
    split <;> rfl

theorem SameBytes.keepsClean {s z : State} (h : SameBytes s z) (hc : z.cores = s.cores) (c : Nat) : KeepsClean c s z :=
  keepsClean_of (fun e => by unfold dirtyLines State.core; rw [hc]) (fun x => h.steady _ x)

/-- The memory that a lane's store at the home leaves. -/
theorem laneStore_home {w : State} (hw : Canonical w) (k : AtKind) (l : AtLane) {n pa m : Nat} (hm : m = valueAt (Mem.rd w.mem) pa n) (c : Nat) :
    let z := laneStore (laneStores k m l.x l.y (8 * n)).1 n (fun b => w.homeWrite pa b) w
    Mem.rd z.mem = placed pa (leBytes n (laneResult k (8 * n) l m).1) (Mem.rd w.mem) ∧ MemoryOnly w z ∧ Canonical z ∧ SameDasr w z ∧ KeepsClean c w z := by
  unfold laneStore
  rw [laneResult_eq]
  cases (laneStores k m l.x l.y (8 * n)).1 with
  | none =>
    refine ⟨?_, .refl w, hw, fun _ => rfl, .refl ..⟩
    rw [Option.getD_none, hm, placed_same]
  | some v =>
    refine ⟨?_, homeWrite_only .., homeWrite_canonical hw, sameDasr_closed.homeWrite _ _ _ _ _, homeWrite_keepsClean ..⟩
    rw [homeWrite_mem, placed_wrN hw.1]
    rfl

/-- One lane at the home of a line that nothing holds dirty. -/
theorem atLaneGo_home {s : State} (hs : Canonical s) {a : Acc} (k : AtKind) {ret : Bool} (n : Nat) {l : AtLane} {x : Xl} {c : Nat} (hc : s.coreOf l.t = c)
    (hp : atPlace a.sc x.attr = .home) (hx : LineClean s c x.pa) (hd : ret = true → l.d.isS = false) :
    let z := s.atLaneGo a k ret n l (some x)
    let m := valueAt (Mem.rd s.mem) x.pa n
    Canonical z ∧ ThreadsAndMemory s z ∧ KeepsClean c s z ∧ Mem.rd z.mem = placed x.pa (leBytes n (laneResult k (8 * n) l m).1) (Mem.rd s.mem)
      ∧ LaneStep ret l (laneWords (n == 8) m, (laneResult k (8 * n) l m).2) (atDie c x.pa x.attr .home) s z := by
  intro z m
  obtain ⟨h1, h2, h3⟩ := atRead_home hs n x.attr hx
  have hro := atRead_only hs c x.pa n x.attr .home
  have hrc := atRead_canonical hs (c := c) (pa := x.pa) (n := n) (a := x.attr) (p := .home)
  have hrd := sameDasr_closed.atRead s c x.pa n x.attr .home
  have hz : z = _ := atLaneGo_glob s a k ret n l x
  dsimp only at hz
  rw [hc, hp] at hz
  generalize s.atRead c x.pa n x.attr .home = r at h1 h2 h3 hro hrc hrd hz
  obtain ⟨g1, g2, g3, g4⟩ := countAtomic_keeps r.1 c x.pa x.attr .home
  have hwc := countAtomic_canonical hrc (c := c) (pa := x.pa) (a := x.attr) (p := .home)
  generalize r.1.countAtomic c x.pa x.attr .home = w at g1 g2 g3 g4 hwc hz
  have hwm : Mem.rd w.mem = Mem.rd s.mem := by rw [g2.mem]; exact funext h1
  have hm : leNat r.2 = m := by rw [h2]; rfl
  rw [hm] at hz
  obtain ⟨q1, q2, q3, q4, q5⟩ := laneStore_home hwc k l (n := n) (pa := x.pa) (m := m) (by rw [hwm]) c
  have hz : z = (laneStore (laneStores k m l.x l.y (8 * n)).1 n (fun b => w.homeWrite x.pa b) w).atDone ret (n == 8) l m
      (laneResult k (8 * n) l m).2 (atDie c x.pa x.attr .home) := hz
  generalize laneStore (laneStores k m l.x l.y (8 * n)).1 n (fun b => w.homeWrite x.pa b) w = y at q1 q2 q3 q4 q5 hz
  have hsy : MemoryOnly s y := (hro.trans g1).trans q2
  obtain ⟨p1, p2, p3⟩ := atDone_keeps (s := y) ret (n == 8) hd m (laneResult k (8 * n) l m).2 (atDie c x.pa x.attr .home)
  have hstep := atDone_step q3 hsy.threads (fun d => ((q4 d).trans (g4 d)).trans (hrd d)) ret (n == 8) hd m (laneResult k (8 * n) l m).2 (atDie c x.pa x.attr .home)
  have hzc : Canonical z := atLaneGo_canonical hs
  rw [← hz] at p1 p2 p3 hstep
  refine ⟨hzc, hsy.threadsToo.trans p1, ((h3.trans (g2.keepsClean g3 c)).trans q5).trans (p2.keepsClean p3 c), ?_, hstep⟩
  rw [p2.mem, q1, hwm]

theorem atPlace_home {sc : Scope} (h : sc = .dev ∨ sc = .sys) (a : PageAttr) : atPlace sc a = .home := by
  unfold atPlace
  rw [if_pos (by simpa using h)]

/-- The lanes of an atomic at the home, whose lines nothing holds dirty. -/
theorem lanes_home {s : State} (hs : Canonical s) {a : Acc} (k : AtKind) {ret : Bool} (n : Nat) {d : Opnd} {c : Nat} (zs : List (AtLane × Xl))
    (hc : ∀ z ∈ zs, s.coreOf z.1.t = c) (hp : a.sc = .dev ∨ a.sc = .sys) (hx : ∀ z ∈ zs, LineClean s c z.2.pa)
    (hd : ret = true → ∀ z ∈ zs, z.1.d = d ∧ d.isS = false) (nd : ret = true → (zs.map (fun z => z.1.t)).Nodup) :
    let g := zs.foldl (fun s z => s.atLaneGo a k ret n z.1 (some z.2)) s
    let r := inOrder n (fun l m => (laneResult k (8 * n) l m).1) (Mem.rd s.mem) (zs.map (fun z => (z.1, z.2.pa)))
    (Canonical g ∧ ThreadsAndMemory s g) ∧ Mem.rd g.mem = r.1 ∧ (ret = true → TakesAll d (laneOut k n r.2) s g)
      ∧ (ret = false → g.threads = s.threads ∧ ∀ e < 4, (g.die e).dasr = (s.die e).dasr ||| laneFlags k n (fun z => atDie c z.2.pa z.2.attr .home) e (r.2.zip zs)) := by
  obtain ⟨⟨h1, h2, -⟩, h3, h4, h5⟩ := lanes_inOrder (fun s => Mem.rd s.mem)
    (fun w => Canonical w ∧ ThreadsAndMemory s w ∧ ∀ z ∈ zs, LineClean w c z.2.pa)
    (fun s z => s.atLaneGo a k ret n z.1 (some z.2)) Prod.fst (fun z => z.2.pa) (fun z => atDie c z.2.pa z.2.attr .home) (d := d) (ret := ret) (n := n) (k := k) zs nd
    (fun hr z hz => (hd hr z hz).1) (fun w hw z hz => by
      obtain ⟨w1, w2, w3⟩ := hw
      obtain ⟨g1, g2, g3, g4, g5⟩ := atLaneGo_home w1 k n ((w2.coreOf _).trans (hc z hz)) (atPlace_home hp _) (w3 z hz)
        (fun hr => (hd hr z hz).1 ▸ (hd hr z hz).2)
      exact ⟨⟨g1, w2.trans g2, fun y hy => g3.line (w3 y hy)⟩, g4, g5⟩)
    ⟨hs, (MemoryOnly.refl s).threadsToo, hx⟩
  exact ⟨⟨h1, h2⟩, h3, h4, h5⟩

-- In the scratchpads

/-- A workgroup but for its scratchpad. -/
def Workgroup.noSpad (x : Workgroup) : Workgroup := { x with spad := [] }

/-- What lanes in scratchpads may change: threads, the scratchpads, and what the memory system may. -/
structure ButSpads (s z : State) : Prop where
  rest : z = { s with
    threads := z.threads, wgs := z.wgs, cores := z.cores, dies := z.dies, mem := z.mem, lost := z.lost, injMsgs := z.injMsgs, invMsgs := z.invMsgs,
    kinds := z.kinds, fresh := z.fresh }
  wgs : ∀ w, (z.wg w).map Workgroup.noSpad = (s.wg w).map Workgroup.noSpad

theorem ButSpads.trans {a b z : State} (h : ButSpads a b) (g : ButSpads b z) : ButSpads a z where
  rest := by rw [g.rest, h.rest]
  wgs w := (g.wgs w).trans (h.wgs w)

theorem ThreadsAndMemory.butSpads {s z : State} (h : ThreadsAndMemory s z) : ButSpads s z := by
  refine ⟨?_, fun w => by rw [State.wg, h.wgs]; rfl⟩
  have := congrArg (fun u : State => { u with threads := z.threads }) h.only.1
  rw [h.wgs]
  exact this

/-- What a workgroup is read for, beside its scratchpad, is as it was. -/
theorem ButSpads.field {s z : State} (h : ButSpads s z) {α : Type} (f : Workgroup → α) (hf : ∀ x, f x.noSpad = f x) (w : Nat) : (z.wg w).map f = (s.wg w).map f := by
  have := congrArg (Option.map f) (h.wgs w)
  rw [Option.map_map, Option.map_map, show f ∘ Workgroup.noSpad = f from funext hf] at this
  exact this

theorem ButSpads.bind {s z : State} (h : ButSpads s z) {α : Type} (f : Workgroup → Option α) (hf : ∀ x, f x.noSpad = f x) (w : Nat) : (z.wg w).bind f = (s.wg w).bind f := by
  have hj : ∀ o : Option Workgroup, o.bind f = (o.map f).join := fun o => by cases o <;> rfl
  rw [hj, hj, h.field f hf]

theorem ButSpads.coreOf {s z : State} (h : ButSpads s z) (t : ThreadId) : z.coreOf t = s.coreOf t := congrArg (·.getD 0) (h.field Workgroup.coreIx (fun _ => rfl) t.wg)

theorem ButSpads.spbOf {s z : State} (h : ButSpads s z) (w : Nat) : z.spbOf w = s.spbOf w := by
  have hd : z.disps = s.disps := by rw [h.rest]
  unfold State.spbOf State.dispOf State.disp
  rw [hd, h.bind (fun g => mget s.disps g.disp) (fun _ => rfl)]

/-- A place in a scratchpad is where it was. -/
theorem ButSpads.place {s z : State} (h : ButSpads s z) {w n p off : Nat} {sp : Space} {va : DWord} (hp : s.place w sp va n = some (.spad p off)) :
    z.place w sp va n = some (.spad p off) := by
  have hc : z.clusters = s.clusters := by rw [h.rest]
  unfold State.place at hp ⊢
  cases sp with
  | global =>
    dsimp only at hp
    split at hp <;> cases hp
  | scratch =>
    dsimp only at hp ⊢
    rw [h.spbOf]
    exact hp
  | cluster =>
    dsimp only at hp ⊢
    rw [h.spbOf, hc, h.bind (fun g => mget s.clusters g.cluster) (fun _ => rfl)]
    exact hp
  | bucket =>
    dsimp only at hp
    split at hp
    · split at hp <;> cases hp
    · split at hp <;> cases hp
    · cases hp

/-- The bytes of all scratchpads: byte k % 2^32 of that of workgroup k / 2^32. -/
def padBytes (s : State) (k : Nat) : Byte := Mem.rd (((s.wg (k / 2 ^ 32)).map Workgroup.spad).getD []) (k % 2 ^ 32)

theorem spadRead_pads {s : State} {p n : Nat} (h : p % 2 ^ 32 + n ≤ 2 ^ 32) : leNat (s.spadRead (p / 2 ^ 32) (p % 2 ^ 32) n) = valueAt (padBytes s) p n := by
  unfold State.spadRead Mem.rdN valueAt
  congr 1
  refine List.map_congr_left (fun k hk => ?_)
  obtain ⟨h1, h2⟩ := run_div (Nat.lt_of_lt_of_le (Nat.add_lt_add_left (List.mem_range.mp hk) _) h)
  rw [padBytes, h1, h2]

theorem spadWrite_pads {s : State} (hs : Canonical s) {p : Nat} {bs : List Byte} (h : p % 2 ^ 32 + bs.length ≤ 2 ^ 32) (hw : (s.wg (p / 2 ^ 32)).isSome = true) :
    padBytes (s.spadWrite (p / 2 ^ 32) (p % 2 ^ 32) bs) = placed p bs (padBytes s) := by
  obtain ⟨x, hx⟩ := Option.isSome_iff_exists.mp hw
  have hwf : x.spad.wf = true := (hs.2.1 _ (mem_of_mget hx)).1
  funext k
  unfold padBytes State.spadWrite placed
  rw [wg_updWg]
  by_cases hk : p / 2 ^ 32 = k / 2 ^ 32
  · rw [if_pos hk, ← hk, hx, Option.map_some, Option.map_some, Option.getD_some, rd_wrN hwf]
    dsimp only
    rw [← hk, hx]
    obtain ⟨h1, h2⟩ := run_iff hk.symm bs.length
    exact if_congr h1 (congrArg (bs.getD · 0) h2) rfl
  · rw [if_neg hk, if_neg (fun hr => hk (line_of_run h hr).1.symm)]

theorem spadWrite_butSpads (s : State) (w off : Nat) (bs : List Byte) : ButSpads s (s.spadWrite w off bs) := by
  refine ⟨rfl, fun v => ?_⟩
  unfold State.spadWrite
  rw [wg_updWg]
  split
  · rw [Option.map_map]; rfl
  · rfl

theorem atLaneGo_spad {s : State} (a : Acc) (k : AtKind) (ret : Bool) (n : Nat) {l : AtLane} {w off : Nat} (hp : s.place l.t.wg a.space l.va n = some (.spad w off)) :
    s.atLaneGo a k ret n l none =
      let m := leNat (s.spadRead w off n)
      (laneStore (laneStores k m l.x l.y (8 * n)).1 n (fun b => s.spadWrite w off b) s).atDone ret (n == 8) l m (laneResult k (8 * n) l m).2 (s.coreOf l.t / 32) := by
  unfold State.atLaneGo laneStore
  dsimp only
  rw [hp]
  dsimp only
  rw [laneResult_eq, show ∀ f : Fl, f ||| 0 = f from fun f => BitVec.or_zero] <;> rfl

theorem laneStore_spad {s : State} (hs : Canonical s) (k : AtKind) (l : AtLane) {n p m : Nat} (hm : m = valueAt (padBytes s) p n) (h : p % 2 ^ 32 + n ≤ 2 ^ 32)
    (hw : (s.wg (p / 2 ^ 32)).isSome = true) :
    let z := laneStore (laneStores k m l.x l.y (8 * n)).1 n (fun b => s.spadWrite (p / 2 ^ 32) (p % 2 ^ 32) b) s
    padBytes z = placed p (leBytes n (laneResult k (8 * n) l m).1) (padBytes s) ∧ ButSpads s z ∧ Canonical z ∧ z.threads = s.threads ∧ z.dies = s.dies ∧ z.mem = s.mem := by
  unfold laneStore
  rw [laneResult_eq]
  cases (laneStores k m l.x l.y (8 * n)).1 with
  | none =>
    refine ⟨?_, ⟨rfl, fun _ => rfl⟩, hs, rfl, rfl, rfl⟩
    rw [Option.getD_none, hm, placed_same]
  | some v => exact ⟨spadWrite_pads hs (by rwa [leBytes_length]) hw, spadWrite_butSpads .., spadWrite_canonical hs, rfl, rfl, rfl⟩

/-- One lane in a scratchpad. -/
theorem atLaneGo_pads {s : State} (hs : Canonical s) {a : Acc} (k : AtKind) {ret : Bool} (n : Nat) {l : AtLane} {p : Nat}
    (hp : s.place l.t.wg a.space l.va n = some (.spad (p / 2 ^ 32) (p % 2 ^ 32))) (h : p % 2 ^ 32 + n ≤ 2 ^ 32) (hw : (s.wg (p / 2 ^ 32)).isSome = true)
    (hd : ret = true → l.d.isS = false) :
    let z := s.atLaneGo a k ret n l none
    let m := valueAt (padBytes s) p n
    Canonical z ∧ ButSpads s z ∧ z.mem = s.mem ∧ padBytes z = placed p (leBytes n (laneResult k (8 * n) l m).1) (padBytes s)
      ∧ LaneStep ret l (laneWords (n == 8) m, (laneResult k (8 * n) l m).2) (s.coreOf l.t / 32) s z := by
  intro z m
  have hz : z = _ := atLaneGo_spad a k ret n hp
  dsimp only at hz
  rw [spadRead_pads h] at hz
  obtain ⟨q1, q2, q3, q4, q5, q6⟩ := laneStore_spad hs k l (n := n) (p := p) (m := m) rfl h hw
  have hz : z = (laneStore (laneStores k m l.x l.y (8 * n)).1 n (fun b => s.spadWrite (p / 2 ^ 32) (p % 2 ^ 32) b) s).atDone ret (n == 8) l m
      (laneResult k (8 * n) l m).2 (s.coreOf l.t / 32) := hz
  generalize laneStore (laneStores k m l.x l.y (8 * n)).1 n (fun b => s.spadWrite (p / 2 ^ 32) (p % 2 ^ 32) b) s = y at q1 q2 q3 q4 q5 q6 hz
  obtain ⟨p1, p2, p3⟩ := atDone_keeps (s := y) ret (n == 8) hd m (laneResult k (8 * n) l m).2 (s.coreOf l.t / 32)
  have hstep := atDone_step q3 q4 (fun d => by rw [State.die, q5]; rfl) ret (n == 8) hd m (laneResult k (8 * n) l m).2 (s.coreOf l.t / 32)
  have hzc : Canonical z := atLaneGo_canonical hs
  rw [← hz] at p1 p2 p3 hstep
  refine ⟨hzc, q2.trans p1.butSpads, p2.mem.trans q6, ?_, hstep⟩
  rw [← q1]
  funext j
  unfold padBytes State.wg
  rw [p1.wgs]

/-- The lanes of an atomic in scratchpads. -/
theorem lanes_pads {s : State} (hs : Canonical s) {a : Acc} (k : AtKind) {ret : Bool} (n : Nat) {d : Opnd} {c : Nat} (ls : List AtLane) (pos : AtLane → Nat)
    (hc : ∀ l ∈ ls, s.coreOf l.t = c) (hp : ∀ l ∈ ls, pos l % 2 ^ 32 + n ≤ 2 ^ 32 ∧ (s.wg (pos l / 2 ^ 32)).isSome = true
      ∧ s.place l.t.wg a.space l.va n = some (.spad (pos l / 2 ^ 32) (pos l % 2 ^ 32)))
    (hd : ret = true → ∀ l ∈ ls, l.d = d ∧ d.isS = false) (nd : ret = true → (ls.map AtLane.t).Nodup) :
    let g := ls.foldl (fun s l => s.atLaneGo a k ret n l none) s
    let r := inOrder n (fun l m => (laneResult k (8 * n) l m).1) (padBytes s) (ls.map (fun l => (l, pos l)))
    (Canonical g ∧ ButSpads s g ∧ g.mem = s.mem) ∧ padBytes g = r.1 ∧ (ret = true → TakesAll d (laneOut k n r.2) s g)
      ∧ (ret = false → g.threads = s.threads ∧ ∀ e < 4, (g.die e).dasr = (s.die e).dasr ||| laneFlags k n (fun _ => c / 32) e (r.2.zip ls)) := by
  refine lanes_inOrder padBytes (fun w => Canonical w ∧ ButSpads s w ∧ w.mem = s.mem) (fun s l => s.atLaneGo a k ret n l none) id pos (fun _ => c / 32) ls nd
    (fun hr l hl => (hd hr l hl).1) (fun w hw l hl => ?_) ⟨hs, ⟨rfl, fun _ => rfl⟩, rfl⟩
  obtain ⟨w1, w2, w3⟩ := hw
  obtain ⟨h1, h2, h3⟩ := hp l hl
  have hwg : (w.wg (pos l / 2 ^ 32)).isSome = true := by
    have := congrArg Option.isSome (w2.wgs (pos l / 2 ^ 32))
    rwa [Option.isSome_map, Option.isSome_map, h2] at this
  obtain ⟨g1, g2, g3, g4, g5⟩ := atLaneGo_pads w1 k n (w2.place h3) h1 hwg (fun hr => (hd hr l hl).1 ▸ (hd hr l hl).2)
  rw [w2.coreOf, hc l hl] at g5
  exact ⟨⟨g1, w2.trans g2, g3.trans w3⟩, g4, g5⟩

end Sys2Proof.Machine
end

section
/-! How an atomic is performed: its translations, its lanes without merging, and its end (R109, R112, R270). -/
namespace Sys2Proof.Machine

-- Translations

theorem xlateAll_ok {d ctx : Nat} {nd : Need} {vs : List DWord} {s u : State} {xs : List Xl} (h : s.xlateAll d ctx nd vs = (u, .ok xs)) :
    MemoryOnly s u ∧ xs.length = vs.length := by
  induction vs generalizing s u xs with
  | nil =>
    cases h
    exact ⟨.refl s, rfl⟩
  | cons v vs ih =>
    unfold State.xlateAll at h
    have h1 := xlate_only s d ctx v.toNat nd
    generalize s.xlate d ctx v.toNat nd = r at h h1
    obtain ⟨w, e | x⟩ := r
    · cases h
    · dsimp only at h
      generalize hr : w.xlateAll d ctx nd vs = r2 at h
      obtain ⟨v', e | ys⟩ := r2
      · cases h
      · cases h
        obtain ⟨g1, g2⟩ := ih hr
        exact ⟨h1.trans g1, congrArg (· + 1) g2⟩

theorem MemoryOnly.native {s z : State} (h : MemoryOnly s z) (t : ThreadId) : z.native t = s.native t := by
  unfold State.native State.dispOf State.disp State.wg
  rw [h.wgs, h.disps]

-- Lanes that do not merge

/-- Lanes stay apart when no two are of one address, or none goes to an L2 under the native profile (R112). -/
theorem mergeLanes_apart (op : Byte) (n draw : Nat) (at' : RedLane → Bool) (ls : List RedLane) (i : Nat) (done : List RedLane)
    (h : (∀ l ∈ ls, at' l = false) ∨ ((done ++ ls).map (fun l => l.1.va)).Nodup) : mergeLanes op n draw at' i done ls = done ++ ls := by
  induction ls generalizing i done with
  | nil => rw [mergeLanes, List.append_nil]
  | cons l ls ih =>
    have hf : done.reverse.find? (fun m => m.1.va == l.1.va && at' m && at' l) = none := by
      refine List.find?_eq_none.mpr (fun m hm => ?_)
      obtain h | h := h
      · simp [h l (List.mem_cons_self ..)]
      · rw [List.map_append, List.map_cons, List.nodup_append] at h
        have := h.2.2 _ (List.mem_map.mpr ⟨m, List.mem_reverse.mp hm, rfl⟩) l.1.va (List.mem_cons_self ..)
        simp [this]
    rw [mergeLanes, hf]
    dsimp only
    rw [ih, List.append_assoc]
    · rfl
    · exact h.imp (fun h m hm => h m (List.mem_cons_of_mem _ hm)) (fun h => by rwa [List.append_assoc])

-- An atomic whose lanes are performed alone

/-- The access is an atomic of one core's threads whose operands merge with no others. -/
structure IsAtoms (s : State) (id : Nat) (a : Acc) (k : AtKind) (ret : Bool) (sz : Sz) (ls : List AtLane) (d : Opnd) : Prop where
  op : a.op = .atoms k ret sz ls
  owners : a.owners = ls.map AtLane.t
  core : ∀ l ∈ ls, s.coreOf l.t = s.coreOf a.t
  size : sz = .b32 ∨ sz = .b64
  fits : ret = true → ∀ l ∈ ls, l.d = d ∧ d.isS = false ∧ Fits s l.t d (szBytes sz / 4)
  mates : s.redMates id a = []
  apart : ret = true ∨ (∀ l ∈ ls, s.native l.t = false) ∨ (ls.map AtLane.va).Nodup

/-- The release before an atomic, and the acquire after it, where it is ordered so. -/
def State.relFor (s : State) (a : Acc) (ls : List AtLane) (u : State) : State :=
  if a.ord = .sync then u.releaseTags (s.coreOf a.t) (ls.map (fun l => s.tagOf l.t.wg)) a.sc else u

def State.acqFor (f : State) (a : Acc) (ret : Bool) (c : Nat) : State := if a.ord = .sync && ret then f.acquire c a.sc else f

/-- How an atomic is performed when no other lane joins it. -/
theorem perform_atoms (s : State) (id : Nat) {a : Acc} {k : AtKind} {ret : Bool} {sz : Sz} {ls : List AtLane} (h : a.op = .atoms k ret sz ls) :
    s.perform id a =
      let n := szBytes sz
      let c := s.coreOf a.t
      if a.space = .global then
        match s.xlateAll (c / 32) (s.ctxOf a.t.wg) { r := true, w := true } (ls.map AtLane.va) with
        | (s, .error (f, va)) => (s, .fault f va)
        | (u, .ok xs) =>
          match (ls.zip xs).find? (fun p => inSystem p.2.pa) with
          | some p => (u, .trap (illegalState p.1.va))
          | none =>
            let zs : List RedLane := (ls.zip xs).map (fun p => (p.1, p.2, 0))
            let zs := match (match k with | .rmw op => if ret then none else some op | .cas => none) with
              | some op => mergeLanes op (8 * n) u.fresh (fun z => atPlace a.sc z.2.1.attr != AtPlace.l1 && u.native z.1.t) 0 [] zs
              | none => zs
            (((zs.foldl (fun (s : State) (z : RedLane) => s.atLaneGo a k ret n z.1 (some z.2.1) z.2.2) (if a.ord = .sync then u.releaseTags c (ls.map (fun l => u.tagOf l.t.wg)) a.sc else u)).bump).acqFor a ret c, .done)
      else ((ls.foldl (fun s l => s.atLaneGo a k ret n l none) (s.relFor a ls s)).acqFor a ret c, .done) := by
  cases a
  subst h
  rfl

section
variable {s : State} {id : Nat} {a : Acc} {k : AtKind} {ret : Bool} {sz : Sz} {ls : List AtLane} {d : Opnd} (h : IsAtoms s id a k ret sz ls d)
include h

theorem IsAtoms.perform_glob (hg : a.space = .global) {u : State} {xs : List Xl}
    (hx : s.xlateAll (s.coreOf a.t / 32) (s.ctxOf a.t.wg) { r := true, w := true } (ls.map AtLane.va) = (u, .ok xs)) (hsys : ∀ x ∈ xs, inSystem x.pa = false) :
    s.perform id a = ((((ls.zip xs).foldl (fun s z => s.atLaneGo a k ret (szBytes sz) z.1 (some z.2)) (s.relFor a ls u)).bump).acqFor a ret (s.coreOf a.t), .done) := by
  obtain ⟨hu, hlen⟩ := xlateAll_ok hx
  have hfind : (ls.zip xs).find? (fun p => inSystem p.2.pa) = none := by
    refine List.find?_eq_none.mpr (fun p hp => ?_)
    simp [hsys _ (List.of_mem_zip hp).2]
  have htag : (fun l : AtLane => u.tagOf l.t.wg) = fun l => s.tagOf l.t.wg := funext (fun l => hu.tagOf _)
  rw [perform_atoms s id h.op]
  dsimp only
  rw [if_pos hg, hx]
  dsimp only
  rw [hfind, htag]
  have hzs : ∀ zs : List RedLane, zs = (ls.zip xs).map (fun p => (p.1, p.2, (0 : Fl))) → zs.foldl (fun (s : State) (z : RedLane) => s.atLaneGo a k ret (szBytes sz) z.1 (some z.2.1) z.2.2) (s.relFor a ls u)
      = (ls.zip xs).foldl (fun s z => s.atLaneGo a k ret (szBytes sz) z.1 (some z.2)) (s.relFor a ls u) := fun zs e => by
    rw [e, List.foldl_map]
  refine congrArg (fun f : State => (f.bump.acqFor a ret (s.coreOf a.t), Perf.done)) (hzs _ ?_)
  cases k with
  | cas => rfl
  | rmw op =>
    cases ret with
    | true => rfl
    | false =>
      refine mergeLanes_apart _ _ _ _ _ _ _ ((h.apart.resolve_left Bool.false_ne_true).imp (fun hn z hz => ?_) (fun hn => ?_))
      · obtain ⟨p, hp, rfl⟩ := List.mem_map.mp hz
        dsimp only
        rw [hu.native, hn _ (List.of_mem_zip hp).1, Bool.and_false]
      · rw [List.nil_append, List.map_map]
        have : (ls.zip xs).map Prod.fst = ls := List.map_fst_zip (by rw [hlen, List.length_map])
        rw [← this, List.map_map] at hn
        exact hn

theorem IsAtoms.perform_local (hg : a.space ≠ .global) :
    s.perform id a = ((ls.foldl (fun s l => s.atLaneGo a k ret (szBytes sz) l none) (s.relFor a ls s)).acqFor a ret (s.coreOf a.t), .done) := by
  rw [perform_atoms s id h.op]
  exact if_neg hg

theorem IsAtoms.exec_done (hd : Due s id a) (nd : (s.accs.map Prod.fst).Nodup) {f : State} (hp : s.perform id a = (f, .done)) :
    exec (if loadClass a then Instr.loadComplete id else Instr.storeComplete id) s = .next ((f.passBy a).finish id a) := by
  rw [exec_complete, complete_alone hd nd (by rw [h.op]; rfl) h.mates, hp]

end

-- The acquire after an atomic

/-- An acquire drops clean bytes: memory, DASR and the dirty lines are as they were. -/
theorem acqFor_keeps (s : State) (a : Acc) (ret : Bool) (c : Nat) : MemoryOnly s (s.acqFor a ret c) ∧ (s.acqFor a ret c).mem = s.mem
    ∧ (s.acqFor a ret c).kinds = s.kinds ∧ SameDasr s (s.acqFor a ret c) := by
  unfold State.acqFor
  split
  · have hr := (acquire_keeps s c a.sc).rest
    exact ⟨acquire_only .., by rw [hr], by rw [hr], sameDasr_closed.acquire s c a.sc⟩
  · exact ⟨.refl s, rfl, rfl, fun _ => rfl⟩

theorem acqFor_dirty (s : State) (a : Acc) (ret : Bool) (c : Nat) : ∀ m ∈ dirtyLines (s.acqFor a ret c) c, ∃ m' ∈ dirtyLines s c, m'.line = m.line := by
  intro m hm
  unfold State.acqFor at hm
  split at hm
  · by_cases hw : Scope.wide a.sc = true
    · obtain ⟨l, hl, hd, rfl⟩ := mem_dirtyLines.mp hm
      rw [acquire_l1 hw] at hl
      obtain ⟨y, hy, rfl⟩ := List.mem_map.mp (List.mem_of_mem_filter hl)
      refine ⟨y.dropClean, mem_dirtyLines.mpr ⟨y, hy, ?_, rfl⟩, ?_⟩
      · split at hd <;> exact hd
      · simp only [L1Line.dropClean_line]
        split <;> rfl
    · rw [acquire_narrow (by simpa using hw)] at hm
      exact ⟨m, hm, rfl⟩
  · exact ⟨m, hm, rfl⟩

theorem acqFor_dies (s : State) {a : Acc} (h : a.sc ≠ .sys) (ret : Bool) (c : Nat) : (s.acqFor a ret c).dies = s.dies := by
  unfold State.acqFor
  split
  · exact (acquire_keeps s c a.sc).dies h
  · rfl

theorem acqFor_narrow (s : State) {a : Acc} (h : Scope.wide a.sc = false) (ret : Bool) (c : Nat) : s.acqFor a ret c = s := by
  unfold State.acqFor
  split
  · exact acquire_narrow h ..
  · rfl

-- The end of an atomic

/-- The register words of an old value of a size. -/
def oldWords (sz : Sz) (m : Nat) : List Word := if sz = .b64 then [BitVec.ofNat 32 m, BitVec.ofNat 32 (m / 2 ^ 32)] else [BitVec.ofNat 32 m]

theorem laneWords_size {sz : Sz} (h : sz = .b32 ∨ sz = .b64) (m : Nat) : laneWords (szBytes sz == 8) m = oldWords sz m ∧ (oldWords sz m).length = szBytes sz / 4 := by
  obtain rfl | rfl := h
  · exact ⟨rfl, rfl⟩
  · simp [laneWords, oldWords, szBytes]

/-- The lanes of an atomic are complete: a returning one has given its threads what the lanes read. -/
def AtomEnds (k : AtKind) (ret : Bool) (sz : Sz) (d : Opnd) (id : Nat) (a : Acc) (y z : State) (rs : List (AtLane × Nat)) : Prop :=
  if ret then LanesComplete (y.passBy a) z id a d (rs.map (fun p => (p.1.t, oldWords sz p.2, (laneResult k (8 * szBytes sz) p.1 p.2).2)))
  else Completes (y.passBy a) z id a .z []

theorem IsAtoms.ends {s : State} {id : Nat} {a : Acc} {k : AtKind} {ret : Bool} {sz : Sz} {ls : List AtLane} {d : Opnd} (h : IsAtoms s id a k ret sz ls d) (hne : ls ≠ [])
    (nd : a.owners.Nodup) {f : State} {rs : List (AtLane × Nat)} (hrs : ∀ p ∈ rs, p.1 ∈ ls) (ht : ret = true → TakesAll d (laneOut k (szBytes sz) rs) s f)
    (hr : ret = false → f.threads = s.threads) :
    AtomEnds k ret sz d id a (f.withThreads s) ((f.passBy a).finish id a) rs := by
  unfold AtomEnds
  cases ret with
  | false => exact completes_of nd (hr rfl)
  | true =>
    have hout : laneOut k (szBytes sz) rs = rs.map (fun p => (p.1.t, oldWords sz p.2, (laneResult k (8 * szBytes sz) p.1 p.2).2)) :=
      List.map_congr_left (fun p _ => by rw [(laneWords_size h.size p.2).1])
    obtain ⟨l0, hl0⟩ := List.exists_mem_of_ne_nil ls hne
    refine lanesComplete_of nd (h.fits rfl l0 hl0).2.1 (fun t x o hx ho j hj => ?_) (hout ▸ ht rfl)
    obtain ⟨p, hp, he⟩ := List.mem_map.mp (mem_of_mget ho)
    obtain ⟨rfl, rfl⟩ := Prod.mk.inj he
    rw [(laneWords_size h.size p.2).2]
    exact (h.fits rfl p.1 (hrs p hp)).2.2.1 j hj x hx

-- Flags raised in DASR

/-- The flags of lanes that have read these values. -/
def flagsOf (k : AtKind) (n : Nat) (rs : List (AtLane × Nat)) : BitVec 5 := rs.foldl (fun b p => b ||| dasrOf (laneResult k (8 * n) p.1 p.2).2) 0

theorem laneFlags_filter {α : Type} (k : AtKind) (n : Nat) (die : α → Nat) (e : Nat) (qs : List ((AtLane × Nat) × α)) :
    laneFlags k n die e qs = flagsOf k n ((qs.filter (fun q => decide (die q.2 = e))).map Prod.fst) := by
  unfold laneFlags flagsOf
  rw [List.foldl_map, List.foldl_filter]
  refine congrFun (congrFun (congrArg _ (funext fun b => funext fun q => ?_)) _) _
  by_cases hq : die q.2 = e
  · simp [hq]
  · simp [hq]

/-- Lanes that all raise their flags in one die. -/
theorem laneFlags_const (k : AtKind) (n c e : Nat) {rs : List (AtLane × Nat)} {α : Type} {xs : List α} (h : rs.length = xs.length) :
    laneFlags k n (fun _ => c) e (rs.zip xs) = if e = c then flagsOf k n rs else 0 := by
  rw [laneFlags_filter]
  by_cases he : e = c
  · rw [if_pos he, List.filter_eq_self.mpr (fun _ _ => by simp [he]), List.map_fst_zip h.le]
  · rw [if_neg he, List.filter_eq_nil_iff.mpr (fun _ _ => by simp [Ne.symm he])]
    rfl

/-- The flags that go to die e, by the die of each lane's translation. -/
theorem laneFlags_zip {α : Type} (k : AtKind) (n e : Nat) (die : α → Nat) (rs : List (AtLane × Nat)) {ls : List AtLane} {xs : List α} (h : xs.length = ls.length) :
    laneFlags k n (fun z => die z.2) e (rs.zip (ls.zip xs)) = flagsOf k n (((rs.zip xs).filter (fun q => decide (die q.2 = e))).map Prod.fst) := by
  have hx : (ls.zip xs).map Prod.snd = xs := List.map_snd_zip h.le
  have : rs.zip xs = (rs.zip (ls.zip xs)).map (Prod.map id Prod.snd) := by
    conv_lhs => rw [← hx]
    exact List.zip_map_right
  rw [laneFlags_filter, this, List.filter_map, List.map_map]
  rfl

end Sys2Proof.Machine
end

section
/-! Atomics in the scratchpads and at the home, and the trap at an address of the system range (R59, R109, R114, R316). -/
namespace Sys2Proof.Machine

-- What the start and the end of an atomic leave as it was

theorem relFor_keeps {s u : State} (hu : Canonical u) (a : Acc) (ls : List AtLane) :
    MemoryOnly u (s.relFor a ls u) ∧ Canonical (s.relFor a ls u) ∧ SameDasr u (s.relFor a ls u) ∧ (a.ord ≠ .sync → s.relFor a ls u = u) := by
  unfold State.relFor
  split
  · rename_i ho
    exact ⟨releaseTags_only .., releaseTags_canonical hu, sameDasr_closed.releaseTags u (s.coreOf a.t) _ a.sc, fun h => absurd ho h⟩
  · exact ⟨.refl u, hu, fun _ => rfl, fun _ => rfl⟩

theorem relFor_lineClean {s u : State} (hu : Canonical u) (a : Acc) (ls : List AtLane) {pa : Nat} (h : LineClean u (s.coreOf a.t) pa) :
    LineClean (s.relFor a ls u) (s.coreOf a.t) pa := by
  unfold State.relFor
  split
  · exact releaseTags_lineClean hu _ _ h
  · exact h

theorem finish_passBy_same (f : State) (id : Nat) (a : Acc) : ((f.passBy a).finish id a).wgs = f.wgs ∧ ((f.passBy a).finish id a).dies = f.dies
    ∧ ((f.passBy a).finish id a).mem = f.mem ∧ ((f.passBy a).finish id a).kinds = f.kinds ∧ ((f.passBy a).finish id a).cores = f.cores := by
  rw [finish_passBy_rest]
  exact ⟨rfl, rfl, rfl, rfl, rfl⟩

theorem TakesAll.between {d : Opnd} {out : List (ThreadId × List Word × Fl)} {s s' z z' : State} (h : TakesAll d out s z) (hs : s.threads = s'.threads)
    (hz : z'.threads = z.threads) : TakesAll d out s' z' := by
  intro t
  have := h t
  unfold State.thr at this ⊢
  rwa [hz, ← hs]

theorem inOrder_mem {n : Nat} {new : AtLane → Nat → Nat} {m : Nat → Byte} {ls : List (AtLane × Nat)} {p : AtLane × Nat} (h : p ∈ (inOrder n new m ls).2) :
    p.1 ∈ ls.map Prod.fst := by
  rw [← inOrder_fst n new m ls]
  exact List.mem_map.mpr ⟨p, h, rfl⟩

theorem inOrder_length (n : Nat) (new : AtLane → Nat → Nat) (m : Nat → Byte) (ls : List (AtLane × Nat)) : (inOrder n new m ls).2.length = ls.length := by
  have := congrArg List.length (inOrder_fst n new m ls)
  simpa using this

/-- A workgroup that is the same but for its scratchpad. -/
theorem ButSpads.wg {s z : State} (h : ButSpads s z) (w : Nat) :
    (s.wg w = none → z.wg w = none) ∧ ∀ x, s.wg w = some x → ∃ x', z.wg w = some x' ∧ { x' with spad := x.spad } = x := by
  have hw := h.wgs w
  refine ⟨fun hn => ?_, fun x hx => ?_⟩
  · rw [hn] at hw
    exact Option.map_eq_none_iff.mp hw
  · rw [hx] at hw
    obtain ⟨x', hx', he⟩ := Option.map_eq_some_iff.mp hw
    exact ⟨x', hx', congrArg (fun y : Workgroup => { y with spad := x.spad }) he⟩

/-- What an atomic in scratchpads does: its lanes read and write one after another, at the places `pos`. -/
def AtomsInPads (s : State) (id : Nat) (a : Acc) (k : AtKind) (ret : Bool) (sz : Sz) (ls : List AtLane) (d : Opnd) (pos : AtLane → Nat) : Prop :=
  let r := inOrder (szBytes sz) (fun l m => (laneResult k (8 * szBytes sz) l m).1) (padBytes s) (ls.map (fun l => (l, pos l)))
  ∃ v y z, exec (if loadClass a then Instr.loadComplete id else Instr.storeComplete id) s = .next z ∧ MemoryOnly s v ∧ (a.ord ≠ .sync → v.mem = s.mem)
    ∧ y = { v with wgs := y.wgs } ∧ AtomEnds k ret sz d id a y z r.2 ∧ (∀ x, padBytes z x = r.1 x)
    ∧ (ret = false → ∀ e < 4, (z.die e).dasr = (s.die e).dasr ||| (if e = s.coreOf a.t / 32 then flagsOf k (szBytes sz) r.2 else 0))
    ∧ ∀ w, (s.wg w = none → z.wg w = none) ∧ ∀ x, s.wg w = some x → ∃ x', z.wg w = some x' ∧ { x' with spad := x.spad } = x

/-- What an atomic at the home does, from state v after its release, at the translations xs. -/
def AtomsAtHome (s v : State) (id : Nat) (a : Acc) (k : AtKind) (ret : Bool) (sz : Sz) (ls : List AtLane) (d : Opnd) (xs : List Xl) : Prop :=
  let r := inOrder (szBytes sz) (fun l m => (laneResult k (8 * szBytes sz) l m).1) (Mem.rd v.mem) (ls.zip (xs.map Xl.pa))
  ∃ y z, exec (if loadClass a then Instr.loadComplete id else Instr.storeComplete id) s = .next z ∧ MemoryOnly v y
    ∧ AtomEnds k ret sz d id a y z r.2 ∧ (∀ x, Mem.rd z.mem x = r.1 x)
    ∧ (ret = false → ∀ e < 4, (z.die e).dasr = (v.die e).dasr
      ||| flagsOf k (szBytes sz) (((r.2.zip xs).filter (fun p => decide (atDie (s.coreOf a.t) p.2.pa p.2.attr .home = e))).map Prod.fst))

section
variable {s : State} {id : Nat} {a : Acc} {k : AtKind} {ret : Bool} {sz : Sz} {ls : List AtLane} {d : Opnd} (h : IsAtoms s id a k ret sz ls d)
  (hs : Canonical s) (hd : Due s id a) (nd : (s.accs.map Prod.fst).Nodup) (hne : ls ≠ [])
include h hs hd nd hne

/-- An atomic in scratchpads: its lanes one after another. -/
theorem IsAtoms.inPads (hg : a.space ≠ .global) (pos : AtLane → Nat) (hp : ∀ l ∈ ls, pos l % 2 ^ 32 + szBytes sz ≤ 2 ^ 32 ∧ (s.wg (pos l / 2 ^ 32)).isSome = true
      ∧ s.place l.t.wg a.space l.va (szBytes sz) = some (.spad (pos l / 2 ^ 32) (pos l % 2 ^ 32))) :
    AtomsInPads s id a k ret sz ls d pos := by
  obtain ⟨v1, v2, v3, v4⟩ := relFor_keeps (s := s) hs a ls
  have hperf := h.perform_local hg
  generalize s.relFor a ls s = v at v1 v2 v3 v4 hperf
  have hbut := v1.threadsToo.butSpads
  have hpads : padBytes v = padBytes s := by
    funext x
    unfold padBytes State.wg
    rw [v1.wgs]
  obtain ⟨⟨g1, g2, g3⟩, g4, g5, g6⟩ := lanes_pads v2 (a := a) k (szBytes sz) ls pos (d := d) (fun l hl => (v1.coreOf l.t).trans (h.core l hl))
    (fun l hl => ⟨(hp l hl).1, by rw [State.wg, v1.wgs]; exact (hp l hl).2.1, hbut.place (hp l hl).2.2⟩)
    (fun hr l hl => ⟨(h.fits hr l hl).1, (h.fits hr l hl).2.1⟩) (fun _ => h.owners ▸ hd.2.2.1)
  rw [hpads] at g4 g5 g6
  generalize ls.foldl (fun s l => s.atLaneGo a k ret (szBytes sz) l none) v = g at g1 g2 g3 g4 g5 g6 hperf
  obtain ⟨f1, f2, -, f4⟩ := acqFor_keeps g a ret (s.coreOf a.t)
  generalize g.acqFor a ret (s.coreOf a.t) = f at f1 f2 f4 hperf
  obtain ⟨z1, z2, -⟩ := finish_passBy_same f id a
  have hsf : ButSpads s f := (hbut.trans g2).trans f1.threadsToo.butSpads
  have hmem : a.ord ≠ .sync → f.mem = s.mem := fun ho => by rw [f2, g3, v4 ho]
  have hrs : ∀ p ∈ (inOrder (szBytes sz) (fun l m => (laneResult k (8 * szBytes sz) l m).1) (padBytes s) (ls.map (fun l => (l, pos l)))).2, p.1 ∈ ls := fun p hp => by
    obtain ⟨q, hq, he⟩ := List.mem_map.mp (inOrder_mem hp)
    obtain ⟨l, hl, rfl⟩ := List.mem_map.mp hq
    exact he ▸ hl
  unfold AtomsInPads
  refine ⟨{ f.withThreads s with wgs := s.wgs }, f.withThreads s, (f.passBy a).finish id a, h.exec_done hd nd hperf, ⟨?_, ?_⟩, hmem, rfl,
    h.ends hne hd.2.2.1 hrs (fun hr => (g5 hr).between v1.threads f1.threads) (fun hr => (f1.threads.trans (g6 hr).1).trans v1.threads), fun x => ?_, fun hr e he => ?_, fun w => ?_⟩
  · exact congrArg (fun u : State => { u with threads := s.threads, wgs := s.wgs }) hsf.rest
  · exact fun _ => f2.symm ▸ g1.1
  · unfold padBytes State.wg
    rw [z1, f1.wgs]
    exact congrFun g4 x
  · rw [State.die, z2]
    refine (f4 e).trans (((g6 hr).2 e he).trans ?_)
    rw [v3 e, laneFlags_const _ _ _ _ (by rw [inOrder_length, List.length_map])]
  · have hz : ((f.passBy a).finish id a).wg w = f.wg w := by rw [State.wg, z1]; rfl
    rw [hz]
    exact hsf.wg w

/-- An atomic at the home of lines that nothing holds dirty: its lanes one after another. -/
theorem IsAtoms.atHome (hg : a.space = .global) (hsc : a.sc = .dev ∨ a.sc = .sys) {u : State} {xs : List Xl}
    (hx : s.xlateAll (s.coreOf a.t / 32) (s.ctxOf a.t.wg) { r := true, w := true } (ls.map AtLane.va) = (u, .ok xs))
    (hcl : ∀ x ∈ xs, inSystem x.pa = false ∧ CleanLine u (s.coreOf a.t) x.pa) :
    AtomsAtHome s (s.relFor a ls u) id a k ret sz ls d xs := by
  obtain ⟨hu, hlen⟩ := xlateAll_ok hx
  have huc : Canonical u := by
    have := xlateAll_canonical hs (d := s.coreOf a.t / 32) (ctx := s.ctxOf a.t.wg) (nd := { r := true, w := true }) (as := ls.map AtLane.va)
    rwa [hx] at this
  have hlen : xs.length = ls.length := by rwa [List.length_map] at hlen
  have hperf := h.perform_glob hg hx (fun x hx => (hcl x hx).1)
  have hclean : ∀ x ∈ xs, LineClean (s.relFor a ls u) (s.coreOf a.t) x.pa := fun x hx => relFor_lineClean huc a ls (lineClean_of (hcl x hx).2)
  obtain ⟨v1, v2, -, -⟩ := relFor_keeps (s := s) huc a ls
  generalize s.relFor a ls u = v at v1 v2 hclean hperf
  have hsv : MemoryOnly s v := hu.trans v1
  have hmap : (ls.zip xs).map Prod.fst = ls := List.map_fst_zip hlen.ge
  have howners : ls.map AtLane.t = (ls.zip xs).map (fun z => z.1.t) := by
    conv_lhs => rw [← hmap]
    exact List.map_map
  have hzip : (ls.zip xs).map (fun z => (z.1, z.2.pa)) = ls.zip (xs.map Xl.pa) := List.zip_map_right.symm
  have hls : ∀ z ∈ ls.zip xs, z.1 ∈ ls := fun z hz => (List.of_mem_zip hz).1
  obtain ⟨⟨g1, g2⟩, g4, g5, g6⟩ := lanes_home (s := v) v2 (a := a) k (ret := ret) (szBytes sz) (d := d) (c := s.coreOf a.t) (ls.zip xs)
    (fun z hz => (hsv.coreOf _).trans (h.core _ (hls z hz))) hsc (fun z hz => hclean _ (List.of_mem_zip hz).2)
    (fun hr z hz => ⟨(h.fits hr _ (hls z hz)).1, (h.fits hr _ (hls z hz)).2.1⟩)
    (fun _ => howners ▸ h.owners ▸ hd.2.2.1)
  rw [hzip] at g4 g5 g6
  generalize (ls.zip xs).foldl (fun s z => s.atLaneGo a k ret (szBytes sz) z.1 (some z.2)) v = g at g1 g2 g4 g5 g6 hperf
  obtain ⟨f1, f2, -, f4⟩ := acqFor_keeps g.bump a ret (s.coreOf a.t)
  generalize g.bump.acqFor a ret (s.coreOf a.t) = f at f1 f2 f4 hperf
  obtain ⟨-, z2, z3, -⟩ := finish_passBy_same f id a
  have hft : f.threads = g.threads := f1.threads
  have hrs : ∀ p ∈ (inOrder (szBytes sz) (fun l m => (laneResult k (8 * szBytes sz) l m).1) (Mem.rd v.mem) (ls.zip (xs.map Xl.pa))).2, p.1 ∈ ls := fun p hp => by
    obtain ⟨q, hq, he⟩ := List.mem_map.mp (inOrder_mem hp)
    exact he ▸ (List.of_mem_zip hq).1
  have hy : MemoryOnly v (f.withThreads s) := (g2.trans ((MemoryOnly.bump g).trans f1).threadsToo).withThreads hsv.threads
  unfold AtomsAtHome
  refine ⟨f.withThreads s, (f.passBy a).finish id a, h.exec_done hd nd hperf, hy,
    h.ends hne hd.2.2.1 hrs (fun hr => (g5 hr).between hsv.threads hft) (fun hr => (hft.trans (g6 hr).1).trans hsv.threads), fun x => ?_, fun hr e he => ?_⟩
  · rw [z3, f2]
    exact congrFun g4 x
  · rw [State.die, z2]
    refine (f4 e).trans (((g6 hr).2 e he).trans ?_)
    rw [← laneFlags_zip k (szBytes sz) e (fun x : Xl => atDie (s.coreOf a.t) x.pa x.attr .home) _ hlen]

end

end Sys2Proof.Machine
end

section
/-! One lane of an atomic at the level of its scope, and the trap at an address of the system range (R87, R109). -/
namespace Sys2Proof.Machine

-- The trap

/-- What a lane at an address of the system range does: its access is over, and its thread traps. -/
def LaneTraps (s u : State) (id : Nat) (a : Acc) (l : AtLane) : Prop :=
  ∃ y z, exec (if loadClass a then Instr.loadComplete id else Instr.storeComplete id) s = .next z ∧ y = { u with threads := y.threads, accs := mdel s.accs id }
    ∧ (∀ t, y.thr t = (s.thr t).map (fun x => if t = l.t then x.uncount a.flag else x))
    ∧ TrapsTaken y z l.t.wg [(l.t, { cause := 2, addr := l.va })] [] Thread.savedPc

theorem IsAtoms.traps {s : State} {id : Nat} {a : Acc} {k : AtKind} {ret : Bool} {sz : Sz} {l : AtLane} {d : Opnd} (h : IsAtoms s id a k ret sz [l] d)
    (hd : Due s id a) (nd : (s.accs.map Prod.fst).Nodup) (hg : a.space = .global) {u : State} {x : Xl}
    (hx : s.xlateAll (s.coreOf a.t / 32) (s.ctxOf a.t.wg) { r := true, w := true } [l.va] = (u, .ok [x])) (hsys : inSystem x.pa = true)
    (hu : UserTrap s l.t.wg [l.t]) (hlive : ∀ y, s.thr l.t = some y → y.exited = false) :
    LaneTraps s u id a l := by
  obtain ⟨hm, -⟩ := xlateAll_ok hx
  have hown : a.owners = [l.t] := h.owners
  have hperf : s.perform id a = (u, .trap (illegalState l.va)) := by
    rw [perform_atoms s id h.op]
    dsimp only
    rw [if_pos hg, show [l].map AtLane.va = [l.va] from rfl, hx]
    dsimp only
    rw [List.zip_cons_cons, List.find?_cons, hsys]
  have hthr : ∀ t, (u.finish id a).thr t = (s.thr t).map (fun x => if t = l.t then x.uncount a.flag else x) := by
    intro t
    rw [finish_thr hd.2.2.1, hown, State.thr, hm.threads]
    by_cases ht : t = l.t
    · simp [ht, State.thr]
    · simp [ht, State.thr]
  obtain ⟨⟨w, hw, hrun⟩, hts⟩ := hu
  obtain ⟨-, x0, hx0, hx0s⟩ := hts l.t (List.mem_singleton_self _)
  have hx1 : (u.finish id a).thr l.t = some (x0.uncount a.flag) := by rw [hthr, hx0]; simp
  have hkeep : (x0.uncount a.flag).sys = false ∧ (x0.uncount a.flag).exited = false := by
    cases a.flag <;> exact ⟨hx0s, hlive x0 hx0⟩
  have hts : a.owners.filter (fun t => (((u.finish id a).thr t).map (fun x => !x.exited)).getD false) = [l.t] := by
    rw [hown, List.filter_cons, hx1]
    simp [hkeep.2]
  have hwg : (u.finish id a).wg l.t.wg = some w := by
    rw [← hw, State.wg, show (u.finish id a).wgs = u.wgs by rw [finish_rest], hm.wgs]
    rfl
  have htrap := takeTraps_user (u.finish id a) [l.t] [(l.t, { cause := 2, addr := l.va })] Thread.savedPc l.t.wg (by simp) (by simp) (by simp)
    ⟨⟨w, hwg, hrun⟩, fun v hv => by obtain rfl := List.mem_singleton.mp hv; exact ⟨rfl, _, hx1, hkeep.1⟩⟩
  unfold LaneTraps
  refine ⟨u.finish id a, (u.finish id a).lateTrap a (illegalState l.va), ?_, ?_, hthr, ?_⟩
  · rw [exec_complete, complete_alone hd nd (by rw [h.op]; rfl) h.mates, hperf]
  · rw [← show u.accs = s.accs by rw [hm.1]]
    exact finish_rest u id a
  · unfold State.lateTrap
    dsimp only
    rw [hts]
    simpa [illegalState] using htrap

-- The level of a scope

/-- A read at the level finds these bytes. -/
def LevelServes (s : State) (c pa : Nat) (a : PageAttr) (p : AtPlace) (bs : List Byte) : Prop :=
  match p with
  | .l1 => a.l2Only = false ∧ L1Serves s c pa bs
  | .l2 => L2Serves s (c / 32) pa a bs ∧ (∃ v : State, s.kinds = (v.meetKinds pa a).kinds) ∧ ∀ m ∈ dirtyLines s c, m.line ≠ pa / 128
  | .home => False

theorem LevelServes.read {s : State} {c pa : Nat} {a : PageAttr} {p : AtPlace} {bs : List Byte} (h : LevelServes s c pa a p bs) (ho : OneKind s pa) :
    (s.atRead c pa bs.length a p).2 = bs := by
  cases p with
  | home => exact h.elim
  | l1 => exact h.2.read h.1 (by decide)
  | l2 =>
    obtain ⟨h1, ⟨v, h2⟩, h3⟩ := h
    obtain ⟨g1, g2, g3, -⟩ := l1Flush_clean h3 (n := lineOf pa)
    refine (h1.later g1 (by rw [State.die, g3]; rfl)).read (kindsAt_again (g2.trans h2) ?_)
    rwa [OneKind, g2]

theorem LevelServes.later {s z : State} {c pa : Nat} {a : PageAttr} {p : AtPlace} {bs : List Byte} (h : LevelServes s c pa a p bs) (hm : z.mem = s.mem)
    (hk : z.kinds = s.kinds) (hl : p = .l2 → (z.die (c / 32)).l2 = (s.die (c / 32)).l2) (hd : ∀ m ∈ dirtyLines z c, ∃ m' ∈ dirtyLines s c, m'.line = m.line)
    (hc : p = .l1 → z.cores = s.cores) : LevelServes z c pa a p bs := by
  cases p with
  | home => exact h
  | l1 => exact ⟨h.1, h.2.later (hc rfl)⟩
  | l2 =>
    obtain ⟨h1, ⟨v, h2⟩, h3⟩ := h
    refine ⟨h1.later hm (hl rfl), ⟨v, hk.trans h2⟩, fun m hm he => ?_⟩
    obtain ⟨m', hm', he'⟩ := hd m hm
    exact h3 m' hm' (he'.trans he)

/-- What a read at a level has given it goes on to give. -/
theorem atRead_serves {s : State} (hs : Canonical s) {c : Nat} (hc : c < 128) (pa n : Nat) (a : PageAttr) {p : AtPlace} (hp : p ≠ .home) (h1 : p = .l1 → a.l2Only = false) :
    LevelServes (s.atRead c pa n a p).1 c pa a p (s.atRead c pa n a p).2 := by
  cases p with
  | home => exact absurd rfl hp
  | l1 => exact ⟨h1 rfl, l1Read_serves (h1 rfl) (by decide) n⟩
  | l2 =>
    refine ⟨l2Read_serves (l1Flush_canonical hs) (Nat.div_lt_of_lt_mul hc) pa n a, ⟨_, l2Read_kinds ..⟩, fun m hm => l1Flush_gone s c (pa / 128) m ?_⟩
    exact sameDirty_closed.l2Read (s.l1Flush c (lineOf pa)) (c / 32) pa n a c ▸ hm

section
variable {s : State} (hs : Canonical s) {c : Nat} {pa : Nat} {a : PageAttr} {p : AtPlace} {old bs : List Byte} (h : LevelServes s c pa a p old)
  (hpa : pa % 128 + bs.length ≤ 128) (tag : Nat)
include hs h hpa

theorem LevelServes.write (hc : c < 128) (hsys : inSystem pa = false) : LevelServes (s.atWrite c tag pa a p bs) c pa a p bs := by
  cases p with
  | home => exact h
  | l1 => exact ⟨h.1, l1Write_serves s c tag h.1 (by decide) hpa⟩
  | l2 =>
    refine ⟨l2Write_serves hs (Nat.div_lt_of_lt_mul hc) a hsys hpa, ⟨s, l2Write_kinds _ _ _ _ _ hsys⟩, fun m hm => h.2.2 m ?_⟩
    exact sameDirty_closed.l2Write s (c / 32) pa a bs 0 c ▸ hm

/-- A write at a level that has the line changes no other byte of memory that the die does not hold dirty. -/
theorem LevelServes.frame {x : Nat} (hx : ¬ (pa ≤ x ∧ x < pa + bs.length)) (hn : heldByte s (c / 32) x = none) (ho : OneKind (s.atWrite c tag pa a p bs) x) :
    Mem.rd (s.atWrite c tag pa a p bs).mem x = Mem.rd s.mem x := by
  cases p with
  | home => exact h.elim
  | l1 =>
    obtain ⟨l, hl, -⟩ := h.2
    obtain ⟨l', hw⟩ := l1Write_found (tag := tag) h.1 (show Hint.normal ≠ .bypass by decide) bs hl
    rw [show s.atWrite c tag pa a .l1 bs = s.l1Put c l' from hw]
    rfl
  | l2 => exact ((l2Write_step hs hpa a 0 x).2 hx).mem hn ho

end

-- One lane

theorem atRead_home_value (s : State) (c pa n : Nat) (a : PageAttr) :
    leNat (s.atRead c pa n a .home).2 = valueAt (Mem.rd (s.atRead c pa n a .home).1.mem) pa n := by
  unfold State.atRead
  dsimp only
  generalize (if heldApart (c / 32) pa a = true then (s.l1Flush c (lineOf pa)).l2Drop (c / 32) (lineOf pa) else s.l1Flush c (lineOf pa)) = u
  split
  · rw [(dirTouch_sameBytes ..).mem]; rfl
  · rfl

theorem l2Read_length (s : State) (d pa n : Nat) (a : PageAttr) : (s.l2Read d pa n a).2.length = n := by
  unfold State.l2Read
  dsimp only
  split <;> simp [Mem.rdN]

theorem atRead_length (s : State) (c pa n : Nat) (a : PageAttr) {p : AtPlace} (h1 : p = .l1 → a.l2Only = false) : (s.atRead c pa n a p).2.length = n := by
  cases p with
  | home => simp [State.atRead, Mem.rdN]
  | l2 => exact l2Read_length ..
  | l1 =>
    unfold State.atRead State.l1Read
    dsimp only
    rw [if_neg (by simp [h1 rfl])]
    split <;> simp

theorem heldByte_of_cleanAt {s : State} {c x : Nat} (h : CleanAt s (fun d => d = c) x) : heldByte s (c / 32) x = none := by
  rw [heldByte, dirtyIn]
  cases hy : mget (s.die (c / 32)).l2 (x / 128) with
  | none => rfl
  | some y => rw [Option.bind_some, (h c rfl).2 y hy]; rfl

theorem atPlace_l1 {sc : Scope} {a : PageAttr} (h : atPlace sc a = .l1) : Scope.wide sc = false ∧ a.l2Only = false := by
  unfold atPlace at h
  split at h
  · cases h
  · split at h
    · cases h
    · rename_i hn
      simpa using hn

theorem atPlace_sys {sc : Scope} {a : PageAttr} (h : atPlace sc a ≠ .home) : sc ≠ .sys := fun e => h (atPlace_home (.inr e) a)

end Sys2Proof.Machine
end

section
/-! An atomic of one lane on a global address, at the place of its scope (R85 to R87, R109). -/
namespace Sys2Proof.Machine

theorem laneStore_keeps {w : State} (hw : Canonical w) (o : Option Nat) (n c tag pa : Nat) (a : PageAttr) (p : AtPlace) :
    let y := laneStore o n (fun b => w.atWrite c tag pa a p b) w
    MemoryOnly w y ∧ Canonical y ∧ SameDasr w y := by
  cases o with
  | none => exact ⟨.refl w, hw, fun _ => rfl⟩
  | some v => exact ⟨atWrite_only hw .., atWrite_canonical hw, sameDasr_closed.atWrite w c tag pa a p _⟩

/-- What a lane leaves at a level that serves what it has read. -/
theorem laneStore_level {w : State} (hw : Canonical w) (k : AtKind) (l : AtLane) {n m c : Nat} (hc : c < 128) (tag : Nat) {pa : Nat} {a : PageAttr} {p : AtPlace} {old : List Byte}
    (h : LevelServes w c pa a p old) (hm : m = leNat old) (hn : old.length = n) (hpa : pa % 32 + n ≤ 32) (hsys : inSystem pa = false) :
    let y := laneStore (laneStores k m l.x l.y (8 * n)).1 n (fun b => w.atWrite c tag pa a p b) w
    LevelServes y c pa a p (leBytes n (laneResult k (8 * n) l m).1)
      ∧ ∀ x, ¬ (pa ≤ x ∧ x < pa + n) → heldByte w (c / 32) x = none → OneKind y x → Mem.rd y.mem x = Mem.rd w.mem x := by
  unfold laneStore
  rw [laneResult_eq]
  cases (laneStores k m l.x l.y (8 * n)).1 with
  | none =>
    refine ⟨?_, fun _ _ _ _ => rfl⟩
    rw [Option.getD_none, hm, ← hn, leBytes_leNat]
    exact h
  | some v =>
    have hlen : (leBytes n v).length = n := leBytes_length n v
    exact ⟨h.write hw (by rw [hlen]; omega) tag hc hsys, fun x hx => h.frame hw (by rw [hlen]; omega) tag (by rwa [hlen])⟩

/-- One lane at its place: what it reads, what it gives its thread or DASR, and what it leaves. -/
theorem atLaneGo_place {v : State} (hv : Canonical v) {a : Acc} (k : AtKind) {ret : Bool} (n : Nat) {l : AtLane} {x : Xl} {c : Nat} (hc : v.coreOf l.t = c)
    (hsys : inSystem x.pa = false) (hd : ret = true → l.d.isS = false) :
    let p := atPlace a.sc x.attr
    let r := v.atRead c x.pa n x.attr p
    let m := leNat r.2
    let new := leBytes n (laneResult k (8 * n) l m).1
    let g := v.atLaneGo a k ret n l (some x)
    MemoryOnly v r.1 ∧ ThreadsAndMemory r.1 g ∧ LaneStep ret l (laneWords (n == 8) m, (laneResult k (8 * n) l m).2) (atDie c x.pa x.attr p) r.1 g
      ∧ (p = .home → Mem.rd g.mem = placed x.pa new (Mem.rd r.1.mem))
      ∧ (p ≠ .home → x.pa % 32 + n ≤ 32 → c < 128 → LevelServes g c x.pa x.attr p new
        ∧ ∀ j, ¬ (x.pa ≤ j ∧ j < x.pa + n) → CleanAt r.1 (fun d => d = c) j → OneKind g j → Mem.rd g.mem j = Mem.rd r.1.mem j) := by
  intro p r m new g
  have hg : g = _ := atLaneGo_glob v a k ret n l x
  dsimp only at hg
  rw [hc] at hg
  have hrc : Canonical r.1 := atRead_canonical hv
  obtain ⟨w1, w2, w3, w4⟩ := countAtomic_keeps r.1 c x.pa x.attr p
  have hwc := countAtomic_canonical hrc (c := c) (pa := x.pa) (a := x.attr) (p := p)
  have hg : g = _ := hg
  change g = State.atDone (laneStore (laneStores k m l.x l.y (8 * n)).1 n
    (fun b => (r.1.countAtomic c x.pa x.attr p).atWrite c ((r.1.countAtomic c x.pa x.attr p).tagOf l.t.wg) x.pa x.attr p b) (r.1.countAtomic c x.pa x.attr p))
    ret (n == 8) l m (laneResult k (8 * n) l m).2 (atDie c x.pa x.attr p) at hg
  generalize r.1.countAtomic c x.pa x.attr p = w at w1 w2 w3 w4 hwc hg
  obtain ⟨y1, y2, y3⟩ := laneStore_keeps hwc (laneStores k m l.x l.y (8 * n)).1 n c (w.tagOf l.t.wg) x.pa x.attr p
  have hhome : p = .home → Mem.rd (laneStore (laneStores k m l.x l.y (8 * n)).1 n (fun b => w.atWrite c (w.tagOf l.t.wg) x.pa x.attr p b) w).mem
      = placed x.pa new (Mem.rd r.1.mem) := fun hp => by
    have hm : m = valueAt (Mem.rd w.mem) x.pa n := by
      rw [w2.mem]
      exact (hp ▸ atRead_home_value v c x.pa n x.attr :)
    rw [← w2.mem, hp]
    exact (laneStore_home hwc k l hm c).1
  have hlevel := fun (hp : p ≠ .home) (hpa : x.pa % 32 + n ≤ 32) (hc : c < 128) => laneStore_level hwc k l hc (w.tagOf l.t.wg) (m := m)
    ((atRead_serves hv hc x.pa n x.attr hp (fun e => (atPlace_l1 e).2)).later w2.mem w2.kinds (fun _ => w2.l2 _)
      (fun i hi => ⟨i, by unfold dirtyLines State.core at hi ⊢; rwa [← w3], rfl⟩) (fun _ => w3)) rfl
    (atRead_length _ _ _ _ _ (fun e => (atPlace_l1 e).2)) hpa hsys
  generalize laneStore (laneStores k m l.x l.y (8 * n)).1 n (fun b => w.atWrite c (w.tagOf l.t.wg) x.pa x.attr p b) w = y at y1 y2 y3 hhome hlevel hg
  have hry : MemoryOnly r.1 y := w1.trans y1
  obtain ⟨g1, g2, g3⟩ := atDone_keeps (s := y) ret (n == 8) hd m (laneResult k (8 * n) l m).2 (atDie c x.pa x.attr p)
  have hstep := atDone_step y2 hry.threads (fun e => (y3 e).trans (w4 e)) ret (n == 8) hd m (laneResult k (8 * n) l m).2 (atDie c x.pa x.attr p)
  rw [← hg] at g1 g2 g3 hstep
  refine ⟨atRead_only hv .., hry.threadsToo.trans g1, hstep, fun hp => g2.mem ▸ hhome hp, fun hp hpa hc => ?_⟩
  obtain ⟨q1, q2⟩ := hlevel hp hpa hc
  refine ⟨q1.later g2.mem g2.kinds (fun _ => g2.l2 _) (fun i hi => ⟨i, by unfold dirtyLines State.core at hi ⊢; rwa [← g3], rfl⟩) (fun _ => g3), fun j hj hcl ho => ?_⟩
  rw [g2.mem, ← w2.mem]
  refine q2 j hj ?_ (by rwa [OneKind, g2.kinds] at ho)
  rw [heldByte, w2.l2]
  exact heldByte_of_cleanAt hcl

/-- An acquire after a lane, and the end of the access, leave what the lane's level serves. -/
theorem LevelServes.atEnd {g : State} {a : Acc} (ret : Bool) (id : Nat) {x : Xl} {c : Nat} {bs : List Byte} (h : LevelServes g c x.pa x.attr (atPlace a.sc x.attr) bs) :
    LevelServes (((g.bump.acqFor a ret c).passBy a).finish id a) c x.pa x.attr (atPlace a.sc x.attr) bs := by
  obtain ⟨-, f2, f3, -⟩ := acqFor_keeps g.bump a ret c
  have hp : atPlace a.sc x.attr ≠ .home := fun e => by rw [e] at h; exact h
  obtain ⟨-, z2, z3, z4, z5⟩ := finish_passBy_same (g.bump.acqFor a ret c) id a
  refine h.later (z3.trans f2) (z4.trans f3) (fun _ => ?_) (fun i hi => ?_) (fun e => ?_)
  · rw [State.die, z2, acqFor_dies g.bump (atPlace_sys hp)]
    rfl
  · unfold dirtyLines State.core at hi
    rw [z5] at hi
    exact acqFor_dirty g.bump a ret c i hi
  · rw [z5, acqFor_narrow g.bump (atPlace_l1 e).1]
    rfl

/-- What an atomic of one lane does, from state v after its release, at the translation x. -/
def OneLane (s v : State) (id : Nat) (a : Acc) (k : AtKind) (ret : Bool) (sz : Sz) (l : AtLane) (d : Opnd) (x : Xl) : Prop :=
  let c := s.coreOf a.t
  let n := szBytes sz
  let p := atPlace a.sc x.attr
  let r := v.atRead c x.pa n x.attr p
  let m := leNat r.2
  let new := leBytes n (laneResult k (8 * n) l m).1
  ∃ y z, exec (if loadClass a then Instr.loadComplete id else Instr.storeComplete id) s = .next z ∧ MemoryOnly r.1 y
    ∧ AtomEnds k ret sz d id a y z [(l, m)]
    ∧ (p = .home → ∀ j, Mem.rd z.mem j = placed x.pa new (Mem.rd r.1.mem) j)
    ∧ (p ≠ .home → x.pa % 32 + n ≤ 32 → OneKind z x.pa → c < 128 → (z.atRead c x.pa n x.attr p).2 = new
      ∧ ∀ j, ¬ (x.pa ≤ j ∧ j < x.pa + n) → CleanAt r.1 (fun d => d = c) j → OneKind z j → Mem.rd z.mem j = Mem.rd r.1.mem j)
    ∧ (c < 128 → ret = false → ∀ e < 4, (z.die e).dasr = (r.1.die e).dasr ||| (if e = atDie c x.pa x.attr p then dasrOf (laneResult k (8 * n) l m).2 else 0))

/-- An atomic of one lane, at any place: what it reads there, what it leaves there, and the flags it raises. -/
theorem IsAtoms.oneLane {s : State} {id : Nat} {a : Acc} {k : AtKind} {ret : Bool} {sz : Sz} {l : AtLane} {d : Opnd} (h : IsAtoms s id a k ret sz [l] d)
    (hs : Canonical s) (hd : Due s id a) (nd : (s.accs.map Prod.fst).Nodup) (hg : a.space = .global) {u : State} {x : Xl}
    (hx : s.xlateAll (s.coreOf a.t / 32) (s.ctxOf a.t.wg) { r := true, w := true } [l.va] = (u, .ok [x])) (hsys : inSystem x.pa = false) :
    OneLane s (s.relFor a [l] u) id a k ret sz l d x := by
  obtain ⟨hu, -⟩ := xlateAll_ok hx
  have huc : Canonical u := by
    have := xlateAll_canonical hs (d := s.coreOf a.t / 32) (ctx := s.ctxOf a.t.wg) (nd := { r := true, w := true }) (as := [l.va])
    rwa [hx] at this
  obtain ⟨v1, v2, -, -⟩ := relFor_keeps (s := s) huc a [l]
  have hlane : ret = true → l.d = d ∧ l.d.isS = false := fun hr => by
    obtain ⟨e1, e2, -⟩ := h.fits hr l (List.mem_singleton_self _)
    exact ⟨e1, e1 ▸ e2⟩
  have hperf := h.perform_glob hg hx (fun y hy => List.mem_singleton.mp hy ▸ hsys)
  rw [List.zip_cons_cons, List.zip_nil_left, List.foldl_cons, List.foldl_nil] at hperf
  generalize s.relFor a [l] u = v at v1 v2 hperf
  obtain ⟨hvr, hrg, hstep, hhome, hlevel⟩ := atLaneGo_place v2 (a := a) k (ret := ret) (szBytes sz) (((hu.trans v1).coreOf _).trans (h.core l (List.mem_singleton_self _))) hsys
    (fun hr => (hlane hr).2)
  have hsr := (hu.trans v1).trans hvr
  generalize v.atLaneGo a k ret (szBytes sz) l (some x) = g at hperf hrg hstep hhome hlevel
  obtain ⟨f1, f2, f3, f4⟩ := acqFor_keeps g.bump a ret (s.coreOf a.t)
  obtain ⟨-, z2, z3, z4, -⟩ := finish_passBy_same (g.bump.acqFor a ret (s.coreOf a.t)) id a
  have hft : (g.bump.acqFor a ret (s.coreOf a.t)).threads = g.threads := f1.threads
  have hend := fun (bs : List Byte) => LevelServes.atEnd (g := g) (a := a) ret id (x := x) (c := s.coreOf a.t) (bs := bs)
  have hdone := h.exec_done hd nd hperf
  have hy := (hrg.trans ((MemoryOnly.bump g).trans f1).threadsToo).withThreads hsr.threads
  generalize g.bump.acqFor a ret (s.coreOf a.t) = f at f1 f2 f3 f4 z2 z3 z4 hft hend hdone hy
  unfold OneLane
  refine ⟨f.withThreads s, _, hdone, hy, ?_, fun hp j => ?_, fun hp hpa ho hc => ⟨?_, fun j hj hcl hoj => ?_⟩, fun _ hr e he => ?_⟩
  · refine h.ends (List.cons_ne_nil _ _) hd.2.2.1 (fun q hq => ?_) (fun hr => ?_) (fun hr => (hft.trans (hstep.stays hr)).trans hsr.threads)
    · rw [List.mem_singleton.mp hq]
      exact List.mem_singleton_self _
    · exact (TakesAll.cons (by simp) ((hlane hr).1 ▸ hstep.takes hr) (.nil d rfl)).between hsr.threads hft
  · rw [z3, f2]
    exact congrFun (hhome hp) j
  · have := (hend _ (hlevel hp hpa hc).1).read ho
    rwa [leBytes_length] at this
  · rw [z3, f2]
    refine (hlevel hp hpa hc).2 j hj hcl ?_
    rwa [OneKind, z4, f3] at hoj
  · rw [State.die, z2]
    exact (f4 e).trans ((hstep.dasr hr e he).trans (congrArg _ (if_congr eq_comm rfl rfl)))

end Sys2Proof.Machine
end

section
/-! PLADD at the home of its block (R115, R378). -/
namespace Sys2Proof.Machine

/-- Reads at the home of lines that nothing holds dirty, one after another. -/
theorem readsHome {c : Nat} (size : Nat → Nat) (qs : List (Xl × Nat)) {s : State} (hs : Canonical s) (h : ∀ q ∈ qs, LineClean s c q.1.pa) (got : List Nat) :
    let r := qs.foldl (fun (z : State × List Nat) q =>
      let v := z.1.atRead c q.1.pa (size q.2) q.1.attr .home
      (v.1, z.2 ++ [leNat v.2])) (s, got)
    Canonical r.1 ∧ MemoryOnly s r.1 ∧ SameDasr s r.1 ∧ Mem.rd r.1.mem = Mem.rd s.mem ∧ r.2 = got ++ qs.map (fun q => valueAt (Mem.rd s.mem) q.1.pa (size q.2)) := by
  induction qs generalizing s got with
  | nil => exact ⟨hs, .refl s, fun _ => rfl, rfl, (List.append_nil _).symm⟩
  | cons q qs ih =>
    obtain ⟨h1, h2, h3⟩ := atRead_home hs (size q.2) q.1.attr (h q (List.mem_cons_self ..))
    have hm : Mem.rd (s.atRead c q.1.pa (size q.2) q.1.attr .home).1.mem = Mem.rd s.mem := funext h1
    obtain ⟨g1, g2, g3, g4, g5⟩ := ih (atRead_canonical hs) (fun y hy => h3.line (h y (List.mem_cons_of_mem _ hy))) (got ++ [leNat (s.atRead c q.1.pa (size q.2) q.1.attr .home).2])
    refine ⟨g1, (atRead_only hs ..).trans g2, fun e => (g3 e).trans (sameDasr_closed.atRead s c q.1.pa (size q.2) q.1.attr .home e), g4.trans hm, g5.trans ?_⟩
    rw [hm, h2, List.append_assoc]
    rfl

/-- What the reads of a block give: the exponent byte, and then the plane words. -/
theorem blockReads (m : Nat → Byte) (x : Xl) (xs : List Xl) :
    ((x :: xs).zipIdx).map (fun q => valueAt m q.1.pa (if q.2 = 0 then 1 else 2)) = valueAt m x.pa 1 :: xs.map (fun x => valueAt m x.pa 2) := by
  rw [List.zipIdx_cons, List.map_cons]
  congr 1
  conv_rhs => rw [← List.zipIdx_map_fst 1 xs, List.map_map]
  refine List.map_congr_left (fun q hq => ?_)
  have := List.le_snd_of_mem_zipIdx hq
  rw [if_neg (by omega)]
  rfl

/-- Writes at the home, one after another. -/
theorem writesHome (ps : List (Xl × List Byte)) {s : State} (hs : Canonical s) :
    let z := ps.foldl (fun s p => s.homeWrite p.1.pa p.2) s
    Canonical z ∧ MemoryOnly s z ∧ SameDasr s z ∧ Mem.rd z.mem = placedAll (ps.map (fun p => (p.1.pa, p.2))) (Mem.rd s.mem) := by
  induction ps generalizing s with
  | nil => exact ⟨hs, .refl s, fun _ => rfl, rfl⟩
  | cons p ps ih =>
    obtain ⟨g1, g2, g3, g4⟩ := ih (homeWrite_canonical hs (pa := p.1.pa) (bs := p.2))
    refine ⟨g1, (homeWrite_only ..).trans g2, fun e => (g3 e).trans (sameDasr_closed.homeWrite s p.1.pa p.2 4 0 e), g4.trans ?_⟩
    rw [homeWrite_mem, placed_wrN hs.1]
    rfl

/-- R378's result for a block of this exponent and these plane words. -/
def pladdResult (p e : Nat) (ws : List Nat) (us : List Word) : Nat × Option (List Int) × BitVec 5 :=
  pladdApply p e ((List.range 16).map (fun i => mant p ws i)) (us.map (fun w => decodeF fp32 w.toNat))

/-- The bytes that it leaves: the exponent, and the planes. -/
def pladdBytes (p e : Nat) (ws : List Nat) (us : List Word) : List (List Byte) :=
  [BitVec.ofNat 8 (pladdResult p e ws us).1] :: (((pladdResult p e ws us).2.1.map (planesOf p)).getD ws).map (leBytes 2)

/-- The reads of a block at its home. -/
def State.readBlock (s : State) (c : Nat) (xs : List Xl) : State × List Nat := xs.zipIdx.foldl (fun (z : State × List Nat) q =>
  let v := z.1.atRead c q.1.pa (if q.2 = 0 then 1 else 2) q.1.attr .home
  (v.1, z.2 ++ [leNat v.2])) (s, [])

theorem pladdBlock_eq (s : State) {a : Acc} (hsc : a.sc = .dev ∨ a.sc = .sys) (c : Nat) (h : Handle) (us : List Word) (x : Xl) (xs : List Xl) {u : State} {e : Nat} {ws : List Nat}
    (hr : s.readBlock c (x :: xs) = (u, e :: ws)) : s.pladdBlock a c h us (x :: xs) =
      ((((x :: xs).zip (pladdBytes h.pcnt e ws us)).foldl (fun s p => s.homeWrite p.1.pa p.2) u).countAtomic c x.pa x.attr .home).raiseDasr
        (atDie c x.pa x.attr .home) (pladdResult h.pcnt e ws us).2.2 := by
  unfold State.readBlock at hr
  unfold State.pladdBlock pladdBytes
  simp only [atPlace_home hsc]
  rw [hr]
  unfold pladdResult
  dsimp only [List.headD_cons]
  rw [show List.drop 1 (e :: ws) = ws from rfl]
  generalize pladdApply h.pcnt e ((List.range 16).map (fun i => mant h.pcnt ws i)) (us.map (fun w => decodeF fp32 w.toNat)) = r
  obtain ⟨e', _ | ms, fl⟩ := r <;> rfl

/-- A block at the home: its exponent and planes become those of R378's sum. -/
theorem pladdBlock_home {s : State} (hs : Canonical s) {a : Acc} (hsc : a.sc = .dev ∨ a.sc = .sys) {c : Nat} (h : Handle) (us : List Word) (x : Xl) (xs : List Xl)
    (hcl : ∀ y ∈ x :: xs, LineClean s c y.pa) :
    let z := s.pladdBlock a c h us (x :: xs)
    let e := valueAt (Mem.rd s.mem) x.pa 1
    let ws := xs.map (fun y => valueAt (Mem.rd s.mem) y.pa 2)
    MemoryOnly s z ∧ Mem.rd z.mem = placedAll (((x :: xs).map Xl.pa).zip (pladdBytes h.pcnt e ws us)) (Mem.rd s.mem)
      ∧ ∀ i < 4, (z.die i).dasr = (s.die i).dasr ||| (if atDie c x.pa x.attr .home = i then (pladdResult h.pcnt e ws us).2.2 else 0) := by
  intro z e ws
  obtain ⟨r1, r2, r3, r4, r5⟩ := readsHome (fun i => if i = 0 then 1 else 2) (x :: xs).zipIdx hs
    (fun q hq => hcl q.1 (List.zipIdx_map_fst 0 (x :: xs) ▸ List.mem_map.mpr ⟨q, hq, rfl⟩)) []
  rw [List.nil_append, blockReads] at r5
  have hz : z = _ := pladdBlock_eq s hsc c h us x xs (Prod.ext rfl r5)
  change z = ((((x :: xs).zip (pladdBytes h.pcnt e ws us)).foldl (fun s p => s.homeWrite p.1.pa p.2) (s.readBlock c (x :: xs)).1).countAtomic c x.pa x.attr .home).raiseDasr
    (atDie c x.pa x.attr .home) (pladdResult h.pcnt e ws us).2.2 at hz
  change Canonical (s.readBlock c (x :: xs)).1 at r1
  change MemoryOnly s (s.readBlock c (x :: xs)).1 at r2
  change SameDasr s (s.readBlock c (x :: xs)).1 at r3
  change Mem.rd (s.readBlock c (x :: xs)).1.mem = Mem.rd s.mem at r4
  generalize (s.readBlock c (x :: xs)).1 = u at r1 r2 r3 r4 hz
  obtain ⟨w1, w2, w3, w4⟩ := writesHome ((x :: xs).zip (pladdBytes h.pcnt e ws us)) r1
  generalize ((x :: xs).zip (pladdBytes h.pcnt e ws us)).foldl (fun s p => s.homeWrite p.1.pa p.2) u = w at w1 w2 w3 w4 hz
  obtain ⟨c1, c2, -, c4⟩ := countAtomic_keeps w c x.pa x.attr .home
  have hcc := countAtomic_canonical w1 (c := c) (pa := x.pa) (a := x.attr) (p := .home)
  generalize w.countAtomic c x.pa x.attr .home = v at c1 c2 c4 hcc hz
  refine ⟨?_, ?_, fun i hi => ?_⟩
  · rw [hz]
    exact ((r2.trans w2).trans c1).trans (.updDie ..)
  · rw [hz, show (State.raiseDasr v (atDie c x.pa x.attr .home) (pladdResult h.pcnt e ws us).2.2).mem = v.mem from rfl, c2.mem, w4, r4]
    exact congrArg (fun ps => placedAll ps (Mem.rd s.mem)) List.zip_map_left.symm
  · rw [hz, State.raiseDasr, die_updDie, hcc.2.2.2.2]
    have hi' : (v.die i).dasr = (s.die i).dasr := ((c4 i).trans (w3 i)).trans (r3 i)
    by_cases he : atDie c x.pa x.attr .home = i
    · rw [if_pos ⟨he, hi⟩, if_pos he, ← hi']
    · rw [if_neg (fun k => he k.1), if_neg he, hi']
      exact BitVec.or_zero.symm

theorem release_lineClean {s : State} (hs : Canonical s) {c pa tag : Nat} (sc : Scope) (h : LineClean s c pa) : LineClean (s.release c tag sc) c pa :=
  releaseTags_lineClean hs [tag] sc h

/-- A PLADD of one block, performed. -/
theorem perform_pladd {s : State} {id : Nat} {a : Acc} {hb : List Byte} {b : Nat} {us : List Word} {h : Handle} {u : State} {xs : List Xl} (ho : a.op = .pladd hb [(b, us)])
    (hh : handleOf hb = some h) (hx : s.xlateAll (s.coreOf a.t / 32) (s.ctxOf a.t.wg) { r := true, w := true } ((blockAddrs h b h.pcnt).map (fun p => BitVec.ofNat 64 p.1)) = (u, .ok xs))
    (hsys : ∀ x ∈ xs, inSystem x.pa = false) :
    s.perform id a = ((if a.ord = .sync then u.release (s.coreOf a.t) (s.tagOf a.t.wg) a.sc else u).pladdBlock a (s.coreOf a.t) h us xs, .done) := by
  have hfind : ((List.flatMap (fun u => blockAddrs h u.1 h.pcnt) [(b, us)]).zip ([] ++ [xs]).flatten).find? (fun p => inSystem p.2.pa) = none := by
    refine List.find?_eq_none.mpr (fun p hp => ?_)
    have := (List.of_mem_zip hp).2
    simp only [List.nil_append, List.flatten_cons, List.flatten_nil, List.append_nil] at this
    simp [hsys _ this]
  unfold State.perform
  rw [ho]
  dsimp only
  rw [hh]
  dsimp only
  unfold State.pladdGo
  dsimp only
  rw [List.foldl_cons, List.foldl_nil]
  dsimp only
  rw [hx]
  dsimp only
  rw [hfind]
  dsimp only
  rw [(xlateAll_ok hx).1.tagOf]
  rfl

end Sys2Proof.Machine
end

section
/-! Atomics: each lane's old value and what it leaves, and PLADD (R109, R113 to R115, R316, R378). -/
namespace Sys2Proof.Machine

theorem releaseIf_keeps {u : State} (hu : Canonical u) {p : Prop} [Decidable p] (c tag : Nat) (sc : Scope) :
    MemoryOnly u (if p then u.release c tag sc else u) ∧ Canonical (if p then u.release c tag sc else u)
      ∧ ∀ pa, LineClean u c pa → LineClean (if p then u.release c tag sc else u) c pa := by
  split
  · exact ⟨release_only .., release_canonical hu, fun _ h => release_lineClean hu sc h⟩
  · exact ⟨.refl u, hu, fun _ h => h⟩

/-- What a PLADD of one block at its home does, from state g after its release, at the translations xs of its exponent and planes. -/
def PladdDone (s g : State) (id : Nat) (a : Acc) (h : Handle) (us : List Word) (xs : List Xl) : Prop :=
  let pas := xs.map Xl.pa
  let planes := (pas.drop 1).map (fun pa => valueAt (Mem.rd g.mem) pa 2)
  let e := valueAt (Mem.rd g.mem) (pas.headD 0) 1
  ∃ y z, exec (if loadClass a then Instr.loadComplete id else Instr.storeComplete id) s = .next z ∧ MemoryOnly g y ∧ Completes (y.passBy a) z id a .z []
    ∧ (∀ j, Mem.rd z.mem j = placedAll (pas.zip (pladdBytes h.pcnt e planes us)) (Mem.rd g.mem) j)
    ∧ ∀ i < 4, (z.die i).dasr = (g.die i).dasr
      ||| (if (xs.head?).map (fun x => atDie (s.coreOf a.t) x.pa x.attr .home) = some i then (pladdResult h.pcnt e planes us).2.2 else 0)

/-- A PLADD of one block at its home is complete when the block is updated. -/
theorem pladd_completes {s : State} (hs : Canonical s) {id : Nat} {a : Acc} (hd : Due s id a) (nd : (s.accs.map Prod.fst).Nodup) {hb : List Byte} {b : Nat} {us : List Word}
    {h : Handle} {u : State} {xs : List Xl} (ho : a.op = .pladd hb [(b, us)]) (hh : handleOf hb = some h) (hsc : a.sc = .dev ∨ a.sc = .sys)
    (hx : s.xlateAll (s.coreOf a.t / 32) (s.ctxOf a.t.wg) { r := true, w := true } ((blockAddrs h b h.pcnt).map (fun p => BitVec.ofNat 64 p.1)) = (u, .ok xs))
    (hcl : ∀ x ∈ xs, inSystem x.pa = false ∧ CleanLine u (s.coreOf a.t) x.pa) :
    PladdDone s (if a.ord = .sync then u.release (s.coreOf a.t) (s.tagOf a.t.wg) a.sc else u) id a h us xs := by
  have huc : Canonical u := by
    have := xlateAll_canonical hs (d := s.coreOf a.t / 32) (ctx := s.ctxOf a.t.wg) (nd := { r := true, w := true })
      (as := (blockAddrs h b h.pcnt).map (fun p => BitVec.ofNat 64 p.1))
    rwa [hx] at this
  obtain ⟨hu, hlen⟩ := xlateAll_ok hx
  have hperf := perform_pladd (id := id) ho hh hx (fun x hx => (hcl x hx).1)
  obtain ⟨hgu, hgc, hclean⟩ := releaseIf_keeps huc (p := a.ord = .sync) (s.coreOf a.t) (s.tagOf a.t.wg) a.sc
  generalize (if a.ord = .sync then u.release (s.coreOf a.t) (s.tagOf a.t.wg) a.sc else u) = g at hperf hgu hgc hclean
  have hxs : ∀ x ∈ xs, LineClean g (s.coreOf a.t) x.pa := fun x hx => hclean x.pa (lineClean_of (hcl x hx).2)
  obtain ⟨x, xs, rfl⟩ : ∃ x ys, xs = x :: ys := List.exists_cons_of_ne_nil (fun hn => by simp [hn, blockAddrs] at hlen)
  obtain ⟨f1, f2, f3⟩ := pladdBlock_home hgc hsc h us x xs hxs
  have hplanes : xs.map (fun y => valueAt (Mem.rd g.mem) y.pa 2) = (xs.map Xl.pa).map (fun pa => valueAt (Mem.rd g.mem) pa 2) := by
    rw [List.map_map]
    rfl
  rw [hplanes] at f2 f3
  have hthr := ((hu.trans hgu).trans f1).threads
  generalize g.pladdBlock a (s.coreOf a.t) h us (x :: xs) = f at f1 f2 f3 hthr hperf
  obtain ⟨-, z2, z3, -⟩ := finish_passBy_same f id a
  unfold PladdDone
  refine ⟨f.withThreads s, (f.passBy a).finish id a, ?_, f1.threadsToo.withThreads (hu.trans hgu).threads, completes_of hd.2.2.1 hthr, fun j => ?_, fun i hi => ?_⟩
  · rw [exec_complete, complete_alone hd nd (by rw [ho]; rfl) (by unfold State.redMates; rw [ho]), hperf]
  · rw [z3, f2]
    rfl
  · rw [State.die, z2]
    refine (f3 i hi).trans (congrArg _ (if_congr ?_ rfl rfl))
    rw [List.head?_cons, Option.map_some, Option.some.injEq]

/-- Settles O30: lanes in order where they cannot meet another core's bytes, one lane at every place, the trap, and PLADD. -/
theorem atomicsComplete : Obligations.AtomicsComplete := by
  unfold Obligations.AtomicsComplete
  intro s id a hs hd nd c ctx ev
  refine ⟨fun k ret sz ls d ho hne how hcore hsz hfit hm hap => ?_, fun hb b us h u xs ho hh hsc hx hcl => pladd_completes hs hd nd ho hh hsc hx hcl⟩
  have h : IsAtoms s id a k ret sz ls d := ⟨ho, how, hcore, hsz, hfit, hm, hap⟩
  refine ⟨fun pos hg hp => h.inPads hs hd nd hne hg pos hp, fun u xs hg hsc hx hcl => h.atHome hs hd nd hne hg hsc hx hcl, fun l u x hg hl => ?_, fun l u x hg hl => ?_⟩
  · subst hl
    exact fun hx hsys => h.oneLane hs hd nd hg hx hsys
  · subst hl
    exact fun hx hsys _ hu hlive _ => h.traps hd nd hg hx hsys hu hlive

end Sys2Proof.Machine
end
